-- ==== Sys2Proof/Word.lean ====
section
/-!
DEFINITION. The word types of the DZ4: bytes, halves, words and doublewords (R2).
-/
namespace Sys2Proof

/-- One byte. -/
abbrev Byte := BitVec 8
/-- A 16-bit half. -/
abbrev W16 := BitVec 16
/-- A 32-bit word: an instruction word, a lane register. -/
abbrev W32 := BitVec 32
/-- A 64-bit doubleword: a scalar register, the PC, package time. -/
abbrev W64 := BitVec 64

end Sys2Proof
end

