-- ==== Sys2Proof/Syntax.lean ====
section
/-!
DEFINITION. The syntax of the DZ4's steps: one constructor of `Instr` per row of the opcode table. The first 195
rows are instruction words, whose arguments are the fields of the encoding (R22 to R34) at their encoded width; `z`
is the A bit. The other 127 rows are the part's own steps, whose arguments say which agent takes the step and what
arrives from outside.
-/
namespace Sys2Proof

/-- The IPv4 header fields that the port checks (R79). -/
structure Ipv4Header where
  ihl : BitVec 4
  moreFragments : Bool
  fragmentOffset : BitVec 13
  sumOk : Bool
  tos : Byte
  src : BitVec 32
  dst : BitVec 32
  deriving DecidableEq, Repr

/-- The IPv6 header fields that the port checks (R79). -/
structure Ipv6Header where
  nextHeader : Byte
  tos : Byte
  src : BitVec 128
  dst : BitVec 128
  deriving DecidableEq, Repr

/-- What an IP datagram carries (R79 to R81). -/
inductive Layer4 where
  /-- A UDP datagram: ports, whether the checksum field is zero, whether it verifies, and the payload. -/
  | udp (sport dport : W16) (sumZero sumOk : Bool) (payload : List Byte)
  /-- An ICMPv6 Neighbour Solicitation for a target address. -/
  | solicitation (target : BitVec 128)
  /-- Any other ICMPv6 message. -/
  | icmpv6
  /-- ICMP, or a protocol other than UDP over IPv4; or an extension header over IPv6. -/
  | other
  deriving DecidableEq, Repr

/-- What a frame carries above layer 2. -/
inductive FrameBody where
  /-- An IEEE 802.3 PAUSE frame (R78). -/
  | pause
  /-- An IEEE 802.1Qbb frame (R78): the priorities that it names, and the quanta of 512 bit times for which each pauses, 0 to resume. -/
  | pfc (enable : Byte) (quanta : List W16)
  /-- An ARP frame: whether it is a request, and the address asked for (R81). -/
  | arp (request : Bool) (target : BitVec 32) (sender : BitVec 32)
  | ipv4 (h : Ipv4Header) (l4 : Layer4)
  | ipv6 (h : Ipv6Header) (l4 : Layer4)
  deriving DecidableEq, Repr

/-- A received Ethernet frame, after its FEC and FCS (R77, R78). -/
structure Frame where
  /-- Length in bytes. -/
  length : Nat
  dst : BitVec 48
  src : BitVec 48
  /-- Whether it carries an 802.1ad service tag. -/
  serviceTag : Bool
  /-- Tag control information of its 802.1Q customer tags. -/
  tags : List W16
  body : FrameBody
  /-- The whole frame from its destination MAC address onward (R433). -/
  raw : List Byte
  deriving DecidableEq, Repr

/-- Where a RoCEv2 packet came from (R80), port, VLAN ID and the DSCP and ECN byte that an answer copies (R79), and the queue
pair that it names. -/
structure RoceSource where
  port : Nat
  vlan : BitVec 12
  qp : BitVec 24
  tos : Byte := 0
  /-- The addresses of its frame, its priority and its UDP source port. -/
  smac : BitVec 48 := 0
  dmac : BitVec 48 := 0
  v6 : Bool := false
  sip : BitVec 128 := 0
  dip : BitVec 128 := 0
  pcp : BitVec 3 := 0
  sport : BitVec 16 := 0
  deriving DecidableEq, Repr

/-- An inbound RDMA request, with the physical place that the RoCEv2 engine resolved it to (R80). -/
inductive RdmaRequest where
  | write (from_ : RoceSource) (sp : BitVec 4) (addr : Nat) (data : List Byte)
  | read (from_ : RoceSource) (sp : BitVec 4) (addr len : Nat)
  deriving DecidableEq, Repr

/-- What a peer answers to a network-engine command (R276, R280). -/
inductive NetAnswer where
  /-- Nothing has arrived yet. -/
  | none
  /-- The last packet is acknowledged. -/
  | acked
  /-- The bytes of an RDMA READ response. -/
  | readData (data : List Byte)
  /-- A NAK with its syndrome. -/
  | nak (syndrome : W32)
  /-- The retries are exhausted. -/
  | exhausted
  deriving DecidableEq, Repr

/-- The holders of a local copy of package time that a skew monitor watches (R186, R195). -/
inductive PtAgent where
  | core (k : Nat)
  | engine (k : Nat) (eng : BitVec 2)
  | gsramController (die : Nat)
  | hbmController (stack : Nat)
  | nepolPort
  deriving DecidableEq, Repr

/-- A buffer descriptor of a command packet (R95): address and length in words. -/
structure BufDesc where
  addr : W64
  size : W32
  deriving DecidableEq, Repr

/-- Who issues a command: an interface, or the control complex and the physical function, which are the
hypervisor (R421, R431); and the TAG that its completion echoes (R430). -/
structure Issuer where
  ifc : Option Nat
  tag : W32
  deriving DecidableEq, Repr

/-- The ARGS of INSTALL (R464), with what the part itself decides: `tablePhys` is where the object table that
OBJTAB names begins, `choice` the pages it takes first. -/
structure InstallArgs where
  any : Bool
  idx : BitVec 14
  imgLen : W64
  imgVa : W64
  mcbVa : W64
  tablePhys : Nat
  choice : List Nat
  deriving DecidableEq, Repr

/-- The peer of a queue pair (R81, R431). -/
structure QpPeer where
  mac : BitVec 48
  ip : BitVec 128
  port : Nat
  qpn : BitVec 24
  remoteKey : W32
  /-- The code of the QP's RNR timer (R277). -/
  rnrTimer : BitVec 5 := 0
  deriving DecidableEq, Repr

/-- One mapped pair (port, VLAN ID) of the ingress table, with its addresses (R80, R81). -/
structure IngressPair where
  port : Nat
  vlan : BitVec 12
  ipv4 : List (BitVec 32)
  ipv6 : List (BitVec 128)
  deriving DecidableEq, Repr

/-- What PARTITION assigns (R431): islands (R103), lanes (R281), the page pool and the save pool within it (R465),
the ingress pairs and INVPORT (R80), the port MAC addresses (R81), and the slow-path ring (R80). -/
structure PartitionArgs where
  part : BitVec 4
  islands : BitVec 16
  lanes : BitVec 32
  gsramPool : Nat × Nat
  hbmPool : Nat × Nat
  savePool : Nat × Nat
  invport : W16
  ingress : List IngressPair
  macs : List (Nat × BitVec 48)
  slowPath : Bool
  deriving DecidableEq, Repr

/-- The target of CHECKPOINT (R438). -/
inductive CkptTarget where
  | qps (qps : List (BitVec 24))
  | pmem (base : Nat)
  deriving DecidableEq, Repr

/-- An entry of the export table (R446). -/
structure ExportEntry where
  device : W16
  sp : BitVec 4
  firstPage : Nat
  pages : Nat
  mayRead : Bool
  mayWrite : Bool
  deriving DecidableEq, Repr

/-- What arrives at the home memory port from a peer device (R376, R446). -/
inductive NepolOp where
  | read (len : Nat)
  | write (data : List Byte)
  /-- An atomic or reduction: operation code of R32, size bit, operand. -/
  | atomic (op : BitVec 4) (wide : Bool) (operand : W64)
  /-- A compare and swap: size bit, the value expected and the value to write (R230). -/
  | cas (wide : Bool) (expect operand : W64)
  deriving DecidableEq, Repr

/-- A reduction contribution's identity (R447). -/
structure ContributionId where
  device : W16
  core : Nat
  seq : Nat
  deriving DecidableEq, Repr

/-- A reduction contribution (R447): its identity, the physical place and the operation. -/
structure Contribution where
  id : ContributionId
  addr : Nat
  op : BitVec 4
  wide : Bool
  operand : W64
  deriving DecidableEq, Repr

/-- An access from a peer device (R446); a merged reduction names every contribution it holds (R447). -/
structure NepolAccess where
  device : W16
  /-- The expiry of the grant under which it was sent, and whether that is a lease (R190). -/
  expiry : Nat
  leased : Bool
  sp : BitVec 4
  addr : Nat
  op : NepolOp
  contributions : List ContributionId
  deriving DecidableEq, Repr

/-- One constructor per row of the opcode table. -/
inductive Instr where
  /-- ADD (R136): Writes sd with sa + sb modulo 2^64. -/
  | add (z : BitVec 1) (d a b : BitVec 6)
  /-- SUB (R136): Writes sd with sa - sb modulo 2^64. -/
  | sub (z : BitVec 1) (d a b : BitVec 6)
  /-- AND (R136): Writes sd with the bitwise and of sa and sb. -/
  | and (z : BitVec 1) (d a b : BitVec 6)
  /-- OR (R136): Writes sd with the bitwise or of sa and sb. -/
  | or (z : BitVec 1) (d a b : BitVec 6)
  /-- XOR (R136): Writes sd with the bitwise xor of sa and sb. -/
  | xor (z : BitVec 1) (d a b : BitVec 6)
  /-- ANDN (R136): Writes sd with sa and not sb. -/
  | andn (z : BitVec 1) (d a b : BitVec 6)
  /-- SLL (R136): Shifts sa left by sb[5:0]. -/
  | sll (z : BitVec 1) (d a b : BitVec 6)
  /-- SRL (R136): Shifts sa right logically by sb[5:0]. -/
  | srl (z : BitVec 1) (d a b : BitVec 6)
  /-- SRA (R136): Shifts sa right arithmetically by sb[5:0]. -/
  | sra (z : BitVec 1) (d a b : BitVec 6)
  /-- ROL (R136): Rotates sa left by sb[5:0]. -/
  | rol (z : BitVec 1) (d a b : BitVec 6)
  /-- MUL (R136): Writes the low 64 bits of sa times sb. -/
  | mul (z : BitVec 1) (d a b : BitVec 6)
  /-- MULH (R136): Writes the high 64 bits of the signed 128-bit product. -/
  | mulh (z : BitVec 1) (d a b : BitVec 6)
  /-- MULHU (R136): Writes the high 64 bits of the unsigned 128-bit product. -/
  | mulhu (z : BitVec 1) (d a b : BitVec 6)
  /-- DIV (R136): Signed division truncated toward zero with defined results for zero and overflow. -/
  | div (z : BitVec 1) (d a b : BitVec 6)
  /-- DIVU (R136): Unsigned division; division by zero gives all ones. -/
  | divu (z : BitVec 1) (d a b : BitVec 6)
  /-- REM (R136): Signed remainder with the sign of the dividend. -/
  | rem (z : BitVec 1) (d a b : BitVec 6)
  /-- REMU (R136): Unsigned remainder; by zero gives the dividend. -/
  | remu (z : BitVec 1) (d a b : BitVec 6)
  /-- MIN (R136): Writes the signed minimum of sa and sb. -/
  | min (z : BitVec 1) (d a b : BitVec 6)
  /-- MAX (R136): Writes the signed maximum of sa and sb. -/
  | max (z : BitVec 1) (d a b : BitVec 6)
  /-- MINU (R136): Writes the unsigned minimum of sa and sb. -/
  | minu (z : BitVec 1) (d a b : BitVec 6)
  /-- MAXU (R136): Writes the unsigned maximum of sa and sb. -/
  | maxu (z : BitVec 1) (d a b : BitVec 6)
  /-- SLT (R136): Writes 1 if sa < sb signed, else 0. -/
  | slt (z : BitVec 1) (d a b : BitVec 6)
  /-- SLTU (R136): Writes 1 if sa < sb unsigned, else 0. -/
  | sltu (z : BitVec 1) (d a b : BitVec 6)
  /-- CLZ (R139): Counts leading zero bits of sa. -/
  | clz (z : BitVec 1) (d a : BitVec 6)
  /-- CTZ (R139): Counts trailing zero bits of sa. -/
  | ctz (z : BitVec 1) (d a : BitVec 6)
  /-- POPC (R139): Counts one bits of sa. -/
  | popc (z : BitVec 1) (d a : BitVec 6)
  /-- BSWAP (R139): Reverses the eight bytes of sa. -/
  | bswap (z : BitVec 1) (d a : BitVec 6)
  /-- SEXT (R140): Sign-extends sa from bit 7, 15 or 31. -/
  | sext (z : BitVec 1) (d a : BitVec 6) (s : BitVec 2)
  /-- ZEXT (R140): Zero-extends sa from bit 7, 15 or 31. -/
  | zext (z : BitVec 1) (d a : BitVec 6) (s : BitVec 2)
  /-- CMP (R141): Writes predicate pd with a register comparison under a condition code. -/
  | cmp (z : BitVec 1) (c d : BitVec 3) (a b : BitVec 6)
  /-- CMPI (R141): Writes predicate pd with a comparison against a sign-extended immediate. -/
  | cmpi (z : BitVec 1) (c d : BitVec 3) (a : BitVec 6) (i : BitVec 12)
  /-- SEL (R143): Selects sa or sb into sd by a predicate, optionally negated. -/
  | sel (z : BitVec 1) (d a b : BitVec 6) (n : BitVec 1) (p : BitVec 3)
  /-- PAND (R142): Writes pd with pa and pb. -/
  | pand (z : BitVec 1) (d a b : BitVec 3)
  /-- POR (R142): Writes pd with pa or pb. -/
  | por (z : BitVec 1) (d a b : BitVec 3)
  /-- PXOR (R142): Writes pd with pa xor pb. -/
  | pxor (z : BitVec 1) (d a b : BitVec 3)
  /-- PNOT (R142): Writes pd with not pa. -/
  | pnot (z : BitVec 1) (d a : BitVec 3)
  /-- PMOV (R142): Copies pa into pd. -/
  | pmov (z : BitVec 1) (d a : BitVec 3)
  /-- ADDI (R137): Adds a sign-extended immediate to sa. -/
  | addi (z : BitVec 1) (d a : BitVec 6) (i : BitVec 12)
  /-- ANDI (R137): Ands sa with a sign-extended immediate. -/
  | andi (z : BitVec 1) (d a : BitVec 6) (i : BitVec 12)
  /-- ORI (R137): Ors sa with a sign-extended immediate. -/
  | ori (z : BitVec 1) (d a : BitVec 6) (i : BitVec 12)
  /-- XORI (R137): Xors sa with a sign-extended immediate. -/
  | xori (z : BitVec 1) (d a : BitVec 6) (i : BitVec 12)
  /-- SLLI (R137): Shifts sa left by an immediate 0-63. -/
  | slli (z : BitVec 1) (d a i : BitVec 6)
  /-- SRLI (R137): Shifts sa right logically by an immediate 0-63. -/
  | srli (z : BitVec 1) (d a i : BitVec 6)
  /-- SRAI (R137): Shifts sa right arithmetically by an immediate 0-63. -/
  | srai (z : BitVec 1) (d a i : BitVec 6)
  /-- SLTI (R137): Writes 1 if sa is below the immediate, signed. -/
  | slti (z : BitVec 1) (d a : BitVec 6) (i : BitVec 12)
  /-- SLTIU (R137): Writes 1 if sa is below the immediate, unsigned. -/
  | sltiu (z : BitVec 1) (d a : BitVec 6) (i : BitVec 12)
  /-- LUI (R138): Writes the sign-extended immediate times 4,096. -/
  | lui (z : BitVec 1) (d : BitVec 6) (i : BitVec 18)
  /-- BR (R144): Branches unconditionally by a word displacement. -/
  | br (d : BitVec 20)
  /-- BP (R144): Branches when the predicate is true. -/
  | bp (p : BitVec 3) (d : BitVec 20)
  /-- BNP (R144): Branches when the predicate is false. -/
  | bnp (p : BitVec 3) (d : BitVec 20)
  /-- CALL (R145): Writes PC+4 to sd and jumps by a word displacement. -/
  | call (d : BitVec 6) (i : BitVec 18)
  /-- JMPR (R146): Writes the link and jumps to the address in sa. -/
  | jmpr (d a : BitVec 6)
  /-- RET (R151): Jumps to the address in sa. -/
  | ret (a : BitVec 6)
  /-- LOOP (R148): Activates a hardware loop level with a count from a register. -/
  | loop (l : BitVec 2) (s : BitVec 6) (e : BitVec 11)
  /-- LOOPI (R148): Activates a hardware loop level with an immediate count. -/
  | loopi (l : BitVec 2) (c : BitVec 10) (e : BitVec 11)
  /-- LBRK (R147): Deactivates a loop level and later levels and jumps past its end. -/
  | lbrk (l : BitVec 2)
  /-- CBND (R154): Narrows a capability's bounds to sb bytes from its cursor. -/
  | cbnd (z : BitVec 1) (d a : BitVec 5) (b : BitVec 6)
  /-- CCUR (R155): Sets a capability's cursor from sb. -/
  | ccur (z : BitVec 1) (d a : BitVec 5) (b : BitVec 6)
  /-- CADD (R152): Adds sb to a capability's cursor. -/
  | cadd (z : BitVec 1) (d a : BitVec 5) (b : BitVec 6)
  /-- CAND (R153): Ands a capability's permissions with sb[11:0]. -/
  | cand (z : BitVec 1) (d a : BitVec 5) (b : BitVec 6)
  /-- CGET (R156): Reads a named field of a capability into sd. -/
  | cget (z : BitVec 1) (d : BitVec 6) (a : BitVec 5) (k : BitVec 6)
  /-- CTEST (R159): Tests a capability's tag and cursor range into a predicate. -/
  | ctest (z : BitVec 1) (d : BitVec 3) (a : BitVec 5) (b : BitVec 6)
  /-- CMOV (R157): Copies a capability with its tag. -/
  | cmov (z : BitVec 1) (d a : BitVec 5)
  /-- CTAB (R158): Loads a capability-table entry with its tag. -/
  | ctab (z : BitVec 1) (d : BitVec 5) (a : BitVec 6)
  /-- CADDI (R152): Adds an immediate to a capability's cursor. -/
  | caddi (z : BitVec 1) (d a : BitVec 5) (i : BitVec 12)
  /-- QPOLL (R160): Sets a predicate when a queue port would not stall. -/
  | qpoll (z : BitVec 1) (d p : BitVec 3)
  /-- QWAIT (R161): Stalls until a queue port would not stall; an acquire. -/
  | qwait (z : BitVec 1) (p : BitVec 3)
  /-- OM_CLAIM (R165): Moves an OM slot to FILLING. -/
  | omClaim (z : BitVec 1) (s : BitVec 4)
  /-- OM_RELEASE (R166): Moves a READY OM slot to DRAINING. -/
  | omRelease (z : BitVec 1) (s : BitVec 4)
  /-- OM_STATE (R167): Reads an OM slot's state into sd. -/
  | omState (z : BitVec 1) (d : BitVec 6) (s : BitVec 4)
  /-- EQ_FENCE (R163): Waits until earlier commands of the named engines complete. -/
  | eqFence (z : BitVec 1) (m : BitVec 4)
  /-- CHAIN (R162): Makes the next command of e2 start after the last command of e1. -/
  | chain (z : BitVec 1) (e g : BitVec 2)
  /-- TASK_POST (R168): Posts a 64-byte tile-task record to the plot scheduler. -/
  | taskPost (z : BitVec 1) (a : BitVec 5)
  /-- FMT_SET (R164): Stores a 64-bit value in a format-table entry. -/
  | fmtSet (z : BitVec 1) (n : BitVec 4) (a : BitVec 6)
  /-- FMT_GET (R164): Reads a format-table entry. -/
  | fmtGet (z : BitVec 1) (d : BitVec 6) (n : BitVec 4)
  /-- MFSR (R172): Reads a system register. -/
  | mfsr (d : BitVec 6) (s : BitVec 12)
  /-- MTSR (R172): Writes a system register when confirmed. -/
  | mtsr (a : BitVec 6) (s : BitVec 12)
  /-- TRAPRET (R176): Returns from the handler to EPC restoring STATUS from ESTATUS. -/
  | trapret
  /-- EXIT (R170): Drains the core and retires the thread. -/
  | exit
  /-- EXIT_ABANDON (R171): Discards queued work and retires the thread. -/
  | exitAbandon
  /-- RDTIME (R174): Reads the core's copy of PT. -/
  | rdtime (d : BitVec 6)
  /-- RDCNT (R173): Reads a core counter. -/
  | rdcnt (d a : BitVec 6)
  /-- BRKPT (R169): Stops the plot under an armed debug stop or enters the handler. -/
  | brkpt
  /-- TRAP (R175): Enters the handler with a trap code. -/
  | trap (i : BitVec 18)
  /-- FENCE (R233): Orders memory words by kind and scope. -/
  | fence (z : BitVec 1) (k : BitVec 2) (s : BitVec 3)
  /-- PBAR (R235): Waits until earlier PMEM stores are durable. -/
  | pbar (z : BitVec 1)
  /-- LWAIT (R234): Reads an object table's HORIZON and waits until PT passes it plus 16 ns. -/
  | lwait (z : BitVec 1) (a : BitVec 5)
  /-- BAR_INIT (R239): Initialises a barrier line with an expected count. -/
  | barInit (z : BitVec 1) (a : BitVec 5) (b : BitVec 6)
  /-- BAR_ARRIVE (R238): Counts an arrival at a barrier line. -/
  | barArrive (z : BitVec 1) (a : BitVec 5)
  /-- BAR_WAIT (R240): Waits for the barrier phase to complete. -/
  | barWait (z : BitVec 1) (a : BitVec 5)
  /-- BAR_TEST (R240): Tests whether the barrier phase has completed. -/
  | barTest (z : BitVec 1) (d : BitVec 3) (a : BitVec 5)
  /-- GEN_ALLOC (R241): Allocates from the current generation slab. -/
  | genAlloc (z : BitVec 1) (d : BitVec 5) (a : BitVec 6)
  /-- GEN_PASS (R242): Releases and advances the core's generation. -/
  | genPass (z : BitVec 1)
  /-- LD (R216): Loads 1, 2, 4 or 8 bytes into a scalar register. -/
  | ld (z : BitVec 1) (d : BitVec 6) (c : BitVec 5) (s : BitVec 3) (i : BitVec 10)
  /-- ST (R219): Stores 1, 2, 4 or 8 bytes of a scalar register. -/
  | st (z : BitVec 1) (d : BitVec 6) (c : BitVec 5) (s : BitVec 2) (i : BitVec 10)
  /-- LDC (R217): Loads a 16-byte capability with its tag. -/
  | ldc (z : BitVec 1) (d c : BitVec 5) (i : BitVec 10)
  /-- STC (R217): Stores a 16-byte capability with its tag. -/
  | stc (z : BitVec 1) (d c : BitVec 5) (i : BitVec 10)
  /-- LDX (R218): Loads at a register index, optionally scaled. -/
  | ldx (z : BitVec 1) (d : BitVec 6) (a : BitVec 5) (b : BitVec 6) (x : BitVec 1) (w : BitVec 3)
  /-- STX (R218): Stores at a register index, optionally scaled. -/
  | stx (z : BitVec 1) (d : BitVec 6) (a : BitVec 5) (b : BitVec 6) (x : BitVec 1) (w : BitVec 3)
  /-- LD_FE (R226): Waits for a full word, reads it and leaves it empty. -/
  | ldFe (z : BitVec 1) (d : BitVec 6) (c : BitVec 5) (i : BitVec 10)
  /-- LD_FF (R226): Waits for a full word, reads it and leaves it full. -/
  | ldFf (z : BitVec 1) (d : BitVec 6) (c : BitVec 5) (i : BitVec 10)
  /-- ST_EF (R228): Waits for an empty word, writes it and sets it full. -/
  | stEf (z : BitVec 1) (d : BitVec 6) (c : BitVec 5) (i : BitVec 10)
  /-- FE_FILL (R224): Writes a word and sets it full unconditionally. -/
  | feFill (z : BitVec 1) (d : BitVec 6) (c : BitVec 5) (i : BitVec 10)
  /-- FE_CLR (R223): Sets a word empty. -/
  | feClr (z : BitVec 1) (c : BitVec 5) (i : BitVec 10)
  /-- FE_ST (R225): Reads the eight full/empty bits of a line. -/
  | feSt (z : BitVec 1) (d : BitVec 6) (c : BitVec 5) (i : BitVec 10)
  /-- PREF (R227): Walks a translation into the XTLBs. -/
  | pref (z : BitVec 1) (c : BitVec 5) (i : BitVec 10)
  /-- AMO (R229): Performs an atomic read-modify-write and returns the old value. -/
  | amo (z : BitVec 1) (d : BitVec 6) (a : BitVec 5) (b : BitVec 6) (w : BitVec 1) (o : BitVec 4)
  /-- AMO_CAS (R230): Atomic compare and swap. -/
  | amoCas (z : BitVec 1) (d : BitVec 6) (a : BitVec 5) (b : BitVec 6) (w : BitVec 1)
  /-- RED (R231): Posted atomic reduction at memory. -/
  | red (z : BitVec 1) (a : BitVec 5) (b : BitVec 6) (w : BitVec 1) (o : BitVec 4)
  /-- VADD (R305): FP32 lane addition under RNE. -/
  | vadd (z : BitVec 1) (d a b : BitVec 7) (f : BitVec 1)
  /-- VSUB (R305): FP32 lane subtraction. -/
  | vsub (z : BitVec 1) (d a b : BitVec 7) (f : BitVec 1)
  /-- VMUL (R305): FP32 lane multiplication. -/
  | vmul (z : BitVec 1) (d a b : BitVec 7) (f : BitVec 1)
  /-- VFMA (R306): Fused a*b + c into vd. -/
  | vfma (z : BitVec 1) (d a b : BitVec 7) (f : BitVec 1)
  /-- VFMS (R306): Fused a*b - c into vd. -/
  | vfms (z : BitVec 1) (d a b : BitVec 7) (f : BitVec 1)
  /-- VFNMA (R306): Fused c - a*b into vd. -/
  | vfnma (z : BitVec 1) (d a b : BitVec 7) (f : BitVec 1)
  /-- VMIN (R307): FP32 lane minimum. -/
  | vmin (z : BitVec 1) (d a b : BitVec 7) (f : BitVec 1)
  /-- VMAX (R307): FP32 lane maximum. -/
  | vmax (z : BitVec 1) (d a b : BitVec 7) (f : BitVec 1)
  /-- VABS (R304): Clears the sign bit of each lane. -/
  | vabs (z : BitVec 1) (d a : BitVec 7) (f : BitVec 1)
  /-- VNEG (R304): Flips the sign bit of each lane. -/
  | vneg (z : BitVec 1) (d a : BitVec 7) (f : BitVec 1)
  /-- VRCP (R308): Correctly rounded reciprocal. -/
  | vrcp (z : BitVec 1) (d a : BitVec 7) (f : BitVec 1)
  /-- VRSQRT (R308): Correctly rounded reciprocal square root. -/
  | vrsqrt (z : BitVec 1) (d a : BitVec 7) (f : BitVec 1)
  /-- VSQRT (R308): Correctly rounded square root. -/
  | vsqrt (z : BitVec 1) (d a : BitVec 7) (f : BitVec 1)
  /-- VEXP2 (R308): Correctly rounded 2^a. -/
  | vexp2 (z : BitVec 1) (d a : BitVec 7) (f : BitVec 1)
  /-- VLOG2 (R308): Correctly rounded log2 a. -/
  | vlog2 (z : BitVec 1) (d a : BitVec 7) (f : BitVec 1)
  /-- VTANH (R308): Correctly rounded tanh a. -/
  | vtanh (z : BitVec 1) (d a : BitVec 7) (f : BitVec 1)
  /-- VDIV (R308): Correctly rounded division. -/
  | vdiv (z : BitVec 1) (d a b : BitVec 7) (f : BitVec 1)
  /-- VIADD (R309): Integer lane addition modulo 2^32. -/
  | viadd (z : BitVec 1) (d a b : BitVec 7) (f : BitVec 1)
  /-- VISUB (R309): Integer lane subtraction. -/
  | visub (z : BitVec 1) (d a b : BitVec 7) (f : BitVec 1)
  /-- VIMUL (R309): Low 32 bits of the integer product. -/
  | vimul (z : BitVec 1) (d a b : BitVec 7) (f : BitVec 1)
  /-- VIMULH (R309): High 32 bits of the signed product. -/
  | vimulh (z : BitVec 1) (d a b : BitVec 7) (f : BitVec 1)
  /-- VAND (R309): Bitwise and of lanes. -/
  | vand (z : BitVec 1) (d a b : BitVec 7) (f : BitVec 1)
  /-- VOR (R309): Bitwise or of lanes. -/
  | vor (z : BitVec 1) (d a b : BitVec 7) (f : BitVec 1)
  /-- VXOR (R309): Bitwise xor of lanes. -/
  | vxor (z : BitVec 1) (d a b : BitVec 7) (f : BitVec 1)
  /-- VSHL (R309): Shifts lanes left by b[4:0]. -/
  | vshl (z : BitVec 1) (d a b : BitVec 7) (f : BitVec 1)
  /-- VSHR (R309): Shifts lanes right logically. -/
  | vshr (z : BitVec 1) (d a b : BitVec 7) (f : BitVec 1)
  /-- VSRA (R309): Shifts lanes right arithmetically. -/
  | vsra (z : BitVec 1) (d a b : BitVec 7) (f : BitVec 1)
  /-- VIMIN (R309): Signed integer lane minimum. -/
  | vimin (z : BitVec 1) (d a b : BitVec 7) (f : BitVec 1)
  /-- VIMAX (R309): Signed integer lane maximum. -/
  | vimax (z : BitVec 1) (d a b : BitVec 7) (f : BitVec 1)
  /-- VCMP (R312): FP32 comparison into a mask register. -/
  | vcmp (z : BitVec 1) (c : BitVec 4) (d : BitVec 3) (a b : BitVec 7) (f : BitVec 1)
  /-- VICMP (R312): Integer comparison into a mask register. -/
  | vicmp (z : BitVec 1) (c : BitVec 4) (d : BitVec 3) (a b : BitVec 7) (f : BitVec 1)
  /-- VSEL (R313): Selects per lane by the current mask. -/
  | vsel (z : BitVec 1) (d a b : BitVec 7)
  /-- MAND (R310): Ands two mask registers. -/
  | mand (z : BitVec 1) (d a b : BitVec 3)
  /-- MOR (R310): Ors two mask registers. -/
  | mor (z : BitVec 1) (d a b : BitVec 3)
  /-- MNOT (R310): Complements a mask register. -/
  | mnot (z : BitVec 1) (d a : BitVec 3)
  /-- MPOP (R311): Writes the population count of a mask to every lane. -/
  | mpop (z : BitVec 1) (d : BitVec 7) (a : BitVec 3)
  /-- VCVT (R315): Converts each lane under a format entry. -/
  | vcvt (z : BitVec 1) (d a s : BitVec 7) (f : BitVec 1)
  /-- VPACK (R316): Converts a register group into narrow elements of one register. -/
  | vpack (z : BitVec 1) (d a s : BitVec 7) (f : BitVec 1)
  /-- VUNPACK (R316): Converts narrow elements into a register group. -/
  | vunpack (z : BitVec 1) (d a s : BitVec 7) (f : BitVec 1)
  /-- VPERM (R319): Permutes lanes by per-lane indices. -/
  | vperm (z : BitVec 1) (d a b : BitVec 7) (f : BitVec 1)
  /-- VBCAST (R317): Broadcasts a scalar half to every active lane. -/
  | vbcast (z : BitVec 1) (d : BitVec 7) (s : BitVec 6) (h f : BitVec 1)
  /-- VROT (R321): Rotates lanes by an immediate. -/
  | vrot (z : BitVec 1) (d a i : BitVec 7) (f : BitVec 1)
  /-- VLANE (R318): Writes each lane's number. -/
  | vlane (z : BitVec 1) (d : BitVec 7) (f : BitVec 1)
  /-- VREDSUM (R320): Tree sum over active lanes. -/
  | vredsum (z : BitVec 1) (d a t : BitVec 7) (f : BitVec 1)
  /-- VREDMAX (R320): Tree maximum over active lanes. -/
  | vredmax (z : BitVec 1) (d a t : BitVec 7) (f : BitVec 1)
  /-- VREDMIN (R320): Tree minimum over active lanes. -/
  | vredmin (z : BitVec 1) (d a t : BitVec 7) (f : BitVec 1)
  /-- VSCAN (R322): Prefix sum over active lanes. -/
  | vscan (z : BitVec 1) (d a t : BitVec 7) (f : BitVec 1)
  /-- VWIN (R325): Sets the window base and current mask. -/
  | vwin (z : BitVec 1) (k : BitVec 3) (s b : BitVec 6)
  /-- VXSET (R326): Sets a per-lane index register. -/
  | vxset (z : BitVec 1) (v : BitVec 7) (s : BitVec 6) (k : BitVec 3) (f : BitVec 1)
  /-- VMOVS (R324): Writes a scalar into one lane of a register. -/
  | vmovs (z : BitVec 1) (d : BitVec 7) (s : BitVec 6) (l : BitVec 7)
  /-- VMOVQ (R323): Pushes a lane value, counts or mask half to qv after earlier commands complete. -/
  | vmovq (z : BitVec 1) (d : BitVec 7) (i : BitVec 8)
  /-- VLD (R327): Contiguous vector load. -/
  | vld (z : BitVec 1) (d : BitVec 7) (c : BitVec 5) (s : BitVec 6) (v : BitVec 3) (f : BitVec 1)
  /-- VST (R327): Contiguous vector store. -/
  | vst (z : BitVec 1) (d : BitVec 7) (c : BitVec 5) (s : BitVec 6) (v : BitVec 3) (f : BitVec 1)
  /-- VLDX (R329): Indexed vector load replacing offsets. -/
  | vldx (z : BitVec 1) (d : BitVec 7) (c : BitVec 5) (s : BitVec 6) (v : BitVec 3) (f : BitVec 1)
  /-- VSTX (R329): Indexed vector store. -/
  | vstx (z : BitVec 1) (d : BitVec 7) (c : BitVec 5) (s : BitVec 6) (v : BitVec 3) (f : BitVec 1)
  /-- VLD_S (R328): Strided vector load. -/
  | vldS (z : BitVec 1) (d : BitVec 7) (c : BitVec 5) (s : BitVec 6) (v : BitVec 3) (f : BitVec 1)
  /-- VST_S (R328): Strided vector store. -/
  | vstS (z : BitVec 1) (d : BitVec 7) (c : BitVec 5) (s : BitVec 6) (v : BitVec 3) (f : BitVec 1)
  /-- MMA (R345): Accumulates A x B over K rows into a bank in segments. -/
  | mma (z n : BitVec 1) (a b : BitVec 4) (f : BitVec 7) (s : BitVec 6)
  /-- MMA_Z (R345): As mma with the bank starting from zero. -/
  | mmaZ (z n : BitVec 1) (a b : BitVec 4) (f : BitVec 7) (s : BitVec 6)
  /-- ACC_CLR (R341): Zeroes an accumulator bank and its SATC. -/
  | accClr (z n : BitVec 1)
  /-- ACC_RD (R342): Stores an accumulator bank to memory. -/
  | accRd (z n : BitVec 1) (c : BitVec 5) (q : BitVec 1)
  /-- ACC_WR (R342): Loads an accumulator bank from memory. -/
  | accWr (z n : BitVec 1) (c : BitVec 5) (q : BitVec 1)
  /-- EPI (R344): Captures a bank, converts it and stores the tile with a footer. -/
  | epi (z n : BitVec 1) (o : BitVec 4) (c : BitVec 5) (s : BitVec 6) (q : BitVec 1)
  /-- EPI_V (R344): Captures a bank and writes converted rows to vector registers. -/
  | epiV (z n : BitVec 1) (o : BitVec 4) (s : BitVec 6) (q : BitVec 1)
  /-- DTAB_LD (R343): Loads a decoder table from memory. -/
  | dtabLd (z : BitVec 1) (t : BitVec 2) (c : BitVec 5) (q : BitVec 1)
  /-- DTAB_INV (R343): Invalidates a decoder table. -/
  | dtabInv (z : BitVec 1) (t : BitVec 2)
  /-- MSEG (R346): Sets the matrix segment length. -/
  | mseg (z : BitVec 1) (s : BitVec 6)
  /-- CP (R262): Copies bytes between memory and memory or vector registers. -/
  | cp (z : BitVec 1) (d e : BitVec 5) (l c : BitVec 6)
  /-- CP_2D (R263): Copies rows with strides. -/
  | cp2d (z : BitVec 1) (d e : BitVec 5) (n c : BitVec 6)
  /-- CP_OM (R266): Fills an OM slot from memory. -/
  | cpOm (z : BitVec 1) (n : BitVec 4) (e : BitVec 5) (l c : BitVec 6)
  /-- CP_GAT (R265): Gathers or scatters elements through an index list. -/
  | cpGat (z : BitVec 1) (d e : BitVec 5) (n c : BitVec 6)
  /-- CP_SET (R267): Fills memory with a repeating 8-byte pattern. -/
  | cpSet (z : BitVec 1) (d : BitVec 5) (n c : BitVec 6)
  /-- CP_Z (R268): Codes raw bytes into compressed chunks and publishes them. -/
  | cpZ (z : BitVec 1) (d e : BitVec 5) (l c : BitVec 6)
  /-- CP_X (R268): Decodes compressed chunks or a checkpoint stream. -/
  | cpX (z : BitVec 1) (d e : BitVec 5) (l c : BitVec 6)
  /-- CP_CK (R264): Writes a checkpoint stream of coded chunks. -/
  | cpCk (z : BitVec 1) (d e : BitVec 5) (l c : BitVec 6)
  /-- NET_POST (R278): Posts a receive buffer on a QP. -/
  | netPost (z : BitVec 1) (c : BitVec 5) (l q : BitVec 6)
  /-- NET_SEND (R280): Sends a RoCEv2 SEND on a QP. -/
  | netSend (z : BitVec 1) (c : BitVec 5) (l q : BitVec 6)
  /-- NET_SEND_WRITE (R280): Issues an RDMA WRITE on a QP. -/
  | netSendWrite (z : BitVec 1) (c : BitVec 5) (l q : BitVec 6)
  /-- NET_SEND_READ (R280): Issues an RDMA READ on a QP. -/
  | netSendRead (z : BitVec 1) (c : BitVec 5) (l q : BitVec 6)
  /-- NET_REPLY (R279): Sends the invocation's encrypted OK reply. -/
  | netReply (z : BitVec 1) (c : BitVec 5) (l : BitVec 6)
  /-- FST_LD (R286): Checks a transducer table and takes a lane. -/
  | fstLd (z : BitVec 1) (c : BitVec 5) (l s : BitVec 6)
  /-- FST_START (R287): Queues an input entry on a held lane. -/
  | fstStart (z : BitVec 1) (c : BitVec 5) (l s : BitVec 6)
  /-- FST_STOP (R288): Stops and releases a transducer lane. -/
  | fstStop (z : BitVec 1) (s : BitVec 6)
  /-- ZC_PUSH (R443): Appends a packet word to the command port FIFO. -/
  | zcPush (s d : BitVec 5)
  /-- ZC_FENCE (R444): Waits until pushed words have executed and returns STRSTAT. -/
  | zcFence (d : BitVec 5)
  /-- ZC_STAT (R445): Returns stream status, LASTST, packet count or free words. -/
  | zcStat (s d : BitVec 5)
  /-- FRAME_RECEIVE (R79): An Ethernet frame arrives and is checked, filtered and classified. -/
  | frameReceive (port : Nat) (f : Frame)
  /-- SOWER_ACCEPT_MESSAGE (R87): The Sower takes the head message of an ingress queue every 48 cycles. -/
  | sowerAcceptMessage
  /-- GCM_HEADER_CHECK (R82): The GCM tag is verified and the plaintext written to the queue entry. -/
  | gcmHeaderCheck
  /-- MCB_LOOKUP (R88): Hash probes find the MCB, KEYSLOT is compared and the queue entry written. -/
  | mcbLookup
  /-- FREE_PLOT_SEARCH (R105): The Sower chooses a free plot for the head entry. -/
  | freePlotSearch (part : Nat)
  /-- BIND_AND_REGISTER_PRELOAD (R92): Every core of the plot is preloaded and the format table loaded from INIT. -/
  | bindAndRegisterPreload (mcb : Nat)
  /-- RESTORE_SAVE_IMAGE (R404): A suspended context's save image is restored in place of preload. -/
  | restoreSaveImage (mcb : Nat)
  /-- FIRST_FETCH (R86): The first word of ENTRY issues, the MCB becomes BOUND and the watchdog starts. -/
  | firstFetch (mcb : Nat)
  /-- DECODER_TABLE_INIT_LOAD (R93): A decoder table named by DTV finishes loading from INIT. -/
  | decoderTableInitLoad (core : Nat) (dt : BitVec 2)
  /-- LAUNCH_ENQUEUE_RETRY (R91): A stalled LAUNCH takes a queue entry freed by a pop. -/
  | launchEnqueueRetry (st : Nat)
  /-- ROCE_SEND_RECEIVE (R277): An inbound RoCEv2 SEND is placed in a posted buffer. -/
  | roceSendReceive (from_ : RoceSource) (data : List Byte)
  /-- ROCE_INBOUND_RDMA (R80): An inbound RDMA WRITE or READ is served by the RoCEv2 engine. -/
  | roceInboundRdma (q : RdmaRequest)
  /-- HOST_INBOUND_WRITE (R374): A host or CXL write enters device memory with a computed check. -/
  | hostInboundWrite (sp : BitVec 4) (addr : Nat) (data : List Byte)
  /-- ENGINE_COMMAND_START (R123): A queued engine command starts once its conflicts clear. -/
  | engineCommandStart (core : Nat) (eng : BitVec 2)
  /-- ENGINE_COMMAND_COMPLETE (R124): An engine command completes and posts its qc entry. -/
  | engineCommandComplete (core : Nat) (eng : BitVec 2) (nth : Nat) (ans : NetAnswer)
  /-- MMA_SEGMENT_RETIRE (R333): An mma segment end writes the working copy into the bank. -/
  | mmaSegmentRetire (core : Nat)
  /-- TASK_ISSUE (R348): The plot scheduler checks and issues a tile-task record to a free engine. -/
  | taskIssue (mcb : Nat)
  /-- TASK_COMPLETE (R349): A tile task finishes its epilogue and fills its completion word. -/
  | taskComplete (core : Nat)
  /-- TASK_WAIT_RECHECK (R351): The scheduler rechecks tile-task wait words at least every 64 cycles. -/
  | taskWaitRecheck (mcb : Nat)
  /-- PARKED_ACCESS_REPLAY (R201): A store making a page usable replays its parked accesses. -/
  | parkedAccessReplay (core : Nat)
  /-- XTLB_ENTRY_EXPIRY (R187): An XTLB entry whose expiry E passes is dropped silently. -/
  | xtlbEntryExpiry (core : Nat)
  /-- LEASE_RENEWAL (R197): A long copy renews its page lease at 25% remaining. -/
  | leaseRenewal (core : Nat) (eng : BitVec 2) (nth : Nat)
  /-- HELD_FORM_WITHDRAWAL (R205): A held full/empty form whose lease expires is withdrawn and resent. -/
  | heldFormWithdrawal (core : Nat)
  /-- FE_WAIT_SATISFIED (R220): A held full/empty form performs when its condition holds. -/
  | feWaitSatisfied (core : Nat)
  /-- BAR_WAIT_COMPLETION (R240): A held bar.wait is answered after the completing arrival. -/
  | barWaitCompletion (core : Nat)
  /-- QUEUE_PORT_STALL_END (R17): A word stalled on a queue port issues when entries or room arrive. -/
  | queuePortStallEnd (core : Nat)
  /-- LWAIT_END (R234): An lwait completes when local PT passes HORIZON + 16 ns. -/
  | lwaitEnd (core : Nat)
  /-- EQ_FENCE_END (R163): An eq.fence completes after the named engines' commands complete. -/
  | eqFenceEnd (core : Nat)
  /-- FENCE_COMPLETE (R233): A fence completes after its earlier accesses have performed. -/
  | fenceComplete (core : Nat)
  /-- GEN_PASS_WAIT_END (R207): A waiting gen.pass advances after the slab is reclaimed. -/
  | genPassWaitEnd (core : Nat)
  /-- OM_CLAIM_WAIT_END (R165): An om.claim waiting on a DRAINING slot moves it to FILLING. -/
  | omClaimWaitEnd (core : Nat)
  /-- EXIT_DRAIN_END (R170): A core's exit drain ends and the thread retires. -/
  | exitDrainEnd (core : Nat)
  /-- INVOCATION_RETIREMENT (R427): The last core retires, tasks finish, the reply is decided and the queue pops. -/
  | invocationRetirement (mcb : Nat)
  /-- HALT_RELEASE (R387): Under route code 0 the halt is released once every agent has stopped. -/
  | haltRelease (mcb : Nat)
  /-- KILL_COMPLETE (R393): The last in-flight access of a kill lands and the cores are freed. -/
  | killComplete (mcb : Nat)
  /-- PREEMPT_LAND_COMPLETE (R396): Every in-flight access of a pre-emption lands or is recorded. -/
  | preemptLandComplete (mcb : Nat)
  /-- SAVE_COMPLETE (R395): The save image is written and the MCB becomes SUSPENDED. -/
  | saveComplete (mcb : Nat)
  /-- AWAITING_ANSWER_ARRIVAL (R397): A late answer is written into an awaiting-answer entry of the save image. -/
  | awaitingAnswerArrival (mcb core : Nat) (value : BitVec 128)
  /-- T1_EXPIRY (R407): WDT reaching T1 requests pre-emption. -/
  | t1Expiry (mcb : Nat)
  /-- T2_EXPIRY (R407): WDT reaching T2 kills the invocation. -/
  | t2Expiry (mcb : Nat)
  /-- T3_EXPIRY (R408): WDT reaching T3 fences the plot and fails the MCB. -/
  | t3Expiry (mcb : Nat)
  /-- SKEW_EVENT (R195): A PT copy deviating over 8 ns drops translations and resynchronises. -/
  | skewEvent (agent : PtAgent) (deviation : Int)
  /-- CP_HEARTBEAT_TIMEOUT (R456): An unrefreshed CPWD resets the command-processor core. -/
  | cpHeartbeatTimeout (hart : Nat)
  /-- BEACON_RECEIVE (R448): A time-master beacon steers the device's PT reference. -/
  | beaconReceive (master : W64)
  /-- BEACON_TIMEOUT (R448): No beacon for 10 us declares a Nepol skew event. -/
  | beaconTimeout
  /-- NEPOL_PATH_TIMEOUT (R449): An access without a path to its home for 1 ms faults. -/
  | nepolPathTimeout (core : Nat)
  /-- COMPLETION_TIMEOUT (R393): The port's completion timeout ends an unanswered HOST, PMEM or NEPOL access. -/
  | completionTimeout (core : Nat)
  /-- POWER_MANAGER_TICK (R462): Every 10 us package power is measured and islands lowered or raised. -/
  | powerManagerTick (watts : Nat) (hot : BitVec 16)
  /-- THERMAL_TRIP (R462): At 110 C every compute island is gated and its invocations killed. -/
  | thermalTrip
  /-- WAKE (R458): The WAKE sideband message powers the control complex and boots firmware. -/
  | wake
  /-- SLEEP (R458): The SLEEP sideband message gates every island. -/
  | sleep
  /-- SPROUT_JOB_START (R272): A Sprout engine takes a job descriptor from its ring. -/
  | sproutJobStart (part die : Nat)
  /-- SPROUT_PAGE_ARRIVAL (R273): A fetched page clears ARRIVING and replays parked accesses. -/
  | sproutPageArrival (job : Nat) (data : List Byte)
  /-- SPROUT_JOB_END (R274): A finished or failed job fills its completion word. -/
  | sproutJobEnd (job : Nat) (sourceError : Bool)
  /-- SAMPLE_TICK (R413): Every P cycles the sampling unit writes a record per selected core. -/
  | sampleTick (part : Nat)
  /-- PKT_NOP (R95): NOP packet with ignored payload. -/
  | pktNop (st : Nat) (len : BitVec 16)
  /-- PKT_LAUNCH (R98): Enqueues a KIND 2 invocation entry. -/
  | pktLaunch (st : Nat) (w : Bool) (funcid arg : W64)
  /-- LAUNCH_RETIRE_WAIT_END (R98): A W = 1 LAUNCH records LASTST when its invocation retires. -/
  | launchRetireWaitEnd (st : Nat)
  /-- PKT_IB (R98): Enters an indirect buffer one level deeper. -/
  | pktIb (st : Nat) (buf : BufDesc)
  /-- PKT_PRED (R99): Skips count packets when a masked condition fails. -/
  | pktPred (st : Nat) (cond : BitVec 3) (addr ref mask : W64) (count : W32)
  /-- PKT_LOOP (R100): Pushes a trip count onto the stream loop stack. -/
  | pktLoop (st : Nat) (trips : W32)
  /-- PKT_ENDLOOP (R100): Decrements the innermost loop and repeats or pops. -/
  | pktEndloop (st : Nat)
  /-- PKT_WRITE (R101): Stores a 32- or 64-bit value as a device-scope release. -/
  | pktWrite (st : Nat) (wide : Bool) (addr value : W64)
  /-- PKT_WAIT_FLAG (R101): Waits until a masked memory word meets its condition. -/
  | pktWaitFlag (st : Nat) (cond : BitVec 3) (addr ref mask : W64)
  /-- WAIT_REREAD (R101): A waiting WAIT rereads its word at least every 64 cycles. -/
  | waitReread (st : Nat)
  /-- PKT_WAIT_TIME (R101): Waits until PT exceeds T + 16 ns. -/
  | pktWaitTime (st : Nat) (bound : W64)
  /-- WAIT_TIME_END (R101): A time WAIT ends when PT passes its bound. -/
  | waitTimeEnd (st : Nat)
  /-- PKT_SIGNAL (R101): Waits for earlier launches to retire, then adds atomically. -/
  | pktSignal (st : Nat) (notify : Bool) (addr addend : W64)
  /-- SIGNAL_ADD (R101): After retirement the SIGNAL adds its addend and may notify. -/
  | signalAdd (st : Nat)
  /-- PKT_FFENCE (R101): Waits for earlier packets and discards fetched words. -/
  | pktFfence (st : Nat)
  /-- FFENCE_REFETCH (R96): After earlier packets complete, fetched words are discarded and refetched. -/
  | ffenceRefetch (st : Nat)
  /-- PKT_COND (R98): Enters the then- or else-buffer by a condition. -/
  | pktCond (st : Nat) (cond : BitVec 3) (addr ref : W64) (thenBuf elseBuf : BufDesc)
  /-- PKT_SWITCH (R98): Enters a case buffer or the default buffer. -/
  | pktSwitch (st : Nat) (addr : W64) (dflt : BufDesc) (cases : List BufDesc)
  /-- PKT_END (R98): Returns from a buffer, or stops the stream at level 0. -/
  | pktEnd (st : Nat)
  /-- SQTAIL_DOORBELL (R429): A doorbell write makes the part read submitted descriptors. -/
  | sqtailDoorbell (ifc : Nat) (tail : W64)
  /-- CQHEAD_WRITE (R429): The host consumes completions, freeing ring slots. -/
  | cqheadWrite (ifc : Nat) (head : W64)
  /-- INTERFACE_REGISTER_WRITE (R429): Writes an interface register with no behaviour of its own. -/
  | interfaceRegisterWrite (ifc : Nat) (offset : BitVec 12) (value : W64)
  /-- INSTALL (R464): Writes an MCB and installs its image. -/
  | install (iss : Issuer) (a : InstallArgs)
  /-- WRITE (R44): Writes masked MCB fields subject to checks and state. -/
  | mcbWrite (iss : Issuer) (mcb : Nat) (mask value : BitVec 2048)
  /-- REMOVE (R44): Clears V of an idle MCB. -/
  | mcbRemove (iss : Issuer) (mcb : Nat)
  /-- CAPWRITE (R378): Writes and tags one capability-table entry. -/
  | capWrite (iss : Issuer) (mcb : Nat) (index : BitVec 8) (entry : BitVec 128)
  /-- REVOKE (R196): Clears PRESENT or lowers NPAGES of an object. -/
  | revoke (iss : Issuer) (mcb : Nat) (obj : BitVec 24) (npages : Option Nat)
  /-- REVOKE_WAIT_END (R196): REVOKE completes after the waiting rule and frees pages. -/
  | revokeWaitEnd (nth : Nat)
  /-- STREAM_OPEN (R431): Opens a command stream with its DOBJ and ring. -/
  | streamOpen (iss : Issuer) (mcb : Nat) (obj : BitVec 24) (perm : BitVec 12) (ring tail : W64)
  /-- STREAM_TAIL (R102): Moves the ring tail and restarts a stopped stream. -/
  | streamTail (iss : Issuer) (st : Nat) (tail : W64)
  /-- STREAM_CLOSE (R431): Stops and closes a stream after its current packet. -/
  | streamClose (iss : Issuer) (st : Nat)
  /-- QP_CREATE (R431): Creates a RoCEv2 RC QP bound to an MCB and position. -/
  | qpCreate (iss : Issuer) (mcb : Nat) (px py : BitVec 5) (peer : QpPeer)
  /-- QP_DESTROY (R431): Moves a QP to Error and frees it. -/
  | qpDestroy (iss : Issuer) (qp : BitVec 24)
  /-- FAULT_REPLY_RESUME (R392): Resumes every agent of a held plot from its stop record. -/
  | faultReplyResume (iss : Issuer) (mcb : Nat)
  /-- FAULT_REPLY_RESUME_HANDLER (R392): Resumes a held plot with the faulting core entering its handler. -/
  | faultReplyResumeHandler (iss : Issuer) (mcb : Nat)
  /-- FAULT_REPLY_KILL (R392): Kills a held invocation. -/
  | faultReplyKill (iss : Issuer) (mcb : Nat)
  /-- ASSIGN (R428): Assigns an interface to a partition and PASID. -/
  | assign (iss : Issuer) (ifc : Nat) (part : BitVec 4) (pasid : BitVec 20)
  /-- PARTITION (R431): Assigns islands, lanes, pools, ingress table, INVPORT and addresses. -/
  | partition (iss : Issuer) (a : PartitionArgs)
  /-- KEYSLOT (R52): Writes or erases a key slot and enables it for partitions. -/
  | keyslot (iss : Issuer) (slot : BitVec 12) (keys : Option (BitVec 768)) (parts : BitVec 16)
  /-- REPLAY (R201): Global replay of every parked access in masked partitions. -/
  | replay (iss : Issuer) (parts : BitVec 16)
  /-- CHECKPOINT (R438): Freezes partitions, pre-empts contexts and writes checkpoint streams. -/
  | checkpoint (iss : Issuer) (parts : BitVec 16) (target : CkptTarget) (dirty stayFrozen : Bool)
  /-- BITMAP_SWAP (R437): Switches the active dirty bitmap at time S. -/
  | bitmapSwap (iss : Issuer) (bases : Option (Nat × Nat))
  /-- BITMAP_SWITCH_COMPLETE (R437): Every controller has switched and old-buffer writes have performed. -/
  | bitmapSwitchComplete
  /-- RESET (R440): Kills, clears, power-cycles and scrubs a partition. -/
  | partitionReset (iss : Issuer) (part : BitVec 4)
  /-- WINDOW_REDUCTION (R447): Writes a reduction window with its EPOCH. -/
  | windowReduction (iss : Issuer) (win : BitVec 6) (base pages : Nat) (epoch : W16)
  /-- WINDOW_EXPORT (R446): Writes an export-table entry. -/
  | windowExport (iss : Issuer) (slot : Nat) (entry : Option ExportEntry)
  /-- CLAIM (R421): Claims a counter bank or trace unit. -/
  | bankClaim (iss : Issuer) (part : BitVec 4) (unit : BitVec 3)
  /-- RELEASE (R421): Releases a counter bank or trace unit. -/
  | bankRelease (iss : Issuer) (part : BitVec 4) (unit : BitVec 3)
  /-- READ (R422): Reads a counter bank and clears DISC. -/
  | bankRead (iss : Issuer) (part : BitVec 4) (unit : BitVec 3) (va : W64)
  /-- BANK_WRITE (R422): Writes a counter bank's selections. -/
  | bankWrite (iss : Issuer) (part : BitVec 4) (unit : BitVec 3) (sel : BitVec 64)
  /-- SNAPSHOT (R412): Writes the open-wait entries of a partition. -/
  | snapshot (iss : Issuer) (part : BitVec 4) (va : W64)
  /-- BPWRITE (R414): Writes a breakpoint register. -/
  | bpWrite (iss : Issuer) (part : BitVec 4) (n : BitVec 2) (value : W64)
  /-- WPWRITE (R416): Writes a watchpoint and completes when it binds. -/
  | wpWrite (iss : Issuer) (part : BitVec 4) (n : BitVec 3) (value : BitVec 128)
  /-- SAMPLE (R413): Selects cores, period and trace unit for sampling. -/
  | sample (iss : Issuer) (part : BitVec 4) (cores : List Nat) (period : Nat) (unit : BitVec 1)
  /-- DBGCFG (R410): Configures the wait ring and trace-unit targets. -/
  | dbgCfg (iss : Issuer) (part : BitVec 4) (ringBase ringLen : Nat) (targets : Nat × Nat)
  /-- FWLOAD (R453): Copies and verifies a firmware image into inactive banks. -/
  | fwLoad (iss : Issuer) (harts : BitVec 16) (va : W64)
  /-- FWSWAP (R453): Sets swap pending on the named cores. -/
  | fwSwap (iss : Issuer) (harts : BitVec 16)
  /-- ATTEST (R453): Returns a signed attestation report. -/
  | attest (iss : Issuer) (nonce : BitVec 256) (va : W64)
  /-- CORERESET (R459): Clears one core's state and fenced mark. -/
  | coreReset (iss : Issuer) (x y : BitVec 5)
  /-- POWER (R459): Sets an island's operating point or gates it. -/
  | power (iss : Issuer) (island : BitVec 5) (point : BitVec 3) (gate : Bool)
  /-- CPWD_WRITE (R456): Writes the heartbeat timeout and reloads the timer. -/
  | cpwdWrite (hart : Nat) (value : W64)
  /-- FWCTL_WRITE (R454): Declares firmware quiescent, swapping banks when a swap is pending. -/
  | fwctlWrite (hart : Nat) (value : W64)
  /-- MODE_WRITE (R451): Selects hardware or host-assisted mode per function. -/
  | modeWrite (hart : Nat) (value : W64)
  /-- CSR_WRITE (R450): Writes a device CSR with no behaviour of its own. -/
  | csrWrite (hart : Nat) (csr : BitVec 12) (value : W64)
  /-- ILLEGAL_INSTRUCTION (R35): A fetched word that decodes to no instruction raises a precise illegal-instruction fault. -/
  | illegalInstruction (word : W32)
  /-- FUNCTION_READY (R457): A function finishes bring-up and its RDY bit sets, making it usable. -/
  | functionReady (bit : BitVec 6)
  /-- PT_COPY_RESYNCHRONISED (R195): A skewed agent's PT copy is resynchronised and a memory controller or Nepol port stops refusing leased accesses. -/
  | ptCopyResynchronised (agent : PtAgent)
  /-- NEPOL_INBOUND_ACCESS (R446): An access from a peer device arrives at this device's home memory port and is checked against the export table. -/
  | nepolInboundAccess (q : NepolAccess)
  /-- NEPOL_LINK_FAILURE (R449): A Nepol link fails and traffic moves to the other links. -/
  | nepolLinkFailure (link : BitVec 4)
  /-- NEPOL_SWITCH_FAILURE (R447): A Nepol switch fails and unacknowledged reduction contributions are resent unmerged to the home. -/
  | nepolSwitchFailure (win : BitVec 6) (resent : List Contribution)
  /-- SCRUB_COMPLETE (R441): The partition scrub finishes, the RESET command completes and the pages may be mapped again. -/
  | scrubComplete (part : BitVec 4)
  /-- CHECKPOINT_STREAMS_WRITTEN (R438): The last checkpoint stream is written, and the partitions unfreeze and resume or stay frozen. -/
  | checkpointStreamsWritten
  deriving DecidableEq, Repr

end Sys2Proof
end

