-- ==== Sys2Proof/Config.lean ====
section
/-!
DEFINITION. What the manual leaves to an implementation or takes from a published standard: each is an
opaque constant, so no proof can see a value of it. The assumption log names every one.
-/
namespace Sys2Proof.Config

/-- AES-256-GCM opening (R82, R84): key, IV, additional data, ciphertext and tag give the plaintext, or
nothing when the tag fails. The cipher is a published standard that the manual names and does not restate. -/
opaque gcmOpen : BitVec 256 → BitVec 96 → List Byte → List Byte → BitVec 128 → Option (List Byte)

/-- AES-256-GCM sealing (R82, R85): ciphertext and tag. -/
opaque gcmSeal : BitVec 256 → BitVec 96 → List Byte → List Byte → List Byte × BitVec 128

/-- AES-256-XTS over a 64-byte data unit (R51): a permutation of units for each key pair, object and index. -/
opaque xts : BitVec 512 → Nat → Nat → Equiv.Perm (BitVec 512)

/-- SHAKE256, first 256 bits (R46, R49). -/
opaque shake256 : List Byte → BitVec 256

/-- Falcon-1024 verification under the vendor key of the boot ROM (R453): header and body, signature. -/
opaque falconOk : List Byte → List Byte → Bool

/-- The token bytes that the encoder of cp.z and cp.ck picks for a chunk (R259: the choice of tokens is not
fixed). The meaning uses them only when R258 decodes them back to the chunk. -/
opaque chunkTokens : List Byte → List Byte

/-- The bias vector of a tile task whose descriptor has BIAS set: a record names no slot for it (R347, R350). By record and
column. -/
opaque taskBias : Nat → Nat → W64

/-- The subcode of the sync-object fault of a cp.z whose header changed (R260, R383): R237 lists none for it. -/
opaque publicationSub : Nat

/-- Lengths in a save image that no rule fixes (R400, R402): of region 1, which is saved as held, by save and core, and of the plot region, by
save and 1,024. -/
opaque saveLen : Nat → Nat → Nat

/-- The bytes of a save image whose layout is not given (R400 to R403): by save, core, region and index. -/
opaque imageByte : Nat → Nat → Nat → Nat → Byte

/-- The token bytes that a core picks for a chunk of its save image (R403: the choice of tokens is not fixed). The meaning uses them only when
they are of the kinds that R403 allows and R258 decodes them back to the chunk. -/
opaque imageTokens : List Byte → List Byte

/-- The UDP payload of a RoCEv2 packet (R275): its transport headers and ICRC are a published standard that the manual names and does not restate. By
queue pair, operation, remote address and length, and the data. -/
opaque rocePayload : Nat → Nat → Nat → Nat → List Byte → List Byte

/-- The UDP source port from which the part sends the RoCEv2 packets of a queue pair (R275), which no rule fixes. -/
opaque rocePort : Nat → BitVec 16

/-- The value a queue-entry byte beyond PLEN holds (R90: unspecified). -/
opaque queuePad : Nat → Byte

/-- The attestation report (R453), whose layout is not fixed: identity of the device, the host's nonce, the fused minimum SVN, and for
each core the SVN and the digest of its active image, signed with Falcon-1024 under the device identity key. -/
opaque attestReport : BitVec 256 → BitVec 16 → List (Nat × BitVec 256) → List Byte

/-- The fused minimum SVN of this part (R453). -/
opaque fusedSvn : BitVec 16

/-- mvendorid, marchid, mimpid and mconfigptr of the command-processor cores (R450), by CSR address. -/
opaque hartId : Nat → BitVec 64

/-- What a command-processor core reads beyond its firmware bank (R450: the manual gives the control complex no address map): by a count of
instructions and the address. -/
opaque hartBus : Nat → Nat → Byte

/-- The cycles that an instruction of a command-processor core takes, by the same count. -/
opaque hartCycles : Nat → Nat

/-- How the ARGS of every command but INSTALL are laid out (R430, R431: the manual gives no layout): the command that a descriptor
holds, or none where its ARGS are malformed. The issuer in it is not used. -/
opaque commandOf : BitVec 512 → Option Instr

/-- What the part itself decides when it executes an INSTALL descriptor (R464): where the object table that OBJTAB names begins in
GSRAM, and the pages that it takes first. -/
opaque installChoice : BitVec 512 → Nat × List Nat

/-- The hash functions H0 and H1 of a partition's lookup table, from one of its resets to the next (R88): which of the two, the partition, how
often it has been reset, and the FUNCID. -/
opaque lookupHash : Bool → Nat → Nat → BitVec 64 → BitVec 15

end Sys2Proof.Config
end

