-- ==== Sys2Proof/WellFormed.lean ====
section
/-!
DEFINITION. Well-formed instructions: no field holds a value that its row marks reserved or that lies outside the
register set of R13 (R35).
-/
namespace Sys2Proof

/-- The system registers of R129 by their sel12 value. -/
def sysRegKnown (s : BitVec 12) : Bool :=
  decide (s.toNat ≤ 0x020) || (decide (0x800 ≤ s.toNat) && decide (s.toNat ≤ 0x804))

/-- A sel12 value of the table of R129, and for a capability register a field whose bit 5 is zero. -/
def sysRegWf (s : BitVec 12) (r : BitVec 6) : Bool :=
  sysRegKnown s && (decide (s.toNat < 0x800) || decide (r.toNat < 32))

/-- R15: a selector with L = 0 and LP other than 0 is a reserved value. -/
def selectorWf (f : BitVec 7) : Bool := decide (64 ≤ f.toNat) || decide (f.toNat < 16)

/-- R17: an engine word whose scalar field names s56 to s63 is an illegal instruction. -/
def engineScalarWf (s : BitVec 6) : Bool := decide (s.toNat < 56)

/-- R251, R328, R344: a register pair sN, sN+1 with N above 54 is an illegal encoding. -/
def enginePairWf (s : BitVec 6) : Bool := decide (s.toNat < 55)

/-- R299: the var values that a store accepts. -/
def storeVarWf (v : BitVec 3) : Bool := v == 0 || v == 1 || v == 3

/-- No field of the instruction holds a reserved value (R26 to R34 and the reference entries). -/
def Instr.wf : Instr → Bool
  | .add _ _ _ _ => true
  | .sub _ _ _ _ => true
  | .and _ _ _ _ => true
  | .or _ _ _ _ => true
  | .xor _ _ _ _ => true
  | .andn _ _ _ _ => true
  | .sll _ _ _ _ => true
  | .srl _ _ _ _ => true
  | .sra _ _ _ _ => true
  | .rol _ _ _ _ => true
  | .mul _ _ _ _ => true
  | .mulh _ _ _ _ => true
  | .mulhu _ _ _ _ => true
  | .div _ _ _ _ => true
  | .divu _ _ _ _ => true
  | .rem _ _ _ _ => true
  | .remu _ _ _ _ => true
  | .min _ _ _ _ => true
  | .max _ _ _ _ => true
  | .minu _ _ _ _ => true
  | .maxu _ _ _ _ => true
  | .slt _ _ _ _ => true
  | .sltu _ _ _ _ => true
  | .clz _ _ _ => true
  | .ctz _ _ _ => true
  | .popc _ _ _ => true
  | .bswap _ _ _ => true
  | .sext _ _ _ s => s.toNat < 3
  | .zext _ _ _ s => s.toNat < 3
  | .cmp _ c d _ _ => c.toNat < 6 && d != 0
  | .cmpi _ c d _ _ => c.toNat < 6 && d != 0
  | .sel _ _ _ _ _ _ => true
  | .pand _ d _ _ => d != 0
  | .por _ d _ _ => d != 0
  | .pxor _ d _ _ => d != 0
  | .pnot _ d _ => d != 0
  | .pmov _ d _ => d != 0
  | .addi _ _ _ _ => true
  | .andi _ _ _ _ => true
  | .ori _ _ _ _ => true
  | .xori _ _ _ _ => true
  | .slli _ _ _ _ => true
  | .srli _ _ _ _ => true
  | .srai _ _ _ _ => true
  | .slti _ _ _ _ => true
  | .sltiu _ _ _ _ => true
  | .lui _ _ _ => true
  | .br _ => true
  | .bp p _ => p != 0
  | .bnp p _ => p != 0
  | .call _ _ => true
  | .jmpr _ _ => true
  | .ret _ => true
  | .loop _ _ e => e != 0
  | .loopi _ _ e => e != 0
  | .lbrk _ => true
  | .cbnd _ _ _ _ => true
  | .ccur _ _ _ _ => true
  | .cadd _ _ _ _ => true
  | .cand _ _ _ _ => true
  | .cget _ _ _ k => k.toNat < 9
  | .ctest _ d _ _ => d != 0
  | .cmov _ _ _ => true
  | .ctab _ _ _ => true
  | .caddi _ _ _ _ => true
  | .qpoll _ d _ => d != 0
  | .qwait _ _ => true
  | .omClaim _ _ => true
  | .omRelease _ _ => true
  | .omState _ _ _ => true
  | .eqFence _ m => m != 0
  | .chain _ _ _ => true
  | .taskPost _ _ => true
  | .fmtSet _ _ _ => true
  | .fmtGet _ _ _ => true
  | .mfsr d s => sysRegWf s d
  | .mtsr a s => sysRegWf s a
  | .trapret => true
  | .exit => true
  | .exitAbandon => true
  | .rdtime _ => true
  | .rdcnt _ _ => true
  | .brkpt => true
  | .trap _ => true
  | .fence _ k s => k != 0 && s.toNat < 5
  | .pbar _ => true
  | .lwait _ _ => true
  | .barInit _ _ _ => true
  | .barArrive _ _ => true
  | .barWait _ _ => true
  | .barTest _ d _ => d != 0
  | .genAlloc _ _ _ => true
  | .genPass _ => true
  | .ld _ _ _ s _ => s != 7
  | .st _ _ _ _ _ => true
  | .ldc _ _ _ _ => true
  | .stc _ _ _ _ => true
  | .ldx _ _ _ _ _ w => w != 7
  | .stx _ _ _ _ _ w => w != 7 && w.toNat % 2 == 0
  | .ldFe _ _ _ _ => true
  | .ldFf _ _ _ _ => true
  | .stEf _ _ _ _ => true
  | .feFill _ _ _ _ => true
  | .feClr _ _ _ => true
  | .feSt _ _ _ _ => true
  | .pref _ _ _ => true
  | .amo _ _ _ _ _ o => o.toNat < 9
  | .amoCas _ d _ _ _ => d.toNat < 56
  | .red _ _ _ _ o => o.toNat < 11 && o != 4 && o != 9
  | .vadd _ _ _ _ _ => true
  | .vsub _ _ _ _ _ => true
  | .vmul _ _ _ _ _ => true
  | .vfma _ _ _ _ _ => true
  | .vfms _ _ _ _ _ => true
  | .vfnma _ _ _ _ _ => true
  | .vmin _ _ _ _ _ => true
  | .vmax _ _ _ _ _ => true
  | .vabs _ _ _ _ => true
  | .vneg _ _ _ _ => true
  | .vrcp _ _ _ _ => true
  | .vrsqrt _ _ _ _ => true
  | .vsqrt _ _ _ _ => true
  | .vexp2 _ _ _ _ => true
  | .vlog2 _ _ _ _ => true
  | .vtanh _ _ _ _ => true
  | .vdiv _ _ _ _ _ => true
  | .viadd _ _ _ _ _ => true
  | .visub _ _ _ _ _ => true
  | .vimul _ _ _ _ _ => true
  | .vimulh _ _ _ _ _ => true
  | .vand _ _ _ _ _ => true
  | .vor _ _ _ _ _ => true
  | .vxor _ _ _ _ _ => true
  | .vshl _ _ _ _ _ => true
  | .vshr _ _ _ _ _ => true
  | .vsra _ _ _ _ _ => true
  | .vimin _ _ _ _ _ => true
  | .vimax _ _ _ _ _ => true
  | .vcmp _ c d _ _ _ => c.toNat < 8 && d != 0
  | .vicmp _ c d _ _ _ => c.toNat < 6 && d != 0
  | .vsel _ _ _ _ => true
  | .mand _ d _ _ => d != 0
  | .mor _ d _ _ => d != 0
  | .mnot _ d _ => d != 0
  | .mpop _ _ _ => true
  | .vcvt _ _ _ s _ => selectorWf s
  | .vpack _ _ a s _ => selectorWf s && a.toNat < 120
  | .vunpack _ d _ s _ => selectorWf s && d.toNat < 120
  | .vperm _ _ _ _ _ => true
  | .vbcast _ _ s _ _ => engineScalarWf s
  | .vrot _ _ _ _ _ => true
  | .vlane _ _ _ => true
  | .vredsum _ _ _ t _ => t.toNat < 2
  | .vredmax _ _ _ t _ => t.toNat < 3
  | .vredmin _ _ _ t _ => t.toNat < 3
  | .vscan _ _ _ t _ => t.toNat < 4
  | .vwin _ _ s _ => engineScalarWf s
  | .vxset _ v s _ _ => v.toNat < 120 && engineScalarWf s
  | .vmovs _ _ s _ => engineScalarWf s
  | .vmovq _ d i => i.toNat < 131 && (i.toNat < 128 || d == 0)
  | .vld _ _ _ s v _ => v.toNat < 6 && engineScalarWf s
  | .vst _ _ _ s v _ => storeVarWf v && engineScalarWf s
  | .vldx _ d _ s v _ => v.toNat < 6 && d.toNat < 120 && engineScalarWf s
  | .vstx _ d _ s v _ => storeVarWf v && d.toNat < 119 && engineScalarWf s
  | .vldS _ _ _ s v _ => v.toNat < 6 && enginePairWf s
  | .vstS _ _ _ s v _ => storeVarWf v && enginePairWf s
  | .mma _ _ a b f s => a != b && selectorWf f && engineScalarWf s
  | .mmaZ _ _ a b f s => a != b && selectorWf f && engineScalarWf s
  | .accClr _ _ => true
  | .accRd _ _ _ _ => true
  | .accWr _ _ _ _ => true
  | .epi _ _ _ _ s _ => enginePairWf s
  | .epiV _ _ _ s _ => enginePairWf s
  | .dtabLd _ _ _ _ => true
  | .dtabInv _ _ => true
  | .mseg _ s => engineScalarWf s
  | .cp _ _ _ l c => engineScalarWf l && engineScalarWf c
  | .cp2d _ _ _ n c => enginePairWf n && engineScalarWf c
  | .cpOm _ _ _ l c => engineScalarWf l && engineScalarWf c
  | .cpGat _ _ _ n c => engineScalarWf n && engineScalarWf c
  | .cpSet _ _ n c => enginePairWf n && engineScalarWf c
  | .cpZ _ _ _ l c => engineScalarWf l && engineScalarWf c
  | .cpX _ _ _ l c => engineScalarWf l && engineScalarWf c
  | .cpCk _ _ _ l c => engineScalarWf l && engineScalarWf c
  | .netPost _ _ l q => engineScalarWf l && engineScalarWf q
  | .netSend _ _ l q => engineScalarWf l && enginePairWf q
  | .netSendWrite _ _ l q => engineScalarWf l && enginePairWf q
  | .netSendRead _ _ l q => engineScalarWf l && enginePairWf q
  | .netReply _ _ l => engineScalarWf l
  | .fstLd _ _ l s => engineScalarWf l && engineScalarWf s
  | .fstStart _ _ l s => engineScalarWf l && engineScalarWf s
  | .fstStop _ s => engineScalarWf s
  | .zcPush _ _ => true
  | .zcFence _ => true
  | .zcStat _ _ => true
  | .frameReceive _ _ => true
  | .sowerAcceptMessage => true
  | .gcmHeaderCheck => true
  | .mcbLookup => true
  | .freePlotSearch _ => true
  | .bindAndRegisterPreload _ => true
  | .restoreSaveImage _ => true
  | .firstFetch _ => true
  | .decoderTableInitLoad _ _ => true
  | .launchEnqueueRetry _ => true
  | .roceSendReceive _ _ => true
  | .roceInboundRdma _ => true
  | .hostInboundWrite _ _ _ => true
  | .engineCommandStart _ _ => true
  | .engineCommandComplete _ _ _ _ => true
  | .mmaSegmentRetire _ => true
  | .taskIssue _ => true
  | .taskComplete _ => true
  | .taskWaitRecheck _ => true
  | .parkedAccessReplay _ => true
  | .xtlbEntryExpiry _ => true
  | .leaseRenewal _ _ _ => true
  | .heldFormWithdrawal _ => true
  | .feWaitSatisfied _ => true
  | .barWaitCompletion _ => true
  | .queuePortStallEnd _ => true
  | .lwaitEnd _ => true
  | .eqFenceEnd _ => true
  | .fenceComplete _ => true
  | .genPassWaitEnd _ => true
  | .omClaimWaitEnd _ => true
  | .exitDrainEnd _ => true
  | .invocationRetirement _ => true
  | .haltRelease _ => true
  | .killComplete _ => true
  | .preemptLandComplete _ => true
  | .saveComplete _ => true
  | .awaitingAnswerArrival _ _ _ => true
  | .t1Expiry _ => true
  | .t2Expiry _ => true
  | .t3Expiry _ => true
  | .skewEvent _ _ => true
  | .cpHeartbeatTimeout _ => true
  | .beaconReceive _ => true
  | .beaconTimeout => true
  | .nepolPathTimeout _ => true
  | .completionTimeout _ => true
  | .powerManagerTick _ _ => true
  | .thermalTrip => true
  | .wake => true
  | .sleep => true
  | .sproutJobStart _ _ => true
  | .sproutPageArrival _ _ => true
  | .sproutJobEnd _ _ => true
  | .sampleTick _ => true
  | .pktNop _ _ => true
  | .pktLaunch _ _ _ _ => true
  | .launchRetireWaitEnd _ => true
  | .pktIb _ _ => true
  | .pktPred _ cond _ _ _ _ => cond.toNat < 6
  | .pktLoop _ _ => true
  | .pktEndloop _ => true
  | .pktWrite _ _ _ _ => true
  | .pktWaitFlag _ cond _ _ _ => cond.toNat < 6
  | .waitReread _ => true
  | .pktWaitTime _ _ => true
  | .waitTimeEnd _ => true
  | .pktSignal _ _ _ _ => true
  | .signalAdd _ => true
  | .pktFfence _ => true
  | .ffenceRefetch _ => true
  | .pktCond _ cond _ _ _ _ => cond.toNat < 6
  | .pktSwitch _ _ _ cases => decide (1 ≤ cases.length) && decide (cases.length ≤ 16)
  | .pktEnd _ => true
  | .sqtailDoorbell _ _ => true
  | .cqheadWrite _ _ => true
  | .interfaceRegisterWrite _ _ _ => true
  | .install _ _ => true
  | .mcbWrite _ _ _ _ => true
  | .mcbRemove _ _ => true
  | .capWrite _ _ _ _ => true
  | .revoke _ _ _ _ => true
  | .revokeWaitEnd _ => true
  | .streamOpen _ _ _ _ _ _ => true
  | .streamTail _ _ _ => true
  | .streamClose _ _ => true
  | .qpCreate _ _ _ _ _ => true
  | .qpDestroy _ _ => true
  | .faultReplyResume _ _ => true
  | .faultReplyResumeHandler _ _ => true
  | .faultReplyKill _ _ => true
  | .assign _ _ _ _ => true
  | .partition _ _ => true
  | .keyslot _ _ _ _ => true
  | .replay _ _ => true
  | .checkpoint _ _ _ _ _ => true
  | .bitmapSwap _ _ => true
  | .bitmapSwitchComplete => true
  | .partitionReset _ _ => true
  | .windowReduction _ _ _ _ _ => true
  | .windowExport _ _ _ => true
  | .bankClaim _ _ _ => true
  | .bankRelease _ _ _ => true
  | .bankRead _ _ _ _ => true
  | .bankWrite _ _ _ _ => true
  | .snapshot _ _ _ => true
  | .bpWrite _ _ _ _ => true
  | .wpWrite _ _ _ _ => true
  | .sample _ _ _ _ _ => true
  | .dbgCfg _ _ _ _ _ => true
  | .fwLoad _ _ _ => true
  | .fwSwap _ _ => true
  | .attest _ _ _ => true
  | .coreReset _ _ _ => true
  | .power _ _ _ _ => true
  | .cpwdWrite _ _ => true
  | .fwctlWrite _ _ => true
  | .modeWrite _ _ => true
  | .csrWrite _ _ _ => true
  | .illegalInstruction _ => true
  | .functionReady _ => true
  | .ptCopyResynchronised _ => true
  | .nepolInboundAccess _ => true
  | .nepolLinkFailure _ => true
  | .nepolSwitchFailure _ _ => true
  | .scrubComplete _ => true
  | .checkpointStreamsWritten => true

end Sys2Proof
end

