-- ==== Sys2Proof/Decode.lean ====
section
/-!
DEFINITION. Decoding (R22 to R35) of a word, total on every word: an instruction, or a rejection by name. After it
the encoder, written from the same tables, and the decoding of a word as the opcode table numbers its bits.
-/
namespace Sys2Proof

/-- Bits `[lo + width - 1 : lo]` of a word given as a number (R2). -/
def bits (n lo width : Nat) : Nat := n / 2 ^ lo % 2 ^ width

/-- The same bits as an operand field. -/
def opnd (n lo width : Nat) : BitVec width := BitVec.ofNat width (n / 2 ^ lo)

/-- The little-endian bytes of a natural number (R2). -/
def leBytes : Nat → Nat → List Byte
  | 0, _ => []
  | n + 1, v => BitVec.ofNat 8 v :: leBytes n (v / 256)

/-- The natural number that little-endian bytes stand for (R2). -/
def leNat : List Byte → Nat
  | [] => 0
  | b :: bs => b.toNat + 256 * leNat bs

/-- Why a word is no instruction (R35). -/
inductive Reject where
  /-- An unassigned major, function code or engine opcode, a non-zero unused field, or an A bit that R19 forbids. -/
  | noInstruction
  /-- A field holds a reserved value, or one outside the register set of R13. -/
  | reservedValue
  deriving DecidableEq, Repr

/-- Integer register forms: major 0x00 by its fn field (R27). -/
def decodeInteger (n : Nat) : Option Instr :=
  match bits n 0 6 with
  | 0 => some (.add (opnd n 30 1) (opnd n 18 6) (opnd n 12 6) (opnd n 6 6))
  | 1 => some (.sub (opnd n 30 1) (opnd n 18 6) (opnd n 12 6) (opnd n 6 6))
  | 2 => some (.and (opnd n 30 1) (opnd n 18 6) (opnd n 12 6) (opnd n 6 6))
  | 3 => some (.or (opnd n 30 1) (opnd n 18 6) (opnd n 12 6) (opnd n 6 6))
  | 4 => some (.xor (opnd n 30 1) (opnd n 18 6) (opnd n 12 6) (opnd n 6 6))
  | 5 => some (.andn (opnd n 30 1) (opnd n 18 6) (opnd n 12 6) (opnd n 6 6))
  | 6 => some (.sll (opnd n 30 1) (opnd n 18 6) (opnd n 12 6) (opnd n 6 6))
  | 7 => some (.srl (opnd n 30 1) (opnd n 18 6) (opnd n 12 6) (opnd n 6 6))
  | 8 => some (.sra (opnd n 30 1) (opnd n 18 6) (opnd n 12 6) (opnd n 6 6))
  | 9 => some (.rol (opnd n 30 1) (opnd n 18 6) (opnd n 12 6) (opnd n 6 6))
  | 10 => some (.mul (opnd n 30 1) (opnd n 18 6) (opnd n 12 6) (opnd n 6 6))
  | 11 => some (.mulh (opnd n 30 1) (opnd n 18 6) (opnd n 12 6) (opnd n 6 6))
  | 12 => some (.mulhu (opnd n 30 1) (opnd n 18 6) (opnd n 12 6) (opnd n 6 6))
  | 13 => some (.div (opnd n 30 1) (opnd n 18 6) (opnd n 12 6) (opnd n 6 6))
  | 14 => some (.divu (opnd n 30 1) (opnd n 18 6) (opnd n 12 6) (opnd n 6 6))
  | 15 => some (.rem (opnd n 30 1) (opnd n 18 6) (opnd n 12 6) (opnd n 6 6))
  | 16 => some (.remu (opnd n 30 1) (opnd n 18 6) (opnd n 12 6) (opnd n 6 6))
  | 17 => some (.min (opnd n 30 1) (opnd n 18 6) (opnd n 12 6) (opnd n 6 6))
  | 18 => some (.max (opnd n 30 1) (opnd n 18 6) (opnd n 12 6) (opnd n 6 6))
  | 19 => some (.minu (opnd n 30 1) (opnd n 18 6) (opnd n 12 6) (opnd n 6 6))
  | 20 => some (.maxu (opnd n 30 1) (opnd n 18 6) (opnd n 12 6) (opnd n 6 6))
  | 21 => some (.slt (opnd n 30 1) (opnd n 18 6) (opnd n 12 6) (opnd n 6 6))
  | 22 => some (.sltu (opnd n 30 1) (opnd n 18 6) (opnd n 12 6) (opnd n 6 6))
  | _ => none

/-- Control words by their major (R26). The A bit is bit 30, and R19 forbids it on majors 0x14 to 0x18 and 0x30 to 0x33. -/
def decodeControl (n : Nat) : Option Instr :=
  match bits n 24 6 with
  | 0 => decodeInteger n
  | 1 =>
    if bits n 0 12 == 0 then some (.clz (opnd n 30 1) (opnd n 18 6) (opnd n 12 6)) else
    if bits n 0 12 == 1 then some (.ctz (opnd n 30 1) (opnd n 18 6) (opnd n 12 6)) else
    if bits n 0 12 == 2 then some (.popc (opnd n 30 1) (opnd n 18 6) (opnd n 12 6)) else
    if bits n 0 12 == 5 then some (.bswap (opnd n 30 1) (opnd n 18 6) (opnd n 12 6)) else
    if bits n 8 4 == 0 && bits n 0 6 == 3 then some (.sext (opnd n 30 1) (opnd n 18 6) (opnd n 12 6) (opnd n 6 2)) else
    if bits n 8 4 == 0 && bits n 0 6 == 4 then some (.zext (opnd n 30 1) (opnd n 18 6) (opnd n 12 6) (opnd n 6 2)) else
    none
  | 2 =>
    if bits n 0 6 == 0 then some (.cmp (opnd n 30 1) (opnd n 21 3) (opnd n 18 3) (opnd n 12 6) (opnd n 6 6)) else
    none
  | 3 => some (.cmpi (opnd n 30 1) (opnd n 21 3) (opnd n 18 3) (opnd n 12 6) (opnd n 0 12))
  | 4 =>
    if bits n 4 2 == 0 then some (.sel (opnd n 30 1) (opnd n 18 6) (opnd n 12 6) (opnd n 6 6) (opnd n 3 1) (opnd n 0 3)) else
    none
  | 5 =>
    if bits n 21 3 == 0 && bits n 15 3 == 0 && bits n 0 12 == 3 then some (.pnot (opnd n 30 1) (opnd n 18 3) (opnd n 12 3)) else
    if bits n 21 3 == 0 && bits n 15 3 == 0 && bits n 0 12 == 4 then some (.pmov (opnd n 30 1) (opnd n 18 3) (opnd n 12 3)) else
    if bits n 21 3 == 0 && bits n 15 3 == 0 && bits n 9 3 == 0 && bits n 0 6 == 0 then some (.pand (opnd n 30 1) (opnd n 18 3) (opnd n 12 3) (opnd n 6 3)) else
    if bits n 21 3 == 0 && bits n 15 3 == 0 && bits n 9 3 == 0 && bits n 0 6 == 1 then some (.por (opnd n 30 1) (opnd n 18 3) (opnd n 12 3) (opnd n 6 3)) else
    if bits n 21 3 == 0 && bits n 15 3 == 0 && bits n 9 3 == 0 && bits n 0 6 == 2 then some (.pxor (opnd n 30 1) (opnd n 18 3) (opnd n 12 3) (opnd n 6 3)) else
    none
  | 8 => some (.addi (opnd n 30 1) (opnd n 18 6) (opnd n 12 6) (opnd n 0 12))
  | 9 => some (.andi (opnd n 30 1) (opnd n 18 6) (opnd n 12 6) (opnd n 0 12))
  | 10 => some (.ori (opnd n 30 1) (opnd n 18 6) (opnd n 12 6) (opnd n 0 12))
  | 11 => some (.xori (opnd n 30 1) (opnd n 18 6) (opnd n 12 6) (opnd n 0 12))
  | 12 =>
    if bits n 6 6 == 0 then some (.slli (opnd n 30 1) (opnd n 18 6) (opnd n 12 6) (opnd n 0 6)) else
    none
  | 13 =>
    if bits n 6 6 == 0 then some (.srli (opnd n 30 1) (opnd n 18 6) (opnd n 12 6) (opnd n 0 6)) else
    none
  | 14 =>
    if bits n 6 6 == 0 then some (.srai (opnd n 30 1) (opnd n 18 6) (opnd n 12 6) (opnd n 0 6)) else
    none
  | 15 => some (.slti (opnd n 30 1) (opnd n 18 6) (opnd n 12 6) (opnd n 0 12))
  | 16 => some (.sltiu (opnd n 30 1) (opnd n 18 6) (opnd n 12 6) (opnd n 0 12))
  | 17 => some (.lui (opnd n 30 1) (opnd n 18 6) (opnd n 0 18))
  | 20 =>
    if bits n 30 1 == 0 && bits n 20 4 == 0 then some (.br (opnd n 0 20)) else
    if bits n 30 1 == 0 && bits n 20 1 == 0 then some (.bp (opnd n 21 3) (opnd n 0 20)) else
    if bits n 30 1 == 0 && bits n 20 1 == 1 then some (.bnp (opnd n 21 3) (opnd n 0 20)) else
    none
  | 21 =>
    if bits n 30 1 == 0 then some (.call (opnd n 18 6) (opnd n 0 18)) else
    none
  | 22 =>
    if bits n 30 1 == 0 && bits n 18 6 == 0 && bits n 0 12 == 1 then some (.ret (opnd n 12 6)) else
    if bits n 30 1 == 0 && bits n 0 12 == 0 then some (.jmpr (opnd n 18 6) (opnd n 12 6)) else
    none
  | 23 =>
    if bits n 30 1 == 0 && bits n 17 5 == 0 then some (.loop (opnd n 22 2) (opnd n 11 6) (opnd n 0 11)) else
    if bits n 30 1 == 0 && bits n 21 1 == 1 then some (.loopi (opnd n 22 2) (opnd n 11 10) (opnd n 0 11)) else
    none
  | 24 =>
    if bits n 30 1 == 0 && bits n 0 22 == 0 then some (.lbrk (opnd n 22 2)) else
    none
  | 32 =>
    if bits n 23 1 == 0 && bits n 17 1 == 0 && bits n 0 12 == 6 then some (.cmov (opnd n 30 1) (opnd n 18 5) (opnd n 12 5)) else
    if bits n 23 1 == 0 && bits n 0 12 == 7 then some (.ctab (opnd n 30 1) (opnd n 18 5) (opnd n 12 6)) else
    if bits n 21 3 == 0 && bits n 17 1 == 0 && bits n 0 6 == 5 then some (.ctest (opnd n 30 1) (opnd n 18 3) (opnd n 12 5) (opnd n 6 6)) else
    if bits n 23 1 == 0 && bits n 17 1 == 0 && bits n 0 6 == 0 then some (.cbnd (opnd n 30 1) (opnd n 18 5) (opnd n 12 5) (opnd n 6 6)) else
    if bits n 23 1 == 0 && bits n 17 1 == 0 && bits n 0 6 == 1 then some (.ccur (opnd n 30 1) (opnd n 18 5) (opnd n 12 5) (opnd n 6 6)) else
    if bits n 23 1 == 0 && bits n 17 1 == 0 && bits n 0 6 == 2 then some (.cadd (opnd n 30 1) (opnd n 18 5) (opnd n 12 5) (opnd n 6 6)) else
    if bits n 23 1 == 0 && bits n 17 1 == 0 && bits n 0 6 == 3 then some (.cand (opnd n 30 1) (opnd n 18 5) (opnd n 12 5) (opnd n 6 6)) else
    if bits n 17 1 == 0 && bits n 0 6 == 4 then some (.cget (opnd n 30 1) (opnd n 18 6) (opnd n 12 5) (opnd n 6 6)) else
    none
  | 33 =>
    if bits n 23 1 == 0 && bits n 17 1 == 0 then some (.caddi (opnd n 30 1) (opnd n 18 5) (opnd n 12 5) (opnd n 0 12)) else
    none
  | 36 =>
    if bits n 15 9 == 7 && bits n 0 12 == 1 then some (.qwait (opnd n 30 1) (opnd n 12 3)) else
    if bits n 21 3 == 0 && bits n 15 3 == 7 && bits n 0 12 == 0 then some (.qpoll (opnd n 30 1) (opnd n 18 3) (opnd n 12 3)) else
    none
  | 40 =>
    if bits n 16 8 == 0 && bits n 0 12 == 0 then some (.omClaim (opnd n 30 1) (opnd n 12 4)) else
    if bits n 16 8 == 0 && bits n 0 12 == 1 then some (.omRelease (opnd n 30 1) (opnd n 12 4)) else
    if bits n 10 14 == 0 && bits n 0 6 == 3 then some (.eqFence (opnd n 30 1) (opnd n 6 4)) else
    if bits n 14 10 == 0 && bits n 8 4 == 0 && bits n 0 6 == 4 then some (.chain (opnd n 30 1) (opnd n 12 2) (opnd n 6 2)) else
    if bits n 17 7 == 0 && bits n 0 12 == 5 then some (.taskPost (opnd n 30 1) (opnd n 12 5)) else
    if bits n 16 2 == 0 && bits n 0 12 == 2 then some (.omState (opnd n 30 1) (opnd n 18 6) (opnd n 12 4)) else
    if bits n 22 2 == 0 && bits n 0 12 == 6 then some (.fmtSet (opnd n 30 1) (opnd n 18 4) (opnd n 12 6)) else
    if bits n 16 2 == 0 && bits n 0 12 == 7 then some (.fmtGet (opnd n 30 1) (opnd n 18 6) (opnd n 12 4)) else
    none
  | 48 =>
    if bits n 30 1 == 0 && bits n 12 6 == 0 then some (.mfsr (opnd n 18 6) (opnd n 0 12)) else
    none
  | 49 =>
    if bits n 30 1 == 0 && bits n 18 6 == 0 then some (.mtsr (opnd n 12 6) (opnd n 0 12)) else
    none
  | 50 =>
    if bits n 30 1 == 0 && bits n 0 24 == 0 then some (.trapret) else
    if bits n 30 1 == 0 && bits n 0 24 == 1 then some (.exit) else
    if bits n 30 1 == 0 && bits n 0 24 == 2 then some (.exitAbandon) else
    if bits n 30 1 == 0 && bits n 0 24 == 5 then some (.brkpt) else
    if bits n 30 1 == 0 && bits n 0 18 == 3 then some (.rdtime (opnd n 18 6)) else
    if bits n 30 1 == 0 && bits n 0 12 == 4 then some (.rdcnt (opnd n 18 6) (opnd n 12 6)) else
    none
  | 51 =>
    if bits n 30 1 == 0 && bits n 18 6 == 0 then some (.trap (opnd n 0 18)) else
    none
  | 52 =>
    if bits n 6 18 == 0 && bits n 3 1 == 0 then some (.fence (opnd n 30 1) (opnd n 4 2) (opnd n 0 3)) else
    none
  | 53 =>
    if bits n 0 24 == 0 then some (.pbar (opnd n 30 1)) else
    if bits n 0 24 == 7 then some (.genPass (opnd n 30 1)) else
    if bits n 17 7 == 0 && bits n 0 12 == 1 then some (.lwait (opnd n 30 1) (opnd n 12 5)) else
    if bits n 17 7 == 0 && bits n 0 12 == 3 then some (.barArrive (opnd n 30 1) (opnd n 12 5)) else
    if bits n 17 7 == 0 && bits n 0 12 == 4 then some (.barWait (opnd n 30 1) (opnd n 12 5)) else
    if bits n 21 3 == 0 && bits n 17 1 == 0 && bits n 0 12 == 5 then some (.barTest (opnd n 30 1) (opnd n 18 3) (opnd n 12 5)) else
    if bits n 17 7 == 0 && bits n 0 6 == 2 then some (.barInit (opnd n 30 1) (opnd n 12 5) (opnd n 6 6)) else
    if bits n 23 1 == 0 && bits n 0 12 == 6 then some (.genAlloc (opnd n 30 1) (opnd n 18 5) (opnd n 12 6)) else
    none
  | 56 => some (.ld (opnd n 30 1) (opnd n 18 6) (opnd n 13 5) (opnd n 10 3) (opnd n 0 10))
  | 57 =>
    if bits n 10 1 == 0 then some (.st (opnd n 30 1) (opnd n 18 6) (opnd n 13 5) (opnd n 11 2) (opnd n 0 10)) else
    none
  | 58 =>
    if bits n 23 1 == 0 && bits n 10 3 == 0 then some (.ldc (opnd n 30 1) (opnd n 18 5) (opnd n 13 5) (opnd n 0 10)) else
    none
  | 59 =>
    if bits n 23 1 == 0 && bits n 10 3 == 0 then some (.stc (opnd n 30 1) (opnd n 18 5) (opnd n 13 5) (opnd n 0 10)) else
    none
  | 60 =>
    if bits n 17 1 == 0 && bits n 5 1 == 0 && bits n 3 1 == 0 then some (.ldx (opnd n 30 1) (opnd n 18 6) (opnd n 12 5) (opnd n 6 6) (opnd n 4 1) (opnd n 0 3)) else
    if bits n 17 1 == 0 && bits n 5 1 == 0 && bits n 3 1 == 1 then some (.stx (opnd n 30 1) (opnd n 18 6) (opnd n 12 5) (opnd n 6 6) (opnd n 4 1) (opnd n 0 3)) else
    none
  | 61 =>
    if bits n 18 6 == 0 && bits n 10 3 == 4 then some (.feClr (opnd n 30 1) (opnd n 13 5) (opnd n 0 10)) else
    if bits n 18 6 == 0 && bits n 10 3 == 6 then some (.pref (opnd n 30 1) (opnd n 13 5) (opnd n 0 10)) else
    if bits n 10 3 == 0 then some (.ldFe (opnd n 30 1) (opnd n 18 6) (opnd n 13 5) (opnd n 0 10)) else
    if bits n 10 3 == 1 then some (.ldFf (opnd n 30 1) (opnd n 18 6) (opnd n 13 5) (opnd n 0 10)) else
    if bits n 10 3 == 2 then some (.stEf (opnd n 30 1) (opnd n 18 6) (opnd n 13 5) (opnd n 0 10)) else
    if bits n 10 3 == 3 then some (.feFill (opnd n 30 1) (opnd n 18 6) (opnd n 13 5) (opnd n 0 10)) else
    if bits n 10 3 == 5 then some (.feSt (opnd n 30 1) (opnd n 18 6) (opnd n 13 5) (opnd n 0 10)) else
    none
  | 62 =>
    if bits n 17 1 == 0 && bits n 5 1 == 0 && bits n 0 4 == 9 then some (.amoCas (opnd n 30 1) (opnd n 18 6) (opnd n 12 5) (opnd n 6 6) (opnd n 4 1)) else
    if bits n 17 1 == 0 && bits n 5 1 == 0 then some (.amo (opnd n 30 1) (opnd n 18 6) (opnd n 12 5) (opnd n 6 6) (opnd n 4 1) (opnd n 0 4)) else
    none
  | 63 =>
    if bits n 17 7 == 0 && bits n 5 1 == 0 then some (.red (opnd n 30 1) (opnd n 12 5) (opnd n 6 6) (opnd n 4 1) (opnd n 0 4)) else
    none
  | _ => none

/-- Vector-engine words by their opcode (R33). -/
def decodeVector (n : Nat) : Option Instr :=
  match bits n 22 6 with
  | 0 => some (.vadd (opnd n 30 1) (opnd n 15 7) (opnd n 8 7) (opnd n 1 7) (opnd n 0 1))
  | 1 => some (.vsub (opnd n 30 1) (opnd n 15 7) (opnd n 8 7) (opnd n 1 7) (opnd n 0 1))
  | 2 => some (.vmul (opnd n 30 1) (opnd n 15 7) (opnd n 8 7) (opnd n 1 7) (opnd n 0 1))
  | 3 => some (.vfma (opnd n 30 1) (opnd n 15 7) (opnd n 8 7) (opnd n 1 7) (opnd n 0 1))
  | 4 => some (.vfms (opnd n 30 1) (opnd n 15 7) (opnd n 8 7) (opnd n 1 7) (opnd n 0 1))
  | 5 => some (.vfnma (opnd n 30 1) (opnd n 15 7) (opnd n 8 7) (opnd n 1 7) (opnd n 0 1))
  | 6 => some (.vmin (opnd n 30 1) (opnd n 15 7) (opnd n 8 7) (opnd n 1 7) (opnd n 0 1))
  | 7 => some (.vmax (opnd n 30 1) (opnd n 15 7) (opnd n 8 7) (opnd n 1 7) (opnd n 0 1))
  | 8 =>
    if bits n 1 7 == 0 then some (.vabs (opnd n 30 1) (opnd n 15 7) (opnd n 8 7) (opnd n 0 1)) else
    none
  | 9 =>
    if bits n 1 7 == 0 then some (.vneg (opnd n 30 1) (opnd n 15 7) (opnd n 8 7) (opnd n 0 1)) else
    none
  | 10 =>
    if bits n 1 7 == 0 then some (.vrcp (opnd n 30 1) (opnd n 15 7) (opnd n 8 7) (opnd n 0 1)) else
    none
  | 11 =>
    if bits n 1 7 == 0 then some (.vrsqrt (opnd n 30 1) (opnd n 15 7) (opnd n 8 7) (opnd n 0 1)) else
    none
  | 12 =>
    if bits n 1 7 == 0 then some (.vsqrt (opnd n 30 1) (opnd n 15 7) (opnd n 8 7) (opnd n 0 1)) else
    none
  | 13 =>
    if bits n 1 7 == 0 then some (.vexp2 (opnd n 30 1) (opnd n 15 7) (opnd n 8 7) (opnd n 0 1)) else
    none
  | 14 =>
    if bits n 1 7 == 0 then some (.vlog2 (opnd n 30 1) (opnd n 15 7) (opnd n 8 7) (opnd n 0 1)) else
    none
  | 15 =>
    if bits n 1 7 == 0 then some (.vtanh (opnd n 30 1) (opnd n 15 7) (opnd n 8 7) (opnd n 0 1)) else
    none
  | 16 => some (.vdiv (opnd n 30 1) (opnd n 15 7) (opnd n 8 7) (opnd n 1 7) (opnd n 0 1))
  | 17 => some (.viadd (opnd n 30 1) (opnd n 15 7) (opnd n 8 7) (opnd n 1 7) (opnd n 0 1))
  | 18 => some (.visub (opnd n 30 1) (opnd n 15 7) (opnd n 8 7) (opnd n 1 7) (opnd n 0 1))
  | 19 => some (.vimul (opnd n 30 1) (opnd n 15 7) (opnd n 8 7) (opnd n 1 7) (opnd n 0 1))
  | 20 => some (.vimulh (opnd n 30 1) (opnd n 15 7) (opnd n 8 7) (opnd n 1 7) (opnd n 0 1))
  | 21 => some (.vand (opnd n 30 1) (opnd n 15 7) (opnd n 8 7) (opnd n 1 7) (opnd n 0 1))
  | 22 => some (.vor (opnd n 30 1) (opnd n 15 7) (opnd n 8 7) (opnd n 1 7) (opnd n 0 1))
  | 23 => some (.vxor (opnd n 30 1) (opnd n 15 7) (opnd n 8 7) (opnd n 1 7) (opnd n 0 1))
  | 24 => some (.vshl (opnd n 30 1) (opnd n 15 7) (opnd n 8 7) (opnd n 1 7) (opnd n 0 1))
  | 25 => some (.vshr (opnd n 30 1) (opnd n 15 7) (opnd n 8 7) (opnd n 1 7) (opnd n 0 1))
  | 26 => some (.vsra (opnd n 30 1) (opnd n 15 7) (opnd n 8 7) (opnd n 1 7) (opnd n 0 1))
  | 27 => some (.vimin (opnd n 30 1) (opnd n 15 7) (opnd n 8 7) (opnd n 1 7) (opnd n 0 1))
  | 28 => some (.vimax (opnd n 30 1) (opnd n 15 7) (opnd n 8 7) (opnd n 1 7) (opnd n 0 1))
  | 29 => some (.vcmp (opnd n 30 1) (opnd n 18 4) (opnd n 15 3) (opnd n 8 7) (opnd n 1 7) (opnd n 0 1))
  | 30 => some (.vicmp (opnd n 30 1) (opnd n 18 4) (opnd n 15 3) (opnd n 8 7) (opnd n 1 7) (opnd n 0 1))
  | 31 =>
    if bits n 0 1 == 0 then some (.vsel (opnd n 30 1) (opnd n 15 7) (opnd n 8 7) (opnd n 1 7)) else
    none
  | 32 =>
    if bits n 18 4 == 0 && bits n 11 4 == 0 && bits n 4 4 == 0 && bits n 0 1 == 0 then some (.mand (opnd n 30 1) (opnd n 15 3) (opnd n 8 3) (opnd n 1 3)) else
    none
  | 33 =>
    if bits n 18 4 == 0 && bits n 11 4 == 0 && bits n 4 4 == 0 && bits n 0 1 == 0 then some (.mor (opnd n 30 1) (opnd n 15 3) (opnd n 8 3) (opnd n 1 3)) else
    none
  | 34 =>
    if bits n 18 4 == 0 && bits n 11 4 == 0 && bits n 0 8 == 0 then some (.mnot (opnd n 30 1) (opnd n 15 3) (opnd n 8 3)) else
    none
  | 35 =>
    if bits n 11 4 == 0 && bits n 0 8 == 0 then some (.mpop (opnd n 30 1) (opnd n 15 7) (opnd n 8 3)) else
    none
  | 36 => some (.vcvt (opnd n 30 1) (opnd n 15 7) (opnd n 8 7) (opnd n 1 7) (opnd n 0 1))
  | 37 => some (.vpack (opnd n 30 1) (opnd n 15 7) (opnd n 8 7) (opnd n 1 7) (opnd n 0 1))
  | 38 => some (.vunpack (opnd n 30 1) (opnd n 15 7) (opnd n 8 7) (opnd n 1 7) (opnd n 0 1))
  | 39 => some (.vperm (opnd n 30 1) (opnd n 15 7) (opnd n 8 7) (opnd n 1 7) (opnd n 0 1))
  | 40 =>
    if bits n 2 7 == 0 then some (.vbcast (opnd n 30 1) (opnd n 15 7) (opnd n 9 6) (opnd n 1 1) (opnd n 0 1)) else
    none
  | 41 => some (.vrot (opnd n 30 1) (opnd n 15 7) (opnd n 8 7) (opnd n 1 7) (opnd n 0 1))
  | 42 =>
    if bits n 1 14 == 0 then some (.vlane (opnd n 30 1) (opnd n 15 7) (opnd n 0 1)) else
    none
  | 43 => some (.vredsum (opnd n 30 1) (opnd n 15 7) (opnd n 8 7) (opnd n 1 7) (opnd n 0 1))
  | 44 => some (.vredmax (opnd n 30 1) (opnd n 15 7) (opnd n 8 7) (opnd n 1 7) (opnd n 0 1))
  | 45 => some (.vredmin (opnd n 30 1) (opnd n 15 7) (opnd n 8 7) (opnd n 1 7) (opnd n 0 1))
  | 46 => some (.vscan (opnd n 30 1) (opnd n 15 7) (opnd n 8 7) (opnd n 1 7) (opnd n 0 1))
  | 47 =>
    if bits n 18 4 == 0 && bits n 7 2 == 0 && bits n 0 1 == 0 then some (.vwin (opnd n 30 1) (opnd n 15 3) (opnd n 9 6) (opnd n 1 6)) else
    none
  | 48 =>
    if bits n 4 5 == 0 then some (.vxset (opnd n 30 1) (opnd n 15 7) (opnd n 9 6) (opnd n 1 3) (opnd n 0 1)) else
    none
  | 49 =>
    if bits n 8 1 == 0 && bits n 0 1 == 0 then some (.vmovs (opnd n 30 1) (opnd n 15 7) (opnd n 9 6) (opnd n 1 7)) else
    none
  | 50 =>
    if bits n 9 6 == 0 && bits n 0 1 == 0 then some (.vmovq (opnd n 30 1) (opnd n 15 7) (opnd n 1 8)) else
    none
  | 51 => some (.vld (opnd n 30 1) (opnd n 15 7) (opnd n 10 5) (opnd n 4 6) (opnd n 1 3) (opnd n 0 1))
  | 52 => some (.vst (opnd n 30 1) (opnd n 15 7) (opnd n 10 5) (opnd n 4 6) (opnd n 1 3) (opnd n 0 1))
  | 53 => some (.vldx (opnd n 30 1) (opnd n 15 7) (opnd n 10 5) (opnd n 4 6) (opnd n 1 3) (opnd n 0 1))
  | 54 => some (.vstx (opnd n 30 1) (opnd n 15 7) (opnd n 10 5) (opnd n 4 6) (opnd n 1 3) (opnd n 0 1))
  | 55 => some (.vldS (opnd n 30 1) (opnd n 15 7) (opnd n 10 5) (opnd n 4 6) (opnd n 1 3) (opnd n 0 1))
  | 56 => some (.vstS (opnd n 30 1) (opnd n 15 7) (opnd n 10 5) (opnd n 4 6) (opnd n 1 3) (opnd n 0 1))
  | _ => none

/-- Matrix-engine words (R34). -/
def decodeMatrix (n : Nat) : Option Instr :=
  match bits n 22 6 with
  | 0 => some (.mma (opnd n 30 1) (opnd n 21 1) (opnd n 17 4) (opnd n 13 4) (opnd n 6 7) (opnd n 0 6))
  | 1 => some (.mmaZ (opnd n 30 1) (opnd n 21 1) (opnd n 17 4) (opnd n 13 4) (opnd n 6 7) (opnd n 0 6))
  | 2 =>
    if bits n 0 21 == 0 then some (.accClr (opnd n 30 1) (opnd n 21 1)) else
    none
  | 3 =>
    if bits n 17 4 == 0 && bits n 1 11 == 0 then some (.accRd (opnd n 30 1) (opnd n 21 1) (opnd n 12 5) (opnd n 0 1)) else
    none
  | 4 =>
    if bits n 17 4 == 0 && bits n 1 11 == 0 then some (.accWr (opnd n 30 1) (opnd n 21 1) (opnd n 12 5) (opnd n 0 1)) else
    none
  | 5 =>
    if bits n 1 5 == 0 then some (.epi (opnd n 30 1) (opnd n 21 1) (opnd n 17 4) (opnd n 12 5) (opnd n 6 6) (opnd n 0 1)) else
    none
  | 6 =>
    if bits n 12 5 == 0 && bits n 1 5 == 0 then some (.epiV (opnd n 30 1) (opnd n 21 1) (opnd n 17 4) (opnd n 6 6) (opnd n 0 1)) else
    none
  | 7 =>
    if bits n 19 3 == 0 && bits n 1 11 == 0 then some (.dtabLd (opnd n 30 1) (opnd n 17 2) (opnd n 12 5) (opnd n 0 1)) else
    none
  | 8 =>
    if bits n 19 3 == 0 && bits n 0 17 == 0 then some (.dtabInv (opnd n 30 1) (opnd n 17 2)) else
    none
  | 9 =>
    if bits n 12 10 == 0 && bits n 0 6 == 0 then some (.mseg (opnd n 30 1) (opnd n 6 6)) else
    none
  | _ => none

/-- Copy-engine words (R34). -/
def decodeCopy (n : Nat) : Option Instr :=
  match bits n 22 6 with
  | 0 => some (.cp (opnd n 30 1) (opnd n 17 5) (opnd n 12 5) (opnd n 6 6) (opnd n 0 6))
  | 1 => some (.cp2d (opnd n 30 1) (opnd n 17 5) (opnd n 12 5) (opnd n 6 6) (opnd n 0 6))
  | 2 =>
    if bits n 21 1 == 0 then some (.cpOm (opnd n 30 1) (opnd n 17 4) (opnd n 12 5) (opnd n 6 6) (opnd n 0 6)) else
    none
  | 3 => some (.cpGat (opnd n 30 1) (opnd n 17 5) (opnd n 12 5) (opnd n 6 6) (opnd n 0 6))
  | 4 =>
    if bits n 12 5 == 0 then some (.cpSet (opnd n 30 1) (opnd n 17 5) (opnd n 6 6) (opnd n 0 6)) else
    none
  | 5 => some (.cpZ (opnd n 30 1) (opnd n 17 5) (opnd n 12 5) (opnd n 6 6) (opnd n 0 6))
  | 6 => some (.cpX (opnd n 30 1) (opnd n 17 5) (opnd n 12 5) (opnd n 6 6) (opnd n 0 6))
  | 7 => some (.cpCk (opnd n 30 1) (opnd n 17 5) (opnd n 12 5) (opnd n 6 6) (opnd n 0 6))
  | _ => none

/-- Network-engine words (R34). -/
def decodeNetwork (n : Nat) : Option Instr :=
  match bits n 22 6 with
  | 0 =>
    if bits n 0 5 == 0 then some (.netPost (opnd n 30 1) (opnd n 17 5) (opnd n 11 6) (opnd n 5 6)) else
    none
  | 1 =>
    if bits n 0 5 == 0 then some (.netSend (opnd n 30 1) (opnd n 17 5) (opnd n 11 6) (opnd n 5 6)) else
    if bits n 0 5 == 1 then some (.netSendWrite (opnd n 30 1) (opnd n 17 5) (opnd n 11 6) (opnd n 5 6)) else
    if bits n 0 5 == 2 then some (.netSendRead (opnd n 30 1) (opnd n 17 5) (opnd n 11 6) (opnd n 5 6)) else
    none
  | 2 =>
    if bits n 0 11 == 0 then some (.netReply (opnd n 30 1) (opnd n 17 5) (opnd n 11 6)) else
    none
  | 3 =>
    if bits n 0 5 == 0 then some (.fstLd (opnd n 30 1) (opnd n 17 5) (opnd n 11 6) (opnd n 5 6)) else
    none
  | 4 =>
    if bits n 0 5 == 0 then some (.fstStart (opnd n 30 1) (opnd n 17 5) (opnd n 11 6) (opnd n 5 6)) else
    none
  | 5 =>
    if bits n 11 11 == 0 && bits n 0 5 == 0 then some (.fstStop (opnd n 30 1) (opnd n 5 6)) else
    none
  | _ => none

/-- The fields of a Ziric word, before the reserved values are looked at. -/
def decodeFields (n : Nat) : Option Instr :=
  if bits n 31 1 == 0 then decodeControl n else
  match bits n 28 2 with
  | 0 => decodeVector n
  | 1 => decodeMatrix n
  | 2 => decodeCopy n
  | _ => decodeNetwork n

/-- Decodes a Ziric word: an instruction, or why it is none (R35). No word is ignored or read as another. -/
def decode (w : W32) : Except Reject Instr :=
  match decodeFields w.toNat with
  | none => .error .noInstruction
  | some i => if i.wf then .ok i else .error .reservedValue

/-- Decodes a zc word of a command-processor core (R442 to R445); any other word is none of them. -/
def decodeZc (w : W32) : Option Instr :=
  let n := w.toNat
  if bits n 12 20 == 1 && bits n 0 7 == 11 then some (.zcFence (opnd n 7 5)) else
  if bits n 20 12 == 0 && bits n 12 3 == 0 && bits n 0 7 == 11 then some (.zcPush (opnd n 15 5) (opnd n 7 5)) else
  if bits n 20 12 == 0 && bits n 12 3 == 2 && bits n 0 7 == 11 then some (.zcStat (opnd n 15 5) (opnd n 7 5)) else
  none

/-- Decodes the four bytes at a fetch address, little-endian (R22). -/
def decodeBytes (bs : List Byte) : Except Reject Instr := decode (BitVec.ofNat 32 (leNat (bs.take 4)))

/-- Which instruction the decoders read from a word whose bits are numbered as the opcode table numbers them. A
command-processor core reads the zc words and a core thread reads the others, so a word that both sets admit is
read as the zc word, except 0x0000_000B, which is read as mulh s0, s0, s0. -/
def decodeTableWord (nbits w : Nat) : Option Instr :=
  if nbits > 32 || w ≥ 2 ^ 32 then none else
  match (if w == 0x0000000B then none else decodeZc (BitVec.ofNat 32 w)) with
  | some i => some i
  | none =>
    match decode (BitVec.ofNat 32 w) with
    | .ok i => some i
    | .error _ => none

/-- A word with a field placed at its lowest bit. -/
def put (word : Nat) {k : Nat} (f : BitVec k) (lo : Nat) : Nat := word + f.toNat * 2 ^ lo

/-- The word of an instruction as a number: its fixed bits and its operand fields (R23 to R34). A step of the part that
is no instruction word has none. -/
def encodeNat : Instr → Option Nat
  | .add z d a b => some (put (put (put (put 0x00000000 z 30) d 18) a 12) b 6)
  | .sub z d a b => some (put (put (put (put 0x00000001 z 30) d 18) a 12) b 6)
  | .and z d a b => some (put (put (put (put 0x00000002 z 30) d 18) a 12) b 6)
  | .or z d a b => some (put (put (put (put 0x00000003 z 30) d 18) a 12) b 6)
  | .xor z d a b => some (put (put (put (put 0x00000004 z 30) d 18) a 12) b 6)
  | .andn z d a b => some (put (put (put (put 0x00000005 z 30) d 18) a 12) b 6)
  | .sll z d a b => some (put (put (put (put 0x00000006 z 30) d 18) a 12) b 6)
  | .srl z d a b => some (put (put (put (put 0x00000007 z 30) d 18) a 12) b 6)
  | .sra z d a b => some (put (put (put (put 0x00000008 z 30) d 18) a 12) b 6)
  | .rol z d a b => some (put (put (put (put 0x00000009 z 30) d 18) a 12) b 6)
  | .mul z d a b => some (put (put (put (put 0x0000000A z 30) d 18) a 12) b 6)
  | .mulh z d a b => some (put (put (put (put 0x0000000B z 30) d 18) a 12) b 6)
  | .mulhu z d a b => some (put (put (put (put 0x0000000C z 30) d 18) a 12) b 6)
  | .div z d a b => some (put (put (put (put 0x0000000D z 30) d 18) a 12) b 6)
  | .divu z d a b => some (put (put (put (put 0x0000000E z 30) d 18) a 12) b 6)
  | .rem z d a b => some (put (put (put (put 0x0000000F z 30) d 18) a 12) b 6)
  | .remu z d a b => some (put (put (put (put 0x00000010 z 30) d 18) a 12) b 6)
  | .min z d a b => some (put (put (put (put 0x00000011 z 30) d 18) a 12) b 6)
  | .max z d a b => some (put (put (put (put 0x00000012 z 30) d 18) a 12) b 6)
  | .minu z d a b => some (put (put (put (put 0x00000013 z 30) d 18) a 12) b 6)
  | .maxu z d a b => some (put (put (put (put 0x00000014 z 30) d 18) a 12) b 6)
  | .slt z d a b => some (put (put (put (put 0x00000015 z 30) d 18) a 12) b 6)
  | .sltu z d a b => some (put (put (put (put 0x00000016 z 30) d 18) a 12) b 6)
  | .clz z d a => some (put (put (put 0x01000000 z 30) d 18) a 12)
  | .ctz z d a => some (put (put (put 0x01000001 z 30) d 18) a 12)
  | .popc z d a => some (put (put (put 0x01000002 z 30) d 18) a 12)
  | .bswap z d a => some (put (put (put 0x01000005 z 30) d 18) a 12)
  | .sext z d a s => some (put (put (put (put 0x01000003 z 30) d 18) a 12) s 6)
  | .zext z d a s => some (put (put (put (put 0x01000004 z 30) d 18) a 12) s 6)
  | .cmp z c d a b => some (put (put (put (put (put 0x02000000 z 30) c 21) d 18) a 12) b 6)
  | .cmpi z c d a i => some (put (put (put (put (put 0x03000000 z 30) c 21) d 18) a 12) i 0)
  | .sel z d a b n p => some (put (put (put (put (put (put 0x04000000 z 30) d 18) a 12) b 6) n 3) p 0)
  | .pand z d a b => some (put (put (put (put 0x05000000 z 30) d 18) a 12) b 6)
  | .por z d a b => some (put (put (put (put 0x05000001 z 30) d 18) a 12) b 6)
  | .pxor z d a b => some (put (put (put (put 0x05000002 z 30) d 18) a 12) b 6)
  | .pnot z d a => some (put (put (put 0x05000003 z 30) d 18) a 12)
  | .pmov z d a => some (put (put (put 0x05000004 z 30) d 18) a 12)
  | .addi z d a i => some (put (put (put (put 0x08000000 z 30) d 18) a 12) i 0)
  | .andi z d a i => some (put (put (put (put 0x09000000 z 30) d 18) a 12) i 0)
  | .ori z d a i => some (put (put (put (put 0x0A000000 z 30) d 18) a 12) i 0)
  | .xori z d a i => some (put (put (put (put 0x0B000000 z 30) d 18) a 12) i 0)
  | .slli z d a i => some (put (put (put (put 0x0C000000 z 30) d 18) a 12) i 0)
  | .srli z d a i => some (put (put (put (put 0x0D000000 z 30) d 18) a 12) i 0)
  | .srai z d a i => some (put (put (put (put 0x0E000000 z 30) d 18) a 12) i 0)
  | .slti z d a i => some (put (put (put (put 0x0F000000 z 30) d 18) a 12) i 0)
  | .sltiu z d a i => some (put (put (put (put 0x10000000 z 30) d 18) a 12) i 0)
  | .lui z d i => some (put (put (put 0x11000000 z 30) d 18) i 0)
  | .br d => some (put 0x14000000 d 0)
  | .bp p d => some (put (put 0x14000000 p 21) d 0)
  | .bnp p d => some (put (put 0x14100000 p 21) d 0)
  | .call d i => some (put (put 0x15000000 d 18) i 0)
  | .jmpr d a => some (put (put 0x16000000 d 18) a 12)
  | .ret a => some (put 0x16000001 a 12)
  | .loop l s e => some (put (put (put 0x17000000 l 22) s 11) e 0)
  | .loopi l c e => some (put (put (put 0x17200000 l 22) c 11) e 0)
  | .lbrk l => some (put 0x18000000 l 22)
  | .cbnd z d a b => some (put (put (put (put 0x20000000 z 30) d 18) a 12) b 6)
  | .ccur z d a b => some (put (put (put (put 0x20000001 z 30) d 18) a 12) b 6)
  | .cadd z d a b => some (put (put (put (put 0x20000002 z 30) d 18) a 12) b 6)
  | .cand z d a b => some (put (put (put (put 0x20000003 z 30) d 18) a 12) b 6)
  | .cget z d a k => some (put (put (put (put 0x20000004 z 30) d 18) a 12) k 6)
  | .ctest z d a b => some (put (put (put (put 0x20000005 z 30) d 18) a 12) b 6)
  | .cmov z d a => some (put (put (put 0x20000006 z 30) d 18) a 12)
  | .ctab z d a => some (put (put (put 0x20000007 z 30) d 18) a 12)
  | .caddi z d a i => some (put (put (put (put 0x21000000 z 30) d 18) a 12) i 0)
  | .qpoll z d p => some (put (put (put 0x24038000 z 30) d 18) p 12)
  | .qwait z p => some (put (put 0x24038001 z 30) p 12)
  | .omClaim z s => some (put (put 0x28000000 z 30) s 12)
  | .omRelease z s => some (put (put 0x28000001 z 30) s 12)
  | .omState z d s => some (put (put (put 0x28000002 z 30) d 18) s 12)
  | .eqFence z m => some (put (put 0x28000003 z 30) m 6)
  | .chain z e g => some (put (put (put 0x28000004 z 30) e 12) g 6)
  | .taskPost z a => some (put (put 0x28000005 z 30) a 12)
  | .fmtSet z n a => some (put (put (put 0x28000006 z 30) n 18) a 12)
  | .fmtGet z d n => some (put (put (put 0x28000007 z 30) d 18) n 12)
  | .mfsr d s => some (put (put 0x30000000 d 18) s 0)
  | .mtsr a s => some (put (put 0x31000000 a 12) s 0)
  | .trapret => some (0x32000000)
  | .exit => some (0x32000001)
  | .exitAbandon => some (0x32000002)
  | .rdtime d => some (put 0x32000003 d 18)
  | .rdcnt d a => some (put (put 0x32000004 d 18) a 12)
  | .brkpt => some (0x32000005)
  | .trap i => some (put 0x33000000 i 0)
  | .fence z k s => some (put (put (put 0x34000000 z 30) k 4) s 0)
  | .pbar z => some (put 0x35000000 z 30)
  | .lwait z a => some (put (put 0x35000001 z 30) a 12)
  | .barInit z a b => some (put (put (put 0x35000002 z 30) a 12) b 6)
  | .barArrive z a => some (put (put 0x35000003 z 30) a 12)
  | .barWait z a => some (put (put 0x35000004 z 30) a 12)
  | .barTest z d a => some (put (put (put 0x35000005 z 30) d 18) a 12)
  | .genAlloc z d a => some (put (put (put 0x35000006 z 30) d 18) a 12)
  | .genPass z => some (put 0x35000007 z 30)
  | .ld z d c s i => some (put (put (put (put (put 0x38000000 z 30) d 18) c 13) s 10) i 0)
  | .st z d c s i => some (put (put (put (put (put 0x39000000 z 30) d 18) c 13) s 11) i 0)
  | .ldc z d c i => some (put (put (put (put 0x3A000000 z 30) d 18) c 13) i 0)
  | .stc z d c i => some (put (put (put (put 0x3B000000 z 30) d 18) c 13) i 0)
  | .ldx z d a b x w => some (put (put (put (put (put (put 0x3C000000 z 30) d 18) a 12) b 6) x 4) w 0)
  | .stx z d a b x w => some (put (put (put (put (put (put 0x3C000008 z 30) d 18) a 12) b 6) x 4) w 0)
  | .ldFe z d c i => some (put (put (put (put 0x3D000000 z 30) d 18) c 13) i 0)
  | .ldFf z d c i => some (put (put (put (put 0x3D000400 z 30) d 18) c 13) i 0)
  | .stEf z d c i => some (put (put (put (put 0x3D000800 z 30) d 18) c 13) i 0)
  | .feFill z d c i => some (put (put (put (put 0x3D000C00 z 30) d 18) c 13) i 0)
  | .feClr z c i => some (put (put (put 0x3D001000 z 30) c 13) i 0)
  | .feSt z d c i => some (put (put (put (put 0x3D001400 z 30) d 18) c 13) i 0)
  | .pref z c i => some (put (put (put 0x3D001800 z 30) c 13) i 0)
  | .amo z d a b w o => some (put (put (put (put (put (put 0x3E000000 z 30) d 18) a 12) b 6) w 4) o 0)
  | .amoCas z d a b w => some (put (put (put (put (put 0x3E000009 z 30) d 18) a 12) b 6) w 4)
  | .red z a b w o => some (put (put (put (put (put 0x3F000000 z 30) a 12) b 6) w 4) o 0)
  | .vadd z d a b f => some (put (put (put (put (put 0x80000000 z 30) d 15) a 8) b 1) f 0)
  | .vsub z d a b f => some (put (put (put (put (put 0x80400000 z 30) d 15) a 8) b 1) f 0)
  | .vmul z d a b f => some (put (put (put (put (put 0x80800000 z 30) d 15) a 8) b 1) f 0)
  | .vfma z d a b f => some (put (put (put (put (put 0x80C00000 z 30) d 15) a 8) b 1) f 0)
  | .vfms z d a b f => some (put (put (put (put (put 0x81000000 z 30) d 15) a 8) b 1) f 0)
  | .vfnma z d a b f => some (put (put (put (put (put 0x81400000 z 30) d 15) a 8) b 1) f 0)
  | .vmin z d a b f => some (put (put (put (put (put 0x81800000 z 30) d 15) a 8) b 1) f 0)
  | .vmax z d a b f => some (put (put (put (put (put 0x81C00000 z 30) d 15) a 8) b 1) f 0)
  | .vabs z d a f => some (put (put (put (put 0x82000000 z 30) d 15) a 8) f 0)
  | .vneg z d a f => some (put (put (put (put 0x82400000 z 30) d 15) a 8) f 0)
  | .vrcp z d a f => some (put (put (put (put 0x82800000 z 30) d 15) a 8) f 0)
  | .vrsqrt z d a f => some (put (put (put (put 0x82C00000 z 30) d 15) a 8) f 0)
  | .vsqrt z d a f => some (put (put (put (put 0x83000000 z 30) d 15) a 8) f 0)
  | .vexp2 z d a f => some (put (put (put (put 0x83400000 z 30) d 15) a 8) f 0)
  | .vlog2 z d a f => some (put (put (put (put 0x83800000 z 30) d 15) a 8) f 0)
  | .vtanh z d a f => some (put (put (put (put 0x83C00000 z 30) d 15) a 8) f 0)
  | .vdiv z d a b f => some (put (put (put (put (put 0x84000000 z 30) d 15) a 8) b 1) f 0)
  | .viadd z d a b f => some (put (put (put (put (put 0x84400000 z 30) d 15) a 8) b 1) f 0)
  | .visub z d a b f => some (put (put (put (put (put 0x84800000 z 30) d 15) a 8) b 1) f 0)
  | .vimul z d a b f => some (put (put (put (put (put 0x84C00000 z 30) d 15) a 8) b 1) f 0)
  | .vimulh z d a b f => some (put (put (put (put (put 0x85000000 z 30) d 15) a 8) b 1) f 0)
  | .vand z d a b f => some (put (put (put (put (put 0x85400000 z 30) d 15) a 8) b 1) f 0)
  | .vor z d a b f => some (put (put (put (put (put 0x85800000 z 30) d 15) a 8) b 1) f 0)
  | .vxor z d a b f => some (put (put (put (put (put 0x85C00000 z 30) d 15) a 8) b 1) f 0)
  | .vshl z d a b f => some (put (put (put (put (put 0x86000000 z 30) d 15) a 8) b 1) f 0)
  | .vshr z d a b f => some (put (put (put (put (put 0x86400000 z 30) d 15) a 8) b 1) f 0)
  | .vsra z d a b f => some (put (put (put (put (put 0x86800000 z 30) d 15) a 8) b 1) f 0)
  | .vimin z d a b f => some (put (put (put (put (put 0x86C00000 z 30) d 15) a 8) b 1) f 0)
  | .vimax z d a b f => some (put (put (put (put (put 0x87000000 z 30) d 15) a 8) b 1) f 0)
  | .vcmp z c d a b f => some (put (put (put (put (put (put 0x87400000 z 30) c 18) d 15) a 8) b 1) f 0)
  | .vicmp z c d a b f => some (put (put (put (put (put (put 0x87800000 z 30) c 18) d 15) a 8) b 1) f 0)
  | .vsel z d a b => some (put (put (put (put 0x87C00000 z 30) d 15) a 8) b 1)
  | .mand z d a b => some (put (put (put (put 0x88000000 z 30) d 15) a 8) b 1)
  | .mor z d a b => some (put (put (put (put 0x88400000 z 30) d 15) a 8) b 1)
  | .mnot z d a => some (put (put (put 0x88800000 z 30) d 15) a 8)
  | .mpop z d a => some (put (put (put 0x88C00000 z 30) d 15) a 8)
  | .vcvt z d a s f => some (put (put (put (put (put 0x89000000 z 30) d 15) a 8) s 1) f 0)
  | .vpack z d a s f => some (put (put (put (put (put 0x89400000 z 30) d 15) a 8) s 1) f 0)
  | .vunpack z d a s f => some (put (put (put (put (put 0x89800000 z 30) d 15) a 8) s 1) f 0)
  | .vperm z d a b f => some (put (put (put (put (put 0x89C00000 z 30) d 15) a 8) b 1) f 0)
  | .vbcast z d s h f => some (put (put (put (put (put 0x8A000000 z 30) d 15) s 9) h 1) f 0)
  | .vrot z d a i f => some (put (put (put (put (put 0x8A400000 z 30) d 15) a 8) i 1) f 0)
  | .vlane z d f => some (put (put (put 0x8A800000 z 30) d 15) f 0)
  | .vredsum z d a t f => some (put (put (put (put (put 0x8AC00000 z 30) d 15) a 8) t 1) f 0)
  | .vredmax z d a t f => some (put (put (put (put (put 0x8B000000 z 30) d 15) a 8) t 1) f 0)
  | .vredmin z d a t f => some (put (put (put (put (put 0x8B400000 z 30) d 15) a 8) t 1) f 0)
  | .vscan z d a t f => some (put (put (put (put (put 0x8B800000 z 30) d 15) a 8) t 1) f 0)
  | .vwin z k s b => some (put (put (put (put 0x8BC00000 z 30) k 15) s 9) b 1)
  | .vxset z v s k f => some (put (put (put (put (put 0x8C000000 z 30) v 15) s 9) k 1) f 0)
  | .vmovs z d s l => some (put (put (put (put 0x8C400000 z 30) d 15) s 9) l 1)
  | .vmovq z d i => some (put (put (put 0x8C800000 z 30) d 15) i 1)
  | .vld z d c s v f => some (put (put (put (put (put (put 0x8CC00000 z 30) d 15) c 10) s 4) v 1) f 0)
  | .vst z d c s v f => some (put (put (put (put (put (put 0x8D000000 z 30) d 15) c 10) s 4) v 1) f 0)
  | .vldx z d c s v f => some (put (put (put (put (put (put 0x8D400000 z 30) d 15) c 10) s 4) v 1) f 0)
  | .vstx z d c s v f => some (put (put (put (put (put (put 0x8D800000 z 30) d 15) c 10) s 4) v 1) f 0)
  | .vldS z d c s v f => some (put (put (put (put (put (put 0x8DC00000 z 30) d 15) c 10) s 4) v 1) f 0)
  | .vstS z d c s v f => some (put (put (put (put (put (put 0x8E000000 z 30) d 15) c 10) s 4) v 1) f 0)
  | .mma z n a b f s => some (put (put (put (put (put (put 0x90000000 z 30) n 21) a 17) b 13) f 6) s 0)
  | .mmaZ z n a b f s => some (put (put (put (put (put (put 0x90400000 z 30) n 21) a 17) b 13) f 6) s 0)
  | .accClr z n => some (put (put 0x90800000 z 30) n 21)
  | .accRd z n c q => some (put (put (put (put 0x90C00000 z 30) n 21) c 12) q 0)
  | .accWr z n c q => some (put (put (put (put 0x91000000 z 30) n 21) c 12) q 0)
  | .epi z n o c s q => some (put (put (put (put (put (put 0x91400000 z 30) n 21) o 17) c 12) s 6) q 0)
  | .epiV z n o s q => some (put (put (put (put (put 0x91800000 z 30) n 21) o 17) s 6) q 0)
  | .dtabLd z t c q => some (put (put (put (put 0x91C00000 z 30) t 17) c 12) q 0)
  | .dtabInv z t => some (put (put 0x92000000 z 30) t 17)
  | .mseg z s => some (put (put 0x92400000 z 30) s 6)
  | .cp z d e l c => some (put (put (put (put (put 0xA0000000 z 30) d 17) e 12) l 6) c 0)
  | .cp2d z d e n c => some (put (put (put (put (put 0xA0400000 z 30) d 17) e 12) n 6) c 0)
  | .cpOm z n e l c => some (put (put (put (put (put 0xA0800000 z 30) n 17) e 12) l 6) c 0)
  | .cpGat z d e n c => some (put (put (put (put (put 0xA0C00000 z 30) d 17) e 12) n 6) c 0)
  | .cpSet z d n c => some (put (put (put (put 0xA1000000 z 30) d 17) n 6) c 0)
  | .cpZ z d e l c => some (put (put (put (put (put 0xA1400000 z 30) d 17) e 12) l 6) c 0)
  | .cpX z d e l c => some (put (put (put (put (put 0xA1800000 z 30) d 17) e 12) l 6) c 0)
  | .cpCk z d e l c => some (put (put (put (put (put 0xA1C00000 z 30) d 17) e 12) l 6) c 0)
  | .netPost z c l q => some (put (put (put (put 0xB0000000 z 30) c 17) l 11) q 5)
  | .netSend z c l q => some (put (put (put (put 0xB0400000 z 30) c 17) l 11) q 5)
  | .netSendWrite z c l q => some (put (put (put (put 0xB0400001 z 30) c 17) l 11) q 5)
  | .netSendRead z c l q => some (put (put (put (put 0xB0400002 z 30) c 17) l 11) q 5)
  | .netReply z c l => some (put (put (put 0xB0800000 z 30) c 17) l 11)
  | .fstLd z c l s => some (put (put (put (put 0xB0C00000 z 30) c 17) l 11) s 5)
  | .fstStart z c l s => some (put (put (put (put 0xB1000000 z 30) c 17) l 11) s 5)
  | .fstStop z s => some (put (put 0xB1400000 z 30) s 5)
  | .zcPush s d => some (put (put 0x0000000B s 15) d 7)
  | .zcFence d => some (put 0x0000100B d 7)
  | .zcStat s d => some (put (put 0x0000200B s 15) d 7)
  | .frameReceive _ _ => none
  | .sowerAcceptMessage => none
  | .gcmHeaderCheck => none
  | .mcbLookup => none
  | .freePlotSearch _ => none
  | .bindAndRegisterPreload _ => none
  | .restoreSaveImage _ => none
  | .firstFetch _ => none
  | .decoderTableInitLoad _ _ => none
  | .launchEnqueueRetry _ => none
  | .roceSendReceive _ _ => none
  | .roceInboundRdma _ => none
  | .hostInboundWrite _ _ _ => none
  | .engineCommandStart _ _ => none
  | .engineCommandComplete _ _ _ _ => none
  | .mmaSegmentRetire _ => none
  | .taskIssue _ => none
  | .taskComplete _ => none
  | .taskWaitRecheck _ => none
  | .parkedAccessReplay _ => none
  | .xtlbEntryExpiry _ => none
  | .leaseRenewal _ _ _ => none
  | .heldFormWithdrawal _ => none
  | .feWaitSatisfied _ => none
  | .barWaitCompletion _ => none
  | .queuePortStallEnd _ => none
  | .lwaitEnd _ => none
  | .eqFenceEnd _ => none
  | .fenceComplete _ => none
  | .genPassWaitEnd _ => none
  | .omClaimWaitEnd _ => none
  | .exitDrainEnd _ => none
  | .invocationRetirement _ => none
  | .haltRelease _ => none
  | .killComplete _ => none
  | .preemptLandComplete _ => none
  | .saveComplete _ => none
  | .awaitingAnswerArrival _ _ _ => none
  | .t1Expiry _ => none
  | .t2Expiry _ => none
  | .t3Expiry _ => none
  | .skewEvent _ _ => none
  | .cpHeartbeatTimeout _ => none
  | .beaconReceive _ => none
  | .beaconTimeout => none
  | .nepolPathTimeout _ => none
  | .completionTimeout _ => none
  | .powerManagerTick _ _ => none
  | .thermalTrip => none
  | .wake => none
  | .sleep => none
  | .sproutJobStart _ _ => none
  | .sproutPageArrival _ _ => none
  | .sproutJobEnd _ _ => none
  | .sampleTick _ => none
  | .pktNop _ _ => none
  | .pktLaunch _ _ _ _ => none
  | .launchRetireWaitEnd _ => none
  | .pktIb _ _ => none
  | .pktPred _ _ _ _ _ _ => none
  | .pktLoop _ _ => none
  | .pktEndloop _ => none
  | .pktWrite _ _ _ _ => none
  | .pktWaitFlag _ _ _ _ _ => none
  | .waitReread _ => none
  | .pktWaitTime _ _ => none
  | .waitTimeEnd _ => none
  | .pktSignal _ _ _ _ => none
  | .signalAdd _ => none
  | .pktFfence _ => none
  | .ffenceRefetch _ => none
  | .pktCond _ _ _ _ _ _ => none
  | .pktSwitch _ _ _ _ => none
  | .pktEnd _ => none
  | .sqtailDoorbell _ _ => none
  | .cqheadWrite _ _ => none
  | .interfaceRegisterWrite _ _ _ => none
  | .install _ _ => none
  | .mcbWrite _ _ _ _ => none
  | .mcbRemove _ _ => none
  | .capWrite _ _ _ _ => none
  | .revoke _ _ _ _ => none
  | .revokeWaitEnd _ => none
  | .streamOpen _ _ _ _ _ _ => none
  | .streamTail _ _ _ => none
  | .streamClose _ _ => none
  | .qpCreate _ _ _ _ _ => none
  | .qpDestroy _ _ => none
  | .faultReplyResume _ _ => none
  | .faultReplyResumeHandler _ _ => none
  | .faultReplyKill _ _ => none
  | .assign _ _ _ _ => none
  | .partition _ _ => none
  | .keyslot _ _ _ _ => none
  | .replay _ _ => none
  | .checkpoint _ _ _ _ _ => none
  | .bitmapSwap _ _ => none
  | .bitmapSwitchComplete => none
  | .partitionReset _ _ => none
  | .windowReduction _ _ _ _ _ => none
  | .windowExport _ _ _ => none
  | .bankClaim _ _ _ => none
  | .bankRelease _ _ _ => none
  | .bankRead _ _ _ _ => none
  | .bankWrite _ _ _ _ => none
  | .snapshot _ _ _ => none
  | .bpWrite _ _ _ _ => none
  | .wpWrite _ _ _ _ => none
  | .sample _ _ _ _ _ => none
  | .dbgCfg _ _ _ _ _ => none
  | .fwLoad _ _ _ => none
  | .fwSwap _ _ => none
  | .attest _ _ _ => none
  | .coreReset _ _ _ => none
  | .power _ _ _ _ => none
  | .cpwdWrite _ _ => none
  | .fwctlWrite _ _ => none
  | .modeWrite _ _ => none
  | .csrWrite _ _ _ => none
  | .illegalInstruction _ => none
  | .functionReady _ => none
  | .ptCopyResynchronised _ => none
  | .nepolInboundAccess _ => none
  | .nepolLinkFailure _ => none
  | .nepolSwitchFailure _ _ => none
  | .scrubComplete _ => none
  | .checkpointStreamsWritten => none

/-- The word of an instruction. -/
def encode (i : Instr) : Option W32 := (encodeNat i).map (BitVec.ofNat 32)

end Sys2Proof
end

