-- ==== Sys2Proof/Machine/State.lean ====
section
/-!
DEFINITION. The state of the part: every piece of state that the manual gives it, as plain data, and the reasons at
which a step can stop. Registers and other sparse arrays are association lists in one canonical form (Maps.lean): a key
that is not listed holds the default value of its array.
-/
namespace Sys2Proof.Machine

/-- A sparse array: keys strictly rising, and no entry that holds the array's default. -/
abbrev SMap (α : Type) := List (Nat × α)

/-- What a 64-byte unit is encrypted under (R51): the key pair, the object and the unit's index in it. -/
abbrev Tweak := BitVec 512 × Nat × Nat

/-- A capability register: 128 bits and the hidden tag (R180). -/
structure Cap where
  bits : BitVec 128
  tag : Bool
  deriving DecidableEq, Repr

/-- The null capability (R180). -/
abbrev Cap.null : Cap := ⟨0, false⟩

/-- An agent of the memory model (R359). `inv` is the serial number of the invocation that the agent works for. -/
inductive AgentId where
  /-- The control thread of a core. -/
  | thread (core inv : Nat)
  /-- An engine command, by the core that dispatched it and its place in that core's dispatch order. -/
  | command (core inv ord : Nat)
  /-- A tile task, by the core that posted it and its place among the plot's records. -/
  | task (core inv n : Nat)
  /-- The command front-end of one stream. -/
  | stream (n : Nat)
  | sower
  /-- A host, CXL, RoCEv2 or Sprout write, a write of the control complex, or an access over Nepol. -/
  | external
  deriving DecidableEq, Repr

/-- The edge set of an agent (R363, R370): pairs (agent, closed region), and coverage (core, invocation, arrival
count). -/
structure EdgeSet where
  pairs : List (AgentId × Nat)
  cover : List (Nat × Nat × Nat)
  deriving DecidableEq, Repr

/-- The stamp of a GSRAM line (R369). -/
structure Stamp where
  agent : AgentId
  region : Nat
  bindings : Nat
  arrivals : Nat
  deriving DecidableEq, Repr

/-- A release fence: who made it, the edges that it gives, and its scope (R362). -/
structure FenceMark where
  agent : AgentId
  edges : EdgeSet
  scope : Nat
  deriving DecidableEq, Repr

/-- What is known of the last write to a byte: the release fences before it, the edges
that the write releases itself, and the agent id of R410 of the writer. -/
structure WriteMark where
  fences : List FenceMark
  releaseEdges : EdgeSet
  setter : BitVec 48
  /-- Its place among all writes. -/
  nth : Nat
  deriving DecidableEq, Repr

/-- The last change of a full/empty bit (R221): the edges that it carries and its agent id. -/
structure FlagMark where
  edges : EdgeSet
  setter : BitVec 48
  deriving DecidableEq, Repr

/-- What a barrier line's arrivals have released (R370): of the current phase, and of the last completed one. -/
structure BarrierMark where
  current : EdgeSet
  completed : EdgeSet
  /-- Whose arrival completed the last phase, and the last arrival of all. -/
  setter : BitVec 48
  last : BitVec 48
  deriving DecidableEq, Repr

/-- A stop record (R391), before it is laid out in its 128 bytes. -/
structure StopRecord where
  pt : Nat
  faddr : W64
  pc : W64
  step : Nat
  seq : W16
  qhead : W16
  qlen : Nat
  skid : Nat
  cause : W64
  core : Nat
  unit : Nat
  reason : Nat
  agent : Nat
  deriving DecidableEq, Repr

/-- How an agent's accesses count (R202): once for each line, or once for each beat, as copy beats do. -/
inductive Counting where
  | lines | beat | apart
  deriving DecidableEq, Repr

/-- Who makes an access: the agent, its core, the block whose object table it goes through, and what the race rule needs of
it. `strm` is the stream of a command front-end. -/
structure Who where
  agent : AgentId
  core : Nat
  mcb : Nat
  edges : EdgeSet
  region : Nat
  arrivals : Nat
  bindings : Nat
  setter : BitVec 48
  fences : List FenceMark := []
  strm : Option Nat := none
  /-- The engine of a command or task. -/
  eng : Option (BitVec 2) := none
  counting : Counting := .lines
  /-- The first byte of the access that a piece belongs to, where it is cut (R202). -/
  start : Option Nat := none
  deriving DecidableEq, Repr

/-- Where a byte of an object lies: physical key, space, address, the entries that said so, the key of the extent entry,
and the expiry of the grant. -/
structure Res where
  key : Nat
  sp : Nat
  addr : Nat
  dir : BitVec 256
  ext : W64
  extKey : Nat
  expiry : Nat
  /-- The grant is a lease, and not for a single use (R189). -/
  leased : Bool := true
  deriving DecidableEq, Repr

/-- A fault as it is raised (R131, R383). `eng` is the engine that raised it, `epc` an EPC other than the word's own,
`address` the virtual place of the stop record's PC field. -/
structure FaultRec where
  cls : Nat
  sub : Nat
  addr : W64
  imp : Bool := false
  eng : Option (BitVec 2) := none
  epc : Option W64 := none
  /-- R388: 0 thread, 1 to 4 engines, 5 tile task, 6 imprecise. -/
  order : Nat := 0
  seq : W16 := 0
  step : Nat := 0
  skid : Nat := 0
  /-- The stop record of the agent, as it stood when the fault was raised (R389, R398). -/
  record : Option StopRecord := none
  deriving DecidableEq, Repr

/-- A word in a queue port with the edges that its push released and the core that pushed it (R128, R411). -/
structure QueueWord where
  val : W64
  edges : EdgeSet
  src : Nat
  deriving DecidableEq, Repr

/-- One hardware loop level (R129, R148). -/
structure Loop where
  cnt : W64
  itr : W64
  beg : W64
  last : W64
  deriving DecidableEq, Repr

/-- A BTRACK entry (R237). -/
structure BTrack where
  table : Nat
  obj : Nat
  off : Nat
  epoch : W16
  phase : W16
  arrived : Bool
  deriving DecidableEq, Repr

/-- Why a word does not complete yet. -/
inductive WaitKind where
  /-- Parked on a page that is not usable (R199). -/
  | parked
  /-- Refused by a controller whose copy of package time has passed the grant, or is off: it walks again (R190, R195). -/
  | refused
  /-- A plain load that crosses an atomic block and has read some of its pieces (R211). -/
  | pieces
  /-- The hoard log is full (R199). -/
  | logFull
  /-- An earlier hoard-log entry overlaps the access, or a release waits for the log (R200). -/
  | hoarded
  /-- A full/empty form at its controller (R220). -/
  | flag
  /-- bar.wait at its controller (R240). -/
  | barrier
  /-- A queue port or qwait (R128, R161). -/
  | port
  /-- The 32-entry queue of an engine, or a conflict at dispatch, is full (R122). -/
  | engineQueue
  /-- eq.fence (R163). -/
  | eqFence
  /-- fence, pbar and other waits for earlier memory words (R233, R235). -/
  | fence
  /-- lwait (R234). -/
  | lease
  /-- gen.pass (R242). -/
  | generation
  /-- om.claim of a draining slot (R165). -/
  | slot
  /-- task.post with 512 records held (R351). -/
  | tasks
  /-- exit (R170). -/
  | drain
  /-- A HOST, PMEM or NEPOL access whose answer has not come (R397, R434). -/
  | answer
  /-- A watchpoint report of the core's posted access is on its way (R423). -/
  | struck
  deriving DecidableEq, Repr

/-- A word that a core holds at: why, the word, when the wait began, the physical place of its flag, the lease that
sent it, and the package time that ends it. `place` is where a form waits at its controller, with its object and offset, `got` and `hit` the bytes that a
split load has read and the first of them that a watchpoint matched, `wait` a flag wait that still stands while the word holds for
another reason (R205): its FKIND, its FLAG and its beginning, and `issued` says that the word has issued (R173). -/
structure Hold where
  kind : WaitKind
  ins : Instr
  since : Nat
  flag : Nat := 0
  lease : Nat := 0
  until_ : Nat := 0
  extent : Nat := 0
  place : Option (Nat × Nat × Res) := none
  got : List Byte := []
  hit : Option Nat := none
  wait : Option (Nat × Nat × Nat) := none
  issued : Bool := false
  deriving DecidableEq, Repr

/-- What a hoard-log entry does when it performs (R198, R228, R238, R339). -/
inductive HoardOp where
  | store
  | storeCap (tag : Bool)
  | red (op : BitVec 4) (wide : Bool)
  | fill
  | clear
  /-- st.ef: waits for empty once replayed. -/
  | storeEmpty
  | arrive
  | epilogue (footer : Bool)
  | placement
  deriving DecidableEq, Repr

/-- A hoard-log entry (R198): object, offset, bytes and capability, its agent as it was when the entry was confirmed (R372), and the
extent entry that it waits on (R201). -/
structure Hoard where
  op : HoardOp
  cap : Cap
  off : Nat
  data : List Byte
  who : Who
  extent : Nat
  since : Nat
  /-- Byte mask of a vector beat; empty where every byte is written. -/
  mask : List Bool := []
  /-- Offsets of the granules that a copy beat leaves tagged (R253). -/
  tags : List Nat := []
  /-- A replayed st.ef waits at its controller: where (R220, R228). Its wait, since when and at which FLAG; one that it began as a held word
  stands (R205). -/
  held : Option Res := none
  wait : Option (Nat × Nat) := none
  deriving DecidableEq, Repr

/-- A confirmed write on its way: a later piece of a store that crosses an atomic block (R211), or a posted write or reduction whose far
side has not answered (R212, R374, R393). `start` is the first byte of the whole store. -/
structure Flight where
  op : HoardOp
  who : Who
  cap : Cap
  off : Nat
  place : Res
  data : List Byte
  start : Nat
  since : Nat
  deriving DecidableEq, Repr

/-- A contribution to a reduction window: its agent, the object and offset that it names, and its place. -/
structure Contributor where
  who : Who
  obj : Nat
  off : Nat
  place : Res
  deriving DecidableEq, Repr

/-- Reductions to one address of a window that have met in the fabric (R232): the operation, their combined operand, and their numbers, with
the first contribution, which a fault at the home names, and the others. `window` is the window that they entered, with its EPOCH then
(R447). -/
structure SwitchEntry where
  first : Contributor
  op : BitVec 4
  wide : Bool
  operand : W64
  ids : List Nat
  more : List Contributor
  window : Option (Nat × W16)
  since : Nat
  deriving DecidableEq, Repr

/-- An access-count increment that has not performed (R202, R379): the counting block, its CNTTHR at the access, the page of its object,
the directory entry and the extent entry's key. -/
structure PendingCount where
  mcb : Nat
  thr : Nat
  obj : Nat
  page : Nat
  dir : BitVec 256
  extKey : Nat
  deriving DecidableEq, Repr

/-- A translation-cache entry (R187): object table, object and page; directory and extent entries; expiry. -/
structure XEntry where
  table : Nat
  obj : Nat
  page : Nat
  dir : BitVec 256
  ext : W64
  expiry : Nat
  deriving DecidableEq, Repr

/-- State of an OM slot (R248). -/
inductive SlotState where
  | empty | filling | ready | draining
  deriving DecidableEq, Repr

/-- An OM slot (R248): state, fill flag, a release that waits for the fill, contents (bytes beyond them read zero), and
the command whose completion made it READY. -/
structure OmSlot where
  state : SlotState
  fill : Bool
  releasing : Bool
  data : List Byte
  edges : EdgeSet
  setter : BitVec 48
  deriving DecidableEq, Repr

/-- An access that an agent has sent to a far side that does not answer: its place, its offset, and since when (R434, R449). -/
structure Ask where
  key : Nat
  off : Nat
  since : Nat
  deriving DecidableEq, Repr

/-- An unfinished engine command (R121, R122): its place in the core's dispatch order, engine, SEQ, the address of its
word, the word, the captured operands and format entries, the edges that its fork gave it, the commands that must
complete before it starts (R162), and how far it has come. -/
structure Cmd where
  ord : Nat
  eng : BitVec 2
  seq : W16
  pc : W64
  ins : Instr
  args : List W64
  caps : List Cap
  fmts : List W64
  edges : EdgeSet
  after : List Nat
  started : Bool := false
  step : Nat := 0
  /-- Bytes or elements done. -/
  done : Nat := 0
  /-- Bytes that the engine holds for the command: a staged chunk, a bank being loaded. -/
  buf : List Byte := []
  /-- Numbers that the engine holds for the command. -/
  tmp : List Nat := []
  /-- A read that holds the command, with its extent entry (R199). -/
  parked : Option Nat := none
  /-- STATUS and DETAIL of a command whose steps are done and whose parked writes have not performed (R124). -/
  ending : Option (Nat × Nat) := none
  /-- The word that the command posts once qc has room (R124). -/
  posting : Option W64 := none
  /-- A watchpoint matched: the command ends after one further beat (R423), with the offset of the first matching byte. -/
  hit : Option W64 := none
  /-- Package time at dispatch. -/
  born : Nat := 0
  /-- Since when only a chain keeps it from starting (R162, R173). -/
  chained : Option Nat := none
  /-- Object of the code that dispatched it, and the step before which an engine-step breakpoint has stopped last (R414). -/
  code : Nat := 0
  passed : Option Nat := none
  /-- Flag waits of the command that stand: FKIND, FLAG, and since when (R410). -/
  waits : List (Nat × Nat × Nat) := []
  /-- The access whose answer holds the command. -/
  ask : Option Ask := none
  /-- The sender of the message that a receive buffer takes (R277). -/
  from_ : Option RoceSource := none
  deriving DecidableEq, Repr

/-- A completion entry in qc with the edge set of its command (R124, R125). -/
structure Completion where
  word : W64
  edges : EdgeSet
  deriving DecidableEq, Repr

/-- The epilogue buffer (R337): the captured elements, the overflow and NaN counts, and the check of the bytes stored. -/
structure EpiBuffer where
  data : List W64
  ovf : Nat
  nanc : Nat
  crc : Nat
  deriving DecidableEq, Repr

/-- A posted tile-task record in the scheduler's copy (R347, R351). -/
structure TaskRec where
  n : Nat
  core : Nat
  bits : BitVec 512
  off : W64
  edges : EdgeSet
  arrivals : Nat
  /-- The format entries that the record names, as they were when it was posted. -/
  fentry : W64
  eentry : W64
  /-- Its wait word has been seen full; when it was first seen empty. -/
  seen : Bool
  since : Nat := 0
  /-- The look at its wait word has faulted: its issue decides (R348). -/
  failed : Bool := false
  /-- The extent entry that the checks of its issue are parked on, and the access whose answer holds them. -/
  parked : Option Nat := none
  ask : Option Ask := none
  deriving DecidableEq, Repr

/-- A running tile task in the context of the engine that runs it (R349, R354). -/
structure TaskCtx where
  task : TaskRec
  edges : EdgeSet
  /-- Rows of the record retired. -/
  rows : Nat
  /-- Its entries A, B, C and the synchronisation object, and KTILES of B. -/
  caps : List Cap
  ktiles : Nat
  /-- Tile of the column block, where it begins, the rows of it that earlier passes have used, and the rows that the present
  pass has retired. -/
  tile : Nat
  tileOff : Nat
  used : Nat
  passRows : Nat
  panel : Nat
  aBuf : List Byte
  bBuf : List Byte
  /-- The other A and B buffer, filled meanwhile for the next pass and the next tile, and where that tile begins. -/
  aNext : List Byte := []
  bNext : List Byte := []
  nextOff : Nat := 0
  bank : List W32
  satc : Nat
  /-- 0 while rows are reduced; then 1 plus the epilogue rows stored. -/
  epi : Nat
  eb : EpiBuffer
  parked : Option Nat
  hit : Option W64 := none
  ask : Option Ask := none
  deriving DecidableEq, Repr

/-- The registers of a control thread: everything that program order reads and writes (R111, R129). -/
structure Thread where
  pc : W64
  /-- s1 to s55 by number. -/
  s : SMap W64
  /-- c1 to c31 by number. -/
  c : SMap Cap
  /-- p1 to p7; bit 0 is never set. -/
  p : BitVec 8
  h : Bool
  ae : Bool
  prio : BitVec 4
  estatus : W64
  epc : W64
  cause : W64
  faddr : W64
  vseed : W32
  eseed : W32
  mbdst : W64
  hsave0 : W64
  hsave1 : W64
  loops : SMap Loop
  lact : BitVec 12
  handler : Cap
  codecap : Cap
  captab : Cap
  objtab : Cap
  hcap : Cap
  /-- The code capability of the handler that runs: HANDLER as it was at the handler entry (R172). -/
  hcode : Cap
  /-- f0 to f15 (R73). -/
  fmt : SMap W64
  /-- Which regions of the save image its words have written since binding, by bit (R403). -/
  wrote : W32
  deriving DecidableEq, Repr

/-- The vector engine (R289): v0 to v511 as 128 lanes each, x0 to x7 by lane, m1 to m7, WB, CM and the counts. -/
structure VectorState where
  v : SMap (List W32)
  x : SMap (List (BitVec 9))
  m : SMap (BitVec 128)
  wb : BitVec 9
  cm : BitVec 3
  vovf : Nat
  vnanc : Nat
  /-- Which regions of the save image it has written since binding (R403). -/
  wrote : W32
  deriving DecidableEq, Repr

/-- The matrix engine (R330): banks as 4,096 words, saturation counts, MSEG, the epilogue buffer, decoder tables with
their valid bits and the loads that are still running (R93), the task context and the count of task segments run. -/
structure MatrixState where
  acc0 : List W32
  acc1 : List W32
  satc0 : Nat
  satc1 : Nat
  mseg : Nat
  eb : Option EpiBuffer
  dt : SMap (List W32)
  dtv : BitVec 4
  loading : BitVec 4
  /-- The tables that DTV named at binding (R424). -/
  dtInit : BitVec 4
  task : Option TaskCtx
  segments : Nat
  /-- Which regions of the save image it has written since binding (R403). -/
  wrote : W32
  deriving DecidableEq, Repr

/-- An ordering of chain (R162): source and destination engine, the source command, and the edges of that command once it
has completed. -/
structure Chain where
  src : BitVec 2
  dst : BitVec 2
  ord : Nat
  edges : EdgeSet
  deriving DecidableEq, Repr

/-- One core (R111 to R135). -/
structure Core where
  /-- The MCB whose invocation holds the core. -/
  bound : Option Nat
  /-- The thread has retired (R170). -/
  retired : Bool
  /-- Fenced by T3 or by three skew events (R195, R408). -/
  fenced : Bool
  th : Thread
  hold : Option Hold
  /-- Reports not taken yet (R388). -/
  pending : List FaultRec
  /-- The stop record that the handler entry still has to write (R389): the handler's first word waits for it. -/
  owed : Option StopRecord
  /-- A watchpoint report of a posted access of the core that is on its way, and since when; SKID counts the further accesses (R423). -/
  struck : Option (FaultRec × Nat)
  /-- The words at which a code breakpoint has stopped and does not fire again until they have completed (R415). -/
  bpPassed : List W64
  -- memory side
  region : Nat
  arrivals : Nat
  edges : EdgeSet
  /-- The set recorded by the last fence.ar of plot scope or wider (R364). -/
  recorded : EdgeSet
  /-- The release fences that precede the next writes, widest scope first, none hidden by a later fence of
  at least its scope (R362). -/
  relFences : List FenceMark
  /-- Fences before writes whose values have been read (R362). -/
  seen : List FenceMark
  btrack : List BTrack
  hoard : List Hoard
  /-- Writes on their way, oldest first. -/
  flight : List Flight
  xtlb : List XEntry
  /-- PMEM lines stored to and not yet made durable (R235). -/
  pmemDirty : Bool
  /-- Deviation of the local copy of package time, its floor, and the skew events of the last millisecond. -/
  ptDev : Int
  ptFloor : Nat
  /-- The same of the copies of its engines, by engine (R186). -/
  engDev : SMap Int
  engFloor : SMap Nat
  skews : List Nat
  gen : Nat
  -- queue ports: inbound FIFOs from the north, east, south and west by 0 to 3
  qin : SMap (List QueueWord)
  qv : List QueueWord
  qc : List Completion
  qi : List QueueWord
  /-- The agent that last pushed or popped each inbound FIFO, by port number (R412). -/
  portSetter : SMap (BitVec 48)
  -- engines
  seqs : SMap W16
  nextOrd : Nat
  /-- The place in the dispatch order of the last command of each engine (R162). -/
  lastOrd : SMap Nat
  cmds : List Cmd
  /-- Chains that the next command of an engine takes (R162). -/
  chains : List Chain
  /-- What the completed commands of each engine give to eq.fence (R163). -/
  doneEdges : SMap EdgeSet
  /-- Receive buffers that net.post has posted (R277): their commands, which complete when a message has been placed. -/
  posted : List Cmd
  om : SMap OmSlot
  vec : VectorState
  mat : MatrixState
  counters : SMap W64
  /-- Hundredths of a cycle not yet counted in counter 0. -/
  cycleFrac : Nat
  deriving DecidableEq, Repr

/-- An invocation message in an ingress queue (R87), with the header fields that its reply needs. -/
structure Message where
  port : Nat
  part : BitVec 4
  smac : BitVec 48
  dmac : BitVec 48
  tci : W16
  tagged : Bool
  v6 : Bool
  sip : BitVec 128
  dip : BitVec 128
  sport : W16
  tos : Byte
  payload : List Byte
  deriving DecidableEq, Repr

/-- A queued entry as the Sower holds it (R90, R106): its descriptor, the message whose reply it decides, its arrival
time, the edges of its enqueuer, the stream that launched it, and a serial number. -/
structure QEntry where
  desc : BitVec 512
  msg : Option Message
  arrived : Nat
  edges : EdgeSet
  stream : Option Nat
  serial : Nat
  deriving DecidableEq, Repr

/-- Why the halt line of a plot is up (R386, R391), beside a fault that HALT_RELEASE serves. -/
inductive PreemptPhase where
  | none | stop | land | save
  deriving DecidableEq, Repr

/-- The watchdog ladder (R407). -/
inductive Ladder where
  | count | t1done | killing | off
  deriving DecidableEq, Repr

/-- How the reply of an invocation stands (R85). -/
inductive Reply where
  | due
  /-- A reply was sent or decided, with its status. -/
  | decided (status : Byte)
  deriving DecidableEq, Repr

/-- The stage of a binding (R86). -/
inductive BindStage where
  | search | preload | restore | fetch | running
  deriving DecidableEq, Repr

/-- A bound invocation: what the part holds for it beside its cores. -/
structure Inv where
  serial : Nat
  stage : BindStage
  head : QEntry
  ox : Nat
  oy : Nat
  /-- Count of bindings at its latest first fetch (R356), and the package time of it (R108). -/
  bindings : Nat
  fetchedAt : Nat
  cntthr : W16
  /-- PRIO as it was when the invocation bound (R44). -/
  prio : BitVec 4
  wdt : Nat
  ladder : Ladder
  reply : Reply
  /-- A net.reply was sent by some core (R170). -/
  replied : Bool
  faultHalt : Bool
  held : Bool
  debugStop : Bool
  /-- A kill that is under way: the status of its reply; and the stop records of its cut (R391, R393). -/
  kill : Option Byte
  killRecords : List StopRecord
  /-- When the halt line rose for a pre-emption (R391, R395). -/
  stopAt : Nat
  preempt : PreemptPhase
  /-- HOST, PMEM or NEPOL answers that the resumed cores wait for (R397): core, and the bytes that came. -/
  awaiting : List (Nat × Option (BitVec 128))
  /-- Generation-region bump pointers (R207). -/
  bump : SMap Nat
  /-- What the passes of each slab's present generation release, and what its last reclamation gives (R241, R242). -/
  passEdges : SMap EdgeSet
  slabEdges : SMap EdgeSet
  /-- Number of the next tile-task record, records held, streams in service (stream, issued since joining), the stream
  served last, and the streams waiting to join in order (R351). -/
  nextTask : Nat
  tasks : List TaskRec
  service : List (Nat × Nat)
  lastServed : Nat
  waiting : List Nat
  /-- Completed records by stream, for the edge to the next record (R352). -/
  taskEdges : SMap EdgeSet
  /-- Save-pool run of a pre-emption: first page and pages (R465). -/
  savePages : Option (Nat × Nat)
  deriving DecidableEq, Repr

/-- A micro-context block (R42) with the hidden tags of its capability fields, and what control SRAM holds beside it. -/
structure Mcb where
  funcid : W64
  state : BitVec 3
  v : Bool
  prio : BitVec 4
  part : BitVec 4
  wlog : BitVec 3
  hlog : BitVec 3
  keyslot : BitVec 12
  faultpolicy : BitVec 24
  leasemax : BitVec 5
  tu : BitVec 3
  image : Cap
  captab : Cap
  objtab : Cap
  handler : Cap
  queue : Cap
  qhead : W32
  qtail : W32
  t1 : W16
  t2 : W16
  t3 : W16
  cntthr : W16
  horizon : W64
  entry : W32
  init : Cap
  savepa : W64
  ox : BitVec 5
  oy : BitVec 5
  /-- Physical GSRAM address at which the object table begins. -/
  otPhys : Nat
  /-- The queued entries, oldest first, the one that runs included. -/
  entries : List QEntry
  /-- Capability-table entries that .cap statements filled (R378). -/
  capFilled : List Nat
  /-- Granary segments that the block maps, by hash, size and space. -/
  segments : List (BitVec 256 × Nat × Nat)
  /-- Pages that INSTALL took for the block: space and first page. -/
  pages : List (Nat × Nat)
  inv : Option Inv
  /-- The cores and the invocation of a SUSPENDED context (R400). -/
  saved : List (Nat × Core)
  /-- A reservation of R108 for the head entry: origin, and the victim. -/
  reserved : Option (Nat × Nat × Nat)
  deriving DecidableEq, Repr

/-- A buffer level of a stream (R98): where the buffer begins and ends in DOBJ, the offset of the packet to execute next,
and the fetched words by offset (R243), each with the code of R102 of the fetch that failed, or 0. -/
structure Level where
  base : Nat
  size : Nat
  pos : Nat
  words : SMap (Nat × W32)
  deriving DecidableEq, Repr

/-- A loop of a stream (R100): its buffer level, the packet after the LOOP, and the passes left. -/
structure StreamLoop where
  level : Nat
  body : Nat
  count : Nat
  deriving DecidableEq, Repr

/-- What the packet that a stream executes waits for. -/
inductive StreamWait where
  /-- LAUNCH to a full queue (R91): function id, argument, W. -/
  | launchFull (w : Bool) (funcid arg : W64)
  /-- LAUNCH with W = 1 waits for the retirement of an invocation, by its entry serial (R98). -/
  | retire (mcb serial : Nat)
  /-- WAIT with H = 0 (R101). -/
  | flag (cond : BitVec 3) (addr ref mask : W64)
  /-- WAIT with H = 1. -/
  | time (bound : W64)
  /-- SIGNAL waits for every launched invocation. -/
  | signal (notify : Bool) (addr addend : W64)
  /-- FFENCE. -/
  | ffence
  /-- A packet word or memory word on an unusable page: the packet runs again (R102). -/
  | page
  deriving DecidableEq, Repr

/-- How a stream stands. -/
inductive StreamState where
  | running
  /-- Stopped by END at level 0. -/
  | ended
  /-- Stopped by a stream fault. -/
  | faulted
  deriving DecidableEq, Repr

/-- A command stream (R94 to R102). -/
structure Stream where
  serial : Nat
  ifc : Option Nat
  hart : Option Nat
  part : BitVec 4
  mcb : Nat
  /-- DOBJ as it was when the stream was opened: object, space and rights; and its length in bytes. -/
  dobj : Cap
  dlen : Nat
  tail : Nat
  status : StreamState
  /-- The buffers entered, the innermost first; the last is level 0. -/
  levels : List Level
  /-- The open loops, the innermost first. -/
  loops : List StreamLoop
  /-- Packets of the current level still to be skipped, and the LOOPs open among them (R99, R100). -/
  skip : Nat × Nat
  wait : Option StreamWait
  ask : Option Ask := none
  /-- STREAM.CLOSE: the stream closes after its current packet (R431). -/
  closing : Option Issuer := none
  since : Nat
  launched : List (Nat × Nat)
  /-- Retirements of launched invocations that the stream has not observed: block, entry serial, status code, and the edges
  that the retirement gives. -/
  retired : List (Nat × Nat × Byte × EdgeSet)
  packets : Nat
  region : Nat
  edges : EdgeSet
  xtlb : List XEntry
  /-- A command port's FIFO, and the offset of its first word in the stream (R442). -/
  fifo : List W32
  fifoPos : Nat
  deriving DecidableEq, Repr

/-- An assignable interface (R428, R429): its registers, its rings and the messages that its vector has signalled. -/
structure Ifc where
  assigned : Option (BitVec 4 × BitVec 20)
  sqbase : W64
  sqlog : W64
  sqtail : W64
  sqhead : W64
  cqbase : W64
  cqlog : W64
  cqhead : W64
  cqtail : W64
  strstat : W64
  lastst : W64
  rings : W64
  /-- Completions posted to the completion ring: TAG, STATUS, RESULT. -/
  completions : List (W32 × Byte × W64)
  msix : Nat
  stream : Option Nat
  /-- The block that the command read last names, while that command has not completed (R432). -/
  naming : Option Nat := none
  deriving DecidableEq, Repr

/-- A key slot (R52): two XTS keys and a GCM key, and the partitions it is enabled for. -/
structure KeySlot where
  xts : BitVec 512
  gcm : BitVec 256
  parts : BitVec 16
  deriving DecidableEq, Repr

/-- A UDP datagram that the part sends, with the fields of its frame (R79, R85, R358). -/
structure UdpFrame where
  port : Nat
  tagged : Bool
  tci : W16
  src : BitVec 48
  dst : BitVec 48
  v6 : Bool
  sip : BitVec 128
  dip : BitVec 128
  /-- TTL or hop limit. -/
  ttl : Byte
  /-- DSCP and ECN. -/
  tos : Byte
  /-- IPv4 identification and DF. -/
  ident : W16
  df : Bool
  sport : W16
  dport : W16
  checksum : W16
  payload : List Byte
  deriving DecidableEq, Repr

/-- A frame that the part sends. -/
inductive TxFrame where
  /-- A reply of R85: its status and its datagram. -/
  | reply (status : Byte) (u : UdpFrame)
  | arp (port : Nat) (tci : W16) (addr : BitVec 32) (mac dst : BitVec 48)
  /-- A Neighbour Advertisement (R81): the address and the port's MAC, its Solicited and Override flags, and to whom. -/
  | advertisement (port : Nat) (tci : W16) (addr : BitVec 128) (mac : BitVec 48) (solicited override : Bool) (dst : BitVec 48)
    (dip : BitVec 128)
  /-- Priority flow control: pause or resume of a priority. -/
  | pfc (port : Nat) (priority : BitVec 3) (pause : Bool)
  /-- RoCEv2 packets (R275), each with its datagram (R79): a NAK with the RNR timer, the answers to a peer's requests, and the part's own requests. -/
  | rnrNak (qp : BitVec 24) (timer : BitVec 5) (u : UdpFrame)
  | rdmaAck (peer : RoceSource) (data : List Byte) (u : UdpFrame)
  | rdmaNak (peer : RoceSource) (u : UdpFrame)
  | rdmaSend (qp : BitVec 24) (op : Nat) (remote : W64) (data : List Byte) (len : Nat) (u : UdpFrame)
  /-- An NVMe read command on a queue pair for a page of a Sprout job (R272): the first logical block, how many, where they go, and its datagram. -/
  | nvmeRead (qp : BitVec 24) (lba count : Nat) (dest : Nat) (u : UdpFrame)
  deriving DecidableEq, Repr

/-- A physical Ethernet port or a breakout part (R77 to R87). -/
structure Port where
  mac : BitVec 48
  queue : List Message
  drops : Nat
  pauses : Nat
  paused : Byte
  pfc : Byte
  /-- Until when a peer's priority flow control pauses each priority (R78), and the frames that wait for it with their priorities, oldest
  first. -/
  pausedUntil : SMap Nat
  held : List (Nat × TxFrame)
  deriving DecidableEq, Repr

/-- One mapped pair of the ingress table with its partition. -/
structure Ingress where
  pair : IngressPair
  part : BitVec 4
  deriving DecidableEq, Repr

/-- A ring of R433 or R410: entries not read yet, how many were dropped, and how often the ring has signalled the vectors of
the partition's interfaces (R428). -/
structure Ring where
  entries : List (List Byte)
  dropped : Nat
  signals : Nat := 0
  /-- Entries that software has consumed (R433). -/
  taken : Nat := 0
  deriving DecidableEq, Repr

/-- A counter bank or trace unit (R419 to R422). -/
inductive Owner where
  | free
  | guest (ifc : Nat)
  | hyp
  | taken (ifc : Nat)
  deriving DecidableEq, Repr

/-- A counter bank or trace unit: owner, counters, selections, the guest's saved ones and DISC. -/
structure Bank where
  owner : Owner
  counters : SMap W64
  sel : BitVec 64
  savedCounters : SMap W64
  savedSel : BitVec 64
  disc : Bool
  deriving DecidableEq, Repr

/-- A hard partition (R103, R419). -/
structure Partition where
  exists_ : Bool
  pasid : BitVec 20
  invport : W16
  slowPath : Bool
  gsramPool : Nat × Nat
  hbmPool : Nat × Nat
  savePool : Nat × Nat
  /-- Pages of the pools that are in use: space and page. -/
  used : List (Nat × Nat)
  drops : Nat
  faultRing : Ring
  killRing : Ring
  missRing : Ring
  slowRing : Ring
  waitRing : Nat × Nat
  waits : Ring
  traceTargets : Nat × Nat
  traces : SMap (List (List Byte))
  bps : SMap W64
  wps : SMap (BitVec 128)
  banks : SMap Bank
  fixed : SMap Nat
  /-- Sampling: cores, period in cycles, trace unit, and when the next sample is due. -/
  sample : List Nat × Nat × Nat × Nat
  /-- Frozen by CHECKPOINT (R438), or being reset (R440). -/
  frozen : Bool
  scrubbing : Bool
  resetBy : Option Issuer
  /-- The Sprout job ring in control SRAM: descriptors not taken yet (R272). -/
  jobRing : List (BitVec 512)
  /-- Job ring entries that went to the host (R274, R451). -/
  hostJobs : List (BitVec 512)
  /-- The Sower's lookup table (R88): the block in each bucket that is taken; and how often the partition has been reset. -/
  table : SMap Nat
  resets : Nat
  debugStops : List StopRecord
  skewLog : List (Nat × Nat × Int)
  deriving DecidableEq, Repr

/-- A RoCEv2 queue pair (R275). -/
structure QueuePair where
  mcb : Nat
  px : Nat
  py : Nat
  peer : QpPeer
  deriving DecidableEq, Repr

/-- An entry of a transducer lane (R287): the core, the invocation and the place in its dispatch order of the command that queued it, and
the bytes consumed. -/
structure LaneEntry where
  core : Nat
  inv : Nat
  cmd : Nat
  pos : Nat
  /-- A fst.ld that waits for the entries before it (R286). -/
  load : Bool := false
  deriving DecidableEq, Repr

/-- A transducer lane (R281): partition, the invocation that holds it with its core, table, class map, state, output
offsets and queue. -/
structure Lane where
  part : Option (BitVec 4)
  holder : Option (Nat × Nat)
  table : Cap
  tlen : Nat
  ix : Nat
  classes : List Byte
  ncls : Nat
  nstate : Nat
  start : Nat
  state : Nat
  outs : SMap Nat
  queue : List LaneEntry
  deriving DecidableEq, Repr

/-- A Sprout job (R272). -/
structure SproutJob where
  part : Nat
  die : Nat
  desc : BitVec 512
  order : List Nat
  flight : List Nat
  arrived : Nat
  deriving DecidableEq, Repr

/-- A reduction window (R447) with the contributions that have performed. -/
structure Window where
  base : Nat
  pages : Nat
  epoch : W16
  deriving DecidableEq, Repr

/-- A granary segment (R49). -/
structure Segment where
  hash : BitVec 256
  size : Nat
  sp : Nat
  pages : List Nat
  refs : Nat
  /-- Greatest HORIZON of the tables that mapped it (R194). -/
  horizon : Nat
  deriving DecidableEq, Repr

/-- A firmware bank (R453). -/
structure FwBank where
  bytes : List Byte
  valid : Bool
  deriving DecidableEq, Repr

/-- A command-processor core (R450 to R454): its integer registers, its standard CSRs and its device registers, its memory and firmware
banks, and its command port. -/
structure Hart where
  running : Bool
  x : SMap W64
  pc : W64
  mode : BitVec 2
  mcause : W64
  mepc : W64
  mtval : W64
  mtvec : W64
  mstatus : W64
  /-- The floating-point registers, and the other standard CSRs by address. -/
  f : SMap W64
  csrs : SMap W64
  /-- The reservation of lr: the address and its bytes. -/
  reserve : Option (Nat × Nat)
  /-- Bytes of its memory that the core has stored since it started, by address. -/
  ram : SMap Byte
  irq : Bool
  zcen : BitVec 3
  q : Bool
  cpwd : W64
  cpwdAt : Nat
  banks : SMap FwBank
  active : Nat
  swapPending : Bool
  fencing : Bool
  ptDev : Int
  /-- The stream of the command port (R442), and its STRSTAT and LASTST. -/
  port : Option Nat
  strstat : W64
  lastst : W64
  deriving DecidableEq, Repr

/-- A power island (R458 to R462). -/
structure Island where
  powered : Bool
  point : BitVec 3
  setPoint : BitVec 3
  part : Option (BitVec 4)
  xtlb2 : List XEntry
  /-- The package time until which a change of point stops the clock (R460). -/
  stopped : Nat := 0
  deriving DecidableEq, Repr

/-- A command that has not completed: it waits for leases, a scrub, or a buffer switch. -/
inductive Waiting where
  /-- REVOKE (R196): issuer, the HORIZON read, pages to free, its partition. -/
  | revoke (iss : Issuer) (horizon : Nat) (free : List (Nat × Nat)) (part : BitVec 4)
  /-- A granary segment or block pages whose last mapping is gone (R50). -/
  | free (horizon : Nat) (pages : List (Nat × Nat)) (part : BitVec 4)
  | bitmap (iss : Issuer) (switchAt : Nat)
  | checkpoint (iss : Issuer) (parts : BitVec 16) (target : CkptTarget) (dirty stayFrozen : Bool) (frozenAt : Nat)
  /-- WPWRITE (R416): partition, watchpoint, its new setting, and when it binds. -/
  | watchpoint (iss : Issuer) (part : BitVec 4) (n : Nat) (value : BitVec 128) (due : Nat)
  | fwswap (iss : Issuer) (harts : BitVec 16)
  deriving DecidableEq, Repr

/-- Which agent of the part moves next. -/
inductive Act where
  /-- The control thread of a core runs one word. -/
  | thread (core : Nat)
  /-- A step of the part itself, or something that arrives from outside. -/
  | event (i : Instr)
  /-- The part's next due step, by its place in the order in which they are looked at. -/
  | due (n : Nat)
  /-- The front-end of a stream executes one packet. -/
  | stream (st : Nat)
  /-- The control complex reads one command descriptor of an interface. -/
  | command (ifc : Nat)
  /-- A command-processor core runs one instruction. -/
  | hart (h : Nat)
  /-- The part loses its power and gets it back; `choice` says which of its values each PMEM block then holds (R375). -/
  | powerLoss (choice : List (Nat × Nat))
  deriving DecidableEq, Repr

/-- An access from outside that is held at its port. -/
inductive Inbound where
  | send (from_ : RoceSource) (data : List Byte)
  | rdma (q : RdmaRequest)
  | host (sp : BitVec 4) (addr : Nat) (data : List Byte)
  | nepol (q : NepolAccess)
  deriving DecidableEq, Repr

/-- Why the machine stops in a step where the manual gives no next state. -/
inductive Fault where
  /-- A translation names a physical page beyond the 2 GiB of GSRAM or the 512 GiB of HBM. Raised by every access
  of memory. Safe: the manual gives such a page no meaning, and the model stops there. -/
  | noSuchAddress
  deriving DecidableEq, Repr

/-- Why a step has no meaning in this model. -/
inductive Refusal where
  /-- The instruction has no meaning yet. Raised by a dispatch arm only. Safe: the model stops. -/
  | notModelled (mnemonic : String)
  deriving DecidableEq, Repr

/-- The part. -/
structure State where
  -- time and the choice of who moves
  pt : Nat
  clock : List Nat
  agenda : List Act
  rr : Nat
  turn : Nat
  hart : Nat
  /-- Counter that names the open values taken so far. -/
  free : Nat
  -- memory
  mem : List Host.Cell
  tags : SMap Bool
  fe : SMap Bool
  feMark : SMap FlagMark
  stamps : SMap Stamp
  marks : SMap WriteMark
  /-- Writes marked so far. -/
  writes : Nat
  /-- Marks of barrier lines: by physical line, and by extent entry and line within the page, which a migration keeps (R237). -/
  bars : SMap BarrierMark
  barsAt : SMap BarrierMark
  /-- Lines whose check fails: 1 a mismatch, 2 an uncorrectable ECC error (R213). -/
  bad : SMap Nat
  /-- Under what a 64-byte unit outside GSRAM was encrypted (R51), whose plaintext `mem` holds: of a whole page, by its page in the object, as
  INSTALL leaves it, and of a unit written since. A unit that no entry names stands as it is. -/
  encPage : SMap Tweak
  enc : SMap (Option Tweak)
  /-- The dirty bitmaps (R436): where the two buffers lie in HBM, whether DB1 is the active one, and the switch time of a
  BITMAP.SWAP that has not completed. -/
  dirtyAt : Option (Nat × Nat)
  dirtyOne : Bool
  dirtySwitch : Option Nat
  -- micro-contexts and cores
  mcbs : SMap Mcb
  cores : SMap Core
  bindings : Nat
  nextSerial : Nat
  islands : SMap Island
  parts : SMap Partition
  granary : List Segment
  /-- The message in the Sower: once its tag has passed, its plaintext and when that was (R86). -/
  sower : Option (Message × Option (List Byte × Nat))
  /-- Region of the Sower (R363), and its queue writes that wait for their page: block, entry index and bytes (R90, R185). -/
  sowerRegion : Nat
  sowerLog : List (Nat × Nat × List Byte)
  rotation : Nat
  nextAccept : Nat
  -- network
  ports : SMap Port
  /-- Parts that a physical port is broken out into, where it is (R77). -/
  breakout : SMap Nat
  ingress : List Ingress
  slots : SMap KeySlot
  qps : SMap QueuePair
  tx : List TxFrame
  lanes : SMap Lane
  jobs : SMap SproutJob
  -- host interface
  ifcs : SMap Ifc
  pfCompletions : List (W32 × Byte × W64)
  streams : SMap Stream
  waiting : List Waiting
  /-- HOST, PMEM and NEPOL bytes whose far side refuses an access, and bytes that do not answer before a package time (R212,
  R434, R446). -/
  hostDeny : List (Nat × Nat)
  /-- What has arrived at a port and is held there, oldest first (R438, R457). -/
  inbound : List Inbound
  mute : List (Nat × Nat × Nat)
  /-- PMEM blocks of 8 bytes with stores that are not durable yet: the durable value, and the stores since, oldest first, each with its agent and
  the value that it left (R375). -/
  pmem : SMap (Nat × List (AgentId × Nat))
  /-- Doorbells, oldest first, whose descriptors have not all been read: the interface and its tail (R432). -/
  bells : List (Nat × W64)
  -- control complex
  rdy : W64
  mode : W64
  /-- Walks that the control complex has performed in the host-assisted mode (R188, R451). -/
  hostWalks : Nat
  harts : SMap Hart
  master : Bool
  lastBeacon : Nat
  nepolRefuses : Bool
  controllersRefuse : List PtAgent
  /-- Deviations of the copies of package time of memory controllers and Nepol ports, by their number, and what they have shown (R186). -/
  portDev : SMap Int
  portFloor : SMap Nat
  mctp : List W64
  power : Nat
  coolFor : Nat
  -- fabric
  device : W16
  exports : SMap ExportEntry
  windows : SMap Window
  performed : List ContributionId
  nextContribution : Nat
  /-- Reductions on their way through the switches (R232). -/
  switch : List SwitchEntry
  /-- Increments on their way to their extent entries, oldest first (R379). -/
  counts : List PendingCount
  linksDown : W16
  deriving DecidableEq, Repr

/-- A thread with every register at its reset value. -/
def Thread.reset : Thread :=
  { pc := 0, s := [], c := [], p := 0, h := false, ae := true, prio := 0, estatus := 0, epc := 0, cause := 0, faddr := 0,
    vseed := 0, eseed := 0, mbdst := 0, hsave0 := 0, hsave1 := 0, loops := [], lact := 0, handler := Cap.null,
    codecap := Cap.null, captab := Cap.null, objtab := Cap.null, hcap := Cap.null, hcode := Cap.null, fmt := [], wrote := 0 }

/-- The empty edge set. -/
def EdgeSet.none : EdgeSet := ⟨[], []⟩

/-- A vector engine at binding (R289). -/
def VectorState.reset : VectorState := { v := [], x := [], m := [], wb := 0, cm := 0, vovf := 0, vnanc := 0, wrote := 0 }

/-- A matrix engine at binding (R330). -/
def MatrixState.reset : MatrixState :=
  { acc0 := [], acc1 := [], satc0 := 0, satc1 := 0, mseg := 256, eb := none, dt := [], dtv := 0, loading := 0, dtInit := 0, task := none,
    segments := 0, wrote := 0 }

/-- A core that holds nothing. -/
def Core.reset : Core :=
  { bound := none, retired := false, fenced := false, th := Thread.reset, hold := none, pending := [], owed := none, struck := none,
    bpPassed := [], region := 0, arrivals := 0, edges := EdgeSet.none, recorded := EdgeSet.none, relFences := [],
    seen := [], btrack := [], hoard := [], flight := [], xtlb := [], pmemDirty := false, ptDev := 0, ptFloor := 0, engDev := [], engFloor := [], skews := [], gen := 0,
    qin := [], qv := [], qc := [], qi := [], portSetter := [], seqs := [], nextOrd := 0, lastOrd := [], cmds := [], chains := [], doneEdges := [], posted := [], om := [],
    vec := VectorState.reset, mat := MatrixState.reset, counters := [], cycleFrac := 0 }

/-- The part after power-on (R457, R458): package time 0, no island powered, nothing installed. -/
def State.reset : State :=
  { pt := 0, clock := [], agenda := [], rr := 0, turn := 0, hart := 0, free := 0, mem := [], tags := [], fe := [], feMark := [],
    stamps := [], marks := [], writes := 0, bars := [], barsAt := [], bad := [], encPage := [], enc := [], dirtyAt := none, dirtyOne := false,
    dirtySwitch := none, mcbs := [], cores := [], bindings := 0, nextSerial := 0,
    islands := [], parts := [], granary := [], sower := none, sowerRegion := 0, sowerLog := [], rotation := 0, nextAccept := 0, ports := [], breakout := [], ingress := [],
    slots := [], qps := [], tx := [], lanes := [], jobs := [], ifcs := [], pfCompletions := [], streams := [], waiting := [],
    hostDeny := [], inbound := [], mute := [], pmem := [], bells := [], rdy := 0, mode := 0, hostWalks := 0, harts := [], master := false, lastBeacon := 0, nepolRefuses := false,
    controllersRefuse := [], portDev := [], portFloor := [], mctp := [], power := 0, coolFor := 0, device := 0, exports := [], windows := [], performed := [],
    nextContribution := 0, switch := [], counts := [], linksDown := 0 }

end Sys2Proof.Machine
end

