-- ==== Sys2Proof/Machine/Maps.lean ====
section
/-!
DEFINITION. The sparse arrays of the state: look up, set and erase a key, keeping the keys strictly rising and no entry
that holds the default.
-/
namespace Sys2Proof.Machine

/-- The entry at a key, if it is listed. -/
def mapFind {α : Type} : SMap α → Nat → Option α
  | [], _ => none
  | (k, v) :: rest, n => if k = n then some v else mapFind rest n

/-- The value at a key: the default where it is not listed. -/
def mapGet {α : Type} (d : α) (m : SMap α) (n : Nat) : α := (mapFind m n).getD d

/-- The array without a key. -/
def mapErase {α : Type} (m : SMap α) (n : Nat) : SMap α := m.filter (fun e => e.1 ≠ n)

/-- The array with an entry placed before the first greater key. -/
def mapInsert {α : Type} : SMap α → Nat → α → SMap α
  | [], n, v => [(n, v)]
  | (k, w) :: rest, n, v => if n < k then (n, v) :: (k, w) :: rest else (k, w) :: mapInsert rest n v

/-- The array with a key listed at a value. -/
def mapPut {α : Type} (m : SMap α) (n : Nat) (v : α) : SMap α := mapInsert (mapErase m n) n v

/-- The array with a key set to a value: the default is not listed. -/
def mapSet {α : Type} [DecidableEq α] (d : α) (m : SMap α) (n : Nat) (v : α) : SMap α :=
  if v = d then mapErase m n else mapPut m n v

/-- Keys strictly rising and no entry at the default. -/
def mapWf {α : Type} [DecidableEq α] (d : α) (m : SMap α) : Bool :=
  decide (m.Pairwise (fun a b => a.1 < b.1)) && m.all (fun e => decide (e.2 ≠ d))

end Sys2Proof.Machine
end

