-- ==== Sys2Proof/Machine/Operands.lean ====
section
/-!
DEFINITION. Operand forms: capability fields and permissions (R180 to R182), the scalar, capability, predicate and loop
registers (R13), format selectors (R15, R74), sign extension and shifts, and the layout of the mesh (R4, R5, R126).
-/
namespace Sys2Proof.Machine

/-- Bits `[lo + width - 1 : lo]` of a word (R2). -/
def field {n : Nat} (w : BitVec n) (lo width : Nat) : BitVec width := w.extractLsb' lo width

/-- The same bits as a number. -/
def fieldNat {n : Nat} (w : BitVec n) (lo width : Nat) : Nat := (w.extractLsb' lo width).toNat

/-- A word with bits `[lo + width - 1 : lo]` replaced. -/
def setField {n : Nat} (w : BitVec n) (lo width v : Nat) : BitVec n :=
  (w &&& ~~~(BitVec.ofNat n (2 ^ width - 1) <<< lo)) ||| (BitVec.ofNat n (v % 2 ^ width) <<< lo)

/-- 1 for true and 0 for false. -/
def ofBool (b : Bool) : W64 := if b then 1 else 0

/-- A word sign-extended from `n` bits. -/
def sext64 {n : Nat} (w : BitVec n) : W64 := w.signExtend 64

/-- A word zero-extended. -/
def zext64 {n : Nat} (w : BitVec n) : W64 := w.setWidth 64

/-- A number as a doubleword, modulo 2^64. -/
def w64 (n : Nat) : W64 := BitVec.ofNat 64 n

/-- Ceiling of a quotient. -/
def ceilDiv (a b : Nat) : Nat := (a + b - 1) / b

/-- A number rounded up to a multiple. -/
def roundUp (a b : Nat) : Nat := ceilDiv a b * b

-- Capabilities (R180)

def Cap.cur (c : Cap) : Nat := fieldNat c.bits 0 40
def Cap.obj (c : Cap) : Nat := fieldNat c.bits 40 24
def Cap.sp (c : Cap) : Nat := fieldNat c.bits 64 4
def Cap.perm (c : Cap) : BitVec 12 := field c.bits 68 12
def Cap.gx (c : Cap) : Nat := fieldNat c.bits 80 4
def Cap.base (c : Cap) : Nat := fieldNat c.bits 84 20
def Cap.len (c : Cap) : Nat := fieldNat c.bits 104 20
def Cap.ver (c : Cap) : Nat := fieldNat c.bits 124 4

/-- The granule 2^(GX+4). -/
def Cap.gran (c : Cap) : Nat := 2 ^ (c.gx + 4)
/-- The first byte in bounds. -/
def Cap.lo (c : Cap) : Nat := c.base * c.gran
/-- The first byte past the bounds. -/
def Cap.hi (c : Cap) : Nat := (c.base + c.len) * c.gran

/-- A capability that checks take as tagged: its tag is set and VER is 0b0001 (R180). -/
def Cap.valid (c : Cap) : Bool := c.tag && c.ver == 1

/-- A capability with another cursor. -/
def Cap.withCur (c : Cap) (n : Nat) : Cap := { c with bits := setField c.bits 0 40 n }

/-- A capability with other bounds. -/
def Cap.withBounds (c : Cap) (gx base len : Nat) : Cap :=
  { c with bits := setField (setField (setField c.bits 80 4 gx) 84 20 base) 104 20 len }

/-- A capability without its tag. -/
def Cap.untagged (c : Cap) : Cap := { c with tag := false }

/-- A capability from its fields, tagged, with VER 0b0001. -/
def mkCap (obj sp : Nat) (perm : BitVec 12) (gx base len cur : Nat) : Cap :=
  ⟨BitVec.ofNat 128 (cur % 2 ^ 40 + (obj % 2 ^ 24) * 2 ^ 40 + (sp % 16) * 2 ^ 64 + perm.toNat * 2 ^ 68 + (gx % 16) * 2 ^ 80 +
    (base % 2 ^ 20) * 2 ^ 84 + (len % 2 ^ 20) * 2 ^ 104 + 2 ^ 124), true⟩

-- Permissions (R181)

def permLD : BitVec 12 := 0x001
def permST : BitVec 12 := 0x002
def permLDCAP : BitVec 12 := 0x004
def permSTCAP : BitVec 12 := 0x008
def permAMO : BitVec 12 := 0x010
def permFE : BitVec 12 := 0x020
def permENG : BitVec 12 := 0x040
def permZVIEW : BitVec 12 := 0x080
def permPERSIST : BitVec 12 := 0x100
def permSHARE : BitVec 12 := 0x200
def permEXEC : BitVec 12 := 0x400
def permSYS : BitVec 12 := 0x800

/-- The capability holds every right asked for. -/
def Cap.has (c : Cap) (need : BitVec 12) : Bool := (c.perm &&& need) == need

-- Space codes (R177)

def spGSRAM : Nat := 0
def spHBM : Nat := 1
def spHOST : Nat := 2
def spPMEM : Nat := 3
def spNEPOL : Nat := 4
def spRWIN : Nat := 5
def spNET : Nat := 6

/-- Spaces that hold tags. -/
def tagged (sp : Nat) : Bool := decide (sp < 2)

/-- The smallest granule exponent from `from_` on at which a base and a length are exact (R154, R48). -/
def exactGx (from_ b l : Nat) : Option Nat :=
  (List.range' from_ (16 - from_)).find? (fun e =>
    b % 2 ^ (e + 4) == 0 && l % 2 ^ (e + 4) == 0 && decide (b / 2 ^ (e + 4) < 2 ^ 20) && decide (l / 2 ^ (e + 4) < 2 ^ 20))

-- Registers (R13)

/-- s1 to s55 as they stand; s0 reads zero. -/
def Thread.getS (t : Thread) (n : Nat) : W64 := if n = 0 then 0 else mapGet 0 t.s n
/-- A write of s0 is discarded. -/
def Thread.setS (t : Thread) (n : Nat) (v : W64) : Thread := if n = 0 then t else { t with s := mapSet 0 t.s n v }
/-- c0 is the null capability. -/
def Thread.getC (t : Thread) (n : Nat) : Cap := if n = 0 then Cap.null else mapGet Cap.null t.c n
/-- The thread has written region r of a save image (R403). -/
def Thread.touch (t : Thread) (r : Nat) : Thread := { t with wrote := t.wrote ||| (1 <<< r) }
/-- A write of c0 is discarded. -/
def Thread.setC (t : Thread) (n : Nat) (v : Cap) : Thread := if n = 0 then t else { t.touch 1 with c := mapSet Cap.null t.c n v }
/-- p0 reads true. -/
def Thread.getP (t : Thread) (n : Nat) : Bool := n == 0 || t.p.getLsbD n
/-- No instruction writes p0 (R28). -/
def Thread.setP (t : Thread) (n : Nat) (b : Bool) : Thread :=
  if n = 0 then t else { t with p := setField t.p n 1 (if b then 1 else 0) }

/-- A loop level that nothing has used. -/
def Loop.zero : Loop := ⟨0, 0, 0, 0⟩
def Thread.loop (t : Thread) (n : Nat) : Loop := mapGet Loop.zero t.loops n
def Thread.setLoop (t : Thread) (n : Nat) (l : Loop) : Thread := { t with loops := mapSet Loop.zero t.loops n l }
/-- Level n is active (R134). -/
def Thread.active (t : Thread) (n : Nat) : Bool := t.lact.getLsbD n
/-- Activation rank of level n: 0 is the outermost. -/
def Thread.rank (t : Thread) (n : Nat) : Nat := fieldNat t.lact (4 + 2 * n) 2
/-- The active levels, innermost first. -/
def Thread.innermost (t : Thread) : List Nat :=
  ((List.range 4).reverse).flatMap (fun r => (List.range 4).filter (fun n => t.active n && t.rank n == r))
/-- LACT for active levels given innermost first. -/
def lactOf (levels : List Nat) : BitVec 12 :=
  let k := levels.length
  (levels.zip (List.range k)).foldl (fun w p => setField (setField w p.1 1 1) (4 + 2 * p.1) 2 (k - 1 - p.2)) 0
/-- Deactivates level n and every level activated after it (R147, R149). -/
def Thread.dropFrom (t : Thread) (n : Nat) : Thread :=
  { t with lact := lactOf (t.innermost.filter (fun m => t.rank m < t.rank n)) }
/-- Activates level n with the next rank (R148). -/
def Thread.activate (t : Thread) (n : Nat) : Thread := { t with lact := lactOf (n :: t.innermost) }

/-- A word at `e` lies in the body of level n. -/
def Thread.inBody (t : Thread) (n : Nat) (e : W64) : Bool :=
  decide ((t.loop n).beg.toNat ≤ e.toNat) && decide (e.toNat ≤ (t.loop n).last.toNat)

/-- STATUS (R130). -/
def Thread.status (t : Thread) : W64 :=
  (if t.h then 1 else 0) ||| (if t.ae then 2 else 0) ||| (zext64 t.prio <<< 4)

/-- The code capability of the thread (R111). -/
def Thread.code (t : Thread) : Cap := if t.h then t.hcode else t.codecap

/-- Entry n of the format table (R73). -/
def Thread.getFmt (t : Thread) (n : Nat) : W64 := mapGet 0 t.fmt n

/-- The format entry that a selector names at dispatch (R15, R74). -/
def Thread.selectFmt (t : Thread) (f : BitVec 7) : Nat :=
  let idx := fieldNat f 0 4
  if f.getLsbD 6 then
    let m := fieldNat f 4 2
    let i := if t.active m then (t.loop m).itr.toNat else 0
    (idx + i) % 16
  else idx

-- The mesh (R4, R5, R126). Core (x, y) has the number 32 y + x.

def coreX (k : Nat) : Nat := k % 32
def coreY (k : Nat) : Nat := k / 32
def islandOf (k : Nat) : Nat := coreY k / 8 * 4 + coreX k / 8

/-- The neighbour of core k to the north, east, south and west (0 to 3). -/
def neighbour (k dir : Nat) : Option Nat :=
  let x := coreX k
  let y := coreY k
  match dir with
  | 0 => if y = 0 then none else some (k - 32)
  | 1 => if x = 31 then none else some (k + 1)
  | 2 => if y = 31 then none else some (k + 32)
  | _ => if x = 0 then none else some (k - 1)

/-- Core k lies in the plot of the given origin and shape (R104). -/
def inPlot (ox oy wlog hlog k : Nat) : Bool :=
  decide (ox ≤ coreX k) && decide (coreX k < ox + 2 ^ wlog) && decide (oy ≤ coreY k) && decide (coreY k < oy + 2 ^ hlog)

/-- The cores of a plot, in ascending order of their numbers. -/
def plotCores (ox oy wlog hlog : Nat) : List Nat :=
  (List.range (2 ^ hlog)).flatMap (fun j => (List.range (2 ^ wlog)).map (fun i => 32 * (oy + j) + ox + i))

end Sys2Proof.Machine
end

