-- ==== Sys2Proof/Machine/Flags.lean ====
section
/-!
DEFINITION. Conditions. The part has no flags (R136): comparisons write predicates, and packets and instructions share
the condition codes of R26.
-/
namespace Sys2Proof.Machine

/-- A condition code on two doublewords (R26, R141): 0 eq, 1 ne, 2 lt, 3 ge signed, 4 ltu, 5 geu. -/
def condHolds (c : BitVec 3) (a b : W64) : Bool :=
  match c.toNat with
  | 0 => a == b
  | 1 => a != b
  | 2 => a.slt b
  | 3 => !a.slt b
  | 4 => a.ult b
  | _ => !a.ult b

/-- The predicate that cmp and cmpi write (R141). -/
def writeCmp (t : Thread) (c d : BitVec 3) (a b : W64) : Thread := t.setP d.toNat (condHolds c a b)

/-- The predicate of ctest (R159): tagged, and the range from the cursor within the bounds, with the sum unbounded. -/
def ctestHolds (c : Cap) (n : W64) : Bool :=
  c.valid && decide (c.lo ≤ c.cur) && decide (c.cur + n.toNat ≤ c.hi)

end Sys2Proof.Machine
end

