-- ==== Sys2Proof/Machine/Parts.lean ====
section
/-!
DEFINITION. The records of the state as they stand when nothing has set them, and the accessors of the arrays that hold
them.
-/
namespace Sys2Proof.Machine

/-- A micro-context block cleared to zero (R41). -/
def Mcb.zero : Mcb :=
  { funcid := 0, state := 0, v := false, prio := 0, part := 0, wlog := 0, hlog := 0, keyslot := 0, faultpolicy := 0,
    leasemax := 0, tu := 0, image := Cap.null, captab := Cap.null, objtab := Cap.null, handler := Cap.null,
    queue := Cap.null, qhead := 0, qtail := 0, t1 := 0, t2 := 0, t3 := 0, cntthr := 0, horizon := 0, entry := 0,
    init := Cap.null, savepa := 0, ox := 0, oy := 0, otPhys := 0, entries := [], capFilled := [], segments := [],
    pages := [], inv := none, saved := [], reserved := none }

def Ring.empty : Ring := ⟨[], 0, 0, 0⟩

/-- A partition that nothing has assigned (INVPORT resets to 28,250, R80). -/
def Partition.none : Partition :=
  { exists_ := false, pasid := 0, invport := 28250, slowPath := false, gsramPool := (0, 0), hbmPool := (0, 0),
    savePool := (0, 0), used := [], drops := 0, faultRing := Ring.empty, killRing := Ring.empty,
    missRing := Ring.empty, slowRing := Ring.empty, waitRing := (0, 0), waits := Ring.empty, traceTargets := (0, 0),
    traces := [], bps := [], wps := [], banks := [], fixed := [], sample := ([], 0, 0, 0), frozen := false,
    scrubbing := false, resetBy := Option.none, jobRing := [], hostJobs := [], table := [], resets := 0, debugStops := [], skewLog := [] }

def Bank.free : Bank := ⟨.free, [], 0, [], 0, false⟩

/-- An island that has no power; its set point is the one of wake (R460). -/
def Island.off : Island := ⟨false, 3, 3, none, [], 0⟩

def Port.reset : Port := ⟨0, [], 0, 0, 0, 0, [], []⟩

def Ifc.reset : Ifc :=
  { assigned := none, sqbase := 0, sqlog := 0, sqtail := 0, sqhead := 0, cqbase := 0, cqlog := 0, cqhead := 0, cqtail := 0,
    strstat := 0, lastst := 0, rings := 0, completions := [], msix := 0, stream := none }

def Lane.reset : Lane :=
  { part := none, holder := none, table := Cap.null, tlen := 0, ix := 0, classes := [], ncls := 0, nstate := 0, start := 0,
    state := 0, outs := [], queue := [] }

/-- A command-processor core in reset: ZCEN is 1 (R450); mode 3 is machine mode. -/
def Hart.reset : Hart :=
  { running := false, x := [], pc := 0, mode := 3, mcause := 0, mepc := 0, mtval := 0, mtvec := 0, mstatus := 0, f := [],
    csrs := [], reserve := none, ram := [], irq := false,
    zcen := 1, q := false, cpwd := 0, cpwdAt := 0, banks := [], active := 0, swapPending := false, fencing := false,
    ptDev := 0, port := none, strstat := 0, lastst := 0 }

def OmSlot.empty : OmSlot := ⟨.empty, false, false, [], EdgeSet.none, 0⟩

def coreAt (s : State) (k : Nat) : Core := mapGet Core.reset s.cores k
def State.setCore (s : State) (k : Nat) (c : Core) : State := { s with cores := mapSet Core.reset s.cores k c }
def State.updCore (s : State) (k : Nat) (f : Core → Core) : State := s.setCore k (f (coreAt s k))
def mcbAt (s : State) (m : Nat) : Mcb := mapGet Mcb.zero s.mcbs m
def State.setMcb (s : State) (m : Nat) (b : Mcb) : State := { s with mcbs := mapSet Mcb.zero s.mcbs m b }
def State.updMcb (s : State) (m : Nat) (f : Mcb → Mcb) : State := s.setMcb m (f (mcbAt s m))
/-- Changes the invocation that a block runs, if it runs one. -/
def State.updInv (s : State) (m : Nat) (f : Inv → Inv) : State :=
  s.updMcb m (fun b => { b with inv := b.inv.map f })
def partAt (s : State) (p : Nat) : Partition := mapGet Partition.none s.parts p
def State.updPart (s : State) (p : Nat) (f : Partition → Partition) : State :=
  { s with parts := mapSet Partition.none s.parts p (f (partAt s p)) }
def islandAt (s : State) (i : Nat) : Island := mapGet Island.off s.islands i
def State.updIsland (s : State) (i : Nat) (f : Island → Island) : State :=
  { s with islands := mapSet Island.off s.islands i (f (islandAt s i)) }
def portAt (s : State) (p : Nat) : Port := mapGet Port.reset s.ports p
def State.updPort (s : State) (p : Nat) (f : Port → Port) : State :=
  { s with ports := mapSet Port.reset s.ports p (f (portAt s p)) }
def ifcAt (s : State) (i : Nat) : Ifc := mapGet Ifc.reset s.ifcs i
def State.updIfc (s : State) (i : Nat) (f : Ifc → Ifc) : State :=
  { s with ifcs := mapSet Ifc.reset s.ifcs i (f (ifcAt s i)) }
def laneAt (s : State) (l : Nat) : Lane := mapGet Lane.reset s.lanes l
def State.updLane (s : State) (l : Nat) (f : Lane → Lane) : State :=
  { s with lanes := mapSet Lane.reset s.lanes l (f (laneAt s l)) }
def hartAt (s : State) (h : Nat) : Hart := mapGet Hart.reset s.harts h
def State.updHart (s : State) (h : Nat) (f : Hart → Hart) : State :=
  { s with harts := mapSet Hart.reset s.harts h (f (hartAt s h)) }
def State.updStream (s : State) (n : Nat) (f : Stream → Stream) : State :=
  match mapFind s.streams n with
  | none => s
  | some x => { s with streams := mapPut s.streams n (f x) }

def Core.slot (c : Core) (n : Nat) : OmSlot := mapGet OmSlot.empty c.om n
def Core.setSlot (c : Core) (n : Nat) (x : OmSlot) : Core := { c with om := mapSet OmSlot.empty c.om n x }
def Core.seq (c : Core) (e : BitVec 2) : W16 := mapGet 0 c.seqs e.toNat
def Core.port (c : Core) (dir : Nat) : List QueueWord := mapGet [] c.qin dir
def Core.setPort (c : Core) (dir : Nat) (q : List QueueWord) : Core := { c with qin := mapSet [] c.qin dir q }
def Core.bumpCounter (c : Core) (n : Nat) (by_ : Nat) : Core :=
  { c with counters := mapSet 0 c.counters n (mapGet 0 c.counters n + w64 by_) }

/-- The fixed counter of a partition (R420): 0 SKEW, 1 NTDROP, 2 T1SKIP, 3 WPEXT, 4 WLOST. -/
def Partition.bump (p : Partition) (n : Nat) : Partition := { p with fixed := mapSet 0 p.fixed n (mapGet 0 p.fixed n + 1) }

/-- The event code that counter i of a bank selects (R419). -/
def Bank.code (b : Bank) (i : Nat) : Nat := fieldNat b.sel (8 * i) 8

/-- A bank counts n events of a code, while somebody owns it (R419). -/
def Bank.count (b : Bank) (code n : Nat) : Bank :=
  if b.owner = .free then b
  else { b with counters := ((List.range 8).filter (fun i => b.code i == code)).foldl (fun m i => mapSet 0 m i (mapGet 0 m i + w64 n)) b.counters }

/-- The four counter banks of a partition count n events of a code. Units 4 and 5 are the trace units. -/
def State.count (s : State) (part code n : Nat) : State :=
  if n = 0 then s
  else s.updPart part (fun p => { p with banks := p.banks.map (fun e => (e.1, if e.1 < 4 then e.2.count code n else e.2)) })

/-- The partition that core k lies in (R103). -/
def corePart (s : State) (k : Nat) : Option (BitVec 4) := (islandAt s (islandOf k)).part

/-- Events of an agent of core k are counted for its partition (R419). -/
def State.countCore (s : State) (k code n : Nat) : State :=
  match corePart s k with
  | none => s
  | some p => s.count p.toNat code n

/-- The invocation that core k works for. -/
def coreInv (s : State) (k : Nat) : Option Inv :=
  match (coreAt s k).bound with
  | none => none
  | some m => (mcbAt s m).inv

/-- The cores of the plot of a block's invocation. -/
def Mcb.plot (b : Mcb) : List Nat :=
  match b.inv with
  | none => []
  | some i => plotCores i.ox i.oy b.wlog.toNat b.hlog.toNat

/-- Core k's copy of package time: it never decreases (R186). -/
def localPt (s : State) (k : Nat) : Nat :=
  let c := coreAt s k
  Max.max c.ptFloor ((s.pt : Int) + c.ptDev).toNat

/-- The copy of package time of engine e of core k (R186). -/
def engPt (s : State) (k : Nat) (e : BitVec 2) : Nat :=
  let c := coreAt s k
  Max.max (mapGet 0 c.engFloor e.toNat) ((s.pt : Int) + mapGet 0 c.engDev e.toNat).toNat

/-- The number of a memory controller or Nepol port among the copies of package time that `portDev` lists. -/
def portNumber : PtAgent → Nat
  | .gsramController d => d % 2
  | .hbmController n => 2 + n % 8
  | _ => 10

/-- The controller that serves a GSRAM or HBM place. -/
def controllerOf (sp addr : Nat) : Option PtAgent :=
  if sp = 0 then some (.gsramController (addr / 2 ^ 30)) else if sp = 1 then some (.hbmController (addr / 2 ^ 36)) else none

/-- The copy of package time of a memory controller or Nepol port: it never decreases (R186). -/
def portPt (s : State) (a : PtAgent) : Nat :=
  Max.max (mapGet 0 s.portFloor (portNumber a)) ((s.pt : Int) + mapGet 0 s.portDev (portNumber a)).toNat

/-- The copy of a memory controller or Nepol port deviates anew; what it has shown stands (R186). -/
def State.setPortDev (s : State) (a : PtAgent) (dev : Int) : State :=
  { s with
    portFloor := mapSet 0 s.portFloor (portNumber a) (portPt s a), portDev := mapSet 0 s.portDev (portNumber a) dev }

/-- The copy of package time at the controller of a place; package time itself where the place lies outside the part. -/
def placePt (s : State) (sp addr : Nat) : Nat :=
  match controllerOf sp addr with
  | none => s.pt
  | some a => portPt s a

/-- A controller refuses an access whose grant has lapsed by its own copy of package time, and every leased access while its copy is
off (R190, R195). -/
def controllerRefuses (s : State) (r : Res) : Bool :=
  match controllerOf r.sp r.addr with
  | none => false
  | some a => decide (r.expiry + 8 < portPt s a) || (r.leased && s.controllersRefuse.contains a)

end Sys2Proof.Machine
end

