-- ==== Sys2Proof/Machine/Memory.lean ====
section
/-!
DEFINITION. Physical memory: one list of cells over every space, tags, full/empty bits, stamps, line checks and the
encryption of private pages. A byte that is not listed reads 0x00.
-/
namespace Sys2Proof.Machine

/-- What a byte that nothing has written reads as. -/
def emptyByte : Byte := 0

/-- The key of a physical byte: space, device or PASID, and byte address. -/
def physKey (sp dev addr : Nat) : Nat := sp * 2 ^ 88 + dev * 2 ^ 64 + addr
def keySpace (k : Nat) : Nat := k / 2 ^ 88
def keyAddr (k : Nat) : Nat := k % 2 ^ 64

/-- One byte as it stands. -/
def memByte (m : List Host.Cell) (k : Nat) : Byte := mapGet emptyByte m k

/-- One byte written: the value that an unlisted byte reads as is not listed. -/
def memSet (m : List Host.Cell) (k : Nat) (b : Byte) : List Host.Cell := mapSet emptyByte m k b

/-- The canonical form of memory: addresses strictly rising, and no entry at the value of an unlisted byte. -/
def Memory.wf (m : List Host.Cell) : Bool := mapWf emptyByte m

/-- Consecutive bytes. -/
def memBytes (m : List Host.Cell) (k n : Nat) : List Byte := (List.range n).map (fun i => memByte m (k + i))

/-- Consecutive bytes written in ascending order. -/
def memWrite : List Host.Cell → Nat → List Byte → List Host.Cell
  | m, _, [] => m
  | m, k, b :: bs => memWrite (memSet m k b) (k + 1) bs

/-- A little-endian number of n bytes (R2). -/
def memNat (m : List Host.Cell) (k n : Nat) : Nat := leNat (memBytes m k n)

/-- The lines that n bytes from a key touch. -/
def linesOf (k n : Nat) : List Nat := if n = 0 then [] else List.range' (k / 64) ((k + n - 1) / 64 - k / 64 + 1)

/-- The 16-byte granules that n bytes from a key touch. -/
def granulesOf (k n : Nat) : List Nat := if n = 0 then [] else List.range' (k / 16) ((k + n - 1) / 16 - k / 16 + 1)

/-- GSRAM holds 2 GiB and HBM 512 GiB. -/
def physExists (sp addr n : Nat) : Bool :=
  if sp = 0 then decide (addr + n ≤ 2 ^ 31) else if sp = 1 then decide (addr + n ≤ 2 ^ 39) else true

/-- The GSRAM die or HBM stack of a page has its ready bit set (R457). -/
def physReady (s : State) (sp addr : Nat) : Bool :=
  if sp = 0 then s.rdy.getLsbD (18 + addr / 2 ^ 30) else if sp = 1 then s.rdy.getLsbD (10 + addr / 2 ^ 36) else true

/-- The dirty-bitmap bit of a GSRAM or HBM page (R436). -/
def dirtyBit (sp addr : Nat) : Nat := if sp = 0 then addr / 65536 else 32768 + addr / 65536

/-- A write that performs at a GSRAM or HBM controller sets its page's bit in the buffer that is active by the controller's own copy of package
time (R436, R437). -/
def markDirty (s : State) (sp addr : Nat) : State :=
  match s.dirtyAt with
  | none => s
  | some (b0, b1) =>
    if sp ≥ 2 then s else
    let one := match s.dirtySwitch with
      | some t => if placePt s sp addr < t then s.dirtyOne else !s.dirtyOne
      | none => s.dirtyOne
    let k := physKey 1 0 ((if one then b1 else b0) + dirtyBit sp addr / 8)
    let b := memByte s.mem k
    { s with mem := memSet s.mem k (b ||| (1 <<< (dirtyBit sp addr % 8))) }

/-- The bits of every page that n bytes from a key touch are set. -/
def markPages (s : State) (k n : Nat) : State :=
  (List.range' (k / 65536) ((k + n - 1) / 65536 - k / 65536 + 1)).foldl
    (fun s p => markDirty s (keySpace (p * 65536)) (keyAddr (p * 65536))) s

/-- What a 64-byte unit was encrypted under, if it was (R51). -/
def unitTag (s : State) (line : Nat) : Option Tweak :=
  match mapFind s.enc line with
  | some t => t
  | none =>
    match mapFind s.encPage (line / 1024) with
    | some (keys, obj, page) => some (keys, obj, page * 1024 + line % 1024)
    | none => none

/-- The cipher of a tweak on a unit, and back (R51); no tweak leaves it as it is. -/
def encipher (t : Option Tweak) (u : BitVec 512) : BitVec 512 :=
  match t with
  | none => u
  | some (keys, obj, i) => Config.xts keys obj i u
def decipher (t : Option Tweak) (u : BitVec 512) : BitVec 512 :=
  match t with
  | none => u
  | some (keys, obj, i) => (Config.xts keys obj i).symm u

/-- A byte as a reader with the given tweak sees it: the plaintext under the tweak it was written with, and otherwise what
the reader's cipher makes of the bits that stand in memory. -/
def viewByte (s : State) (want : Option Tweak) (k : Nat) : Byte :=
  let have_ := unitTag s (k / 64)
  if keySpace k = 0 || have_ == want then memByte s.mem k
  else field (decipher want (encipher have_ (BitVec.ofNat 512 (memNat s.mem (k / 64 * 64) 64)))) (8 * (k % 64)) 8

/-- Bytes within one page as a reader sees them. The tweak is given for the first byte's unit. -/
def viewBytes (s : State) (want : Option Tweak) (k n : Nat) : List Byte :=
  (List.range n).map (fun i =>
    viewByte s (want.map (fun t => (t.1, t.2.1, t.2.2 + ((k + i) / 64 - k / 64)))) (k + i))

/-- Makes a unit plaintext under a tweak before a partial write: bytes that stay are what that tweak shows. -/
def retag (s : State) (want : Option Tweak) (line : Nat) : State :=
  if line * 64 / 2 ^ 88 = 0 || unitTag s line == want then s
  else
    let bs := (List.range 64).map (fun i => viewByte s want (line * 64 + i))
    { s with mem := memWrite s.mem (line * 64) bs, enc := mapPut s.enc line want }

/-- The 8-byte blocks of PMEM that n bytes touch; none in another space. -/
def pmemBlocks (k n : Nat) : List Nat :=
  if keySpace k = 3 && n != 0 then List.range' (k / 8) ((k + n - 1) / 8 - k / 8 + 1) else []

/-- The blocks with their durable values, before a write of n bytes (R375). -/
def keepDurable (s : State) (k n : Nat) : SMap (Nat × List (AgentId × Nat)) :=
  (pmemBlocks k n).foldl (fun p b => if (mapFind p b).isSome then p else mapPut p b (memNat s.mem (8 * b) 8, [])) s.pmem

/-- A data write of bytes that lie in one page: tags of the granules are cleared (R178), a whole line written ends a
failed check (R409), the dirty bit is set. -/
def putBytes (s : State) (want : Option Tweak) (k : Nat) (bs : List Byte) : State :=
  let n := bs.length
  if n = 0 then s else
  let lines := linesOf k n
  let s := lines.foldl (fun s l => retag s (want.map (fun t => (t.1, t.2.1, t.2.2 + (l - k / 64)))) l) s
  let s := { s with mem := memWrite s.mem k bs, tags := (granulesOf k n).foldl mapErase s.tags,
                    bad := (lines.filter (fun l => decide (k ≤ l * 64) && decide (l * 64 + 64 ≤ k + n))).foldl mapErase s.bad
                    pmem := keepDurable s k n }
  markPages s k n

/-- A write whose line keeps a failed check: it leaves that line unchanged (R213, R409). -/
def badPartial (s : State) (k n : Nat) : Bool :=
  (linesOf k n).any (fun l => (mapFind s.bad l).isSome && !(decide (k ≤ l * 64) && decide (l * 64 + 64 ≤ k + n)))

/-- The full/empty bit of an 8-byte GSRAM word: false is empty (R220). -/
def feFull (s : State) (word : Nat) : Bool := mapGet false s.fe word

/-- Leaves lines as the scrub leaves them (R441): zero bytes, checks good, tags clear, words empty, no stamp. -/
def scrubPage (s : State) (sp page : Nat) : State :=
  let inPage := fun (unit k : Nat) => k * unit / 65536 == physKey sp 0 (page * 65536) / 65536
  { s with
    mem := s.mem.filter (fun e => !inPage 1 e.1), tags := s.tags.filter (fun e => !inPage 16 e.1),
    fe := s.fe.filter (fun e => !inPage 8 e.1), feMark := s.feMark.filter (fun e => !inPage 8 e.1),
    stamps := s.stamps.filter (fun e => !inPage 64 e.1), marks := s.marks.filter (fun e => !inPage 1 e.1),
    bars := s.bars.filter (fun e => !inPage 64 e.1), bad := s.bad.filter (fun e => !inPage 64 e.1),
    enc := s.enc.filter (fun e => !inPage 64 e.1),
    encPage := mapErase s.encPage (physKey sp 0 (page * 65536) / 65536) }

end Sys2Proof.Machine
end

