-- ==== Sys2Proof/Machine/Entries.lean ====
section
/-!
DEFINITION. Directory and extent entries (R183, R184): their fields, where a block's table holds them, and where the bytes of an object lie
by the entries as they stand.
-/
namespace Sys2Proof.Machine

-- An object directory entry (R183)

def dirEmap (d : BitVec 256) : Nat := fieldNat d 160 48
def dirNpages (d : BitVec 256) : Nat := fieldNat d 128 25
def dirEmsp (d : BitVec 256) : Nat := fieldNat d 124 4
def dirDev (d : BitVec 256) : Nat := fieldNat d 108 16
def dirNtfy (d : BitVec 256) : Nat := fieldNat d 94 14
def dirLx (d : BitVec 256) : Nat := fieldNat d 22 5
def dirSp (d : BitVec 256) : Nat := fieldNat d 18 4
def dirPresent (d : BitVec 256) : Bool := d.getLsbD 7
def dirCnt (d : BitVec 256) : Bool := d.getLsbD 6
def dirCompressed (d : BitVec 256) : Bool := d.getLsbD 5
def dirArriving (d : BitVec 256) : Bool := d.getLsbD 4
def dirWb (d : BitVec 256) : Bool := d.getLsbD 3
def dirEnc (d : BitVec 256) : Bool := d.getLsbD 2
def dirShared (d : BitVec 256) : Bool := d.getLsbD 1
def dirRo (d : BitVec 256) : Bool := d.getLsbD 0

/-- Check 1 of R183: reserved bits, LX and EMSP. -/
def dirWellFormed (d : BitVec 256) : Bool :=
  fieldNat d 208 48 == 0 && fieldNat d 153 7 == 0 && fieldNat d 27 67 == 0 && fieldNat d 8 10 == 0 &&
  decide (dirLx d ≤ 24) && decide (dirEmsp d ≤ 1)

-- An extent entry (R184)

def extAcnt (x : W64) : Nat := fieldNat x 48 16
def extPpn (x : W64) : Nat := fieldNat x 8 36
def extArriving (x : W64) : Bool := x.getLsbD 2
def extWb (x : W64) : Bool := x.getLsbD 1
def extPresent (x : W64) : Bool := x.getLsbD 0

/-- An extent entry that R184 takes: reserved bits zero, and no count where the object does not count. -/
def extWellFormed (d : BitVec 256) (x : W64) : Bool :=
  fieldNat x 44 4 == 0 && fieldNat x 3 5 == 0 && (dirCnt d || extAcnt x == 0)

/-- The lowest byte address at which a table holds object obj's entry. -/
def dirKey (b : Mcb) (obj : Nat) : Nat := physKey 0 0 (b.otPhys + 32 * obj)

/-- The directory entry as a walk reads it: beyond the table's length it is absent (R183). -/
def readDir (s : State) (m obj : Nat) : BitVec 256 :=
  let b := mcbAt s m
  if 32 * obj + 32 ≤ b.objtab.hi then BitVec.ofNat 256 (memNat s.mem (dirKey b obj) 32) else 0

/-- The key of page p's extent entry. -/
def extKeyOf (d : BitVec 256) (page : Nat) : Nat := physKey (dirEmsp d) 0 (dirEmap d + 8 * page)

/-- The device number of a physical key: the PASID of the block's partition in HOST, the peer device in NEPOL and RWIN. -/
def pageDev (s : State) (m : Nat) (d : BitVec 256) : Nat :=
  if dirSp d = 2 then (partAt s (mcbAt s m).part.toNat).pasid.toNat
  else if dirSp d = 4 || dirSp d = 5 then dirDev d else 0

/-- The pieces of n bytes at an offset that lie in different pages, in ascending order (R185). -/
def pagePieces : Nat → Nat → Nat → List (Nat × Nat)
  | 0, _, _ => []
  | fuel + 1, off, n =>
    if n = 0 then []
    else
      let k := Min.min n (65536 - off % 65536)
      (off, k) :: pagePieces fuel (off + k) (n - k)

/-- The pages that n bytes touch, as fuel for `pagePieces`. -/
def pageFuel (n : Nat) : Nat := n / 65536 + 2

/-- The physical keys of n bytes of an object of block m's table by its entries as they stand, page by page. -/
def peekPlaces (s : State) (m obj off n : Nat) : List (Nat × Nat) :=
  let d := readDir s m obj
  if !dirWellFormed d || !dirPresent d then []
  else (pagePieces (pageFuel n) off n).filterMap (fun p =>
    let x := w64 (memNat s.mem (extKeyOf d (p.1 / 65536)) 8)
    if p.1 / 65536 < dirNpages d && extPresent x then
      some (physKey (if dirSp d = 5 then 4 else dirSp d) (pageDev s m d) (extPpn x * 65536 + p.1 % 65536), p.2)
    else none)

/-- Two ranges of bytes meet. -/
def overlaps (a n b m : Nat) : Bool := decide (a < b + m) && decide (b < a + n)

end Sys2Proof.Machine
end

