-- ==== Sys2Proof/Machine/Edges.lean ====
section
/-!
DEFINITION. Agents, edge sets, releases and acquires (R359 to R364), barrier coverage (R370), stamps and the direct-edge
rule (R369), and the agent ids of R410.
-/
namespace Sys2Proof.Machine

/-- A pair added to a set, the greater region standing for the lesser. -/
def addPair (l : List (AgentId × Nat)) (p : AgentId × Nat) : List (AgentId × Nat) :=
  if l.any (fun q => q.1 == p.1 && decide (p.2 ≤ q.2)) then l else p :: l.filter (fun q => q.1 != p.1)

/-- Coverage added to a set (R370). -/
def addCover (l : List (Nat × Nat × Nat)) (c : Nat × Nat × Nat) : List (Nat × Nat × Nat) :=
  if l.any (fun d => d.1 == c.1 && d.2.1 == c.2.1 && decide (c.2.2 ≤ d.2.2)) then l
  else c :: l.filter (fun d => !(d.1 == c.1 && d.2.1 == c.2.1))

/-- An edge set added to another (R364). -/
def EdgeSet.join (a b : EdgeSet) : EdgeSet := ⟨b.pairs.foldl addPair a.pairs, b.cover.foldl addCover a.cover⟩

/-- One direct edge. -/
def EdgeSet.one (a : AgentId) (n : Nat) : EdgeSet := ⟨[(a, n)], []⟩

/-- Core and invocation of the family that an agent belongs to (R359). -/
def AgentId.family : AgentId → Option (Nat × Nat)
  | .thread c i => some (c, i)
  | .command c i _ => some (c, i)
  | .task c i _ => some (c, i)
  | _ => none

/-- An access of a stamped line is legal (R369). -/
def legalAccess (w : Who) (st : Stamp) : Bool :=
  st.agent == w.agent || st.agent == .external || decide (st.bindings < w.bindings) ||
  w.edges.pairs.any (fun p => p.1 == st.agent && decide (st.region ≤ p.2)) ||
  (match st.agent.family with
   | none => false
   | some f => w.edges.cover.any (fun c => c.1 == f.1 && c.2.1 == f.2 && decide (st.arrivals < c.2.2)))

/-- The race rule binds an agent of an invocation; the front-end, the Sower and external writers make no plain access that
raises it (R245, R369). -/
def checkedAgent : AgentId → Bool
  | .thread _ _ => true
  | .command _ _ _ => true
  | .task _ _ _ => true
  | _ => false

/-- The first of the GSRAM lines that fails the rule (R371, R372). -/
def raceLine (s : State) (w : Who) (k n : Nat) : Option Nat :=
  if keySpace k ≠ 0 || !checkedAgent w.agent then none
  else (linesOf k n).find? (fun l => match mapFind s.stamps l with
    | none => false
    | some st => !legalAccess w st)

/-- Stamps the GSRAM lines of a data write (R369). -/
def stampLines (s : State) (w : Who) (region k n : Nat) : State :=
  if keySpace k ≠ 0 then s
  else { s with stamps := (linesOf k n).foldl (fun m l => mapPut m l ⟨w.agent, region, s.bindings, w.arrivals⟩) s.stamps }

/-- The stores to PMEM blocks that an agent has just made of n bytes (R375). -/
def noteStores (s : State) (a : AgentId) (k n : Nat) : SMap (Nat × List (AgentId × Nat)) :=
  (pmemBlocks k n).foldl (fun p b =>
    let old := (mapFind p b).getD (0, [])
    mapPut p b (old.1, old.2 ++ [(a, memNat s.mem (8 * b) 8)])) s.pmem

/-- Stores to PMEM of some agents are durable: no block holds a value older than the last of them (R375). -/
def makeDurable (s : State) (mine : AgentId → Bool) : State :=
  { s with
    pmem := s.pmem.filterMap (fun e =>
      match (e.2.2.filter (fun x => mine x.1)).getLast? with
      | none => some e
      | some x =>
        let later := (e.2.2.reverse.takeWhile (fun y => !mine y.1)).reverse
        if later.isEmpty then none else some (e.1, x.2, later)) }

/-- The values that a PMEM block may hold after a loss of power (R375). -/
def survivors (s : State) (block : Nat) : List Nat :=
  match mapFind s.pmem block with
  | none => [memNat s.mem (8 * block) 8]
  | some e => e.1 :: e.2.map (·.2)

/-- Memory after a loss of power: PMEM by which of its survivors each block holds (R375), and memory beside the part as it stands. -/
def afterPowerLoss (s : State) (choice : SMap Nat) : List Host.Cell :=
  s.pmem.foldl (fun mem e => memWrite mem (8 * e.1) (leBytes 8 ((survivors s e.1).getD (mapGet 0 choice e.1) e.2.1)))
    (s.mem.filter (fun e => decide (2 ≤ keySpace e.1)))

/-- Records the writer of each byte, with the edges that its value carries (R362, R411). -/
def markBytes (s : State) (w : Who) (rel : EdgeSet) (k n : Nat) : State :=
  let m : WriteMark := ⟨w.fences, rel, w.setter, s.writes⟩
  { s with
    marks := (List.range n).foldl (fun a i => mapPut a (k + i) m) s.marks, writes := s.writes + 1, pmem := noteStores s w.agent k n }

/-- The marks of the bytes read, each once. -/
def marksOf (s : State) (k n : Nat) : List WriteMark :=
  ((List.range n).filterMap (fun i => mapFind s.marks (k + i))).foldl (fun l m => if l.contains m then l else l ++ [m]) []

/-- The last writer of n bytes (R411). -/
def lastWriter (s : State) (k n : Nat) : Option WriteMark :=
  (marksOf s k n).foldl (fun (l : Option WriteMark) m => match l with
    | none => some m
    | some x => if x.nth < m.nth then some m else some x) none

/-- The hard partition of a thread, command, task or stream front-end. -/
def agentPart (s : State) (a : AgentId) : Option (BitVec 4) :=
  match a, a.family with
  | .stream n, _ => (s.streams.find? (fun e => e.2.serial == n)).map (fun e => e.2.part)
  | _, some f => corePart s f.1
  | _, none => none

/-- Two agents lie within a scope of each other (R361): 0 core, 1 plot, 2 partition, 3 device, 4 system. -/
def sameScope (s : State) (scope : Nat) (a b : AgentId) : Bool :=
  if scope ≥ 3 then true else
  match a.family, b.family with
  | some x, some y =>
    if scope = 0 then x == y
    else if scope = 1 then x.2 == y.2
    else corePart s x.1 == corePart s y.1
  | _, _ => scope == 2 && (a == .sower || b == .sower || ((agentPart s a).isSome && agentPart s a == agentPart s b))

/-- A core that reads a value remembers the fences before its write, for its next fence with an acquire part (R362). -/
def learn (s : State) (w : Who) (k n : Nat) : State :=
  match w.agent with
  | .thread c _ =>
    let new := ((marksOf s k n).flatMap (fun m => m.fences)).filter (fun f => f.agent != w.agent)
    if new.isEmpty then s
    else s.updCore c (fun x => { x with seen := new.foldl (fun l f => if l.contains f then l else l ++ [f]) x.seen })
  | _ => s

/-- The identity of the invocation that a core works for. -/
def invSerial (s : State) (k : Nat) : Nat := match coreInv s k with
  | none => 0
  | some i => i.serial

def invBindings (s : State) (k : Nat) : Nat := match coreInv s k with
  | none => 0
  | some i => i.bindings

/-- An agent id of R410: kind, core, SEQ or record number, lane, stream or port. -/
def agentId (kind core seq n : Nat) : BitVec 48 :=
  BitVec.ofNat 48 (kind % 16 * 2 ^ 44 + coreY core % 32 * 2 ^ 37 + coreX core % 32 * 2 ^ 32 + seq % 65536 * 65536 + n % 65536)

/-- No agent. -/
def agentNone : BitVec 48 := agentId 15 0 0 0

/-- The control thread of core k. -/
def whoThread (s : State) (k : Nat) : Who :=
  let c := coreAt s k
  { agent := .thread k (invSerial s k), core := k, mcb := c.bound.getD 0, edges := c.edges, region := c.region,
    arrivals := c.arrivals, bindings := invBindings s k, setter := agentId 0 k 0 0, fences := c.relFences }

/-- A command of core k. All its writes lie in region 0 (R363). -/
def whoCmd (s : State) (k : Nat) (c : Cmd) : Who :=
  let x := coreAt s k
  { agent := .command k (invSerial s k) c.ord, core := k, mcb := x.bound.getD 0, edges := c.edges, region := 0,
    arrivals := x.arrivals, bindings := invBindings s k, setter := agentId (1 + c.eng.toNat) k c.seq.toNat 0, eng := some c.eng,
    counting := if c.eng = 2 then .beat else .lines }

/-- A tile task running on core k. Its family is that of the core that posted it (R359). -/
def whoTask (s : State) (k : Nat) (t : TaskCtx) : Who :=
  { agent := .task t.task.core (invSerial s k) t.task.n, core := k, mcb := (coreAt s k).bound.getD 0, edges := t.edges,
    region := 0, arrivals := (coreAt s t.task.core).arrivals, bindings := invBindings s k,
    setter := agentId 5 k t.task.n 0, eng := some 1 }

/-- The front-end of stream n. -/
def whoStream (n : Nat) (x : Stream) : Who :=
  { agent := .stream x.serial, core := 0, mcb := x.mcb, edges := x.edges, region := x.region, arrivals := 0, bindings := 0,
    setter := agentId 7 0 0 n, strm := some n }

/-- The Sower, for a block's own queue, in its present region. -/
def whoSower (s : State) (mcb : Nat) : Who :=
  { agent := .sower, core := 0, mcb := mcb, edges := EdgeSet.none, region := s.sowerRegion, arrivals := 0, bindings := 0,
    setter := agentId 8 0 0 0 }

/-- An external writer. -/
def whoExternal (port : Nat) : Who :=
  { agent := .external, core := 0, mcb := 0, edges := EdgeSet.none, region := 0, arrivals := 0, bindings := 0,
    setter := agentId 9 0 0 port }

/-- What a release of core k's thread gives an acquirer: its edge and the recorded set (R363, R364). -/
def threadEdges (s : State) (k : Nat) : EdgeSet :=
  let c := coreAt s k
  (EdgeSet.one (.thread k (invSerial s k)) c.region).join c.recorded

/-- A release closes the current region (R363). -/
def closeRegion (s : State) (k : Nat) : State := s.updCore k (fun c => { c with region := c.region + 1 })

/-- Core k's thread takes edges. -/
def acquire (s : State) (k : Nat) (e : EdgeSet) : State := s.updCore k (fun c => { c with edges := c.edges.join e })

/-- What a fork from core k's thread gives a command or task: its edge and its whole edge set (R362, R364). -/
def forkEdges (s : State) (k : Nat) : EdgeSet := (threadEdges s k).join (coreAt s k).edges

/-- What the completion of a command gives: its edge and its whole edge set. -/
def commandEdges (s : State) (k : Nat) (c : Cmd) : EdgeSet := (EdgeSet.one (.command k (invSerial s k) c.ord) 0).join c.edges

end Sys2Proof.Machine
end

