-- ==== Sys2Proof/Machine/Rings.lean ====
section
/-!
DEFINITION. The four rings of R433: their entries, their place in host memory at RINGS, what software has consumed of them, and the signals that
they send (R428). The places within RINGS are a DESIGN CHOICE: the rings stand one after the other in the order of R433's table, each with 64 bytes
that hold its head word (written by software) at offset 0 and its tail word at offset 8, and then 256 entries.
-/
namespace Sys2Proof.Machine

/-- An entry added to a ring of 256: a full ring drops it and counts it (R433). -/
def Ring.push (r : Ring) (e : List Byte) : Ring :=
  if r.entries.length < 256 then { r with entries := r.entries ++ [e], signals := r.signals + 1 }
  else { r with dropped := r.dropped + 1 }

/-- The n oldest entries of a ring have been consumed. -/
def Ring.consume (r : Ring) (n : Nat) : Ring := { r with entries := r.entries.drop n, taken := r.taken + Min.min n r.entries.length }

/-- The bytes of an entry of ring n: a stop record (R391), or a queue entry (R90). -/
def ringEntry (n : Nat) : Nat := if n < 2 then 128 else 4096

/-- The offset of ring n from RINGS. -/
def ringPlace : Nat → Nat
  | 0 => 0
  | n + 1 => ringPlace n + 64 + 256 * ringEntry n

/-- PASID and RINGS of the interfaces of a partition that have set RINGS; RINGS = 0 names no rings (DESIGN CHOICE). -/
def ringIfcs (s : State) (part : Nat) : List (BitVec 20 × W64) :=
  s.ifcs.filterMap (fun e => e.2.assigned.bind (fun a => if a.1.toNat = part && e.2.rings != 0 then some (a.2, e.2.rings) else none))

/-- The key of a byte of ring n in an interface's host memory. -/
def ringKey (x : BitVec 20 × W64) (n off : Nat) : Nat := physKey 2 x.1.toNat (x.2 + w64 (ringPlace n + off)).toNat

/-- Entries of ring n that every interface of the partition has consumed, by the ring's head words. -/
def ringTaken (s : State) (part n : Nat) (r : Ring) : Nat :=
  match ringIfcs s part with
  | [] => 0
  | xs => xs.foldl (fun least x => Min.min least ((w64 (memNat s.mem (ringKey x n 0) 8) - w64 r.taken).toNat)) r.entries.length

/-- A partition's rings without what software has consumed. -/
def consumed (s : State) (part : Nat) (p : Partition) : Partition :=
  let upTo := fun n (r : Ring) => r.consume (ringTaken s part n r)
  { p with
    faultRing := upTo 0 p.faultRing, killRing := upTo 1 p.killRing, missRing := upTo 2 p.missRing, slowRing := upTo 3 p.slowRing }

/-- The lookup-miss ring has room (R433). -/
def missRoom (s : State) (part : Nat) : Bool := decide ((consumed s part (partAt s part)).missRing.entries.length < 256)

/-- How often the four rings of R433 have signalled. -/
def Partition.signals (p : Partition) : Nat := p.faultRing.signals + p.killRing.signals + p.missRing.signals + p.slowRing.signals

/-- The entries that ring n has gained are written to an interface's host memory, and its tail word after them. -/
def writeRing (x : BitVec 20 × W64) (n : Nat) (old new : Ring) (s : State) : State :=
  let first := old.taken + old.entries.length
  let added := new.entries.drop old.entries.length
  if added.isEmpty then s
  else
    let put := fun (s : State) (i : Nat) => putBytes s none (ringKey x n (64 + ringEntry n * ((first + i) % 256))) (added.getD i [])
    putBytes ((List.range added.length).foldl put s) none (ringKey x n 8) (leBytes 8 (first + added.length))

/-- What a partition's rings have gained, written for an interface. -/
def writeRings (old new : Partition) (s : State) (x : BitVec 20 × W64) : State :=
  writeRing x 3 old.slowRing new.slowRing (writeRing x 2 old.missRing new.missRing
    (writeRing x 1 old.killRing new.killRing (writeRing x 0 old.faultRing new.faultRing s)))

/-- Entries go to a partition's rings, which signal the vector of each interface of the partition (R428). The rings hold the same entries for every
interface of the partition, each at its own RINGS (DESIGN CHOICE). -/
def State.updRings (s : State) (part : Nat) (f : Partition → Partition) : State :=
  let s := s.updPart part (consumed s part)
  let t := s.updPart part f
  let n := (partAt t part).signals - (partAt s part).signals
  let t := (ringIfcs s part).foldl (writeRings (partAt s part) (partAt t part)) t
  { t with
    ifcs := t.ifcs.map (fun e =>
      if n != 0 && e.2.assigned.map (fun a => a.1.toNat) == some part then (e.1, { e.2 with msix := e.2.msix + n }) else e) }

end Sys2Proof.Machine
end

