-- ==== Sys2Proof/Machine/Waits.lean ====
section
/-!
DEFINITION. Waits: the clocks that count them (R460, R461), the wait records of R410 with their setters (R411), and the counters of R173
that held cycles add to.
-/
namespace Sys2Proof.Machine

/-- The core that MBDST names (R132). -/
def mailboxDest (t : Thread) : Nat := 32 * fieldNat t.mbdst 8 5 + fieldNat t.mbdst 0 5

/-- The clock of an operating point in units of 10 MHz (R460). -/
def pointRate (p : BitVec 3) : Nat :=
  match p.toNat with
  | 0 => 85
  | 1 => 105
  | 2 => 110
  | 3 => 125
  | 4 => 140
  | _ => 150

/-- The clock of core k: a plot that spans islands runs at the slowest of them (R461). -/
def clockRate (s : State) (k : Nat) : Nat :=
  let cores := match (coreAt s k).bound with
    | none => [k]
    | some m => k :: (mcbAt s m).plot
  cores.foldl (fun r c => Min.min r (pointRate (islandAt s (islandOf c)).point)) 150

/-- The longest time of the next dt ns in which some island of a list has its clock stopped (R460). -/
def stopTime (s : State) (islands : List Nat) (dt : Nat) : Nat :=
  islands.foldl (fun t i => Max.max t (Min.min dt ((islandAt s i).stopped - s.pt))) 0

/-- The islands of core k and of its plot. -/
def plotIslands (s : State) (k : Nat) : List Nat :=
  (islandOf k :: (match (coreAt s k).bound with
    | none => []
    | some m => (mcbAt s m).plot.map islandOf)).eraseDups

/-- A change of point has stopped the clock of core k (R460); a plot that spans islands stops with the slowest (R461). -/
def clockStopped (s : State) (k : Nat) : Bool := stopTime s (plotIslands s k) 1 != 0

/-- The clock of a partition's slowest island (R461). -/
def slowestRate (s : State) (p : Nat) : Nat :=
  ((List.range 16).filter (fun i => (islandAt s i).part == some (BitVec.ofNat 4 p))).foldl (fun r i => Min.min r (pointRate (islandAt s i).point)) 150

/-- The time of a number of cycles at a clock. -/
def nsOf (rate cycles : Nat) : Nat := ceilDiv (cycles * 100) rate

/-- Cycles of core k in a time. -/
def cyclesOf (s : State) (k ns : Nat) : Nat := ns * clockRate s k / 100

/-- The 32 bytes of a wait record (R410). -/
def waitRecordBytes (ptend cycles : Nat) (setter waiter : BitVec 48) (fkind out flag : Nat) : List Byte :=
  leBytes 32 (flag % 2 ^ 48 + out % 4 * 2 ^ 58 + fkind % 16 * 2 ^ 60 + waiter.toNat * 2 ^ 64 + setter.toNat * 2 ^ 112 +
    Min.min cycles (2 ^ 32 - 1) * 2 ^ 160 + ptend % 2 ^ 64 * 2 ^ 192)

/-- Adds a wait record to a partition's wait ring; a full ring, or none, loses it (R410). -/
def pushWait (s : State) (part : Nat) (bs : List Byte) : State :=
  let p := partAt s part
  let n := p.waits.entries.length
  if n < p.waitRing.2 / 32 then
    (putBytes s none (physKey 1 0 (p.waitRing.1 + 32 * n)) bs).updPart part (fun p =>
      { p with waits := { p.waits with entries := p.waits.entries ++ [bs] } })
  else s.updPart part (fun p => p.bump 4)

/-- FLAG of a full/empty word or line: space code and physical address. -/
def flagOf (key : Nat) : Nat := keySpace key % 16 * 2 ^ 44 + keyAddr key % 2 ^ 44

/-- FKIND of a hold that is itself a flag wait. -/
def Hold.fkind (h : Hold) : Option Nat :=
  match h.kind with
  | .flag => some 0
  | .barrier => some 1
  | .port => some 2
  | .slot => some 3
  | _ => none

/-- FLAG of a hold that is a flag wait. -/
def Hold.flagField (h : Hold) : Nat := if h.kind = .flag || h.kind = .barrier then flagOf h.flag else h.flag

/-- The flag wait that stands while a word holds: FKIND, FLAG and beginning. A wait that a resend carries on began with its first send
(R205). -/
def Hold.flagWait (h : Hold) : Option (Nat × Nat × Nat) :=
  match h.fkind with
  | some f => some (f, h.flagField, (h.wait.map (·.2.2)).getD h.since)
  | none => h.wait

/-- Where the word of a flag wait lies now: where its form waits, or by the entries as they stand once its grant has lapsed (R205). -/
def Hold.flagKey (h : Hold) (s : State) (k : Nat) : Nat :=
  match h.place with
  | none => h.flag
  | some (obj, off, r) =>
    if h.kind = .flag || h.kind = .barrier then r.key
    else (((coreAt s k).bound.bind (fun m => (peekPlaces s m obj off 1).head?)).map (·.1)).getD r.key

/-- The agent that a full/empty word's mark or a barrier line's names for the wait of a hold. -/
def flagSetter (pick : BarrierMark → BitVec 48) (s : State) (k : Nat) (h : Hold) : BitVec 48 :=
  let key := h.flagKey s k
  match h.flagWait with
  | some (0, _, _) => ((mapFind s.feMark (key / 8)).map (·.setter)).getD agentNone
  | some (1, _, _) =>
    let moved := h.place.bind (fun p => mapFind s.barsAt (p.2.2.extKey * 65536 + p.2.1 % 65536))
    (((mapFind s.bars (key / 64)).or moved).map pick).getD agentNone
  | _ => agentNone

/-- The setter of R411 of a hold's wait, from the state in which it is satisfied. A port wait with `lease` 1 is one for room. -/
def setterOf (s : State) (k : Nat) (h : Hold) : BitVec 48 :=
  let c := coreAt s k
  match h.kind with
  | .slot => (c.slot h.flag).setter
  | .port =>
    let first := fun (q : List QueueWord) => (q.head?.map (fun w => agentId 0 w.src 0 0)).getD agentNone
    if h.flag = 63 then agentId 0 (mailboxDest c.th) 0 0
    else if h.flag = 62 then first c.qi
    else if h.flag = 61 then agentId 0 k 0 0
    else if h.flag = 60 then first c.qv
    else if h.lease = 1 then agentId 0 ((neighbour k (h.flag - 56)).getD k) 0 0
    else first (c.port (h.flag - 56))
  | _ => flagSetter (·.setter) s k h

/-- The wait record of a hold of core k that ends with an outcome: 0 satisfied, 1 withdrawn, 2 ended by a kill or fence. The
setter is that of the state `pre` in which the wait is satisfied. -/
def recordHold (pre s : State) (k out : Nat) (h : Hold) : State :=
  match h.flagWait with
  | none => s
  | some (f, flag, since) =>
    let setter := if out = 0 then setterOf pre k h else agentNone
    let part := ((coreAt pre k).bound.map (fun m => (mcbAt pre m).part.toNat)).getD 0
    pushWait s part (waitRecordBytes (localPt s k) (cyclesOf s k (s.pt - since)) setter (agentId 0 k 0 0) f out flag)

/-- The core counter that a hold's cycles add to (R173). -/
def Hold.counter (h : Hold) : Option Nat :=
  match h.kind with
  | .port => some 4
  | .engineQueue => some 5
  | .parked => if h.issued then some 6 else none
  | .eqFence => some 7
  | _ => none

/-- The stalled cycles of a hold are counted (R173). -/
def countHold (s : State) (k : Nat) (h : Hold) : State :=
  match h.counter with
  | none => s
  | some n => s.updCore k (fun c => c.bumpCounter n (cyclesOf s k (s.pt - h.since)))

/-- Core k's hold ends with an outcome: its wait is recorded, its cycles are counted, and the core holds no more. -/
def dropHold (pre s : State) (k out : Nat) : State :=
  match (coreAt s k).hold with
  | none => s
  | some h => (countHold (recordHold pre s k out h) k h).updCore k (fun c => { c with hold := none })

/-- The flag wait of a hoarded st.ef ends (R205, R410): from the state in which it is satisfied. Its FLAG is a GSRAM address. -/
def endHoardWait (pre s : State) (k out : Nat) (h : Hoard) : State :=
  match h.wait with
  | some (since, flag) =>
    let setter := if out = 0 then ((mapFind pre.feMark (flag / 8)).map (·.setter)).getD agentNone else agentNone
    let part := ((coreAt pre k).bound.map (fun m => (mcbAt pre m).part.toNat)).getD 0
    pushWait s part (waitRecordBytes (localPt s k) (cyclesOf s k (s.pt - since)) setter (agentId 0 k 0 0) 0 out flag)
  | none => s

/-- Core k's command x waits for a tile state or for room in a queue port (R410): a wait that ends is recorded. Core k's own pop makes room in qv and
qc (R411). -/
def recordCmdWait (s : State) (k : Nat) (x : Cmd) (out : Nat) (w : Nat × Nat × Nat) : State :=
  match (coreAt s k).bound with
  | none => s
  | some m =>
    let setter := if out ≠ 0 then agentNone else if w.1 = 3 then ((coreAt s k).slot w.2.1).setter else agentId 0 k 0 0
    pushWait s (mcbAt s m).part.toNat (waitRecordBytes (localPt s k) (cyclesOf s k (s.pt - w.2.2)) setter
      (agentId (1 + x.eng.toNat) k x.seq.toNat 0) w.1 out w.2.1)

/-- Every standing wait of core k's command x ends. -/
def endCmdWaits (s : State) (k : Nat) (x : Cmd) (out : Nat) : State := x.waits.foldl (fun s w => recordCmdWait s k x out w) s

/-- A stall on a port or a slot is over when its word goes on; a form at its controller that goes no further is withdrawn. -/
def Hold.outcome (h : Hold) : Nat := if h.kind = .port || h.kind = .slot then 0 else 1

/-- Where issue stops, a form at its controller is withdrawn and a stalled word is stopped before it has any effect (R128, R221), with an
outcome of its wait (R410); parked and sent accesses are not touched (R390). -/
def cutHold (s : State) (k out : Nat) : State :=
  match (coreAt s k).hold with
  | none => s
  | some h => if h.fkind.isSome then dropHold s s k out else s

end Sys2Proof.Machine
end

