-- ==== Sys2Proof/Machine/Faults.lean ====
section
/-!
DEFINITION. Raising, routing and recording faults (R131, R383 to R393): the monad of a word's meaning, the report of a
fault to its core, stop records, and the start of a kill.
-/
namespace Sys2Proof.Machine

/-- Why a word or a command's step does not go through: a fault, a wait, or a place that does not exist. -/
inductive Stop where
  | fault (f : FaultRec)
  | wait (h : Hold)
  | hard (f : Fault)
  deriving DecidableEq, Repr

/-- The meaning of a word: it reads and changes the state, or stops. -/
abbrev M := EStateM Stop State

/-- A fault of a class of R43 with its subcode and FADDR. -/
def raise {α : Type} (cls sub addr : Nat) : M α := throw (.fault { cls := cls, sub := sub, addr := w64 addr })

/-- A wait. The word that waits is filled in by the step that ran it. -/
def waitOn {α : Type} (kind : WaitKind) (flag : Nat := 0) (lease : Nat := 0) (until_ : Nat := 0) (extent : Nat := 0) : M α :=
  throw (.wait { kind := kind, ins := .exit, since := 0, flag := flag, lease := lease, until_ := until_, extent := extent })

/-- The core whose word or command is running. -/
def self : M Nat := return (← get).turn
def core : M Core := return coreAt (← get) (← get).turn
def thread : M Thread := return (← core).th
def updCore (f : Core → Core) : M Unit := modify (fun s => s.updCore s.turn f)
def updThread (f : Thread → Thread) : M Unit := updCore (fun c => { c with th := f c.th })

/-- CAUSE (R131). -/
def causeWord (cls sub code : Nat) (imp : Bool) (eng : Option (BitVec 2)) : W64 :=
  w64 (cls % 32 + sub % 256 * 2 ^ 8 + (match eng with | none => 0 | some e => e.toNat * 2 ^ 16 + 2 ^ 18) +
    (if imp then 2 ^ 19 else 0) + code % 2 ^ 18 * 2 ^ 32)

/-- CAUSE of a fault. -/
def FaultRec.cause (f : FaultRec) : W64 := causeWord f.cls f.sub 0 f.imp f.eng

/-- The 128 bytes of a stop record (R391). -/
def StopRecord.bytes (r : StopRecord) : List Byte :=
  leBytes 128 (0x5A535450 + r.agent % 16 * 2 ^ 32 + r.reason % 16 * 2 ^ 36 + r.unit % 256 * 2 ^ 40 + coreX r.core * 2 ^ 128 +
    coreY r.core * 2 ^ 136 + r.cause.toNat * 2 ^ 192 + r.skid % 256 * 2 ^ 304 + r.qlen % 256 * 2 ^ 312 +
    r.qhead.toNat * 2 ^ 320 + r.seq.toNat * 2 ^ 336 + r.step % 2 ^ 32 * 2 ^ 352 + r.pc.toNat * 2 ^ 384 +
    r.faddr.toNat * 2 ^ 448 + r.pt % 2 ^ 64 * 2 ^ 512)

/-- The fault among a core's reports that a given agent of R391 raised: an imprecise fault of memory is its thread's (R388). -/
def ownFault (c : Core) (agent : Nat) : Option FaultRec :=
  c.pending.find? (fun f => match f.eng with
    | none => agent == 0
    | some e => f.order != 5 && agent == 1 + e.toNat)

/-- The stop record of the thread of core k, which has not faulted. -/
def threadRecord (s : State) (k reason : Nat) : StopRecord :=
  { pt := localPt s k, faddr := 0, pc := (coreAt s k).th.pc, step := 0, seq := 0, qhead := 0, qlen := 0, skid := 0, cause := 0, core := k,
    unit := 0, reason := reason, agent := 0 }

/-- The stop record of engine e of core k, which has not faulted: its running command, with its oldest and how many it holds. -/
def engineRecord (s : State) (k : Nat) (e : BitVec 2) (reason : Nat) : StopRecord :=
  let c := coreAt s k
  let q := c.cmds.filter (fun x => x.eng == e)
  let r := q.find? (·.started)
  { pt := engPt s k e, faddr := 0, pc := (r.map (·.pc)).getD 0, step := (r.map (·.step)).getD 0, seq := (r.map (·.seq)).getD 0,
    qhead := (q.head?.map (·.seq)).getD (c.seq e), qlen := q.length, skid := 0, cause := 0, core := k, unit := 0, reason := reason,
    agent := 1 + e.toNat }

/-- The micro-PC step of a task (R349): rows retired and, after them, epilogue rows stored. -/
def TaskCtx.stepNo (t : TaskCtx) : Nat := t.rows + Min.min (t.epi - 1) (fieldNat t.task.bits 472 6 + 1)

/-- The stop record of a tile-task record on core k at a step. -/
def recordStop (s : State) (k : Nat) (t : TaskRec) (step reason : Nat) : StopRecord :=
  { pt := engPt s k 1, faddr := 0, pc := t.off, step := step, seq := BitVec.ofNat 16 t.n,
    qhead := 0, qlen := 0, skid := 0, cause := 0, core := k, unit := 0, reason := reason, agent := 5 }

/-- The stop record of the tile task that core k runs, which has not faulted. -/
def taskRecord (s : State) (k : Nat) (t : TaskCtx) (reason : Nat) : StopRecord :=
  recordStop s k t.task t.stepNo reason

/-- The stop record of a transducer lane: the fst.start that its first entry belongs to, and the bytes consumed (R288). -/
def laneRecord (s : State) (l reason : Nat) : StopRecord :=
  let x := laneAt s l
  let core := (x.holder.map (·.2)).getD 0
  let cmd := x.queue.head?.bind (fun e => if e.inv = invSerial s e.core then (coreAt s e.core).cmds.find? (fun y => y.ord == e.cmd) else none)
  { pt := engPt s core 3, faddr := 0, pc := (cmd.map (·.pc)).getD 0, step := (x.queue.head?.map (·.pos)).getD 0, seq := (cmd.map (·.seq)).getD 0,
    qhead := (cmd.map (·.seq)).getD 0, qlen := x.queue.length, skid := 0, cause := 0, core := core, unit := l, reason := reason, agent := 6 }

/-- The stop record of the agent that raised a fault, as it stands: REASON 1 with the fault's CAUSE and FADDR. A fault record that its
raiser has filled keeps the raiser's own. -/
def reportRecord (s : State) (k : Nat) (f : FaultRec) : StopRecord :=
  let r := match f.record, f.eng with
    | some r, _ => r
    | none, none => threadRecord s k 1
    | none, some e => { engineRecord s k e 1 with seq := f.seq, step := f.step }
  { r with faddr := f.addr, cause := f.cause, skid := f.skid, reason := 1 }

/-- The record of an agent of core k, of its own fault where it has one. -/
def ownRecord (s : State) (k agent : Nat) (r : StopRecord) : StopRecord :=
  match ownFault (coreAt s k) agent with
  | none => r
  | some f => { (f.record.getD r) with faddr := f.addr, cause := f.cause, skid := f.skid, reason := 1 }

/-- The records of the tasks that core k posted and that have faulted. -/
def faultedTasks (s : State) (k : Nat) : List StopRecord :=
  ((coreAt s k).pending.filter (fun f => f.order == 5)).filterMap (·.record)

/-- The transducer lanes that a block's invocation holds (R281). -/
def heldLanes (s : State) (m : Nat) : List Nat := (List.range 32).filter (fun l => (laneAt s l).holder.map (·.1) == some m)

/-- The stop records of every agent of a block's plot, in core order: a cut (R391). A core whose thread has retired may still run a tile task. -/
def plotRecords (s : State) (m reason : Nat) : List StopRecord :=
  (mcbAt s m).plot.flatMap (fun k =>
    let task := (coreAt s k).mat.task.toList.map (fun t => taskRecord s k t reason)
    if (coreAt s k).bound != some m then []
    else if (coreAt s k).retired then task ++ faultedTasks s k
    else ownRecord s k 0 (threadRecord s k reason) :: ((List.range 4).map (fun e =>
      ownRecord s k (1 + e) (engineRecord s k (BitVec.ofNat 2 e) reason)) ++ task ++ faultedTasks s k)) ++
  (heldLanes s m).map (fun l => laneRecord s l reason)

def Partition.pushFault (p : Partition) (rs : List StopRecord) : Partition :=
  { p with faultRing := rs.foldl (fun r x => r.push x.bytes) p.faultRing }
def Partition.pushKill (p : Partition) (rs : List StopRecord) : Partition :=
  { p with killRing := rs.foldl (fun r x => r.push x.bytes) p.killRing }

/-- Releases every transducer lane that a block's invocation holds (R281, R393); its entries wait at no other lane either. -/
def releaseLanes (s : State) (m : Nat) : State :=
  (List.range 32).foldl (fun s l =>
    if (laneAt s l).holder.map (·.1) == some m then s.updLane l (fun x => { x with holder := none, queue := [] })
    else if (laneAt s l).queue.any (fun e => (mcbAt s m).inv.any (fun i => i.serial == e.inv)) then
      s.updLane l (fun x => { x with queue := x.queue.filter (fun e => !(mcbAt s m).inv.any (fun i => i.serial == e.inv)) })
    else s) s

/-- A command that a halt stops: a vector or bank load starts again from its first beat (R300, R334), a compressed or
checkpoint copy from the start of its chunk (R252), and the others go on from their next step. -/
def Cmd.rewind (x : Cmd) : Cmd :=
  let fresh := { x with step := 0, done := 0, buf := [], tmp := [] }
  let padded := fun (h : Nat) => (fieldNat (BitVec.ofNat 128 h) 62 17 + 15) / 16 * 16
  if !x.started || x.posting.isSome then x else
  match x.ins with
  | .vld _ _ _ _ _ _ => fresh
  | .vldx _ _ _ _ _ _ => fresh
  | .vldS _ _ _ _ _ _ => fresh
  | .accWr _ _ _ _ => fresh
  | .dtabLd _ _ _ _ => fresh
  | .cpZ _ _ _ _ _ => { x with buf := [], tmp := [] }
  | .cpX _ _ _ _ _ =>
    if (x.args.getD 0 0).getLsbD 1 then
      match x.tmp with
      | 1 :: next :: hdr :: _ => { x with buf := [], tmp := [0, next - padded hdr - 16] }
      | 2 :: next :: hdr :: pos :: _ => { x with done := x.done - pos, buf := [], tmp := [0, next - padded hdr - 16] }
      | _ => x
    else
      match x.tmp with
      | 2 :: _ :: pos :: _ => { x with done := x.done - pos, buf := [], tmp := [] }
      | _ => { x with buf := [], tmp := [] }
  | .cpCk _ _ _ _ _ =>
    match x.tmp with
    | 1 :: chunk :: _ => { x with buf := [], tmp := [0, chunk] }
    | 2 :: chunk :: pos :: _ => { x with done := x.done - pos, buf := [], tmp := [0, chunk] }
    | _ => x
  | _ => x

/-- The halt line reaches the agents of a block's plot (R386): engines stop, and waiting words are withdrawn (R221), their waits with an
outcome (R410). -/
def stopEngines (s : State) (m : Nat) (out : Nat := 1) : State :=
  (mcbAt s m).plot.foldl (fun s k =>
    if (coreAt s k).bound = some m then (cutHold s k out).updCore k (fun c => { c with cmds := c.cmds.map Cmd.rewind }) else s) s

/-- A kill begins (R393): the halt line rises, the cut of its stop records is taken (R391), hoard logs and posted buffers are discarded, and
lanes are released. Queued commands, records and held words stand still, and go when the kill completes. A kill under way keeps its status. -/
def startKill (s : State) (m : Nat) (status : Byte) : State :=
  match (mcbAt s m).inv with
  | none => s
  | some i =>
    if i.kill.isSome then s else
    let s := stopEngines (s.updInv m (fun i => { i with kill := some status, killRecords := plotRecords s m 4 })) m 2
    let s := (mcbAt s m).plot.foldl (fun s k =>
      let s := (coreAt s k).hoard.foldl (fun s h => endHoardWait s s k 2 h) s
      s.updCore k (fun c => { c with hoard := [], posted := [] })) s
    releaseLanes s m

/-- The status of a kill that strikes a block's invocation now: KILLED, or KILLED_IN_SAVE during pre-emption (R393). -/
def killStatus (s : State) (m : Nat) : Byte := if (mcbAt s m).state = 4 then 0x06 else 0x05

/-- The route of a fault class in a block (R43, R385). -/
def routeOf (s : State) (m cls : Nat) : Nat := fieldNat (mcbAt s m).faultpolicy (2 * cls) 2

/-- Reports in the order in which a core takes them (R388). -/
def insertReport : List FaultRec → FaultRec → List FaultRec
  | [], f => [f]
  | g :: rest, f => if f.order < g.order then f :: g :: rest else g :: insertReport rest f

/-- Reports a fault to core k and routes it (R385, R388): pending with the halt line up, held for the control complex, or a
kill. While the handler runs, and during pre-emption, codes 0 and 1 are only held pending. -/
def report (s : State) (k : Nat) (f : FaultRec) : State :=
  match (coreAt s k).bound with
  | none => s
  | some m =>
    let route := routeOf s m f.cls
    let s := if f.cls = 6 then s.countCore k 11 1 else s
    let f : FaultRec := { f with record := some (reportRecord s k f) }
    let s := s.updCore k (fun c => { c with pending := insertReport c.pending f })
    match (mcbAt s m).inv with
    | none => s
    | some i =>
      if i.kill.isSome then s
      else if route = 2 then startKill s m 0x05
      else if (coreAt s k).th.h || i.preempt != .none then s
      else if route = 1 then
        let s := stopEngines (s.updInv m (fun i => { i with held := true })) m
        s.updRings (mcbAt s m).part.toNat (fun p => p.pushFault (plotRecords s m 0))
      else stopEngines (s.updInv m (fun i => { i with faultHalt := true })) m

/-- A late report for the invocation of a serial on core k: it is routed while the invocation holds the core, stands pending in its image while it
is SUSPENDED or being restored (R397, R398), and goes with an invocation that has ended. -/
def reportTo (s : State) (serial k : Nat) (f : FaultRec) : State :=
  if (coreInv s k).any (fun i => i.serial == serial && i.stage != .restore) then report s k f
  else
    match s.mcbs.find? (fun e => e.2.inv.any (fun i => i.serial == serial) && e.2.saved.any (fun p => p.1 == k)) with
    | none => s
    | some e => s.updMcb e.1 (fun b => { b with saved := b.saved.map (fun p =>
        if p.1 == k then
          let f : FaultRec := { f with record := some (reportRecord (s.setCore k p.2) k f) }
          (k, { p.2 with pending := insertReport p.2.pending f })
        else p) })

/-- A precise fault of a word of core k (R36, R385): of the handler's own words it kills, and the thread's stop record tells it (R391). -/
def threadFault (s : State) (k : Nat) (f : FaultRec) : State :=
  if (coreAt s k).th.h then
    match (coreAt s k).bound with
    | none => s
    | some m =>
      let s := if f.cls = 6 then s.countCore k 11 1 else s
      let f : FaultRec := { f with record := some (reportRecord s k f) }
      startKill (s.updCore k (fun c => { c with pending := insertReport c.pending f })) m 0x05
  else report s k f

/-- The halt line of a plot is up (R386). -/
def Inv.halted (i : Inv) : Bool :=
  i.faultHalt || i.held || i.debugStop || i.kill.isSome || i.preempt != .none

/-- Core k's thread may run a word: it is bound, its plot has reached its first fetch, the halt line is down and its clock runs. A parked load that a save recorded is
sent again before the first fetch (R404). -/
def threadRuns (s : State) (k : Nat) : Bool :=
  match coreInv s k with
  | none => false
  | some i =>
    (i.stage == .running || (i.stage == .fetch && (coreAt s k).hold.any (fun h => h.kind == .parked && h.until_ == 1))) && !i.halted &&
    !(coreAt s k).retired && (coreAt s k).bound.isSome && !clockStopped s k

end Sys2Proof.Machine
end

