-- ==== Sys2Proof/Machine/Translate.lean ====
section
/-!
DEFINITION. Translation (R183 to R191): directory and extent entries, walks with their HORIZON writes, the translation
caches, and the checks of a capability (R177, R181, R182, R209).
-/
namespace Sys2Proof.Machine

/-- What an access does at a page. -/
structure Access where
  write : Bool
  /-- A copy-engine access through a ZVIEW capability. -/
  zview : Bool := false
  /-- The access replays, so it walks afresh (R201). -/
  fresh : Bool := false
  deriving DecidableEq, Repr

/-- How a page serves an access (R185). -/
inductive Serve where
  | fault (cls sub : Nat)
  | park
  /-- Under effective WB, a read. -/
  | single
  | lease
  deriving DecidableEq, Repr

/-- The rows of R185 that the directory entry decides, after checks 1 and 2 of R183 and before the extent entry is read. -/
def serveDir (d : BitVec 256) (sp page : Nat) (a : Access) : Option Serve :=
  if !dirWellFormed d then some (.fault 7 4)
  else if !dirPresent d then some (.fault 8 0)
  else if dirSp d ≠ sp then some (.fault 7 4)
  else if page ≥ dirNpages d then some (.fault 8 1)
  else if dirCompressed d && !a.zview then some (.fault 1 0)
  else if dirRo d && a.write then some (.fault 0 2)
  else none

/-- The rows of R185 that the extent entry decides. -/
def serveExt (d : BitVec 256) (x : W64) (a : Access) : Serve :=
  if !extWellFormed d x then .fault 7 4
  else if !extPresent x || dirArriving d || extArriving x then .park
  else if (dirWb d || extWb x) && a.write then .park
  else if dirWb d || extWb x then .single
  else .lease

/-- HORIZON raised to at least e (R188). -/
def raiseHorizon (s : State) (m e : Nat) : State :=
  s.updMcb m (fun b => { b with horizon := w64 (Max.max b.horizon.toNat e) })

/-- Drops the expired entries of a cache and the entry of a page, and puts a new one in front (R187, R191). -/
def cachePut (l : List XEntry) (size now : Nat) (e : XEntry) : List XEntry :=
  (e :: l.filter (fun x => decide (now < x.expiry) && !(x.table == e.table && x.obj == e.obj && x.page == e.page))).take size

/-- The unexpired entry of a page. -/
def cacheFind (l : List XEntry) (now table obj page : Nat) : Option XEntry :=
  l.find? (fun x => x.table == table && x.obj == obj && x.page == page && decide (now < x.expiry))

/-- The local copy of package time of whoever walks. -/
def walkerPt (s : State) (w : Who) : Nat :=
  if w.strm.isSome || w.agent == .sower then s.pt
  else
    match w.eng with
    | some e => engPt s w.core e
    | none => localPt s w.core

/-- The first- and second-level entries that serve a walker (R187). -/
def cachesOf (s : State) (w : Who) : List XEntry :=
  match w.strm with
  | some n => ((mapFind s.streams n).map (·.xtlb)).getD []
  | none => if w.agent == .sower then [] else (coreAt s w.core).xtlb ++ (islandAt s (islandOf w.core)).xtlb2

/-- Installs a granted entry at both levels. A device without beacons keeps no NEPOL translation (R448). -/
def cacheInstall (s : State) (w : Who) (now : Nat) (e : XEntry) : State :=
  if s.nepolRefuses && (dirSp e.dir == 4 || dirSp e.dir == 5) then s else
  match w.strm with
  | some n => s.updStream n (fun x => { x with xtlb := cachePut x.xtlb 256 now e })
  | none =>
    if w.agent == .sower then s else
    (s.updCore w.core (fun c => { c with xtlb := cachePut c.xtlb 256 now e })).updIsland (islandOf w.core)
      (fun i => { i with xtlb2 := cachePut i.xtlb2 4096 now e })

/-- A mapping that differs from what a cache holds for a page, counts apart. -/
def XEntry.differs (e : XEntry) (d : BitVec 256) (x : W64) : Bool := e.dir != d || fieldNat e.ext 0 48 != fieldNat x 0 48

/-- A walk that grants a single use takes a mapping that differs out of both levels (R191). -/
def cacheDrop (s : State) (w : Who) (obj page : Nat) (d : BitVec 256) (x : W64) : State :=
  let t := (mcbAt s w.mcb).otPhys
  let keep := fun (l : List XEntry) => l.filter (fun e => !(e.table == t && e.obj == obj && e.page == page && e.differs d x))
  match w.strm with
  | some n => s.updStream n (fun y => { y with xtlb := keep y.xtlb })
  | none =>
    if w.agent == .sower then s
    else (s.updCore w.core (fun c => { c with xtlb := keep c.xtlb })).updIsland (islandOf w.core) (fun i => { i with xtlb2 := keep i.xtlb2 })

/-- Where the byte at an offset of a page lies. A RWIN address is the NEPOL address of its home (R179). -/
def place (s : State) (m : Nat) (d : BitVec 256) (x : W64) (off expiry page : Nat) (leased : Bool := true) : Res :=
  let addr := extPpn x * 65536 + off % 65536
  { key := physKey (if dirSp d = 5 then 4 else dirSp d) (pageDev s m d) addr, sp := dirSp d, addr := addr, dir := d, ext := x,
    extKey := extKeyOf d page, expiry := expiry, leased := leased }

/-- A walk (R188): HORIZON is raised before it reads, and again before it grants a lease. In the host-assisted mode it is a request to the control
complex, which does the same and returns the same expiry (R451). The confirming read sees the
same entries, because no other agent moves within a step. -/
def walk (w : Who) (obj sp off : Nat) (a : Access) : M Res := do
  let s ← get
  let page := off / 65536
  let t := walkerPt s w
  modify (fun s => { s.count (mcbAt s w.mcb).part.toNat 7 1 with hostWalks := s.hostWalks + if s.mode.getLsbD 1 then 1 else 0 })
  modify (fun s => raiseHorizon s w.mcb (t + 1000))
  if (mapFind s.bad (dirKey (mcbAt s w.mcb) obj / 64)).isSome then
    raise 7 (mapGet 1 s.bad (dirKey (mcbAt s w.mcb) obj / 64) - 1) off
  let d := readDir s w.mcb obj
  match serveDir d sp page a with
  | some (.fault cls sub) => raise cls sub off
  | _ => pure ()
  if (mapFind s.bad (extKeyOf d page / 64)).isSome then raise 7 (mapGet 1 s.bad (extKeyOf d page / 64) - 1) off
  let x := w64 (memNat s.mem (extKeyOf d page) 8)
  match serveExt d x a with
  | .fault cls sub => raise cls sub off
  | .park => waitOn .parked 0 0 0 (extKeyOf d page)
  | .single =>
    modify (fun s => cacheDrop s w obj page d x)
    return place s w.mcb d x off (t + 1000) page false
  | .lease =>
    let n := Min.min (dirLx d) (mcbAt s w.mcb).leasemax.toNat
    if n = 0 then
      modify (fun s => cacheDrop s w obj page d x)
      return place s w.mcb d x off (t + 1000) page false
    let e := t + 2 ^ (n - 1) * 1000
    modify (fun s => raiseHorizon s w.mcb e)
    modify (fun s => cacheInstall s w t { table := (mcbAt s w.mcb).otPhys, obj := obj, page := page, dir := d, ext := x, expiry := e })
    return place s w.mcb d x off e page

/-- The extent entry at a key leaves its page usable (R201). -/
def extentUsable (s : State) (key : Nat) (write : Bool) : Bool :=
  let x := w64 (memNat s.mem key 8)
  extPresent x && !extArriving x && !(write && extWb x)

/-- The access of an agent that was parked, refused or withdrawn walks afresh (R190, R201, R205). -/
def walksAfresh (s : State) (w : Who) : Bool :=
  match w.agent with
  | .thread k _ => (coreAt s k).hold.any (fun h => h.kind == .parked || h.kind == .refused || h.kind == .flag || h.kind == .barrier)
  | .command k _ n => ((coreAt s k).cmds ++ (coreAt s k).posted).any (fun x => x.ord == n && x.parked.isSome)
  | .task _ _ n =>
    (coreAt s w.core).mat.task.any (fun t => t.parked.isSome) ||
    (mcbAt s w.mcb).inv.any (fun i => i.tasks.any (fun t => t.n == n && t.parked.isSome))
  | .stream _ => (w.strm.bind (fun n => mapFind s.streams n)).any (fun x => x.wait == some .page)
  | _ => false

/-- Where a form waits at its controller, under a grant that has not lapsed there (R205, R220). -/
def heldPlace (s : State) (w : Who) (obj off : Nat) : Option Res :=
  match w.agent with
  | .thread k _ =>
    match (coreAt s k).hold with
    | some h =>
      match h.place with
      | some (o, a, r) =>
        if (h.kind == .flag || h.kind == .barrier) && o == obj && a == off && decide (placePt s r.sp r.addr ≤ r.expiry + 8) then some r
        else none
      | none => none
    | none => none
  | _ => none

/-- The translation of the byte at an offset of an object: through a cached entry, else by a walk. -/
def translate (w : Who) (obj sp off : Nat) (a : Access) : Option XEntry → M Res
  | some e => do
    match serveDir e.dir sp (off / 65536) a with
    | some (.fault cls sub) => raise cls sub off
    | _ => return place (← get) w.mcb e.dir e.ext off e.expiry (off / 65536)
  | none => walk w obj sp off a

/-- Looks a page up in the caches. A miss at each level counts for itself (R419; DESIGN CHOICE: its "both levels" may also mean a miss of
both). -/
def lookCaches (w : Who) (obj page : Nat) : M (Option XEntry) := do
  let s ← get
  let find := fun (l : List XEntry) => cacheFind l (walkerPt s w) (mcbAt s w.mcb).otPhys obj page
  let found := find (cachesOf s w)
  let first := if w.strm.isSome || w.agent == .sower then found else find (coreAt s w.core).xtlb
  let levels := if w.strm.isSome || w.agent == .sower then 1 else 2
  modify (fun s => s.count (mcbAt s w.mcb).part.toNat 6 (if first.isSome then 0 else if found.isSome then 1 else levels))
  return found

/-- Resolves the byte at an offset of an object (R185): where its form waits, through an unexpired cached entry, else by a walk. -/
def resolve (w : Who) (obj sp off : Nat) (a : Access) : M Res := do
  let s ← get
  match heldPlace s w obj off with
  | some r => return r
  | none =>
    let cached ← if a.fresh || walksAfresh s w then pure none else lookCaches w obj (off / 65536)
    let r ← translate w obj sp off a cached
    let s ← get
    if !physExists r.sp r.addr 1 then throw (.hard .noSuchAddress)
    if !physReady s r.sp r.addr then waitOn .parked 0 0 0 r.extKey
    if controllerRefuses s r then waitOn .refused
    return r

/-- An access of n bytes at ea is checked for tag, range, bounds, rights and space (R180, R209, R182, R181, R177). The tag comes before the range of
the address (DESIGN CHOICE: R209 gives it no place). -/
def checkCap (c : Cap) (need : BitVec 12) (ea : Int) (n : Nat) : M Nat := do
  if !c.valid then raise 0 0 (ea % 2 ^ 40).toNat
  if ea < 0 || ea ≥ 2 ^ 40 then raise 0 1 (ea % 2 ^ 40).toNat
  let a := ea.toNat
  if a < c.lo || a + n > c.hi then raise 0 1 (if a < c.lo || a ≥ c.hi then a else c.hi)
  if !c.has need then raise 0 2 a
  if c.sp > 6 then raise 0 3 a
  return a

/-- An object of block m's table is one that some installed block names as OBJTAB (R181): by its number in that block's own table, or by the
place of its first byte, where that block's table begins (R234). -/
def namesTable (s : State) (m obj : Nat) : Bool :=
  s.mcbs.any (fun e => e.2.v && ((e.1 == m && e.2.objtab.obj == obj) ||
    (peekPlaces s m obj 0 1).any (fun p => p.1 == physKey 0 0 e.2.otPhys)))

/-- A store into an object table needs SYS in addition (R181, R214), before the access is resolved (R209). -/
def needSys (w : Who) (c : Cap) (a : Nat) : M Unit := do
  if c.sp = 0 && namesTable (← get) w.mcb c.obj && !c.has permSYS then raise 0 2 a

/-- The XTS keys of a block's key slot (R51); an empty slot holds none, and its keys count as zero (DESIGN CHOICE: R51 gives none). -/
def blockKeys (s : State) (b : Mcb) : BitVec 512 := ((mapFind s.slots b.keyslot.toNat).map (·.xts)).getD 0

/-- What a byte of an object that carries ENC in HBM, HOST or PMEM is encrypted under (R51). -/
def tweakOf (s : State) (m : Nat) (d : BitVec 256) (obj off : Nat) : Option Tweak :=
  if dirEnc d && (dirSp d == 1 || dirSp d == 2 || dirSp d == 3) then some (blockKeys s (mcbAt s m), obj, off / 64) else none

/-- The physical pieces of n bytes of an object: each page resolved, lowest first. -/
def resolveAll (w : Who) (obj sp : Nat) (a : Access) : List (Nat × Nat) → M (List (Nat × Nat × Res))
  | [] => pure []
  | (off, n) :: rest => do
    let r ← resolve w obj sp off a
    let more ← resolveAll w obj sp a rest
    return (off, n, r) :: more

end Sys2Proof.Machine
end

