-- ==== Sys2Proof/Machine/Queue.lean ====
section
/-!
DEFINITION. What every access does beside its bytes, a watchpoint's match and a page's count; and the command queue of a block (R90, R91, R203): its
descriptor, the Sower's writes of queue entries, and the notices that take the lookup-miss ring instead (R451, R452).
-/
namespace Sys2Proof.Machine

-- Watchpoints (R416, R417)

/-- The kinds of access that a watchpoint selects (R416). -/
inductive WatchKind where
  | read | write | sync
  deriving DecidableEq, Repr

/-- Watchpoint n of a partition watches byte k for an access of a kind by agent w (R416, R417). -/
def watches (wp : BitVec 128) (w : Who) (kind : WatchKind) (k : Nat) : Bool :=
  wp.getLsbD 0 && (match kind with | .read => wp.getLsbD 1 | .write => wp.getLsbD 2 | .sync => wp.getLsbD 3) &&
  (wp.getLsbD 7 || (checkedAgent w.agent && fieldNat wp 46 14 == w.mcb)) &&
  physKey (fieldNat wp 60 4) 0 (fieldNat wp 64 36 * 16) == k / 16 * 16 && wp.getLsbD (112 + k % 16)

/-- The offset of the first of n bytes that some watchpoint of a partition matches. -/
def watchFind (s : State) (part : Nat) (w : Who) (kind : WatchKind) (off k n : Nat) : Option Nat :=
  ((List.range n).find? (fun i => (partAt s part).wps.any (fun e => watches e.2 w kind (k + i)))).map (off + ·)

/-- The partition whose watchpoints an agent meets. -/
def watchPart (s : State) (w : Who) : Nat := (mcbAt s w.mcb).part.toNat

/-- What a watchpoint finds in an access: the first matching offset, for an agent of an invocation; else WPEXT counts
(R417). -/
def watchAccess (w : Who) (kind : WatchKind) (off : Nat) (r : Res) (n : Nat) : M (Option Nat) := do
  let s ← get
  match watchFind s (watchPart s w) w kind off r.key n with
  | none => return none
  | some a =>
    if checkedAgent w.agent then return some a
    else
      modify (fun s => s.updPart (watchPart s w) (fun p => p.bump 3))
      return none

-- Access counts (R202)

/-- Increments of a page's count are on their way, one for each of n lines. -/
def sendCounts (s : State) (w : Who) (obj page n : Nat) (r : Res) : State :=
  let thr := match (mcbAt s w.mcb).inv with
    | none => 0
    | some i => if checkedAgent w.agent then i.cntthr.toNat else 0
  { s with counts := s.counts ++ List.replicate n ⟨w.mcb, thr, obj, page, r.dir, r.extKey⟩ }

/-- Lines of n bytes at an offset that no earlier piece of the same access has touched. -/
def freshLines (start : Option Nat) (off k n : Nat) : Nat :=
  (linesOf k n).length - (if start.any (fun a => decide (a < off)) && off % 64 != 0 && n != 0 then 1 else 0)

/-- Counts an access of n bytes at a resolved place: once per line, or once per beat (R202). The increments perform on their own (R379). -/
def countAccess (s : State) (w : Who) (obj off n : Nat) (r : Res) : State :=
  if dirCnt r.dir then
    sendCounts s w obj (off / 65536) (match w.counting with | .lines => freshLines w.start off r.key n | .beat => 1 | .apart => 0) r
  else s

-- Queues

/-- A queue-entry descriptor (R90). -/
def mkDesc (kind : Nat) (noreply w : Bool) (plen port keyslot : Nat) (reqid arg : W64) (nonce : BitVec 96) (sport : W16)
    (sip : BitVec 128) (tci : W16) (smac : BitVec 48) : BitVec 512 :=
  BitVec.ofNat 512 (kind % 256 + (if noreply then 2 ^ 8 else 0) + (if w then 2 ^ 9 else 0) + plen % 65536 * 2 ^ 16 +
    port % 256 * 2 ^ 32 + keyslot % 4096 * 2 ^ 48 + reqid.toNat * 2 ^ 64 + arg.toNat * 2 ^ 128 + nonce.toNat * 2 ^ 192 +
    sport.toNat * 2 ^ 288 + sip.toNat * 2 ^ 320 + tci.toNat * 2 ^ 448 + smac.toNat * 2 ^ 464)

def descKind (d : BitVec 512) : Nat := fieldNat d 0 8
def descNoreply (d : BitVec 512) : Bool := d.getLsbD 8
def descW (d : BitVec 512) : Bool := d.getLsbD 9
def descPlen (d : BitVec 512) : Nat := fieldNat d 16 16
def descArg (d : BitVec 512) : W64 := field d 128 64

/-- Entries of a block's queue ring: the length that QUEUE gives, in 4,096-byte entries. -/
def Mcb.entriesN (b : Mcb) : Nat := (b.queue.hi - b.queue.lo) / 4096

/-- The queue is full (R91). -/
def Mcb.queueFull (b : Mcb) : Bool :=
  let n := b.entriesN
  n == 0 || (b.qtail.toNat + 2 * n - b.qhead.toNat) % (2 * n) == n

/-- An index advanced modulo twice the entries (R90). -/
def Mcb.advance (b : Mcb) (i : W32) : W32 := BitVec.ofNat 32 ((i.toNat + 1) % (2 * b.entriesN))

/-- A 4,096-byte entry: its bytes beyond the payload are open (R90), each a value of its own by the counter n. -/
def padEntry (n : Nat) (bs : List Byte) : List Byte :=
  bs ++ (List.range (4096 - bs.length)).map (fun i => Config.queuePad (4096 * n + i))

/-- The Sower's write of the bytes of entry idx through a block's own table, in its present region. -/
def sowerPut (m idx : Nat) (bs : List Byte) : M Unit := do
  let s ← get
  let b := mcbAt s m
  let w := whoSower s m
  let off := 4096 * (idx % b.entriesN)
  let r ← resolve w b.queue.obj 0 off { write := true }
  modify (fun s => countAccess (markBytes (stampLines (putBytes s none r.key bs) w w.region r.key bs.length) w EdgeSet.none r.key bs.length)
    w b.queue.obj off bs.length r)
  let _ ← watchAccess w .write off r bs.length

/-- A write by the Sower: it waits, after the writes before it, while its page is not usable (R185). A write that faults leaves nothing; the
binding then fails (R53). -/
def sowerWrite (s : State) (m idx : Nat) (bs : List Byte) : State :=
  let later := { s with sowerLog := s.sowerLog ++ [(m, idx, bs)] }
  if s.sowerLog.any (fun e => e.1 == m) then later else
  match (sowerPut m idx bs).run s with
  | .ok _ s => s
  | .error (.wait _) s => { s with sowerLog := s.sowerLog ++ [(m, idx, bs)] }
  | .error _ s => s

/-- The Sower's oldest waiting write of a block is tried again. -/
def sowerReplay (s : State) (m : Nat) : State :=
  match s.sowerLog.find? (fun e => e.1 == m) with
  | none => s
  | some e =>
    match (sowerPut m e.2.1 e.2.2).run s with
    | .error (.wait _) s => s
    | .ok _ s => { s with sowerLog := s.sowerLog.erase e }
    | .error _ s => { s with sowerLog := s.sowerLog.erase e }

/-- A queue entry accepted for a block that is not FAILED and whose queue has room (R45): written at QTAIL, and IDLE becomes
QUEUED. It arrived at a package time of its own (R106); the Sower's write is a release to the first fetch (R362). -/
def enqueueAt (s : State) (m : Nat) (desc : BitVec 512) (payload : List Byte) (msg : Option Message) (edges : EdgeSet)
    (stream : Option Nat) (arrived : Nat) : State :=
  let edges := edges.join (EdgeSet.one .sower s.sowerRegion)
  let s := sowerWrite { s with free := s.free + 1 } m (mcbAt s m).qtail.toNat
    (padEntry s.free (leBytes 64 desc.toNat ++ payload))
  let e : QEntry := { desc := desc, msg := msg, arrived := arrived, edges := edges, stream := stream, serial := s.nextSerial }
  { s.updMcb m (fun b =>
      { b with qtail := b.advance b.qtail, entries := b.entries ++ [e], state := if b.state = 0 then 1 else b.state }) with
    nextSerial := s.nextSerial + 1, sowerRegion := s.sowerRegion + 1 }

/-- An entry that arrives now. -/
def enqueue (s : State) (m : Nat) (desc : BitVec 512) (payload : List Byte) (msg : Option Message) (edges : EdgeSet)
    (stream : Option Nat) : State := enqueueAt s m desc payload msg edges stream s.pt

/-- An entry written to a partition's lookup-miss ring (R89, R451, R452). -/
def missRing (s : State) (part : Nat) (bs : List Byte) : State :=
  { s.updRings part (fun p => { p with missRing := p.missRing.push (padEntry s.free bs) }) with free := s.free + 1 }

/-- The notification of R203 for a page whose count has reached its threshold: a KIND 3 entry of the NTFY block's queue, or
an entry of the lookup-miss ring under MODE.MIGR (R451). It is dropped and counted when it cannot be taken. -/
def notifyCount (s : State) (m : Nat) (d : BitVec 256) (obj page : Nat) : State :=
  let desc := mkDesc 3 true false 0 0xFF 0 (w64 m) (w64 (obj * 2 ^ 24 + page)) 0 0 0 0 0
  let part := (mcbAt s m).part.toNat
  let t := dirNtfy d
  let b := mcbAt s t
  if s.mode.getLsbD 3 then
    if missRoom s part then missRing s part (leBytes 64 desc.toNat)
    else s.updPart part (fun p => p.bump 1)
  else if !b.v || b.state == 6 || b.queueFull then s.updPart part (fun p => p.bump 1)
  else enqueue s t desc [] none EdgeSet.none none

/-- An increment performs at its extent entry (R202, R203): it saturates, and the exact threshold notifies. -/
def performIncrement (s : State) (c : PendingCount) : State :=
  let k := c.extKey + 6
  let n := memNat s.mem k 2
  if n ≥ 65535 then s else
  let s := markDirty { s with mem := memWrite s.mem k (leBytes 2 (n + 1)) } (keySpace k) (keyAddr k)
  if n + 1 == c.thr then notifyCount s c.mcb c.dir c.obj c.page else s

/-- The nth increment performs, unless an earlier one is for the same page (R379). -/
def performCount (s : State) (n : Nat) : State :=
  match s.counts[n]? with
  | none => s
  | some c =>
    if (s.counts.take n).any (fun d => d.extKey == c.extKey) then s
    else performIncrement { s with counts := s.counts.eraseIdx n } c

end Sys2Proof.Machine
end

