-- ==== Sys2Proof/Machine/Reply.lean ====
section
/-!
DEFINITION. Frames that the part sends with the pauses that hold them (R77 to R79), invocation headers (R83), key slots (R52) and replies
(R85).
-/
namespace Sys2Proof.Machine

/-- The physical port of a port number (R77): part j of physical port k is 8·k + j. A number below 8 is that physical port, or a part of port 0
where port 0 is broken out into more parts (DESIGN CHOICE: R77 gives those parts the numbers of whole ports). -/
def physicalPort (s : State) (port : Nat) : Nat :=
  if 8 ≤ port then port / 8 % 8 else if port < mapGet 1 s.breakout 0 then 0 else port

/-- Parts that a port's physical port is broken out into: 1, 2 or 4. -/
def portParts (s : State) (port : Nat) : Nat := mapGet 1 s.breakout (physicalPort s port)

/-- A port number names a port or breakout part that stands. -/
def portStands (s : State) (port : Nat) : Bool :=
  if 8 ≤ port then decide (port < 64) && decide (1 < portParts s port) && decide (port % 8 < portParts s port)
  else port == physicalPort s port && decide (portParts s port = 1) || decide (port < mapGet 1 s.breakout 0)

/-- The time of a number of quanta of 512 bit times on a port of 1,600 Gb/s or a part of it (R77, R78), in nanoseconds rounded up. -/
def quantaTime (s : State) (port quanta : Nat) : Nat := ceilDiv (quanta * 512 * portParts s port) 1600

/-- A frame of a priority is sent, or waits while a peer pauses its priority or an earlier frame of it waits (R78). -/
def transmit (s : State) (port prio : Nat) (f : TxFrame) : State :=
  let p := portAt s port
  if s.pt < mapGet 0 p.pausedUntil prio || p.held.any (fun e => e.1 == prio) then
    s.updPort port (fun p => { p with held := p.held ++ [(prio, f)] })
  else { s with tx := s.tx ++ [f] }

/-- The frames of a port whose pauses are over are sent. -/
def releaseTx (s : State) (port : Nat) : State :=
  let p := portAt s port
  let free := fun (e : Nat × TxFrame) => decide (mapGet 0 p.pausedUntil e.1 ≤ s.pt)
  { s.updPort port (fun p => { p with held := p.held.filter (fun e => !free e) }) with tx := s.tx ++ (p.held.filter free).map (·.2) }

/-- A received pause frame is honoured (R78): each priority that it names stops for its quanta, or resumes at 0. -/
def honourPause (s : State) (port : Nat) (enable : Byte) (quanta : List W16) : State :=
  releaseTx (s.updPort port (fun p => { p with
    pausedUntil := (List.range 8).foldl (fun m i =>
      if enable.getLsbD i then mapSet 0 m i (s.pt + quantaTime s port (quanta.getD i 0).toNat) else m) p.pausedUntil })) port

/-- A frame that a port drops is counted there. -/
def dropAtPort (s : State) (port : Nat) : State := s.updPort port (fun p => { p with drops := p.drops + 1 })

/-- The sum of bytes taken as big-endian 16-bit words. -/
def beWordSum : List Byte → Nat
  | [] => 0
  | [a] => 256 * a.toNat
  | a :: b :: rest => 256 * a.toNat + b.toNat + beWordSum rest

/-- The 16-bit words of an address summed. -/
def addrSum (v6 : Bool) (a : BitVec 128) : Nat :=
  ((List.range (if v6 then 8 else 2)).map (fun i => fieldNat a (16 * i) 16)).foldl (· + ·) 0

/-- The UDP checksum over pseudo-header, header and payload, with 0 sent as all ones (R79). -/
def udpChecksum (v6 : Bool) (sip dip : BitVec 128) (sport dport : W16) (payload : List Byte) : W16 :=
  let len := 8 + payload.length
  let n := addrSum v6 sip + addrSum v6 dip + 17 + 2 * len + sport.toNat + dport.toNat + beWordSum payload
  let folded := if n = 0 then 0 else (n - 1) % 65535 + 1
  BitVec.ofNat 16 (if folded = 65535 then 65535 else 65535 - folded)

/-- The datagram that answers a message (R79, R85, R358): to where it came from, on its VLAN with its PCP, DSCP and ECN, from its destination
addresses and the partition's INVPORT. -/
def answerFrame (s : State) (m : Message) (payload : List Byte) : UdpFrame :=
  let sport := (partAt s m.part.toNat).invport
  { port := m.port, tagged := m.tagged, tci := m.tci, src := m.dmac, dst := m.smac, v6 := m.v6, sip := m.dip, dip := m.sip, ttl := 64,
    tos := m.tos, ident := 0, df := !m.v6, sport := sport, dport := m.sport,
    checksum := udpChecksum m.v6 m.dip m.sip sport m.sport payload, payload := payload }

/-- The datagram of a RoCEv2 packet that answers one from a peer (R79): to where that came from, with its priority and ECN field. -/
def roceAnswer (from_ : RoceSource) (op len : Nat) (data : List Byte) : UdpFrame :=
  let payload := Config.rocePayload from_.qp.toNat op 0 len data
  { port := from_.port, tagged := from_.vlan != 0, tci := BitVec.ofNat 16 (from_.pcp.toNat * 2 ^ 13 + from_.vlan.toNat), src := from_.dmac,
    dst := from_.smac, v6 := from_.v6, sip := from_.dip, dip := from_.sip, ttl := 64, tos := from_.tos &&& 3, ident := 0, df := !from_.v6,
    sport := Config.rocePort from_.qp.toNat, dport := 4791,
    checksum := udpChecksum from_.v6 from_.dip from_.sip (Config.rocePort from_.qp.toNat) 4791 payload, payload := payload }

/-- The address that a port sends from: the first of the family that the ingress table gives its pairs (R80, R81); 0 where it gives none. -/
def portAddress (s : State) (port : Nat) (v6 : Bool) : BitVec 128 :=
  ((s.ingress.filter (fun e => e.pair.port == port)).flatMap (fun e =>
    if v6 then e.pair.ipv6 else e.pair.ipv4.map (fun a => BitVec.ofNat 128 (0xFFFF * 2 ^ 32 + a.toNat)))).headD 0

/-- An address that the descriptor form writes as IPv4 (R90). -/
def isMapped4 (a : BitVec 128) : Bool := a.toNat / 2 ^ 32 == 0xFFFF

/-- The datagram of a RoCEv2 request to the peer of a queue pair (R79, R275): untagged, with DSCP and ECN 0 (DESIGN CHOICE: no rule gives the
frame of a request). -/
def roceRequest (s : State) (qp op : Nat) (remote : W64) (len : Nat) (data : List Byte) : UdpFrame :=
  let p : QpPeer := ((mapFind s.qps qp).map (·.peer)).getD { mac := 0, ip := 0, port := 0, qpn := 0, remoteKey := 0 }
  let v6 := !isMapped4 p.ip
  let sip := portAddress s p.port v6
  let payload := Config.rocePayload qp op remote.toNat len data
  { port := p.port, tagged := false, tci := 0, src := (portAt s p.port).mac, dst := p.mac, v6 := v6, sip := sip, dip := p.ip, ttl := 64, tos := 0,
    ident := 0, df := !v6, sport := Config.rocePort qp, dport := 4791,
    checksum := udpChecksum v6 sip p.ip (Config.rocePort qp) 4791 payload, payload := payload }

/-- A RoCEv2 packet goes out by its port under its priority, and waits for a pause as every frame does (R78). -/
def State.transmitRdma (s : State) (u : UdpFrame) (f : UdpFrame → TxFrame) : State := transmit s u.port (fieldNat u.tci 13 3) (f u)

/-- The 48-byte header of a message, as a number (R2, R83). -/
def Message.header (m : Message) : BitVec 384 := BitVec.ofNat 384 (leNat (m.payload.take 48))

def reqMagic (h : BitVec 384) : Nat := fieldNat h 0 32
def reqVer (h : BitVec 384) : Nat := fieldNat h 32 8
def reqNoreply (h : BitVec 384) : Bool := h.getLsbD 40
def reqPlen (h : BitVec 384) : Nat := fieldNat h 48 16
def reqFuncid (h : BitVec 384) : W64 := field h 64 64
def reqId (h : BitVec 384) : W64 := field h 128 64
def reqNonce (h : BitVec 384) : BitVec 96 := field h 192 96
def reqKeyslot (h : BitVec 384) : Nat := fieldNat h 288 12
def reqArg (h : BitVec 384) : W64 := field h 320 64

/-- The header passes the checks of R84 but for the key slot and the tag, and its datagram has the length of R82. -/
def Message.headerOk (m : Message) : Bool :=
  let h := m.header
  m.payload.length == 48 + reqPlen h + 16 && reqMagic h == 0x5A494E56 && reqVer h == 1 && fieldNat h 41 7 == 0 &&
  fieldNat h 300 20 == 0 && !h.getLsbD 287

/-- The GCM key of a slot that is enabled for a partition (R52, R84). -/
def slotKey (s : State) (slot : Nat) (part : BitVec 4) : Option (BitVec 256) :=
  match mapFind s.slots slot with
  | some k => if k.parts.getLsbD part.toNat then some k.gcm else none
  | none => none

/-- The header of a reply (R85): from the request's, with its own magic, bit 95 of the nonce set, the status and the length
of the payload. -/
def replyHeader (h : BitVec 384) (status : Byte) (plen : Nat) : BitVec 384 :=
  BitVec.ofNat 384 (0x5A52504C + 2 ^ 32 + plen % 65536 * 2 ^ 48 + (reqFuncid h).toNat * 2 ^ 64 + (reqId h).toNat * 2 ^ 128 +
    (reqNonce h ||| (1 <<< 95)).toNat * 2 ^ 192 + reqKeyslot h * 2 ^ 288 + status.toNat * 2 ^ 320)

/-- Sends the encrypted reply of a message (R85), unless its header has NOREPLY. -/
def sendReply (s : State) (m : Message) (status : Byte) (payload : List Byte) : State :=
  let h := m.header
  if reqNoreply h then s
  else
    match mapFind s.slots (reqKeyslot h) with
    | none => s
    | some k =>
      let r := replyHeader h status payload.length
      let out := Config.gcmSeal k.gcm (reqNonce r) (leBytes 48 r.toNat) payload
      transmit s m.port (fieldNat m.tci 13 3) (.reply status (answerFrame s m (leBytes 48 r.toNat ++ out.1 ++ leBytes 16 out.2.toNat)))

/-- The reply of an entry, when it came in a message. -/
def QEntry.answer (e : QEntry) (s : State) (status : Byte) (payload : List Byte) : State :=
  match e.msg with
  | none => s
  | some m => sendReply s m status payload

/-- The reply arbiter decides the reply of a block's invocation: the first decision stands (R85, R427). -/
def decideReply (s : State) (m : Nat) (status : Byte) (payload : List Byte) : State :=
  match (mcbAt s m).inv with
  | none => s
  | some i =>
    match i.reply with
    | .decided _ => s
    | .due => i.head.answer (s.updInv m (fun i => { i with reply := .decided status })) status payload

end Sys2Proof.Machine
end

