-- ==== Sys2Proof/Machine/Frames.lean ====
section
/-!
DEFINITION. From a frame to a queue entry: Ethernet, IP and UDP as the ports handle them (R77 to R81), ingress queues and flow
control (R87), and the Sower's stages up to the lookup (R82 to R89).
-/
namespace Sys2Proof.Machine

/-- A message that the Sower drops is counted for its partition (R84). -/
def dropAtSower (s : State) (part : Nat) : State := s.updPart part (fun p => { p with drops := p.drops + 1 })

/-- The ready bit of a port is that of its physical port (R77, R457). -/
def portReadyBit (s : State) (port : Nat) : Nat := physicalPort s port

def frameTci (f : Frame) : W16 := f.tags.headD 0
def frameVlan (f : Frame) : BitVec 12 := field (frameTci f) 0 12
/-- The ingress priority (R78). -/
def framePcp (f : Frame) : BitVec 3 := field (frameTci f) 13 3

/-- The solicited-node multicast MAC address of an IPv6 address. -/
def solicitedMac (a : BitVec 128) : BitVec 48 := BitVec.ofNat 48 (0x3333FF000000 + a.toNat % 2 ^ 24)
/-- The solicited-node multicast address itself. -/
def solicitedIp (a : BitVec 128) : BitVec 128 := BitVec.ofNat 128 (0xFF0200000000000000000001FF000000 + a.toNat % 2 ^ 24)
def broadcastMac : BitVec 48 := BitVec.allOnes 48

/-- The destination MAC filter (R81). -/
def macAccepted (p : Port) (pair : IngressPair) (f : Frame) : Bool :=
  f.dst == p.mac ||
  (f.dst == broadcastMac && (match f.body with | .arp _ _ _ => true | _ => false)) ||
  pair.ipv6.any (fun a => f.dst == solicitedMac a)

/-- An entry of a slow-path receive ring (R433). -/
def slowEntry (m : Message) (bs : List Byte) : List Byte :=
  let d := mkDesc 1 false false bs.length m.port 0 0 0 0 m.sport m.sip m.tci m.smac
  leBytes 64 d.toNat ++ bs.take 4032

/-- A frame goes to its partition's slow-path receive ring, if one is configured (R80, R81). -/
def slowPath (s : State) (m : Message) (bs : List Byte) : State :=
  if (partAt s m.part.toNat).slowPath then
    { s.updRings m.part.toNat (fun p => { p with slowRing := p.slowRing.push (padEntry s.free (slowEntry m bs)) }) with
      free := s.free + 1 }
  else dropAtPort s m.port

/-- Message bytes of an ingress queue. -/
def Port.bytes (p : Port) : Nat := p.queue.foldl (fun n m => n + m.payload.length) 0

/-- The pause thresholds and the resume thresholds of R87. -/
def Port.high (p : Port) : Bool := decide (384 ≤ p.queue.length) || decide (3 * 2 ^ 20 ≤ p.bytes)
def Port.low (p : Port) : Bool := decide (p.queue.length < 256) && decide (p.bytes < 2 * 2 ^ 20)

/-- An invocation message enters its port's ingress queue (R87). While the Sower is not ready, or its partition is being reset,
it is dropped and counted (R440, R457). -/
def queueMessage (s : State) (m : Message) (pcp : BitVec 3) : State :=
  let p := portAt s m.port
  if !s.rdy.getLsbD 36 || (partAt s m.part.toNat).scrubbing then dropAtSower s m.part.toNat
  else if 512 ≤ p.queue.length ∨ 4 * 2 ^ 20 < p.bytes + m.payload.length then dropAtPort s m.port
  else
    let q := { p with queue := p.queue ++ [m] }
    if !p.high && q.high && p.pfc.getLsbD pcp.toNat then
      -- a MAC control frame waits for no pause
      { s.updPort m.port (fun _ => { q with paused := q.paused ||| (1 <<< pcp.toNat) }) with
        tx := s.tx ++ [.pfc m.port pcp true] }
    else s.updPort m.port (fun _ => q)

/-- A queue that has fallen below the resume thresholds resumes what it paused (R87). -/
def resumePort (s : State) (port : Nat) : State :=
  let p := portAt s port
  if p.low && p.paused != 0 then
    let ps := (List.range 8).filter (fun i => p.paused.getLsbD i)
    { s.updPort port (fun p => { p with paused := 0 }) with
      tx := s.tx ++ ps.map (fun i => .pfc port (BitVec.ofNat 3 i) false) }
  else s

/-- A UDP datagram of a mapped pair is routed by its destination port (R80). Datagrams for the RoCEv2 engine arrive as
steps of that engine, which look the pair up in the same table. -/
def routeUdp (s : State) (m : Message) (dport : W16) (pcp : BitVec 3) : State :=
  if dport = (partAt s m.part.toNat).invport then queueMessage s m pcp
  else if dport = 4791 then s
  else slowPath s m m.payload

/-- An IPv4 address as the descriptor holds it (R90). -/
def mapped4 (a : BitVec 32) : BitVec 128 := BitVec.ofNat 128 (0xFFFF * 2 ^ 32 + a.toNat)

/-- A frame of a mapped pair that its MAC filter accepts (R79, R81). Any ICMPv6 message may come to the solicited-node address of one of the
pair's addresses, as it must for a solicitation (DESIGN CHOICE: R81 words the IP filter without that address). -/
def routeFrame (s : State) (port : Nat) (f : Frame) (pair : IngressPair) (part : BitVec 4) : State :=
  let m : Message :=
    { port := port, part := part, smac := f.src, dmac := f.dst, tci := frameTci f, tagged := !f.tags.isEmpty, v6 := false, sip := 0,
      dip := 0, sport := 0, tos := 0, payload := [] }
  match f.body with
  | .pause => s
  | .pfc _ _ => s
  | .arp request target sender =>
    if request && pair.ipv4.contains target then
      transmit s port (framePcp f).toNat (.arp port (frameTci f) target (portAt s port).mac f.src)
    else slowPath s { m with sip := mapped4 sender } f.raw
  | .ipv4 h l4 =>
    if h.ihl ≠ 5 ∨ h.moreFragments ∨ h.fragmentOffset ≠ 0 ∨ !h.sumOk ∨ !pair.ipv4.contains h.dst then dropAtPort s port
    else
      let m := { m with sip := mapped4 h.src, dip := mapped4 h.dst, tos := h.tos }
      match l4 with
      | .udp sport dport sumZero sumOk payload =>
        if sumZero || sumOk then routeUdp s { m with sport := sport, payload := payload } dport (framePcp f) else dropAtPort s port
      | _ => slowPath s m f.raw
  | .ipv6 h l4 =>
    let m := { m with v6 := true, sip := h.src, dip := h.dst, tos := h.tos }
    match l4 with
    | .udp sport dport sumZero sumOk payload =>
      if h.nextHeader == 17 && pair.ipv6.contains h.dst && !sumZero && sumOk then
        routeUdp s { m with sport := sport, payload := payload } dport (framePcp f)
      else dropAtPort s port
    | .solicitation target =>
      if h.nextHeader ≠ 58 ∨ !(pair.ipv6.any (fun a => h.dst == a || h.dst == solicitedIp a)) then dropAtPort s port
      else if pair.ipv6.contains target then
        transmit s port (framePcp f).toNat (.advertisement port (frameTci f) target (portAt s port).mac true false f.src h.src)
      else slowPath s m f.raw
    | .icmpv6 =>
      if h.nextHeader ≠ 58 ∨ !(pair.ipv6.any (fun a => h.dst == a || h.dst == solicitedIp a)) then dropAtPort s port
      else slowPath s m f.raw
    | .other => dropAtPort s port

/-- FRAME_RECEIVE (R77 to R81). -/
def execFrameReceive (port : Nat) (f : Frame) (s : State) : Host.Outcome State Fault Refusal :=
  .next (
    if !portStands s port then s
    else if !s.rdy.getLsbD (portReadyBit s port) ∨ f.length > 9216 ∨ f.serviceTag ∨ f.tags.length > 1 then dropAtPort s port
    else
      match f.body with
      | .pause => s.updPort port (fun p => { p with pauses := p.pauses + 1 })
      | .pfc enable quanta => honourPause s port enable quanta
      | _ =>
        match s.ingress.find? (fun e => e.pair.port == port && e.pair.vlan == frameVlan f) with
        | none => dropAtPort s port
        | some e => if macAccepted (portAt s port) e.pair f then routeFrame s port f e.pair e.part else dropAtPort s port)

-- The Sower

/-- The Sower's period between messages, in tenths of a nanosecond: 48 cycles at 1.25 GHz (R86). -/
def acceptPeriod : Nat := 384

/-- The port whose turn it is: the next in rotation by port number with a message (R87). -/
def nextPort (s : State) : Option Nat :=
  let full := (s.ports.filter (fun e => !e.2.queue.isEmpty)).map (·.1)
  (full.find? (fun p => decide (s.rotation < p))).or full.head?

/-- SOWER_ACCEPT_MESSAGE (R87): the head message of a queue, checked under R82 and R84 but for its tag. -/
def execSowerAcceptMessage (s : State) : Host.Outcome State Fault Refusal :=
  .next (
    if s.sower.isSome ∨ 10 * s.pt < s.nextAccept ∨ !s.rdy.getLsbD 36 then s
    else
      match nextPort s with
      | none => s
      | some p =>
        match (portAt s p).queue with
        | [] => s
        | m :: rest =>
          let s := resumePort (s.updPort p (fun x => { x with queue := rest })) p
          let s := { s with rotation := p, nextAccept := Max.max s.nextAccept (10 * s.pt) + acceptPeriod }
          if m.payload.length ≠ 48 + reqPlen m.header + 16 then s
          else if m.headerOk && (slotKey s (reqKeyslot m.header) m.part).isSome then { s with sower := some (m, none) }
          else dropAtSower s m.part.toNat)

/-- GCM_HEADER_CHECK (R82, R84). -/
def execGcmHeaderCheck (s : State) : Host.Outcome State Fault Refusal :=
  .next (
    match s.sower with
    | some (m, none) =>
      let h := m.header
      let n := reqPlen h
      let plain := (slotKey s (reqKeyslot h) m.part).bind (fun key =>
        Config.gcmOpen key (reqNonce h) (m.payload.take 48) ((m.payload.drop 48).take n)
          (BitVec.ofNat 128 (leNat ((m.payload.drop (48 + n)).take 16))))
      match plain with
      | some p => { s with sower := some (m, some (p, s.pt)) }
      | none => dropAtSower { s with sower := none } m.part.toNat
    | _ => s)

/-- The block that a FUNCID finds in a partition: its table holds every installed block in one of its two buckets (R88). -/
def lookup (s : State) (part : BitVec 4) (funcid : W64) : Option Nat :=
  (s.mcbs.find? (fun e => e.2.v && e.2.funcid == funcid && e.2.part == part)).map (·.1)

/-- The descriptor of a message's entry (R90). -/
def Message.desc (m : Message) : BitVec 512 :=
  let h := m.header
  mkDesc 1 (reqNoreply h) false (reqPlen h) m.port (reqKeyslot h) (reqId h) (reqArg h) (reqNonce h) m.sport m.sip m.tci m.smac

/-- An entry of the lookup-miss ring (R89, R433). -/
def missEntry (m : Message) (plain : List Byte) : List Byte := leBytes 64 m.desc.toNat ++ plain

/-- MCB_LOOKUP (R85, R88 to R91, R45): the outcomes in the order of R85. The entry arrived when its GCM check completed (R106). A frozen partition answers QUEUE_FULL (R438). -/
def execMcbLookup (s0 : State) : Host.Outcome State Fault Refusal :=
  .next (
    match s0.sower with
    | some (m, some (plain, arrived)) =>
      let s := { s0 with sower := none }
      let h := m.header
      if reqPlen h > 4032 then sendReply s m 0x04 []
      else
        match lookup s m.part (reqFuncid h) with
        | none => if s.mode.getLsbD 0 then missRing s m.part.toNat (missEntry m plain) else sendReply s m 0x03 []
        | some b =>
          let x := mcbAt s b
          if x.keyslot.toNat ≠ reqKeyslot h then sendReply s m 0x08 []
          else if x.state = 6 then sendReply s m 0x02 []
          else if x.queueFull || (partAt s m.part.toNat).frozen then sendReply s m 0x01 []
          else enqueueAt s b m.desc plain (some m) EdgeSet.none none arrived
    | _ => s0)

end Sys2Proof.Machine
end

