-- ==== Sys2Proof/Machine/Ops.lean ====
section
/-!
DEFINITION. The named operations of every agent over memory: plain reads and writes with their translation, race check,
line check, watchpoints and access counts; the hoard log; and taking an exception and returning from it (R135, R176).
-/
namespace Sys2Proof.Machine

/-- Reports a watchpoint match of core k (R418): that of its own word is precise, so EPC is the word after it, and a handler's own word is
killed for it (R385). -/
def watchThread (k sub : Nat) (imp : Bool) : Option Nat → M Unit
  | none => pure ()
  | some a =>
    modify (fun s =>
      if imp then report s k { cls := 9, sub := sub, addr := w64 a, imp := true, order := 6 }
      else threadFault s k { cls := 9, sub := sub, addr := w64 a })

/-- A match of a posted access of core k at an offset: the report comes with the acknowledgement (R423). A second match finds the first report
there before its own. -/
def struckBy (s : State) (k a : Nat) : State :=
  let f : FaultRec := { cls := 9, sub := 2, addr := w64 a, imp := true, order := 6 }
  match (coreAt s k).struck with
  | some (g, _) => report (report (s.updCore k (fun c => { c with struck := none })) k g) k f
  | none => s.updCore k (fun c => { c with struck := some (f, s.pt) })

/-- A match of a posted access of core k. -/
def strike (k : Nat) : Option Nat → M Unit
  | none => pure ()
  | some a => modify (fun s => struckBy s k a)

/-- While a report is on its way, one further atomic-class access of the core performs, and is counted; a later one is held (R423). -/
def strikeGate (k : Nat) : M Unit := do
  match (coreAt (← get) k).struck with
  | none => pure ()
  | some (f, t) =>
    if f.skid ≥ 1 then waitOn .struck
    modify (fun s => s.updCore k (fun c => { c with struck := some ({ f with skid := 1 }, t) }))

/-- A fault of memory that is found after core k's word has completed (R213, R231): imprecise, with FADDR the first byte of the access. -/
def lateFault (k addr : Nat) : Option (Nat × Nat) → M Unit
  | none => pure ()
  | some (cls, sub) => modify (fun s => report s k { cls := cls, sub := sub, addr := w64 addr, imp := true, order := 6 })

/-- The check of R369 on every line of a resolved piece; FADDR is the line's first byte as an object offset (R372). -/
def raceCheck (w : Who) (write : Bool) (off : Nat) (r : Res) (n : Nat) : M Unit := do
  match raceLine (← get) w r.key n with
  | none => pure ()
  | some l => raise 6 (if write then 1 else 0) (off + l * 64 - r.key)

/-- A line whose check fails raises the integrity fault at the first byte read of it (R213, R247). -/
def checkLines (off : Nat) (r : Res) (n : Nat) : M Unit := do
  let s ← get
  match (linesOf r.key n).find? (fun l => (mapFind s.bad l).isSome) with
  | none => pure ()
  | some l => raise 7 (mapGet 1 s.bad l - 1) (off + (Max.max (l * 64) r.key - r.key))

/-- The bytes of a resolved piece as agent w reads them. -/
def readPiece (w : Who) (obj off : Nat) (r : Res) (n : Nat) : M (List Byte) := do
  let s ← get
  return viewBytes s (tweakOf s w.mcb r.dir obj off) r.key n

/-- The read of pieces already resolved: race check of a plain read, line check, access count and bytes. -/
def readPieces (w : Who) (race : Bool) (kind : WatchKind) (obj : Nat) : List (Nat × Nat × Res) → M (List Byte × Option Nat)
  | [] => pure ([], none)
  | (off, n, r) :: rest => do
    if race then raceCheck w false off r n
    checkLines off r n
    let bs ← readPiece w obj off r n
    let (more, hit') ← readPieces w race kind obj rest
    modify (fun s => learn (countAccess s w obj off n r) w r.key n)
    let hit ← watchAccess w kind off r n
    return (bs ++ more, hit.or hit')

/-- Bytes whose far side does not answer now: the environment says so, or every link to a peer has failed (R434, R449). -/
def silent (s : State) (k n : Nat) : Bool :=
  s.mute.any (fun d => overlaps d.1 d.2.1 k n && decide (s.pt < d.2.2)) ||
  ((keySpace k == 4 || keySpace k == 5) && s.linksDown == BitVec.allOnes 16)

/-- A place that the environment refuses: the host's answer, or a peer's export table (R212, R446). -/
def denies (s : State) (r : Res) (n : Nat) : Option Nat :=
  if s.hostDeny.any (fun d => overlaps d.1 d.2 r.key n) then some (if r.sp = 4 || r.sp = 5 then 2 else 3) else none

/-- A HOST, PMEM or NEPOL place that refuses an access of n bytes, which faults. -/
def permits (r : Res) (n off : Nat) : M Unit := do
  match denies (← get) r n with
  | none => pure ()
  | some sub => raise 0 sub off

/-- A read or atomic whose far side does not answer yet is sent, and its word waits (R434, R449). -/
def answers (r : Res) (n : Nat) (off : Nat) : M Unit := do
  permits r n off
  if silent (← get) r.key n then waitOn .answer r.key off

/-- A read of HOST passes no posted write of the part (R374, R382). -/
def behindPosted (sp : Nat) : M Unit := do
  if sp = spHOST && (← get).cores.any (fun e => e.2.flight.any (fun f => f.place.sp == spHOST)) then waitOn .hoarded

/-- A read or atomic at a place that the far side serves comes after the writes to its bytes that some core has on their way there: they are visible
within the device (R233, R376). -/
def behindFlights (r : Res) (n : Nat) : M Unit := do
  if decide (2 ≤ r.sp) && (← get).cores.any (fun e => e.2.flight.any (fun f => overlaps f.place.key f.data.length r.key n)) then
    waitOn .hoarded

/-- A read of 16 bytes with the tag of their granule (R158, R217). -/
def loadTagged (w : Who) (race : Bool) (obj sp off : Nat) : M (Cap × Option Nat) := do
  let r ← resolve w obj sp off { write := false }
  behindPosted sp
  behindFlights r 16
  answers r 16 off
  let tag := tagged r.sp && mapGet false (← get).tags (r.key / 16)
  let (bs, hit) ← readPieces w race .read obj [(off, 16, r)]
  return (⟨BitVec.ofNat 128 (leNat bs), tag⟩, hit)

/-- Writes a resolved piece: bytes, stamp of the lines and marks of the bytes, access count. -/
def writePiece (w : Who) (rel : EdgeSet) (region obj off : Nat) (r : Res) (bs : List Byte) : M Unit :=
  modify (fun s =>
    let s := putBytes s (tweakOf s w.mcb r.dir obj off) r.key bs
    let s := stampLines s w region r.key bs.length
    countAccess (markBytes s w rel r.key bs.length) w obj off bs.length r)

/-- The block of single-copy atomicity of a space (R133, R177). -/
def atomSize (sp : Nat) : Nat := if sp = 0 then 64 else if sp = 1 then 32 else 8

/-- The pieces of n bytes at an offset that lie in different atomic blocks, in ascending order (R211). -/
def atomPieces (sp : Nat) : Nat → Nat → Nat → List (Nat × Nat)
  | 0, _, _ => []
  | fuel + 1, off, n =>
    if n = 0 then []
    else
      let k := Min.min n (atomSize sp - off % atomSize sp)
      (off, k) :: atomPieces sp fuel (off + k) (n - k)

/-- The blocks that n bytes can touch, as fuel for `atomPieces`. -/
def atomFuel (n : Nat) : Nat := n / 8 + 2

/-- A resolved piece cut at line ends: each line's check stands for itself (R213). -/
def linePieces : Nat → Nat × Nat × Res → List (Nat × Nat × Res)
  | 0, _ => []
  | fuel + 1, (off, n, r) =>
    if n = 0 then []
    else
      let k := Min.min n (64 - r.key % 64)
      (off, k, r) :: linePieces fuel (off + k, n - k, { r with key := r.key + k, addr := r.addr + k })

/-- Pieces cut at line ends. -/
def byLines (ps : List (Nat × Nat × Res)) : List (Nat × Nat × Res) := ps.flatMap (fun p => linePieces (p.2.1 / 64 + 2) p)

/-- Race checks of every piece of a write, before any performs (R211, R371). -/
def racePieces (w : Who) : List (Nat × Nat × Res) → M Unit
  | [] => pure ()
  | (off, n, r) :: rest => do
    raceCheck w true off r n
    racePieces w rest

/-- The subcode of the integrity fault of a write that a failed check refuses. -/
def badSub (s : State) (r : Res) (n : Nat) : Nat :=
  mapGet 1 s.bad (((linesOf r.key n).find? (fun l => (mapFind s.bad l).isSome)).getD 0) - 1

/-- Writes pieces in ascending order. A partial write of a line that fails its check leaves the line unchanged and matches no watchpoint (R213,
R417): what a watchpoint matched, and the class and subcode of a failed merge, are answered. -/
def writePieces (w : Who) (kind : WatchKind) (obj : Nat) (bs : List Byte) :
    List (Nat × Nat × Res) → M (Option Nat × Option (Nat × Nat))
  | [] => pure (none, none)
  | (off, n, r) :: rest => do
    let s ← get
    if badPartial s r.key n then
      let (hit', _) ← writePieces w kind obj (bs.drop n) rest
      return (hit', some (7, badSub s r n))
    else
      writePiece w EdgeSet.none w.region obj off r (bs.take n)
      let hit ← watchAccess w kind off r n
      let (hit', bad') ← writePieces w kind obj (bs.drop n) rest
      return (hit.or hit', bad')

/-- Resolves the pieces of a store: every piece's faults first; a piece that parks parks the whole store (R211). -/
def resolveStore (w : Who) (obj sp : Nat) (a : Access) : List (Nat × Nat) → M (List (Nat × Nat × Res))
  | [] => pure []
  | (off, n) :: rest => do
    let r ← tryCatch (do return Except.ok (← resolve w obj sp off a)) (fun e => match e with
      | .wait h => if h.kind = .parked then return Except.error h else throw e
      | e => throw e)
    let more ← resolveStore w obj sp a rest
    match r with
    | .ok r => return (off, n, r) :: more
    | .error h => throw (.wait h)

/-- A page that an access parks on moves to the head of its Sprout job's list (R273). -/
def promote (s : State) (extent : Nat) : State :=
  { s with jobs := s.jobs.map (fun j =>
      let mcb := fieldNat j.2.desc 298 14
      let d := readDir s mcb (fieldNat j.2.desc 360 24)
      (j.1, { j.2 with order :=
        match j.2.order.find? (fun p => extKeyOf d p == extent) with
        | none => j.2.order
        | some p => p :: j.2.order.filter (fun q => q != p) })) }

-- The hoard log (R198 to R201)

/-- A hoard-log entry writes some byte of a range of its object. -/
def Hoard.touches (h : Hoard) (off n : Nat) : Bool :=
  overlaps h.off h.data.length off n &&
  (h.mask.isEmpty || (List.range n).any (fun i => decide (h.off ≤ off + i) && h.mask.getD (off + i - h.off) false))

/-- The bytes of an object that a hoard-log entry writes: runs by offset. -/
def Hoard.runs (h : Hoard) : List (Nat × Nat) :=
  if h.mask.isEmpty then [(h.off, h.data.length)]
  else ((List.range h.data.length).filter (fun i => h.mask.getD i false)).map (fun i => (h.off + i, 1))

/-- A contribution has core k among its contributors, as an agent of it. -/
def SwitchEntry.ofCore (e : SwitchEntry) (k : Nat) : Bool :=
  (e.first :: e.more).any (fun p => p.who.core == k && p.who.agent.family.isSome)

/-- Bytes that a contribution combines. -/
def SwitchEntry.size (e : SwitchEntry) : Nat := if e.wide then 8 else 4

/-- Physical ranges that meet. -/
def placesMeet (ps qs : List (Nat × Nat)) : Bool := ps.any (fun p => qs.any (fun q => overlaps p.1 p.2 q.1 q.2))

/-- A write of core k that has not performed overlaps n bytes of an object of block m's table: a hoard-log entry, a write on its way, or a
reduction in the fabric, by the offsets in the object or, through whichever object, by where the bytes lie (R116, R200). -/
def hoardOverlaps (s : State) (k m obj off n : Nat) : Bool :=
  let c := coreAt s k
  c.hoard.any (fun h => (h.cap.obj == obj && h.touches off n) ||
    placesMeet (h.runs.flatMap (fun r => peekPlaces s h.who.mcb h.cap.obj r.1 r.2)) (peekPlaces s m obj off n)) ||
  c.flight.any (fun f => (f.cap.obj == obj && overlaps f.off f.data.length off n) ||
    placesMeet [(f.place.key, f.data.length)] (peekPlaces s m obj off n)) ||
  s.switch.any (fun e => e.ofCore k && placesMeet [(e.first.place.key, e.size)] (peekPlaces s m obj off n))

/-- A later access of the core waits for the earlier write that it overlaps. -/
def waitHoard (k obj off n : Nat) : M Unit := do
  let s ← get
  if hoardOverlaps s k ((coreAt s k).bound.getD 0) obj off n then waitOn .hoarded

/-- Entry i of the capability table of core k's thread (R158), after the earlier writes of the core to it (R200). -/
def loadEntry (w : Who) (k i : Nat) : M (Cap × Option Nat) := do
  let t := (coreAt (← get) k).th.captab
  waitHoard k t.obj (t.lo + 16 * i) 16
  loadTagged w false t.obj t.sp (t.lo + 16 * i)

/-- A word that core k holds at has passed its waits for earlier words, and has been sent: it waits for them no more (R220, R234). -/
def sentBefore (s : State) (k : Nat) : Bool :=
  (coreAt s k).hold.any (fun h => h.issued && (h.kind == .flag || h.kind == .barrier || h.kind == .lease || h.kind == .parked || h.kind == .refused))

/-- A write on its way has not been sent to its far side: none before it, to the spaces that are listed or among the writes themselves, waits
for an answer there. -/
def unsent (s : State) : List Nat → List Flight → Bool
  | _, [] => false
  | sps, f :: rest =>
    f.place.sp < 2 || !(sps.contains f.place.sp || silent s f.place.key f.data.length) || unsent s (f.place.sp :: sps) rest

/-- No earlier write of core k is still to perform in the part's own memory, or to be sent to the far side that performs it (R200, R233): one that
has been sent and not answered is visible within the device, since every read of its bytes comes after it. -/
def logDrained (s : State) (k : Nat) : Bool := (coreAt s k).hoard.isEmpty && !unsent s [] (coreAt s k).flight

/-- Every earlier write of core k has performed where it performs (R233, R242, R376, R377). -/
def farDrained (s : State) (k : Nat) : Bool :=
  (coreAt s k).hoard.isEmpty && (coreAt s k).flight.isEmpty && !s.switch.any (fun e => e.ofCore k)

/-- A release of the core waits for every earlier hoard-log entry, and for the later pieces of its stores (R200); an access whose report is on
its way does not count as performed (R423). -/
def waitLog (k : Nat) : M Unit := do
  let s ← get
  if !logDrained s k then waitOn .hoarded
  if (coreAt s k).struck.isSome then waitOn .struck

/-- The same wait of a word that may be held after it: one that has passed it does not wait again. -/
def waitLogOnce (k : Nat) : M Unit := do
  if !sentBefore (← get) k then waitLog k

/-- The flag wait of a held st.ef goes on from the log (R205, R228): the hold carries it no more. -/
def takeWait (s : State) (k : Nat) (op : HoardOp) : Option (Nat × Nat) × State :=
  match (coreAt s k).hold, op with
  | some h, .storeEmpty =>
    (h.flagWait.map (fun w => (w.2.2, w.2.1)), s.updCore k (fun c => { c with hold := some { h with kind := .parked, wait := none } }))
  | _, _ => (none, s)

/-- Enters a parked write in the hoard log; a full log holds the agent (R199). Its page moves to the head of its Sprout job's list (R273). -/
def hoardPut (w : Who) (op : HoardOp) (cap : Cap) (off : Nat) (bs : List Byte) (extent : Nat) (mask : List Bool := [])
    (tags : List Nat := []) : M Unit := do
  let s ← get
  if (coreAt s w.core).hoard.length ≥ 32 then waitOn .logFull 0 0 0 extent
  let (wait, s) := takeWait s w.core op
  set (promote (((s.countCore w.core 8 1).countCore w.core 9 1).updCore w.core (fun c => { c with hoard := c.hoard ++ [
    { op := op, cap := cap, off := off, data := bs, who := w, extent := extent, since := s.pt, mask := mask, tags := tags, wait := wait }] }))
    extent)

/-- A posted atomic-class access reaches its controller (R423): while a report of its core is on its way, the first one performs and is counted, and
a later one stands at the controller's input. One that goes no further has not reached it. -/
def reachGate (w : Who) (op : HoardOp) (c : Cap) (a : Nat) (bs : List Byte) (x : M Unit) : M Unit := do
  let was := (coreAt (← get) w.core).struck
  if was.any (fun p => decide (1 ≤ p.1.skid)) then
    needSys w c a
    let r ← resolve w c.obj c.sp a { write := true }
    modify (fun s => s.updCore w.core (fun x => { x with flight := x.flight ++ [⟨op, w, c, a, r, bs, a, s.pt⟩] }))
  else
    tryCatch (do strikeGate w.core; x) (fun e => do
      modify (fun s => s.updCore w.core (fun c => { c with struck := was }))
      throw e)

/-- Runs a write; where it parks, it enters the hoard log and completes (R199). -/
def orHoard (w : Who) (op : HoardOp) (cap : Cap) (off : Nat) (bs : List Byte) (x : M Unit) : M Unit :=
  tryCatch x (fun e => match e with
    | .wait h => if h.kind = .parked then hoardPut w op cap off bs h.extent else throw e
    | e => throw e)

/-- No piece of a write is refused. -/
def permitsAll : List (Nat × Nat × Res) → M Unit
  | [] => pure ()
  | (off, n, r) :: rest => do
    permits r n off
    permitsAll rest

/-- Every piece is answered. -/
def answersAll : List (Nat × Nat × Res) → M Unit
  | [] => pure ()
  | (off, n, r) :: rest => do
    answers r n off
    answersAll rest

-- Taking an exception and returning from it

/-- A word that does not go through leaves nothing but what its walks did: HORIZON, the translation caches, the counter banks and the requests to the control complex. -/
def rollBack (s0 s1 : State) : State :=
  let k := s0.turn
  { s0 with
    hostWalks := s1.hostWalks
    cores := mapSet Core.reset s0.cores k { coreAt s0 k with xtlb := (coreAt s1 k).xtlb }
    islands := s1.islands
    parts := s0.parts.map (fun e => (e.1, { e.2 with banks := (partAt s1 e.1).banks }))
    mcbs := s0.mcbs.map (fun e => (e.1, { e.2 with horizon := (mcbAt s1 e.1).horizon })) }

/-- The thread's part of handler entry (R135): what is saved, the cause, H set, and the pc at HANDLER.CUR, through HANDLER as it is now
(R172). -/
def Thread.enter (t : Thread) (cause : W64) (addr epc : W64) : Thread :=
  { t with estatus := t.status, epc := epc, cause := cause, faddr := addr, h := true, pc := w64 t.handler.cur, hcode := t.handler }

/-- A core may enter its handler: it does not run it, and HANDLER is tagged (R385). -/
def canEnter (c : Core) : Bool := !c.th.h && c.th.handler.valid

/-- Handler entry on core k (R135, R385): a core in its handler, or one whose HANDLER is untagged, is killed instead. -/
def handlerEntry (s : State) (k : Nat) (cause addr epc : W64) : State :=
  let c := coreAt s k
  if !canEnter c then
    match c.bound with
    | none => s
    | some m => startKill s m 0x05
  else (dropHold s s k 1).updCore k (fun c => { c with th := c.th.enter cause addr epc })

/-- HCAP takes a stop record (R389). -/
def takesRecord (c : Cap) : Bool :=
  c.valid && c.has permST && c.sp == 0 && c.cur % 64 == 0 && decide (c.lo ≤ c.cur) && decide (c.cur + 128 ≤ c.hi)

/-- The stop record's write: a plain store of the core, each line a piece, that enters the hoard log where it parks. -/
def recordStore (k : Nat) (r : StopRecord) : M Unit := do
  let s ← get
  let c := (coreAt s k).th.hcap
  let w := whoThread s k
  needSys w c c.cur
  waitHoard k c.obj c.cur 128
  orHoard w .store c c.cur r.bytes (do
    let ps ← resolveStore w c.obj 0 { write := true } (atomPieces 0 (atomFuel 128) c.cur 128)
    racePieces w ps
    let out ← writePieces w .write c.obj r.bytes ps
    watchThread k 0 false out.1
    lateFault k c.cur out.2)

/-- The stop record that core k owes goes to HCAP.CUR before the first handler word (R389), where HCAP takes it; it stays owed while its write
must wait, and a write that faults is none. -/
def handlerRecord (s : State) (k : Nat) : State :=
  match (coreAt s k).owed with
  | none => s
  | some r =>
    let paid := fun (s : State) => s.updCore k (fun c => { c with owed := none })
    let back := fun (s1 : State) => { rollBack { s with turn := k } s1 with turn := s.turn }
    if !takesRecord (coreAt s k).th.hcap then paid s
    else
      match (recordStore k r).run s with
      | .ok _ s => paid s
      | .error (.wait _) s1 => back s1
      | .error _ s1 => paid (back s1)

/-- Core k takes its first report (R388, R389): EPC is the word's own address for a precise fault, and else the oldest word
that has not completed; both are the pc. A core that cannot enter its handler is killed with the report still its own. -/
def takeReport (s : State) (k : Nat) : State :=
  match (coreAt s k).pending with
  | [] => s
  | f :: rest =>
    let entry := fun (s : State) => handlerEntry s k f.cause f.addr (f.epc.getD (coreAt s k).th.pc)
    if !canEnter (coreAt s k) then entry s
    else entry (handlerRecord (s.updCore k (fun c => { c with pending := rest, owed := some (reportRecord s k f) })) k)

/-- trapret's part of the thread (R176). -/
def Thread.leave (t : Thread) : Thread := { t with h := t.estatus.getLsbD 0, ae := t.estatus.getLsbD 1, pc := t.epc }

end Sys2Proof.Machine
end

