-- ==== Sys2Proof/Machine/Ports.lean ====
section
/-!
DEFINITION. Scalar operands with their queue ports (R13, R16, R17, R126 to R128). Where several operands of a word name ports, they are looked at
one after the other, ra, rb and then rd: a stall on an earlier one hides the misuse of a later one until it is over (DESIGN CHOICE: R17 gives
no order between them).
-/
namespace Sys2Proof.Machine

/-- The neighbour of core k in a direction, within its plot (R126). -/
def plotNeighbour (s : State) (k dir : Nat) : Option Nat :=
  match neighbour k dir, (coreAt s k).bound with
  | some n, some m => if (mcbAt s m).plot.contains n then some n else none
  | _, _ => none

/-- A core holds a bound context that a sender's mailbox word may reach (R127): one whose binding is complete (R45). -/
def mailboxAccepts (s : State) (k dst : Nat) : Bool :=
  match (coreAt s k).bound, (coreAt s dst).bound with
  | some m, some n =>
    (mcbAt s n).state != 2 && (mcbAt s m).keyslot == (mcbAt s n).keyslot && (mcbAt s m).part == (mcbAt s n).part
  | _, _ => false

/-- Core k has pushed or popped the FIFO of port n of core d (R412). -/
def State.touchPort (s : State) (k d n : Nat) : State :=
  s.updCore d (fun c => { c with portSetter := mapPut c.portSetter n (agentId 0 k 0 0) })

/-- A read of a port pops it: its word is given, with the edges that the push released (R128, R125). -/
def popPort (n : Nat) : M W64 := do
  let s ← get
  let k := s.turn
  let c := coreAt s k
  if n = 63 then raise 10 0 0
  else if n = 62 then
    match c.qi with
    | [] => waitOn .port n
    | w :: rest => do
      set ((acquire (s.setCore k { c with qi := rest }) k w.edges).touchPort k k n)
      return w.val
  else if n = 61 then
    match c.qc with
    | [] => waitOn .port n
    | w :: rest => do
      set ((acquire (s.setCore k { c with qc := rest }) k w.edges).touchPort k k n)
      return w.word
  else if n = 60 then
    match c.qv with
    | [] => waitOn .port n
    | w :: rest => do
      set ((acquire (s.setCore k { c with qv := rest }) k w.edges).touchPort k k n)
      return w.val
  else
    if (plotNeighbour s k (n - 56)).isNone then raise 10 1 0
    match c.port (n - 56) with
    | [] => waitOn .port n
    | w :: rest => do
      set ((acquire (s.setCore k (c.setPort (n - 56) rest)) k w.edges).touchPort k k n)
      return w.val

/-- The port that a neighbour in direction `dir` sees a push through. -/
def farPort (dir : Nat) : Nat := (dir + 2) % 4

/-- A push may go through as a state stands (R16, R126, R127): the port is no misuse, and it has room; else the word faults or stalls. -/
def pushRoom (s : State) (n : Nat) : M Unit := do
  let k := s.turn
  if n = 60 || n = 61 || n = 62 then raise 10 0 0
  else if n = 63 then
    let d := mailboxDest (coreAt s k).th
    if (coreAt s d).qi.length ≥ 16 then waitOn .port n 1
    if !mailboxAccepts s k d then raise 10 2 0
  else
    match plotNeighbour s k (n - 56) with
    | none => raise 10 1 0
    | some d => if ((coreAt s d).port (farPort (n - 56))).length ≥ 8 then waitOn .port n 1

/-- A word whose result goes to a port stalls for room, or faults on its misuse, before it has any effect (R17): the port is looked at as it
was before the word popped anything. -/
def roomFor (before : State) (d : BitVec 6) : M Unit := if d.toNat < 56 then pure () else pushRoom before d.toNat

/-- A write of a port pushes it: a release, after every earlier hoard-log entry (R128, R200). -/
def pushPort (n : Nat) (v : W64) : M Unit := do
  let s ← get
  pushRoom s n
  let k := s.turn
  waitLog k
  let e := threadEdges s k
  if n = 63 then
    let d := mailboxDest (coreAt s k).th
    modify (fun s => closeRegion ((s.updCore d (fun c => { c with qi := c.qi ++ [⟨v, e, k⟩] })).touchPort k d 62) k)
  else
    match plotNeighbour s k (n - 56) with
    | none => pure ()
    | some d =>
      let dir := farPort (n - 56)
      modify (fun s => closeRegion ((s.updCore d (fun c => c.setPort dir (c.port dir ++ [⟨v, e, k⟩]))).touchPort k d (56 + dir)) k)

/-- ReadS: a scalar register, or a pop of the port that s56 to s63 name. -/
def readS (n : BitVec 6) : M W64 := do
  if n.toNat < 56 then return (← thread).getS n.toNat else popPort n.toNat

/-- WriteS: a scalar register, or a push. -/
def writeS (n : BitVec 6) (v : W64) : M Unit := do
  if n.toNat < 56 then updThread (fun t => t.setS n.toNat v) else pushPort n.toNat v

/-- A capability register. -/
def readC (n : BitVec 5) : M Cap := return (← thread).getC n.toNat

def writeC (n : BitVec 5) (c : Cap) : M Unit := updThread (fun t => t.setC n.toNat c)

/-- A read of the port would pop without a stall; for qo, a write would deliver (R160). -/
def portReady (s : State) (k n : Nat) : Bool :=
  let c := coreAt s k
  if n = 63 then decide ((coreAt s (mailboxDest c.th)).qi.length < 16)
  else if n = 62 then !c.qi.isEmpty
  else if n = 61 then !c.qc.isEmpty
  else if n = 60 then !c.qv.isEmpty
  else !(c.port (n - 56)).isEmpty

/-- An unfinished command reads an OM slot (R345, R336): the A and B slots of mma, and the bias slot of
an epilogue whose descriptor has BIAS set. -/
def Cmd.readsSlot (x : Cmd) (n : Nat) : Bool :=
  x.posting.isNone &&
  match x.ins with
  | .mma _ _ a b _ _ => a.toNat == n || b.toNat == n
  | .mmaZ _ _ a b _ _ => a.toNat == n || b.toNat == n
  | .epi _ _ o _ _ _ => o.toNat == n && (x.args.headD 0).getLsbD 15
  | .epiV _ _ o _ _ => o.toNat == n && (x.args.headD 0).getLsbD 15
  | _ => false

/-- An unfinished command fills an OM slot (R266). -/
def Cmd.fillsSlot (x : Cmd) (n : Nat) : Bool :=
  match x.ins with
  | .cpOm _ m _ _ _ => m.toNat == n
  | _ => false

end Sys2Proof.Machine
end

