-- ==== Sys2Proof/Machine/Words.lean ====
section
/-!
DEFINITION. How a core runs one word in program order (R111, R112): the check of flow words and the examination of loop
levels (R148, R149), the roll-back of a word that faults or waits, holds and their ends, and the records of their waits (R410).
-/
namespace Sys2Proof.Machine

/-- What follows a word. -/
inductive Flow where
  /-- The word falls through. -/
  | seq
  /-- A taken branch or jump; whether it leaves loop levels (R149). -/
  | taken (target : W64) (leaves : Bool)
  /-- The word has set the pc itself, or has retired the thread. -/
  | done
  deriving DecidableEq, Repr

/-- Deactivates one level; the ranks of the others close up. -/
def Thread.deactivate (t : Thread) (n : Nat) : Thread := { t with lact := lactOf (t.innermost.filter (fun m => m != n)) }

/-- The examination of R148 after the word at e completes, over levels given innermost first: the thread with its next pc. -/
def Thread.examine (e : W64) : List Nat → Thread → Thread
  | [], t => { t with pc := e + 4 }
  | n :: rest, t =>
    let l := t.loop n
    if l.last ≠ e then Thread.examine e rest t
    else
      let t := t.setLoop n { l with cnt := l.cnt - 1, itr := l.itr + 1 }
      if l.cnt - 1 ≠ 0 then { t with pc := l.beg }
      else Thread.examine e rest (t.deactivate n)

/-- The thread after the word at its pc falls through. -/
def Thread.next (t : Thread) : Thread := Thread.examine t.pc t.innermost t

/-- A taken br, bp, bnp, jmpr or ret deactivates the levels whose body holds the word but not the target, and those activated
after them (R149). -/
def Thread.leaveTo (t : Thread) (target : W64) : Thread :=
  t.innermost.foldl (fun u n => if t.inBody n t.pc && !t.inBody n target && u.active n then u.dropFrom n else u) t

/-- Some active level that ends at the pc would loop back (R149): one with LCNT above 1. A level whose LCNT mtsr has set to 0 counts as none of them
(DESIGN CHOICE: R149 names LCNT above 1, and R148 would take such a level back through 2^64 - 1). -/
def Thread.endsLoop (t : Thread) : Bool := (t.innermost).any (fun n => (t.loop n).last == t.pc && decide (1 < (t.loop n).cnt.toNat))

/-- The thread after a word, by its flow. -/
def Thread.flow (t : Thread) : Flow → Thread
  | .seq => t.next
  | .taken g leaves => { (if leaves then t.leaveTo g else t) with pc := g }
  | .done => t

/-- Core k's hold, if any, is over: its wait ends with an outcome, told from the state in which it ends. -/
def endHold (pre s : State) (k out : Nat) : State := dropHold pre s k out

/-- A word that stalls on a queue port or a full engine queue has not issued (R17, R122). -/
def WaitKind.stalls (w : WaitKind) : Bool := w == .port || w == .engineQueue

/-- A word issues: it is counted once, not for each time a hold sends it again (R173). -/
def countIssue (pre s : State) (k : Nat) (access : Bool) : State :=
  if (coreAt pre k).hold.any (·.issued) then s
  else s.updCore k (fun c => c.bumpCounter (if access && (coreAt pre k).th.ae then 2 else 3) 1)

/-- A word of core k completes: counter 1 of R173, and the next pc. -/
def completeWord (s : State) (k : Nat) (f : Flow) : State :=
  (s.countCore k 1 1).updCore k (fun c =>
    let c := c.bumpCounter 1 1
    { c with th := c.th.flow f, bpPassed := c.bpPassed.filter (· != c.th.pc) })

/-- A hold that follows an earlier one is the same wait that goes on: not that of a fetch before its word's. -/
def Hold.goesOn (g h : Hold) : Bool := g.kind = h.kind && (g.fkind.isNone || g.flag == h.flag) && (g.issued || !h.issued)

/-- The hold that follows an earlier one: the same wait goes on; of another kind it begins now, and a form's wait at its controller stands
meanwhile, with the word that it waits at (R205). -/
def Hold.after (g h : Hold) (i : Instr) (now : Nat) : Hold :=
  let h := { h with ins := i, issued := g.issued || h.issued, place := h.place.or g.place }
  if g.goesOn h then { h with since := g.since, wait := g.wait }
  else { h with since := now, wait := if g.kind = .port || g.kind = .slot then none else g.flagWait }

/-- Core k holds at a word (R199). A hold that becomes another has its cycles counted, and a stall on a port or slot that is over is
recorded. -/
def holdAt (s : State) (k : Nat) (i : Instr) (h : Hold) : State :=
  let put := fun (s : State) (h : Hold) => s.updCore k (fun c => { c with hold := some h })
  let parks := fun (s : State) => if h.kind = .parked then promote (s.countCore k 8 1) h.extent else s
  match (coreAt s k).hold with
  | none => parks (put s { h with ins := i, since := s.pt })
  | some g =>
    let h' := g.after h i s.pt
    if g.goesOn h then
      if h.kind = .parked then promote (put s h') h.extent else put s h'
    else
      let s := countHold s k g
      let s := if g.kind = .port || g.kind = .slot then recordHold s s k 0 g else s
      parks (put s h')

/-- What a split load leaves that has read some of its pieces (R211): the word has not completed, so what it popped stands again. -/
def keepReads (s s1 : State) : State :=
  let k := s.turn
  let c := coreAt s k
  s1.updCore k (fun d => { d with
    th := c.th, hold := c.hold, qin := c.qin, qv := c.qv, qc := c.qc, qi := c.qi, portSetter := c.portSetter, edges := c.edges })

/-- A flow word at the end of a body that would loop back is refused before it has any effect (R149). -/
def flowCheck (flow : Bool) : M Unit := do
  if flow && (← thread).endsLoop then raise 2 4 0

/-- Core `turn` after its word, or the fetch of it where `pipe` names none, did not go through: it faults precisely with no effect, or it holds and
runs again. A word that stalls, or that is illegal, has not issued (R17, R36). -/
def stopped (s s1 : State) (pipe : Option Bool) (i : Instr) : Stop → Host.Outcome State Fault Refusal
  | .fault f =>
    let out := (((coreAt s s.turn).hold.map Hold.outcome).getD 0)
    let issue := fun (t : State) => match pipe with
      | some a => if f.cls = 2 then t else countIssue s t s.turn a
      | none => t
    .next (threadFault (issue (dropHold s (rollBack s s1) s.turn out)) s.turn f)
  | .wait h =>
    let t := if h.kind = .pieces then keepReads s s1 else rollBack s s1
    match pipe with
    | some a =>
      if h.kind.stalls then .next (holdAt t s.turn i h) else .next (holdAt (countIssue s t s.turn a) s.turn i { h with issued := true })
    | none => .next (holdAt t s.turn i h)
  | .hard f => .fault f

/-- Runs one word of core `turn`: it completes, or it stops. -/
def runWord (access flow : Bool) (i : Instr) (body : M Flow) (s : State) : Host.Outcome State Fault Refusal :=
  match (do flowCheck flow; body).run s with
  | .ok f s1 => .next (completeWord (countIssue s (endHold s s1 s.turn 0) s.turn access) s.turn f)
  | .error e s1 => stopped s s1 (some access) i e

/-- The word that a core holds at. A fetch that holds has no word yet. -/
def Hold.word (h : Hold) : Option Instr := if h.issued || h.kind.stalls then some h.ins else none

/-- The fetch of the word at the pc of core `turn` (R37, R111). Of several reasons to refuse it, a misaligned pc comes first (DESIGN CHOICE: R37
gives no order). It waits for earlier writes of the core to its bytes (R200), is not checked against stamps, and counts as one access of its line. -/
def fetchWord : M W32 := do
  let t ← thread
  let c := t.code
  let pc := t.pc.toNat
  if pc % 4 ≠ 0 then raise 0 5 pc
  if !c.valid then raise 0 0 pc
  if pc < c.lo || pc + 4 > c.hi || pc + 4 > 2 ^ 40 then raise 0 1 pc
  if !c.has permEXEC then raise 0 2 pc
  if c.sp > 5 then raise 0 3 pc
  let w := whoThread (← get) (← self)
  waitHoard w.core c.obj pc 4
  behindPosted c.sp
  let r ← resolve w c.obj c.sp pc { write := false }
  behindFlights r 4
  answers r 4 pc
  checkLines pc r 4
  let bs ← readPiece w c.obj pc r 4
  modify (fun s => countAccess s w c.obj pc 4 r)
  return BitVec.ofNat 32 (leNat bs)

/-- ILLEGAL_INSTRUCTION (R35, R36): a word that decodes to no instruction faults precisely. -/
def execIllegalInstruction (word : W32) (s : State) : Host.Outcome State Fault Refusal :=
  match decode word with
  | .ok _ => .next s
  | .error _ => runWord false false .exit (raise 2 0 0) s

/-- The A bit of a word sends it to the access pipe (R113). -/
def aBit (z : BitVec 1) : Bool := z == 1

end Sys2Proof.Machine
end

