-- ==== Sys2Proof/Machine/Control.lean ====
section
/-!
DEFINITION. Flow instructions and hardware loops (R144 to R151), capability instructions (R152 to R159), queue instructions
(R160, R161), engine-control instructions (R162 to R168) and system instructions (R169 to R176).
-/
namespace Sys2Proof.Machine

-- Flow

/-- The pc displaced by a signed count of words. -/
def displaced {n : Nat} (pc : W64) (d : BitVec n) : W64 := pc + sext64 d * 4

/-- br (R144). -/
def execBr (d : BitVec 20) (s : State) : Host.Outcome State Fault Refusal :=
  runWord false true (.br d) (do return .taken (displaced (← thread).pc d) true) s

/-- bp (R144). -/
def execBp (p : BitVec 3) (d : BitVec 20) (s : State) : Host.Outcome State Fault Refusal :=
  runWord false true (.bp p d) (do
    let t ← thread
    return if t.getP p.toNat then .taken (displaced t.pc d) true else .seq) s

/-- bnp (R144). -/
def execBnp (p : BitVec 3) (d : BitVec 20) (s : State) : Host.Outcome State Fault Refusal :=
  runWord false true (.bnp p d) (do
    let t ← thread
    return if t.getP p.toNat then .seq else .taken (displaced t.pc d) true) s

/-- call (R145): it leaves no loop level. -/
def execCall (d : BitVec 6) (i : BitVec 18) (s : State) : Host.Outcome State Fault Refusal :=
  runWord false true (.call d i) (do
    let pc := (← thread).pc
    writeS d (pc + 4)
    return .taken (displaced pc i) false) s

/-- jmpr (R146). The target is checked at its fetch. -/
def execJmpr (d a : BitVec 6) (s : State) : Host.Outcome State Fault Refusal :=
  runWord false true (.jmpr d a) (do
    let g ← readS a
    roomFor s d
    writeS d ((← thread).pc + 4)
    return .taken g true) s

/-- ret (R151). -/
def execRet (a : BitVec 6) (s : State) : Host.Outcome State Fault Refusal :=
  runWord false true (.ret a) (do return .taken (← readS a) true) s

/-- loop and loopi once n is known (R148). -/
def startLoop (l : BitVec 2) (n : W64) (e : BitVec 11) : M Flow := do
  let t ← thread
  let last := t.pc + zext64 e * 4
  if t.active l.toNat then raise 2 2 0
  if t.innermost.any (fun m => t.inBody m t.pc && decide ((t.loop m).last.toNat < last.toNat)) then raise 2 2 0
  if n = 0 then return .taken (last + 4) false
  else
    updThread (fun t => (t.setLoop l.toNat ⟨n, 0, t.pc + 4, last⟩).activate l.toNat)
    return .seq

/-- loop (R148). -/
def execLoop (l : BitVec 2) (a : BitVec 6) (e : BitVec 11) (s : State) : Host.Outcome State Fault Refusal :=
  runWord false true (.loop l a e) (do startLoop l (← readS a) e) s

/-- loopi (R148): the field holds count - 1. -/
def execLoopi (l : BitVec 2) (c : BitVec 10) (e : BitVec 11) (s : State) : Host.Outcome State Fault Refusal :=
  runWord false true (.loopi l c e) (startLoop l (zext64 c + 1) e) s

/-- lbrk (R147). -/
def execLbrk (l : BitVec 2) (s : State) : Host.Outcome State Fault Refusal :=
  runWord false true (.lbrk l) (do
    let t ← thread
    if !t.active l.toNat then raise 2 3 0
    updThread (fun t => t.dropFrom l.toNat)
    return .taken ((t.loop l.toNat).last + 4) false) s

-- Capabilities

/-- The cursor moved by a signed amount (R152). -/
def Cap.moved (c : Cap) (b : W64) : Cap :=
  let sum := (c.cur : Int) + b.toInt
  let r := c.withCur (sum % 2 ^ 40).toNat
  if sum < 0 || sum ≥ 2 ^ 40 then r.untagged else r

/-- cbnd (R154). -/
def execCbnd (z : BitVec 1) (d a : BitVec 5) (b : BitVec 6) (s : State) : Host.Outcome State Fault Refusal :=
  runWord (aBit z) false (.cbnd z d a b) (do
    let c ← readC a
    let l := (← readS b).toNat
    if c.cur < c.lo || c.cur + l > c.hi then raise 0 1 c.cur
    match exactGx 0 c.cur l with
    | none => raise 0 4 c.cur
    | some e =>
      writeC d (c.withBounds e (c.cur / 2 ^ (e + 4)) (l / 2 ^ (e + 4)))
      return .seq) s

/-- ccur (R155). -/
def execCcur (z : BitVec 1) (d a : BitVec 5) (b : BitVec 6) (s : State) : Host.Outcome State Fault Refusal :=
  runWord (aBit z) false (.ccur z d a b) (do
    let c ← readC a
    let v ← readS b
    let r := c.withCur (v.toNat % 2 ^ 40)
    writeC d (if v.toNat ≥ 2 ^ 40 then r.untagged else r)
    return .seq) s

/-- cadd (R152). -/
def execCadd (z : BitVec 1) (d a : BitVec 5) (b : BitVec 6) (s : State) : Host.Outcome State Fault Refusal :=
  runWord (aBit z) false (.cadd z d a b) (do
    let c ← readC a
    writeC d (c.moved (← readS b))
    return .seq) s

/-- caddi (R152). -/
def execCaddi (z : BitVec 1) (d a : BitVec 5) (i : BitVec 12) (s : State) : Host.Outcome State Fault Refusal :=
  runWord (aBit z) false (.caddi z d a i) (do
    writeC d ((← readC a).moved (sext64 i))
    return .seq) s

/-- cand (R153). -/
def execCand (z : BitVec 1) (d a : BitVec 5) (b : BitVec 6) (s : State) : Host.Outcome State Fault Refusal :=
  runWord (aBit z) false (.cand z d a b) (do
    let c ← readC a
    let v ← readS b
    writeC d { c with bits := setField c.bits 68 12 (fieldNat v 0 12 &&& c.perm.toNat) }
    return .seq) s

/-- The field of a capability that a field code of R29 names (R156). -/
def Cap.get (c : Cap) (k : Nat) : Nat :=
  match k with
  | 0 => c.cur
  | 1 => c.lo
  | 2 => c.hi - c.lo
  | 3 => c.perm.toNat
  | 4 => c.sp
  | 5 => c.obj
  | 6 => if c.tag then 1 else 0
  | 7 => c.gx
  | _ => c.ver

/-- cget (R156). -/
def execCget (z : BitVec 1) (d : BitVec 6) (a : BitVec 5) (k : BitVec 6) (s : State) : Host.Outcome State Fault Refusal :=
  runWord (aBit z) false (.cget z d a k) (do
    writeS d (w64 ((← readC a).get k.toNat))
    return .seq) s

/-- ctest (R159). -/
def execCtest (z : BitVec 1) (d : BitVec 3) (a : BitVec 5) (b : BitVec 6) (s : State) : Host.Outcome State Fault Refusal :=
  runWord (aBit z) false (.ctest z d a b) (do
    let c ← readC a
    let v ← readS b
    updThread (fun t => t.setP d.toNat (ctestHolds c v))
    return .seq) s

/-- cmov (R157). -/
def execCmov (z : BitVec 1) (d a : BitVec 5) (s : State) : Host.Outcome State Fault Refusal :=
  runWord (aBit z) false (.cmov z d a) (do
    writeC d (← readC a)
    return .seq) s

/-- ctab (R158). -/
def execCtab (z : BitVec 1) (d : BitVec 5) (a : BitVec 6) (s : State) : Host.Outcome State Fault Refusal :=
  runWord (aBit z) false (.ctab z d a) (do
    let i := (← readS a).toNat
    if i > 255 then raise 0 1 (16 * i)
    let k ← self
    let (c, hit) ← loadEntry (whoThread (← get) k) k i
    writeC d c
    watchThread k 0 false hit
    return .seq) s

-- Queues

/-- The check of qpoll and qwait: a neighbour port needs a neighbour in the plot (R160). -/
def needNeighbour (n : Nat) : M Unit := do
  let s ← get
  if n < 60 && (plotNeighbour s s.turn (n - 56)).isNone then raise 10 1 0

/-- qpoll (R160). The field holds the port code less 56. -/
def execQpoll (z : BitVec 1) (d p : BitVec 3) (s : State) : Host.Outcome State Fault Refusal :=
  runWord (aBit z) false (.qpoll z d p) (do
    let n := 56 + p.toNat
    needNeighbour n
    let s ← get
    updThread (fun t => t.setP d.toNat (portReady s s.turn n))
    return .seq) s

/-- qwait (R161). -/
def execQwait (z : BitVec 1) (p : BitVec 3) (s : State) : Host.Outcome State Fault Refusal :=
  runWord (aBit z) false (.qwait z p) (do
    let n := 56 + p.toNat
    needNeighbour n
    let s ← get
    if !portReady s s.turn n then waitOn .port n
    return .seq) s

-- Engine control

/-- om.claim (R165, R249). -/
def execOmClaim (z : BitVec 1) (n : BitVec 4) (s : State) : Host.Outcome State Fault Refusal :=
  runWord (aBit z) false (.omClaim z n) (do
    let x := (← core).slot n.toNat
    if x.state == .draining || x.releasing then waitOn .slot n.toNat
    if x.state != .empty then raise 3 0 0
    updCore (fun c => c.setSlot n.toNat { x with state := .filling, fill := false })
    return .seq) s

/-- A draining slot that no unfinished command reads is EMPTY (R166). -/
def drainSlot (c : Core) (n : Nat) (setter : BitVec 48) : Core :=
  if (c.slot n).state == .draining && !c.cmds.any (fun x => x.readsSlot n) then
    c.setSlot n { OmSlot.empty with setter := setter }
  else c

/-- om.release (R166, R248, R249). A slot that no command reads drains in a later move of the part (`endDrain`), so om.state may still
see 3 (DESIGN CHOICE: R166 does not say when DRAINING ends where there is no reader). -/
def execOmRelease (z : BitVec 1) (n : BitVec 4) (s : State) : Host.Outcome State Fault Refusal :=
  runWord (aBit z) false (.omRelease z n) (do
    let x := (← core).slot n.toNat
    if x.state == .ready then
      updCore (fun c => c.setSlot n.toNat { x with state := .draining })
    else if x.state == .filling && x.fill && !x.releasing then
      updCore (fun c => c.setSlot n.toNat { x with releasing := true })
    else raise 3 1 0
    return .seq) s

/-- The draining slots of core k that no command reads are EMPTY. -/
def endDrain (s : State) (k : Nat) : State :=
  (List.range 16).foldl (fun s n => s.updCore k (fun c => drainSlot c n (c.slot n).setter)) s

/-- The state of a slot as a number, in program order (R167, R248). -/
def OmSlot.code (x : OmSlot) : Nat :=
  match x.state with
  | .empty => 0
  | .filling => if x.releasing then 3 else 1
  | .ready => 2
  | .draining => 3

/-- om.state (R167): READY is an acquire from the command that filled the slot. -/
def execOmState (z : BitVec 1) (d : BitVec 6) (n : BitVec 4) (s : State) : Host.Outcome State Fault Refusal :=
  runWord (aBit z) false (.omState z d n) (do
    let x := (← core).slot n.toNat
    if x.code = 2 then modify (fun s => acquire s s.turn x.edges)
    writeS d (w64 x.code)
    return .seq) s

/-- Engine e is named by the mask of R30. -/
def maskNames (m : BitVec 4) (e : BitVec 2) : Bool := m.getLsbD e.toNat

/-- eq.fence (R163): a join edge from every command of the named engines. -/
def execEqFence (z : BitVec 1) (m : BitVec 4) (s : State) : Host.Outcome State Fault Refusal :=
  runWord (aBit z) false (.eqFence z m) (do
    let c ← core
    if c.cmds.any (fun x => maskNames m x.eng) || (m.getLsbD 3 && !c.posted.isEmpty) then waitOn .eqFence
    modify (fun s => (List.range 4).foldl (fun s e =>
      if m.getLsbD e then acquire s s.turn (mapGet EdgeSet.none c.doneEdges e) else s) s)
    return .seq) s

/-- chain (R162): the next command of `g` follows the last one that was dispatched to `e`. A posted receive buffer is unfinished until it is
placed (R277). -/
def execChain (z : BitVec 1) (e g : BitVec 2) (s : State) : Host.Outcome State Fault Refusal :=
  runWord (aBit z) false (.chain z e g) (do
    let c ← core
    if !(c.cmds ++ c.posted).any (fun x => x.eng == e) then return .seq
    else
      let kept := c.chains.filter (fun h => !(h.src == e && h.dst == g))
      let ord := mapGet 0 c.lastOrd e.toNat
      let edges := if (c.cmds ++ c.posted).any (fun x => x.ord == ord) then EdgeSet.none else mapGet EdgeSet.none c.doneEdges e.toNat
      updCore (fun c => { c with chains := kept ++ [⟨e, g, ord, edges⟩] })
      return .seq) s

/-- fmt.set (R164). -/
def execFmtSet (z : BitVec 1) (n : BitVec 4) (a : BitVec 6) (s : State) : Host.Outcome State Fault Refusal :=
  runWord (aBit z) false (.fmtSet z n a) (do
    let v ← readS a
    updThread (fun t => { t.touch 24 with fmt := mapSet 0 t.fmt n.toNat v })
    return .seq) s

/-- fmt.get (R164). -/
def execFmtGet (z : BitVec 1) (d : BitVec 6) (n : BitVec 4) (s : State) : Host.Outcome State Fault Refusal :=
  runWord (aBit z) false (.fmtGet z d n) (do
    writeS d ((← thread).getFmt n.toNat)
    return .seq) s

/-- A selector of a task record resolved against the poster's loops: the entry's number takes its place (R347, R74). -/
def resolveSelector (t : Thread) (bits : BitVec 512) (at_ : Nat) : BitVec 512 :=
  if bits.getLsbD (at_ + 6) then setField bits at_ 7 (t.selectFmt (field bits at_ 7)) else bits

-- The service set of the plot's scheduler

def TaskRec.wen (t : TaskRec) : Bool := t.bits.getLsbD 24
def TaskRec.stream (t : TaskRec) : Nat := fieldNat t.bits 0 8

/-- The cores of a block's plot that run a task, with it. -/
def runningTasks (s : State) (m : Nat) : List (Nat × TaskCtx) :=
  (mcbAt s m).plot.filterMap (fun k => (coreAt s k).mat.task.map (fun t => (k, t)))

/-- A stream's head record, unless its previous record has not completed. -/
def headRecord (s : State) (m : Nat) (i : Inv) (stream : Nat) : Option TaskRec :=
  if (runningTasks s m).any (fun r => r.2.task.stream == stream) then none
  else i.tasks.find? (fun t => t.stream == stream)

/-- The streams whose head is ready. -/
def readyStreams (s : State) (m : Nat) (i : Inv) : List Nat :=
  (List.range 256).filter (fun n => match headRecord s m i n with
    | none => false
    | some t => !t.wen || t.seen || t.failed)

/-- The service set of at most 8 ready streams, and the streams that wait to join it in the order in which they became
ready. -/
def Inv.serve (i : Inv) (ready : List Nat) : Inv :=
  let members := i.service.filter (fun e => ready.contains e.1 && decide (e.2 < 8))
  let kept := i.waiting.filter (fun n => ready.contains n && !members.any (fun e => e.1 == n))
  let fresh := ready.filter (fun n => !kept.contains n && !members.any (fun e => e.1 == n))
  let queue := kept ++ fresh
  let room := 8 - members.length
  { i with service := members ++ (queue.take room).map (fun n => (n, 0)), waiting := queue.drop room }

/-- The service set and its queue follow what is ready now (R351). -/
def noteReady (s : State) (m : Nat) : State :=
  match (mcbAt s m).inv with
  | none => s
  | some i => s.updInv m (fun _ => i.serve (readyStreams s m i))

/-- task.post (R168, R347, R351). A CUR that is not aligned gives SUB 7 (DESIGN CHOICE: R168 names no subcode). -/
def execTaskPost (z : BitVec 1) (a : BitVec 5) (s : State) : Host.Outcome State Fault Refusal :=
  runWord (aBit z) false (.taskPost z a) (do
    let c ← readC a
    if !c.valid then raise 0 0 c.cur
    if !c.has (permLD ||| permENG) then raise 0 2 c.cur
    if c.sp ≠ spGSRAM then raise 0 3 c.cur
    if c.cur % 64 ≠ 0 then raise 0 7 c.cur
    if c.cur < c.lo || c.cur + 64 > c.hi then raise 0 1 (if c.cur < c.lo then c.cur else Max.max c.cur c.hi)
    let s ← get
    let k := s.turn
    match (coreAt s k).bound with
    | none => return .seq
    | some m =>
      match (mcbAt s m).inv with
      | none => return .seq
      | some i =>
        if i.tasks.length ≥ 512 then waitOn .tasks
        waitLog k
        let w := whoThread s k
        let r ← resolve w c.obj c.sp c.cur { write := false }
        let (bs, hit) ← readPieces w false .read c.obj [(c.cur, 64, r)]
        let t ← thread
        let bits := resolveSelector t (resolveSelector t (BitVec.ofNat 512 (leNat bs)) 32) 448
        let s ← get
        let x : TaskRec :=
          { n := i.nextTask, core := k, bits := bits, off := w64 c.cur, edges := forkEdges s k,
            arrivals := (coreAt s k).arrivals, fentry := t.getFmt (fieldNat bits 32 4),
            eentry := t.getFmt (fieldNat bits 448 4), seen := false }
        modify (fun s => closeRegion (noteReady (s.updInv m (fun i => { i with tasks := i.tasks ++ [x], nextTask := i.nextTask + 1 })) m) k)
        watchThread k 0 false hit
        return .seq) s

-- System

/-- Coordinates in the layout of R132. -/
def xyWord (x y : Nat) : W64 := w64 (x + y * 2 ^ 8)

/-- PLOTSHAPE of a block's invocation (R132). -/
def plotShape (b : Mcb) : W64 :=
  match b.inv with
  | none => 0
  | some i => w64 (b.wlog.toNat + b.hlog.toNat * 2 ^ 4 + i.ox * 2 ^ 16 + i.oy * 2 ^ 24)

/-- PLOTXY of core k. -/
def plotXy (s : State) (k : Nat) : W64 :=
  match coreInv s k with
  | none => 0
  | some i => xyWord (coreX k - i.ox) (coreY k - i.oy)

/-- QSEQ (R133). -/
def qseq (c : Core) : W64 :=
  w64 ((c.seq 0).toNat + (c.seq 1).toNat * 2 ^ 16 + (c.seq 2).toNat * 2 ^ 32 + (c.seq 3).toNat * 2 ^ 48)

/-- A scalar system register (R129). -/
def readSys (s : State) (k n : Nat) : Option W64 :=
  let c := coreAt s k
  let t := c.th
  match n with
  | 0x000 => some t.status
  | 0x001 => some t.estatus
  | 0x002 => some t.epc
  | 0x003 => some t.cause
  | 0x004 => some t.faddr
  | 0x005 => some (xyWord (coreX k) (coreY k))
  | 0x006 => some (plotXy s k)
  | 0x007 => some (plotShape (mcbAt s (c.bound.getD 0)))
  | 0x008 => some (w64 (localPt s k))
  | 0x009 => some (zext64 t.vseed)
  | 0x00A => some (zext64 t.eseed)
  | 0x00B => some t.mbdst
  | 0x00C => some (qseq c)
  | 0x00D => some 0x03333356
  | 0x00E => some t.hsave0
  | 0x00F => some t.hsave1
  | 0x010 => some (t.loop 0).cnt
  | 0x011 => some (t.loop 1).cnt
  | 0x012 => some (t.loop 2).cnt
  | 0x013 => some (t.loop 3).cnt
  | 0x014 => some (t.loop 0).itr
  | 0x015 => some (t.loop 1).itr
  | 0x016 => some (t.loop 2).itr
  | 0x017 => some (t.loop 3).itr
  | 0x018 => some (t.loop 0).beg
  | 0x019 => some (t.loop 1).beg
  | 0x01A => some (t.loop 2).beg
  | 0x01B => some (t.loop 3).beg
  | 0x01C => some (t.loop 0).last
  | 0x01D => some (t.loop 1).last
  | 0x01E => some (t.loop 2).last
  | 0x01F => some (t.loop 3).last
  | 0x020 => some (zext64 t.lact)
  | _ => none

/-- A capability system register (R129). -/
def readSysCap (t : Thread) (n : Nat) : Option Cap :=
  match n with
  | 0x800 => some t.handler
  | 0x801 => some t.codecap
  | 0x802 => some t.captab
  | 0x803 => some t.objtab
  | 0x804 => some t.hcap
  | _ => none

/-- mfsr (R172). -/
def execMfsr (d : BitVec 6) (n : BitVec 12) (s : State) : Host.Outcome State Fault Refusal :=
  runWord false false (.mfsr d n) (do
    let s ← get
    if n.getLsbD 11 then
      match readSysCap (← thread) n.toNat with
      | none => raise 2 0 0
      | some c => writeC (field d 0 5) c
    else
      match readSys s s.turn n.toNat with
      | none => raise 2 0 0
      | some v => writeS d v
    return .seq) s

/-- LACT holds a set of active levels with ranks 0 to k - 1 (R134). -/
def lactLegal (v : W64) : Bool :=
  v.toNat < 2 ^ 12 &&
  (let act := (List.range 4).filter (fun n => v.getLsbD n)
   let ranks := act.map (fun n => fieldNat v (4 + 2 * n) 2)
   (List.range act.length).all (fun r => ranks.contains r))

/-- LACT as it is stored: ranks of inactive levels read as zero (R134). -/
def lactStored (v : W64) : BitVec 12 :=
  (List.range 4).foldl (fun w n => if w.getLsbD n then w else setField w (4 + 2 * n) 2 0) (v.setWidth 12)

/-- What a write of VSEED or ESEED stores (R70): its low 32 bits, and 1 where those are zero (DESIGN CHOICE: R70 does not say what the upper bits
of the register do). -/
def seedOf (v : W64) : W32 := if v.setWidth 32 = (0 : W32) then 1 else v.setWidth 32

/-- A loop level with one of its registers written: 0 LCNT, 1 LITR, 2 LBEG, 3 LEND. -/
def Loop.write (l : Loop) (which : Nat) (v : W64) : Loop :=
  match which with
  | 0 => { l with cnt := v }
  | 1 => { l with itr := v }
  | 2 => { l with beg := v }
  | _ => { l with last := v }

/-- A write of a scalar system register that is not refused (R129, R130, R132, R134). -/
def writeSys (t : Thread) (n : Nat) (v : W64) : Option Thread :=
  match n with
  | 0x000 => if fieldNat v 8 56 ≠ 0 || fieldNat v 2 2 ≠ 0 then none else some { t with ae := v.getLsbD 1 }
  | 0x001 => some { t with estatus := v }
  | 0x002 => some { t with epc := v }
  | 0x009 => some { t.touch 3 with vseed := seedOf v }
  | 0x00A => some { t.touch 24 with eseed := seedOf v }
  | 0x00B => if fieldNat v 13 51 ≠ 0 || fieldNat v 5 3 ≠ 0 then none else some { t with mbdst := v }
  | 0x00E => some { t with hsave0 := v }
  | 0x00F => some { t with hsave1 := v }
  | 0x020 => if lactLegal v then some { t with lact := lactStored v } else none
  | n => if 0x010 ≤ n && n ≤ 0x01F then some (t.setLoop (n % 4) ((t.loop (n % 4)).write ((n - 0x010) / 4) v)) else none

/-- A write of a capability system register that is not refused. -/
def writeSysCap (t : Thread) (n : Nat) (c : Cap) : Option Thread :=
  match n with
  | 0x800 => some { t.touch 1 with handler := c }
  | 0x804 => some { t.touch 1 with hcap := c }
  | _ => none

/-- mtsr (R172): a refused write is an illegal instruction with SUB 7. -/
def execMtsr (a : BitVec 6) (n : BitVec 12) (s : State) : Host.Outcome State Fault Refusal :=
  runWord false false (.mtsr a n) (do
    if n.getLsbD 11 then
      let c ← readC (field a 0 5)
      match writeSysCap (← thread) n.toNat c with
      | none => raise 2 7 0
      | some t => updThread (fun _ => t)
    else
      let v ← readS a
      match writeSys (← thread) n.toNat v with
      | none => raise 2 7 0
      | some t => updThread (fun _ => t)
    return .seq) s

/-- rdtime (R174). -/
def execRdtime (d : BitVec 6) (s : State) : Host.Outcome State Fault Refusal :=
  runWord false false (.rdtime d) (do
    let s ← get
    writeS d (w64 (localPt s s.turn))
    return .seq) s

/-- rdcnt (R173). -/
def execRdcnt (d a : BitVec 6) (s : State) : Host.Outcome State Fault Refusal :=
  runWord false false (.rdcnt d a) (do
    let n ← readS a
    roomFor s d
    let c ← core
    writeS d (if n.toNat > 7 then 0 else mapGet 0 c.counters n.toNat)
    return .seq) s

/-- trap (R175): the examination of R148 first, then handler entry with EPC at the word that follows. -/
def execTrap (i : BitVec 18) (s : State) : Host.Outcome State Fault Refusal :=
  runWord false false (.trap i) (do
    let s ← get
    let t := (← thread).next
    updThread (fun _ => t)
    modify (fun s' => handlerEntry s' s.turn (causeWord 16 0 i.toNat false none) 0 t.pc)
    return .done) s

/-- A debug stop is armed for a block (R414). -/
def debugArmed (s : State) (m : Nat) : Bool :=
  (partAt s (mcbAt s m).part.toNat).bps.any (fun e => e.2.getLsbD 49 && fieldNat e.2 50 14 == m)

/-- A debug stop of a block's plot (R415): the halt line, and the stop records of every agent. -/
def debugStop (s : State) (m : Nat) : State :=
  let s := stopEngines (s.updInv m (fun i => { i with debugStop := true })) m
  let rs := plotRecords s m 3
  s.updPart (mcbAt s m).part.toNat (fun p =>
    { p with debugStops := p.debugStops ++ rs })

/-- brkpt (R169): a debug stop with the pc at the word, or handler entry. -/
def execBrkpt (s : State) : Host.Outcome State Fault Refusal :=
  match (coreAt s s.turn).bound with
  | none => .next s
  | some m =>
    if debugArmed s m then .next (debugStop s m)
    else .next (handlerEntry (countIssue s s s.turn false) s.turn (causeWord 17 0 0 false none) 0 (coreAt s s.turn).th.pc)

/-- trapret (R176); then a report that is held pending and has a handler route is taken (R388). -/
def execTrapret (s : State) : Host.Outcome State Fault Refusal :=
  runWord false false .trapret (do
    let t ← thread
    if !t.h then raise 2 5 0
    if fieldNat t.estatus 8 56 ≠ 0 || fieldNat t.estatus 2 2 ≠ 0 then raise 2 6 0
    updThread (fun t => t.leave)
    modify (fun s =>
      match (coreAt s s.turn).pending, (coreAt s s.turn).bound with
      | f :: _, some m =>
        if (coreAt s s.turn).th.h then s
        else if routeOf s m f.cls = 1 then
          let s := stopEngines (s.updInv m (fun i => { i with held := true })) m
          s.updRings (mcbAt s m).part.toNat (fun p => p.pushFault (plotRecords s m 0))
        else takeReport s s.turn
      | _, _ => s)
    return .done) s

/-- The thread of core k retires (R170): it holds no further state of the invocation, but for words in its queue ports and
the matrix engine, which may run tasks that other cores posted. -/
def Core.retire (c : Core) : Core :=
  { c with retired := true, th := { Thread.reset with eseed := c.th.eseed }, hold := none, om := [], cmds := [], chains := [], posted := [], hoard := [] }

/-- exit (R170). A command that has done its effects and waits for room in qc still holds the drain (DESIGN CHOICE: R124 tells completing and posting
apart, and R170 asks that every queued command completes). -/
def execExit (s : State) : Host.Outcome State Fault Refusal :=
  runWord false false .exit (do
    let c ← core
    if !c.cmds.isEmpty || !logDrained (← get) (← self) then waitOn .drain
    if c.struck.isSome then waitOn .struck
    modify (fun s => closeRegion (s.setCore s.turn (coreAt s s.turn).retire) s.turn)
    return .done) s

/-- Removes what the invocation of core k has put into the transducer lanes from it. -/
def dropLaneEntries (s : State) (k : Nat) : State :=
  { s with lanes := s.lanes.map (fun l => (l.1, { l.2 with
      queue := l.2.queue.filter (fun e => !(e.core == k && e.inv == invSerial s k)) })) }

/-- The waits of core k's commands and hoard-log entries end as its thread abandons them: they are recorded as withdrawn (DESIGN CHOICE: R410
names no outcome for it). -/
def dropWaits (s : State) (k : Nat) : State :=
  (coreAt s k).cmds.foldl (fun s x => endCmdWaits s k x 1) ((coreAt s k).hoard.foldl (fun s h => endHoardWait s s k 1 h) s)

/-- exit.abandon (R171). -/
def execExitAbandon (s : State) : Host.Outcome State Fault Refusal :=
  runWord false false .exitAbandon (do
    modify (fun s =>
      let s := dropWaits (dropLaneEntries s s.turn) s.turn
      closeRegion (s.setCore s.turn (coreAt s s.turn).retire) s.turn)
    return .done) s

end Sys2Proof.Machine
end

