-- ==== Sys2Proof/Machine/Numbers.lean ====
section
/-!
DEFINITION. Number formats and their conversions (R63 to R72), format-table entries (R73), matrix summation (R75, R76) and the
stochastic generator (R70).
-/
namespace Sys2Proof.Machine

/-- A value of some format: not a number, an infinity, or (-1)^neg * m * 2^e, with m = 0 for a signed zero. -/
inductive Num where
  | nan
  | inf (neg : Bool)
  | fin (neg : Bool) (m : Nat) (e : Int)
  deriving DecidableEq, Repr

/-- A format: IEEE with its precision and exponent width, P3109 with its precision (R65), or an integer range. -/
inductive Fmt where
  | ieee (p ebits : Nat)
  | b8 (p : Nat) (signed fin : Bool)
  | int (lo hi : Int) (bits : Nat)
  deriving DecidableEq, Repr

def fp64 : Fmt := .ieee 53 11
def fp32 : Fmt := .ieee 24 8
def fp16 : Fmt := .ieee 11 5
def bf16 : Fmt := .ieee 8 8
def int32 : Fmt := .int (-(2 ^ 31)) (2 ^ 31 - 1) 32

/-- The format of a format code; every other code is reserved (R63). -/
def fmtOf (code : Nat) : Option Fmt :=
  if code ≤ 0x1B then some (.b8 (code / 4 + 1) (code / 2 % 2 == 0) (code % 2 == 1))
  else match code with
    | 0x1C => some (.int (-128) 127 8)
    | 0x1D => some (.int 0 255 8)
    | 0x20 => some bf16
    | 0x21 => some fp16
    | 0x22 => some fp32
    | 0x23 => some fp64
    | 0x24 => some int32
    | _ => none

/-- Width in bits. -/
def Fmt.width : Fmt → Nat
  | .ieee p e => p + e
  | .b8 _ _ _ => 8
  | .int _ _ n => n

/-- Width in bytes. -/
def Fmt.bytes (f : Fmt) : Nat := f.width / 8

/-- Exponent bits of a P3109 format (R65). -/
def b8w (p : Nat) (signed : Bool) : Nat := if signed then 8 - p else 9 - p
/-- Its bias. -/
def b8bias (p : Nat) (signed : Bool) : Nat := 2 ^ (b8w p signed - 1)

/-- Bias of an IEEE format. -/
def ieeeBias (ebits : Nat) : Nat := 2 ^ (ebits - 1) - 1

/-- The exponent of the smallest spacing of a format. -/
def Fmt.emin : Fmt → Int
  | .ieee p eb => 2 - (ieeeBias eb : Int) - p
  | .b8 p s _ => 2 - (b8bias p s : Int) - p
  | .int _ _ _ => 0

/-- Precision; an integer format takes any number of bits. -/
def Fmt.prec : Fmt → Option Nat
  | .ieee p _ => some p
  | .b8 p _ _ => some p
  | .int _ _ _ => none

/-- The value of a magnitude code of precision p: exponent field above p - 1 fraction bits (R64, R65). -/
def decodeMag (p : Nat) (emin : Int) (neg : Bool) (c : Nat) : Num :=
  let e := c / 2 ^ (p - 1)
  let t := c % 2 ^ (p - 1)
  if e = 0 then .fin neg t emin else .fin neg (2 ^ (p - 1) + t) (emin + e - 1)

/-- A two's complement or unsigned code as an integer. -/
def intOf (lo : Int) (bits c : Nat) : Int := if lo < 0 && c ≥ 2 ^ (bits - 1) then (c : Int) - 2 ^ bits else c

/-- An integer as a value. -/
def Num.ofInt (i : Int) : Num := .fin (decide (i < 0)) i.natAbs 0

/-- The value of a code (R64, R65, R67). -/
def Fmt.decode (f : Fmt) (c : Nat) : Num :=
  match f with
  | .ieee p eb =>
    let neg := c / 2 ^ (p + eb - 1) % 2 == 1
    let a := c % 2 ^ (p + eb - 1)
    if a / 2 ^ (p - 1) = 2 ^ eb - 1 then (if a % 2 ^ (p - 1) = 0 then .inf neg else .nan)
    else decodeMag p f.emin neg a
  | .b8 p signed finite =>
    let nanCode := if signed then 0x80 else 0xFF
    if c = nanCode then .nan
    else if !finite && c = (if signed then 0x7F else 0xFE) then .inf false
    else if !finite && signed && c = 0xFF then .inf true
    else if signed then decodeMag p f.emin (c ≥ 0x80) (c % 0x80)
    else decodeMag p f.emin false c
  | .int lo _ n => Num.ofInt (intOf lo n c)

/-- The canonical NaN, or the NaN code, of a format; 0 of an integer format (R64, R66, R71). -/
def Fmt.nanCode : Fmt → Nat
  | .ieee p eb => (2 ^ eb - 1) * 2 ^ (p - 1) + 2 ^ (p - 2)
  | .b8 _ signed _ => if signed then 0x80 else 0xFF
  | .int _ _ _ => 0

/-- The sign bit of a format. -/
def Fmt.signBit : Fmt → Nat
  | .ieee p eb => 2 ^ (p + eb - 1)
  | .b8 _ signed _ => if signed then 0x80 else 0
  | .int _ _ _ => 0

/-- The format has negative values. -/
def Fmt.signed : Fmt → Bool
  | .ieee _ _ => true
  | .b8 _ s _ => s
  | .int lo _ _ => decide (lo < 0)

/-- The magnitude code of MAX (R66, R71). -/
def Fmt.maxCode : Fmt → Nat
  | .ieee p eb => (2 ^ eb - 1) * 2 ^ (p - 1) - 1
  | .b8 _ signed finite => if signed then (if finite then 0x7F else 0x7E) else (if finite then 0xFE else 0xFD)
  | .int _ hi _ => hi.toNat

/-- The magnitude code of an infinity, where the format has one. -/
def Fmt.infCode : Fmt → Option Nat
  | .ieee p eb => some ((2 ^ eb - 1) * 2 ^ (p - 1))
  | .b8 _ signed finite => if finite then none else some (if signed then 0x7F else 0xFE)
  | .int _ _ _ => none

/-- Bits of a number. -/
def bitLen (n : Nat) : Nat := if n = 0 then 0 else n.log2 + 1

/-- Rounding modes (R69): 0 RNE, 1 RZ, 2 RU, 3 RD, 4 RNA, 5 SR with its random half. -/
def roundsUp (mode : Nat) (neg tieOdd : Bool) (rem shift rnd : Nat) : Bool :=
  if rem = 0 then false else
  match mode with
  | 0 => decide (2 * rem > 2 ^ shift) || (2 * rem == 2 ^ shift && tieOdd)
  | 1 => false
  | 2 => !neg
  | 3 => neg
  | 4 => decide (2 * rem ≥ 2 ^ shift)
  | _ => decide (rnd % 65536 < rem * 65536 / 2 ^ shift)

/-- m * 2^e rounded to a precision and a least spacing, with no greatest exponent: the significand and its exponent. -/
def roundMag (prec : Option Nat) (emin : Int) (mode : Nat) (neg : Bool) (rnd m : Nat) (e : Int) : Nat × Int :=
  let u := match prec with
    | none => emin
    | some p => Max.max (e + bitLen m - p) emin
  if u ≤ e then (m * 2 ^ (e - u).toNat, u)
  else
    let sh := (u - e).toNat
    let q := m / 2 ^ sh
    let odd := if prec = some 1 then decide (q ≠ 0) && (u - emin) % 2 == 0 else q % 2 == 1
    if roundsUp mode neg odd (m % 2 ^ sh) sh rnd then (q + 1, u) else (q, u)

/-- The magnitude code of a significand and exponent that `roundMag` gave. -/
def magCode (p : Nat) (emin : Int) (q : Nat) (u : Int) : Nat :=
  let (q, u) := if q = 2 ^ p then (2 ^ (p - 1), u + 1) else (q, u)
  if q < 2 ^ (p - 1) then q else (u - emin + 1).toNat * 2 ^ (p - 1) + (q - 2 ^ (p - 1))

/-- A conversion's code with its overflow and NaN counts (R71, R72). -/
structure Conv where
  code : Nat
  ovf : Nat
  nan : Nat
  deriving DecidableEq, Repr

/-- The smallest value's code: -MAX, or the least integer; 0 for an unsigned format. -/
def Fmt.lowCode (f : Fmt) : Nat :=
  match f with
  | .int lo _ n => (lo % 2 ^ n).toNat
  | .b8 _ false _ => 0
  | f => f.signBit + f.maxCode

/-- RoundTo (R71). `rnd` is the word's 16 random bits under SR. -/
def roundTo (f : Fmt) (mode rnd : Nat) (x : Num) : Conv :=
  match x with
  | .nan => ⟨f.nanCode, 0, 1⟩
  | .inf false =>
    match f.infCode with
    | some c => ⟨c, 0, 0⟩
    | none => ⟨f.maxCode, 1, 0⟩
  | .inf true =>
    match f.infCode, f.signed with
    | some c, true => ⟨f.signBit + c, 0, 0⟩
    | _, _ => ⟨f.lowCode, 1, 0⟩
  | .fin neg m e =>
    let (q, u) := roundMag f.prec f.emin mode neg rnd m e
    if q = 0 then ⟨(match f with | .ieee _ _ => if neg then f.signBit else 0 | _ => 0), 0, 0⟩
    else if neg && !f.signed then ⟨0, 1, 0⟩
    else
      match f with
      | .int lo hi n =>
        let v : Int := if neg then -(q * 2 ^ u.toNat : Nat) else (q * 2 ^ u.toNat : Nat)
        if v > hi then ⟨hi.toNat, 1, 0⟩ else if v < lo then ⟨f.lowCode, 1, 0⟩ else ⟨(v % 2 ^ n).toNat, 0, 0⟩
      | _ =>
        let c := magCode (f.prec.getD 1) f.emin q u
        let sign := if neg then f.signBit else 0
        if c > f.maxCode then ⟨sign + f.maxCode, 1, 0⟩ else ⟨sign + c, 0, 0⟩

/-- RoundAcc (R75): RNE under IEEE 754, with overflow to infinity and the canonical NaN. -/
def roundAcc (f : Fmt) (x : Num) : Nat :=
  match x with
  | .nan => f.nanCode
  | .inf neg => (if neg then f.signBit else 0) + f.infCode.getD 0
  | .fin neg m e =>
    let (q, u) := roundMag f.prec f.emin 0 neg 0 m e
    let c := magCode (f.prec.getD 1) f.emin q u
    (if neg then f.signBit else 0) + (if c > f.maxCode then f.infCode.getD 0 else c)

/-- The value that RoundAcc gives. -/
def roundNum (f : Fmt) (x : Num) : Num := f.decode (roundAcc f x)

-- Exact arithmetic

/-- The negative of a value. -/
def Num.neg : Num → Num
  | .nan => .nan
  | .inf s => .inf !s
  | .fin s m e => .fin (!s) m e

/-- The exact sum: x + (-x) is +0, and a sum of two zeros is -0 only when both are. -/
def Num.add : Num → Num → Num
  | .nan, _ => .nan
  | _, .nan => .nan
  | .inf a, .inf b => if a = b then .inf a else .nan
  | .inf a, _ => .inf a
  | _, .inf b => .inf b
  | .fin a m e, .fin b n f =>
    let g := Min.min e f
    let x : Int := (m * 2 ^ (e - g).toNat : Nat)
    let y : Int := (n * 2 ^ (f - g).toNat : Nat)
    let t := (if a then -x else x) + (if b then -y else y)
    if t = 0 then .fin (decide (m = 0) && decide (n = 0) && a && b) 0 g else .fin (decide (t < 0)) t.natAbs g

/-- The exact product: 0 times an infinity is not a number. -/
def Num.mul : Num → Num → Num
  | .nan, _ => .nan
  | _, .nan => .nan
  | .inf a, .inf b => .inf (a != b)
  | .inf a, .fin b n _ => if n = 0 then .nan else .inf (a != b)
  | .fin a m _, .inf b => if m = 0 then .nan else .inf (a != b)
  | .fin a m e, .fin b n f => .fin (a != b) (m * n) (e + f)

/-- Not a number. -/
def Num.isNan : Num → Bool
  | .nan => true
  | _ => false

/-- The comparison of two numbers, zeros equal; nothing where one is not a number. -/
def Num.cmp : Num → Num → Option Ordering
  | .nan, _ => none
  | _, .nan => none
  | .inf a, .inf b => some (if a = b then .eq else if a then .lt else .gt)
  | .inf a, _ => some (if a then .lt else .gt)
  | _, .inf b => some (if b then .gt else .lt)
  | .fin a m e, .fin b n f =>
    let g := Min.min e f
    let x : Int := (m * 2 ^ (e - g).toNat : Nat)
    let y : Int := (n * 2 ^ (f - g).toNat : Nat)
    some (compare (if a then -x else x) (if b then -y else y))

/-- The sign of a value. -/
def Num.isNeg : Num → Bool
  | .nan => false
  | .inf s => s
  | .fin s _ _ => s

-- Stochastic rounding (R70)

/-- One step of a generator. -/
def srStep (x : W32) : W32 :=
  let x := x ^^^ (x <<< 13)
  let x := x ^^^ (x >>> 17)
  x ^^^ (x <<< 5)

/-- The random bits of lane or column i. -/
def srBits (word : W32) (i : Nat) : Nat := (word.rotateLeft (5 * i % 32)).toNat % 65536

/-- What a core's generators hold at binding. -/
def seedAt (k : Nat) : W32 := 0x2545F491 ^^^ BitVec.ofNat 32 k

-- Format-table entries (R73)

def entA (e : W64) : Nat := fieldNat e 0 8
def entB (e : W64) : Nat := fieldNat e 8 8
def entO (e : W64) : Nat := fieldNat e 16 8
def entAsc (e : W64) : Bool := e.getLsbD 33
def entBsc (e : W64) : Bool := e.getLsbD 34
/-- Accumulate type: 0 FP32, 1 INT32, 2 FP64. -/
def entAcc (e : W64) : Nat := fieldNat e 35 2
def entRm (e : W64) : Nat := fieldNat e 37 3

/-- An entry that a matrix word or a task record takes. -/
def entryValid (e : W64) : Bool :=
  let a := entA e
  let b := entB e
  let noScale := !entAsc e && !entBsc e
  fieldNat e 40 24 == 0 && fieldNat e 24 9 == 0 && decide (entRm e ≤ 5) && (fmtOf (entO e)).isSome &&
  (match entAcc e with
   | 0 => (decide (a ≤ 0x1B) && decide (b ≤ 0x1B)) || (noScale && a == b && (a == 0x20 || a == 0x21 || a == 0x22))
   | 1 => noScale && (a == 0x1C || a == 0x1D) && (b == 0x1C || b == 0x1D)
   | 2 => noScale && a == 0x23 && b == 0x23
   | _ => false)

/-- The accumulate format of an entry. -/
def accFmt (acc : Nat) : Fmt := if acc = 2 then fp64 else if acc = 1 then int32 else fp32

-- Products and sums of the matrix array

/-- Significand bits, slices and greatest slice sum of a mode (R76), by the A format. -/
def sliceMode (f : Fmt) : Nat × Nat × Nat :=
  match f with
  | .ieee 11 _ => (11, 2, 2)
  | .ieee 24 _ => (24, 3, 2)
  | .ieee 53 _ => (53, 7, 6)
  | _ => (8, 1, 0)

/-- Slice i of a significand of n slices, most significant first. -/
def slice (n m i : Nat) : Nat := m / 2 ^ (8 * (n - 1 - i)) % 256

/-- The kept slice products of two aligned significands. -/
def sliceProd (n l a b : Nat) : Nat :=
  (List.range n).foldl (fun p i => (List.range n).foldl (fun p j =>
    if i + j ≤ l then p + slice n a i * slice n b j * 2 ^ (8 * (2 * n - 2 - i - j)) else p) p) 0

/-- Prod of two inputs of a mode (R76). -/
def prod (f : Fmt) (a b : Num) : Num :=
  match a, b with
  | .fin sa ma qa, .fin sb mb qb =>
    let (m, n, l) := sliceMode f
    let sh := 8 * n - m
    .fin (sa != sb) (sliceProd n l (ma * 2 ^ sh) (mb * 2 ^ sh)) (qa + qb - 2 * sh)
  | a, b => a.mul b

/-- The sum of one group (R75): -0 only when every product is -0. -/
def groupSum : List Num → Num
  | [] => .fin false 0 0
  | p :: ps => ps.foldl Num.add p

/-- The factor of a UE8 scale byte (R68). -/
def scaleOf (e : Nat) : Num := if e = 255 then .nan else .fin false 1 ((e : Int) - 127)

/-- A scaled group sum. -/
def scaled (s a b : Num) : Num := (s.mul a).mul b

/-- One accumulator update with a scaled group sum: the new code and whether it saturated (R75). -/
def accStep (acc : Nat) (c : Nat) (s : Num) : Nat × Nat :=
  if acc = 1 then
    let cv := intOf (-1) 32 c
    let sv : Int := match s with
      | .fin neg m e => if neg then -(m * 2 ^ e.toNat : Nat) else (m * 2 ^ e.toNat : Nat)
      | _ => 0
    let t := cv + sv
    if t > 2 ^ 31 - 1 then (2 ^ 31 - 1, 1) else if t < -(2 ^ 31) then (2 ^ 31, 1) else ((t % 2 ^ 32).toNat, 0)
  else
    let f := accFmt acc
    (roundAcc f ((f.decode c).add (roundNum f s)), 0)

/-- The FP32 and FP64 sums of red.fadd (R231). -/
def faddBits (wide : Bool) (a b : Nat) : Nat :=
  let f := if wide then fp64 else fp32
  roundAcc f ((f.decode a).add (f.decode b))

-- The end-to-end check (R246)

/-- One bit of the CRC-16 with polynomial 0x8BB7. -/
def crcBit (c : Nat) : Nat := if c ≥ 2 ^ 15 then (2 * c % 2 ^ 16) ^^^ 0x8BB7 else 2 * c
/-- One byte, its most significant bit first. -/
def crcByte (c : Nat) (b : Byte) : Nat := (List.range 8).foldl (fun c _ => crcBit c) (c ^^^ (b.toNat * 256))
/-- The check of bytes in ascending address order. -/
def crc16 (bs : List Byte) : Nat := bs.foldl crcByte 0

end Sys2Proof.Machine
end

