-- ==== Sys2Proof/Machine/Access.lean ====
section
/-!
DEFINITION. What a memory word does once its operands are known: loads, stores, full/empty forms, atomics, reductions and
barrier forms of a control thread (R209 to R215), in the form that a hoard-log entry performs them too (R201).
-/
namespace Sys2Proof.Machine

/-- The control thread that runs the word, as an accessing agent. -/
def me : M Who := do
  let s ← get
  return whoThread s s.turn

/-- An effective offset: the cursor and a signed offset (R209). -/
def offsetFrom (c : Cap) (off : Int) : Int := (c.cur : Int) + off

/-- A scaled immediate of a CM word. -/
def scaledImm (i : BitVec 10) (n : Nat) : Int := i.toInt * n

/-- A synchronising or capability access must be naturally aligned (R210). -/
def aligned (a n : Nat) : M Unit := if a % n ≠ 0 then raise 0 7 a else pure ()

/-- The capability checks of a form that GSRAM alone admits (R212): tag, range, bounds, rights, space, alignment; SYS, where it is needed, follows.
The space before the alignment, and both before SYS, is a DESIGN CHOICE: R210 gives them no order. -/
def checkGsram (c : Cap) (need : BitVec 12) (ea : Int) (n : Nat) : M Nat := do
  let a ← checkCap c need ea n
  if c.sp ≠ spGSRAM then raise 0 3 a
  aligned a n
  return a

/-- Where a watchpoint's report of a thread's form goes (R418): SUB 0 is precise, and the others are not. -/
def watchReport (sub : Nat) (hit : Option Nat) : M Unit := do watchThread (← self) sub (sub ≠ 0) hit

/-- A match of a memory-side form is told by the offset of its word (R418). -/
def watchWord (w : Who) (a : Nat) (r : Res) (n : Nat) : M (Option Nat) := do
  return (← watchAccess w .sync a r n).map (fun _ => a)

-- Loads and stores

/-- A wait of a split load carries the bytes of the pieces that have performed, and the first match among them. -/
def keepGot {α : Type} (got : List Byte) (hit : Option Nat) (x : M α) : M α :=
  tryCatch x (fun e => match e with
    | .wait h => throw (.wait { h with got := got, hit := hit })
    | e => throw e)

/-- The pieces of a load that have not performed, one at each step: each is resolved and checked when it performs (R211, R371). -/
def loadPieces (w : Who) (c : Cap) (got : List Byte) (hit : Option Nat) : List (Nat × Nat) → M (List Byte × Option Nat)
  | [] => pure (got, hit)
  | (off, n) :: rest => do
    let (bs, h) ← keepGot got hit (do
      let r ← resolve w c.obj c.sp off { write := false }
      behindFlights r n
      answers r n off
      readPieces w true .read c.obj [(off, n, r)])
    if rest.isEmpty then return (got ++ bs, hit.or h)
    else keepGot (got ++ bs) (hit.or h) (waitOn .pieces)

/-- The bytes that core k's held load has read, and what a watchpoint matched of them. -/
def loadGot (s : State) (k : Nat) : List Byte × Option Nat :=
  match (coreAt s k).hold with
  | none => ([], none)
  | some h => (h.got, h.hit)

/-- A plain load of n bytes through a capability (R209, R211 to R213). -/
def loadBytes (c : Cap) (ea : Int) (n : Nat) : M Nat := do
  let a ← checkCap c permLD ea n
  let w := { (← me) with start := some a }
  let (got, hit) := loadGot (← get) w.core
  keepGot got hit (do
    waitHoard w.core c.obj a n
    behindPosted c.sp)
  let (bs, hit) ← loadPieces w c got hit ((atomPieces c.sp (atomFuel n) a n).filter (fun p => decide (a + got.length ≤ p.1)))
  watchReport 0 hit
  return leNat bs

/-- The value that a load of size code sz gives (R216): 0 b, 1 bu, 2 h, 3 hu, 4 w, 5 wu, 6 d. -/
def loadValue (sz : Nat) (v : Nat) : W64 :=
  match sz with
  | 0 => (BitVec.ofNat 8 v).signExtend 64
  | 2 => (BitVec.ofNat 16 v).signExtend 64
  | 4 => (BitVec.ofNat 32 v).signExtend 64
  | _ => w64 v

/-- Bytes of size code sz. -/
def sizeOfCode (sz : Nat) : Nat := 2 ^ (sz / 2)

/-- An agent that is a control thread. -/
def AgentId.isThread : AgentId → Bool
  | .thread _ _ => true
  | _ => false

/-- A thread's write to a place goes on its way: its far side does not answer, or an earlier write of the core to that space is still on its
way (R212, R374). -/
def flies (s : State) (w : Who) (r : Res) (n : Nat) : Bool :=
  silent s r.key n || (decide (2 ≤ r.sp) && (coreAt s w.core).flight.any (fun f => f.place.sp == r.sp))

/-- Confirmed pieces of a write go on their way: they take their place in their lines' write order now (R371). What a watchpoint matches
is answered. -/
def launch (w : Who) (op : HoardOp) (c : Cap) (start : Nat) : List Byte → List (Nat × Nat × Res) → M (Option Nat)
  | _, [] => pure none
  | bs, (off, n, r) :: rest => do
    let s ← get
    let f : Flight := ⟨op, w, c, off, r, bs.take n, start, s.pt⟩
    set ((stampLines s w w.region r.key n).updCore w.core (fun x => { x with flight := x.flight ++ [f] }))
    let hit ← if badPartial s r.key n then pure none else watchAccess w .write off r n
    return hit.or (← launch w op c start (bs.drop n) rest)

/-- A thread's store whose pieces have passed their checks: the first performs where it can, and the later ones after it (R211). -/
def postStore (w0 : Who) (c : Cap) (a : Nat) (bs : List Byte) : List (Nat × Nat × Res) → M (Option Nat × Option (Nat × Nat))
  | [] => pure (none, none)
  | (off, n, r) :: rest => do
    let w := { w0 with start := some a }
    if flies (← get) w r n then return (← launch w .store c a bs ((off, n, r) :: rest), none)
    else
      let (hit, bad) ← writePieces w .write c.obj (bs.take n) [(off, n, r)]
      return (hit.or (← launch w .store c a (bs.drop n) rest), bad)

/-- Bytes written through a capability: every piece is resolved and checked before any performs (R211). The race check raises SUB `sub`. A
thread's store is cut at atomic blocks, unless it is one single-copy atomic write; an engine's beat is not, and goes to HOST as a posted write
(R382). A watchpoint match, and the class and subcode of a failed merge (R213), are answered. -/
def storeAt (w : Who) (sub : Nat) (c : Cap) (a : Nat) (bs : List Byte) (acc : Access) (whole : Bool := false) :
    M (Option Nat × Option (Nat × Nat)) := do
  needSys w c a
  let cuts := if w.agent.isThread && !whole then atomPieces c.sp (atomFuel bs.length) a bs.length
    else pagePieces (pageFuel bs.length) a bs.length
  let ps ← resolveStore w c.obj c.sp acc cuts
  tryCatch (racePieces w ps) (fun e => match e with
    | .fault f => throw (.fault { f with sub := sub })
    | e => throw e)
  permitsAll ps
  let s ← get
  if w.agent.isThread then postStore w c a bs ps
  else if c.sp = spHOST && ps.any (fun p => flies s w p.2.2 p.2.1) then return (← launch w .store c a bs ps, none)
  else
    answersAll ps
    if w.counting = .beat then
      let out ← writePieces { w with counting := .apart } .write c.obj bs (byLines ps)
      modify (fun s => ps.foldl (fun s p => countAccess s w c.obj p.1 p.2.1 p.2.2) s)
      return out
    else writePieces w .write c.obj bs (byLines ps)

/-- Sets the tag of the granule at an offset of an object, in a space that holds tags (R178). -/
def setTagAt (r : Res) (tag : Bool) : M Unit :=
  modify (fun s => if tagged r.sp then { s with tags := mapSet false s.tags (r.key / 16) tag } else s)

/-- Sets the tags of granules at offsets of an object that a copy has just written (R253). -/
def setTags (w : Who) (c : Cap) : List Nat → M Unit
  | [] => pure ()
  | g :: rest => do
    setTagAt (← resolve w c.obj c.sp g { write := true }) true
    setTags w c rest

/-- Bytes of an offset that a mask selects, as runs. -/
def maskRuns : Nat → List Byte → List Bool → List (Nat × List Byte)
  | a, b :: bs, m :: ms =>
    match m, maskRuns (a + 1) bs ms with
    | false, rest => rest
    | true, (c, more) :: rest => if c = a + 1 then (a, b :: more) :: rest else (a, [b]) :: (c, more) :: rest
    | true, [] => [(a, [b])]
  | _, _, _ => []

/-- Runs that meet made one. -/
def joinRuns : List (Nat × List Byte) → List (Nat × List Byte)
  | [] => []
  | (a, bs) :: rest =>
    match joinRuns rest with
    | (b, cs) :: more => if a + bs.length = b then (a, bs ++ cs) :: more else (a, bs) :: (b, cs) :: more
    | [] => [(a, bs)]

/-- Runs of bytes of one line written as one access (R300): like `storeAt`, and counted once. A beat of the whole line is one write of
it (R394, R409). -/
def storeRuns (w : Who) (sub : Nat) (c : Cap) (runs : List (Nat × List Byte)) (acc : Access) :
    M (Option Nat × Option (Nat × Nat)) := do
  match joinRuns runs with
  | [] => return (none, none)
  | (a0, b0) :: more =>
    needSys w c a0
    let r0 ← resolve w c.obj c.sp a0 acc
    if (raceLine (← get) w r0.key 1).isSome then raise 6 sub a0
    let s ← get
    let pieces := ((a0, b0) :: more).map (fun p => (p.1, p.2, { r0 with key := r0.key + (p.1 - a0), addr := r0.addr + (p.1 - a0) }))
    if c.sp = spHOST && flies s w r0 1 then
      permits r0 1 a0
      let hits ← pieces.mapM (fun p => launch { w with counting := if p.1 = a0 then w.counting else .apart } .store c a0 p.2.1
        [(p.1, p.2.1.length, p.2.2)])
      return (hits.findSome? id, none)
    answers r0 1 a0
    if pieces.any (fun p => badPartial s p.2.2.key p.2.1.length) then return (none, some (7, badSub s r0 1))
    else
      modify (fun s => countAccess (pieces.foldl (fun s p =>
        let n := p.2.1.length
        let s := putBytes s (tweakOf s w.mcb p.2.2.dir c.obj p.1) p.2.2.key p.2.1
        markBytes (stampLines s w w.region p.2.2.key n) w EdgeSet.none p.2.2.key n) s) w c.obj a0 1 r0)
      let hits ← pieces.mapM (fun p => watchAccess w .write p.1 p.2.2 p.2.1.length)
      return (hits.findSome? id, none)

/-- The reports that follow a thread's write: a watchpoint match, and a failed merge. -/
def afterWrite (sub a : Nat) (r : Option Nat × Option (Nat × Nat)) : M Unit := do
  watchReport sub r.1
  lateFault (← self) a r.2

/-- The reports that follow a thread's posted memory-side form. -/
def afterPosted (a : Nat) (r : Option Nat × Option (Nat × Nat)) : M Unit := do
  strike (← self) r.1
  lateFault (← self) a r.2

/-- Marks the core when it has stored to PMEM (R235). -/
def notePmem (sp : Nat) : M Unit := if sp = spPMEM then updCore (fun c => { c with pmemDirty := true }) else pure ()

/-- A write that enters the hoard log behind an earlier HOST write of the thread that it must not pass (R212, R374). -/
def behindHost (s : State) (w : Who) (sp : Nat) : Bool :=
  sp == spHOST && (coreAt s w.core).hoard.any (fun h => h.cap.sp == spHOST && h.who.agent.isThread)

/-- What a thread's write meets before it performs: it faults, it parks on an extent entry, or it could perform; nothing of it performs. -/
def probe (x : M Unit) : M Nat := fun s =>
  match x s with
  | .ok _ s1 => .ok 0 (rollBack s s1)
  | .error (.wait h) s1 => if h.kind = .parked then .ok h.extent (rollBack s s1) else .error (.wait h) s1
  | .error e s1 => .error e s1

/-- Runs a thread's write of a space: it performs, or enters the hoard log where it parks (R199) or may not pass an earlier write, with its fault
checks passed (R211). -/
def orBehind (w : Who) (op : HoardOp) (c : Cap) (a : Nat) (bs : List Byte) (x : M Unit) : M Unit := do
  if behindHost (← get) w c.sp then hoardPut w op c a bs (← probe x) else orHoard w op c a bs x

/-- A plain store of bytes through a capability (R219). -/
def storeBytes (c : Cap) (ea : Int) (bs : List Byte) : M Unit := do
  let a ← checkCap c (if c.sp = spPMEM then permST ||| permPERSIST else permST) ea bs.length
  if c.sp = spNET then raise 0 3 a
  let w ← me
  waitHoard w.core c.obj a bs.length
  orBehind w .store c a bs (do afterWrite 0 a (← storeAt w 1 c a bs { write := true }))
  notePmem c.sp

/-- A capability written with its tag (R217): the object's SHARED flag asks for SHARE in the capability itself, also where the page parks. -/
def storeCapAt (w : Who) (sub : Nat) (c : Cap) (a : Nat) (v : Cap) (acc : Access) : M (Option Nat × Option (Nat × Nat)) := do
  needSys w c a
  let r ← tryCatch (resolve w c.obj c.sp a acc) (fun e => do
    match e with
    | .wait _ => if v.tag && dirShared (readDir (← get) w.mcb c.obj) && !v.has permSHARE then raise 0 2 a
    | _ => pure ()
    throw e)
  if v.tag && dirShared r.dir && !v.has permSHARE then raise 0 2 a
  let out ← storeAt w sub c a (leBytes 16 v.bits.toNat) acc true
  if out.2.isNone then setTagAt r v.tag
  return out

-- Full/empty words

/-- What a release by an agent gives: a thread's edges, or the direct edge of a task, all of whose writes lie in region 0 (R352, R363, R364). -/
def releaseEdges (s : State) (w : Who) : EdgeSet :=
  if w.agent.isThread then threadEdges s w.core else EdgeSet.one w.agent 0

/-- A state-changing form of a thread performs at its word (R221): the mark's edges are acquired, and the form is a release. The completion word
of a task is a release alone (R349). -/
def passFlag (w : Who) (r : Res) : M Unit :=
  if w.agent.isThread then
    modify (fun s => closeRegion (acquire s w.core (((mapFind s.feMark (r.key / 8)).map (·.edges)).getD EdgeSet.none)) w.core)
  else pure ()

/-- The word of a form that changes its bit: the bit is set, and the next form's edge is from this one (R221). -/
def changeFlag (w : Who) (r : Res) (full : Bool) : M Unit := do
  let rel := releaseEdges (← get) w
  passFlag w r
  modify (fun s => markDirty { s with
    fe := mapSet false s.fe (r.key / 8) full, feMark := mapPut s.feMark (r.key / 8) ⟨rel, w.setter⟩ } (keySpace r.key) (keyAddr r.key))

/-- When core k's form reached the controller of a word, if it waits there. -/
def reached (s : State) (k key : Nat) : Nat :=
  match (coreAt s k).hold with
  | some h => if h.kind = .flag ∧ h.flag = key then h.since else s.pt
  | none => s.pt

/-- A form of another core, or a replayed st.ef of any, that reached the controller earlier and whose condition holds now performs first
(R220). -/
def laterThanOthers (s : State) (mine : Nat) (k key : Nat) (wantFull : Bool) : Bool :=
  s.cores.any (fun e =>
    (e.1 != k && threadRuns s e.1 && (match e.2.hold with
      | some h => h.kind == .flag && h.flag == key && decide (h.since < mine) &&
          (match h.ins with | .stEf _ _ _ _ => !wantFull | _ => wantFull)
      | none => false)) ||
    (!wantFull && e.2.hoard.any (fun h => h.held.any (fun r => r.key == key) && decide ((h.wait.map (·.1)).getD mine < mine))))

/-- A form waits at its controller (R220, R240): the place and grant that sent it. -/
def waitAt {α : Type} (kind : WaitKind) (obj off : Nat) (r : Res) (until_ : Nat := 0) : M α :=
  throw (.wait { kind := kind, ins := .exit, since := 0, flag := r.key, lease := r.expiry, until_ := until_, place := some (obj, off, r) })

/-- Waits until a word has the state that a form needs, which reached its controller at a time. -/
def waitFlag (mine k obj off : Nat) (r : Res) (wantFull : Bool) : M Unit := do
  let s ← get
  if feFull s (r.key / 8) != wantFull || laterThanOthers s mine k r.key wantFull then waitAt .flag obj off r

/-- Writes the data of a full/empty word; the write is itself the release (R363). A line whose check fails keeps its bytes
(R213). -/
def writeFlagWord (w : Who) (c : Cap) (a : Nat) (r : Res) (v : W64) : M (Option Nat × Option (Nat × Nat)) := do
  let s ← get
  if badPartial s r.key 8 then return (none, some (7, badSub s r 8))
  else
    writePiece w (releaseEdges s w) w.region c.obj a r (leBytes 8 v.toNat)
    return (← watchWord w a r 8, none)

/-- fe.fill at its word (R224). -/
def fillHere (w : Who) (c : Cap) (a : Nat) (v : W64) (r : Res) : M (Option Nat × Option (Nat × Nat)) := do
  let out ← writeFlagWord w c a r v
  changeFlag w r true
  return out

/-- fe.fill once its word can be reached. -/
def fillAt (w : Who) (c : Cap) (a : Nat) (v : W64) (acc : Access) : M (Option Nat × Option (Nat × Nat)) := do
  needSys w c a
  fillHere w c a v (← resolve w c.obj c.sp a acc)

/-- fe.clr at its word (R223). -/
def clearHere (w : Who) (c : Cap) (a : Nat) (r : Res) : M (Option Nat × Option (Nat × Nat)) := do
  modify (fun s => countAccess s w c.obj a 8 r)
  let hit ← watchWord w a r 8
  changeFlag w r false
  return (hit, none)

/-- fe.clr once its word can be reached. -/
def clearAt (w : Who) (c : Cap) (a : Nat) (acc : Access) : M (Option Nat × Option (Nat × Nat)) := do
  needSys w c a
  clearHere w c a (← resolve w c.obj c.sp a acc)

/-- st.ef once its word can be reached, or where it is held already: it waits for empty, in the order of its time (R228). -/
def storeEmptyAt (w : Who) (mine : Nat → Nat) (c : Cap) (a : Nat) (v : W64) (acc : Access) (held : Option Res := none) :
    M (Option Nat × Option (Nat × Nat)) := do
  needSys w c a
  let r ← match held with
    | some r => pure r
    | none => resolve w c.obj c.sp a acc
  waitFlag (mine r.key) w.core c.obj a r false
  let out ← writeFlagWord w c a r v
  changeFlag w r true
  return out

/-- ld.fe and ld.ff (R226): wait for full, and read. ld.fe takes the bit; ld.ff leaves it and its last change as they stand. -/
def loadFull (c : Cap) (ea : Int) (leave : Bool) : M W64 := do
  let a ← checkGsram c (permLD ||| permFE) ea 8
  let w ← me
  if !sentBefore (← get) w.core then waitHoard w.core c.obj a 8
  waitLogOnce w.core
  strikeGate w.core
  let r ← resolve w c.obj c.sp a { write := !leave }
  waitFlag (reached (← get) w.core r.key) w.core c.obj a r true
  let (bs, hit) ← readPieces w false .sync c.obj [(a, 8, r)]
  if leave then passFlag w r else changeFlag w r false
  watchReport 2 (hit.map (fun _ => a))
  return w64 (leNat bs)

-- Atomics and reductions

/-- Op of an operation code on two numbers of n bytes (R229, R32): 0 add, 1 and, 2 or, 3 xor, 4 swap, 5 min, 6 max, 7 minu,
8 maxu, 10 fadd (R231). -/
def atomicOp (op n m b : Nat) : Nat :=
  let bits := 8 * n
  let signed := fun x => if x ≥ 2 ^ (bits - 1) then (x : Int) - 2 ^ bits else x
  match op with
  | 0 => (m + b) % 2 ^ bits
  | 1 => m &&& b
  | 2 => m ||| b
  | 3 => m ^^^ b
  | 4 => b
  | 5 => if signed b < signed m then b else m
  | 6 => if signed b > signed m then b else m
  | 7 => Min.min m b
  | 8 => Max.max m b
  | _ => faddBits (n == 8) m b

/-- A space admits an atomic (R212). -/
def atomicSpace (sp op : Nat) : Bool :=
  sp == spGSRAM || sp == spHBM || sp == spNEPOL || sp == spRWIN || (sp == spHOST && (op == 0 || op == 4 || op == 9))

/-- A read-modify-write at a resolved place: what was there, and what a watchpoint matched. Nothing written where `f` gives
nothing. -/
def modifyAt (w : Who) (c : Cap) (a n : Nat) (r : Res) (f : Nat → Option Nat) : M (Nat × Option Nat) := do
  checkLines a r n
  let m := leNat (← readPiece w c.obj a r n)
  modify (fun s => learn s w r.key n)
  match f m with
  | some v => writePiece w EdgeSet.none w.region c.obj a r (leBytes n v)
  | none => modify (fun s => countAccess s w c.obj a n r)
  return (m, ← watchWord w a r n)

/-- amo and amo.cas (R229, R230): the value that was in memory. One whose late answer stands in its hold has performed already (R397). -/
def atomic (c : Cap) (op n : Nat) (f : Nat → Option Nat) : M Nat := do
  let a ← checkCap c permAMO c.cur n
  if !atomicSpace c.sp op then raise 0 3 a
  aligned a n
  let w ← me
  needSys w c a
  let (got, _) := loadGot (← get) w.core
  if !got.isEmpty then return leNat (got.take n)
  waitHoard w.core c.obj a n
  if behindHost (← get) w c.sp then waitOn .hoarded
  behindPosted c.sp
  strikeGate w.core
  let r ← resolve w c.obj c.sp a { write := true }
  behindFlights r n
  answers r n a
  let (m, hit) ← modifyAt w c a n r f
  watchReport 2 hit
  return m

/-- A value of n bytes sign-extended. -/
def signBytes (n v : Nat) : W64 := if n = 4 then (BitVec.ofNat 32 v).signExtend 64 else w64 v

/-- The reduction window that holds an address, with its EPOCH (R447). -/
def windowOf (s : State) (addr : Nat) : Option (Nat × W16) :=
  (s.windows.find? (fun e => decide (e.2.base ≤ addr) && decide (addr < e.2.base + 65536 * e.2.pages))).map (fun e => (e.1, e.2.epoch))

/-- A contribution to a reduction window enters the fabric under a number of its own (R232, R447). -/
def contribute (w : Who) (obj a : Nat) (r : Res) (op : BitVec 4) (wide : Bool) (b : W64) : M Unit :=
  modify (fun s => { s with
    nextContribution := s.nextContribution + 1
    switch := s.switch ++ [⟨⟨w, obj, a, r⟩, op, wide, b, [s.nextContribution], [], windowOf s r.addr, s.pt⟩] })

/-- red at a place of the part's own memory (R231): a line whose check fails keeps its bytes. -/
def reduceHere (w : Who) (c : Cap) (a : Nat) (op : BitVec 4) (n b : Nat) (r : Res) : M (Option Nat × Option (Nat × Nat)) := do
  let s ← get
  if badPartial s r.key n then return (none, some (7, badSub s r n))
  else
    let (_, hit) ← modifyAt w c a n r (fun m => some (atomicOp op.toNat n m b))
    return (hit, none)

/-- red once its place can be reached (R231): it performs there, goes on its way to a far side that does not answer, or enters the fabric.
What the memory refuses is told after the word (R231). -/
def reduceAt (w : Who) (c : Cap) (a : Nat) (op : BitVec 4) (n b : Nat) (acc : Access) : M (Option Nat × Option (Nat × Nat)) := do
  needSys w c a
  let r ← resolve w c.obj c.sp a acc
  let s ← get
  match denies s r n with
  | some sub => return (none, some (0, sub))
  | none =>
    if c.sp = spRWIN then
      contribute w c.obj a r op (n == 8) (w64 b)
      return (← watchWord w a r n, none)
    else if flies s w r n then
      let hit ← launch w (.red op (n == 8)) c a (leBytes n b) [(a, n, r)]
      return (hit.map (fun _ => a), none)
    else reduceHere w c a op n b r

-- Barriers (R236 to R240)

def barMagic (l : BitVec 512) : Nat := fieldNat l 0 32
def barEpoch (l : BitVec 512) : W16 := field l 32 16
def barPhase (l : BitVec 512) : W16 := field l 48 16
def barExpect (l : BitVec 512) : Nat := fieldNat l 64 16
def barArrived (l : BitVec 512) : Nat := fieldNat l 80 16

/-- A barrier line. -/
def barLine (epoch phase : W16) (expect arrived : Nat) : BitVec 512 :=
  BitVec.ofNat 512 (0x5A425252 + epoch.toNat * 2 ^ 32 + phase.toNat * 2 ^ 48 + expect % 65536 * 2 ^ 64 + arrived % 65536 * 2 ^ 80)

/-- A line is valid (R236). -/
def barValid (l : BitVec 512) : Bool :=
  barMagic l == 0x5A425252 && fieldNat l 96 416 == 0 && barExpect l != 0 && decide (barArrived l < barExpect l)

/-- The BTRACK entry of a line (R237). -/
def btFind (c : Core) (table obj off : Nat) : Option BTrack :=
  c.btrack.find? (fun t => t.table == table && t.obj == obj && t.off == off)

/-- The BTRACK entry of a line set: the least recently used of eight is replaced. -/
def Core.btPut (c : Core) (t : BTrack) : Core :=
  { c with btrack := (t :: c.btrack.filter (fun u => !(u.table == t.table && u.obj == t.obj && u.off == t.off))).take 8 }

/-- The names of a barrier line: its physical line, and its line in the page that an extent entry maps, which a migration keeps (R237). -/
def barKeys (a : Nat) (r : Res) : Nat × Nat := (r.key / 64, r.extKey * 65536 + a % 65536)

/-- The mark of a barrier line, under either name. -/
def barMark (s : State) (q : Nat × Nat) : BarrierMark :=
  let m := (mapFind s.bars q.1).getD ⟨EdgeSet.none, EdgeSet.none, agentNone, agentNone⟩
  match mapFind s.barsAt q.2 with
  | none => m
  | some n => ⟨m.current.join n.current, m.completed.join n.completed, if m.setter = agentNone then n.setter else m.setter,
      if m.last = agentNone then n.last else m.last⟩

/-- The mark of a barrier line set. -/
def State.putBarMark (s : State) (q : Nat × Nat) (m : BarrierMark) : State :=
  { s with bars := mapPut s.bars q.1 m, barsAt := mapPut s.barsAt q.2 m }

/-- The mark of a barrier line forgotten: bar.init begins it again. -/
def State.dropBarMark (s : State) (q : Nat × Nat) : State :=
  { s with bars := mapErase s.bars q.1, barsAt := mapErase s.barsAt q.2 }

/-- The line as the controller reads it. -/
def readBar (w : Who) (c : Cap) (a : Nat) (r : Res) : M (BitVec 512) := do
  checkLines a r 64
  return BitVec.ofNat 512 (leNat (← readPiece w c.obj a r 64))

/-- Writes a barrier line whole; the write stamps it with the region that it closes (R215, R363). -/
def writeBar (w : Who) (c : Cap) (a : Nat) (r : Res) (l : BitVec 512) : M Unit := do
  writePiece w (threadEdges (← get) w.core) w.region c.obj a r (leBytes 64 l.toNat)

/-- bar.arrive once its line can be reached (R238). -/
def arriveAt (w : Who) (c : Cap) (a : Nat) (acc : Access) : M (Option Nat × Option (Nat × Nat)) := do
  needSys w c a
  let r ← resolve w c.obj c.sp a acc
  let l ← readBar w c a r
  if !barValid l then raise 5 0 a
  let s ← get
  let k := w.core
  let table := (mcbAt s w.mcb).otPhys
  match btFind (coreAt s k) table c.obj a with
  | none => pure ()
  | some t =>
    if t.arrived then raise 5 5 a
    if t.epoch ≠ barEpoch l then raise 5 1 a
    if t.phase ≠ barPhase l then raise 5 2 a
  let last := barArrived l + 1 == barExpect l
  let phase := barPhase l
  writeBar w c a r (barLine (barEpoch l) (if last then phase + 1 else phase) (barExpect l) (if last then 0 else barArrived l + 1))
  let hit ← watchWord w a r 64
  modify (fun s =>
    let m := barMark s (barKeys a r)
    let n := (coreAt s k).arrivals + 1
    let rel := (threadEdges s k).join ⟨[], [(k, invSerial s k, n)]⟩
    let cur := m.current.join rel
    let m' : BarrierMark := 
      if last then ⟨EdgeSet.none, cur, w.setter, w.setter⟩ else ⟨cur, m.completed, m.setter, w.setter⟩
    let s := s.putBarMark (barKeys a r) m'
    closeRegion (s.updCore k (fun x => { x with arrivals := n }.btPut ⟨table, c.obj, a, barEpoch l, phase, true⟩)) k)
  return (hit, none)

/-- bar.wait and bar.test (R240): the phase has completed, or where its line is. -/
def testBar (c : Cap) : M (Option (Nat × Res)) := do
  let a ← checkGsram c permFE c.cur 64
  let w ← me
  let k := w.core
  if !sentBefore (← get) k then waitHoard k c.obj a 64
  let r ← resolve w c.obj c.sp a { write := false }
  let s ← get
  let table := (mcbAt s w.mcb).otPhys
  match btFind (coreAt s k) table c.obj a with
  | none => raise 5 3 a
  | some t =>
    if !t.arrived then raise 5 3 a
    let l ← readBar w c a r
    if !barValid l then raise 5 0 a
    if barEpoch l ≠ t.epoch then raise 5 1 a
    if barPhase l = t.phase then return some (a, r)
    else if barPhase l = t.phase + 1 then
      modify (fun s => countAccess s w c.obj a 64 r)
      let hit ← watchWord w a r 64
      modify (fun s => acquire (s.updCore k (fun x => x.btPut { t with phase := barPhase l, arrived := false })) k
        (barMark s (barKeys a r)).completed)
      watchReport 2 hit
      return none
    else raise 5 2 a

end Sys2Proof.Machine
end

