-- ==== Sys2Proof/Machine/MemWords.lean ====
section
/-!
DEFINITION. Loads and stores (R216 to R219), full/empty words and prefetch (R222 to R228), atomics and reductions (R229 to
R231).
-/
namespace Sys2Proof.Machine

/-- ld (R216). -/
def execLd (z : BitVec 1) (d : BitVec 6) (c : BitVec 5) (sz : BitVec 3) (i : BitVec 10) (s : State) :
    Host.Outcome State Fault Refusal :=
  runWord (aBit z) false (.ld z d c sz i) (do
    let cap ← readC c
    roomFor s d
    let n := sizeOfCode sz.toNat
    let v ← loadBytes cap (offsetFrom cap (scaledImm i n)) n
    writeS d (loadValue sz.toNat v)
    return .seq) s

/-- st (R219): the size code is the field times two. -/
def execSt (z : BitVec 1) (d : BitVec 6) (c : BitVec 5) (sz : BitVec 2) (i : BitVec 10) (s : State) :
    Host.Outcome State Fault Refusal :=
  runWord (aBit z) false (.st z d c sz i) (do
    let cap ← readC c
    let v ← readS d
    let n := 2 ^ sz.toNat
    storeBytes cap (offsetFrom cap (scaledImm i n)) (leBytes n v.toNat)
    return .seq) s

/-- ldx (R218): the capability, then the index. -/
def execLdx (z : BitVec 1) (d : BitVec 6) (a : BitVec 5) (b : BitVec 6) (x : BitVec 1) (w : BitVec 3) (s : State) :
    Host.Outcome State Fault Refusal :=
  runWord (aBit z) false (.ldx z d a b x w) (do
    let cap ← readC a
    let n := sizeOfCode w.toNat
    let off := (← readS b).toInt * (if x = 1 then (n : Int) else 1)
    roomFor s d
    let v ← loadBytes cap (offsetFrom cap off) n
    writeS d (loadValue w.toNat v)
    return .seq) s

/-- stx (R218): the capability, then the index, then the data. -/
def execStx (z : BitVec 1) (d : BitVec 6) (a : BitVec 5) (b : BitVec 6) (x : BitVec 1) (w : BitVec 3) (s : State) :
    Host.Outcome State Fault Refusal :=
  runWord (aBit z) false (.stx z d a b x w) (do
    let cap ← readC a
    let n := sizeOfCode w.toNat
    let off := (← readS b).toInt * (if x = 1 then (n : Int) else 1)
    let v ← readS d
    storeBytes cap (offsetFrom cap off) (leBytes n v.toNat)
    return .seq) s

/-- ldc (R217). -/
def execLdc (z : BitVec 1) (d c : BitVec 5) (i : BitVec 10) (s : State) : Host.Outcome State Fault Refusal :=
  runWord (aBit z) false (.ldc z d c i) (do
    let cap ← readC c
    let a ← checkCap cap permLD (offsetFrom cap (scaledImm i 16)) 16
    if cap.sp = spNET then raise 0 3 a
    aligned a 16
    let w ← me
    waitHoard w.core cap.obj a 16
    let (v, hit) ← loadTagged w true cap.obj cap.sp a
    watchReport 0 hit
    writeC d { v with tag := v.tag && cap.has permLDCAP }
    return .seq) s

/-- stc (R217, R178). -/
def execStc (z : BitVec 1) (d c : BitVec 5) (i : BitVec 10) (s : State) : Host.Outcome State Fault Refusal :=
  runWord (aBit z) false (.stc z d c i) (do
    let cap ← readC c
    let v ← readC d
    let need := (if v.tag then permST ||| permSTCAP else permST) ||| (if cap.sp = spPMEM then permPERSIST else 0)
    let a ← checkCap cap need (offsetFrom cap (scaledImm i 16)) 16
    if v.tag && cap.sp > 1 then raise 0 6 a
    if cap.sp = spNET then raise 0 3 a
    aligned a 16
    let w ← me
    waitHoard w.core cap.obj a 16
    orBehind w (.storeCap v.tag) cap a (leBytes 16 v.bits.toNat) (do
      afterWrite 0 a (← storeCapAt w 1 cap a v { write := true }))
    notePmem cap.sp
    return .seq) s

/-- ld.fe (R226). -/
def execLdFe (z : BitVec 1) (d : BitVec 6) (c : BitVec 5) (i : BitVec 10) (s : State) : Host.Outcome State Fault Refusal :=
  runWord (aBit z) false (.ldFe z d c i) (do
    let cap ← readC c
    roomFor s d
    writeS d (← loadFull cap (offsetFrom cap (scaledImm i 8)) false)
    return .seq) s

/-- ld.ff (R226). -/
def execLdFf (z : BitVec 1) (d : BitVec 6) (c : BitVec 5) (i : BitVec 10) (s : State) : Host.Outcome State Fault Refusal :=
  runWord (aBit z) false (.ldFf z d c i) (do
    let cap ← readC c
    roomFor s d
    writeS d (← loadFull cap (offsetFrom cap (scaledImm i 8)) true)
    return .seq) s

/-- st.ef (R228). -/
def execStEf (z : BitVec 1) (d : BitVec 6) (c : BitVec 5) (i : BitVec 10) (s : State) : Host.Outcome State Fault Refusal :=
  runWord (aBit z) false (.stEf z d c i) (do
    let cap ← readC c
    let v ← readS d
    let a ← checkGsram cap (permST ||| permFE) (offsetFrom cap (scaledImm i 8)) 8
    let w ← me
    if !sentBefore (← get) w.core then waitHoard w.core cap.obj a 8
    waitLogOnce w.core
    strikeGate w.core
    let s ← get
    orHoard w .storeEmpty cap a (leBytes 8 v.toNat) (do
      afterWrite 2 a (← storeEmptyAt w (reached s w.core) cap a v { write := true }))
    return .seq) s

/-- fe.fill (R224). -/
def execFeFill (z : BitVec 1) (d : BitVec 6) (c : BitVec 5) (i : BitVec 10) (s : State) : Host.Outcome State Fault Refusal :=
  runWord (aBit z) false (.feFill z d c i) (do
    let cap ← readC c
    let v ← readS d
    let a ← checkGsram cap (permST ||| permFE) (offsetFrom cap (scaledImm i 8)) 8
    let w ← me
    waitHoard w.core cap.obj a 8
    waitLogOnce w.core
    let bs := leBytes 8 v.toNat
    orHoard w .fill cap a bs (reachGate w .fill cap a bs (do afterPosted a (← fillAt w cap a v { write := true })))
    return .seq) s

/-- fe.clr (R223). -/
def execFeClr (z : BitVec 1) (c : BitVec 5) (i : BitVec 10) (s : State) : Host.Outcome State Fault Refusal :=
  runWord (aBit z) false (.feClr z c i) (do
    let cap ← readC c
    let a ← checkGsram cap (permST ||| permFE) (offsetFrom cap (scaledImm i 8)) 8
    let w ← me
    waitHoard w.core cap.obj a 8
    waitLogOnce w.core
    let bs := leBytes 8 0
    orHoard w .clear cap a bs (reachGate w .clear cap a bs (do afterPosted a (← clearAt w cap a { write := true })))
    return .seq) s

/-- The full/empty bits of the line of a word, bit k for word k (R225). -/
def lineBits (s : State) (line : Nat) : W64 :=
  (List.range 8).foldl (fun v k => if feFull s (8 * line + k) then v ||| (1 <<< k) else v) 0

/-- fe.st (R225). -/
def execFeSt (z : BitVec 1) (d : BitVec 6) (c : BitVec 5) (i : BitVec 10) (s : State) : Host.Outcome State Fault Refusal :=
  runWord (aBit z) false (.feSt z d c i) (do
    let cap ← readC c
    roomFor s d
    let a ← checkGsram cap (permLD ||| permFE) (offsetFrom cap (scaledImm i 8)) 8
    let w ← me
    waitHoard w.core cap.obj a 8
    strikeGate w.core
    let r ← resolve w cap.obj cap.sp a { write := false }
    modify (fun s => countAccess s w cap.obj a 8 r)
    let hit ← watchWord w a r 8
    let s ← get
    writeS d (lineBits s (r.key / 64))
    watchReport 2 hit
    return .seq) s

/-- pref (R227): it walks, and never faults, parks or counts. It is an access of one byte with the right LD (DESIGN CHOICE: R227 names neither
size nor right). -/
def execPref (z : BitVec 1) (c : BitVec 5) (i : BitVec 10) (s : State) : Host.Outcome State Fault Refusal :=
  runWord (aBit z) false (.pref z c i) (do
    let cap ← readC c
    let w ← me
    tryCatch (do
      let a ← checkCap cap permLD (offsetFrom cap (scaledImm i 8)) 1
      let _ ← resolve w cap.obj cap.sp a { write := false }) (fun _ => pure ())
    return .seq) s

/-- Bytes of the size bit of an atomic. -/
def atomicBytes (w : BitVec 1) : Nat := if w = 1 then 8 else 4

/-- amo (R229). -/
def execAmo (z : BitVec 1) (d : BitVec 6) (a : BitVec 5) (b : BitVec 6) (w : BitVec 1) (o : BitVec 4) (s : State) :
    Host.Outcome State Fault Refusal :=
  runWord (aBit z) false (.amo z d a b w o) (do
    let cap ← readC a
    let n := atomicBytes w
    let v := (← readS b).toNat % 2 ^ (8 * n)
    roomFor s d
    let m ← atomic cap o.toNat n (fun m => some (atomicOp o.toNat n m v))
    writeS d (signBytes n m)
    return .seq) s

/-- amo.cas (R230). -/
def execAmoCas (z : BitVec 1) (d : BitVec 6) (a : BitVec 5) (b : BitVec 6) (w : BitVec 1) (s : State) :
    Host.Outcome State Fault Refusal :=
  runWord (aBit z) false (.amoCas z d a b w) (do
    let n := atomicBytes w
    let e := (← readS d).toNat % 2 ^ (8 * n)
    let cap ← readC a
    let v := (← readS b).toNat % 2 ^ (8 * n)
    let m ← atomic cap 9 n (fun m => if m = e then some v else none)
    writeS d (signBytes n m)
    return .seq) s

/-- A space admits a reduction (R212). -/
def reduceSpace (sp : Nat) : Bool := sp == spGSRAM || sp == spHBM || sp == spNEPOL || sp == spRWIN

/-- red (R231). -/
def execRed (z : BitVec 1) (a : BitVec 5) (b : BitVec 6) (w : BitVec 1) (o : BitVec 4) (s : State) :
    Host.Outcome State Fault Refusal :=
  runWord (aBit z) false (.red z a b w o) (do
    let cap ← readC a
    let n := atomicBytes w
    let v := (← readS b).toNat % 2 ^ (8 * n)
    let at_ ← checkCap cap permAMO cap.cur n
    if !reduceSpace cap.sp then raise 0 3 at_
    aligned at_ n
    let x ← me
    waitHoard x.core cap.obj at_ n
    let op := HoardOp.red o (w == 1)
    orHoard x op cap at_ (leBytes n v) (reachGate x op cap at_ (leBytes n v) (do
      afterPosted at_ (← reduceAt x cap at_ o n v { write := true })))
    return .seq) s

end Sys2Proof.Machine
end

