-- ==== Sys2Proof/Machine/Sync.lean ====
section
/-!
DEFINITION. Fences, persistence and lease waits (R233 to R235), barrier words (R238 to R240), generation regions (R241, R242).
-/
namespace Sys2Proof.Machine

/-- The acquire part of a fence of a scope (R362): the fences before writes whose values the core has read, as far as both
agents lie within both scopes. -/
def fenceAcquire (s : State) (k scope : Nat) : State :=
  let c := coreAt s k
  let meets := fun (f : FenceMark) => sameScope s (Min.min scope f.scope) f.agent (.thread k (invSerial s k))
  let s := (c.seen.filter meets).foldl (fun s f => acquire s k f.edges) s
  s.updCore k (fun c => { c with seen := c.seen.filter (fun f => !meets f) })

/-- The release part of a fence: later writes carry its edges (R362), and it closes the region (R363). -/
def fenceRelease (s : State) (k scope : Nat) : State :=
  let f : FenceMark := ⟨.thread k (invSerial s k), threadEdges s k, scope⟩
  closeRegion (s.updCore k (fun c => { c with relFences := c.relFences.filter (fun g => decide (scope < g.scope)) ++ [f] })) k

/-- A fence of system scope, and gen.pass, wait until every write and contribution of the core has been acknowledged where it performs (R233, R242,
R376, R377). -/
def waitFar (k : Nat) : M Unit := do
  if !farDrained (← get) k then waitOn .fence

/-- A fence of kind 1 acq, 2 rel or 3 ar (R233). A fence.ar of plot scope or wider records the edge set (R364). -/
def runFence (kind scope : Nat) : M Unit := do
  let k ← self
  if kind ≥ 2 then waitLog k
  if kind ≥ 2 && scope ≥ 4 then waitFar k
  if kind % 2 = 1 then modify (fun s => fenceAcquire s k scope)
  if kind ≥ 2 then modify (fun s => fenceRelease s k scope)
  if kind = 3 && scope ≥ 1 then modify (fun s => s.updCore k (fun c => { c with recorded := c.edges }))

/-- fence (R233). -/
def execFence (z : BitVec 1) (kind : BitVec 2) (scope : BitVec 3) (s : State) : Host.Outcome State Fault Refusal :=
  runWord (aBit z) false (.fence z kind scope) (do
    runFence kind.toNat scope.toNat
    return .seq) s

/-- A PMEM store of the core's thread has not performed. -/
def pmemAhead (c : Core) : Bool :=
  c.hoard.any (fun h => h.cap.sp == spPMEM && h.who.agent.isThread) || c.flight.any (fun f => f.place.sp == spPMEM)

/-- pbar (R235): every earlier PMEM store of the thread has performed, and the CXL port has acknowledged its flush. -/
def execPbar (z : BitVec 1) (s : State) : Host.Outcome State Fault Refusal :=
  runWord (aBit z) false (.pbar z) (do
    let c ← core
    if pmemAhead c then waitOn .fence
    let s ← get
    if c.pmemDirty && s.mute.any (fun d => keySpace d.1 == spPMEM && decide (s.pt < d.2.2)) then waitOn .fence
    updCore (fun c => { c with pmemDirty := false })
    let k ← self
    modify (fun s => makeDurable s (fun a => match a with | .thread c _ => c == k | _ => false))
    return .seq) s

/-- The time that lwait waits for: HORIZON of the block whose object table begins where the capability's object does, plus
16 ns. -/
def leaseEnd (w : Who) (c : Cap) : M Nat := do
  let r ← resolve w c.obj c.sp c.lo { write := false }
  match (← get).mcbs.find? (fun e => e.2.v && physKey 0 0 e.2.otPhys == r.key) with
  | none => raise 0 3 c.lo
  | some e => return e.2.horizon.toNat + 16

/-- The end of a lease wait that core k already holds at: HORIZON is read once. -/
def heldLease (s : State) (k : Nat) : Option Nat :=
  match (coreAt s k).hold with
  | some h => if h.kind = .lease then some h.until_ else none
  | none => none

/-- lwait (R234). -/
def execLwait (z : BitVec 1) (a : BitVec 5) (s : State) : Host.Outcome State Fault Refusal :=
  runWord (aBit z) false (.lwait z a) (do
    let c ← readC a
    if !c.valid then raise 0 0 c.cur
    if !c.has permSYS then raise 0 2 c.cur
    if c.sp ≠ spGSRAM then raise 0 3 c.cur
    let k ← self
    let end_ ← match heldLease (← get) k with
      | some e => pure e
      | none => do
        runFence 3 3
        leaseEnd (← me) c
    if localPt (← get) k ≤ end_ then waitOn .lease 0 0 end_
    return .seq) s

/-- bar.init (R239). Where its page parks the core holds, since it reads the line too (DESIGN CHOICE: R239 calls it one store, and R199 hoards
stores). -/
def execBarInit (z : BitVec 1) (a : BitVec 5) (b : BitVec 6) (s : State) : Host.Outcome State Fault Refusal :=
  runWord (aBit z) false (.barInit z a b) (do
    let c ← readC a
    let n := (← readS b).toNat
    let at_ ← checkGsram c (permST ||| permFE) c.cur 64
    if n = 0 || n > 65535 then raise 5 4 at_
    let w ← me
    needSys w c at_
    waitHoard w.core c.obj at_ 64
    waitLogOnce w.core
    strikeGate w.core
    let r ← resolve w c.obj c.sp at_ { write := true }
    let l := BitVec.ofNat 512 (leNat (← readPiece w c.obj at_ r 64))
    let e : W16 := if barMagic l == 0x5A425252 && fieldNat l 96 416 == 0 then barEpoch l + 1 else 0
    writeBar w c at_ r (barLine e 0 n 0)
    let hit ← watchWord w at_ r 64
    modify (fun s =>
      let s := s.dropBarMark (barKeys at_ r)
      closeRegion (s.updCore w.core (fun x => x.btPut ⟨(mcbAt s w.mcb).otPhys, c.obj, at_, e, 0, false⟩)) w.core)
    watchReport 2 hit
    return .seq) s

/-- bar.arrive (R238). -/
def execBarArrive (z : BitVec 1) (a : BitVec 5) (s : State) : Host.Outcome State Fault Refusal :=
  runWord (aBit z) false (.barArrive z a) (do
    let c ← readC a
    let at_ ← checkGsram c permFE c.cur 64
    let w ← me
    waitHoard w.core c.obj at_ 64
    waitLogOnce w.core
    strikeGate w.core
    orHoard w .arrive c at_ (leBytes 64 0) (do afterWrite 2 at_ (← arriveAt w c at_ { write := true }))
    return .seq) s

/-- bar.wait (R240). -/
def execBarWait (z : BitVec 1) (a : BitVec 5) (s : State) : Host.Outcome State Fault Refusal :=
  runWord (aBit z) false (.barWait z a) (do
    let c ← readC a
    match ← testBar c with
    | none => return .seq
    | some (at_, r) => waitAt .barrier c.obj at_ r (barPhase (BitVec.ofNat 512 (memNat (← get).mem r.key 64))).toNat) s

/-- bar.test (R240). -/
def execBarTest (z : BitVec 1) (d : BitVec 3) (a : BitVec 5) (s : State) : Host.Outcome State Fault Refusal :=
  runWord (aBit z) false (.barTest z d a) (do
    let c ← readC a
    match ← testBar c with
    | none => updThread (fun t => t.setP d.toNat true)
    | some (at_, r) =>
      let w ← me
      modify (fun s => countAccess s w c.obj at_ 64 r)
      let hit ← watchWord w at_ r 64
      watchReport 2 hit
      updThread (fun t => t.setP d.toNat false)
    return .seq) s

-- Generation regions

/-- The generation region of R206: entry 255 of the capability table. -/
def generationRegion : M (Cap × Option Nat) := do
  let (c, hit) ← loadEntry (← me) (← self) 255
  if !c.valid then raise 0 0 4080
  if c.sp > 1 then raise 0 3 4080
  if !c.has (permLD ||| permST) then raise 0 2 4080
  if (c.hi - c.lo) % 256 ≠ 0 then raise 0 1 4080
  return (c, hit)

/-- Where gen.alloc places z bytes past a bump in slab k (R241): granule exponent, base and length. -/
def slabPlace (c : Cap) (k bump z : Nat) : Option (Nat × Nat × Nat) :=
  let sl := (c.hi - c.lo) / 4
  match (List.range' 2 14).find? (fun e =>
    let g := 2 ^ (e + 4)
    decide (roundUp (c.lo + k * sl + bump) g / g < 2 ^ 20) && decide (roundUp z g / g < 2 ^ 20)) with
  | none => none
  | some e =>
    let g := 2 ^ (e + 4)
    let b := roundUp (c.lo + k * sl + bump) g
    let y := roundUp z g
    if b + y > c.lo + (k + 1) * sl then none else some (e, b, y)

/-- gen.alloc (R241). -/
def execGenAlloc (z : BitVec 1) (d : BitVec 5) (a : BitVec 6) (s : State) : Host.Outcome State Fault Refusal :=
  runWord (aBit z) false (.genAlloc z d a) (do
    let size := (← readS a).toNat
    let (c, hit) ← generationRegion
    watchReport 0 hit
    let s ← get
    let k := s.turn
    let n := (coreAt s k).gen % 4
    match (coreAt s k).bound, coreInv s k with
    | some m, some i =>
      modify (fun s => acquire s k (mapGet EdgeSet.none i.slabEdges n))
      if size = 0 then writeC d Cap.null
      else
        match slabPlace c n (mapGet 0 i.bump n) (roundUp size 64) with
        | none => writeC d Cap.null
        | some (e, b, y) =>
          let sl := (c.hi - c.lo) / 4
          modify (fun s => s.updInv m (fun i => { i with bump := mapSet 0 i.bump n (b + y - (c.lo + n * sl)) }))
          writeC d ((c.withBounds e (b / 2 ^ (e + 4)) (y / 2 ^ (e + 4))).withCur b)
    | _, _ => writeC d Cap.null
    return .seq) s

/-- gen.pass (R242, R207). -/
def execGenPass (z : BitVec 1) (s : State) : Host.Outcome State Fault Refusal :=
  runWord (aBit z) false (.genPass z) (do
    let s ← get
    let k := s.turn
    let n := (coreAt s k).gen
    let plot := match (coreAt s k).bound with
      | none => [k]
      | some m => (mcbAt s m).plot
    if n ≥ 3 && plot.any (fun j => decide ((coreAt s j).gen ≤ n - 3)) then waitOn .generation
    waitLog k
    waitFar k
    let rel := threadEdges s k
    modify (fun s => closeRegion (s.updCore k (fun c => { c with gen := n + 1 })) k)
    match (coreAt s k).bound with
    | none => return .seq
    | some m =>
      modify (fun s => s.updInv m (fun i =>
        let passes := (mapGet EdgeSet.none i.passEdges (n % 4)).join rel
        if plot.all (fun j => decide (n < (coreAt s j).gen)) then
          { i with bump := mapSet 0 i.bump (n % 4) 0, passEdges := mapErase i.passEdges (n % 4),
                   slabEdges := mapSet EdgeSet.none i.slabEdges (n % 4) passes }
        else { i with passEdges := mapSet EdgeSet.none i.passEdges (n % 4) passes }))
      return .seq) s

end Sys2Proof.Machine
end

