-- ==== Sys2Proof/Machine/Held.lean ====
section
/-!
DEFINITION. Held words and the ends of their waits (R199, R205, R220, R240), the replay of the hoard log (R201), and the expiry
of translations (R187).
-/
namespace Sys2Proof.Machine

/-- A word that changes what it accesses, so that effective WB parks it (R185). -/
def writesMemory (i : Instr) : Bool :=
  match i with
  | .ld _ _ _ _ _ => false
  | .ldx _ _ _ _ _ _ => false
  | .ldc _ _ _ _ => false
  | .ldFf _ _ _ _ => false
  | .feSt _ _ _ _ => false
  | .barWait _ _ => false
  | .barTest _ _ _ => false
  | .ctab _ _ _ => false
  | .taskPost _ _ => false
  | .exit => false
  | _ => true

/-- A hold that surely goes on, so that its word is not sent again: a full/empty form or bar.wait that its controller holds
under an unexpired grant, a lease wait, and an access parked on an unusable page that no replay command has named. -/
def stillHeld (s : State) (k : Nat) (h : Hold) : Bool :=
  let granted := match h.place with
    | some (_, _, r) => decide (placePt s r.sp r.addr ≤ r.expiry + 8)
    | none => false
  match h.kind with
  | .flag =>
    let want := match h.ins with | .stEf _ _ _ _ => false | _ => true
    feFull s (h.flag / 8) != want && granted
  | .barrier =>
    (barPhase (BitVec.ofNat 512 (memNat s.mem h.flag 64))).toNat == h.until_ && granted
  | .lease => decide (localPt s k ≤ h.until_)
  | .parked => h.until_ == 0 && !extentUsable s h.extent (writesMemory h.ins)
  | .struck => (coreAt s k).struck.isSome
  | _ => false

/-- The hold of core k, when it is of a kind and may go on now. -/
def heldAt (s : State) (k : Nat) (kind : WaitKind) : Option Instr :=
  match (coreAt s k).hold with
  | some h => if h.kind = kind && threadRuns s k && !stillHeld s k h then some h.ins else none
  | none => none

/-- Core k's thread moves next: the word at its pc issues again. -/
def reissue (s : State) (k : Nat) : State := { s with turn := k, agenda := .thread k :: s.agenda }

/-- FE_WAIT_SATISFIED (R220, R226, R228): a held full/empty form performs. -/
def execFeWaitSatisfied (k : Nat) (s : State) : Host.Outcome State Fault Refusal :=
  match heldAt s k .flag with
  | some (.ldFe z d c i) => execLdFe z d c i { s with turn := k }
  | some (.ldFf z d c i) => execLdFf z d c i { s with turn := k }
  | some (.stEf z d c i) => execStEf z d c i { s with turn := k }
  | _ => .next s

/-- BAR_WAIT_COMPLETION (R240). -/
def execBarWaitCompletion (k : Nat) (s : State) : Host.Outcome State Fault Refusal :=
  match heldAt s k .barrier with
  | some (.barWait z a) => execBarWait z a { s with turn := k }
  | _ => .next s

/-- The port of a hold has what the held word needs (R128): something to pop, or room for a push. -/
def portAnswers (s : State) (k n : Nat) : Bool :=
  portReady s k n || (match plotNeighbour s k (n - 56) with
    | some d => decide (n < 60) && decide (((coreAt s d).port ((n - 56 + 2) % 4)).length < 8)
    | none => false)

/-- QUEUE_PORT_STALL_END (R128): the stalled word issues again. -/
def execQueuePortStallEnd (k : Nat) (s : State) : Host.Outcome State Fault Refusal :=
  match (coreAt s k).hold with
  | some h => if h.kind = .port && threadRuns s k && portAnswers s k h.flag then .next (reissue s k) else .next s
  | none => .next s

/-- LWAIT_END (R234). -/
def execLwaitEnd (k : Nat) (s : State) : Host.Outcome State Fault Refusal :=
  match heldAt s k .lease with
  | some (.lwait z a) => execLwait z a { s with turn := k }
  | _ => .next s

/-- EQ_FENCE_END (R163). -/
def execEqFenceEnd (k : Nat) (s : State) : Host.Outcome State Fault Refusal :=
  match heldAt s k .eqFence with
  | some (.eqFence z m) => execEqFence z m { s with turn := k }
  | _ => .next s

/-- The word that waits for earlier memory words: the hoard log or an acknowledgement (R200, R233, R235). -/
def heldRelease (s : State) (k : Nat) : Option Instr := (heldAt s k .hoarded).or (heldAt s k .fence)

/-- FENCE_COMPLETE (R233, R235). -/
def execFenceComplete (k : Nat) (s : State) : Host.Outcome State Fault Refusal :=
  match heldRelease s k with
  | some (.fence z kd sc) => execFence z kd sc { s with turn := k }
  | some (.pbar z) => execPbar z { s with turn := k }
  | _ => .next s

/-- GEN_PASS_WAIT_END (R242). -/
def execGenPassWaitEnd (k : Nat) (s : State) : Host.Outcome State Fault Refusal :=
  match heldAt s k .generation with
  | some (.genPass z) => execGenPass z { s with turn := k }
  | _ => .next s

/-- OM_CLAIM_WAIT_END (R165). -/
def execOmClaimWaitEnd (k : Nat) (s : State) : Host.Outcome State Fault Refusal :=
  match heldAt s k .slot with
  | some (.omClaim z n) => execOmClaim z n { s with turn := k }
  | _ => .next s

/-- EXIT_DRAIN_END (R170, R399). -/
def execExitDrainEnd (k : Nat) (s : State) : Host.Outcome State Fault Refusal :=
  match heldAt s k .drain with
  | some .exit => execExit { s with turn := k }
  | _ => .next s

/-- HELD_FORM_WITHDRAWAL (R205): a form held past the end of its grant is withdrawn, and its core walks and sends it again. -/
def execHeldFormWithdrawal (k : Nat) (s : State) : Host.Outcome State Fault Refusal :=
  match (coreAt s k).hold with
  | none => .next s
  | some h =>
    let now := match h.place with
      | some (_, _, r) => placePt s r.sp r.addr
      | none => s.pt
    if !threadRuns s k || now ≤ h.lease + 8 then .next s
    else
      match h.kind, h.ins with
      | .flag, .ldFe z d c i => execLdFe z d c i { s with turn := k }
      | .flag, .ldFf z d c i => execLdFf z d c i { s with turn := k }
      | .flag, .stEf z d c i => execStEf z d c i { s with turn := k }
      | .barrier, .barWait z a => execBarWait z a { s with turn := k }
      | _, _ => .next s

-- The hoard log

/-- The bytes of a placement that waited for their pages (R277): every page is resolved before any byte performs. -/
def placeRuns (w : Who) (c : Cap) (runs : List (Nat × List Byte)) (acc : Access) : M (Option Nat × Option (Nat × Nat)) := do
  for p in runs do
    let _ ← resolveStore w c.obj c.sp acc (pagePieces (pageFuel p.2.length) p.1 p.2.length)
  let outs ← runs.mapM (fun p => storeAt w 2 c p.1 p.2 acc)
  return (outs.findSome? (·.1), outs.findSome? (·.2))

/-- The agent of an entry when it performs: the edges and fences that it had when it was confirmed (R372), and the arrival count of its core
now (R369). A form of a thread that is itself a release closes the region that is current (R363); a task's writes lie in region 0. -/
def Hoard.agentNow (h : Hoard) (s : State) (k : Nat) : Who :=
  let arrivals := match h.who.agent.family with
    | some f => (coreAt s f.1).arrivals
    | none => h.who.arrivals
  match h.op with
  | .fill | .clear | .storeEmpty | .arrive =>
    { h.who with arrivals := arrivals, region := if h.who.agent.isThread then (coreAt s k).region else h.who.region }
  | _ => { h.who with arrivals := arrivals }

/-- What a hoard-log entry of core k does when it performs (R201). -/
def replayEntry (k : Nat) (h : Hoard) : M (Option Nat × Option (Nat × Nat)) := do
  let w := h.agentNow (← get) k
  let acc : Access := { write := true, fresh := true }
  let v := w64 (leNat (h.data.take 8))
  match h.op with
  | .store =>
    if h.mask.isEmpty then do
      let out ← storeAt w 2 h.cap h.off h.data acc
      setTags w h.cap h.tags
      return out
    else storeRuns w 2 h.cap (maskRuns h.off h.data h.mask) acc
  | .storeCap tag => storeCapAt w 2 h.cap h.off ⟨BitVec.ofNat 128 (leNat h.data), tag⟩ acc
  | .red op wide => reduceAt w h.cap h.off op (if wide then 8 else 4) (leNat h.data) acc
  | .fill => fillAt w h.cap h.off v acc
  | .clear => clearAt w h.cap h.off acc
  | .storeEmpty => do
    let s ← get
    storeEmptyAt w (fun _ => (h.wait.map (·.1)).getD s.pt) h.cap h.off v acc
      (h.held.filter (fun r => decide (placePt s r.sp r.addr ≤ r.expiry + 8)))
  | .arrive => arriveAt w h.cap h.off acc
  | .epilogue _ => storeAt w 2 h.cap h.off h.data acc
  | .placement => placeRuns w h.cap (maskRuns h.off h.data h.mask) acc

/-- Two entries write a common page of an object. -/
def Hoard.samePage (g h : Hoard) : Bool :=
  g.cap.obj == h.cap.obj && decide (g.off / 65536 ≤ (h.off + h.data.length - 1) / 65536) &&
  decide (h.off / 65536 ≤ (g.off + g.data.length - 1) / 65536)

/-- An earlier entry comes before an entry: entries to one page perform in log order (R200), HOST stores of the thread in its order (R212),
and an epilogue's footer after its rows (R339). -/
def Hoard.before (g h : Hoard) : Bool :=
  g.samePage h || (g.cap.sp == spHOST && h.cap.sp == spHOST && g.who.agent.isThread && h.who.agent.isThread) ||
  ((match h.op with | .epilogue f => f | _ => false) && g.who.agent == h.who.agent)

/-- Entry n of a log may perform: none before it stands. -/
def hoardFirst (c : Core) (n : Nat) (h : Hoard) : Bool := !(c.hoard.take n).any (fun g => g.before h)

/-- Entry n of core k's log waits: parked again on an extent entry, or at its controller. -/
def hoardWaits (s : State) (k n : Nat) (h : Hoard) (g : Hold) : State :=
  let h' : Hoard := match g.kind, g.place with
    | .flag, some (_, _, r) => { h with held := some r, wait := some (h.wait.getD (s.pt, flagOf r.key)) }
    | _, _ => { h with extent := g.extent, held := none }
  s.updCore k (fun c => { c with hoard := c.hoard.set n h' })

/-- The outcome of a replay on the log: the entry has performed, was discarded with a report, or waits again, with what its walk did. -/
def replayOne (s : State) (k n : Nat) (h : Hoard) : Except Fault State :=
  let drop := fun (s : State) => s.updCore k (fun c => { c with hoard := c.hoard.eraseIdx n })
  let rep := fun (cls sub addr : Nat) (s : State) =>
    report s k { cls := cls, sub := sub, addr := w64 addr, imp := true, order := 6 }
  let s := { s with turn := k }
  match (replayEntry k h).run s with
  | .ok (hit, bad) s1 =>
    let s1 := endHoardWait s (drop s1) k 0 h
    let s1 := match hit with
      | none => s1
      | some a => rep 9 3 a s1
    .ok (match bad with | none => s1 | some x => rep x.1 x.2 h.off s1)
  | .error (.fault f) s1 =>
    .ok (report (endHoardWait s (drop (rollBack s s1)) k 1 h) k { f with imp := true, order := 6 })
  | .error (.hard f) _ => .error f
  | .error (.wait g) s1 => .ok (hoardWaits (rollBack s s1) k n h g)

/-- Entry n is due: its page may have become usable, or its word may be empty, or its grant may have lapsed. -/
def hoardDue (s : State) (c : Core) (n : Nat) (h : Hoard) : Bool :=
  hoardFirst c n h &&
  (match h.held with
   | some r => !feFull s (r.key / 8) || decide (r.expiry + 8 < placePt s r.sp r.addr)
   | none => h.extent == 0 || extentUsable s h.extent true)

/-- The first entry of core k's log that is due. -/
def hoardReady (s : State) (k : Nat) : Option (Nat × Hoard) :=
  let c := coreAt s k
  (List.zip (List.range c.hoard.length) c.hoard).find? (fun p => hoardDue s c p.1 p.2)

/-- Replay goes on while the context is BOUND, through faults and debug stops (R390), and at a resume before its first fetch (R404); not once its
accesses have landed for a pre-emption (R396), nor while its plot is held for the control complex (R392). -/
def replays (s : State) (k : Nat) : Bool :=
  match coreInv s k with
  | none => false
  | some i => i.kill.isNone && !i.held && (i.preempt == .none || i.preempt == .stop) && (i.stage == .fetch || i.stage == .running)

/-- PARKED_ACCESS_REPLAY (R201): the first hoard-log entry that is due performs; with none, a word that holds on a
parked access issues again. -/
def execParkedAccessReplay (k : Nat) (s : State) : Host.Outcome State Fault Refusal :=
  if !replays s k then .next s else
  match hoardReady s k with
  | some (n, h) =>
    match replayOne s k n h with
    | .ok t => .next t
    | .error f => .fault f
  | none =>
    match heldAt s k .parked with
    | some _ => .next (reissue s k)
    | none => .next s

-- Writes on their way (R211, R212, R232)

/-- A write that arrives: bytes and marks, or the read-modify-write of a reduction. Its lines were stamped when it was confirmed. -/
def flightBytes (s : State) (f : Flight) : State :=
  let n := f.data.length
  let r := f.place
  let old := viewBytes s (tweakOf s f.who.mcb r.dir f.cap.obj f.off) r.key n
  let bs := match f.op with
    | .red op _ => leBytes n (atomicOp op.toNat n (leNat old) (leNat f.data))
    | _ => f.data
  countAccess (markBytes (putBytes s (tweakOf s f.who.mcb r.dir f.cap.obj f.off) r.key bs) f.who EdgeSet.none r.key n) f.who f.cap.obj f.off n r

/-- The invocation that a write on its way belongs to. -/
def Flight.serial (f : Flight) : Nat := (f.who.agent.family.map (·.2)).getD 0

/-- A write on its way that its controller refuses walks again (R190, R195): it goes to where the walk grants it, enters the hoard log where it parks,
or faults late. -/
def walkFlight (s : State) (k n : Nat) (f : Flight) : State :=
  let s := { s with turn := k }
  let put := fun (s : State) => s.updCore k (fun c => { c with flight := c.flight.eraseIdx n })
  match (resolve f.who f.cap.obj f.cap.sp f.off { write := true, fresh := true }).run s with
  | .ok r s1 => s1.updCore k (fun c => { c with flight := c.flight.set n { f with place := r } })
  | .error (.fault g) s1 => reportTo (put (rollBack s s1)) f.serial k { g with imp := true, order := 6 }
  | .error (.wait h) s1 =>
    let s1 := rollBack s s1
    if h.kind = .parked && (coreAt s1 k).hoard.length < 32 then
      (put s1).updCore k (fun c => { c with hoard := c.hoard ++ [
        { op := f.op, cap := f.cap, off := f.off, data := f.data, who := f.who, extent := h.extent, since := f.since }] })
    else s1
  | .error (.hard _) s1 => rollBack s s1

/-- A posted atomic-class access that stands at the input of a controller of the part (R423). -/
def Flight.atInput (f : Flight) : Bool :=
  decide (f.place.sp < 2) && (match f.op with
    | .store => false
    | _ => true)

/-- The controller holds it: the report is on its way, or the core's halt is not released; a kill or a pre-emption lets it land (R393, R396). -/
def inputHeld (s : State) (k : Nat) : Bool :=
  (coreInv s k).any (fun i => i.kill.isNone && i.preempt == .none && ((coreAt s k).struck.isSome || i.halted))

/-- An access performs that stood at its controller's input. What it matches is reported as that of any posted access. -/
def landInput (s : State) (k : Nat) (f : Flight) : State :=
  let w := { f.who with arrivals := (coreAt s k).arrivals, region := (coreAt s k).region }
  let out : M (Option Nat × Option (Nat × Nat)) :=
    match f.op with
    | .fill => fillHere w f.cap f.off (w64 (leNat f.data)) f.place
    | .clear => clearHere w f.cap f.off f.place
    | .red op wide => reduceHere w f.cap f.off op (if wide then 8 else 4) (leNat f.data) f.place
    | _ => pure (none, none)
  match (do afterPosted f.off (← out) : M Unit).run { s with turn := k } with
  | .ok _ s1 => { s1 with turn := s.turn }
  | .error (.fault g) s1 => reportTo { s1 with turn := s.turn } f.serial k { g with imp := true, order := 6 }
  | .error _ _ => s

/-- Write n of core k on its way performs, unless its far side is silent or an earlier one is for the same space. One that its controller refuses
walks again. A failed merge is reported late (R213). -/
def landFlight (s : State) (k n : Nat) : State :=
  let c := coreAt s k
  match c.flight[n]? with
  | none => s
  | some f =>
    if (f.atInput && inputHeld s k) || silent s f.place.key f.data.length || (c.flight.take n).any (fun g => g.place.sp == f.place.sp) then s
    else if controllerRefuses s f.place then walkFlight s k n f
    else
      let s := s.updCore k (fun c => { c with flight := c.flight.eraseIdx n })
      if f.atInput then landInput s k f
      else if badPartial s f.place.key f.data.length then
        reportTo s f.serial k { cls := 7, sub := badSub s f.place f.data.length, addr := w64 f.start, imp := true, order := 6 }
      else flightBytes s f

/-- The first of a core's writes on their way that can land. -/
def landFirst (s : State) (k : Nat) : Nat → State
  | 0 => s
  | n + 1 =>
    let i := (coreAt s k).flight.length - (n + 1)
    let t := landFlight s k i
    if (coreAt t k).flight.length < (coreAt s k).flight.length then t else landFirst s k n

/-- Two contributions that meet in a switch and may be combined: one address, operation and size, of one window and EPOCH (R447). -/
def SwitchEntry.meets (a b : SwitchEntry) : Bool :=
  a.first.place.key == b.first.place.key && a.op == b.op && a.wide == b.wide && a.window.isSome && a.window == b.window

/-- Contribution i of the fabric is combined with the next one that it meets (R232). -/
def mergeSwitch (s : State) (i : Nat) : State :=
  match s.switch[i]? with
  | none => s
  | some a =>
    match (s.switch.drop (i + 1)).findIdx? (fun b => a.meets b) with
    | none => s
    | some d =>
      match s.switch[i + 1 + d]? with
      | none => s
      | some b =>
        let n := if a.wide then 8 else 4
        let v := atomicOp a.op.toNat n (a.operand.toNat % 2 ^ (8 * n)) (b.operand.toNat % 2 ^ (8 * n))
        let ab := { a with operand := w64 v, ids := a.ids ++ b.ids, more := a.more ++ b.first :: b.more }
        { s with switch := (s.switch.set i ab).eraseIdx (i + 1 + d) }

/-- Contribution i reaches the home, where it performs like one atomic (R232); it is acknowledged then (R377), and each access that it combines counts
(R202). -/
def deliverSwitch (s : State) (i : Nat) : State :=
  match s.switch[i]? with
  | none => s
  | some e =>
    let n := e.size
    if silent s e.first.place.key n then s
    else
      let s := { s with switch := s.switch.eraseIdx i }
      if badPartial s e.first.place.key n then
        reportTo s ((e.first.who.agent.family.map (·.2)).getD 0) e.first.who.core { cls := 7, sub := badSub s e.first.place n, addr := w64 e.first.off, imp := true, order := 6 }
      else
        let v := atomicOp e.op.toNat n (leNat (viewBytes s none e.first.place.key n)) (e.operand.toNat % 2 ^ (8 * n))
        let s := markBytes (putBytes s none e.first.place.key (leBytes n v)) e.first.who EdgeSet.none e.first.place.key n
        (e.first :: e.more).foldl (fun s p => countAccess s p.who p.obj p.off n p.place) s

/-- A watchpoint report that is on its way arrives: when its core waits, stands or has waited 2,048 cycles for it, within which
an access lands (R393, R423). -/
def landStrike (s : State) (k : Nat) : State :=
  match (coreAt s k).struck with
  | none => s
  | some (f, t) =>
    if (coreAt s k).hold.isSome || !threadRuns s k || decide (2048 ≤ cyclesOf s k (s.pt - t)) then
      report (s.updCore k (fun c => { c with struck := none })) k f
    else s

/-- XTLB_ENTRY_EXPIRY (R187): a core's first level and its island's second level drop what has expired. -/
def execXtlbEntryExpiry (k : Nat) (s : State) : Host.Outcome State Fault Refusal :=
  let live := fun (e : XEntry) => decide (localPt s k < e.expiry)
  .next ((s.updCore k (fun c => { c with xtlb := c.xtlb.filter live })).updIsland (islandOf k) (fun i =>
    { i with xtlb2 := i.xtlb2.filter live }))

end Sys2Proof.Machine
end

