-- ==== Sys2Proof/Machine/Pages.lean ====
section
/-!
DEFINITION. Page pools and save pools of partitions (R464, R465), and placeable and free plots (R104, R105).
-/
namespace Sys2Proof.Machine

/-- A page lies in a run of pages. -/
def inRun (r : Nat × Nat) (page : Nat) : Bool := decide (r.1 ≤ page) && decide (page < r.1 + r.2)

/-- The lowest page from which n pages of a run are unused. -/
def findRun (used : List (Nat × Nat)) (sp : Nat) (pool : Nat × Nat) (n : Nat) : Option Nat :=
  if n = 0 ∨ pool.2 < n then none
  else (List.range' pool.1 (pool.2 - n + 1)).find? (fun b => used.all (fun u => u.1 != sp || !inRun (b, n) u.2))

/-- Pages of SAVEMAX for a plot of n cores (R465). -/
def saveMaxPages (n : Nat) : Nat := ceilDiv (65536 + n * (2 ^ 20 + 96 * 1024)) 65536

def Partition.take (p : Partition) (sp : Nat) (pages : List Nat) : Partition :=
  { p with used := p.used ++ pages.map (fun g => (sp, g)) }
def Partition.free (p : Partition) (pages : List (Nat × Nat)) : Partition :=
  { p with used := p.used.filter (fun u => !pages.contains u) }

/-- Pages return to the pools that they came from (R50). -/
def freePages (s : State) (pages : List (Nat × Nat)) : State := { s with parts := s.parts.map (fun e => (e.1, e.2.free pages)) }

/-- n pages of a partition's pool in a space: those of `choice` that are free, then the lowest (R464: the part chooses). The
save pool lies apart. -/
def choosePages (p : Partition) (sp n : Nat) (choice : List Nat) : Option (List Nat) :=
  let pool := if sp = 0 then p.gsramPool else p.hbmPool
  let ok := fun g => inRun pool g && !p.used.contains (sp, g) && !(sp == 1 && inRun p.savePool g)
  let first := ((choice.filter ok).eraseDups).take n
  let rest := ((List.range' pool.1 pool.2).filter (fun g => ok g && !first.contains g)).take (n - first.length)
  let all := first ++ rest
  if all.length = n then some all else none

/-- The plots of a shape in the order of R105: by 32·oy + ox. -/
def origins (wlog hlog : Nat) : List (Nat × Nat) :=
  (List.range (32 / 2 ^ hlog)).flatMap (fun j => (List.range (32 / 2 ^ wlog)).map (fun i => (i * 2 ^ wlog, j * 2 ^ hlog)))

/-- A plot is placeable in a partition (R104). -/
def placeable (s : State) (part : BitVec 4) (ox oy wlog hlog : Nat) : Bool :=
  (plotCores ox oy wlog hlog).all (fun k => corePart s k == some part && !(coreAt s k).fenced)

/-- A shape fits a partition (R44, R104). -/
def shapeFits (s : State) (part : BitVec 4) (wlog hlog : Nat) : Bool :=
  (origins wlog hlog).any (fun o => placeable s part o.1 o.2 wlog hlog)

/-- Some entry holds a reservation of core k (R108), other than that of block `but`. -/
def reservedCore (s : State) (but k : Nat) : Bool :=
  s.mcbs.any (fun e => e.1 != but && (match e.2.reserved with
    | some (ox, oy, _) => inPlot ox oy e.2.wlog.toNat e.2.hlog.toNat k
    | none => false))

/-- A SUSPENDED context of a priority of at least p holds core k for itself (R107). It holds it against an entry of its priority or a lower one,
and against another SUSPENDED context of a lower one (DESIGN CHOICE: R107 speaks of entries alone). -/
def heldCore (s : State) (but : Nat) (p : Nat) (k : Nat) : Bool :=
  s.mcbs.any (fun e => e.1 != but && e.2.state == 5 && (match e.2.inv with
    | some i => decide (p ≤ i.prio.toNat) && inPlot i.ox i.oy e.2.wlog.toNat e.2.hlog.toNat k
    | none => false))

/-- Core k is free for an entry of priority p of block m (R105, R107), and its island has power. -/
def coreFree (s : State) (m p k : Nat) : Bool :=
  (coreAt s k).bound.isNone && (islandAt s (islandOf k)).powered && !reservedCore s m k && !heldCore s m p k

/-- Core k is freed: what remains is its mark, its caches, the copies of package time of it and its engines, and its writes that are still on their
way to a far side. -/
def Core.freed (c : Core) : Core :=
  { Core.reset with
    fenced := c.fenced, ptDev := c.ptDev, ptFloor := c.ptFloor, engDev := c.engDev, engFloor := c.engFloor, skews := c.skews
    xtlb := c.xtlb, flight := c.flight }

/-- A core whose island has lost its power, or that CORERESET clears: what remains is the copies of package time of it and its engines, and its writes
that are still on their way to a far side. -/
def Core.cleared (c : Core) : Core :=
  { Core.reset with
    ptDev := c.ptDev, ptFloor := c.ptFloor, engDev := c.engDev, engFloor := c.engFloor, skews := c.skews, flight := c.flight }

end Sys2Proof.Machine
end

