-- ==== Sys2Proof/Machine/Engine.lean ====
section
/-!
DEFINITION. Engine commands (R121 to R125): dispatch, the conditions of their start, how a micro-step of a running command
goes through, faults, holds or ends it, completion entries, and the accesses of engines to memory.
-/
namespace Sys2Proof.Machine

/-- What a micro-step of a command leaves: it goes on, or it has its whole effect, with STATUS and DETAIL. -/
inductive Prog where
  | more (c : Cmd)
  | done (c : Cmd) (status detail : Nat)
  /-- A beat has matched a watchpoint, and as many further beats as `skid` says have performed: the command ends (R423). -/
  | struck (c : Cmd) (skid : Nat)
  deriving DecidableEq, Repr

def Cmd.arg (x : Cmd) (n : Nat) : W64 := x.args.getD n 0
def Cmd.cap (x : Cmd) (n : Nat) : Cap := x.caps.getD n Cap.null
def Cmd.fmt (x : Cmd) (n : Nat) : W64 := x.fmts.getD n 0

-- Dispatch

/-- Engine codes: 0 VE, 1 ME, 2 CE, 3 NE (R13). -/
def engVE : BitVec 2 := 0
def engME : BitVec 2 := 1
def engCE : BitVec 2 := 2
def engNE : BitVec 2 := 3

/-- An engine word waits while the 32-entry queue of its engine is full (R122). -/
def needRoom (e : BitVec 2) : M Unit := do
  let c ← core
  if (c.cmds.filter (fun x => x.eng == e && !x.started)).length ≥ 32 then waitOn .engineQueue

/-- The check of a capability operand at dispatch (R122): tag, rights with ENG, and the spaces that the command accepts. -/
def checkOperand (c : Cap) (need : BitVec 12) (sps : List Nat) : M Unit := do
  if !c.valid then raise 0 0 c.cur
  if !c.has (need ||| permENG) then raise 0 2 c.cur
  if !sps.contains c.sp then raise 0 3 c.cur

/-- The spaces of data that engines reach; RWIN is written as NEPOL. -/
def dataSpaces : List Nat := [0, 1, 2, 3, 4, 5]

/-- A scalar operand out of range (R251, R292). -/
def rangeSub8 (ok : Bool) : M Unit := if ok then pure () else raise 2 8 0

/-- A command enters its engine's queue with its SEQ: a fork edge from the thread, and the orderings that chain words have
made for it (R121, R122, R125, R162). -/
def enqueueCmd (e : BitVec 2) (i : Instr) (args : List W64) (caps : List Cap) (fmts : List W64) : M Unit :=
  modify (fun s =>
    let k := s.turn
    let c := coreAt s k
    let mine := c.chains.filter (fun h => h.dst == e)
    let live := mine.filter (fun h => (c.cmds ++ c.posted).any (fun x => x.ord == h.ord))
    let x : Cmd :=
      { ord := c.nextOrd, eng := e, seq := c.seq e, pc := c.th.pc, ins := i, args := args, caps := caps, fmts := fmts,
        edges := mine.foldl (fun g h => g.join h.edges) (forkEdges s k), after := live.map (·.ord), born := s.pt,
        code := c.th.code.obj }
    closeRegion (s.setCore k { c with
      cmds := c.cmds ++ [x], nextOrd := c.nextOrd + 1, seqs := mapSet 0 c.seqs e.toNat (c.seq e + 1), lastOrd := mapSet 0 c.lastOrd e.toNat c.nextOrd,
      chains := c.chains.filter (fun h => h.dst != e) }) k)

/-- An engine word: it waits for room in its engine's queue, its operands are read and checked, and its command is queued. -/
def engineWord (z : BitVec 1) (e : BitVec 2) (i : Instr) (operands : M (List W64 × List Cap × List W64)) (s : State) :
    Host.Outcome State Fault Refusal :=
  runWord (aBit z) false i (do
    needRoom e
    let (args, caps, fmts) ← operands
    enqueueCmd e i args caps fmts
    return .seq) s

-- What a command touches (R123)

/-- A range of an object that a command reads or writes. -/
structure Span where
  sp : Nat
  obj : Nat
  lo : Int
  hi : Int
  write : Bool
  deriving DecidableEq, Repr

def spanOf (c : Cap) (lo hi : Int) (write : Bool) : Span := ⟨c.sp, c.obj, lo, hi, write⟩
/-- The bytes from the cursor on. -/
def spanAt (c : Cap) (n : Nat) (write : Bool) : Span := spanOf c c.cur (c.cur + n) write
/-- The whole bound. -/
def spanAll (c : Cap) (write : Bool) : Span := spanOf c c.lo c.hi write
/-- The whole object, which a command that uses a view covers (R255). -/
def spanObject (c : Cap) (write : Bool) : Span := spanOf c 0 (2 ^ 40) write

/-- The physical ranges of a span, page by page: where its pages lie now. -/
def Span.places (s : State) (m : Nat) (a : Span) : List (Nat × Nat) :=
  let d := readDir s m a.obj
  let lo := (Max.max a.lo 0).toNat
  let hi := Min.min a.hi.toNat (65536 * dirNpages d)
  if !dirPresent d || hi ≤ lo then []
  else (List.range' (lo / 65536) ((hi - 1) / 65536 + 1 - lo / 65536)).filterMap (fun p =>
    let x := w64 (memNat s.mem (extKeyOf d p) 8)
    if !extPresent x then none
    else
      let from_ := Max.max lo (65536 * p) - 65536 * p
      some (65536 * extPpn x + from_, Min.min hi (65536 * p + 65536) - (65536 * p + from_)))

/-- Two spans in GSRAM or HBM intersect and one of them writes: within one object by their offsets, and between objects where their pages
lie. -/
def Span.meets (s : State) (m : Nat) (a b : Span) : Bool :=
  a.sp == b.sp && decide (a.sp < 2) && (a.write || b.write) &&
  (if a.obj == b.obj then decide (a.lo < b.hi) && decide (b.lo < a.hi)
   else (a.places s m).any (fun p => (b.places s m).any (fun q => overlaps p.1 p.2 q.1 q.2)))

/-- The bytes that rows of a width at a signed stride cover. -/
def spanRows (c : Cap) (width rows : Nat) (stride : Int) (write : Bool) : List Span :=
  if width = 0 || rows = 0 then []
  else
    let last := (c.cur : Int) + (rows - 1 : Nat) * stride
    [spanOf c (Min.min (c.cur : Int) last) (Max.max (c.cur : Int) last + width) write]

/-- A signed half of a scalar. -/
def half (v : W64) (hi : Bool) : Int := (field v (if hi then 32 else 0) 32).toInt

/-- An entry of the capability table as it stands, for the range checker. -/
def peekEntry (s : State) (k i : Nat) : Option Cap :=
  match (loadEntry (whoThread s k) k i).run s with
  | .ok (c, _) _ => if c.valid then some c else none
  | .error _ _ => none

/-- Bytes of an element of a vector memory form (R299). -/
def elemBytes (v : BitVec 3) : Nat := if v.toNat = 0 then 4 else if v.toNat ≤ 2 || v.toNat = 5 then 2 else 1

/-- The ranges that copies, vector and matrix memory forms and network commands cover. -/
def Cmd.spans (s : State) (k : Nat) (x : Cmd) : List Span :=
  let l := (x.arg 1).toNat
  let entry := fun (n : Nat) (write : Bool) => match peekEntry s k n with
    | none => []
    | some c => [spanAll c write]
  let vec := fun (write : Bool) (v : BitVec 3) =>
    let lo := ((x.cap 0).cur : Int) + (x.arg 0).toInt
    [spanOf (x.cap 0) lo (lo + 128 * (elemBytes v : Nat)) write]
  let strided := fun (write : Bool) (v : BitVec 3) =>
    let lo := ((x.cap 0).cur : Int) + (x.arg 0).toInt
    let hi := lo + 127 * (x.arg 1).toInt
    [spanOf (x.cap 0) (Min.min lo hi) (Max.max lo hi + (elemBytes v : Nat)) write]
  match x.ins with
  | .cp _ _ _ _ _ =>
    (if fieldNat (x.arg 0) 2 2 = 2 then [] else [spanAt (x.cap 1) l false]) ++
    (if fieldNat (x.arg 0) 2 2 = 1 then [] else [spanAt (x.cap 0) l true])
  | .cp2d _ _ _ _ _ =>
    spanRows (x.cap 1) (fieldNat (x.arg 1) 0 32) (fieldNat (x.arg 1) 32 32) (half (x.arg 2) true) false ++
    spanRows (x.cap 0) (fieldNat (x.arg 1) 0 32) (fieldNat (x.arg 1) 32 32) (half (x.arg 2) false) true
  | .cpOm _ _ _ _ _ => [spanAt (x.cap 1) l false]
  | .cpGat _ _ _ _ _ =>
    let n := fieldNat (x.arg 1) 0 32 * fieldNat (x.arg 1) 32 13
    let scatter := (x.arg 0).getLsbD 1
    (if scatter then [spanAt (x.cap 1) n false, spanAll (x.cap 0) true] else [spanAll (x.cap 1) false, spanAt (x.cap 0) n true]) ++
    entry (fieldNat (x.arg 0) 8 8) false
  | .cpSet _ _ _ _ => [spanAt (x.cap 0) l true]
  | .cpZ _ _ _ _ _ => [spanAt (x.cap 1) l false, spanObject (x.cap 0) true]
  | .cpX _ _ _ _ _ =>
    if (x.arg 0).getLsbD 1 then [spanAt (x.cap 1) l false, spanAll (x.cap 0) true]
    else [spanObject (x.cap 1) false, spanAt (x.cap 0) l true]
  | .cpCk _ _ _ _ _ =>
    [spanAt (x.cap 1) l false, spanAt (x.cap 0) (l + 16 * ceilDiv l 65536 + 31) true] ++
    (if (x.arg 0).getLsbD 1 then entry (fieldNat (x.arg 0) 8 8) false else [])
  | .vld _ _ _ _ v _ => vec false v
  | .vst _ _ _ _ v _ => vec true v
  | .vldS _ _ _ _ v _ => strided false v
  | .vstS _ _ _ _ v _ => strided true v
  | .vldx _ _ _ _ _ _ => [spanAll (x.cap 0) false]
  | .vstx _ _ _ _ _ _ => [spanAll (x.cap 0) true]
  | .accRd _ _ _ _ => [spanAt (x.cap 0) 16384 true]
  | .accWr _ _ _ _ => [spanAt (x.cap 0) 16384 false]
  | .dtabLd _ _ _ _ => [spanAt (x.cap 0) 16384 false]
  | .epi _ _ _ _ _ _ => [spanAt (x.cap 0) ((fieldNat (x.arg 0) 24 6 + 1) * l + 16) true]
  | .netPost _ _ _ _ => [spanAll (x.cap 0) true]
  | .netSendRead _ _ _ _ => [spanAll (x.cap 0) true]
  | .netSend _ _ _ _ => [spanAt (x.cap 0) (x.arg 0).toNat false]
  | .netSendWrite _ _ _ _ => [spanAt (x.cap 0) (x.arg 0).toNat false]
  | .netReply _ _ _ => [spanAt (x.cap 0) (x.arg 0).toNat false]
  | .fstLd _ _ _ _ => [spanAt (x.cap 0) (x.arg 0).toNat false]
  | .fstStart _ _ _ _ =>
    let lane := laneAt s (fieldNat (x.arg 1) 0 5)
    [spanAt (x.cap 0) (x.arg 0).toNat false, spanAt lane.table lane.tlen false] ++
      (List.range 5).flatMap (fun q => entry (lane.ix + q) true)
  | .fstStop _ _ => entry ((laneAt s (fieldNat (x.arg 1) 0 5)).ix + 4) true
  | _ => []

/-- The OM slots that a command reads. -/
def Cmd.slotsRead (x : Cmd) : List Nat := (List.range 16).filter x.readsSlot
/-- The OM slot that it fills. -/
def Cmd.slotsFilled (x : Cmd) : List Nat := (List.range 16).filter x.fillsSlot

/-- A copy-engine or matrix-engine command that reads or writes the vector register file. -/
def Cmd.usesVrf (x : Cmd) : Bool :=
  match x.ins with
  | .cp _ _ _ _ _ => fieldNat (x.arg 0) 2 2 != 0
  | .epiV _ _ _ _ _ => true
  | _ => false

/-- Two commands conflict (R123). -/
def conflict (s : State) (k : Nat) (x y : Cmd) : Bool :=
  let m := (coreAt s k).bound.getD 0
  let xs := x.spans s k
  let ys := y.spans s k
  xs.any (fun a => ys.any (a.meets s m)) ||
  x.slotsFilled.any (fun n => y.fillsSlot n || y.readsSlot n) || y.slotsFilled.any x.readsSlot ||
  (x.usesVrf && (y.usesVrf || y.eng == engVE)) || (y.usesVrf && x.eng == engVE)

/-- An fst.stop does not wait for the fst.start that it may stop, though both write the lane's record (R288). -/
def stopsLane (x y : Cmd) : Bool :=
  match x.ins, y.ins with
  | .fstStop _ _, .fstStart _ _ _ _ => fieldNat (x.arg 1) 0 5 == fieldNat (y.arg 1) 0 5
  | _, _ => false

/-- The engines of core k may move: its plot has reached its first fetch, the halt line is down and their clock runs. -/
def enginesRun (s : State) (k : Nat) : Bool :=
  match coreInv s k with
  | none => false
  | some i => i.stage == .running && !i.halted && !clockStopped s k

/-- The next command of an engine's queue to start. -/
def nextCmd (c : Core) (e : BitVec 2) : Option Cmd := c.cmds.find? (fun x => x.eng == e && !x.started)

/-- The epilogue that has captured its bank, when it has: the bank is free for the commands after it (R335). -/
def Cmd.captured (x : Cmd) : Bool :=
  match x.ins with
  | .epi _ _ _ _ _ _ => decide (1 ≤ x.step)
  | .epiV _ _ _ _ _ => decide (1 ≤ x.step)
  | _ => false

/-- Rows that an epilogue command converts. -/
def Cmd.epiRows (x : Cmd) : Nat := fieldNat (x.arg 0) 24 6 + 1

/-- A command that captures a bank. -/
def Cmd.isEpilogue (x : Cmd) : Bool :=
  match x.ins with
  | .epi _ _ _ _ _ _ => true
  | .epiV _ _ _ _ _ => true
  | _ => false

/-- A vmovq, whose push follows the completion of every vector command before it (R323). -/
def Cmd.isMovq (x : Cmd) : Bool := match x.ins with | .vmovq _ _ _ => true | _ => false

/-- A started command of the same engine lets x start: the network engine overlaps its commands, one that only awaits its parked writes lets the
engine go on (R199), but to a vmovq, and so does an epilogue after its capture, but to an epilogue, which waits for the conversion of its last row
(R335). -/
def letsStart (x y : Cmd) : Bool :=
  x.eng == engNE || (y.ending.isSome && !x.isMovq) || (y.captured && (!x.isEpilogue || decide (y.epiRows < y.step)))

/-- A posted buffer that is being filled: it counts as finished toward the bound of R123 (R277). -/
def Cmd.received (x : Cmd) : Bool :=
  match x.ins with
  | .netPost _ _ _ _ => x.started
  | _ => false

/-- Core k's command x, the next of its engine, may start (R123, R162, R249, R335, R350, R124). A command that has done its effects and waits for
room in qc is still unfinished for a chain (DESIGN CHOICE: R124 puts the completion before the push, and R171 names such a command as started
and held). -/
def canStart (s : State) (k : Nat) (x : Cmd) : Bool :=
  let c := coreAt s k
  let earlier := c.cmds.filter (fun y => decide (y.ord < x.ord))
  let bound := earlier.filter (fun y => !y.received)
  let posted := c.posted.filter (fun p => decide (p.ord < x.ord))
  let xs := x.spans s k
  decide (bound.length ≤ 32) && !earlier.any (fun y => conflict s k x y && !stopsLane x y) &&
  !posted.any (fun p => xs.any (fun a => a.meets s (c.bound.getD 0) (spanAll (p.cap 0) true))) &&
  x.after.all (fun o => !(c.cmds ++ c.posted).any (fun y => y.ord == o)) &&
  earlier.all (fun y => y.eng != x.eng || (y.posting.isNone && letsStart x y)) &&
  x.slotsRead.all (fun n => (c.slot n).state == .ready || (c.slot n).state == .draining) &&
  (x.eng != engME || c.mat.task.isNone)

-- The end of a command

/-- A command that its entry marks as posting a completion (R124, R251, R276). -/
def Cmd.posts (x : Cmd) : Bool :=
  match x.ins with
  | .accRd _ _ _ q => q == 1
  | .accWr _ _ _ q => q == 1
  | .epi _ _ _ _ _ q => q == 1
  | .epiV _ _ _ _ q => q == 1
  | .dtabLd _ _ _ q => q == 1
  | _ => x.eng == engNE || (x.eng == engCE && (x.arg 0).getLsbD 0)

/-- A completion entry (R124). -/
def completionWord (x : Cmd) (status detail : Nat) : W64 :=
  w64 (x.seq.toNat + x.eng.toNat * 2 ^ 16 + status % 256 * 2 ^ 24 + detail % 2 ^ 32 * 2 ^ 32)

/-- The state of a filled slot once its fill has ended (R248, R249). -/
def fillEnds (c : Core) (n : Nat) (ok : Bool) (edges : EdgeSet) (setter : BitVec 48) : Core :=
  let x := c.slot n
  if ok then
    let c := c.setSlot n { x with state := .ready, fill := false, edges := edges, setter := setter }
    if x.releasing then drainSlot (c.setSlot n { c.slot n with state := .draining, releasing := false }) n setter else c
  else if x.releasing then c.setSlot n { OmSlot.empty with setter := setter }
  else c.setSlot n { x with fill := false }

/-- What the end of a command joins: the commands that wait for it, chains from it, and eq.fence. -/
def joinCmd (c : Core) (x : Cmd) (g : EdgeSet) : Core :=
  { c with
    cmds := (c.cmds.filter (fun y => y.ord != x.ord)).map (fun y =>
      if y.after.contains x.ord then { y with edges := y.edges.join g, after := y.after.filter (fun o => o != x.ord) } else y)
    chains := c.chains.map (fun h => if h.src == x.eng && h.ord == x.ord then { h with edges := g } else h)
    doneEdges := mapSet EdgeSet.none c.doneEdges x.eng.toNat ((mapGet EdgeSet.none c.doneEdges x.eng.toNat).join g) }

/-- Command x of core k is replaced by its present state. -/
def putCmd (s : State) (k : Nat) (x : Cmd) : State :=
  s.updCore k (fun c => { c with cmds := c.cmds.map (fun y => if y.ord == x.ord then x else y) })

/-- An entry pushed to qc by an engine. -/
def Core.pushQc (c : Core) (e : Completion) (setter : BitVec 48) : Core :=
  { c with qc := c.qc ++ [e], portSetter := mapPut c.portSetter 61 setter }

/-- A lane entry is that of command x of the invocation on core k. -/
def LaneEntry.isOf (e : LaneEntry) (s : State) (k : Nat) (x : Cmd) : Bool := e.core == k && e.inv == invSerial s k && e.cmd == x.ord

/-- Removes the entry of a command of core k from its lane. -/
def dropEntry (s : State) (k : Nat) (x : Cmd) : State :=
  s.updLane (fieldNat (x.arg 1) 0 5) (fun l => { l with queue := l.queue.filter (fun e => !e.isOf s k x) })

/-- A lane command that has ended stands in its lane's queue no more (R287). -/
def leaveLane (s : State) (k : Nat) (x : Cmd) : State :=
  match x.ins with
  | .fstStart _ _ _ _ => dropEntry s k x
  | .fstLd _ _ _ _ => dropEntry s k x
  | _ => s

/-- A flag wait that a command begins, unless it stands already. -/
def Cmd.beginWait (x : Cmd) (kind flag now : Nat) : Cmd :=
  if x.waits.any (fun w => w.1 == kind && w.2.1 == flag) then x else { x with waits := x.waits ++ [(kind, flag, now)] }

/-- An agent is command x of core k. -/
def AgentId.isCmd (a : AgentId) (k : Nat) (x : Cmd) : Bool := match a with | .command c _ o => c == k && o == x.ord | _ => false

/-- A command ends: the slots it fills and reads move, then its completion entry is posted, or waits while qc is full
(R124). -/
def endCmd (s : State) (k : Nat) (x : Cmd) (ok : Bool) (status detail : Nat) : State :=
  let s := if x.eng = engCE then makeDurable s (·.isCmd k x) else s
  let g := commandEdges s k x
  let setter := agentId (1 + x.eng.toNat) k x.seq.toNat 0
  let word := completionWord x status detail
  let y := { x with posting := some word }
  let s := putCmd (if x.eng = engVE then s.countCore k 3 1 else s) k y
  (leaveLane s k x).updCore k (fun c =>
    let c := x.slotsFilled.foldl (fun c n => fillEnds c n ok g setter) c
    let c := x.slotsRead.foldl (fun c n => drainSlot c n setter) c
    if !x.posts then joinCmd c x g
    else if c.qc.length < 32 then joinCmd (c.pushQc ⟨word, g⟩ setter) x g
    else { c with cmds := c.cmds.map (fun z => if z.ord == x.ord then z.beginWait 2 61 s.pt else z) })

/-- A command whose completion entry waited posts it once qc has room. -/
def postCmd (s : State) (k : Nat) (x : Cmd) : State :=
  match x.posting with
  | none => s
  | some word =>
    let g := commandEdges s k x
    if (coreAt s k).qc.length < 32 then
      (endCmdWaits s k x 0).updCore k (fun c => joinCmd (c.pushQc ⟨word, g⟩ (agentId (1 + x.eng.toNat) k x.seq.toNat 0)) x g)
    else s

/-- Writes of command x of core k stand in the hoard log, or are on their way elsewhere than to HOST, where one that has been sent is complete
(R382). -/
def parkedWrites (s : State) (k : Nat) (x : Cmd) : Bool :=
  (coreAt s k).hoard.any (fun h => h.who.agent.isCmd k x) ||
  (coreAt s k).flight.any (fun f => f.who.agent.isCmd k x && f.place.sp != spHOST)

/-- A copy into PMEM is durable when it completes (R375, R435): it waits as pbar does for what it wrote. -/
def awaitsFlush (s : State) (x : Cmd) : Bool :=
  x.eng == engCE && (x.cap 0).sp == spPMEM && decide (0 < x.done) && s.mute.any (fun d => keySpace d.1 == spPMEM && decide (s.pt < d.2.2))

/-- An earlier command of the engine of x still awaits its writes: an engine, but for the network engine, completes its commands in their order
(R292). -/
def endsAfter (s : State) (k : Nat) (x : Cmd) : Bool :=
  x.eng != engNE && (coreAt s k).cmds.any (fun y => y.eng == x.eng && decide (y.ord < x.ord) && y.ending.isSome)

/-- A command that has taken its last step does not complete yet. -/
def endsLater (s : State) (k : Nat) (x : Cmd) : Bool :=
  (parkedWrites s k x && !x.isEpilogue) || awaitsFlush s x || endsAfter s k x

/-- A command has taken its last step: it completes when every effect has performed (R124), but for an epilogue, which completes with its rows in
the log (R344). -/
def finishCmd (s : State) (k : Nat) (x : Cmd) (ok : Bool) (status detail : Nat) : State :=
  if endsLater s k x then putCmd s k { x with ending := some (status, detail) } else endCmd s k x ok status detail

/-- A command that awaits its parked writes completes once they have performed. -/
def awaitWrites (s : State) (k : Nat) (x : Cmd) : State :=
  match x.ending with
  | none => s
  | some (status, detail) => if endsLater s k x then s else endCmd s k { x with ending := none } (status == 0) status detail

/-- The step of a stopped command: that of a vector load, a bank load or a table load returns to 0 (R301, R334, R342, R343). -/
def Cmd.stopStep (x : Cmd) : Nat :=
  match x.ins with
  | .vld _ _ _ _ _ _ => 0
  | .vldx _ _ _ _ _ _ => 0
  | .vldS _ _ _ _ _ _ => 0
  | .accWr _ _ _ _ => 0
  | .dtabLd _ _ _ _ => 0
  | _ => x.step

/-- The stop record of command x of core k as it faults, from the state in which it is unfinished. -/
def faultedRecord (s : State) (k : Nat) (x : Cmd) : StopRecord :=
  { engineRecord (putCmd s k x) k x.eng 1 with pc := x.pc, seq := x.seq, step := x.stopStep }

/-- An engine fault ends the command with STATUS the class plus 1 and DETAIL its progress, once what it wrote has performed, and is reported
(R389, R131, R124). -/
def endFaulted (s : State) (k : Nat) (x : Cmd) (f : FaultRec) : State :=
  report (finishCmd s k x false (f.cls + 1) x.done) k
    { f with imp := true, eng := some x.eng, order := 1 + x.eng.toNat, seq := x.seq, step := x.stopStep,
             record := some (faultedRecord s k x) }

/-- The watchpoint fault of an engine beat (R418, R423). -/
def hitFault (addr : W64) (skid : Nat) : FaultRec := { cls := 9, sub := 1, addr := addr, skid := skid }

/-- A command that matched a watchpoint notes the first matching byte. -/
def Cmd.note (x : Cmd) (hit : Option Nat) : Cmd := { x with hit := x.hit.or (hit.map w64) }

/-- A wait that stands for an agent's access at a far side, since its first send. -/
def askOf (s : State) (a : Option Ask) (h : Hold) : Option Ask :=
  match a with
  | some b => if b.key = h.flag then some b else some ⟨h.flag, h.lease, s.pt⟩
  | none => some ⟨h.flag, h.lease, s.pt⟩

/-- A command that holds: on a parked page (R199), on a refused access, which walks again (R190), on a full port, or on a far side (R434). -/
def holdCmd (s : State) (k : Nat) (x : Cmd) (h : Hold) : State :=
  match h.kind with
  | .parked =>
    promote (putCmd (if x.parked.isNone then s.countCore k 8 1 else s) k { x with parked := some h.extent }) h.extent
  | .refused => putCmd s k { x with parked := some 0 }
  | .port => putCmd s k (x.beginWait 2 h.flag s.pt)
  | .answer => putCmd s k { x with ask := askOf s x.ask h }
  | _ => s

/-- The next micro-step of a command that moves beats makes no access: it ends, it sends what it has read, or it turns to its next chunk. -/
def Cmd.idle (x : Cmd) : Bool :=
  let l := (x.arg 0).toNat
  let placed := match x.tmp with
    | 2 :: pos :: _ :: pages => decide (x.buf.length ≤ pos) || pages.contains (((x.cap 0).cur + pos) / 65536)
    | _ => true
  match x.ins with
  | .netSend _ _ _ _ => decide (l ≤ x.done)
  | .netSendWrite _ _ _ _ => decide (l ≤ x.done)
  | .netReply _ _ _ => decide (l ≤ x.done)
  | .netSendRead _ _ _ _ => placed
  | .netPost _ _ _ _ => placed
  | .fstLd _ _ _ _ => decide (Min.min 320 l ≤ x.buf.length)
  | .cpCk _ _ _ _ _ =>
    x.tmp.headD 0 == 0 && (!(x.arg 0).getLsbD 1 || decide ((x.arg 1).toNat ≤ 65536 * x.tmp.getD 1 0))
  | _ => false

/-- A micro-step of a copy that took it from x to y has written a beat to its destination: a length of 0, a header read and the fill of a buffer
write none (R252, R419; DESIGN CHOICE: the store of a chunk's header counts as a beat). -/
def Cmd.movedBeat (x y : Cmd) : Bool :=
  x.eng == engCE &&
  match x.ins with
  | .cpGat _ _ _ _ _ => x.done != y.done || x.tmp != y.tmp
  | .cpZ _ _ _ _ _ => x.tmp.headD 0 == 2
  | _ => decide (x.done < y.done)

/-- One micro-step of command x of core k. A step that waits leaves nothing but its walks; what a step performed before it
faulted stands. After a match one further beat performs, unless it has to wait (R423). -/
def advance (step : Cmd → M Prog) (s0 : State) (k : Nat) (x : Cmd) : Host.Outcome State Fault Refusal :=
  let s := { s0 with turn := k }
  let beat := fun (s : State) (y : Cmd) => if x.movedBeat y then s.countCore k 4 1 else s
  match x.hit, x.idle with
  | some a, true => .next (endFaulted s k x (hitFault a 0))
  | _, _ =>
  match (step { x with parked := none, ask := none }).run s with
  | .ok (.struck y skid) s1 => .next (endFaulted (beat s1 y) k y (hitFault (y.hit.getD 0) skid))
  | .ok (.more y) s1 =>
    let s1 := beat s1 y
    match x.hit with
    | some a => .next (endFaulted s1 k y (hitFault a 1))
    | none => .next (putCmd s1 k y)
  | .ok (.done y status detail) s1 =>
    let s1 := beat s1 y
    match y.hit with
    | some a => .next (endFaulted s1 k y (hitFault a (if x.hit.isSome then 1 else 0)))
    | none => .next (finishCmd s1 k y (status == 0) status detail)
  | .error (.fault f) s1 =>
    match x.hit with
    | some a => .next (endFaulted s1 k x (hitFault a 0))
    | none => .next (endFaulted s1 k x f)
  | .error (.wait h) s1 =>
    match x.hit with
    | some a => .next (endFaulted (rollBack s s1) k x (hitFault a 0))
    | none => .next (holdCmd (rollBack s s1) k x h)
  | .error (.hard f) _ => .fault f

/-- A command holds where it stands: on a parked page that is still unusable, and on an engine-step breakpoint (R414). -/
def holdsStill (s : State) (x : Cmd) : Bool :=
  match x.parked with
  | none => false
  | some e => e != 0 && !extentUsable s e false

/-- The step of an engine-step breakpoint of R414 that stops before a step that the next micro-step of a command of core k performs: the lowest from
its present one up to `past`, but for those at which it has stopped. A product stops within a segment, and its working copy is discarded
(R334). -/
def stepBreak (s : State) (k : Nat) (x : Cmd) (past : Nat) : Option (Nat × Nat) :=
  match (coreAt s k).bound with
  | none => none
  | some m =>
    let steps := ((partAt s (mcbAt s m).part.toNat).bps.filter (fun e =>
      e.2.getLsbD 49 && e.2.getLsbD 48 && fieldNat e.2 50 14 == m && 4 * fieldNat e.2 0 30 == x.pc.toNat &&
      fieldNat e.2 46 2 == x.eng.toNat)).map (fun e => fieldNat e.2 30 16)
    let due := steps.filter (fun n => decide (x.step ≤ n) && decide (n < past) && x.passed.all (fun p => decide (p < n)))
    if x.code == (coreAt s k).th.codecap.obj then due.min?.map (fun n => (m, n)) else none

-- Accesses of engines

/-- A vector access, and a read of a network command, performs after every earlier write of the core from before its command: hoard-log entries,
writes on their way and reductions in the fabric, in every space (R303, R357). -/
def waitBorn (x : Cmd) : M Unit := do
  let s ← get
  let k := s.turn
  let before := fun (since : Nat) (a : AgentId) => decide (since ≤ x.born) && !a.isCmd k x
  if (coreAt s k).hoard.any (fun h => before h.since h.who.agent) || (coreAt s k).flight.any (fun f => before f.since f.who.agent) ||
     s.switch.any (fun e => e.ofCore k && before e.since e.first.who.agent) then waitOn .hoarded

/-- A read of n bytes by an agent through a captured capability (R122, R182, R185, R213, R369): the bytes, what a watchpoint
matched, and the tags that stand at granules of the object. -/
def engineRead (w : Who) (c : Cap) (need : BitVec 12) (ea : Int) (n : Nat) : M (List Byte × Option Nat × (Nat → Bool)) := do
  let a ← checkCap c need ea n
  waitHoard w.core c.obj a n
  behindPosted c.sp
  let ps ← resolveAll w c.obj c.sp { write := false } (pagePieces (pageFuel n) a n)
  for p in ps do behindFlights p.2.2 p.2.1
  answersAll ps
  let (bs, hit) ← readPieces w true .read c.obj ps
  let tags := (← get).tags
  return (bs, hit, fun g => match ps.find? (fun p => decide (p.1 ≤ g) && decide (g < p.1 + p.2.1)) with
    | none => false
    | some p => tagged c.sp && mapGet false tags ((p.2.2.key + (g - p.1)) / 16))

/-- A write of bytes by an agent through a captured capability; one that parks enters the hoard log (R199). A failed merge
is an integrity fault of the command (R213). -/
def engineWrite (w : Who) (c : Cap) (need : BitVec 12) (ea : Int) (bs : List Byte) (op : HoardOp := .store)
    (tags : List Nat := []) : M (Option Nat) := do
  let a ← checkCap c (if c.sp = spPMEM then need ||| permPERSIST else need) ea bs.length
  waitHoard w.core c.obj a bs.length
  let stored : M (Option Nat × Option (Nat × Nat)) := do
    let out ← storeAt w 1 c a bs { write := true }
    if out.2.isNone then setTags w c tags
    return out
  let out ← tryCatch stored (fun e => match e with
    | .wait h => if h.kind = .parked then do hoardPut w op c a bs h.extent [] tags; return (none, none) else throw e
    | e => throw e)
  match out.2 with
  | some (cls, sub) => raise cls sub a
  | none => return out.1

end Sys2Proof.Machine
end

