-- ==== Sys2Proof/Machine/Copy.lean ====
section
/-!
DEFINITION. The copy engine (R251 to R268): plain, strided, gathered and filling copies, fills of OM slots, compressed buffers
(R255 to R260) and checkpoint streams (R261), beat by beat.
-/
namespace Sys2Proof.Machine

-- Dispatch (R251, R252)

/-- The control scalar: reserved bits zero, and zero every field that the form does not use. -/
def ctlOk (v : W64) (x dir ix vreg : Bool) : Bool :=
  fieldNat v 25 39 == 0 && fieldNat v 4 4 == 0 && (x || !v.getLsbD 1) && (dir || fieldNat v 2 2 == 0) &&
  (ix || fieldNat v 8 8 == 0) && (vreg || fieldNat v 16 9 == 0)

/-- A length of a copy. -/
def lengthOk (l : W64) : Bool := decide (l.toNat < 2 ^ 32)

/-- The check of a destination: ST, and PERSIST in PMEM (R252). -/
def checkDest (c : Cap) : M Unit := checkOperand c (if c.sp = spPMEM then permST ||| permPERSIST else permST) dataSpaces
def checkSource (c : Cap) : M Unit := checkOperand c permLD dataSpaces

/-- cp (R262). -/
def execCp (z : BitVec 1) (d e : BitVec 5) (l c : BitVec 6) (s : State) : Host.Outcome State Fault Refusal :=
  engineWord z engCE (.cp z d e l c) (do
    let n ← readS l
    let ctl ← readS c
    let dir := fieldNat ctl 2 2
    rangeSub8 (ctlOk ctl false true false (dir != 0) && dir != 3 && lengthOk n)
    rangeSub8 ((if dir = 1 then d.toNat == 0 else d.toNat != 0) && (if dir = 2 then e.toNat == 0 else e.toNat != 0))
    rangeSub8 (dir == 0 || (n.toNat % 512 == 0 && decide (fieldNat ctl 16 9 + n.toNat / 512 ≤ 512)))
    let cd ← readC d
    let ce ← readC e
    if dir ≠ 1 then checkDest cd
    if dir ≠ 2 then checkSource ce
    return ([ctl, n], [cd, ce], [])) s

/-- cp.2d (R263). -/
def execCp2d (z : BitVec 1) (d e : BitVec 5) (n c : BitVec 6) (s : State) : Host.Outcome State Fault Refusal :=
  engineWord z engCE (.cp2d z d e n c) (do
    let shape ← readS n
    let strides ← readS (n + 1)
    let ctl ← readS c
    rangeSub8 (ctlOk ctl false false false false && decide (fieldNat shape 0 32 * fieldNat shape 32 32 < 2 ^ 32))
    let cd ← readC d
    let ce ← readC e
    checkDest cd
    checkSource ce
    return ([ctl, shape, strides], [cd, ce], [])) s

/-- cp.om (R266): the slot's claim is taken by this fill (R249, R250). -/
def execCpOm (z : BitVec 1) (n : BitVec 4) (e : BitVec 5) (l c : BitVec 6) (s : State) : Host.Outcome State Fault Refusal :=
  engineWord z engCE (.cpOm z n e l c) (do
    let len ← readS l
    let ctl ← readS c
    rangeSub8 (ctlOk ctl false false false false && lengthOk len)
    let ce ← readC e
    checkSource ce
    let x := (← core).slot n.toNat
    if x.state != .filling || x.releasing then raise 3 2 0
    if x.fill then raise 3 3 0
    if len.toNat > 16384 then raise 3 4 0
    updCore (fun c => c.setSlot n.toNat { x with fill := true })
    return ([ctl, len], [Cap.null, ce], [])) s

/-- cp.gat (R265). -/
def execCpGat (z : BitVec 1) (d e : BitVec 5) (n c : BitVec 6) (s : State) : Host.Outcome State Fault Refusal :=
  engineWord z engCE (.cpGat z d e n c) (do
    let shape ← readS n
    let ctl ← readS c
    rangeSub8 (ctlOk ctl true false true false && fieldNat shape 45 19 == 0 && decide (1 ≤ fieldNat shape 32 13) &&
      decide (fieldNat shape 32 13 ≤ 4096))
    let cd ← readC d
    let ce ← readC e
    checkDest cd
    checkSource ce
    return ([ctl, shape], [cd, ce], [])) s

/-- cp.set (R267). -/
def execCpSet (z : BitVec 1) (d : BitVec 5) (n c : BitVec 6) (s : State) : Host.Outcome State Fault Refusal :=
  engineWord z engCE (.cpSet z d n c) (do
    let len ← readS n
    let pattern ← readS (n + 1)
    let ctl ← readS c
    rangeSub8 (ctlOk ctl false false false false && lengthOk len)
    let cd ← readC d
    checkDest cd
    return ([ctl, len, pattern], [cd], [])) s

/-- cp.z (R268). -/
def execCpZ (z : BitVec 1) (d e : BitVec 5) (l c : BitVec 6) (s : State) : Host.Outcome State Fault Refusal :=
  engineWord z engCE (.cpZ z d e l c) (do
    let len ← readS l
    let ctl ← readS c
    rangeSub8 (ctlOk ctl false false false false && lengthOk len)
    let cd ← readC d
    let ce ← readC e
    checkDest cd
    checkSource ce
    return ([ctl, len], [cd, ce], [])) s

/-- cp.x (R268). -/
def execCpX (z : BitVec 1) (d e : BitVec 5) (l c : BitVec 6) (s : State) : Host.Outcome State Fault Refusal :=
  engineWord z engCE (.cpX z d e l c) (do
    let len ← readS l
    let ctl ← readS c
    rangeSub8 (ctlOk ctl true false false false && lengthOk len)
    let cd ← readC d
    let ce ← readC e
    checkDest cd
    checkSource ce
    return ([ctl, len], [cd, ce], [])) s

/-- cp.ck (R264). -/
def execCpCk (z : BitVec 1) (d e : BitVec 5) (l c : BitVec 6) (s : State) : Host.Outcome State Fault Refusal :=
  engineWord z engCE (.cpCk z d e l c) (do
    let len ← readS l
    let ctl ← readS c
    rangeSub8 (ctlOk ctl true false true false && lengthOk len)
    let cd ← readC d
    let ce ← readC e
    checkDest cd
    checkSource ce
    return ([ctl, len], [cd, ce], [])) s

-- Beats

/-- Bytes of the beat at a destination offset: what is left of its aligned 64-byte block (R252). -/
def beatLen (dst : Int) (left : Nat) : Nat := Min.min (64 - (dst % 64).toNat) left

/-- A form that never takes a COMPRESSED object: SUB 1 in place of SUB 0 (R254). -/
def noView {α : Type} (x : M α) : M α :=
  tryCatch x (fun e => match e with
    | .fault f => if f.cls = 1 && f.sub = 0 then throw (.fault { f with sub := 1 }) else throw e
    | e => throw e)

/-- The granules of a beat that keep their tags (R253), as destination offsets. -/
def keptTags (cs cd : Cap) (src dst : Int) (n : Nat) (tag : Nat → Bool) : List Nat :=
  if tagged cs.sp && tagged cd.sp && cs.has permLDCAP && cd.has permSTCAP && src % 16 == dst % 16 then
    let a := dst.toNat
    ((List.range 5).map (fun i => (roundUp a 16) + 16 * i)).filter (fun g =>
      decide (g + 16 ≤ a + n) && tag (src.toNat + (g - a)))
  else []

/-- One beat from memory to memory. -/
def copyBeat (x : Cmd) (src dst : Int) (n : Nat) : M (Option Nat) := do
  let s ← get
  let w := whoCmd s s.turn x
  noView (do
    let (bs, h1, tag) ← engineRead w (x.cap 1) permLD src n
    let h2 ← engineWrite w (x.cap 0) permST dst bs .store (keptTags (x.cap 1) (x.cap 0) src dst n tag)
    return h1.or h2)

/-- A beat has been performed: the command goes on until `total` bytes are done. -/
def beatDone (x : Cmd) (n total : Nat) (hit : Option Nat) : Prog :=
  let y := { x with step := x.step + 1, done := x.done + n }.note hit
  if y.done < total then .more y else .done y 0 y.done

/-- Bytes of the vector register file from a byte index on (R262). -/
def vrfBytes (v : VectorState) (o n : Nat) : List Byte :=
  (List.range n).map (fun i =>
    let b := o + i
    BitVec.ofNat 8 (((mapGet (List.replicate 128 0) v.v (b / 512)).getD (b % 512 / 4) 0).toNat / 2 ^ (8 * (b % 4))))

/-- The register file with whole words written from a byte index on. -/
def vrfWrite (v : VectorState) : Nat → Nat → List Byte → VectorState
  | 0, _, _ => v
  | fuel + 1, o, bs =>
    if bs.isEmpty then v
    else
      let zero : List W32 := List.replicate 128 0
      let l := (mapGet zero v.v (o / 512)).set (o % 512 / 4) (BitVec.ofNat 32 (leNat (bs.take 4)))
      vrfWrite { v with v := mapSet zero v.v (o / 512) l } fuel (o + 4) (bs.drop 4)

/-- A micro-step of cp. -/
def cpStep (x : Cmd) : M Prog := do
  let ctl := x.arg 0
  let total := (x.arg 1).toNat
  if total = 0 then return .done x 0 0
  let s ← get
  let w := whoCmd s s.turn x
  let from_ := ((x.cap 1).cur : Int) + x.done
  let dst := ((x.cap 0).cur : Int) + x.done
  let reg := 512 * fieldNat ctl 16 9 + x.done
  if fieldNat ctl 2 2 = 0 then
    let n := beatLen dst (total - x.done)
    return beatDone x n total (← copyBeat x from_ dst n)
  else if fieldNat ctl 2 2 = 1 then
    let n := beatLen x.done (total - x.done)
    let (bs, hit, _) ← noView (engineRead w (x.cap 1) permLD from_ n)
    updCore (fun c => { c with vec := vrfWrite c.vec 16 reg bs })
    return beatDone x n total hit
  else
    let n := beatLen dst (total - x.done)
    let hit ← noView (engineWrite w (x.cap 0) permST dst (vrfBytes (← core).vec reg n))
    return beatDone x n total hit

/-- A micro-step of cp.2d: a beat of its present row. -/
def cp2dStep (x : Cmd) : M Prog := do
  let width := fieldNat (x.arg 1) 0 32
  let total := width * fieldNat (x.arg 1) 32 32
  if total = 0 then return .done x 0 0
  let row := x.done / width
  let col := x.done % width
  let dst := ((x.cap 0).cur : Int) + row * half (x.arg 2) false + col
  let from_ := ((x.cap 1).cur : Int) + row * half (x.arg 2) true + col
  let n := beatLen dst (width - col)
  return beatDone x n total (← copyBeat x from_ dst n)

/-- A micro-step of cp.set. -/
def cpSetStep (x : Cmd) : M Prog := do
  let total := (x.arg 1).toNat
  if total = 0 then return .done x 0 0
  let s ← get
  let dst := ((x.cap 0).cur : Int) + x.done
  let n := beatLen dst (total - x.done)
  let bs := (List.range n).map (fun (i : Nat) => BitVec.ofNat 8 ((x.arg 2).toNat / 2 ^ (8 * ((dst + (i : Nat)) % 8).toNat)))
  return beatDone x n total (← noView (engineWrite (whoCmd s s.turn x) (x.cap 0) permST dst bs))

/-- A micro-step of cp.om: a beat into its slot. -/
def cpOmStep (x : Cmd) (n : Nat) : M Prog := do
  let total := (x.arg 1).toNat
  if x.done = 0 then updCore (fun c => c.setSlot n { c.slot n with data := [] })
  if total = 0 then return .done x 0 0
  let s ← get
  let m := beatLen x.done (total - x.done)
  let (bs, hit, _) ← noView (engineRead (whoCmd s s.turn x) (x.cap 1) permLD (((x.cap 1).cur : Int) + x.done) m)
  updCore (fun c => c.setSlot n { c.slot n with data := (c.slot n).data ++ bs })
  return beatDone x m total hit

/-- The capability-table entry that a command reads at its start, which must be tagged and hold LD (R264, R265). A watchpoint that it matches
stops the command after one further beat (R418, R423). -/
def startEntry (x : Cmd) : M Cmd := do
  let s ← get
  let (c, hit) ← loadEntry (whoThread s s.turn) s.turn (fieldNat (x.arg 0) 8 8)
  if !c.valid then raise 0 0 c.cur
  if !c.has permLD then raise 0 2 c.cur
  if !dataSpaces.contains c.sp then raise 0 3 c.cur
  return { x with caps := x.caps.take 2 ++ [c] }.note hit

/-- A micro-step of cp.gat: a beat of its present element. -/
def cpGatStep (x : Cmd) : M Prog := do
  let count := fieldNat (x.arg 1) 0 32
  let size := fieldNat (x.arg 1) 32 13
  if x.done ≥ count then return .done x 0 x.done
  let s ← get
  let w := whoCmd s s.turn x
  let (pos, idx, h0) ← (match x.tmp with
    | pos :: idx :: _ => pure (pos, idx, none)
    | _ => do
      let (bs, h, _) ← noView (engineRead w (x.cap 2) permLD (((x.cap 2).cur : Int) + 4 * (x.done : Nat)) 4)
      pure (0, leNat bs, h))
  let scatter := (x.arg 0).getLsbD 1
  let from_ := ((x.cap 1).cur : Int) + ((if scatter then x.done else idx) * size + pos : Nat)
  let dst := ((x.cap 0).cur : Int) + ((if scatter then idx else x.done) * size + pos : Nat)
  let n := beatLen dst (size - pos)
  let hit ← copyBeat x from_ dst n
  let y := x.note (h0.or hit)
  let y := if pos + n < size then { y with tmp := [pos + n, idx] } else { y with tmp := [], step := x.step + 1, done := x.done + 1 }
  -- after a match of the index, the element's beat is the further one (R423)
  if h0.isSome then return .struck y 1
  return if y.done < count then .more y else .done y 0 y.done

-- Compressed buffers (R255 to R260)

/-- Chunks of a COMPRESSED object. -/
def chunksOf (npages : Nat) : Nat := Min.min 2048 ((npages - 1) / 2)

def hdrMagic (h : BitVec 256) : Nat := fieldNat h 0 32
def hdrRaw (h : BitVec 256) : Bool := h.getLsbD 33
def hdrBank (h : BitVec 256) : Nat := fieldNat h 34 1
def hdrSeq (h : BitVec 256) : Nat := fieldNat h 48 16
def hdrClen (h : BitVec 256) : Nat := fieldNat h 64 17
def hdrRlen (h : BitVec 256) : Nat := fieldNat h 96 17
def hdrRchk (h : BitVec 256) : Nat := fieldNat h 128 16

/-- A header other than the empty one is valid (R256). -/
def hdrOk (h : BitVec 256) : Bool :=
  hdrMagic h == 0x5A434831 && fieldNat h 144 112 == 0 && fieldNat h 113 15 == 0 && fieldNat h 81 15 == 0 &&
  fieldNat h 35 13 == 0 && fieldNat h 32 1 == 0 && decide (1 ≤ hdrClen h) && decide (hdrClen h ≤ 65536) &&
  decide (1 ≤ hdrRlen h) && decide (hdrRlen h ≤ 65536) && (!hdrRaw h || hdrClen h == hdrRlen h)

/-- A chunk header. -/
def mkHdr (raw : Bool) (bank seq clen rlen rchk : Nat) : BitVec 256 :=
  BitVec.ofNat 256 (0x5A434831 + (if raw then 2 ^ 33 else 0) + bank % 2 * 2 ^ 34 + seq % 65536 * 2 ^ 48 + clen * 2 ^ 64 +
    rlen * 2 ^ 96 + rchk * 2 ^ 128)

/-- n copies of the byte at distance d, one by one; the output is held last byte first. -/
def matchOut (d : Nat) : Nat → List Byte → List Byte
  | 0, out => out
  | n + 1, out => matchOut d n (out.getD (d - 1) 0 :: out)

/-- The tokens of R257 and R258: the output, last byte first, or the subcode and the coded offset of the failing token. -/
def decodeTokens (rlen : Nat) : Nat → Nat → List Byte → Nat → List Byte → Except (Nat × Nat) (List Byte)
  | 0, i, _, _, _ => .error (4, i)
  | fuel + 1, i, data, o, out =>
    match data with
    | [] => if o = rlen then .ok out else .error (5, i)
    | t :: rest =>
      let kind := t.toNat / 64
      let low := t.toNat % 64
      let x := (rest.getD 0 0).toNat
      let y := (rest.getD 1 0).toNat
      let k := if kind = 0 then 1 + (low + 1) else if kind = 1 then 2 else 3
      let n := if kind = 0 then low + 1 else if kind = 3 then low + 4 else 256 * low + x + 1
      let d := x + 256 * y + 1
      if k > data.length then .error (4, i)
      else if kind = 3 && decide (d > o) then .error (3, i)
      else if o + n > rlen then .error (4, i)
      else
        let out := match kind with
          | 0 => (rest.take n).reverse ++ out
          | 1 => List.replicate n 0 ++ out
          | 2 => List.replicate n (rest.getD 1 0) ++ out
          | _ => matchOut d n out
        decodeTokens rlen fuel (i + k) (data.drop k) (o + n) out

/-- DecodeChunk (R258): the raw bytes; or the class, subcode and coded offset of the fault. -/
def decodeChunk (raw : Bool) (rlen rchk : Nat) (data : List Byte) : Except (Nat × Nat × Nat) (List Byte) :=
  if raw then .ok data
  else
    match decodeTokens rlen (data.length + 1) 0 data 0 [] with
    | .error (sub, i) => .error (4, sub, i)
    | .ok out => if crc16 out.reverse = rchk then .ok out.reverse else .error (7, 2, 0)

/-- The coding of a chunk (R259): whether it is RAW, and its bytes. -/
def codeChunk (raw : List Byte) : Bool × List Byte :=
  let t := Config.chunkTokens raw
  match decodeTokens raw.length (t.length + 1) 0 t 0 [] with
  | .ok out => if t.length < raw.length && !t.isEmpty && out == raw.reverse then (false, t) else (true, raw)
  | .error _ => (true, raw)

/-- The object of a view (R254): COMPRESSED, reached with ZVIEW, in GSRAM or HBM. Its directory entry. -/
def viewObject (w : Who) (c : Cap) (write : Bool) : M (BitVec 256) := do
  let r ← tryCatch (resolve w c.obj c.sp 0 { write := write, zview := c.has permZVIEW }) (fun e => match e with
    | .fault f => if f.cls = 1 && f.sub = 0 then raise 1 2 c.cur else throw e
    | e => throw e)
  if !c.has permZVIEW || !dirCompressed r.dir then raise 1 2 c.cur
  if c.sp > 1 then raise 1 4 c.cur
  return r.dir

/-- A read of physical bytes of a COMPRESSED object, at page offsets that the engine derives. -/
def viewRead (w : Who) (c : Cap) (off n : Nat) : M (List Byte × Option Nat) := do
  waitHoard w.core c.obj off n
  let ps ← resolveAll w c.obj c.sp { write := false, zview := true } (pagePieces (pageFuel n) off n)
  readPieces w true .read c.obj ps

/-- A write of such bytes. -/
def viewWrite (w : Who) (c : Cap) (off : Nat) (bs : List Byte) : M (Option Nat) := do
  waitHoard w.core c.obj off bs.length
  let out ← tryCatch (storeAt w 1 c off bs { write := true, zview := true }) (fun e => match e with
    | .wait h => if h.kind = .parked then do hoardPut w .store c off bs h.extent; return (none, none) else throw e
    | e => throw e)
  match out.2 with
  | some (cls, sub) => raise cls sub off
  | none => return out.1

/-- The header of chunk c of a view: a chunk beyond the raw view lies beyond the object's pages. -/
def viewHeader (w : Who) (c : Cap) (d : BitVec 256) (chunk : Nat) : M (BitVec 256 × Option Nat) := do
  if chunk ≥ chunksOf (dirNpages d) then raise 8 1 (65536 * chunk)
  let (bs, hit) ← viewRead w c (32 * chunk) 32
  return (BitVec.ofNat 256 (leNat bs), hit)

/-- Bank b of chunk c begins here (R255). -/
def bankAt (chunk b : Nat) : Nat := 65536 * (1 + 2 * chunk + b)

/-- A micro-step that reads 64 source bytes into the command's buffer until `total` are there. -/
def fillBuf (x : Cmd) (read : Nat → Nat → M (List Byte × Option Nat)) (total : Nat) : M Cmd := do
  let n := Min.min 64 (total - x.buf.length)
  let (bs, hit) ← read x.buf.length n
  return { x with buf := x.buf ++ bs }.note hit

/-- The FADDR of a codec fault (R258). -/
def codecFault {α : Type} (cls sub chunk i : Nat) : M α := raise cls sub (chunk % 2 ^ 24 * 2 ^ 16 + i % 2 ^ 16)

/-- A micro-step of cp.z (R260). `tmp` holds the phase, the header read, RLEN, RCHK, RAW and the bytes written. -/
def cpZStep (x : Cmd) : M Prog := do
  let total := (x.arg 1).toNat
  if total = 0 then return .done x 0 0
  let s ← get
  let w := whoCmd s s.turn x
  let c := x.cap 0
  let d ← viewObject w c true
  if c.cur % 65536 ≠ 0 then raise 1 3 c.cur
  let chunk := c.cur / 65536 + x.step
  let rlen := Min.min 65536 (total - x.done)
  let _ ← checkCap c permST (65536 * chunk : Nat) rlen
  match x.tmp with
  | 1 :: hdr :: _ =>
    let y ← fillBuf x (fun o n => do
      let (bs, h, _) ← engineRead w (x.cap 1) permLD (((x.cap 1).cur : Int) + x.done + o) n
      return (bs, h)) rlen
    if y.buf.length < rlen then return .more y
    let (raw, coded) := codeChunk y.buf
    return .more { y with buf := coded, tmp := [2, hdr, crc16 y.buf, if raw then 1 else 0, 0] }
  | 2 :: hdr :: rchk :: raw :: pos :: _ =>
    let h := BitVec.ofNat 256 hdr
    let bank := if hdr = 0 then 0 else 1 - hdrBank h
    if pos < x.buf.length then
      let n := Min.min 64 (x.buf.length - pos)
      let hit ← viewWrite w c (bankAt chunk bank + pos) ((x.buf.drop pos).take n)
      return .more ({ x with tmp := [2, hdr, rchk, raw, pos + n] }.note hit)
    else
      -- every data beat performs before the header store
      waitHoard w.core c.obj (bankAt chunk bank) 65536
      let (now, h1) ← viewHeader w c d chunk
      if now.toNat ≠ hdr then raise 5 (Config.publicationSub % 256) (32 * chunk)
      let new := mkHdr (raw == 1) bank (if hdr = 0 then 1 else hdrSeq h + 1) x.buf.length rlen rchk
      let h2 ← viewWrite w c (32 * chunk) (leBytes 32 new.toNat)
      let y := { x with step := x.step + 1, done := x.done + rlen, buf := [], tmp := [] }.note (h1.or h2)
      if h1.isSome then return .struck y 1
      return if y.done < total then .more y else .done y 0 y.done
  | _ =>
    let (h, hit) ← viewHeader w c d chunk
    if h ≠ 0 && !hdrOk h then codecFault 4 2 chunk 0
    return .more ({ x with buf := [], tmp := [1, h.toNat] }.note hit)

/-- Writes the next beat of the command's buffer at a destination offset; `pos` bytes of it have been written. -/
def drainBuf (w : Who) (c : Cap) (dst : Int) (buf : List Byte) (pos : Nat) : M (Nat × Option Nat) := do
  let n := beatLen (dst + pos) (buf.length - pos)
  let hit ← engineWrite w c permST (dst + pos) ((buf.drop pos).take n)
  return (n, hit)

/-- The first view byte of the chunk that cp.x works on: `done` counts the bytes of it that have been written. -/
def viewAt (x : Cmd) : Nat := (x.cap 1).cur + x.done - (match x.tmp with | 2 :: _ :: pos :: _ => pos | _ => 0)

/-- A micro-step of cp.x over a view (R268). `tmp` holds the phase, the header and the bytes of the chunk written. -/
def cpXViewStep (x : Cmd) : M Prog := do
  let total := (x.arg 1).toNat
  if total = 0 then return .done x 0 0
  let s ← get
  let w := whoCmd s s.turn x
  let c := x.cap 1
  let d ← viewObject w c false
  let at_ := viewAt x
  let chunk := at_ / 65536
  let off := at_ % 65536
  let want := Min.min (65536 - off) (c.cur + total - at_)
  let _ ← checkCap c permLD at_ want
  let decoded := fun (y : Cmd) (h : BitVec 256) (data : List Byte) => do
    match decodeChunk (hdrRaw h) (hdrRlen h) (hdrRchk h) data with
    | .error (cls, sub, i) => codecFault cls sub chunk i
    | .ok out =>
      let view := out ++ List.replicate (65536 - out.length) 0
      return Prog.more { y with buf := (view.drop off).take want, tmp := [2, h.toNat, 0] }
  match x.tmp with
  | 1 :: hdr :: _ =>
    let h := BitVec.ofNat 256 hdr
    let y ← fillBuf x (fun o n => viewRead w c (bankAt chunk (hdrBank h) + o) n) (hdrClen h)
    if y.buf.length < hdrClen h then return .more y else decoded y h y.buf
  | 2 :: hdr :: pos :: _ =>
    let (n, hit) ← drainBuf w (x.cap 0) (((x.cap 0).cur : Int) + (x.done - pos : Nat)) x.buf pos
    let y := { x with done := x.done + n, tmp := [2, hdr, pos + n] }.note hit
    if pos + n < x.buf.length then return .more y
    let y := { y with step := x.step + 1, buf := [], tmp := [] }
    return if y.done < total then .more y else .done y 0 y.done
  | _ =>
    let (h, hit) ← viewHeader w c d chunk
    let y := x.note hit
    if h = 0 then return .more { y with buf := List.replicate want 0, tmp := [2, 0, 0] }
    if !hdrOk h then codecFault 4 2 chunk 0
    return .more { y with buf := [], tmp := [1, h.toNat] }

-- Checkpoint streams (R261)

def recRaw (h : BitVec 128) : Bool := h.getLsbD 32
def recZ (h : BitVec 128) : Bool := h.getLsbD 33
def recClen (h : BitVec 128) : Nat := fieldNat h 62 17
def recRlen (h : BitVec 128) : Nat := fieldNat h 79 17
def recCidx (h : BitVec 128) : Nat := fieldNat h 96 16
def recRchk (h : BitVec 128) : Nat := fieldNat h 112 16

/-- A record header that cp.x takes. -/
def recOk (h : BitVec 128) : Bool :=
  fieldNat h 0 32 == 0x5A434B31 && fieldNat h 34 28 == 0 && decide (1 ≤ recRlen h) && decide (recRlen h ≤ 65536) &&
  (if recZ h then recClen h == 0
   else decide (1 ≤ recClen h) && decide (recClen h ≤ 65536) && (!recRaw h || recClen h == recRlen h))

/-- The end record. -/
def endRecord : BitVec 128 := 0x5A434B45

/-- A record with its data, padded to 16 bytes. -/
def recordBytes (cidx : Nat) (raw : List Byte) : List Byte :=
  let z := raw.all (· == 0)
  let (r, coded) := codeChunk raw
  let coded := if z then [] else coded
  leBytes 16 (0x5A434B31 + (if r && !z then 2 ^ 32 else 0) + (if z then 2 ^ 33 else 0) + coded.length * 2 ^ 62 +
    raw.length * 2 ^ 79 + cidx % 65536 * 2 ^ 96 + crc16 raw * 2 ^ 112) ++
  coded ++ List.replicate (roundUp coded.length 16 - coded.length) 0

/-- A micro-step of cp.x over a checkpoint stream. `tmp` holds the phase, the stream offset after the record, its header and
the bytes of its chunk written. -/
def cpXStreamStep (x : Cmd) : M Prog := do
  let total := (x.arg 1).toNat
  if total = 0 then return .done x 0 0
  let s ← get
  let w := whoCmd s s.turn x
  let c := x.cap 1
  match x.tmp with
  | 1 :: next :: hdr :: _ =>
    let h := BitVec.ofNat 128 hdr
    let start := next - roundUp (recClen h) 16
    let y ← fillBuf x (fun o n => do
      let (bs, hit, _) ← engineRead w c permLD (((c.cur + start + o : Nat)) : Int) n
      return (bs, hit)) (recClen h)
    if y.buf.length < recClen h then return .more y
    match decodeChunk (recRaw h) (recRlen h) (recRchk h) y.buf with
    | .error (cls, sub, i) => codecFault cls sub (recCidx h) i
    | .ok out => return .more { y with buf := out, tmp := [2, next, hdr, 0] }
  | 2 :: next :: hdr :: pos :: _ =>
    let h := BitVec.ofNat 128 hdr
    let (n, hit) ← drainBuf w (x.cap 0) (((x.cap 0).cur + 65536 * recCidx h : Nat) : Int) x.buf pos
    let y := { x with done := x.done + n }.note hit
    if pos + n < x.buf.length then return .more { y with tmp := [2, next, hdr, pos + n] }
    else return .more { y with step := x.step + 1, buf := [], tmp := [0, next] }
  | _ =>
    let off := x.tmp.getD 1 0
    if off + 16 > total then codecFault 4 7 x.step 0
    let (bs, hit, _) ← engineRead w c permLD ((c.cur + off : Nat) : Int) 16
    let h := BitVec.ofNat 128 (leNat bs)
    let y := x.note hit
    if h = endRecord then return .done y 0 y.done
    let next := off + 16 + roundUp (recClen h) 16
    if !recOk h || next > total then codecFault 4 7 (recCidx h) 0
    if recZ h then return .more { y with buf := List.replicate (recRlen h) 0, tmp := [2, next, h.toNat, 0] }
    else return .more { y with buf := [], tmp := [1, next, h.toNat] }

/-- A micro-step of cp.ck (R264). `tmp` holds the phase, the number of the chunk and the bytes of its record written. -/
def cpCkStep (x : Cmd) : M Prog := do
  let total := (x.arg 1).toNat
  if total = 0 then return .done x 0 0
  let s ← get
  let w := whoCmd s s.turn x
  let c := x.cap 1
  if c.cur % 65536 ≠ 0 then raise 1 3 c.cur
  let chunk := x.tmp.getD 1 0
  let rlen := Min.min 65536 (total - 65536 * chunk)
  let dst := ((x.cap 0).cur : Int)
  match x.tmp with
  | 1 :: _ =>
    let y ← fillBuf x (fun o n => do
      let (bs, hit, _) ← engineRead w c permLD ((c.cur + 65536 * chunk + o : Nat) : Int) n
      return (bs, hit)) rlen
    if y.buf.length < rlen then return .more y
    else return .more { y with buf := recordBytes chunk y.buf, tmp := [2, chunk, 0] }
  | 2 :: _ :: pos :: _ =>
    let (n, hit) ← drainBuf w (x.cap 0) (dst + (x.done - pos : Nat)) x.buf pos
    let y := { x with done := x.done + n, tmp := [2, chunk, pos + n] }.note hit
    if pos + n < x.buf.length then return .more y
    else return .more { y with step := x.step + 1, buf := [], tmp := [0, chunk + 1] }
  | 3 :: _ :: pos :: _ =>
    let (n, hit) ← drainBuf w (x.cap 0) (dst + (x.done - pos : Nat)) (leBytes 16 endRecord.toNat) pos
    let y := { x with done := x.done + n, tmp := [3, chunk, pos + n] }.note hit
    return if pos + n < 16 then .more y else .done y 0 y.done
  | _ =>
    if 65536 * chunk ≥ total then return .more { x with tmp := [3, chunk, 0] }
    if !(x.arg 0).getLsbD 1 then return .more { x with buf := [], tmp := [1, chunk] }
    let b := x.cap 2
    let (bs, hit, _) ← engineRead w b permLD ((b.cur + chunk / 8 : Nat) : Int) 1
    let y := x.note hit
    if ((bs.getD 0 0).getLsbD (chunk % 8)) then return .more { y with buf := [], tmp := [1, chunk] }
    else return .more { y with tmp := [0, chunk + 1] }

/-- The next micro-step of a copy command. -/
def copyStep (x : Cmd) : M Prog :=
  match x.ins with
  | .cp _ _ _ _ _ => cpStep x
  | .cp2d _ _ _ _ _ => cp2dStep x
  | .cpOm _ n _ _ _ => cpOmStep x n.toNat
  | .cpGat _ _ _ _ _ => cpGatStep x
  | .cpSet _ _ _ _ => cpSetStep x
  | .cpZ _ _ _ _ _ => cpZStep x
  | .cpX _ _ _ _ _ => if (x.arg 0).getLsbD 1 then cpXStreamStep x else cpXViewStep x
  | .cpCk _ _ _ _ _ => cpCkStep x
  | _ => return .done x 0 0

/-- What a copy does at its start. -/
def copyStart (x : Cmd) : M Cmd :=
  match x.ins with
  | .cpGat _ _ _ _ _ => startEntry x
  | .cpCk _ _ _ _ _ => if (x.arg 0).getLsbD 1 then startEntry x else return x
  | _ => return x

-- Lease renewal (R197)

/-- A page that a command works on next: capability, offset, whether it writes, and whether it is reached through a view. -/
structure WorkPage where
  cap : Cap
  off : Int
  write : Bool := false
  view : Bool := false
  deriving DecidableEq, Repr

/-- The pages that a command works on next. -/
def workPages (x : Cmd) : List WorkPage :=
  let at_ := fun (n : Nat) => ((x.cap n).cur : Int) + x.done
  let source : WorkPage := { cap := x.cap 1, off := at_ 1 }
  let dest : WorkPage := { cap := x.cap 0, off := at_ 0, write := true }
  match x.ins with
  | .cp _ _ _ _ _ =>
    (if fieldNat (x.arg 0) 2 2 = 2 then [] else [source]) ++ (if fieldNat (x.arg 0) 2 2 = 1 then [] else [dest])
  | .cp2d _ _ _ _ _ =>
    let width := fieldNat (x.arg 1) 0 32
    let place := fun (c : Cap) (stride : Int) => (c.cur : Int) + (x.done / width : Nat) * stride + (x.done % width : Nat)
    [{ source with off := place (x.cap 1) (half (x.arg 2) true) }, { dest with off := place (x.cap 0) (half (x.arg 2) false) }]
  | .cpOm _ _ _ _ _ => [source]
  | .cpGat _ _ _ _ _ =>
    let size := fieldNat (x.arg 1) 32 13
    let scatter := (x.arg 0).getLsbD 1
    let list : WorkPage := { cap := x.cap 2, off := ((x.cap 2).cur : Int) + (4 * x.done : Nat) }
    match x.tmp with
    | pos :: idx :: _ =>
      [list, { source with off := ((x.cap 1).cur : Int) + ((if scatter then x.done else idx) * size + pos : Nat) },
        { dest with off := ((x.cap 0).cur : Int) + ((if scatter then idx else x.done) * size + pos : Nat) }]
    | _ => [list]
  | .cpSet _ _ _ _ => [dest]
  | .cpZ _ _ _ _ _ =>
    let chunk := (x.cap 0).cur / 65536 + x.step
    let header : WorkPage := { cap := x.cap 0, off := (32 * chunk : Nat), write := true, view := true }
    match x.tmp with
    | 1 :: _ => [header, { source with off := at_ 1 + x.buf.length }]
    | 2 :: hdr :: _ :: _ :: pos :: _ =>
      [header, { header with off := (bankAt chunk (if hdr = 0 then 0 else 1 - hdrBank (BitVec.ofNat 256 hdr)) + pos : Nat) }]
    | _ => [header]
  | .cpX _ _ _ _ _ =>
    if (x.arg 0).getLsbD 1 then
      match x.tmp with
      | 1 :: next :: hdr :: _ =>
        [{ source with off := ((x.cap 1).cur + (next - roundUp (recClen (BitVec.ofNat 128 hdr)) 16) + x.buf.length : Nat) }]
      | 2 :: _ :: hdr :: pos :: _ => [{ dest with off := ((x.cap 0).cur + 65536 * recCidx (BitVec.ofNat 128 hdr) + pos : Nat) }]
      | _ => [{ source with off := ((x.cap 1).cur + x.tmp.getD 1 0 : Nat) }]
    else
      let chunk := viewAt x / 65536
      match x.tmp with
      | 1 :: hdr :: _ =>
        [{ cap := x.cap 1, off := (bankAt chunk (hdrBank (BitVec.ofNat 256 hdr)) + x.buf.length : Nat), view := true }]
      | 2 :: _ => [dest]
      | _ => [{ cap := x.cap 1, off := (32 * chunk : Nat), view := true }]
  | .cpCk _ _ _ _ _ =>
    let chunk := x.tmp.getD 1 0
    match x.tmp with
    | 1 :: _ => [{ source with off := ((x.cap 1).cur + 65536 * chunk + x.buf.length : Nat) }]
    | 2 :: _ => [dest]
    | 3 :: _ => [dest]
    | _ => if (x.arg 0).getLsbD 1 then [{ cap := x.cap 2, off := ((x.cap 2).cur + chunk / 8 : Nat) }] else []
  | .netSend _ _ _ _ => [{ dest with write := false }]
  | .netSendWrite _ _ _ _ => [{ dest with write := false }]
  | .netReply _ _ _ => [{ dest with write := false }]
  | .netSendRead _ _ _ _ =>
    match x.tmp with
    | 2 :: pos :: _ => [{ dest with off := ((x.cap 0).cur + pos : Nat) }]
    | _ => []
  | .netPost _ _ _ _ =>
    match x.tmp with
    | _ :: pos :: _ => [{ dest with off := ((x.cap 0).cur + pos : Nat) }]
    | _ => []
  | _ => []

/-- A page whose lease has a quarter or less of its time left walks afresh; where it parks the old lease goes on. -/
def renewPage (w : Who) (p : WorkPage) : M Unit := do
  let s ← get
  match cacheFind (cachesOf s w) (walkerPt s w) (mcbAt s w.mcb).otPhys p.cap.obj (p.off.toNat / 65536) with
  | none => pure ()
  | some e =>
    let n := Min.min (dirLx e.dir) (mcbAt s w.mcb).leasemax.toNat
    if n = 0 || p.off < 0 || 4 * (e.expiry - walkerPt s w) > 2 ^ (n - 1) * 1000 then pure ()
    else
      if !p.view then
        let _ ← checkCap p.cap 0 p.off 1
      tryCatch (do let _ ← resolve w p.cap.obj p.cap.sp p.off.toNat { write := p.write, zview := p.view, fresh := true }; pure ())
        (fun g => match g with
          | .wait _ => pure ()
          | g => throw g)

/-- LEASE_RENEWAL (R197) of the nth running command of an engine. -/
def execLeaseRenewal (core : Nat) (eng : BitVec 2) (nth : Nat) (s : State) : Host.Outcome State Fault Refusal :=
  if !enginesRun s core then .next s else
  match ((coreAt s core).cmds.filter (fun x => x.eng == eng && x.started && x.posting.isNone && x.ending.isNone))[nth]? with
  | none => .next s
  | some x =>
    let w := whoCmd s core x
    match ((workPages x).forM (fun p => renewPage w p)).run { s with turn := core } with
    | .ok _ t => .next t
    | .error (.fault f) t => .next (endFaulted t core x f)
    | .error (.wait _) t => .next (rollBack { s with turn := core } t)
    | .error (.hard f) _ => .fault f

end Sys2Proof.Machine
end

