-- ==== Sys2Proof/Machine/Net.lean ====
section
/-!
DEFINITION. The network engine: posted receive buffers and the placement of messages (R275 to R278), replies (R279), RDMA (R280),
and inbound writes and reads from outside (R80, R374).
-/
namespace Sys2Proof.Machine

-- Dispatch

/-- The spaces that commands of the network engine reach (R179). -/
def netSpaces : List Nat := [0, 1, 2, 3, 4, 5, 6]

/-- net.post (R278). -/
def execNetPost (z : BitVec 1) (c : BitVec 5) (l q : BitVec 6) (s : State) : Host.Outcome State Fault Refusal :=
  engineWord z engNE (.netPost z c l q) (do
    let n ← readS l
    let qp ← readS q
    rangeSub8 (decide (1 ≤ n.toNat) && decide (n.toNat < 2 ^ 31) && fieldNat qp 24 40 == 0)
    let b ← readC c
    checkOperand b permST [spGSRAM, spHBM]
    return ([n, qp], [b], [])) s

/-- net.reply (R279). -/
def execNetReply (z : BitVec 1) (c : BitVec 5) (l : BitVec 6) (s : State) : Host.Outcome State Fault Refusal :=
  engineWord z engNE (.netReply z c l) (do
    let n ← readS l
    rangeSub8 (decide (n.toNat ≤ 8192))
    let b ← readC c
    checkOperand b permLD netSpaces
    return ([n], [b], [])) s

/-- The operands of the forms of net.send (R280): length, queue pair and remote address. -/
def sendOperands (need : BitVec 12) (c : BitVec 5) (l q : BitVec 6) : M (List W64 × List Cap × List W64) := do
  let n ← readS l
  let qp ← readS q
  let remote ← readS (q + 1)
  rangeSub8 (decide (n.toNat < 2 ^ 31))
  let b ← readC c
  checkOperand b need netSpaces
  return ([n, qp, remote], [b], [])

/-- net.send (R280). -/
def execNetSend (z : BitVec 1) (c : BitVec 5) (l q : BitVec 6) (s : State) : Host.Outcome State Fault Refusal :=
  engineWord z engNE (.netSend z c l q) (sendOperands permLD c l q) s

/-- net.send.write (R280). -/
def execNetSendWrite (z : BitVec 1) (c : BitVec 5) (l q : BitVec 6) (s : State) : Host.Outcome State Fault Refusal :=
  engineWord z engNE (.netSendWrite z c l q) (sendOperands permLD c l q) s

/-- net.send.read (R280). -/
def execNetSendRead (z : BitVec 1) (c : BitVec 5) (l q : BitVec 6) (s : State) : Host.Outcome State Fault Refusal :=
  engineWord z engNE (.netSendRead z c l q) (sendOperands permST c l q) s

-- Start

/-- A queue pair is bound to core k's block and position (R275). -/
def qpOwn (s : State) (k q : Nat) : Bool :=
  match mapFind s.qps q, (coreAt s k).bound, coreInv s k with
  | some p, some m, some i => p.mcb == m && coreX k == i.ox + p.px && coreY k == i.oy + p.py
  | _, _, _ => false

/-- The queue pair that a command names, in the low 24 bits of its second operand. -/
def Cmd.qp (x : Cmd) : Nat := fieldNat (x.arg 1) 0 24

/-- A queue pair bound elsewhere is a capability fault with SUB 2 at the engine (R275). -/
def checkQp (x : Cmd) : M Unit := do
  if !qpOwn (← get) (← self) x.qp then raise 0 2 (x.cap 0).cur

/-- The pages of a buffer that are unusable now, with their extent entries (R277). -/
def unusablePages (w : Who) (c : Cap) : List (Nat × Nat) → M (List (Nat × Nat))
  | [] => pure []
  | (off, _) :: rest => do
    let r ← tryCatch (do let _ ← resolve w c.obj c.sp off { write := true }; return none) (fun e => match e with
      | .wait h => return some (off / 65536, h.extent)
      | e => throw e)
    let more ← unusablePages w c rest
    return (match r with
      | none => more
      | some p => p :: more)

/-- The pages of a command's buffer that are unusable. -/
def bufferPages (x : Cmd) : M (List (Nat × Nat)) := do
  let s ← get
  let n := (x.arg 0).toNat
  let c := x.cap 0
  let a ← checkCap c permST c.cur n
  unusablePages (whoCmd s s.turn x) c (pagePieces (pageFuel n) a n)

/-- Bytes that the engine's staging store holds for unusable pages. -/
def stagingBytes : Nat := 65536

/-- The bytes of a message for unusable pages wait under one hoard-log entry (R277). -/
def stage (w : Who) (c : Cap) (bs : List Byte) (pages : List (Nat × Nat)) : M Unit := do
  let mask := (List.range bs.length).map (fun i => pages.any (fun p => p.1 == (c.cur + i) / 65536))
  match pages with
  | [] => pure ()
  | p :: _ => if mask.any id then hoardPut w .placement c c.cur bs p.2 mask else pure ()

/-- What a network command does at its start: the checks of its queue pair and bounds. A read waits here while the log is full, or while some page of
its buffer is unusable and the response is longer than staging (R280). -/
def netStart (x : Cmd) : M Cmd := do
  match x.ins with
  | .netPost _ _ _ _ =>
    checkQp x
    let _ ← checkCap (x.cap 0) permST (x.cap 0).cur (x.arg 0).toNat
    return x
  | .netSend _ _ _ _ => do checkQp x; return x
  | .netSendWrite _ _ _ _ => do checkQp x; return x
  | .netSendRead _ _ _ _ =>
    checkQp x
    let pages ← bufferPages x
    if decide ((← core).hoard.length ≥ 32) || (!pages.isEmpty && decide ((x.arg 0).toNat > stagingBytes)) then waitOn .logFull
    return x
  | _ => return x

-- Progress

/-- A beat of what a command sends, read into its buffer. -/
def sendBeat (x : Cmd) : M Cmd := do
  let s ← get
  let c := x.cap 0
  waitBorn x
  let n := beatLen (c.cur + x.done : Nat) ((x.arg 0).toNat - x.done)
  let (bs, hit, _) ← engineRead (whoCmd s s.turn x) c permLD ((c.cur + x.done : Nat) : Int) n
  return { x with buf := x.buf ++ bs, done := x.done + n, step := x.step + 1 }.note hit

/-- A command that has sent its request waits for the peer (R276, R280). -/
def answered (x : Cmd) (ans : NetAnswer) : Prog :=
  match ans with
  | .acked => .done x 0 (x.arg 0).toNat
  | .nak syndrome => .done x 0xFF syndrome.toNat
  | .exhausted => .done x 0xFF 0
  | _ => .more x

/-- The frame that a command sends (R280), with the bytes that it has read, and its datagram. -/
def Cmd.request (s : State) (x : Cmd) : Option (UdpFrame × (UdpFrame → TxFrame)) :=
  let len := (x.arg 0).toNat
  let frame : Nat → List Byte → Option (UdpFrame × (UdpFrame → TxFrame)) := fun op data =>
    some (roceRequest s x.qp op (x.arg 2) len data, fun u => .rdmaSend (BitVec.ofNat 24 x.qp) op (x.arg 2) data len u)
  match x.ins with
  | .netSend _ _ _ _ => frame 0 x.buf
  | .netSendWrite _ _ _ _ => frame 1 x.buf
  | .netSendRead _ _ _ _ => frame 2 []
  | _ => none

/-- A command's frame goes out. -/
def sendRequest (s : State) (x : Cmd) : State :=
  match x.request s with
  | none => s
  | some (u, f) => s.transmitRdma u f

/-- A command sends its frame: `tmp` says so. -/
def sendFrame (x : Cmd) : M Prog := do
  modify (fun s => sendRequest s x)
  return .more { x with tmp := [1] }

/-- The commands of a core whose frames were sent and not acknowledged: its queue pairs send them again at a resume (R396). -/
def unanswered (c : Core) : List Cmd := c.cmds.filter (fun x => x.started && x.tmp == [1])

/-- net.send and net.send.write: beats, the message, its acknowledgement. -/
def sendStep (x : Cmd) (ans : NetAnswer) : M Prog := do
  if !x.tmp.isEmpty then return answered x ans
  if x.done < (x.arg 0).toNat then return .more (← sendBeat x)
  waitBorn x
  sendFrame x

/-- Some earlier message of the same queue pair is still being placed: its buffer completes first (R277). -/
def earlierMessage (c : Core) (x : Cmd) : Bool :=
  c.cmds.any (fun y => y.received && y.qp == x.qp && decide (y.ord < x.ord))

/-- A command put among others by its dispatch order. -/
def insertCmd (l : List Cmd) (x : Cmd) : List Cmd :=
  l.filter (fun y => decide (y.ord < x.ord)) ++ x :: l.filter (fun y => decide (x.ord < y.ord))

/-- A receiver-not-ready NAK with its queue pair's RNR timer (R277), to where the message came from (R79). -/
def rnr (s : State) (from_ : RoceSource) : State :=
  s.transmitRdma (roceAnswer from_ 3 0 []) (fun u => .rnrNak from_.qp (((mapFind s.qps from_.qp.toNat).map (·.peer.rnrTimer)).getD 0) u)

def Cmd.isPost (x : Cmd) : Bool :=
  match x.ins with
  | .netPost _ _ _ _ => true
  | _ => false

/-- A placement that would hold on a full log is answered receiver-not-ready instead (R199): its buffer is posted again for the message that the
sender repeats. -/
def repost (s : State) (k : Nat) (x : Cmd) : State :=
  let y := { x with started := false, buf := [], tmp := [], done := 0, step := 0, from_ := none }
  let s := s.updCore k (fun c => { c with cmds := c.cmds.filter (fun z => z.ord != x.ord), posted := insertCmd c.posted y })
  match x.from_ with
  | none => s
  | some p => rnr s p

/-- A placement, beat by beat (R277): `tmp` holds 2, the bytes placed or staged, DETAIL and the pages staged. -/
def placeStep (x : Cmd) (pos detail : Nat) (pages : List Nat) : M Prog := do
  let s ← get
  let w := whoCmd s s.turn x
  let c := x.cap 0
  if pos < x.buf.length then
    let n := beatLen (c.cur + pos : Nat) (x.buf.length - pos)
    let next := { x with tmp := 2 :: (pos + n) :: detail :: pages }
    if pages.contains ((c.cur + pos) / 65536) then return .more { next with step := x.step + 1 }
    let out ← tryCatch (do return some (← engineWrite w c permST ((c.cur + pos : Nat) : Int) ((x.buf.drop pos).take n) .placement))
      (fun e => match e with
        | .wait h => if h.kind = .logFull && x.isPost then return none else throw e
        | e => throw e)
    match out with
    | some hit => return .more ({ next with step := x.step + 1, done := x.done + n }.note hit)
    | none => do
      modify (fun s => repost s s.turn x)
      return .more x
  else
    if (coreAt s w.core).hoard.any (fun h => h.who.agent == w.agent) || earlierMessage (coreAt s w.core) x then
      waitOn .hoarded
    return .done x 0 detail

/-- A message or response arrives for a command: what is staged, and the state from which it is placed. -/
def beginPlacement (x : Cmd) (pages : List (Nat × Nat)) (bs : List Byte) (detail : Nat) : M Cmd := do
  let s ← get
  stage (whoCmd s s.turn x) (x.cap 0) bs pages
  return { x with buf := bs, tmp := 2 :: 0 :: detail :: pages.map (·.1) }

/-- net.send.read: the request, the response, its placement (R280). -/
def readStep (x : Cmd) (ans : NetAnswer) : M Prog := do
  match x.tmp with
  | [] => sendFrame x
  | 2 :: pos :: detail :: pages => placeStep x pos detail pages
  | _ =>
    match ans with
    | .readData data =>
      let n := (x.arg 0).toNat
      let pages ← bufferPages x
      return .more (← beginPlacement x pages ((data ++ List.replicate (n - data.length) 0).take n) n)
    | .acked => return .more x
    | ans => return answered x ans

/-- net.reply (R279): beats, then the arbiter. -/
def replyStep (x : Cmd) : M Prog := do
  if x.done < (x.arg 0).toNat then return .more (← sendBeat x)
  waitBorn x
  let s ← get
  match (coreAt s s.turn).bound, coreInv s s.turn with
  | some m, some i =>
    let sends := i.reply == .due && descKind i.head.desc != 2 && !descNoreply i.head.desc && i.head.msg.isSome
    set ((decideReply s m 0x00 x.buf).updInv m (fun i => { i with replied := true }))
    return .done x 0 (if sends then (x.arg 0).toNat else 0xFFFFFFFF)
  | _, _ => return .done x 0 0xFFFFFFFF

-- Messages that arrive

/-- A SEND takes the oldest posted buffer of its queue pair at core k (R277). -/
def takeMessage (s0 : State) (k : Nat) (from_ : RoceSource) (data : List Byte) (x : Cmd) : Host.Outcome State Fault Refusal :=
  let s := { s0 with turn := k }
  let n := (x.arg 0).toNat
  let out : M (Option Cmd) := do
    let pages ← bufferPages x
    if !pages.isEmpty && (decide ((← core).hoard.length ≥ 32) || decide (n > stagingBytes)) then return none
    let detail := data.length % 2 ^ 31 + (if data.length > n then 2 ^ 31 else 0)
    return some (← beginPlacement { x with started := true, from_ := some from_ } pages (data.take n) detail)
  let move := fun (s : State) (y : Cmd) => s.updCore k (fun c =>
    { c with posted := c.posted.filter (fun z => z.ord != x.ord), cmds := insertCmd c.cmds y })
  match out.run s with
  | .ok none s1 => .next (rnr (rollBack s s1) from_)
  | .ok (some y) s1 => .next (move s1 y)
  | .error (.fault f) s1 => .next (endFaulted (move (rollBack s s1) { x with started := true }) k { x with started := true } f)
  | .error (.wait _) s1 => .next (rnr (rollBack s s1) from_)
  | .error (.hard f) _ => .fault f

/-- A partition is frozen or is being reset: what arrives from outside is held at its port (R438). -/
def inboundHeld (s : State) (part : Nat) : Bool := (partAt s part).frozen

/-- What has arrived is held at its port, after what was held there before it. -/
def holdInbound (s : State) (i : Inbound) : State := { s with inbound := s.inbound ++ [i] }

/-- An earlier message of a queue pair is held at its port. -/
def sendHeld (s : State) (qp : BitVec 24) : Bool := s.inbound.any (fun i => match i with | .send x _ => x.qp == qp | _ => false)

/-- The pair that a RoCEv2 datagram came by is mapped (R80). -/
def mappedPair (s : State) (from_ : RoceSource) : Bool :=
  s.ingress.any (fun e => e.pair.port == from_.port && e.pair.vlan == from_.vlan)

/-- ROCE_SEND_RECEIVE (R80, R277). -/
def execRoceSendReceive (from_ : RoceSource) (data : List Byte) (s : State) : Host.Outcome State Fault Refusal :=
  let qp := from_.qp
  if !mappedPair s from_ then .next (dropAtPort s from_.port) else
  match mapFind s.qps qp.toNat with
  | none => .next s
  | some p =>
    let b := mcbAt s p.mcb
    if inboundHeld s b.part.toNat || sendHeld s qp then .next (holdInbound s (.send from_ data)) else
    match b.inv with
    | none => .next (rnr s from_)
    | some i =>
      let k := 32 * (i.oy + p.py) + i.ox + p.px
      if b.state ≠ 3 || (coreAt s k).bound != some p.mcb then .next (rnr s from_)
      else
        match (coreAt s k).posted.find? (fun x => x.qp == qp.toNat) with
        | none => .next (rnr s from_)
        | some x => takeMessage s k from_ data x

/-- The partition whose page pool holds a page. -/
def pageOwner (s : State) (sp addr : Nat) : Option Nat :=
  (List.range 16).find? (fun p =>
    let q := if sp = 0 then (partAt s p).gsramPool else (partAt s p).hbmPool
    decide (sp < 2) && decide (q.1 ≤ addr / 65536) && decide (addr / 65536 < q.1 + q.2))

/-- A watchpoint that the parts of an external access which perform meet raises WPEXT (R417). -/
def watchExternal (s : State) (w : Who) (kind : WatchKind) (sp addr : Nat) (runs : List (Nat × Nat)) : State :=
  match pageOwner s sp addr with
  | none => s
  | some p => if runs.any (fun r => (watchFind s p w kind 0 (physKey sp 0 r.1) r.2).isSome) then s.updPart p (·.bump 3) else s

/-- Bytes cut at line ends, with their keys. -/
def lineRuns (k : Nat) (bs : List Byte) : List (Nat × List Byte) :=
  (linesOf k bs.length).map (fun l =>
    let lo := Max.max (l * 64) k
    (lo, (bs.drop (lo - k)).take (l * 64 + 64 - lo)))

/-- A write from outside: checks are computed, lines are stamped, and the writer is known (R246, R369, R374). A partial write
leaves a line whose check fails unchanged (R409). -/
def externalWrite (s : State) (port sp addr : Nat) (data : List Byte) : State :=
  let w := whoExternal port
  let runs := (lineRuns (physKey sp 0 addr) data).filter (fun p => !badPartial s p.1 p.2.length)
  watchExternal (runs.foldl (fun s p =>
    markBytes (stampLines (putBytes s none p.1 p.2) w 0 p.1 p.2.length) w EdgeSet.none p.1 p.2.length) s)
    w .write sp addr (runs.map (fun p => (keyAddr p.1, p.2.length)))

/-- An access from outside to GSRAM or HBM is held while its partition is frozen, or its die or stack is not ready (R438, R457), and behind what is
held for the same partition (R374). -/
def placeHeld (s : State) (sp addr : Nat) : Bool := (pageOwner s sp addr).any (inboundHeld s) || !physReady s sp addr

/-- What was held for a partition's pages still stands. -/
def heldBefore (s : State) (sp addr : Nat) : Bool :=
  s.inbound.any (fun i => match i with
    | .rdma (.write _ q a _) => pageOwner s q.toNat a == pageOwner s sp addr
    | .rdma (.read _ q a _) => pageOwner s q.toNat a == pageOwner s sp addr
    | .host q a _ => pageOwner s q.toNat a == pageOwner s sp addr
    | .nepol x => pageOwner s x.sp.toNat x.addr == pageOwner s sp addr
    | .send _ _ => false)

/-- An access from outside to GSRAM or HBM: it is held, or it performs. -/
def external (s : State) (i : Inbound) (sp addr n : Nat) (go : Unit → State) : Host.Outcome State Fault Refusal :=
  if sp ≥ 2 then .next s
  else if placeHeld s sp addr || heldBefore s sp addr then .next (holdInbound s i)
  else if !physExists sp addr n then .fault .noSuchAddress
  else .next (go ())

/-- ROCE_INBOUND_RDMA (R80): a write is placed and acknowledged; a read is answered, its lines verified at the port (R247). -/
def execRoceInboundRdma (q : RdmaRequest) (s : State) : Host.Outcome State Fault Refusal :=
  match q with
  | .write from_ sp addr data =>
    if !mappedPair s from_ then .next (dropAtPort s from_.port)
    else if (mapFind s.qps from_.qp.toNat).isNone then .next s
    else external s (.rdma q) sp.toNat addr data.length (fun _ =>
      (externalWrite s 0 sp.toNat addr data).transmitRdma (roceAnswer from_ 4 0 []) (fun u => .rdmaAck from_ [] u))
  | .read from_ sp addr len =>
    if !mappedPair s from_ then .next (dropAtPort s from_.port)
    else if (mapFind s.qps from_.qp.toNat).isNone then .next s
    else external s (.rdma q) sp.toNat addr len (fun _ =>
      let k := physKey sp.toNat 0 addr
      if badPartial s k len || (linesOf k len).any (fun l => (mapFind s.bad l).isSome) then
        s.transmitRdma (roceAnswer from_ 5 0 []) (fun u => .rdmaNak from_ u)
      else
        let s := watchExternal s (whoExternal 0) .read sp.toNat addr [(addr, len)]
        s.transmitRdma (roceAnswer from_ 4 len (viewBytes s none k len)) (fun u => .rdmaAck from_ (viewBytes s none k len) u))

/-- HOST_INBOUND_WRITE (R246, R374). -/
def execHostInboundWrite (sp : BitVec 4) (addr : Nat) (data : List Byte) (s : State) : Host.Outcome State Fault Refusal :=
  external s (.host sp addr data) sp.toNat addr data.length (fun _ => externalWrite s 1 sp.toNat addr data)

end Sys2Proof.Machine
end

