-- ==== Sys2Proof/Machine/Lanes.lean ====
section
/-!
DEFINITION. Transducer lanes (R281 to R288): their instructions, tables, the step over one input byte, and result records.
-/
namespace Sys2Proof.Machine

-- Dispatch

/-- fst.ld (R286). -/
def execFstLd (z : BitVec 1) (c : BitVec 5) (l xs : BitVec 6) (s : State) : Host.Outcome State Fault Refusal :=
  engineWord z engNE (.fstLd z c l xs) (do
    let n ← readS l
    let ctl ← readS xs
    rangeSub8 (fieldNat ctl 5 3 == 0 && fieldNat ctl 16 48 == 0)
    let b ← readC c
    checkOperand b permLD [spGSRAM, spHBM]
    return ([n, ctl], [b], [])) s

/-- fst.start (R287). -/
def execFstStart (z : BitVec 1) (c : BitVec 5) (l xs : BitVec 6) (s : State) : Host.Outcome State Fault Refusal :=
  engineWord z engNE (.fstStart z c l xs) (do
    let n ← readS l
    let ctl ← readS xs
    rangeSub8 (fieldNat ctl 6 58 == 0 && lengthOk n)
    let b ← readC c
    checkOperand b permLD netSpaces
    return ([n, ctl], [b], [])) s

/-- fst.stop (R288). -/
def execFstStop (z : BitVec 1) (xs : BitVec 6) (s : State) : Host.Outcome State Fault Refusal :=
  engineWord z engNE (.fstStop z xs) (do
    let ctl ← readS xs
    rangeSub8 (fieldNat ctl 5 59 == 0)
    return ([0, ctl], [], [])) s

-- Tables (R282, R283)

/-- The lane that a command names. -/
def Cmd.lane (x : Cmd) : Nat := fieldNat (x.arg 1) 0 5

/-- The invocation of core k holds a lane. -/
def holdsLane (s : State) (k l : Nat) : Bool :=
  match (laneAt s l).holder, (coreAt s k).bound with
  | some h, some m => h.1 == m
  | _, _ => false

/-- The table offset of the first byte of a header and class map that fails R282, for a table of L bytes. -/
def tableFails (hd : BitVec 512) (classes : List Byte) (l : Nat) : Option Nat :=
  let tlen := fieldNat hd 96 32
  let nstate := fieldNat hd 48 24
  let ncls := fieldNat hd 32 8 + 1
  let reserved := (5 :: List.range' 16 48).find? (fun i => fieldNat hd (8 * i) 8 != 0)
  if fieldNat hd 0 32 ≠ 0x5A465354 then some 0
  else if reserved.isSome then reserved
  else if tlen > l then some 12
  else if 320 + 8 * nstate * ncls > tlen then some 12
  else if fieldNat hd 72 24 ≥ nstate then some 9
  else (classes.findIdx? (fun b => decide (ncls ≤ b.toNat))).map (64 + ·)

/-- A command's lane entry has its turn: it is the first of the lane's queue. -/
def laneTurn (s : State) (k : Nat) (x : Cmd) : Bool :=
  match (laneAt s x.lane).queue with
  | [] => false
  | e :: _ => e.isOf s k x

/-- A lane loaded from a checked table: START, and output offsets 0 (R286). -/
def loadLane (l : Lane) (x : Cmd) (mcb k : Nat) (hd : BitVec 512) (classes : List Byte) : Lane :=
  { l with
    holder := some (mcb, k), table := x.cap 0, tlen := fieldNat hd 96 32, ix := fieldNat (x.arg 1) 8 8, classes := classes,
    ncls := fieldNat hd 32 8 + 1, nstate := fieldNat hd 48 24, start := fieldNat hd 72 24, state := fieldNat hd 72 24,
    outs := [] }

/-- A fault takes the entry of a command out of its lane. -/
def leaving {α : Type} (k : Nat) (x : Cmd) (go : M α) : M α :=
  tryCatch go (fun e => match e with
    | .fault f => do
      modify (fun s => dropEntry s k x)
      throw (.fault f)
    | e => throw e)

/-- fst.ld, beat by beat: it waits for the lane's earlier entries, reads the header and the class map, and takes the lane
(R286). -/
def fstLdStep (x : Cmd) : M Prog := do
  let s ← get
  let k := s.turn
  let l := laneAt s x.lane
  let leave := modify (fun s => dropEntry s k x)
  match (coreAt s k).bound with
  | none => return .done x 0 2
  | some m =>
    if !laneTurn s k x && !l.queue.isEmpty then waitOn .engineQueue
    if l.part != some (mcbAt s m).part then
      leave
      return .done x 0 2
    if l.holder.isSome && !holdsLane s k x.lane then
      leave
      return .done x 0 1
    let n := Min.min 320 (x.arg 0).toNat
    if x.buf.length < n then
      let (bs, hit, _) ← leaving k x (engineRead (whoCmd s k x) (x.cap 0) permLD (((x.cap 0).cur + x.buf.length : Nat) : Int)
        (Min.min 64 (n - x.buf.length)))
      return .more ({ x with buf := x.buf ++ bs, done := x.done + bs.length, step := x.step + 1 }.note hit)
    let hd := BitVec.ofNat 512 (leNat (x.buf.take 64))
    match tableFails hd (x.buf.drop 64) (x.arg 0).toNat with
    | some at_ =>
      leave
      raise 4 6 at_
    | none =>
      modify (fun s => (dropEntry s k x).updLane x.lane (fun l => loadLane l x m k hd (x.buf.drop 64)))
      return .done x 0 0

-- The step over one input byte (R284)

/-- A table entry that R283 takes. -/
def entryOk (l : Lane) (e : W64) : Bool :=
  fieldNat e 61 3 == 0 && decide (fieldNat e 56 3 ≤ 5) && decide (fieldNat e 0 24 < l.nstate) &&
  (fieldNat e 56 3 != 3 || (fieldNat e 24 8 != 0 && decide (fieldNat e 32 24 + fieldNat e 24 8 ≤ l.tlen)))

/-- The result record of a stop (R285). -/
def resultRecord (l : Lane) (code pos : Nat) : List Byte :=
  let out := fun q => mapGet 0 l.outs q
  leBytes 32 (out 0 % 2 ^ 32 + out 1 % 2 ^ 32 * 2 ^ 32 + out 2 % 2 ^ 32 * 2 ^ 64 + out 3 % 2 ^ 32 * 2 ^ 96 +
    pos % 2 ^ 32 * 2 ^ 128 + l.state % 2 ^ 24 * 2 ^ 168 + code * 2 ^ 192)

/-- Writes a lane's record at CUR of entry IX + 4. -/
def writeRecord (x : Cmd) (l : Lane) (code pos : Nat) : M (Option Nat) := do
  let s ← get
  let w := whoCmd s s.turn x
  let (c, h) ← loadEntry w s.turn (l.ix + 4)
  return h.or (← engineWrite w c permST (c.cur : Int) (resultRecord l code pos))

/-- A lane's entry ends with a code: the record, then the completion (R285). -/
def stopEntry (x : Cmd) (code : Nat) : M Prog := do
  let s ← get
  let hit ← writeRecord x (laneAt s x.lane) code x.done
  modify (fun s => dropEntry s s.turn x)
  return .done (x.note hit) 0 x.done

/-- What an entry's action emits for input byte b. -/
def emission (w : Who) (l : Lane) (e : W64) (b : Byte) : M (List Byte × Option Nat) := do
  match fieldNat e 56 3 with
  | 1 => return (leBytes 4 (fieldNat e 24 32), none)
  | 2 => return ([b], none)
  | 3 =>
    let (bs, h, _) ← engineRead w l.table permLD ((l.table.cur + fieldNat e 32 24 : Nat) : Int) (fieldNat e 24 8)
    return (bs, h)
  | _ => return ([], none)

/-- One input byte of a lane (R284). -/
def laneByte (x : Cmd) (l : Lane) : M Prog := do
  let s ← get
  let k := s.turn
  let w := whoCmd s k x
  let (bs, hit, _) ← engineRead w (x.cap 0) permLD (((x.cap 0).cur + x.done : Nat) : Int) 1
  let b := bs.getD 0 0
  let at_ := 320 + 8 * (l.state * l.ncls + (l.classes.getD b.toNat 0).toNat)
  let (eb, h1, _) ← engineRead w l.table permLD ((l.table.cur + at_ : Nat) : Int) 8
  let hit := hit.or h1
  let e := w64 (leNat eb)
  if !entryOk l e then raise 4 6 at_
  if fieldNat e 56 3 = 5 then return ← stopEntry (x.note hit) 2
  let (out, h2) ← emission w l e b
  let hit := hit.or h2
  let q := fieldNat e 59 2
  let pos := mapGet 0 l.outs q
  let next := { x with done := x.done + 1, step := x.step + 1 }
  let moved := fun (l : Lane) => { l with
    state := fieldNat e 0 24, outs := mapSet 0 l.outs q (pos + out.length),
    queue := l.queue.map (fun g => if g.isOf s k x then { g with pos := x.done + 1 } else g) }
  if out.isEmpty then
    modify (fun s => s.updLane x.lane moved)
    if fieldNat e 56 3 = 4 then return ← stopEntry (next.note hit) 1
    return .more (next.note hit)
  let (c, h3) ← loadEntry w k (l.ix + q)
  let hit := hit.or h3
  if !c.valid then raise 0 0 c.cur
  if c.cur + pos + out.length > c.hi then return ← stopEntry (x.note hit) 3
  let hit' ← engineWrite w c permST ((c.cur + pos : Nat) : Int) out
  modify (fun s => s.updLane x.lane moved)
  return .more (next.note (hit.or hit'))

/-- fst.start, byte by byte (R287). `tmp` is not empty once the entry runs. An entry that fst.stop has discarded ends with the
bytes it had consumed. -/
def fstStartStep (x : Cmd) : M Prog := do
  let s ← get
  let k := s.turn
  let l := laneAt s x.lane
  if !l.queue.any (fun e => e.isOf s k x) then return .done x 0 x.done
  if !laneTurn s k x then return .more x
  if x.tmp.isEmpty then
    if (x.arg 1).getLsbD 5 then modify (fun s => s.updLane x.lane (fun l => { l with state := l.start, outs := [] }))
    return .more { x with tmp := [1] }
  leaving k x (if x.done ≥ (x.arg 0).toNat then stopEntry x 0 else laneByte x l)

/-- fst.stop (R288): the lane discards its entries and stops; then, with the input bytes consumed in `tmp`, the record is written and the lane
is released. -/
def fstStopStep (x : Cmd) : M Prog := do
  let s ← get
  let l := laneAt s x.lane
  if !holdsLane s s.turn x.lane then return .done x 0 1
  match x.tmp with
  | [] =>
    modify (fun s => s.updLane x.lane (fun l => { l with queue := [] }))
    return .more { x with tmp := [(l.queue.head?.map (·.pos)).getD 0] }
  | pos :: _ =>
    let hit ← writeRecord x l 4 pos
    modify (fun s => s.updLane x.lane (fun l => { l with holder := none, queue := [] }))
    return .done (x.note hit) 0 0

-- Start and progress of every command of the network engine

/-- An earlier fst.ld of core k for a command's lane has not completed: the commands after it in dispatch order find the lane as it leaves it
(R286). -/
def awaitsLoad (c : Core) (x : Cmd) : Bool :=
  c.cmds.any (fun y => decide (y.ord < x.ord) && y.posting.isNone && y.lane == x.lane &&
    (match y.ins with | .fstLd _ _ _ _ => true | _ => false))

/-- What a lane command does at its start: fst.start enters its lane's queue, which holds 16 entries (R287); fst.ld enters it behind the entries
that it waits for (R286). -/
def laneStart (x : Cmd) : M Cmd := do
  match x.ins with
  | .fstStart _ _ _ _ =>
    let s ← get
    if awaitsLoad (coreAt s s.turn) x then waitOn .engineQueue
    if !holdsLane s s.turn x.lane then raise 0 2 (x.cap 0).cur
    if ((laneAt s x.lane).queue.filter (fun e => !e.load)).length ≥ 16 then waitOn .engineQueue
    modify (fun s => s.updLane x.lane (fun l => { l with queue := l.queue ++ [⟨s.turn, invSerial s s.turn, x.ord, 0, false⟩] }))
    return x
  | .fstLd _ _ _ _ =>
    let s ← get
    if awaitsLoad (coreAt s s.turn) x then waitOn .engineQueue
    modify (fun s => s.updLane x.lane (fun l => { l with queue := l.queue ++ [⟨s.turn, invSerial s s.turn, x.ord, 0, true⟩] }))
    return x
  | .fstStop _ _ =>
    if awaitsLoad (← core) x then waitOn .engineQueue
    return x
  | _ => netStart x

/-- The next micro-step of a network-engine command. -/
def netStep (ans : NetAnswer) (x : Cmd) : M Prog :=
  match x.ins with
  | .netPost _ _ _ _ =>
    match x.tmp with
    | _ :: pos :: detail :: pages => placeStep x pos detail pages
    | _ => return .more x
  | .netSend _ _ _ _ => sendStep x ans
  | .netSendWrite _ _ _ _ => sendStep x ans
  | .netSendRead _ _ _ _ => readStep x ans
  | .netReply _ _ _ => replyStep x
  | .fstLd _ _ _ _ => fstLdStep x
  | .fstStart _ _ _ _ => fstStartStep x
  | .fstStop _ _ => fstStopStep x
  | _ => return .done x 0 0

end Sys2Proof.Machine
end

