-- ==== Sys2Proof/Machine/Elementary.lean ====
section
/-!
DEFINITION. Quotients, square roots and the transcendental functions of R308 and R337, correctly rounded: an interval of fixed
point numbers that holds the exact value is computed at rising precisions until both of its ends round alike. None of the
functions takes a value at which two codes tie, except those that are handled exactly.
-/
namespace Sys2Proof.Machine

/-- The floor of a square root, bit by bit. -/
def isqrtFrom : Nat → Nat → Nat → Nat
  | 0, _, r => r
  | i + 1, n, r =>
    let t := r + 2 ^ i
    isqrtFrom i n (if t * t ≤ n then t else r)

def isqrt (n : Nat) : Nat := isqrtFrom (bitLen n / 2 + 1) n 0

/-- A significand with a last bit that says whether something was cut off. -/
def sticky (q : Nat) (exact : Bool) : Nat := 2 * q + (if exact then 0 else 1)

/-- The quotient of two values, to more bits than any format holds. -/
def Num.div (x y : Num) : Num :=
  match x, y with
  | .nan, _ => .nan
  | _, .nan => .nan
  | .inf _, .inf _ => .nan
  | .inf a, .fin b _ _ => .inf (a != b)
  | .fin a _ _, .inf b => .fin (a != b) 0 0
  | .fin a m e, .fin b n f =>
    if n = 0 then (if m = 0 then .nan else .inf (a != b))
    else
      let sh := 64 + bitLen n
      let q := m * 2 ^ sh / n
      .fin (a != b) (sticky q (q * n == m * 2 ^ sh)) (e - f - sh - 1)

/-- The value one. -/
def Num.one : Num := .fin false 1 0

/-- The square root. -/
def Num.sqrt (x : Num) : Num :=
  match x with
  | .nan => .nan
  | .inf false => .inf false
  | .inf true => .nan
  | .fin a m e =>
    if m = 0 then .fin a 0 0 else if a then .nan
    else
      let (m, e) := if e % 2 = 0 then (m, e) else (2 * m, e - 1)
      let n := m * 2 ^ 128
      let q := isqrt n
      .fin false (sticky q (q * q == n)) (e / 2 - 64 - 1)

/-- The reciprocal square root (R308). -/
def Num.rsqrt (x : Num) : Num :=
  match x with
  | .nan => .nan
  | .inf false => .fin false 0 0
  | .inf true => .nan
  | .fin a m e =>
    if m = 0 then .inf a else if a then .nan
    else
      let (m, e) := if e % 2 = 0 then (m, e) else (2 * m, e - 1)
      let n := 2 ^ (2 * (64 + bitLen m))
      let q := isqrt (n / m)
      .fin false (sticky q (q * q * m == n)) (-(e / 2) - (64 + bitLen m : Nat) - 1)

-- Fixed point with p fraction bits

/-- The sum of x^n / n! from a term on, for x below 1. -/
def expTerms (p x : Nat) : Nat → Nat → Nat → Nat → Nat
  | 0, _, _, sum => sum
  | fuel + 1, n, term, sum => if term = 0 then sum else expTerms p x fuel (n + 1) (term * x / 2 ^ p / n) (sum + term)

/-- e^x for 0 ≤ x < 1. -/
def expFix (p x : Nat) : Nat := expTerms p x (p + 4) 1 (2 ^ p) 0

/-- The sum of z^(2i+1) / (2i+1), with the powers given. -/
def atanhTerms (p z2 : Nat) : Nat → Nat → Nat → Nat → Nat
  | 0, _, _, sum => sum
  | fuel + 1, i, pow, sum => if pow = 0 then sum else atanhTerms p z2 fuel (i + 2) (pow * z2 / 2 ^ p) (sum + pow / i)

/-- atanh z for 0 ≤ z ≤ 1/3. -/
def atanhFix (p z : Nat) : Nat := atanhTerms p (z * z / 2 ^ p) (p + 4) 1 z 0

/-- ln 2. -/
def ln2Fix (p : Nat) : Nat := 2 * atanhFix p (2 ^ p / 3)

/-- The alternating sum of 1 / ((2i+1) n^(2i+1)). -/
def atanTerms (n2 : Nat) : Nat → Nat → Nat → Int → Int
  | 0, _, _, sum => sum
  | fuel + 1, i, pow, sum =>
    if pow = 0 then sum
    else atanTerms n2 fuel (i + 2) (pow / n2) (if i % 4 = 1 then sum + (pow / i : Nat) else sum - (pow / i : Nat))

/-- π by Machin's formula. -/
def piFix (p : Nat) : Nat :=
  (16 * atanTerms 25 (p + 4) 1 (2 ^ p / 5) 0 - 4 * atanTerms 57121 (p + 4) 1 (2 ^ p / 239) 0).toNat

/-- The square root of 2/π. -/
def sqrt2PiFix (p : Nat) : Nat := isqrt (2 * 2 ^ (3 * p) / piFix p)

/-- A value as fixed point, towards zero. -/
def fixOf (p : Nat) (m : Nat) (e : Int) : Nat := if 0 ≤ e + p then m * 2 ^ (e + p).toNat else m / 2 ^ (-(e + p)).toNat

/-- e^x for a fixed-point x: a significand of p fraction bits and its power of two. -/
def expOf (p : Nat) (x : Int) : Nat × Int :=
  let l := (ln2Fix p : Int)
  let k := x / l
  (expFix p (x - k * l).toNat, k)

/-- How far from the exact value a computed significand may lie, in its last place. -/
def slack : Nat := 2 ^ 32

/-- The code to which both ends of an interval round. -/
def zivTry (f : Fmt) (neg : Bool) (v : Nat) (e : Int) : Option Nat :=
  let a := roundAcc f (.fin neg (v - slack) e)
  if a = roundAcc f (.fin neg (v + slack) e) then some a else none

/-- The first precision at which the interval decides the code. -/
def ziv (f : Fmt) (neg : Bool) (g : Nat → Nat × Int) : List Nat → Nat
  | [] => roundAcc f (.fin neg (g 4096).1 (g 4096).2)
  | p :: ps => match zivTry f neg (g p).1 (g p).2 with
    | some c => c
    | none => ziv f neg g ps

def precisions : List Nat := [128, 256, 512, 1024, 2048, 4096]

/-- The code of 2^x (R308, R337). -/
def exp2Code (f : Fmt) (x : Num) : Nat :=
  match x with
  | .nan => f.nanCode
  | .inf false => roundAcc f (.inf false)
  | .inf true => 0
  | .fin a m e =>
    if m = 0 then roundAcc f .one
    else if (bitLen m : Int) + e > 13 then (if a then 0 else roundAcc f (.inf false))
    else
      let whole := fun (p : Nat) => if a then -(fixOf p m e : Int) else (fixOf p m e : Int)
      if 0 ≤ e || m % 2 ^ (-e).toNat = 0 then roundAcc f (.fin false 1 (whole 0))
      else
        ziv f false (fun p =>
          let x := whole p
          let k := x / 2 ^ p
          (expFix p ((x - k * 2 ^ p).toNat * ln2Fix p / 2 ^ p), k - p)) precisions

/-- The code of the binary logarithm. -/
def log2Code (f : Fmt) (x : Num) : Nat :=
  match x with
  | .nan => f.nanCode
  | .inf false => roundAcc f (.inf false)
  | .inf true => f.nanCode
  | .fin a m e =>
    if m = 0 then roundAcc f (.inf true) else if a then f.nanCode
    else
      let k := (bitLen m : Int) - 1 + e
      if m = 2 ^ (bitLen m - 1) then roundAcc f (Num.ofInt k)
      else
        -- m / 2^b lies in (1, 2), or, above 4/3, half of it in (2/3, 1)
        let up := decide (3 * m > 4 * 2 ^ (bitLen m - 1))
        let k := if up then k + 1 else k
        let unit := if up then 2 ^ bitLen m else 2 ^ (bitLen m - 1)
        let value := fun (p : Nat) =>
          let q := p + 64
          let z := (if up then unit - m else m - unit) * 2 ^ q / (m + unit)
          let l : Int := (2 * atanhFix q z * 2 ^ q / ln2Fix q : Nat)
          let t := k * 2 ^ q + (if up then -l else l)
          (t, -(q : Int))
        ziv f (decide ((value 128).1 < 0)) (fun p => ((value p).1.natAbs, (value p).2)) precisions

/-- The code of the hyperbolic tangent. -/
def tanhCode (f : Fmt) (x : Num) : Nat :=
  match x with
  | .nan => f.nanCode
  | .inf a => roundAcc f (.fin a 1 0)
  | .fin a m e =>
    if m = 0 then roundAcc f (.fin a 0 0)
    else if (bitLen m : Int) + e > 6 then roundAcc f (.fin a 1 0)
    else
      ziv f a (fun p =>
        let q := p + (if 0 ≤ e then 0 else (-e).toNat)
        let (v, k) := expOf q (2 * (fixOf q m e : Int))
        let w := v * 2 ^ k.toNat
        ((w - 2 ^ q) * 2 ^ q / (w + 2 ^ q), -(q : Int))) precisions

/-- y / (1 + e^(-u)) for a fixed-point u: a significand of about p bits and its power of two. -/
def logistic (p my : Nat) (ey u : Int) : Nat × Int :=
  let (v, k) := expOf p (-u)
  let d := 2 ^ p + (if 0 ≤ k then v * 2 ^ k.toNat else v / 2 ^ (-k).toNat)
  let s := p + k.toNat - bitLen my
  (my * 2 ^ (p + s) / d, ey - s)

/-- SiLU of a finite value other than zero (R337, ACT 3). -/
def siluCode (f : Fmt) (a : Bool) (m : Nat) (e : Int) : Nat :=
  if (bitLen m : Int) + e > 12 then (if a then roundAcc f (.fin true 0 0) else roundAcc f (.fin false m e))
  else ziv f a (fun p => logistic p m e (if a then -(fixOf p m e : Int) else (fixOf p m e : Int))) precisions

/-- GELU-tanh of a finite value other than zero (R337, ACT 2): 0.5 (1 + tanh t) is the logistic function of 2 t. -/
def geluCode (f : Fmt) (a : Bool) (m : Nat) (e : Int) : Nat :=
  if (bitLen m : Int) + e > 6 then (if a then roundAcc f (.fin true 0 0) else roundAcc f (.fin false m e))
  else
    ziv f a (fun p =>
      let y := fixOf p m e
      let t := y + y * y / 2 ^ p * y / 2 ^ p * 44715 / 1000000
      let u := 2 * (t * sqrt2PiFix p / 2 ^ p)
      logistic p m e (if a then -(u : Int) else (u : Int))) precisions

/-- Act of R337 on a value of the working format, as a code of it. -/
def actCode (f : Fmt) (act : Nat) (y : Num) : Nat :=
  match act, y with
  | 4, y => exp2Code f y
  | _, .nan => f.nanCode
  | 0, y => roundAcc f y
  | 1, y => if y.isNeg then 0 else roundAcc f y
  | _, .inf false => roundAcc f (.inf false)
  | _, .inf true => roundAcc f (.fin true 0 0)
  | act, .fin a m e =>
    if m = 0 then roundAcc f (.fin a 0 0) else if act = 2 then geluCode f a m e else siluCode f a m e

end Sys2Proof.Machine
end

