-- ==== Sys2Proof/Machine/Matrix.lean ====
section
/-!
DEFINITION. The matrix engine (R330 to R346): banks, the segments of mma (R331 to R333), the Sheller's decoding of coded tiles
(R54 to R60, R269), the epilogue (R336 to R340), and bank and table transfers (R342, R343).
-/
namespace Sys2Proof.Machine

-- Banks

/-- A bank as 4,096 words. -/
def bankWords (l : List W32) : List W32 := (List.range 4096).map (fun i => l.getD i 0)

def MatrixState.bank (m : MatrixState) (n : Nat) : List W32 := bankWords (if n = 0 then m.acc0 else m.acc1)
/-- The matrix engine has written region r of a save image (R403). -/
def MatrixState.touch (m : MatrixState) (r : Nat) : MatrixState := { m with wrote := m.wrote ||| (1 <<< r) }
def MatrixState.setBank (m : MatrixState) (n : Nat) (l : List W32) : MatrixState :=
  if n = 0 then { m.touch 21 with acc0 := l } else { m.touch 22 with acc1 := l }
def MatrixState.satc (m : MatrixState) (n : Nat) : Nat := if n = 0 then m.satc0 else m.satc1
def MatrixState.setSatc (m : MatrixState) (n v : Nat) : MatrixState :=
  if n = 0 then { m.touch 21 with satc0 := v } else { m.touch 22 with satc1 := v }

/-- The 4,096 accumulator codes that an operation named by bank n reads: under FP64 both banks hold one (R330). -/
def MatrixState.codes (m : MatrixState) (n acc : Nat) : List Nat :=
  if acc = 2 then ((m.bank 0).zip (m.bank 1)).map (fun p => p.1.toNat + p.2.toNat * 2 ^ 32) else (m.bank n).map (·.toNat)

/-- Accumulator codes written back. -/
def MatrixState.setCodes (m : MatrixState) (n acc : Nat) (l : List Nat) : MatrixState :=
  if acc = 2 then (m.setBank 0 (l.map (BitVec.ofNat 32))).setBank 1 (l.map (fun c => BitVec.ofNat 32 (c / 2 ^ 32)))
  else m.setBank n (l.map (BitVec.ofNat 32))

-- Operands (R331)

/-- A little-endian code of w bytes of an operand. -/
def codeAt (d : Array Byte) (at_ w : Nat) : Nat := leNat ((List.range w).map (fun i => d.getD (at_ + i) 0))

/-- The format of a code that an entry has been checked for. -/
def entFmt (code : Nat) : Fmt := (fmtOf code).getD fp32

/-- Where the elements of A begin: after the scale block (R331). -/
def aBase (e : W64) (k : Nat) : Nat := if entAsc e then 64 * ceilDiv k 32 else 0

/-- Bytes of the slot image of k rows of A. -/
def aImage (e : W64) (k : Nat) : Nat := aBase e k + 64 * (entFmt (entA e)).bytes * k

/-- A B operand passes through the Sheller (R269). -/
def viaSheller (e : W64) : Bool := (entFmt (entB e)).bytes == 1

-- Coded tiles (R55 to R57)

/-- A tile header. -/
structure TileHdr where
  nseg : Nat
  bodylen : Nat
  kt : Nat
  kr : Nat
  table : Nat
  scaled : Bool
  raw : Bool
  deriving DecidableEq, Repr

/-- A tile header as an entry takes it; nothing where the Sheller refuses it (R55, R56, R269). -/
def tileHdr (e : W64) (w : BitVec 256) : Option TileHdr :=
  let kr := 16 * 2 ^ fieldNat w 56 2
  let kt := fieldNat w 64 16
  let h : TileHdr := ⟨fieldNat w 128 16, fieldNat w 96 32, kt, kr, fieldNat w 40 2, w.getLsbD 33, w.getLsbD 32⟩
  let reserved := fieldNat w 144 112 == 0 && fieldNat w 80 16 == 0 && fieldNat w 58 6 == 0 && fieldNat w 42 6 == 0 &&
    fieldNat w 34 6 == 0
  if reserved && fieldNat w 0 32 == 0x5A574331 && fieldNat w 56 2 != 3 && decide (16 ≤ kt) && decide (kt ≤ 4096) &&
     kt % kr == 0 && h.nseg == kt / kr && fieldNat w 48 8 == entB e && decide (32 + h.bodylen ≤ 16384) &&
     (!h.scaled || kt % 32 == 0) && (!entBsc e || h.scaled)
  then some h else none

def readTileHdr (e : W64) (d : Array Byte) : Option TileHdr := tileHdr e (BitVec.ofNat 256 (codeAt d 0 32))

/-- Bytes of the scale block of a tile. -/
def TileHdr.scaleBytes (h : TileHdr) : Nat := if h.scaled then h.kt / 32 * 64 else 0

/-- Bytes of a coded segment of a number of words. -/
def codedBytes (words : Nat) : Nat := roundUp (260 + 2 * words) 4

/-- The segment at a byte, when it passes the checks before its first row (R56, R57): where the next begins. -/
def segmentEnd (h : TileHdr) (d : Array Byte) (seg at_ : Nat) : Option Nat :=
  let limit := 32 + h.bodylen
  let size := if h.raw then h.kr * 64 else codedBytes (codeAt d at_ 3)
  let coded := h.raw || (decide (at_ + 4 ≤ limit) && codeAt d (at_ + 3) 1 == 0xA5 && decide (codeAt d at_ 3 ≤ 64 * h.kr))
  if coded && decide (at_ + size ≤ limit) && (decide (seg + 1 < h.nseg) || at_ + size == limit) then some (at_ + size) else none

/-- Where segment seg begins, from that of segment i. -/
def segmentFrom (h : TileHdr) (d : Array Byte) : Nat → Nat → Nat → Option Nat
  | 0, _, at_ => some at_
  | n + 1, i, at_ => match segmentEnd h d i at_ with
    | none => none
    | some next => segmentFrom h d n (i + 1) next

/-- One symbol of a lane (R57): the symbol, the state and the words drawn. -/
def decodeSymbol (table : Nat → W32) (word : Nat → Nat) (words x w : Nat) : Option (Nat × Nat × Nat) :=
  let e := table (x % 4096)
  let freq := fieldNat e 20 12
  let bias := fieldNat e 8 12
  if freq = 0 || bias ≥ freq then none
  else
    let x := freq * (x / 4096) + bias
    if x < 0x10000 then
      if w = words then none else some (fieldNat e 0 8, x * 65536 + word w, w + 1)
    else some (fieldNat e 0 8, x, w)

/-- One row of the lanes, in ascending lane order. -/
def decodeLanes (table : Nat → W32) (word : Nat → Nat) (words : Nat) : List Nat → Nat → Option (List Nat × List Nat × Nat)
  | [], w => some ([], [], w)
  | x :: xs, w =>
    match decodeSymbol table word words x w with
    | none => none
    | some (sym, x, w) => match decodeLanes table word words xs w with
      | none => none
      | some (syms, xs, w) => some (sym :: syms, x :: xs, w)

/-- The rows of a coded segment with the check at its end. -/
def decodeRows (table : Nat → W32) (word : Nat → Nat) (words : Nat) : Nat → List Nat → Nat → Option (List (List Nat))
  | 0, xs, w => if w = words && xs.all (· == 0x10000) then some [] else none
  | n + 1, xs, w =>
    match decodeLanes table word words xs w with
    | none => none
    | some (row, xs, w) => (decodeRows table word words n xs w).map (row :: ·)

/-- The Kr rows of the segment at a byte, 64 codes each. -/
def decodeSegment (h : TileHdr) (table : Nat → W32) (d : Array Byte) (at_ : Nat) : Option (List (List Nat)) :=
  if h.raw then some ((List.range h.kr).map (fun k => (List.range 64).map (fun j => codeAt d (at_ + 64 * k + j) 1)))
  else
    let xs := (List.range 64).map (fun j => codeAt d (at_ + 4 + 4 * j) 4)
    if xs.any (fun x => decide (x < 0x10000)) then none
    else decodeRows table (fun w => codeAt d (at_ + 260 + 2 * w) 2) (codeAt d at_ 3) h.kr xs 0

/-- Segments i to i + n - 1 of a tile: their rows, or the index of the one that fails. -/
def decodeSegments (h : TileHdr) (table : Nat → W32) (d : Array Byte) : Nat → Nat → Nat → Except Nat (List (List Nat))
  | 0, _, _ => .ok []
  | n + 1, i, at_ =>
    match segmentEnd h d i at_, decodeSegment h table d at_ with
    | some next, some rows => match decodeSegments h table d n (i + 1) next with
      | .ok more => .ok (rows ++ more)
      | .error j => .error j
    | _, _ => .error i

/-- The decoded rows of a tile from the segment that holds row r0 to the one that holds row r1 - 1. -/
def tileRows (h : TileHdr) (table : Nat → W32) (d : Array Byte) (r0 r1 : Nat) : Except Nat (List (List Nat)) :=
  let first := r0 / h.kr
  match segmentFrom h d first 0 (32 + h.scaleBytes) with
  | none => .error first
  | some at_ => match decodeSegments h table d (ceilDiv r1 h.kr - first) first at_ with
    | .error j => .error j
    | .ok rows => .ok ((rows.drop (r0 - first * h.kr)).take (r1 - r0))

/-- A decoder table as it reads: an invalid one reads as zero entries (R59). -/
def MatrixState.tableAt (m : MatrixState) (t i : Nat) : W32 :=
  if m.dtv.getLsbD t then (mapGet [] m.dt t).getD i 0 else 0

-- Sums (R75)

/-- One group of rows: A and B values and the scale factors of the group; the new codes and the saturations. -/
def groupStep (e : W64) (aCols bCols : List (List Num)) (sa sb : Nat → Num) (w : List Nat) : List Nat × Nat :=
  let fa := entFmt (entA e)
  let cells : List ((List Num × Nat) × (List Num × Nat)) := aCols.zip (List.range 64) |>.flatMap (fun a => bCols.zip (List.range 64) |>.map (fun b => (a, b)))
  let out := (cells.zip w).map (fun p =>
    let (a, b) := p.1
    let g := groupSum ((a.1.zip b.1).map (fun (q : Num × Num) => prod fa q.1 q.2))
    let g := if entAsc e || entBsc e then scaled g (if entAsc e then sa a.2 else Num.one) (if entBsc e then sb b.2 else Num.one) else g
    accStep (entAcc e) p.2 g)
  (out.map (·.1), out.foldl (fun n q => n + q.2) 0)

/-- The rows r0 to r1 - 1 of an operation, in groups of 32: new codes and saturations. -/
def reduceRows (e : W64) (a b : Nat → Nat → Num) (sa sb : Nat → Nat → Num) (r1 : Nat) : Nat → Nat → List Nat × Nat → List Nat × Nat
  | 0, _, acc => acc
  | fuel + 1, r0, (w, sat) =>
    if r0 ≥ r1 then (w, sat)
    else
      let rows := List.range' r0 (Min.min 32 (r1 - r0))
      let cols := fun (f : Nat → Nat → Num) => (List.range 64).map (fun m => rows.map (fun k => f k m))
      let (w, n) := groupStep e (cols a) (cols b) (sa (r0 / 32)) (sb (r0 / 32)) w
      reduceRows e a b sa sb r1 fuel (r0 + 32) (w, sat + n)

/-- Values of the rows of a tile that have been decoded. -/
def rowValue (f : Fmt) (rows : Array (Array Nat)) (r0 k n : Nat) : Num := f.decode ((rows.getD (k - r0) #[]).getD n 0)

/-- The row at which the segment that begins at row r0 ends (R333). -/
def segmentRow (sheller : Bool) (kr mseg k r0 : Nat) : Nat :=
  let q := if sheller then Max.max 32 kr else 32
  Min.min k (r0 + (if mseg < q then q else mseg / q * q))

-- mma (R345)

/-- Array steps of one K row (R333). -/
def arraySteps (e : W64) : Nat :=
  let of := fun (f : Nat) => match f with
    | 0x21 => 4
    | 0x22 => 6
    | 0x23 => 28
    | _ => 1
  Max.max (of (entA e)) (of (entB e))

/-- Rows r0 to r1 - 1 of a product were summed: array steps, and the Sheller segments that were decoded for them (R419). -/
def countRows (s : State) (k : Nat) (e : W64) (kr r0 r1 : Nat) : State :=
  (s.countCore k 2 (arraySteps e * (r1 - r0))).countCore k 5 (if kr = 0 then 0 else ceilDiv r1 kr - r0 / kr)

/-- Bytes of a slot. -/
def slotBytes (c : Core) (n : Nat) : Array Byte := (c.slot n).data.toArray

/-- The checks when an mma starts (R332, R55, R269): K rows of slots a and b. -/
def mmaStart (x : Cmd) (a b : BitVec 4) (sel : BitVec 6) : M Cmd := do
  let c ← core
  let e := x.fmt 0
  let k := if sel = 0 then c.mat.mseg else (x.arg 0).toNat
  if aImage e k > 16384 then raise 3 7 0
  if viaSheller e then
    match readTileHdr e (slotBytes c b.toNat) with
    | none => raise 4 0 0xFFFF
    | some h =>
      if k > h.kt then raise 3 7 0
      -- a table that is still loading is waited for (R93)
      if !h.raw && c.mat.loading.getLsbD h.table then waitOn .engineQueue
  else if 64 * (entFmt (entB e)).bytes * k > 16384 then raise 3 7 0
  return { x with args := [w64 k], edges := (x.edges.join (c.slot a.toNat).edges).join (c.slot b.toNat).edges }

/-- The row at which the present segment of an mma with B in slot b ends. -/
def mmaEnd (c : Core) (x : Cmd) (b : BitVec 4) : Nat :=
  let hdr := if viaSheller (x.fmt 0) then readTileHdr (x.fmt 0) (slotBytes c b.toNat) else none
  segmentRow hdr.isSome ((hdr.map (·.kr)).getD 0) c.mat.mseg (x.arg 0).toNat x.step

/-- A retirement (R333): the segment that begins at row `step` is summed into bank n. -/
def mmaStep (x : Cmd) (zero : Bool) (n : BitVec 1) (a b : BitVec 4) : M Prog := do
  let c ← core
  let e := x.fmt 0
  let k := (x.arg 0).toNat
  let n := n.toNat
  let da := slotBytes c a.toNat
  let db := slotBytes c b.toNat
  let hdr := if viaSheller e then readTileHdr e db else none
  let r1 := mmaEnd c x b
  let fa := entFmt (entA e)
  let fb := entFmt (entB e)
  let base := aBase e k
  let av := fun (i m : Nat) => fa.decode (codeAt da (base + fa.bytes * (64 * i + m)) fa.bytes)
  let sa := fun (g m : Nat) => scaleOf (codeAt da (64 * g + m) 1)
  let sb := fun (g j : Nat) => scaleOf (codeAt db (32 + 64 * g + j) 1)
  let bv ← (match hdr with
    | none => pure (fun (i m : Nat) => fb.decode (codeAt db (fb.bytes * (64 * i + m)) fb.bytes))
    | some h =>
      match tileRows h (c.mat.tableAt h.table) db x.step r1 with
      | .error seg => raise 4 1 seg
      | .ok rows =>
        let rows := (rows.map (·.toArray)).toArray
        pure (rowValue fb rows x.step))
  let fresh := zero && x.step == 0
  let w := if fresh then List.replicate 4096 0 else c.mat.codes n (entAcc e)
  let (w, sat) := reduceRows e av bv sa sb r1 (r1 + 1) x.step (w, 0)
  updCore (fun c => { c with mat :=
    (c.mat.setCodes n (entAcc e) w).setSatc n (Min.min ((if fresh then 0 else c.mat.satc n) + sat) (2 ^ 32 - 1)) })
  modify (fun s => countRows s s.turn e ((hdr.map (·.kr)).getD 0) x.step r1)
  let y := { x with step := r1, done := r1 }
  return if r1 < k then .more y else .done y 0 0

-- Epilogue (R336 to R340)

def epdScale (d : W64) : Num := fp32.decode (fieldNat d 32 32)
def epdRows (d : W64) : Nat := fieldNat d 24 6 + 1
def epdCols (d : W64) : Nat := fieldNat d 16 6 + 1
def epdBias (d : W64) : Bool := d.getLsbD 15
def epdAct (d : W64) : Nat := fieldNat d 12 3

/-- Reserved bits and reserved values of an epilogue descriptor (R336, R15). -/
def epdOk (d : W64) : Bool :=
  fieldNat d 30 2 == 0 && fieldNat d 22 2 == 0 && fieldNat d 7 5 == 0 && decide (epdAct d ≤ 4) &&
  (d.getLsbD 6 || fieldNat d 4 2 == 0)

/-- The working format (R337). -/
def workFmt (e : W64) : Fmt := if entAcc e = 2 then fp64 else fp32

/-- Bytes of an output element. -/
def outBytes (e : W64) : Nat := (entFmt (entO e)).bytes

/-- One converted element (R337). -/
def epiElement (e d : W64) (bias : Option Num) (rnd : Nat) (code : Nat) : Conv :=
  let w := workFmt e
  let y := roundNum w (((accFmt (entAcc e)).decode code).mul (epdScale d))
  let y := match bias with
    | none => y
    | some b => roundNum w (y.add b)
  roundTo (entFmt (entO e)) (entRm e) rnd (w.decode (actCode w (epdAct d) y))

/-- The converted row m of a buffer: its codes, and the buffer with its counts. `word` is the random word of the row. -/
def epiRow (e d : W64) (bias : Nat → Option Num) (word : W32) (b : EpiBuffer) (m : Nat) : List Nat × EpiBuffer :=
  let cs := (List.range (epdCols d)).map (fun n => epiElement e d (bias n) (srBits word n) (b.data.getD (64 * m + n) 0).toNat)
  let sat := fun (n k : Nat) => Min.min (n + k) (2 ^ 32 - 1)
  (cs.map (·.code), { b with ovf := sat b.ovf (cs.foldl (fun k c => k + c.ovf) 0), nanc := sat b.nanc (cs.foldl (fun k c => k + c.nan) 0) })

/-- Bias(n): FP32, or FP64 where the working format is (R337). -/
def biasAt (e d : W64) (slot : Array Byte) (n : Nat) : Option Num :=
  if !epdBias d then none
  else if entAcc e = 2 then some (fp64.decode (codeAt slot (8 * n) 8))
  else some (fp32.decode (codeAt slot (4 * n) 4))

/-- One step of the epilogue's generator for a row under SR. -/
def epiSeed (e : W64) : M W32 := do
  let t ← thread
  if entRm e = 5 then
    updThread (fun t => { t with eseed := srStep t.eseed })
    return srStep t.eseed
  else return t.eseed

/-- A converted beat performs, or enters the core's hoard log whatever keeps it from performing (R339). -/
def epiWrite (w : Who) (footer : Bool) (c : Cap) (a : Nat) (bs : List Byte) : M (Option Nat) := do
  let s ← get
  let behind := footer && (coreAt s w.core).hoard.any (fun h => h.who.agent == w.agent)
  let ready : M (Option Nat) := do
    let ps ← resolveStore w c.obj c.sp { write := true } (pagePieces (pageFuel bs.length) a bs.length)
    answersAll ps
    return none
  let blocked ← if behind || hoardOverlaps s w.core w.mcb c.obj a bs.length then pure (some 0)
    else tryCatch ready (fun g => match g with
      | .wait h => return some h.extent
      | .fault _ => return some 0
      | .hard f => throw (.hard f))
  match blocked with
  | some extent =>
    hoardPut w (.epilogue footer) c a bs extent
    return none
  | none =>
    let out ← storeAt w 1 c a bs { write := true }
    match out.2 with
    | some (cls, sub) => raise cls sub a
    | none => return out.1

/-- What the beats of a row leave: a match, the further beats after it, and whether the row is whole. -/
structure RowBeats where
  hit : Option Nat
  skid : Nat
  whole : Bool
  deriving DecidableEq, Repr

/-- Bytes from an offset on in the beats of their aligned 64-byte blocks. After a beat that matched a watchpoint, in this row or before it, one
further beat performs (R423). -/
def epiBeats (w : Who) (c : Cap) (hit : Option Nat) : Nat → Nat → List Byte → M RowBeats
  | 0, _, _ => return ⟨hit, 0, true⟩
  | fuel + 1, a, bs => do
    if bs.isEmpty then return ⟨hit, 0, true⟩
    let n := Min.min (64 - a % 64) bs.length
    let h ← epiWrite w false c a (bs.take n)
    if hit.isSome then return ⟨hit, 1, (bs.drop n).isEmpty⟩
    epiBeats w c h fuel (a + n) (bs.drop n)

/-- The footer (R338). -/
def footerBytes (b : EpiBuffer) : List Byte :=
  leBytes 16 (0x5A544654 + b.ovf % 2 ^ 32 * 2 ^ 32 + b.nanc % 2 ^ 32 * 2 ^ 64 + b.crc % 2 ^ 16 * 2 ^ 112)

/-- A row of codes as bytes. -/
def rowBytes (width : Nat) (l : List Nat) : List Byte := l.flatMap (leBytes width)

/-- Stores row m of an epilogue at cap.CUR + m * RS: the buffer after it, and what its beats leave, after a match `hit` before it. -/
def storeRow (w : Who) (e d : W64) (bias : Nat → Option Num) (c : Cap) (rs : Nat) (b : EpiBuffer) (m : Nat) (hit : Option Nat) :
    M (EpiBuffer × RowBeats) := do
  let word ← epiSeed e
  let (codes, b) := epiRow e d bias word b m
  let bs := rowBytes (outBytes e) codes
  let out ← epiBeats w c hit 10 (c.cur + m * rs) bs
  return ({ b with crc := bs.foldl crcByte b.crc }, out)

/-- The checks of R339 before capture, over the rows and the footer as one range. -/
def checkTile (c : Cap) (rows rs : Nat) : M Unit := do
  let _ ← checkCap c (if c.sp = spPMEM then permST ||| permPERSIST else permST) c.cur (rows * rs + 16)
  if c.sp > 5 then raise 0 3 c.cur
  aligned c.cur 16

/-- Capture (R337): the bank's values and its saturation count. -/
def capture (m : MatrixState) (n acc : Nat) : EpiBuffer × MatrixState :=
  ({ data := (m.codes n acc).map w64, ovf := m.satc n, nanc := 0, crc := 0 }, m.setSatc n 0)

/-- The start of epi and epi.v: checks, then capture in one cycle. -/
def epiStart (x : Cmd) (n : BitVec 1) (o : BitVec 4) (store : Bool) : M Cmd := do
  if store then checkTile (x.cap 0) (epdRows (x.arg 0)) (x.arg 1).toNat
  let c ← core
  let (b, m) := capture c.mat n.toNat (entAcc (x.fmt 0))
  updCore (fun c => { c with mat := { m with eb := some b } })
  return { x with step := 1, edges := if epdBias (x.arg 0) then x.edges.join (c.slot o.toNat).edges else x.edges }

/-- DETAIL of an epilogue (R344). -/
def epiDetail (b : EpiBuffer) : Nat := Min.min b.nanc 65535 * 65536 + Min.min b.ovf 65535

/-- The counts that an epilogue keeps for its footer once it has given up EB. -/
def keepCounts (b : EpiBuffer) : List Nat := [b.ovf, b.nanc, b.crc]
def keptBuffer (x : Cmd) : EpiBuffer := ⟨[], x.tmp.getD 0 0, x.tmp.getD 1 0, x.tmp.getD 2 0⟩

/-- A micro-step of epi: a row, and after the last the footer. -/
def epiStep (x : Cmd) (o : BitVec 4) : M Prog := do
  let s ← get
  let c ← core
  let w := whoCmd s s.turn x
  let d := x.arg 0
  let rs := (x.arg 1).toNat
  let m := x.step - 1
  if m < epdRows d then
    let b := c.mat.eb.getD ⟨[], 0, 0, 0⟩
    let (b, out) ← storeRow w (x.fmt 0) d (biasAt (x.fmt 0) d (slotBytes c o.toNat)) (x.cap 0) rs b m (x.hit.map (·.toNat))
    updCore (fun c => { c with mat := { c.mat with eb := some b } })
    let y := { x with step := x.step + 1, done := x.done + epdCols d * outBytes (x.fmt 0), tmp := keepCounts b }.note out.hit
    return if out.skid = 1 then .struck (if out.whole then y else { x with hit := y.hit }) 1 else .more y
  else
    let b := keptBuffer x
    let hit ← epiWrite w true (x.cap 0) ((x.cap 0).cur + epdRows d * rs) (footerBytes b)
    return .done (x.note hit) 0 (epiDetail b)

/-- A micro-step of epi.v: a row into the vector register file (R340). -/
def epiVStep (x : Cmd) (o : BitVec 4) : M Prog := do
  let c ← core
  let d := x.arg 0
  let m := x.step - 1
  let word ← epiSeed (x.fmt 0)
  let (codes, b) := epiRow (x.fmt 0) d (biasAt (x.fmt 0) d (slotBytes c o.toNat)) word (c.mat.eb.getD ⟨[], 0, 0, 0⟩) m
  let reg := fieldNat (x.arg 1) 0 9 + m / 2
  let zero : List W32 := List.replicate 128 0
  let old := mapGet zero c.vec.v reg
  let new := (old.zip (List.range 128)).map (fun p =>
    if p.2 / 64 = m % 2 && p.2 % 64 < epdCols d then BitVec.ofNat 32 (codes.getD (p.2 % 64) 0) else p.1)
  updCore (fun c => { c with mat := { c.mat with eb := some b }, vec := { c.vec with v := mapSet zero c.vec.v reg new, wrote := c.vec.wrote ||| (1 <<< 4) } })
  let y := { x with step := x.step + 1, tmp := keepCounts b }
  return if m + 1 < epdRows d then .more y else .done y 0 (epiDetail b)

-- Bank and table transfers (R341 to R343)

/-- A micro-step of acc.rd: one 64-byte beat. -/
def accRdStep (x : Cmd) (n : BitVec 1) : M Prog := do
  let s ← get
  let c ← core
  let bs := (((c.mat.bank n.toNat).drop (16 * x.step)).take 16).flatMap (fun w => leBytes 4 w.toNat)
  let hit ← engineWrite (whoCmd s s.turn x) (x.cap 0) permST (((x.cap 0).cur : Int) + 64 * (x.step : Nat)) bs
  let y := { x with step := x.step + 1, done := x.done + 64 }.note hit
  return if y.step < 256 then .more y else .done y 0 16384

/-- The words of bytes. -/
def wordsOf : Nat → List Byte → List W32
  | 0, _ => []
  | n + 1, bs => BitVec.ofNat 32 (leNat (bs.take 4)) :: wordsOf n (bs.drop 4)

/-- A micro-step that reads a beat of 16,384 bytes; after the last, all of them are given to `fin`. -/
def bulkStep (x : Cmd) (fin : List W32 → Core → Core) : M Prog := do
  let s ← get
  let (bs, hit, _) ← engineRead (whoCmd s s.turn x) (x.cap 0) permLD (((x.cap 0).cur : Int) + 64 * (x.step : Nat)) 64
  let y := { x with step := x.step + 1, done := x.done + 64, buf := x.buf ++ bs }.note hit
  if y.step < 256 then return .more y
  if y.hit.isNone then updCore (fin (wordsOf 4096 y.buf))
  return .done { y with buf := [] } 0 16384

def accWrDone (n : BitVec 1) (l : List W32) (c : Core) : Core :=
  { c with mat := (c.mat.setBank n.toNat l).setSatc n.toNat 0 }

/-- A table whose last beat has performed is valid. -/
def dtabDone (t : BitVec 2) (l : List W32) (c : Core) : Core :=
  { c with mat := { (c.mat.touch 24).touch (25 + t.toNat) with dt := mapPut c.mat.dt t.toNat l, dtv := c.mat.dtv ||| (1 <<< t.toNat) } }

/-- A table loses its valid bit, and an INIT load of it that is still running is cancelled (R343). -/
def dtabClear (t : BitVec 2) (c : Core) : Core :=
  { c with mat := { (c.mat.touch 24).touch (25 + t.toNat) with dtv := c.mat.dtv &&& ~~~((1 : BitVec 4) <<< t.toNat), loading := c.mat.loading &&& ~~~((1 : BitVec 4) <<< t.toNat) } }

def mseg (x : Cmd) (c : Core) : Core := { c with mat := { c.mat.touch 24 with mseg := (x.arg 0).toNat } }
def accClr (n : BitVec 1) (c : Core) : Core := { c with mat := (c.mat.setBank n.toNat []).setSatc n.toNat 0 }

/-- What a matrix command does at its start. -/
def matrixStart (x : Cmd) : M Cmd := do
  match x.ins with
  | .mma _ _ a b _ k => mmaStart x a b k
  | .mmaZ _ _ a b _ k => mmaStart x a b k
  | .epi _ n o _ _ _ => epiStart x n o true
  | .epiV _ n o _ _ => epiStart x n o false
  | .dtabLd _ t _ _ => do
    updCore (dtabClear t)
    return x
  | _ => return x

/-- The next micro-step of a matrix command; that of mma and mma.z is MMA_SEGMENT_RETIRE. -/
def matrixStep (x : Cmd) : M Prog := do
  match x.ins with
  | .mma _ n a b _ _ => mmaStep x false n a b
  | .mmaZ _ n a b _ _ => mmaStep x true n a b
  | .epi _ _ o _ _ _ => epiStep x o
  | .epiV _ _ o _ _ => epiVStep x o
  | .accRd _ n _ _ => accRdStep x n
  | .accWr _ n _ _ => bulkStep x (accWrDone n)
  | .dtabLd _ t _ _ => bulkStep x (dtabDone t)
  | .dtabInv _ t => do
    updCore (dtabClear t)
    return .done x 0 0
  | .accClr _ n => do
    updCore (accClr n)
    return .done x 0 0
  | .mseg _ _ => do
    updCore (mseg x)
    return .done x 0 0
  | _ => return .done x 0 0

-- Dispatch

/-- A matrix command that names a slot (R249): the state that program order gives it. -/
def checkSlot (n : BitVec 4) : M Unit := do
  let x := (← core).slot n.toNat
  if x.code = 0 || x.code = 3 then raise 3 5 0
  if x.state == .filling && !x.fill then raise 3 6 0

/-- The entry that a selector names, valid under R73, with the rule that FP64 names acc0. -/
def matrixEntry (f : BitVec 7) (n : BitVec 1) : M W64 := do
  let t ← thread
  let e := t.getFmt (t.selectFmt f)
  if !entryValid e || (entAcc e == 2 && n != 0) then raise 2 1 0
  return e

/-- The operands of mma and mma.z. -/
def mmaOperands (n : BitVec 1) (a b : BitVec 4) (f : BitVec 7) (k : BitVec 6) : M (List W64 × List Cap × List W64) := do
  let v ← readS k
  rangeSub8 (k == 0 || (decide (1 ≤ v.toNat) && decide (v.toNat ≤ 4096)))
  let e ← matrixEntry f n
  checkSlot a
  checkSlot b
  return ([v], [], [e])

/-- mma (R345). -/
def execMma (z n : BitVec 1) (a b : BitVec 4) (f : BitVec 7) (xs : BitVec 6) (s : State) : Host.Outcome State Fault Refusal :=
  engineWord z engME (.mma z n a b f xs) (mmaOperands n a b f xs) s

/-- mma.z (R345). -/
def execMmaZ (z n : BitVec 1) (a b : BitVec 4) (f : BitVec 7) (xs : BitVec 6) (s : State) : Host.Outcome State Fault Refusal :=
  engineWord z engME (.mmaZ z n a b f xs) (mmaOperands n a b f xs) s

/-- acc.clr (R341). -/
def execAccClr (z n : BitVec 1) (s : State) : Host.Outcome State Fault Refusal :=
  engineWord z engME (.accClr z n) (pure ([], [], [])) s

/-- acc.rd (R342). -/
def execAccRd (z n : BitVec 1) (c : BitVec 5) (q : BitVec 1) (s : State) : Host.Outcome State Fault Refusal :=
  engineWord z engME (.accRd z n c q) (do
    let cap ← readC c
    checkOperand cap (if cap.sp = spPMEM then permST ||| permPERSIST else permST) dataSpaces
    aligned cap.cur 64
    return ([], [cap], [])) s

/-- acc.wr (R342). -/
def execAccWr (z n : BitVec 1) (c : BitVec 5) (q : BitVec 1) (s : State) : Host.Outcome State Fault Refusal :=
  engineWord z engME (.accWr z n c q) (do
    let cap ← readC c
    checkOperand cap permLD dataSpaces
    aligned cap.cur 64
    return ([], [cap], [])) s

/-- The operands that epi and epi.v share: EPD, the second word and the entry of FSEL (R336). -/
def epiOperands (n : BitVec 1) (o : BitVec 4) (xs : BitVec 6) : M (W64 × W64 × W64) := do
  let d ← readS xs
  let v ← readS (xs + 1)
  rangeSub8 (epdOk d && (epdBias d || o == 0))
  let e ← matrixEntry (field d 0 7) n
  return (d, v, e)

/-- epi (R344, R339). -/
def execEpi (z n : BitVec 1) (o : BitVec 4) (c : BitVec 5) (xs : BitVec 6) (q : BitVec 1) (s : State) :
    Host.Outcome State Fault Refusal :=
  engineWord z engME (.epi z n o c xs q) (do
    let (d, rs, e) ← epiOperands n o xs
    rangeSub8 (rs.toNat % 16 == 0 && decide (epdCols d * outBytes e ≤ rs.toNat))
    let cap ← readC c
    checkOperand cap 0 dataSpaces
    if epdBias d then checkSlot o
    return ([d, rs], [cap], [e])) s

/-- epi.v (R344, R340). -/
def execEpiV (z n : BitVec 1) (o : BitVec 4) (xs : BitVec 6) (q : BitVec 1) (s : State) : Host.Outcome State Fault Refusal :=
  engineWord z engME (.epiV z n o xs q) (do
    let (d, v, e) ← epiOperands n o xs
    rangeSub8 (decide (v.toNat ≤ 480))
    if epdBias d then checkSlot o
    return ([d, v], [], [e])) s

/-- dtab.ld (R343). -/
def execDtabLd (z : BitVec 1) (t : BitVec 2) (c : BitVec 5) (q : BitVec 1) (s : State) : Host.Outcome State Fault Refusal :=
  engineWord z engME (.dtabLd z t c q) (do
    let cap ← readC c
    checkOperand cap permLD [0, 1]
    aligned cap.cur 64
    return ([], [cap], [])) s

/-- dtab.inv (R343). -/
def execDtabInv (z : BitVec 1) (t : BitVec 2) (s : State) : Host.Outcome State Fault Refusal :=
  engineWord z engME (.dtabInv z t) (pure ([], [], [])) s

/-- mseg (R346). -/
def execMseg (z : BitVec 1) (xs : BitVec 6) (s : State) : Host.Outcome State Fault Refusal :=
  engineWord z engME (.mseg z xs) (do
    let v ← readS xs
    rangeSub8 (v.toNat % 32 == 0 && decide (32 ≤ v.toNat) && decide (v.toNat ≤ 4096))
    return ([v], [], [])) s

end Sys2Proof.Machine
end

