-- ==== Sys2Proof/Machine/Vector.lean ====
section
/-!
DEFINITION. The vector engine (R289 to R329): its registers and masks, what each form does when the engine executes it, and the
dispatch of every vector word.
-/
namespace Sys2Proof.Machine

-- Registers and masks (R289 to R291)

/-- A register of 128 lanes that nothing has written. -/
def zeroLanes : List W32 := List.replicate 128 0
def zeroIndex : List (BitVec 9) := List.replicate 128 0

/-- A physical register. -/
def VectorState.phys (v : VectorState) (r : Nat) : List W32 := mapGet zeroLanes v.v r
/-- The vector engine has written region r of a save image (R403): 4 its registers, 3 the rest of it. -/
def VectorState.touch (v : VectorState) (r : Nat) : VectorState := { v with wrote := v.wrote ||| (1 <<< r) }
def VectorState.setPhys (v : VectorState) (r : Nat) (l : List W32) : VectorState := { v.touch 4 with v := mapSet zeroLanes v.v r l }
def VectorState.index (v : VectorState) (k : Nat) : List (BitVec 9) := mapGet zeroIndex v.x k

/-- Vreg: the physical register that lane i reaches through a register code (R14, R290). -/
def VectorState.reg (v : VectorState) (i code : Nat) : Nat :=
  (v.wb.toNat + (if code < 120 then code else ((v.index (code - 120)).getD i 0).toNat)) % 512

/-- V(i, code). -/
def VectorState.at (v : VectorState) (i code : Nat) : W32 := (v.phys (v.reg i code)).getD i 0

/-- A whole operand: V(i, code) for every lane. -/
def VectorState.read (v : VectorState) (code : Nat) : List W32 :=
  if code < 120 then v.phys (v.reg 0 code) else (List.range 128).map (fun i => v.at i code)

/-- Lanes written through a code; a lane that is given nothing is unchanged. -/
def VectorState.write (v : VectorState) (code : Nat) (l : List (Option W32)) : VectorState :=
  if code < 120 then
    v.setPhys (v.reg 0 code) (((v.phys (v.reg 0 code)).zip l).map (fun p => p.2.getD p.1))
  else
    (l.zip (List.range 128)).foldl (fun u p => match p.1 with
      | none => u
      | some w => u.setPhys (v.reg p.2 code) ((u.phys (v.reg p.2 code)).set p.2 w)) v

/-- Mask register n; m0 is all ones. -/
def VectorState.mask (v : VectorState) (n : Nat) : BitVec 128 := if n = 0 then BitVec.allOnes 128 else mapGet 0 v.m n
def VectorState.setMask (v : VectorState) (n : Nat) (b : BitVec 128) : VectorState := { v.touch 3 with m := mapSet 0 v.m n b }
/-- The current mask. -/
def VectorState.current (v : VectorState) : BitVec 128 := v.mask v.cm.toNat

/-- Lane i is active for an instruction with field F (R291). -/
def VectorState.active (v : VectorState) (f : BitVec 1) (i : Nat) : Bool := f == 0 || v.current.getLsbD i

/-- The lane numbers. -/
def lanes : List Nat := List.range 128

/-- Values for the active lanes. -/
def VectorState.masked (v : VectorState) (f : BitVec 1) (l : List W32) : List (Option W32) :=
  (l.zip lanes).map (fun p => if v.active f p.2 then some p.1 else none)

/-- A form of one source, lane by lane. -/
def lane1 (g : W32 → W32) (d a : BitVec 7) (f : BitVec 1) (v : VectorState) : VectorState :=
  v.write d.toNat (v.masked f ((v.read a.toNat).map g))

/-- A form of two sources, lane by lane. -/
def lane2 (g : W32 → W32 → W32) (d a b : BitVec 7) (f : BitVec 1) (v : VectorState) : VectorState :=
  v.write d.toNat (v.masked f (((v.read a.toNat).zip (v.read b.toNat)).map (fun p => g p.1 p.2)))

/-- A form whose destination is also a source. -/
def lane3 (g : W32 → W32 → W32 → W32) (d a b : BitVec 7) (f : BitVec 1) (v : VectorState) : VectorState :=
  v.write d.toNat (v.masked f (((v.read a.toNat).zip ((v.read b.toNat).zip (v.read d.toNat))).map (fun p => g p.1 p.2.1 p.2.2)))

-- Lane arithmetic

/-- The FP32 value of a lane. -/
def fval (w : W32) : Num := fp32.decode w.toNat
/-- RNE to FP32 (R294). -/
def rne (x : Num) : W32 := BitVec.ofNat 32 (roundAcc fp32 x)
/-- The canonical NaN. -/
def nan32 : W32 := 0x7FC00000

def faddLane (a b : W32) : W32 := rne ((fval a).add (fval b))
def fsubLane (a b : W32) : W32 := rne ((fval a).add (fval b).neg)
def fmulLane (a b : W32) : W32 := rne ((fval a).mul (fval b))
def fmaLane (a b c : W32) : W32 := rne (((fval a).mul (fval b)).add (fval c))
def fmsLane (a b c : W32) : W32 := rne (((fval a).mul (fval b)).add (fval c).neg)
def fnmaLane (a b c : W32) : W32 := rne ((fval c).add ((fval a).mul (fval b)).neg)

/-- The smaller of two lanes; -0 counts as less than +0 (R307). -/
def fminLane (a b : W32) : W32 :=
  match (fval a).cmp (fval b) with
  | none => nan32
  | some .lt => a
  | some .gt => b
  | some .eq => a ||| b

/-- The larger of two lanes. -/
def fmaxLane (a b : W32) : W32 :=
  match (fval a).cmp (fval b) with
  | none => nan32
  | some .lt => b
  | some .gt => a
  | some .eq => a &&& b

def fabsLane (a : W32) : W32 := if (fval a).isNan then nan32 else a &&& 0x7FFFFFFF
def fnegLane (a : W32) : W32 := if (fval a).isNan then nan32 else a ^^^ 0x80000000
def frcpLane (a : W32) : W32 := rne (Num.one.div (fval a))
def frsqrtLane (a : W32) : W32 := rne (fval a).rsqrt
def fsqrtLane (a : W32) : W32 := rne (fval a).sqrt
def fdivLane (a b : W32) : W32 := rne ((fval a).div (fval b))
def fexp2Lane (a : W32) : W32 := BitVec.ofNat 32 (exp2Code fp32 (fval a))
def flog2Lane (a : W32) : W32 := BitVec.ofNat 32 (log2Code fp32 (fval a))
def ftanhLane (a : W32) : W32 := BitVec.ofNat 32 (tanhCode fp32 (fval a))

def imulhLane (a b : W32) : W32 := ((a.signExtend 64 * b.signExtend 64).extractLsb' 32 32)
def shlLane (a b : W32) : W32 := a <<< (b.toNat % 32)
def shrLane (a b : W32) : W32 := a >>> (b.toNat % 32)
def sraLane (a b : W32) : W32 := a.sshiftRight (b.toNat % 32)
def iminLane (a b : W32) : W32 := if b.slt a then b else a
def imaxLane (a b : W32) : W32 := if a.slt b then b else a
def uminLane (a b : W32) : W32 := if b.ult a then b else a
def umaxLane (a b : W32) : W32 := if a.ult b then b else a

/-- A condition of vcmp (R312): eq ne lt le gt ge un or. -/
def fcond (c : Nat) (a b : W32) : Bool :=
  match (fval a).cmp (fval b), c with
  | none, c => c == 1 || c == 6
  | some o, 0 => o == .eq
  | some o, 1 => o != .eq
  | some o, 2 => o == .lt
  | some o, 3 => o != .gt
  | some o, 4 => o == .gt
  | some o, 5 => o != .lt
  | some _, c => c == 7

/-- A condition of vicmp: eq ne lt ge ltu geu. -/
def icond (c : Nat) (a b : W32) : Bool :=
  match c with
  | 0 => a == b
  | 1 => a != b
  | 2 => a.slt b
  | 3 => !a.slt b
  | 4 => a.ult b
  | _ => !a.ult b

/-- Bits for the lanes. -/
def packBits (l : List Bool) : BitVec 128 :=
  BitVec.ofNat 128 (l.foldr (fun b n => 2 * n + (if b then 1 else 0)) 0)

/-- A comparison into a mask: 0 for an inactive lane (R312). -/
def compareLanes (g : W32 → W32 → Bool) (d : BitVec 3) (a b : BitVec 7) (f : BitVec 1) (v : VectorState) : VectorState :=
  v.setMask d.toNat (packBits (((v.read a.toNat).zip ((v.read b.toNat).zip lanes)).map
    (fun p => v.active f p.2.2 && g p.1 p.2.1)))

/-- vsel (R313). -/
def selectLanes (d a b : BitVec 7) (v : VectorState) : VectorState :=
  v.write d.toNat (((v.read a.toNat).zip ((v.read b.toNat).zip lanes)).map
    (fun p => some (if v.current.getLsbD p.2.2 then p.1 else p.2.1)))

/-- The number of one bits. -/
def ones (b : BitVec 128) : Nat := (List.range 128).countP b.getLsbD

/-- mpop (R311). -/
def popLanes (d : BitVec 7) (a : BitVec 3) (v : VectorState) : VectorState :=
  v.write d.toNat (lanes.map (fun _ => some (BitVec.ofNat 32 (ones (v.mask a.toNat)))))

-- Conversions (R296, R314 to R316)

/-- Saturating addition to a 32-bit count. -/
def satAdd (n by_ : Nat) : Nat := Min.min (n + by_) (2 ^ 32 - 1)

/-- One conversion of a source code under an entry. -/
def convert (e : W64) (word : W32) (i code : Nat) : Conv :=
  match fmtOf (entA e), fmtOf (entO e) with
  | some a, some o => roundTo o (entRm e) (srBits word i) (a.decode (code % 2 ^ a.width))
  | _, _ => ⟨0, 0, 0⟩

def fmtWidth (code : Nat) : Nat := ((fmtOf code).map Fmt.width).getD 0

/-- The conversions of the active lanes: for each lane the codes that its sources give, in order. -/
def convLanes (e : W64) (word : W32) (f : BitVec 1) (v : VectorState) (src : List (List Nat)) : List (Option (List Conv)) :=
  (src.zip lanes).map (fun p => if v.active f p.2 then some (p.1.map (convert e word p.2)) else none)

/-- The counts after conversions. -/
def VectorState.count (v : VectorState) (cs : List (Option (List Conv))) : VectorState :=
  let all := cs.flatMap (fun c => c.getD [])
  { v.touch 3 with vovf := satAdd v.vovf (all.foldl (fun n c => n + c.ovf) 0), vnanc := satAdd v.vnanc (all.foldl (fun n c => n + c.nan) 0) }

/-- One step of the generator under SR, and no step otherwise (R296): the random word. -/
def vectorSeed (e : W64) : M W32 := do
  let t ← thread
  if entRm e = 5 then
    updThread (fun t => { t with vseed := srStep t.vseed })
    return srStep t.vseed
  else return t.vseed

/-- Narrow elements of a lane. -/
def elements (w : W32) (width n : Nat) : List Nat := (List.range n).map (fun j => w.toNat / 2 ^ (width * j) % 2 ^ width)

/-- A lane of narrow results. -/
def joinCodes (width : Nat) (l : List Conv) : W32 := BitVec.ofNat 32 (l.foldr (fun c n => n * 2 ^ width + c.code) 0)

/-- vcvt (R315). -/
def cvtLanes (e : W64) (word : W32) (d a : BitVec 7) (f : BitVec 1) (v : VectorState) : VectorState :=
  let cs := convLanes e word f v ((v.read a.toNat).map (fun w => [w.toNat]))
  (v.write d.toNat (cs.map (fun c => c.map (joinCodes 32)))).count cs

/-- vpack (R316). -/
def packLanes (e : W64) (word : W32) (d a : BitVec 7) (f : BitVec 1) (v : VectorState) : VectorState :=
  let width := fmtWidth (entO e)
  let n := 32 / width
  let cs := convLanes e word f v (lanes.map (fun i => (List.range n).map (fun j => (v.at i (a.toNat + j)).toNat)))
  (v.write d.toNat (cs.map (fun c => c.map (joinCodes width)))).count cs

/-- vunpack (R316). -/
def unpackLanes (e : W64) (word : W32) (d a : BitVec 7) (f : BitVec 1) (v : VectorState) : VectorState :=
  let width := fmtWidth (entA e)
  let n := 32 / width
  let cs := convLanes e word f v ((v.read a.toNat).map (fun w => elements w width n))
  ((List.range n).foldl (fun u j =>
    u.write (d.toNat + j) (cs.map (fun c => c.map (fun l => BitVec.ofNat 32 ((l[j]?.map (·.code)).getD 0))))) v).count cs

-- Cross-lane forms (R317 to R322)

/-- vperm (R319). -/
def permLanes (d a b : BitVec 7) (f : BitVec 1) (v : VectorState) : VectorState :=
  v.write d.toNat (v.masked f ((v.read b.toNat).map (fun w => v.at (w.toNat % 128) a.toNat)))

/-- vbcast (R317). -/
def bcastLanes (w : W32) (d : BitVec 7) (f : BitVec 1) (v : VectorState) : VectorState :=
  v.write d.toNat (v.masked f (lanes.map (fun _ => w)))

/-- vrot (R321). -/
def rotLanes (d a i : BitVec 7) (f : BitVec 1) (v : VectorState) : VectorState :=
  v.write d.toNat (v.masked f (lanes.map (fun n => v.at ((n + i.toNat) % 128) a.toNat)))

/-- vlane (R318). -/
def laneNumbers (d : BitVec 7) (f : BitVec 1) (v : VectorState) : VectorState :=
  v.write d.toNat (v.masked f (lanes.map (BitVec.ofNat 32)))

/-- Comb of R320: a lane that is not active gives nothing. -/
def comb (g : W32 → W32 → W32) (x y : Option W32) : Option W32 :=
  match x, y with
  | some a, some b => some (g a b)
  | some a, none => some a
  | none, y => y

/-- The fixed tree of R320 over a list whose length is a power of two. -/
def treeOf (g : W32 → W32 → W32) : Nat → List (Option W32) → Option W32
  | 0, l => l.headD none
  | n + 1, l => treeOf g n (((l.take (2 ^ n)).zip (l.drop (2 ^ n))).map (fun p => comb g p.1 p.2))

/-- vredsum, vredmax and vredmin (R320). -/
def reduceLanes (g : W32 → W32 → W32) (d a : BitVec 7) (f : BitVec 1) (v : VectorState) : VectorState :=
  match treeOf g 7 (v.masked f (v.read a.toNat)) with
  | none => v
  | some w => v.write d.toNat (v.masked f (lanes.map (fun _ => w)))

/-- The passes of the prefix sum (R322). -/
def scanPasses (g : W32 → W32 → W32) : List Nat → List (Option W32) → List (Option W32)
  | [], t => t
  | d :: ds, t =>
    scanPasses g ds ((lanes.zip t).map (fun p => if p.1 ≥ d then comb g (t.getD (p.1 - d) none) p.2 else p.2))

/-- The value of the greatest active lane below each lane. -/
def before (active : Nat → Bool) (t : List (Option W32)) (i : Nat) : W32 :=
  match ((List.range i).reverse.find? active) with
  | none => 0
  | some j => (t.getD j none).getD 0

/-- vscan (R322). -/
def scanLanes (g : W32 → W32 → W32) (exclusive : Bool) (d a : BitVec 7) (f : BitVec 1) (v : VectorState) : VectorState :=
  let t := scanPasses g [1, 2, 4, 8, 16, 32, 64] (v.masked f (v.read a.toNat))
  v.write d.toNat (v.masked f (if exclusive then lanes.map (before (v.active f) t) else t.map (fun x => x.getD 0)))

-- Register file and ports (R323 to R326)

/-- vmovs (R324). -/
def setLane (d : BitVec 7) (i : Nat) (w : W32) (v : VectorState) : VectorState :=
  v.write d.toNat (lanes.map (fun n => if n = i then some w else none))

/-- vwin (R325). -/
def setWindow (k : BitVec 3) (n : W64) (b : BitVec 6) (v : VectorState) : VectorState :=
  { v.touch 3 with wb := BitVec.ofNat 9 ((8 * n.toNat + 8 * b.toNat) % 512), cm := k }

/-- vxset (R326). -/
def setIndex (k : BitVec 3) (src : BitVec 7) (n : W64) (f : BitVec 1) (v : VectorState) : VectorState :=
  let old := v.index k.toNat
  let new := (old.zip ((v.read src.toNat).zip lanes)).map (fun p =>
    if v.active f p.2.2 then p.2.1.setWidth 9 + n.setWidth 9 else p.1)
  { v.touch 3 with x := mapSet zeroIndex v.x k.toNat new }

/-- The word that vmovq pushes, and the vector state after it (R323). -/
def movqWord (d : BitVec 7) (i : BitVec 8) (v : VectorState) : W64 × VectorState :=
  if i.toNat < 128 then (zext64 (v.at i.toNat d.toNat), v)
  else if i.toNat = 128 then (w64 (v.vovf + v.vnanc * 2 ^ 32), { v.touch 3 with vovf := 0, vnanc := 0 })
  else if i.toNat = 129 then (field v.current 0 64, v)
  else (field v.current 64 64, v)

-- Memory forms (R299 to R303)

/-- How an element fills its lane. -/
def elemFill (v : BitVec 3) (n : Nat) : W32 :=
  match v.toNat with
  | 2 => (BitVec.ofNat 16 n).signExtend 32
  | 4 => (BitVec.ofNat 8 n).signExtend 32
  | 5 => BitVec.ofNat 32 n <<< 16
  | _ => BitVec.ofNat 32 n

/-- The active lanes in beats: contiguous forms group what lies in one aligned 64-byte block (R300). -/
def beatsOf (contiguous : Bool) (ea : Nat → Int) : List Nat → List (List Nat)
  | [] => []
  | i :: rest =>
    match beatsOf contiguous ea rest with
    | (j :: js) :: more => if contiguous && ea i / 64 == ea j / 64 then (i :: j :: js) :: more else [i] :: (j :: js) :: more
    | more => [i] :: more

/-- The checks of R299 on one element: rights, then bounds, then alignment. FADDR is the element's own offset (R302). -/
def checkElement (c : Cap) (need : BitVec 12) (e : Nat) (ea : Int) : M Nat := do
  if !c.has need then raise 0 2 (ea % 2 ^ 40).toNat
  let a ← tryCatch (checkCap c need ea e) (fun g => match g with
    | .fault f => throw (.fault { f with addr := w64 (ea % 2 ^ 40).toNat })
    | g => throw g)
  aligned a e
  return a

/-- The checks of every element of a beat, after the translation of the first. -/
def checkElements (c : Cap) (need : BitVec 12) (e : Nat) (ea : Nat → Int) : List Nat → M Unit
  | [] => pure ()
  | i :: rest => do
    let _ ← checkElement c need e (ea i)
    checkElements c need e ea rest

/-- What remains of a beat after its first `got` elements, as far as one event goes: in HBM each 32-byte half is an event of its own (R300,
R360). -/
def beatPart (sp : Nat) (ea : Nat → Int) (beat : List Nat) (got : Nat) : List Nat :=
  match beat.drop got with
  | [] => []
  | i :: rest => if sp = spHBM then i :: rest.takeWhile (fun j => (ea j) / 32 == (ea i) / 32) else i :: rest

/-- A part of a beat of a load: the elements read, in lane order. A beat counts once (R202), with its last part. -/
def loadBeat (x : Cmd) (e : Nat) (ea : Nat → Int) (last : Bool) (beat : List Nat) : M (List Nat × Option Nat) := do
  let c := x.cap 0
  let s ← get
  let w := whoCmd s s.turn x
  match beat with
  | [] => return ([], none)
  | i :: _ =>
    let a ← checkElement c permLD e (ea i)
    waitBorn x
    let r ← resolve w c.obj c.sp a { write := false }
    checkElements c permLD e ea beat
    let s ← get
    if beat.any (fun j => hoardOverlaps s w.core w.mcb c.obj (ea j).toNat e) then waitOn .hoarded
    if (raceLine s w r.key 1).isSome then raise 6 0 a
    checkLines a r 1
    behindPosted c.sp
    answers r 1 a
    let place := fun (j : Nat) => { r with key := r.key + ((ea j).toNat - a), addr := r.addr + ((ea j).toNat - a) }
    let vals ← beat.mapM (fun j => do return leNat (← readPiece w c.obj (ea j).toNat (place j) e))
    if last then modify (fun s => countAccess s w c.obj a 1 r)
    let hits ← beat.mapM (fun j => watchAccess w .read (ea j).toNat (place j) e)
    return (vals, hits.findSome? id)

/-- A part of a beat of a store. What parks enters the hoard log as one entry (R301). A beat counts once (R202), with its last part. -/
def storeBeat (x : Cmd) (e : Nat) (ea : Nat → Int) (val : Nat → W32) (last : Bool) (beat : List Nat) : M (Option Nat) := do
  let c := x.cap 0
  let need := if c.sp = spPMEM then permST ||| permPERSIST else permST
  let s ← get
  let w := { whoCmd s s.turn x with counting := if last then .lines else .apart }
  match beat with
  | [] => return none
  | i :: _ =>
    let a ← checkElement c need e (ea i)
    waitBorn x
    if beat.any (fun j => hoardOverlaps s w.core w.mcb c.obj (ea j).toNat e) then waitOn .hoarded
    let runs := beat.map (fun j => ((ea j).toNat, leBytes e (val j).toNat))
    let stored : M (Option Nat × Option (Nat × Nat)) := do
      let _ ← resolve w c.obj c.sp a { write := true }
      checkElements c need e ea beat
      storeRuns w 1 c runs { write := true }
    let out ← tryCatch stored (fun g => match g with
      | .wait h =>
        if h.kind = .parked then do
          checkElements c need e ea beat
          let span := (ea (beat.getLastD i)).toNat + e - a
          let bytes := (List.range span).map (fun n => (runs.find? (fun p => decide (p.1 ≤ a + n) && decide (a + n < p.1 + e))).map
            (fun p => p.2.getD (a + n - p.1) 0))
          hoardPut w .store c a (bytes.map (fun b => b.getD 0)) h.extent (bytes.map (·.isSome))
          return (none, none)
        else throw g
      | g => throw g)
    match out.2 with
    | some (cls, sub) => raise cls sub a
    | none => return out.1

/-- The active lanes of a memory form. -/
def VectorState.activeLanes (v : VectorState) (f : BitVec 1) : List Nat := lanes.filter (v.active f)

/-- The first match of a beat of which a part has performed, as its command keeps it. -/
def keptHit (x : Cmd) : Option Nat := if x.buf.isEmpty then none else some (leNat x.buf)
/-- The command keeps a match until its beat has performed. -/
def Cmd.keepHit (x : Cmd) (hit : Option Nat) : Cmd := { x with buf := (hit.map (leBytes 8)).getD [] }

/-- A micro-step of a load: one beat, or a part of it; the registers are written when the last has performed (R301). -/
def loadStep (x : Cmd) (d : BitVec 7) (v : BitVec 3) (f : BitVec 1) (contiguous : Bool) (ea : Nat → Int) : M Prog := do
  let st := (← core).vec
  let e := elemBytes v
  let act := st.activeLanes f
  let beats := beatsOf contiguous ea act
  let beat := beats.getD x.step []
  let got := x.tmp.length - ((beats.take x.step).map List.length).sum
  let part := beatPart (x.cap 0).sp ea beat got
  let last := decide (beat.length ≤ got + part.length)
  let (vals, now) ← loadBeat x e ea last part
  let hit := (keptHit x).or now
  if !last then return .more { x.keepHit hit with tmp := x.tmp ++ vals }
  let y := { x.keepHit none with step := x.step + 1, tmp := x.tmp ++ vals }.note hit
  if x.step + 1 < beats.length then return .more y
  if y.hit.isNone then
    let l := lanes.map (fun i => ((act.zip y.tmp).find? (fun p => p.1 == i)).map (fun p => elemFill v p.2))
    updCore (fun c => { c with vec := c.vec.write d.toNat l })
  return .done y 0 0

/-- A micro-step of a store: one beat, or a part of it: `tmp` counts the elements of the beat that are stored. -/
def storeStep (x : Cmd) (v : BitVec 3) (f : BitVec 1) (contiguous : Bool) (ea : Nat → Int) (val : Nat → W32) : M Prog := do
  let st := (← core).vec
  let beats := beatsOf contiguous ea (st.activeLanes f)
  let beat := beats.getD x.step []
  let got := x.tmp.headD 0
  let part := beatPart (x.cap 0).sp ea beat got
  let last := decide (beat.length ≤ got + part.length)
  let now ← storeBeat x (elemBytes v) ea val last part
  let hit := (keptHit x).or now
  if !last then return .more { x.keepHit hit with tmp := [got + part.length] }
  let y := { x.keepHit none with step := x.step + 1, tmp := [] }.note hit
  return if x.step + 1 < beats.length then .more y else .done y 0 0

/-- EA of a contiguous form (R327). -/
def eaUnit (x : Cmd) (e i : Nat) : Int := ((x.cap 0).cur : Int) + (x.arg 0).toInt + (e * i : Nat)
/-- EA of a strided form (R328). -/
def eaStride (x : Cmd) (i : Nat) : Int := ((x.cap 0).cur : Int) + (x.arg 0).toInt + i * (x.arg 1).toInt
/-- EA of an indexed form (R329). -/
def eaIndex (x : Cmd) (offs : List W32) (i : Nat) : Int := ((x.cap 0).cur : Int) + (x.arg 0).toInt + ((offs.getD i 0).toNat : Nat)

-- Execution

/-- A form that changes the vector state alone. -/
def vectorDo (x : Cmd) (g : VectorState → VectorState) : M Prog := do
  updCore (fun c => { c with vec := g c.vec })
  return .done x 0 0

/-- A conversion: one step of the generator under SR, whether or not any lane is active. -/
def convertDo (x : Cmd) (g : W32 → VectorState → VectorState) : M Prog := do
  let word ← vectorSeed (x.fmt 0)
  vectorDo x (g word)

/-- vmovq (R323): a push of one word to qv, a join edge from it and from every vector command before it. -/
def movqDo (x : Cmd) (d : BitVec 7) (i : BitVec 8) : M Prog := do
  let c ← core
  if c.qv.length ≥ 16 then waitOn .port 60
  let (word, v) := movqWord d i c.vec
  modify (fun s =>
    let k := s.turn
    let g := (commandEdges s k x).join (mapGet EdgeSet.none c.doneEdges 0)
    endCmdWaits (s.setCore k { c with
      vec := v, qv := c.qv ++ [⟨word, g, k⟩], portSetter := mapPut c.portSetter 60 (agentId 1 k x.seq.toNat 0) }) k x 0)
  return .done { x with waits := [] } 0 0

/-- Comb of a sum by the type field (R320, R322). -/
def sumOf (t : BitVec 7) : W32 → W32 → W32 := if t.toNat % 2 = 0 then faddLane else (· + ·)
def maxOf (t : BitVec 7) : W32 → W32 → W32 := if t.toNat = 0 then fmaxLane else if t.toNat = 1 then imaxLane else umaxLane
def minOf (t : BitVec 7) : W32 → W32 → W32 := if t.toNat = 0 then fminLane else if t.toNat = 1 then iminLane else uminLane

/-- The next micro-step of a vector command. -/
def vectorStep (x : Cmd) : M Prog := do
  let st := (← core).vec
  match x.ins with
  | .vadd _ d a b f => vectorDo x (lane2 faddLane d a b f)
  | .vsub _ d a b f => vectorDo x (lane2 fsubLane d a b f)
  | .vmul _ d a b f => vectorDo x (lane2 fmulLane d a b f)
  | .vfma _ d a b f => vectorDo x (lane3 fmaLane d a b f)
  | .vfms _ d a b f => vectorDo x (lane3 fmsLane d a b f)
  | .vfnma _ d a b f => vectorDo x (lane3 fnmaLane d a b f)
  | .vmin _ d a b f => vectorDo x (lane2 fminLane d a b f)
  | .vmax _ d a b f => vectorDo x (lane2 fmaxLane d a b f)
  | .vabs _ d a f => vectorDo x (lane1 fabsLane d a f)
  | .vneg _ d a f => vectorDo x (lane1 fnegLane d a f)
  | .vrcp _ d a f => vectorDo x (lane1 frcpLane d a f)
  | .vrsqrt _ d a f => vectorDo x (lane1 frsqrtLane d a f)
  | .vsqrt _ d a f => vectorDo x (lane1 fsqrtLane d a f)
  | .vexp2 _ d a f => vectorDo x (lane1 fexp2Lane d a f)
  | .vlog2 _ d a f => vectorDo x (lane1 flog2Lane d a f)
  | .vtanh _ d a f => vectorDo x (lane1 ftanhLane d a f)
  | .vdiv _ d a b f => vectorDo x (lane2 fdivLane d a b f)
  | .viadd _ d a b f => vectorDo x (lane2 (· + ·) d a b f)
  | .visub _ d a b f => vectorDo x (lane2 (· - ·) d a b f)
  | .vimul _ d a b f => vectorDo x (lane2 (· * ·) d a b f)
  | .vimulh _ d a b f => vectorDo x (lane2 imulhLane d a b f)
  | .vand _ d a b f => vectorDo x (lane2 (· &&& ·) d a b f)
  | .vor _ d a b f => vectorDo x (lane2 (· ||| ·) d a b f)
  | .vxor _ d a b f => vectorDo x (lane2 (· ^^^ ·) d a b f)
  | .vshl _ d a b f => vectorDo x (lane2 shlLane d a b f)
  | .vshr _ d a b f => vectorDo x (lane2 shrLane d a b f)
  | .vsra _ d a b f => vectorDo x (lane2 sraLane d a b f)
  | .vimin _ d a b f => vectorDo x (lane2 iminLane d a b f)
  | .vimax _ d a b f => vectorDo x (lane2 imaxLane d a b f)
  | .vcmp _ c d a b f => vectorDo x (compareLanes (fcond c.toNat) d a b f)
  | .vicmp _ c d a b f => vectorDo x (compareLanes (icond c.toNat) d a b f)
  | .vsel _ d a b => vectorDo x (selectLanes d a b)
  | .mand _ d a b => vectorDo x (fun v => v.setMask d.toNat (v.mask a.toNat &&& v.mask b.toNat))
  | .mor _ d a b => vectorDo x (fun v => v.setMask d.toNat (v.mask a.toNat ||| v.mask b.toNat))
  | .mnot _ d a => vectorDo x (fun v => v.setMask d.toNat (~~~v.mask a.toNat))
  | .mpop _ d a => vectorDo x (popLanes d a)
  | .vcvt _ d a _ f => convertDo x (fun w => cvtLanes (x.fmt 0) w d a f)
  | .vpack _ d a _ f => convertDo x (fun w => packLanes (x.fmt 0) w d a f)
  | .vunpack _ d a _ f => convertDo x (fun w => unpackLanes (x.fmt 0) w d a f)
  | .vperm _ d a b f => vectorDo x (permLanes d a b f)
  | .vbcast _ d _ h f => vectorDo x (bcastLanes (field (x.arg 0) (32 * h.toNat) 32) d f)
  | .vrot _ d a i f => vectorDo x (rotLanes d a i f)
  | .vlane _ d f => vectorDo x (laneNumbers d f)
  | .vredsum _ d a t f => vectorDo x (reduceLanes (sumOf t) d a f)
  | .vredmax _ d a t f => vectorDo x (reduceLanes (maxOf t) d a f)
  | .vredmin _ d a t f => vectorDo x (reduceLanes (minOf t) d a f)
  | .vscan _ d a t f => vectorDo x (scanLanes (sumOf t) (decide (2 ≤ t.toNat)) d a f)
  | .vwin _ k _ b => vectorDo x (setWindow k (x.arg 0) b)
  | .vxset _ v _ k f => vectorDo x (setIndex k v (x.arg 0) f)
  | .vmovs _ d _ l => vectorDo x (setLane d l.toNat (field (x.arg 0) 0 32))
  | .vmovq _ d i => movqDo x d i
  | .vld _ d _ _ v f => loadStep x d v f true (eaUnit x (elemBytes v))
  | .vst _ d _ _ v f => storeStep x v f true (eaUnit x (elemBytes v)) (fun i => (st.read d.toNat).getD i 0)
  | .vldx _ d _ _ v f => loadStep x d v f false (eaIndex x (st.read d.toNat))
  | .vstx _ d _ _ v f => storeStep x v f false (eaIndex x (st.read (d.toNat + 1))) (fun i => (st.read d.toNat).getD i 0)
  | .vldS _ d _ _ v f => loadStep x d v f false (eaStride x)
  | .vstS _ d _ _ v f => storeStep x v f false (eaStride x) (fun i => (st.read d.toNat).getD i 0)
  | _ => return .done x 0 0

-- Dispatch

/-- A vector word without scalar operands. -/
def vectorWord (z : BitVec 1) (i : Instr) (s : State) : Host.Outcome State Fault Refusal :=
  engineWord z engVE i (pure ([], [], [])) s

/-- A vector word with one scalar operand. -/
def vectorScalar (z : BitVec 1) (i : Instr) (n : BitVec 6) (s : State) : Host.Outcome State Fault Refusal :=
  engineWord z engVE i (do return ([← readS n], [], [])) s

/-- The entry that a conversion form takes (R314): which source and result codes suit the form. -/
def convEntryOk (e : W64) (suits : Nat → Nat → Bool) : Bool :=
  let a := entA e
  let o := entO e
  fieldNat e 40 24 == 0 && fieldNat e 24 9 == 0 && decide (entRm e ≤ 5) && (fmtOf a).isSome && (fmtOf o).isSome &&
  a != 0x23 && o != 0x23 && suits a o

/-- FP32 or INT32. -/
def wide32 (code : Nat) : Bool := code == 0x22 || code == 0x24
/-- 8 or 16 bits wide. -/
def narrow (code : Nat) : Bool := fmtWidth code == 8 || fmtWidth code == 16

/-- A conversion word (R314): its entry is resolved and checked at dispatch, then the code of its register group, which is a
reserved value where the group would pass v119 (R316). -/
def convWord (z : BitVec 1) (i : Instr) (f : BitVec 7) (suits group : Nat → Nat → Bool) (s : State) :
    Host.Outcome State Fault Refusal :=
  engineWord z engVE i (do
    let t ← thread
    let e := t.getFmt (t.selectFmt f)
    if !convEntryOk e suits then raise 2 1 0
    if !group (entA e) (entO e) then raise 2 0 0
    return ([], [], [e])) s

/-- A vector memory word (R299): its capability and its scalars. -/
def vectorMemory (z : BitVec 1) (i : Instr) (c : BitVec 5) (n : BitVec 6) (pair : Bool) (s : State) :
    Host.Outcome State Fault Refusal :=
  engineWord z engVE i (do
    let a ← readS n
    let b ← if pair then readS (n + 1) else pure 0
    let cap ← readC c
    checkOperand cap 0 dataSpaces
    return ([a, b], [cap], [])) s

/-- vadd (R305). -/
def execVadd (z : BitVec 1) (d a b : BitVec 7) (f : BitVec 1) (s : State) : Host.Outcome State Fault Refusal :=
  vectorWord z (.vadd z d a b f) s

/-- vsub (R305). -/
def execVsub (z : BitVec 1) (d a b : BitVec 7) (f : BitVec 1) (s : State) : Host.Outcome State Fault Refusal :=
  vectorWord z (.vsub z d a b f) s

/-- vmul (R305). -/
def execVmul (z : BitVec 1) (d a b : BitVec 7) (f : BitVec 1) (s : State) : Host.Outcome State Fault Refusal :=
  vectorWord z (.vmul z d a b f) s

/-- vfma (R306). -/
def execVfma (z : BitVec 1) (d a b : BitVec 7) (f : BitVec 1) (s : State) : Host.Outcome State Fault Refusal :=
  vectorWord z (.vfma z d a b f) s

/-- vfms (R306). -/
def execVfms (z : BitVec 1) (d a b : BitVec 7) (f : BitVec 1) (s : State) : Host.Outcome State Fault Refusal :=
  vectorWord z (.vfms z d a b f) s

/-- vfnma (R306). -/
def execVfnma (z : BitVec 1) (d a b : BitVec 7) (f : BitVec 1) (s : State) : Host.Outcome State Fault Refusal :=
  vectorWord z (.vfnma z d a b f) s

/-- vmin (R307). -/
def execVmin (z : BitVec 1) (d a b : BitVec 7) (f : BitVec 1) (s : State) : Host.Outcome State Fault Refusal :=
  vectorWord z (.vmin z d a b f) s

/-- vmax (R307). -/
def execVmax (z : BitVec 1) (d a b : BitVec 7) (f : BitVec 1) (s : State) : Host.Outcome State Fault Refusal :=
  vectorWord z (.vmax z d a b f) s

/-- vabs (R304). -/
def execVabs (z : BitVec 1) (d a : BitVec 7) (f : BitVec 1) (s : State) : Host.Outcome State Fault Refusal :=
  vectorWord z (.vabs z d a f) s

/-- vneg (R304). -/
def execVneg (z : BitVec 1) (d a : BitVec 7) (f : BitVec 1) (s : State) : Host.Outcome State Fault Refusal :=
  vectorWord z (.vneg z d a f) s

/-- vrcp (R308). -/
def execVrcp (z : BitVec 1) (d a : BitVec 7) (f : BitVec 1) (s : State) : Host.Outcome State Fault Refusal :=
  vectorWord z (.vrcp z d a f) s

/-- vrsqrt (R308). -/
def execVrsqrt (z : BitVec 1) (d a : BitVec 7) (f : BitVec 1) (s : State) : Host.Outcome State Fault Refusal :=
  vectorWord z (.vrsqrt z d a f) s

/-- vsqrt (R308). -/
def execVsqrt (z : BitVec 1) (d a : BitVec 7) (f : BitVec 1) (s : State) : Host.Outcome State Fault Refusal :=
  vectorWord z (.vsqrt z d a f) s

/-- vexp2 (R308). -/
def execVexp2 (z : BitVec 1) (d a : BitVec 7) (f : BitVec 1) (s : State) : Host.Outcome State Fault Refusal :=
  vectorWord z (.vexp2 z d a f) s

/-- vlog2 (R308). -/
def execVlog2 (z : BitVec 1) (d a : BitVec 7) (f : BitVec 1) (s : State) : Host.Outcome State Fault Refusal :=
  vectorWord z (.vlog2 z d a f) s

/-- vtanh (R308). -/
def execVtanh (z : BitVec 1) (d a : BitVec 7) (f : BitVec 1) (s : State) : Host.Outcome State Fault Refusal :=
  vectorWord z (.vtanh z d a f) s

/-- vdiv (R308). -/
def execVdiv (z : BitVec 1) (d a b : BitVec 7) (f : BitVec 1) (s : State) : Host.Outcome State Fault Refusal :=
  vectorWord z (.vdiv z d a b f) s

/-- viadd (R309). -/
def execViadd (z : BitVec 1) (d a b : BitVec 7) (f : BitVec 1) (s : State) : Host.Outcome State Fault Refusal :=
  vectorWord z (.viadd z d a b f) s

/-- visub (R309). -/
def execVisub (z : BitVec 1) (d a b : BitVec 7) (f : BitVec 1) (s : State) : Host.Outcome State Fault Refusal :=
  vectorWord z (.visub z d a b f) s

/-- vimul (R309). -/
def execVimul (z : BitVec 1) (d a b : BitVec 7) (f : BitVec 1) (s : State) : Host.Outcome State Fault Refusal :=
  vectorWord z (.vimul z d a b f) s

/-- vimulh (R309). -/
def execVimulh (z : BitVec 1) (d a b : BitVec 7) (f : BitVec 1) (s : State) : Host.Outcome State Fault Refusal :=
  vectorWord z (.vimulh z d a b f) s

/-- vand (R309). -/
def execVand (z : BitVec 1) (d a b : BitVec 7) (f : BitVec 1) (s : State) : Host.Outcome State Fault Refusal :=
  vectorWord z (.vand z d a b f) s

/-- vor (R309). -/
def execVor (z : BitVec 1) (d a b : BitVec 7) (f : BitVec 1) (s : State) : Host.Outcome State Fault Refusal :=
  vectorWord z (.vor z d a b f) s

/-- vxor (R309). -/
def execVxor (z : BitVec 1) (d a b : BitVec 7) (f : BitVec 1) (s : State) : Host.Outcome State Fault Refusal :=
  vectorWord z (.vxor z d a b f) s

/-- vshl (R309). -/
def execVshl (z : BitVec 1) (d a b : BitVec 7) (f : BitVec 1) (s : State) : Host.Outcome State Fault Refusal :=
  vectorWord z (.vshl z d a b f) s

/-- vshr (R309). -/
def execVshr (z : BitVec 1) (d a b : BitVec 7) (f : BitVec 1) (s : State) : Host.Outcome State Fault Refusal :=
  vectorWord z (.vshr z d a b f) s

/-- vsra (R309). -/
def execVsra (z : BitVec 1) (d a b : BitVec 7) (f : BitVec 1) (s : State) : Host.Outcome State Fault Refusal :=
  vectorWord z (.vsra z d a b f) s

/-- vimin (R309). -/
def execVimin (z : BitVec 1) (d a b : BitVec 7) (f : BitVec 1) (s : State) : Host.Outcome State Fault Refusal :=
  vectorWord z (.vimin z d a b f) s

/-- vimax (R309). -/
def execVimax (z : BitVec 1) (d a b : BitVec 7) (f : BitVec 1) (s : State) : Host.Outcome State Fault Refusal :=
  vectorWord z (.vimax z d a b f) s

/-- vcmp (R312). -/
def execVcmp (z : BitVec 1) (c : BitVec 4) (d : BitVec 3) (a b : BitVec 7) (f : BitVec 1) (s : State) : Host.Outcome State Fault Refusal :=
  vectorWord z (.vcmp z c d a b f) s

/-- vicmp (R312). -/
def execVicmp (z : BitVec 1) (c : BitVec 4) (d : BitVec 3) (a b : BitVec 7) (f : BitVec 1) (s : State) : Host.Outcome State Fault Refusal :=
  vectorWord z (.vicmp z c d a b f) s

/-- vsel (R313). -/
def execVsel (z : BitVec 1) (d a b : BitVec 7) (s : State) : Host.Outcome State Fault Refusal :=
  vectorWord z (.vsel z d a b) s

/-- mand (R310). -/
def execMand (z : BitVec 1) (d a b : BitVec 3) (s : State) : Host.Outcome State Fault Refusal :=
  vectorWord z (.mand z d a b) s

/-- mor (R310). -/
def execMor (z : BitVec 1) (d a b : BitVec 3) (s : State) : Host.Outcome State Fault Refusal :=
  vectorWord z (.mor z d a b) s

/-- mnot (R310). -/
def execMnot (z : BitVec 1) (d a : BitVec 3) (s : State) : Host.Outcome State Fault Refusal :=
  vectorWord z (.mnot z d a) s

/-- mpop (R311). -/
def execMpop (z : BitVec 1) (d : BitVec 7) (a : BitVec 3) (s : State) : Host.Outcome State Fault Refusal :=
  vectorWord z (.mpop z d a) s

/-- vcvt (R315). -/
def execVcvt (z : BitVec 1) (d a xs : BitVec 7) (f : BitVec 1) (s : State) : Host.Outcome State Fault Refusal :=
  convWord z (.vcvt z d a xs f) xs (fun _ _ => true) (fun _ _ => true) s

/-- vpack (R316). -/
def execVpack (z : BitVec 1) (d a xs : BitVec 7) (f : BitVec 1) (s : State) : Host.Outcome State Fault Refusal :=
  convWord z (.vpack z d a xs f) xs (fun p q => wide32 p && narrow q)
    (fun _ q => decide (a.toNat ≤ 120 - 32 / fmtWidth q)) s

/-- vunpack (R316). -/
def execVunpack (z : BitVec 1) (d a xs : BitVec 7) (f : BitVec 1) (s : State) : Host.Outcome State Fault Refusal :=
  convWord z (.vunpack z d a xs f) xs (fun p q => narrow p && wide32 q)
    (fun p _ => decide (d.toNat ≤ 120 - 32 / fmtWidth p)) s

/-- vperm (R319). -/
def execVperm (z : BitVec 1) (d a b : BitVec 7) (f : BitVec 1) (s : State) : Host.Outcome State Fault Refusal :=
  vectorWord z (.vperm z d a b f) s

/-- vbcast (R317). -/
def execVbcast (z : BitVec 1) (d : BitVec 7) (xs : BitVec 6) (h f : BitVec 1) (s : State) : Host.Outcome State Fault Refusal :=
  vectorScalar z (.vbcast z d xs h f) xs s

/-- vrot (R321). -/
def execVrot (z : BitVec 1) (d a i : BitVec 7) (f : BitVec 1) (s : State) : Host.Outcome State Fault Refusal :=
  vectorWord z (.vrot z d a i f) s

/-- vlane (R318). -/
def execVlane (z : BitVec 1) (d : BitVec 7) (f : BitVec 1) (s : State) : Host.Outcome State Fault Refusal :=
  vectorWord z (.vlane z d f) s

/-- vredsum (R320). -/
def execVredsum (z : BitVec 1) (d a t : BitVec 7) (f : BitVec 1) (s : State) : Host.Outcome State Fault Refusal :=
  vectorWord z (.vredsum z d a t f) s

/-- vredmax (R320). -/
def execVredmax (z : BitVec 1) (d a t : BitVec 7) (f : BitVec 1) (s : State) : Host.Outcome State Fault Refusal :=
  vectorWord z (.vredmax z d a t f) s

/-- vredmin (R320). -/
def execVredmin (z : BitVec 1) (d a t : BitVec 7) (f : BitVec 1) (s : State) : Host.Outcome State Fault Refusal :=
  vectorWord z (.vredmin z d a t f) s

/-- vscan (R322). -/
def execVscan (z : BitVec 1) (d a t : BitVec 7) (f : BitVec 1) (s : State) : Host.Outcome State Fault Refusal :=
  vectorWord z (.vscan z d a t f) s

/-- vwin (R325). -/
def execVwin (z : BitVec 1) (k : BitVec 3) (xs b : BitVec 6) (s : State) : Host.Outcome State Fault Refusal :=
  vectorScalar z (.vwin z k xs b) xs s

/-- vxset (R326). -/
def execVxset (z : BitVec 1) (v : BitVec 7) (xs : BitVec 6) (k : BitVec 3) (f : BitVec 1) (s : State) : Host.Outcome State Fault Refusal :=
  vectorScalar z (.vxset z v xs k f) xs s

/-- vmovs (R324). -/
def execVmovs (z : BitVec 1) (d : BitVec 7) (xs : BitVec 6) (l : BitVec 7) (s : State) : Host.Outcome State Fault Refusal :=
  vectorScalar z (.vmovs z d xs l) xs s

/-- vmovq (R323). -/
def execVmovq (z : BitVec 1) (d : BitVec 7) (i : BitVec 8) (s : State) : Host.Outcome State Fault Refusal :=
  vectorWord z (.vmovq z d i) s

/-- vld (R327). -/
def execVld (z : BitVec 1) (d : BitVec 7) (c : BitVec 5) (xs : BitVec 6) (v : BitVec 3) (f : BitVec 1) (s : State) : Host.Outcome State Fault Refusal :=
  vectorMemory z (.vld z d c xs v f) c xs false s

/-- vst (R327). -/
def execVst (z : BitVec 1) (d : BitVec 7) (c : BitVec 5) (xs : BitVec 6) (v : BitVec 3) (f : BitVec 1) (s : State) : Host.Outcome State Fault Refusal :=
  vectorMemory z (.vst z d c xs v f) c xs false s

/-- vldx (R329). -/
def execVldx (z : BitVec 1) (d : BitVec 7) (c : BitVec 5) (xs : BitVec 6) (v : BitVec 3) (f : BitVec 1) (s : State) : Host.Outcome State Fault Refusal :=
  vectorMemory z (.vldx z d c xs v f) c xs false s

/-- vstx (R329). -/
def execVstx (z : BitVec 1) (d : BitVec 7) (c : BitVec 5) (xs : BitVec 6) (v : BitVec 3) (f : BitVec 1) (s : State) : Host.Outcome State Fault Refusal :=
  vectorMemory z (.vstx z d c xs v f) c xs false s

/-- vldS (R328). -/
def execVldS (z : BitVec 1) (d : BitVec 7) (c : BitVec 5) (xs : BitVec 6) (v : BitVec 3) (f : BitVec 1) (s : State) : Host.Outcome State Fault Refusal :=
  vectorMemory z (.vldS z d c xs v f) c xs true s

/-- vstS (R328). -/
def execVstS (z : BitVec 1) (d : BitVec 7) (c : BitVec 5) (xs : BitVec 6) (v : BitVec 3) (f : BitVec 1) (s : State) : Host.Outcome State Fault Refusal :=
  vectorMemory z (.vstS z d c xs v f) c xs true s

end Sys2Proof.Machine
end

