-- ==== Sys2Proof/Machine/Running.lean ====
section
/-!
DEFINITION. The steps of a core's engines: the start of a queued command, the next micro-step of a running one up to its
completion, and the retirement of an mma segment (R123, R124, R333).
-/
namespace Sys2Proof.Machine

/-- A matrix product: its micro-steps are segment retirements. -/
def Cmd.isMma (x : Cmd) : Bool :=
  match x.ins with
  | .mma _ _ _ _ _ _ => true
  | .mmaZ _ _ _ _ _ _ => true
  | _ => false

/-- What a command does at its start, by its engine. -/
def startOf (x : Cmd) : M Cmd :=
  match x.eng.toNat with
  | 1 => matrixStart x
  | 2 => copyStart x
  | 3 => laneStart x
  | _ => return x

/-- The next micro-step of a command, by its engine. -/
def stepOf (ans : NetAnswer) (x : Cmd) : M Prog :=
  match x.eng.toNat with
  | 1 => matrixStep x
  | 2 => copyStep x
  | 3 => netStep ans x
  | _ => vectorStep x

/-- Core k with every slot that x reads taken as READY. -/
def slotsReady (s : State) (k : Nat) (x : Cmd) : State :=
  s.updCore k (fun c => x.slotsRead.foldl (fun c n => c.setSlot n { c.slot n with state := .ready }) c)

/-- The fill of a slot that x reads is done. -/
def slotFilled (s : State) (k n : Nat) : Bool := ((coreAt s k).slot n).state == .ready || ((coreAt s k).slot n).state == .draining

/-- The slots for whose fills alone x waits: flag waits of kind 3 (R410). -/
def slotWaits (s : State) (k : Nat) (x : Cmd) : List Nat :=
  if canStart (slotsReady s k x) k x then x.slotsRead.filter (fun n => !slotFilled s k n) else []

/-- The waits of x for slots that have been filled end, each with its record. -/
def endFilled (s : State) (k : Nat) (x : Cmd) : State × Cmd :=
  let ends := x.waits.filter (fun w => w.1 == 3 && slotFilled s k w.2.1)
  (ends.foldl (fun s w => recordCmdWait s k x 0 w) s, { x with waits := x.waits.filter (fun w => !ends.contains w) })

/-- Only a chain keeps core k's command x from starting (R162). -/
def chainHolds (s : State) (k : Nat) (x : Cmd) : Bool := !canStart s k x && canStart s k { x with after := [] }

/-- The cycles that only a chain has kept a command of core k from starting are counted (R173). -/
def countChained (s : State) (k : Nat) (x : Cmd) : State :=
  match x.chained with
  | none => s
  | some t => s.updCore k (fun c => c.bumpCounter 7 (cyclesOf s k (s.pt - t)))

/-- A command that may not start yet: since when it waits for a slot's fill alone, or for a chain alone. -/
def waitsToStart (s : State) (k : Nat) (x : Cmd) : State :=
  if chainHolds s k x then (if x.chained.isNone then putCmd s k { x with chained := some s.pt } else s)
  else
    let (s, x) := endFilled (countChained s k x) k { x with chained := none }
    putCmd s k ((slotWaits s k x).foldl (fun x n => x.beginWait 3 n s.pt) x)

/-- A command starts. A receive buffer becomes posted (R277). -/
def putStarted (s : State) (k : Nat) (y : Cmd) : State :=
  if y.isPost then s.updCore k (fun c => { c with cmds := c.cmds.filter (fun z => z.ord != y.ord), posted := c.posted ++ [y] })
  else putCmd s k { y with started := true }

/-- An engine-step breakpoint stops the plot before the command's present step, once (R414). -/
def breakStep (s : State) (k : Nat) (x : Cmd) (m step : Nat) : State := debugStop (putCmd s k { x with passed := some step }) m

/-- ENGINE_COMMAND_START (R123): the next command of an engine of core k starts, once nothing holds it back. -/
def execEngineCommandStart (core : Nat) (eng : BitVec 2) (s0 : State) : Host.Outcome State Fault Refusal :=
  let s := { s0 with turn := core }
  if !enginesRun s core then .next s0 else
  match nextCmd (coreAt s core) eng with
  | none => .next s0
  | some x =>
    if holdsStill s x || (x.isPost && decide ((coreAt s core).posted.length ≥ 64)) then .next s0
    else if !canStart s core x then .next (waitsToStart s core x)
    else
      match stepBreak s core x (x.step + 1) with
      | some (m, n) => .next (breakStep s core x m n)
      | none =>
        let ended := fun (s : State) => countChained (endCmdWaits s core x 0) core x
        match (startOf { x with parked := none, ask := none, waits := [], chained := none }).run s with
        | .ok y s1 => .next (putStarted (ended s1) core y)
        | .error (.fault f) s1 => .next (endFaulted (ended s1) core { x with started := true, waits := [], chained := none } f)
        | .error (.wait h) s1 => .next (holdCmd (rollBack s s1) core x h)
        | .error (.hard f) _ => .fault f

/-- The started commands of an engine of core k, oldest first. -/
def startedCmds (s : State) (k : Nat) (eng : BitVec 2) : List Cmd :=
  (coreAt s k).cmds.filter (fun x => x.eng == eng && x.started)

/-- ENGINE_COMMAND_COMPLETE (R124): the nth running command of an engine takes its next micro-step, the last of which
completes it; one whose completion entry waits posts it. A network command may meanwhile learn what its peer answers. -/
def execEngineCommandComplete (core : Nat) (eng : BitVec 2) (nth : Nat) (ans : NetAnswer) (s : State) :
    Host.Outcome State Fault Refusal :=
  if !enginesRun s core then .next s else
  let l := startedCmds s core eng
  match l[nth]? with
  | none => .next s
  | some x =>
    if x.posting.isSome then .next (postCmd s core x)
    else if x.ending.isSome then .next (awaitWrites s core x)
    else if x.isMma || holdsStill s x || (l.take nth).any (fun y => y.posting.isSome) then .next s
    else
      match stepBreak s core x (x.step + 1) with
      | some (m, n) => .next (breakStep s core x m n)
      | none => advance (stepOf ans) s core x

/-- The row at which the present segment of a product ends. -/
def segmentEndOf (s : State) (k : Nat) (x : Cmd) : Nat :=
  match x.ins with
  | .mma _ _ _ b _ _ => mmaEnd (coreAt s k) x b
  | .mmaZ _ _ _ b _ _ => mmaEnd (coreAt s k) x b
  | _ => x.step + 1

/-- MMA_SEGMENT_RETIRE (R333): a segment of core k's matrix product retires into its bank. -/
def execMmaSegmentRetire (core : Nat) (s : State) : Host.Outcome State Fault Refusal :=
  if !enginesRun s core then .next s else
  match (startedCmds s core engME).find? (fun x => x.isMma && x.posting.isNone && x.ending.isNone) with
  | none => .next s
  | some x =>
    match stepBreak s core x (segmentEndOf s core x) with
    | some (m, n) => .next (breakStep s core x m n)
    | none => advance matrixStep s core x

end Sys2Proof.Machine
end

