-- ==== Sys2Proof/Machine/Tasks.lean ====
section
/-!
DEFINITION. Tile tasks (R347 to R354): the plot's scheduler, the checks of a record, and its run on a free matrix engine.
-/
namespace Sys2Proof.Machine

-- A record (R347)

def TaskRec.epd (t : TaskRec) : W64 := field t.bits 448 64
def TaskRec.cstride (t : TaskRec) : Nat := fieldNat t.bits 416 32
def TaskRec.cwoff (t : TaskRec) : Nat := fieldNat t.bits 376 40
def TaskRec.wwoff (t : TaskRec) : Nat := fieldNat t.bits 336 40
def TaskRec.k (t : TaskRec) : Nat := fieldNat t.bits 304 16
def TaskRec.jblk (t : TaskRec) : Nat := fieldNat t.bits 288 16
def TaskRec.sidx (t : TaskRec) : Nat := fieldNat t.bits 280 8
def TaskRec.cidx (t : TaskRec) : Nat := fieldNat t.bits 272 8
def TaskRec.bidx (t : TaskRec) : Nat := fieldNat t.bits 264 8
def TaskRec.aidx (t : TaskRec) : Nat := fieldNat t.bits 256 8
def TaskRec.tag (t : TaskRec) : Nat := fieldNat t.bits 224 32
def TaskRec.cen (t : TaskRec) : Bool := t.bits.getLsbD 25

/-- Reserved bits of a record. -/
def TaskRec.reservedZero (t : TaskRec) : Bool :=
  fieldNat t.bits 320 16 == 0 && fieldNat t.bits 39 185 == 0 && fieldNat t.bits 26 6 == 0 && fieldNat t.bits 8 16 == 0

/-- The selector of the mma steps holds no reserved value (R15). -/
def TaskRec.selectorOk (t : TaskRec) : Bool := t.bits.getLsbD 38 || fieldNat t.bits 36 2 == 0

-- The scheduler (R350, R351)

/-- The member served next: in rotation by stream number, after the one served last. -/
def Inv.nextServed (i : Inv) : Option Nat :=
  ((List.range 256).map (fun d => (i.lastServed + 1 + d) % 256)).find? (fun n => i.service.any (fun e => e.1 == n))

/-- The free matrix engine of a plot that has run the fewest task segments, the lowest core first (R350). -/
def freeEngine (s : State) (m : Nat) : Option Nat :=
  let free := (mcbAt s m).plot.filter (fun k =>
    let c := coreAt s k
    c.bound == some m && c.mat.task.isNone && !c.cmds.any (fun x => x.eng == engME))
  free.foldl (fun best k => match best with
    | none => some k
    | some b => if (coreAt s k).mat.segments < (coreAt s b).mat.segments then some k else some b) none

/-- The agent of a record that runs, or would run, on core k. -/
def recordWho (s : State) (m k : Nat) (t : TaskRec) : Who :=
  { agent := .task t.core (invSerial s k) t.n, core := k, mcb := m, edges := t.edges, region := 0,
    arrivals := t.arrivals, bindings := invBindings s k, setter := agentId 5 k t.n 0, eng := some engME }

/-- An entry of the capability table that a record names, after the writes of the core to it (R200). -/
def taskEntry (w : Who) (m i : Nat) : M (Cap × Option Nat) := do
  let t := (mcbAt (← get) m).captab
  waitHoard w.core t.obj (t.lo + 16 * i) 16
  loadTagged w false t.obj t.sp (t.lo + 16 * i)

/-- A word of the synchronisation object (R348). -/
def checkSyncWord (c : Cap) (off : Nat) : M Unit := do
  let a ← checkCap c (permLD ||| permST ||| permFE) off 8
  if c.sp ≠ 0 then raise 0 3 a
  aligned a 8

/-- The bytes of a range that an engine of a task reads. -/
def taskRead (w : Who) (c : Cap) (ea n : Nat) : M (List Byte × Option Nat) := do
  let (bs, hit, _) ← engineRead w c permLD ea n
  return (bs, hit)

/-- The index header of a coded tensor: NBLK and KTILES, where it is valid (R54). -/
def indexHdr (w : BitVec 128) : Option (Nat × Nat) :=
  if fieldNat w 64 64 = 0 && fieldNat w 0 32 = 0x5A574958 && fieldNat w 48 16 ≠ 0 && fieldNat w 32 16 ≠ 0 then
    some (fieldNat w 48 16, fieldNat w 32 16) else none

/-- Where tile t of a record's column block begins (R54). -/
def tileOffset (w : Who) (b : Cap) (entry : Nat) : M (Nat × Option Nat) := do
  let (bs, hit) ← taskRead w b (b.cur + 16 + 8 * entry) 8
  let e := w64 (leNat bs)
  if fieldNat e 40 24 ≠ 0 || fieldNat e 0 40 % 32 ≠ 0 then raise 4 0 0
  return (b.cur + fieldNat e 0 40, hit)

/-- The watchpoint fault of a task's beat: FADDR the first matching byte, after as many further beats as SKID says (R418, R423). -/
def taskHit (a skid : Nat) : Stop := .fault { cls := 9, sub := 1, addr := w64 a, skid := skid }

/-- A beat of a task after a match: it performs, unless it has to wait or faults, and the task goes no further (R423). -/
def beatAfter {α : Type} (hit : Option Nat) (x : M α) : M α := do
  match hit with
  | none => x
  | some a =>
    let _ ← tryCatch x (fun _ => throw (taskHit a 0))
    throw (taskHit a 1)

/-- The rows that the tiles of a record's block hold, from tile t on. -/
def blockRows (w : Who) (b : Cap) (e : W64) (first : Nat) (struck : Option Nat) : Nat → Nat → M (Nat × Option Nat)
  | 0, _ => return (0, struck)
  | n + 1, t => do
    let (off, hit) ← beatAfter struck (tileOffset w b (first + t))
    let (bs, hit) ← beatAfter hit (taskRead w b off 32)
    match tileHdr e (BitVec.ofNat 256 (leNat bs)) with
    | none => raise 4 0 0
    | some h =>
      let (rows, hit) ← blockRows w b e first hit n (t + 1)
      return (h.kt + rows, hit)

/-- The checks of R348, in its order: the record's capabilities, KTILES of B, and the first byte that a watchpoint matched in the last beat. -/
def checkRecord (w : Who) (m : Nat) (t : TaskRec) : M (List Cap × Nat × Option Nat) := do
  let d := t.epd
  let cols := epdCols d * outBytes t.eentry
  if !t.reservedZero || !epdOk d || t.k = 0 || t.cstride % 16 ≠ 0 || t.cstride < cols || !t.selectorOk then raise 2 8 0
  if !entryValid t.fentry || !viaSheller t.fentry || !entryValid t.eentry || entAcc t.eentry ≠ entAcc t.fentry ||
     entAcc t.eentry = 2 then raise 2 1 0
  let (a, hit) ← taskEntry w m t.aidx
  let (b, hit) ← beatAfter hit (taskEntry w m t.bidx)
  let (c, hit) ← beatAfter hit (taskEntry w m t.cidx)
  checkOperand a permLD [0, 1]
  checkOperand b permLD [0, 1]
  checkOperand c (if c.sp = spPMEM then permST ||| permPERSIST else permST) dataSpaces
  checkTile c (epdRows d) t.cstride
  let (sy, hit) ← if t.wen || t.cen then beatAfter hit (taskEntry w m t.sidx) else pure (Cap.null, hit)
  if t.wen then checkSyncWord sy t.wwoff
  if t.cen then checkSyncWord sy t.cwoff
  let (bs, hit) ← beatAfter hit (taskRead w b b.cur 16)
  match indexHdr (BitVec.ofNat 128 (leNat bs)) with
  | none => raise 4 0 0
  | some (nblk, ktiles) =>
    if t.jblk ≥ nblk then raise 4 0 0
    let (rows, hit) ← blockRows w b t.fentry (t.jblk * ktiles) hit ktiles 0
    if t.k > rows then raise 4 0 0
    return ([a, b, c, sy], ktiles, hit)

/-- A fault of a record that runs, or would run, on core k is reported to the core that posted it, with FADDR the record's offset (R348). -/
def taskFault (s : State) (k : Nat) (t : TaskRec) (step : Nat) (f : FaultRec) : State :=
  report s t.core { f with
    addr := t.off, imp := true, eng := some engME, order := 5, seq := BitVec.ofNat 16 t.n, step := step,
    record := some (recordStop s k t step 1) }

/-- The wait word of a record, read with the semantics of ld.ff (R349): where it is full, the edges of its fill, its place and a watchpoint's
match. -/
def readWaitWord (w : Who) (m : Nat) (t : TaskRec) : M (Option (EdgeSet × Nat × Option Nat)) := do
  let (c, he) ← taskEntry w m t.sidx
  checkSyncWord c t.wwoff
  let r ← resolve w c.obj c.sp t.wwoff { write := false }
  checkLines t.wwoff r 8
  let s ← get
  if !feFull s (r.key / 8) then return none
  modify (fun s => countAccess s w c.obj t.wwoff 8 r)
  let hit ← watchWord w t.wwoff r 8
  return some (((mapFind s.feMark (r.key / 8)).map (·.edges)).getD EdgeSet.none, r.key, he.or hit)

/-- A watchpoint's match ends a record that core k runs, or would run, at a step, after as many further beats as SKID says (R418, R423). -/
def recordStruck (s : State) (k : Nat) (t : TaskRec) (step : Nat) (a : W64) (skid : Nat) : State :=
  report s t.core
    { cls := 9, sub := 1, addr := a, imp := true, eng := some engME, order := 5, seq := BitVec.ofNat 16 t.n, step := step, skid := skid,
      record := some (recordStop s k t step 1) }

/-- A record of block m changed in the scheduler's copy. -/
def State.updRecord (s : State) (m n : Nat) (f : TaskRec → TaskRec) : State :=
  s.updInv m (fun i => { i with tasks := i.tasks.map (fun u => if u.n == n then f u else u) })

/-- A wait word was seen full: the record takes the edges of its fill, with the wait record of R410 where it has waited, and a watchpoint's match
is that of a posted atomic-class access of its poster. -/
def sawFull (s : State) (m : Nat) (t : TaskRec) (e : EdgeSet) (key : Nat) (hit : Option Nat) : State :=
  let s := s.updRecord m t.n (fun u => { u with seen := true, failed := false, edges := u.edges.join e })
  let s := if t.since = 0 then s else pushWait s (mcbAt s m).part.toNat
    (waitRecordBytes (localPt s t.core) (cyclesOf s t.core (s.pt - t.since))
      (((mapFind s.feMark (key / 8)).map (·.setter)).getD agentNone) (agentId 5 t.core t.n 0) 4 0 (flagOf key))
  match hit with
  | none => s
  | some a => struckBy s t.core a

/-- A wait word was seen empty: the record waits from now, unless it has waited. -/
def sawEmpty (s : State) (m : Nat) (t : TaskRec) : State :=
  s.updRecord m t.n (fun u => { u with failed := false, since := if u.since = 0 then Max.max s.pt 1 else u.since })

/-- The wait word of a record is looked at. Where the look faults, the checks of the record's issue decide (R348). -/
def recheckRecord (s : State) (m : Nat) (t : TaskRec) : State :=
  let back := fun (s1 : State) => { rollBack { s with turn := t.core } s1 with turn := s.turn }
  match (readWaitWord (recordWho s m t.core t) m t).run { s with turn := t.core } with
  | .ok (some (e, key, hit)) s1 => sawFull { s1 with turn := s.turn } m t e key hit
  | .ok none s1 => sawEmpty (back s1) m t
  | .error (.fault _) s1 => (back s1).updRecord m t.n (fun u => { u with failed := true })
  | .error _ s1 => back s1

/-- TASK_WAIT_RECHECK (R351): the wait words of the head records. -/
def execTaskWaitRecheck (mcb : Nat) (s : State) : Host.Outcome State Fault Refusal :=
  match (mcbAt s mcb).inv with
  | none => .next s
  | some i =>
    if i.halted || i.stage != .running then .next s else
    .next (noteReady ((List.range 256).foldl (fun s n =>
      match headRecord s mcb i n with
      | some t => if t.wen && !t.seen then recheckRecord s mcb t else s
      | none => s) s) mcb)

/-- What the issue of a record leaves: it runs, or its wait word is empty after all. -/
inductive Issue where
  | run (edges : EdgeSet) (caps : List Cap) (ktiles : Nat) (hit : Option Nat) (saw : Option (EdgeSet × Nat × Option Nat))
  | notYet

/-- The issue of a record (R348): its checks, and for one whose wait word could not be looked at, the look (R349). -/
def issueRecord (w : Who) (m : Nat) (t : TaskRec) : M Issue := do
  let (caps, ktiles, hit) ← checkRecord w m t
  if !t.wen || t.seen then return .run t.edges caps ktiles hit none
  match ← readWaitWord w m t with
  | none => return .notYet
  | some saw => return .run (t.edges.join saw.1) caps ktiles hit (some saw)

/-- A record begins on core k, with an empty bank (R349). -/
def TaskCtx.begin (t : TaskRec) (edges : EdgeSet) (caps : List Cap) (ktiles : Nat) (hit : Option Nat) : TaskCtx :=
  { task := t, edges := edges, rows := 0, caps := caps, ktiles := ktiles, tile := 0, tileOff := 0, used := 0, passRows := 0,
    panel := (caps.headD Cap.null).cur, aBuf := [], bBuf := [], bank := [], satc := 0, epi := 0, eb := ⟨[], 0, 0, 0⟩, parked := none,
    hit := hit.map w64 }

/-- The record of a stream has left the scheduler for its engine (R351). -/
def takenOut (s : State) (m : Nat) (t : TaskRec) : State :=
  s.updInv m (fun i =>
    { i with
      tasks := i.tasks.filter (fun u => u.n != t.n), lastServed := t.stream,
      service := i.service.map (fun e => if e.1 == t.stream then (e.1, e.2 + 1) else e) })

/-- The checks of a record's issue are parked on an extent entry, refused, so that they walk again (R190), or held by a far side. -/
def issueHeld (s : State) (m k : Nat) (t : TaskRec) (h : Hold) : State :=
  match h.kind with
  | .parked =>
    promote ((if t.parked.isNone then s.countCore k 8 1 else s).updRecord m t.n (fun u => { u with parked := some h.extent })) h.extent
  | .refused => s.updRecord m t.n (fun u => { u with parked := some 0 })
  | .answer => s.updRecord m t.n (fun u => { u with ask := askOf s u.ask h })
  | _ => s

/-- TASK_ISSUE (R348, R350, R351): the record of the stream served next goes to a free matrix engine, or faults before any
effect. -/
def execTaskIssue (mcb : Nat) (s0 : State) : Host.Outcome State Fault Refusal :=
  match (mcbAt s0 mcb).inv with
  | none => .next s0
  | some i0 =>
    if i0.halted || i0.stage != .running then .next s0 else
    let s := noteReady s0 mcb
    let i := i0.serve (readyStreams s0 mcb i0)
    match i.nextServed, freeEngine s mcb with
    | some stream, some k =>
      match headRecord s mcb i stream with
      | none => .next s
      | some u =>
        if u.parked.any (fun e => e != 0 && !extentUsable s e false) then .next s else
        let t := { u with edges := u.edges.join (mapGet EdgeSet.none i.taskEdges stream) }
        let s := { s with turn := k }
        match (issueRecord (recordWho s mcb k t) mcb t).run s with
        | .ok .notYet s1 => .next (noteReady (sawEmpty s1 mcb t) mcb)
        | .ok (.run edges caps ktiles hit saw) s1 =>
          let s2 := match saw with
            | none => s1
            | some (e, key, wordHit) => sawFull s1 mcb t e key wordHit
          .next (noteReady ((takenOut s2 mcb t).updCore k (fun c =>
            { c with mat := { c.mat with task := some (TaskCtx.begin { t with parked := none, ask := none } edges caps ktiles hit) } })) mcb)
        | .error (.fault f) s1 => .next (noteReady (
            if f.cls = 9 then recordStruck (takenOut s1 mcb t) k t 0 f.addr f.skid
            else taskFault (takenOut (rollBack s s1) mcb t) k t 0 f) mcb)
        | .error (.wait h) s1 => .next (issueHeld (rollBack s s1) mcb k u h)
        | .error (.hard f) _ => .fault f
    | _, _ => .next s

-- The run of a record (R349)

/-- Rows that one pass takes. -/
def passMost (e : W64) (kr : Nat) : Nat := if !entAsc e then 256 else if kr = 64 then 192 else 224

/-- The bias of a column: an open value, since a record names no slot (R347, R350). -/
def taskBiasAt (t : TaskRec) (n : Nat) : Option Num :=
  if epdBias t.epd then some (fp32.decode (Config.taskBias t.n n).toNat) else none

/-- What a micro-step of a task leaves. -/
inductive TaskProg where
  /-- The task goes on after a beat, which may have matched a watchpoint, or after a step that makes no access. -/
  | beat (t : TaskCtx) (hit : Option Nat)
  | still (t : TaskCtx)
  /-- A beat has matched a watchpoint and one further beat has performed (R423). -/
  | struck (t : TaskCtx) (hit : Option Nat)
  | done (t : TaskCtx)

/-- The rows of the present segment of a pass: new bank codes and saturations (R333, R349). -/
def taskSegment (m : MatrixState) (t : TaskCtx) (h : TileHdr) (j r1 : Nat) : Except Nat (List W32 × Nat) :=
  let e := t.task.fentry
  let da := t.aBuf.toArray
  let db := t.bBuf.toArray
  let fa := entFmt (entA e)
  let fb := entFmt (entB e)
  let base := aBase e j
  match tileRows h (m.tableAt h.table) db (t.used + t.passRows) (t.used + r1) with
  | .error seg => .error seg
  | .ok rows =>
    let rows := (rows.map (·.toArray)).toArray
    let out := reduceRows e (fun i n => fa.decode (codeAt da (base + 64 * i + n) 1)) (rowValue fb rows t.passRows)
      (fun g n => scaleOf (codeAt da (64 * g + n) 1)) (fun g n => scaleOf (codeAt db (32 + 64 * (t.used / 32 + g) + n) 1))
      r1 (r1 + 1) t.passRows ((bankWords t.bank).map (·.toNat), 0)
    .ok (out.1.map (BitVec.ofNat 32), out.2)

/-- A beat of a fill: the buffer with it, and a watchpoint's match. -/
def fillBeat (w : Who) (c : Cap) (at_ want : Nat) (buf : List Byte) : M (List Byte × Option Nat) := do
  let (bs, hit) ← taskRead w c (at_ + buf.length) (Min.min 64 (want - buf.length))
  return (buf ++ bs, hit)

/-- A beat of the fill of a B buffer with a tile of the record's block: the buffer, where the tile begins, and a match; nothing when it is full. -/
def fillTile (w : Who) (t : TaskCtx) (tile off : Nat) (buf : List Byte) : M (Option (List Byte × Nat × Option Nat)) := do
  let b := t.caps.getD 1 Cap.null
  if buf.isEmpty then
    let (off, hit) ← beatAfter (t.hit.map (·.toNat)) (tileOffset w b (t.task.jblk * t.ktiles + tile))
    let (bs, hit) ← beatAfter hit (taskRead w b off 32)
    return some (bs, off, hit)
  match readTileHdr t.task.fentry buf.toArray with
  | none => raise 4 0 0
  | some h =>
    if buf.length < 32 + h.bodylen then
      let (bs, hit) ← fillBeat w b off (32 + h.bodylen) buf
      return some (bs, off, hit)
    else return none

/-- Rows of the tile in the B buffer that the task takes. -/
def TaskCtx.tileRows (t : TaskCtx) (h : TileHdr) : Nat := Min.min h.kt (t.used + (t.task.k - t.rows) + t.passRows)

/-- Rows of the present pass. -/
def TaskCtx.pass (t : TaskCtx) (h : TileHdr) : Nat := Min.min (passMost t.task.fentry h.kr) (t.tileRows h - t.used)

/-- The buffers as they stand when a pass of j rows has ended: those of the next pass, and of the next tile, were filled meanwhile. -/
def TaskCtx.endPass (t : TaskCtx) (h : TileHdr) (j : Nat) : TaskCtx :=
  let u := { t with used := t.used + j, passRows := 0, panel := t.panel + aImage t.task.fentry j, aBuf := t.aNext, aNext := [] }
  if t.used + j < t.tileRows h then u
  else { u with tile := t.tile + 1, used := 0, bBuf := t.bNext, tileOff := t.nextOff, bNext := [], nextOff := 0 }

/-- The next beat that fills the other buffers while the present pass is reduced (R349): the next pass of the tile, else the next tile and its
first pass. Nothing where there is no more to fill. -/
def fillAhead (w : Who) (t : TaskCtx) (h : TileHdr) : M (Option (TaskCtx × Option Nat)) := do
  let e := t.task.fentry
  let a := t.caps.getD 0 Cap.null
  let j := t.pass h
  let rest := t.tileRows h - (t.used + j)
  let panel := t.panel + aImage e j
  let fillA := fun (n : Nat) => do
    if aImage e n ≤ t.aNext.length then return none
    let (bs, hit) ← fillBeat w a panel (aImage e n) t.aNext
    return some ({ t with aNext := bs }, hit)
  if 0 < rest then fillA (Min.min (passMost e h.kr) rest)
  else
    let left := t.task.k - t.rows - (j - t.passRows)
    if left = 0 then return none
    match ← fillTile w t (t.tile + 1) t.nextOff t.bNext with
    | some (bs, off, hit) => return some ({ t with bNext := bs, nextOff := off }, hit)
    | none =>
      match readTileHdr e t.bNext.toArray with
      | none => return none
      | some h' => fillA (Min.min (passMost e h'.kr) (Min.min h'.kt left))

/-- The task's writes that stand in the hoard log of the core whose engine runs it. -/
def taskParked (s : State) (w : Who) : Bool := (coreAt s w.core).hoard.any (fun h => h.who.agent == w.agent)

/-- The completion word is written and set full: a release, after the task's own hoarded stores, which enters the log itself where it
parks (R199, R224, R349). Its watchpoint match is that of a posted atomic-class access of the poster (R418). -/
def taskFill (w : Who) (t : TaskCtx) : M Unit := do
  let c := t.caps.getD 3 Cap.null
  let off := t.task.cwoff
  if taskParked (← get) w then waitOn .hoarded
  waitHoard w.core c.obj off 8
  orHoard w .fill c off (leBytes 8 t.task.tag) (do
    let out ← fillAt w c off (w64 t.task.tag) { write := true }
    match out.2 with
    | some (cls, sub) => raise cls sub off
    | none => strike t.task.core out.1)

/-- The next micro-step of a task: a beat of a fill, a segment, a row of its epilogue, the footer, the completion word, and its end once its parked
writes have performed (R124, R349). -/
def taskStep (t : TaskCtx) : M TaskProg := do
  let s ← get
  let k := s.turn
  let w := whoTask s k t
  let e := t.task.fentry
  let d := t.task.epd
  let a := t.caps.getD 0 Cap.null
  let c := t.caps.getD 2 Cap.null
  if t.rows < t.task.k then
    match ← fillTile w t t.tile t.tileOff t.bBuf with
    | some (bs, off, hit) => return .beat { t with bBuf := bs, tileOff := off } hit
    | none =>
    match readTileHdr e t.bBuf.toArray with
    | none => raise 4 0 0
    | some h =>
      -- a table that is still loading is waited for (R350)
      if !h.raw && (coreAt s k).mat.loading.getLsbD h.table then return .still t
      let j := t.pass h
      let image := aImage e j
      if t.aBuf.length < image then
        let (bs, hit) ← fillBeat w a t.panel image t.aBuf
        return .beat { t with aBuf := bs } hit
      let r1 := segmentRow true h.kr 256 j t.passRows
      match taskSegment (coreAt s k).mat t h j r1 with
      | .error seg => raise 4 1 seg
      | .ok (bank, sat) =>
        updCore (fun c => { c with mat := { c.mat with segments := c.mat.segments + 1 } })
        modify (fun s => countRows s k e h.kr (t.used + t.passRows) (t.used + r1))
        let u := { t with bank := bank, satc := Min.min (t.satc + sat) (2 ^ 32 - 1) }
        if r1 < j then return .still { u with rows := t.rows + (r1 - t.passRows), passRows := r1 }
        else return .still { u.endPass h j with rows := t.rows + (r1 - t.passRows) }
  else if t.epi = 0 then
    return .still { t with epi := 1, eb := ⟨(bankWords t.bank).map zext64, t.satc, 0, 0⟩ }
  else if t.epi ≤ epdRows d then
    let (eb, out) ← storeRow w t.task.eentry d (taskBiasAt t.task) c t.task.cstride t.eb (t.epi - 1) (t.hit.map (·.toNat))
    let u := { t with epi := t.epi + 1, eb := eb }
    return if out.skid = 1 then .struck (if out.whole then u else t) out.hit else .beat u out.hit
  else if t.epi = epdRows d + 1 then
    let hit ← epiWrite w true c (c.cur + epdRows d * t.task.cstride) (footerBytes t.eb)
    return .beat { t with epi := t.epi + 1 } hit
  else if t.epi = epdRows d + 2 && t.task.cen then
    if t.hit.isSome then return .done t
    taskFill w t
    return .still { t with epi := t.epi + 1 }
  else if taskParked s w && t.hit.isNone then waitOn .hoarded
  else return .done t

/-- A task has ended on core k; its stream's next record takes the edge from it alone (R352, R364). -/
def endTask (s : State) (k m : Nat) (t : TaskCtx) (ok : Bool) : State :=
  let g := EdgeSet.one (.task t.task.core (invSerial s k) t.task.n) 0
  let s := s.updCore k (fun c => { c with mat := { c.mat with task := none } })
  noteReady (if ok then s.updInv m (fun i => { i with taskEdges := mapPut i.taskEdges t.task.stream g }) else s) m

/-- Core k runs task t, as it stands. -/
def putTask (s : State) (k : Nat) (t : TaskCtx) : State := s.updCore k (fun c => { c with mat := { c.mat with task := some t } })

/-- A watchpoint's match ends a task, after as many further beats as SKID says (R418, R423). -/
def taskStruck (s : State) (k m : Nat) (t : TaskCtx) (a : W64) (skid : Nat) : State :=
  recordStruck (endTask s k m t false) k t.task t.stepNo a skid

/-- A task that holds on a parked page (R199), on a refused access, which walks again (R190), or on a far side (R434). -/
def holdTask (s : State) (k : Nat) (t : TaskCtx) (h : Hold) : State :=
  match h.kind with
  | .parked => promote (putTask (if t.parked.isNone then s.countCore k 8 1 else s) k { t with parked := some h.extent }) h.extent
  | .refused => putTask s k { t with parked := some 0 }
  | .answer => putTask s k { t with ask := askOf s t.ask h }
  | _ => s

/-- The task that core k runs may take a step: with its block. -/
def taskTurn (s : State) (k : Nat) : Option (TaskCtx × Nat) :=
  match (coreAt s k).mat.task, (coreAt s k).bound with
  | some t, some m =>
    if !enginesRun s k || t.parked.any (fun e => e != 0 && !extentUsable s e false) then none else some (t, m)
  | _, _ => none

/-- TASK_COMPLETE (R349): the next micro-step of the task that core k runs, up to its completion. After a match one further beat performs, whatever
steps without an access come before it, unless it has to wait or there is none (R423). -/
def execTaskComplete (core : Nat) (s0 : State) : Host.Outcome State Fault Refusal :=
  match taskTurn s0 core with
  | none => .next s0
  | some (t, m) =>
    let s := { s0 with turn := core }
    let struck := fun (s : State) (u : TaskCtx) (a : W64) (skid : Nat) => Host.Outcome.next (taskStruck s core m u a skid)
    match (taskStep { t with parked := none, ask := none }).run s, t.hit with
    | .ok (.beat u hit) s1, none => .next (putTask s1 core { u with hit := hit.map w64 })
    | .ok (.beat u _) s1, some a => struck s1 u a 1
    | .ok (.still u) s1, _ => .next (putTask s1 core u)
    | .ok (.struck u hit) s1, none => struck s1 u ((hit.map w64).getD 0) 1
    | .ok (.struck u _) s1, some a => struck s1 u a 1
    | .ok (.done u) s1, none => .next (endTask s1 core m u true)
    | .ok (.done _) s1, some a => struck (rollBack s s1) t a 0
    | .error (.fault f) s1, hit =>
      if f.cls = 9 then struck s1 t f.addr f.skid
      else
        match hit with
        | none => .next (taskFault (endTask s1 core m t false) core t.task t.stepNo f)
        | some a => struck (rollBack s s1) t a 0
    | .error (.wait h) s1, none => .next (holdTask (rollBack s s1) core t h)
    | .error (.wait _) s1, some a => struck (rollBack s s1) t a 0
    | .error (.hard f) _, _ => .fault f

/-- A beat of the fills that the reduction of the present pass overlaps (R349). One that waits or faults leaves nothing: the task meets it when it
comes to need the bytes. -/
def taskAhead (core : Nat) (s0 : State) : Host.Outcome State Fault Refusal :=
  match taskTurn s0 core with
  | none => .next s0
  | some (t, m) =>
    let s := { s0 with turn := core }
    match readTileHdr t.task.fentry t.bBuf.toArray with
    | none => .next s0
    | some h =>
      if t.hit.isSome || t.task.k ≤ t.rows || t.bBuf.length < 32 + h.bodylen || t.aBuf.length < aImage t.task.fentry (t.pass h) then .next s0
      else
        match (fillAhead (whoTask s core t) t h).run s with
        | .ok none _ => .next s0
        | .ok (some (u, hit)) s1 => .next (putTask s1 core { u with hit := hit.map w64 })
        | .error (.wait g) s1 => .next (if g.kind = .parked then promote (rollBack s s1) g.extent else rollBack s s1)
        | .error (.fault f) s1 => .next (if f.cls = 9 then taskStruck s1 core m t f.addr f.skid else rollBack s s1)
        | .error (.hard f) _ => .fault f

end Sys2Proof.Machine
end

