-- ==== Sys2Proof/Machine/Halt.lean ====
section
/-!
DEFINITION. The end of an invocation (R427, R45), kills (R393), the release of a halt (R387, R388), and the answers of the control
complex to a held plot (R392).
-/
namespace Sys2Proof.Machine

/-- What an invocation's retirement gives to those who observe it (R97): the edges of its threads, commands and tasks. -/
def retireEdges (s : State) (m : Nat) : EdgeSet :=
  let ofCore := (mcbAt s m).plot.foldl (fun g k =>
    let c := coreAt s k
    (c.doneEdges.map (·.2)).foldl EdgeSet.join ((g.join (threadEdges s k)).join c.edges)) EdgeSet.none
  match (mcbAt s m).inv with
  | none => ofCore
  | some i => (i.taskEdges.map (·.2)).foldl EdgeSet.join ofCore

/-- The stream of a LAUNCH learns that its invocation has ended, with its status code (R98). -/
def tellStream (s : State) (m : Nat) (e : QEntry) (status : Byte) (g : EdgeSet) : State :=
  match e.stream with
  | none => s
  | some n => s.updStream n (fun x =>
    if x.launched.contains (m, e.serial) then
      { x with launched := x.launched.filter (fun p => p != (m, e.serial)), retired := x.retired ++ [(m, e.serial, status, g)] }
    else x)

/-- The end of a block's invocation (R427, R45): its lanes are released, its reply is decided, its entry is popped, its save
run returns to the pool, and its cores are freed. -/
def finish (s : State) (m : Nat) (status : Byte) (failed : Bool) : State :=
  match (mcbAt s m).inv with
  | none => s
  | some i =>
    let plot := (mcbAt s m).plot
    let s := releaseLanes s m
    let s := tellStream (decideReply s m status []) m i.head status (retireEdges s m)
    let s := plot.foldl (fun s k => if (coreAt s k).bound = some m then s.updCore k Core.freed else s) s
    let s := match i.savePages with
      | none => s
      | some r => s.updPart (mcbAt s m).part.toNat (fun p => p.free ((List.range' r.1 r.2).map (fun g => (1, g))))
    s.updMcb m (fun b =>
      let rest := b.entries.tail
      { b with
        inv := none, saved := [], reserved := none, entries := rest, qhead := b.advance b.qhead
        state := if failed then 6 else if rest.isEmpty then 0 else 1 })

-- Retirement

/-- INVOCATION_RETIREMENT (R427): every core has retired, and every task that the plot posted has completed. -/
def execInvocationRetirement (m : Nat) (s : State) : Host.Outcome State Fault Refusal :=
  match (mcbAt s m).inv with
  | none => .next s
  | some i =>
    let plot := (mcbAt s m).plot
    if i.stage == .running && i.kill.isNone && !plot.isEmpty && plot.all (fun k => (coreAt s k).retired) && i.tasks.isEmpty &&
       plot.all (fun k => (coreAt s k).mat.task.isNone)
    then .next (finish s m 0x07 false)
    else .next s

-- Kill

/-- Waits of a plot that a kill or a fence ends write their records (R410, OUT 2). -/
def endWaits (s : State) (m : Nat) : State :=
  let s := (mcbAt s m).plot.foldl (fun s k =>
    let s := dropHold s s k 2
    let s := (coreAt s k).hoard.foldl (fun s h => endHoardWait s s k 2 h) s
    (coreAt s k).cmds.foldl (fun s x => endCmdWaits s k x 2) s) s
  match (mcbAt s m).inv with
  | none => s
  | some i => i.tasks.foldl (fun s t =>
    if t.wen && !t.seen && t.since != 0 then
      match (taskEntry (whoSower s m) m t.sidx).run s with
      | .ok (c, _) _ =>
        match (resolve (whoSower s m) c.obj c.sp t.wwoff { write := false }).run s with
        | .ok r _ => pushWait s (mcbAt s m).part.toNat (waitRecordBytes s.pt (cyclesOf s t.core (s.pt - t.since)) agentNone
            (agentId 5 t.core t.n 0) 4 2 (flagOf r.key))
        | .error _ _ => s
      | .error _ _ => s
    else s) s

/-- The word of core k that has been sent goes on whatever halts the plot (R386): a far side answers it, or it has read some of its pieces. -/
def confirmed (s : State) (k : Nat) : Bool :=
  match (coreAt s k).hold with
  | none => false
  | some h => h.word.isSome && (h.kind == .pieces || (h.kind == .answer && !silent s h.flag 1))

/-- An access that was sent to a far side stands unanswered. -/
def Ask.stands (s : State) (a : Option Ask) : Bool := a.any (fun a => silent s a.key 1)

/-- Core k has accesses on their way: to a far side that does not answer, at a controller's input, or in the fabric. -/
def awaitsFar (s : State) (k : Nat) : Bool :=
  let c := coreAt s k
  c.hold.any (fun h => h.kind == .answer && silent s h.flag 1) || !c.flight.isEmpty || s.switch.any (fun e => e.ofCore k) ||
  c.cmds.any (fun x => Ask.stands s x.ask) || c.mat.task.any (fun t => Ask.stands s t.ask)

/-- The read-modify-write of an atomic word that has been sent. -/
def sentAtomic (i : Instr) : M Unit := do
  match i with
  | .amo _ _ a b w o =>
    let c ← readC a
    let n := atomicBytes w
    let v := (← readS b).toNat % 2 ^ (8 * n)
    let _ ← atomic c o.toNat n (fun m => some (atomicOp o.toNat n m v))
  | .amoCas _ d a b w =>
    let n := atomicBytes w
    let e := (← readS d).toNat % 2 ^ (8 * n)
    let c ← readC a
    let v := (← readS b).toNat % 2 ^ (8 * n)
    let _ ← atomic c 9 n (fun m => if m = e then some v else none)
  | _ => pure ()

/-- What memory holds after a step, and nothing else of it. -/
def keepMemory (s t : State) : State :=
  { s with mem := t.mem, tags := t.tags, stamps := t.stamps, marks := t.marks, writes := t.writes, enc := t.enc, counts := t.counts }

/-- A sent word of core k lands as its plot is killed: its result is discarded (R393). -/
def landSent (s : State) (k : Nat) : State :=
  match (coreAt s k).hold with
  | none => s
  | some h =>
    let answered := (coreInv s k).any (fun i => i.awaiting.any (fun a => a.1 == k && a.2.isSome))
    if !confirmed s k then s else if answered then dropHold s s k 1 else
    match (sentAtomic h.ins).run { s with turn := k } with
    | .ok _ t => dropHold s (keepMemory s t) k 1
    | .error _ _ => dropHold s s k 1

/-- KILL_COMPLETE (R393): the last access in flight has landed; the records of its cut go to the kill ring,
and the cores are freed. -/
def execKillComplete (m : Nat) (s : State) : Host.Outcome State Fault Refusal :=
  match (mcbAt s m).inv with
  | none => .next s
  | some i =>
    match i.kill with
    | none => .next s
    | some status =>
      if (mcbAt s m).plot.any (awaitsFar s) then .next s
      else
        let s := endWaits ((mcbAt s m).plot.foldl landSent s) m
        .next (finish (s.updRings (mcbAt s m).part.toNat (fun p => p.pushKill i.killRecords)) m status false)

-- Halts

/-- A core's first report has a route, and it may be taken. -/
def firstRoute (s : State) (m k : Nat) : Option Nat :=
  if (coreAt s k).bound = some m && !(coreAt s k).th.h then (coreAt s k).pending.head?.map (fun f => routeOf s m f.cls) else none

/-- HALT_RELEASE (R387): every agent has stopped. Each core with a report under route code 0 enters its handler, and the others
go on. -/
def execHaltRelease (m : Nat) (s : State) : Host.Outcome State Fault Refusal :=
  match (mcbAt s m).inv with
  | none => .next s
  | some i =>
    if !i.faultHalt || i.held || i.debugStop || i.kill.isSome || i.preempt != .none then .next s
    else
      let s := s.updInv m (fun i => { i with faultHalt := false })
      .next ((mcbAt s m).plot.foldl (fun s k => if firstRoute s m k = some 0 then takeReport s k else s) s)

/-- Everything of core k that is parked is sent again at its next turn (R201). -/
def replayCore (s : State) (k : Nat) : State :=
  s.updCore k (fun c => { c with
    hoard := c.hoard.map (fun h => { h with extent := 0 })
    cmds := c.cmds.map (fun x => { x with parked := x.parked.map (fun _ => 0) })
    hold := c.hold.map (fun h => if h.kind = .parked then { h with until_ := 1 } else h)
    mat := { c.mat with task := c.mat.task.map (fun t => { t with parked := t.parked.map (fun _ => 0) }) } })

/-- Parked accesses of a block's plot are sent again. -/
def replayPlot (s : State) (m : Nat) : State :=
  ((mcbAt s m).plot.foldl replayCore s).updInv m (fun i =>
    { i with tasks := i.tasks.map (fun t => { t with parked := t.parked.map (fun _ => 0) }) })

/-- The control complex has answered for the first report of core k, where its route is code 1: it goes, or the handler takes it. Those after it stay
pending (R388). -/
def clearHeld (s : State) (m : Nat) (enter : Bool) (k : Nat) : State :=
  if firstRoute s m k = some 1 then
    if enter then takeReport s k else s.updCore k (fun c => { c with pending := c.pending.tail })
  else s

/-- Reports that are due halt a plot: one under route code 2 that came while its context was SUSPENDED kills; the others are held for the control
complex, or until a handler takes them (R385, R398). -/
def haltForReports (s : State) (m : Nat) : State :=
  let plot := (mcbAt s m).plot
  let dies := fun (k : Nat) => (coreAt s k).bound = some m && (coreAt s k).pending.any (fun f => routeOf s m f.cls == 2)
  if (mcbAt s m).inv.any (·.kill.isSome) then s
  else if plot.any dies then startKill s m 0x05
  else if plot.any (fun k => firstRoute s m k == some 1) then
    (s.updInv m (fun i => { i with held := true })).updRings (mcbAt s m).part.toNat (fun p => p.pushFault (plotRecords s m 0))
  else if plot.any (fun k => firstRoute s m k == some 0) then s.updInv m (fun i => { i with faultHalt := true })
  else s

/-- A plot that stood for the control complex goes on from its stop records (R392, R415). Of a held plot each core's first report has its answer;
reports that are still due halt it again. -/
def resumePlot (s : State) (m : Nat) (enter : Bool) : State :=
  let held := (mcbAt s m).inv.any (·.held)
  let s := s.updInv m (fun i => { i with held := false, debugStop := false })
  let s := if held then (mcbAt s m).plot.foldl (fun s k => clearHeld s m enter k) s else s
  replayPlot (haltForReports s m) m

end Sys2Proof.Machine
end

