-- ==== Sys2Proof/Machine/Sower.lean ====
section
/-!
DEFINITION. Placement and binding: the free-plot search with its victims (R105 to R110), binding and register preload (R92,
R53), the first fetch (R86), decoder-table loads (R93), and the request of a pre-emption (R395, R399, R465).
-/
namespace Sys2Proof.Machine

-- Requests of pre-emption

/-- Every core of the plot has retired or is draining its exit (R399). -/
def drainsOnly (s : State) (m : Nat) : Bool :=
  (mcbAt s m).plot.all (fun k => (coreAt s k).retired || (coreAt s k).hold.any (fun h => h.kind == .drain))

/-- The run of the save pool that a block's plot would take (R465). -/
def saveRun (s : State) (m : Nat) : Option (Nat × Nat) :=
  let p := partAt s (mcbAt s m).part.toNat
  let n := saveMaxPages (mcbAt s m).plot.length
  (findRun p.used 1 p.savePool n).map (fun b => (b, n))

/-- A pre-emption is requested and its save run is taken (R395); where the plot only drains, it is a wait for retirement and no
save is made (R399). -/
def requestPreempt (s : State) (m : Nat) : Option State :=
  match saveRun s m with
  | none => none
  | some r =>
    let s := s.updMcb m (fun b => { b with state := 4 })
    if drainsOnly s m then some s
    else
      let s := stopEngines (s.updInv m (fun i => { i with preempt := .stop, stopAt := s.pt, savePages := some r })) m
      some (s.updPart (mcbAt s m).part.toNat (fun p => p.take 1 (List.range' r.1 r.2)))

-- The search

/-- An entry put before the first entry that does not precede it. -/
def insertBy {α : Type} (le : α → α → Bool) (a : α) : List α → List α
  | [] => [a]
  | b :: l => if le a b then a :: b :: l else b :: insertBy le a l

/-- A list in order. -/
def sortedBy {α : Type} (le : α → α → Bool) (l : List α) : List α := l.foldr (insertBy le) []

/-- What the Sower looks at in a partition, in the order of R106: the queued heads that hold no reservation, and SUSPENDED
contexts; with priority, arrival, block, and whether it is suspended. -/
def candidates (s : State) (part : BitVec 4) : List (Nat × Nat × Nat × Bool) :=
  let all := s.mcbs.filterMap (fun e =>
    if !e.2.v || e.2.part != part || e.2.reserved.isSome then none
    else if e.2.state = 1 then e.2.entries.head?.map (fun q => (e.2.prio.toNat, q.arrived, e.1, false))
    else if e.2.state = 5 then e.2.inv.map (fun i => (i.prio.toNat, i.head.arrived, e.1, true))
    else none)
  sortedBy (fun a b => decide (b.1 < a.1) || (a.1 == b.1 && (decide (a.2.1 < b.2.1) || (a.2.1 == b.2.1 && decide (a.2.2.1 ≤ b.2.2.1))))) all

/-- The free plot of R105 for an entry of block m. -/
def freePlot (s : State) (m p : Nat) : Option (Nat × Nat) :=
  let b := mcbAt s m
  (origins b.wlog.toNat b.hlog.toNat).find? (fun o =>
    placeable s b.part o.1 o.2 b.wlog.toNat b.hlog.toNat && (plotCores o.1 o.2 b.wlog.toNat b.hlog.toNat).all (coreFree s m p))

/-- The victim of R108 for an entry of block m of priority p, with the plot that it clears. -/
def victim (s : State) (m p : Nat) : Option (Nat × Nat × Nat) :=
  let b := mcbAt s m
  let fits := fun (v : Mcb) => (origins b.wlog.toNat b.hlog.toNat).find? (fun o =>
    placeable s b.part o.1 o.2 b.wlog.toNat b.hlog.toNat &&
    (plotCores o.1 o.2 b.wlog.toNat b.hlog.toNat).all (fun k =>
      v.plot.contains k && !reservedCore s m k && !heldCore s m p k || coreFree s m p k))
  let cands := s.mcbs.filterMap (fun e =>
    match e.2.inv with
    | none => none
    | some i =>
      if e.2.state = 3 && e.2.part = b.part && decide (i.prio.toNat < p) then
        (fits e.2).map (fun o => (i.prio.toNat, i.fetchedAt, e.1, o))
      else none)
  let best := sortedBy (fun a b => decide (a.1 < b.1) || (a.1 == b.1 && (decide (a.2.1 < b.2.1) || (a.2.1 == b.2.1 && decide (a.2.2.1 ≤ b.2.2.1))))) cands
  best.head?.map (fun c => (c.2.2.1, c.2.2.2.1, c.2.2.2.2))

/-- A new invocation for the head entry of a block, at a plot. -/
def newInv (b : Mcb) (e : QEntry) (ox oy : Nat) : Inv :=
  { serial := e.serial, stage := .preload, head := e, ox := ox, oy := oy, bindings := 0, fetchedAt := 0, cntthr := b.cntthr,
    prio := b.prio, wdt := 0, ladder := .count, reply := .due, replied := false, faultHalt := false, held := false,
    debugStop := false, kill := none, killRecords := [], stopAt := 0, preempt := .none, awaiting := [], bump := [],
    passEdges := [], slabEdges := [], nextTask := 0, tasks := [], service := [], lastServed := 0, waiting := [],
    taskEdges := [], savePages := none }

/-- The Sower holds a plot for a block: BINDING (R45). A PRIO or CNTTHR written meanwhile takes effect (R44). -/
def startBinding (s : State) (m ox oy : Nat) : State :=
  let b := mcbAt s m
  let inv := match b.inv with
    | some i => some { i with stage := .restore, prio := b.prio, cntthr := b.cntthr }
    | none => b.entries.head?.map (fun e => newInv b e ox oy)
  let s := s.updMcb m (fun b => { b with state := 2, reserved := none, inv := inv })
  (mcbAt s m).plot.foldl (fun s k => s.updCore k (fun c => { c with bound := some m })) s

/-- The first thing that the search can do for what it looks at, in order: a head that neither finds a plot nor a victim blocks
the heads after it (R106). -/
def searchFrom (s : State) (blocked : Bool) : List (Nat × Nat × Nat × Bool) → State
  | [] => s
  | (p, _, m, suspended) :: rest =>
    let b := mcbAt s m
    if suspended then
      match b.inv with
      | none => searchFrom s blocked rest
      | some i =>
        if placeable s b.part i.ox i.oy b.wlog.toNat b.hlog.toNat && b.plot.all (coreFree s m (p + 1)) then startBinding s m i.ox i.oy
        else searchFrom s blocked rest
    else if blocked then searchFrom s blocked rest
    else
      match freePlot s m p with
      | some o => startBinding s m o.1 o.2
      | none =>
        match victim s m p with
        | none => searchFrom s true rest
        | some (v, ox, oy) =>
          match requestPreempt s v with
          | none => searchFrom s true rest
          | some t => t.updMcb m (fun b => { b with reserved := some (ox, oy, v) })

/-- A reserved entry whose victim has left PRE-EMPTING (R109). -/
def reservedReady (s : State) (part : BitVec 4) : Option (Nat × Nat × Nat) :=
  s.mcbs.findSome? (fun e =>
    match e.2.reserved with
    | some (ox, oy, v) => if e.2.part == part && (mcbAt s v).state != 4 then some (e.1, ox, oy) else none
    | none => none)

/-- FREE_PLOT_SEARCH (R105 to R109) in one partition. A reserved entry binds without a second search (R355); where a fence has
taken its plot, or an island of it has lost its power, it looks again. -/
def execFreePlotSearch (part : Nat) (s : State) : Host.Outcome State Fault Refusal :=
  .next (
    if !s.rdy.getLsbD 36 || (partAt s part).frozen then s
    else
      let p := BitVec.ofNat 4 part
      match reservedReady s p with
      | some (m, ox, oy) =>
        let b := mcbAt s m
        let cores := plotCores ox oy b.wlog.toNat b.hlog.toNat
        if b.state = 1 && placeable s p ox oy b.wlog.toNat b.hlog.toNat && cores.all (fun k => (coreAt s k).bound.isNone && (islandAt s (islandOf k)).powered) then
          startBinding s m ox oy
        else s.updMcb m (fun b => { b with reserved := none })
      | none => searchFrom s false (candidates s p))

-- Binding

/-- The Sower walks to pages of an object: each has entries that pass R183 and R184 and is not revoked (R53). A page that is arriving is not a
failure. -/
def pagesReadable (w : Who) (c : Cap) : List (Nat × Nat) → M Bool
  | [] => pure true
  | p :: rest => do
    let ok ← tryCatch (do
      let _ ← resolve w c.obj c.sp p.1 { write := false }
      return true) (fun e => match e with
        | .wait _ => pure true
        | _ => pure false)
    if ok then pagesReadable w c rest else return false

/-- Capabilities of a block are readable at its binding (R53). -/
def capsReadable (w : Who) : List Cap → M Bool
  | [] => pure true
  | c :: rest => do
    if !c.valid then return false
    if ← pagesReadable w c (pagePieces (pageFuel (c.hi - c.lo)) c.lo (c.hi - c.lo)) then capsReadable w rest else return false

/-- INIT holds an initial state: it is tagged and its SIZE is not 0 (R53). -/
def hasInit (b : Mcb) : Bool := b.init.valid && b.init.len != 0

/-- n bytes of INIT at an offset of its object, as the Sower reads them through the block's table. -/
def sowerRead (w : Who) (c : Cap) (off n : Nat) : M (List Byte) := do
  let ps ← resolveAll w c.obj c.sp { write := false } (pagePieces (pageFuel n) off n)
  return (← readPieces w false .read c.obj ps).1

/-- What a binding reads (R53): its capabilities are readable, and of an INIT that holds a state the format table and DTV are read, 129 bytes;
none where the binding fails. The line of DTV fails a binding as those of the format table do (DESIGN CHOICE: R53 names the latter alone). -/
def bindRead (s : State) (m : Nat) : M (Option (List Byte)) := do
  let b := mcbAt s m
  let w := whoSower s m
  let init := if hasInit b then [b.init] else []
  if ← capsReadable w ([b.image, b.captab, b.objtab, b.queue] ++ init) then
    if hasInit b then
      tryCatch (return some (← sowerRead w b.init b.init.lo 129)) (fun e => match e with
        | .fault _ => pure none
        | e => throw e)
    else return some []
  else return none

/-- c1 at binding: the invocation's own queue entry (R92). -/
def entryCap (b : Mcb) : Cap :=
  let n := b.qhead.toNat % b.entriesN
  ⟨(mkCap b.queue.obj spGSRAM (permLD ||| permST ||| permENG) 8 n 1 (4096 * n)).bits, true⟩

/-- The thread of core k at a binding (R92, R129, R70). -/
def boundThread (b : Mcb) (e : QEntry) (k : Nat) (fmt : List Byte) : Thread :=
  let t := { Thread.reset with
    pc := w64 (4 * b.entry.toNat), prio := b.prio, handler := b.handler, codecap := b.image, captab := b.captab,
    objtab := b.objtab, vseed := seedAt k, eseed := seedAt k,
    fmt := (List.range 16).foldl (fun f i => mapSet 0 f i (w64 (leNat ((fmt.drop (8 * i)).take 8)))) [] }
  { (((t.setS 1 (descArg e.desc)).setS 2 (w64 (descPlen e.desc))).setS 3 (w64 (descKind e.desc))).setC 1 (entryCap b) with wrote := 0 }

/-- Core k as a binding leaves it: its registers preloaded, the decoder tables of DTV still to load (R92, R93), and the fork
edges of its entry (R97). -/
def boundCore (b : Mcb) (m : Nat) (e : QEntry) (k : Nat) (init : List Byte) (c : Core) : Core :=
  let dtv : BitVec 4 := BitVec.ofNat 4 ((init.getD 128 0).toNat % 16)
  { c.freed with
    bound := some m, th := boundThread b e k init, edges := e.edges, mat := { MatrixState.reset with loading := dtv, dtInit := dtv } }

/-- Core k is preloaded. -/
def preload (s : State) (m : Nat) (e : QEntry) (init : List Byte) (k : Nat) : State :=
  s.updCore k (boundCore (mcbAt s m) m e k init)

/-- A binding fails (R45, R53): the head entry is answered FAILED. -/
def failBinding (s : State) (m : Nat) : State := finish s m 0x02 true

/-- BIND_AND_REGISTER_PRELOAD (R92, R53). -/
def execBindAndRegisterPreload (m : Nat) (s : State) : Host.Outcome State Fault Refusal :=
  let b := mcbAt s m
  match b.inv with
  | none => .next s
  | some i =>
    if i.stage != .preload || b.state != 2 then .next s
    else
      match (bindRead s m).run s with
      | .ok none s => .next (failBinding s m)
      | .ok (some init) s =>
        .next ((b.plot.foldl (fun s k => preload s m i.head init k) s).updInv m (fun i => { i with stage := .fetch }))
      | .error (.hard f) _ => .fault f
      | .error _ s => .next s

-- The first fetch

/-- Bytes that the access of a word which waits for an answer reads. -/
def answerBytes (i : Instr) : Nat :=
  match i with
  | .ld _ _ _ sz _ => sizeOfCode sz.toNat
  | .ldx _ _ _ _ _ w => sizeOfCode w.toNat
  | .amo _ _ _ _ w _ => atomicBytes w
  | .amoCas _ _ _ _ w => atomicBytes w
  | _ => 16

/-- The word that core k awaited an answer for takes the bytes of its access, which follow those that it has read (R397): a capability load
completes with them, and another goes on when the thread issues. -/
def takeAnswer (s : State) (k : Nat) (v : BitVec 128) : State :=
  match (coreAt s k).hold with
  | none => s
  | some h =>
    let put := fun (d : BitVec 5) =>
      completeWord (s.updCore k (fun c => { c with hold := none, th := c.th.setC d.toNat ⟨v, false⟩ })) k .seq
    match h.ins with
    | .ldc _ d _ _ => put d
    | .ctab _ d _ => put d
    | _ => s.updCore k (fun c => { c with hold := some { h with kind := .pieces, got := (h.got ++ leBytes 16 v.toNat).take (answerBytes h.ins) } })

/-- One decoder table is read from INIT (R93). -/
def readTable (s : State) (m t : Nat) : M (List W32) := do
  let c := (mcbAt s m).init
  return wordsOf 4096 (← sowerRead (whoSower s m) c (c.lo + 256 + 16384 * t) 16384)

/-- The next table that core k loads from INIT. -/
def nextTable (s : State) (k : Nat) : Option Nat := (List.range 4).find? (coreAt s k).mat.loading.getLsbD

/-- The table that core k loads is parked: its load is a replay entry (R396). -/
def tableParked (s : State) (m k : Nat) : Bool :=
  (nextTable s k).any (fun t => match (readTable s m t).run s with
    | .error (.wait _) _ => true
    | _ => false)

/-- A resumed core of block m still has something to do before the first fetch (R404, R397): a replay entry that has not been sent again, or a posted
write or contribution of its invocation that is not answered. -/
def resumes (s : State) (m serial k : Nat) : Bool :=
  let c := coreAt s k
  (List.zip (List.range c.hoard.length) c.hoard).any (fun p => p.2.extent == 0 && p.2.held.isNone && hoardFirst c p.1 p.2) ||
  c.hold.any (fun h => h.kind == .parked && h.until_ == 1) || (c.mat.loading != 0 && !tableParked s m k) ||
  c.flight.any (fun f => f.serial == serial) ||
  s.switch.any (fun e => e.ofCore k && e.first.who.agent.family.any (fun f => f.2 == serial))

/-- FIRST_FETCH (R86, R356, R404): the block becomes BOUND and its watchdog counts. The Sower's write of the entry has performed (R185, R362). A
resumed context first sends its replay entries again and has every answer that it awaits; its save run returns to the pool (R465), and it keeps the
count of bindings of its invocation's first fetch (R369). -/
def execFirstFetch (m : Nat) (s : State) : Host.Outcome State Fault Refusal :=
  match (mcbAt s m).inv with
  | none => .next s
  | some i =>
    if i.stage != .fetch || (mcbAt s m).state != 2 || i.awaiting.any (fun a => a.2.isNone) ||
       s.sowerLog.any (fun e => e.1 == m && e.2.1 == (mcbAt s m).qhead.toNat) || (mcbAt s m).plot.any (resumes s m i.serial)
    then .next s
    else
      let s := i.awaiting.foldl (fun s a => match a.2 with
        | some v => takeAnswer s a.1 v
        | none => s) s
      let s := match i.savePages with
        | none => s
        | some r => s.updPart (mcbAt s m).part.toNat (fun p => p.free ((List.range' r.1 r.2).map (fun g => (1, g))))
      let s := { s with bindings := s.bindings + 1 }
      let s := s.updMcb m (fun b => { b with state := 3, saved := [] })
      let s := s.updInv m (fun i => { i with
        stage := .running, bindings := if i.bindings = 0 then s.bindings else i.bindings, fetchedAt := s.pt, awaiting := []
        savePages := none })
      .next (haltForReports s m)

-- Decoder tables

/-- Tables go on loading while accesses land for a pre-emption (R396). A load that was parked at the save is a replay entry, which is sent again before
the first fetch of the resume (R404). -/
def loadsTables (i : Inv) : Bool :=
  (i.stage == .running && (!i.halted || (i.preempt == .stop && i.kill.isNone))) || (i.stage == .fetch && i.savePages.isSome)

/-- DECODER_TABLE_INIT_LOAD (R93, R53): table dt of core k, in the order dt0 to dt3. A line that fails leaves it invalid and is
reported as a fault of the matrix engine. -/
def execDecoderTableInitLoad (core : Nat) (dt : BitVec 2) (s : State) : Host.Outcome State Fault Refusal :=
  match (coreAt s core).bound with
  | none => .next s
  | some m =>
    if !(mcbAt s m).inv.any loadsTables || nextTable s core != some dt.toNat then .next s
    else
      let off := fun (s : State) => s.updCore core (fun c =>
        { c with mat := { c.mat with loading := c.mat.loading &&& ~~~((1 : BitVec 4) <<< dt.toNat) } })
      match (readTable s m dt.toNat).run s with
      | .ok l s => .next ((off s).updCore core (dtabDone dt l))
      | .error (.fault f) s => .next (report (off s) core { f with imp := true, eng := some engME, order := 2 })
      | .error (.wait _) s => .next s
      | .error (.hard f) _ => .fault f

end Sys2Proof.Machine
end

