-- ==== Sys2Proof/Machine/Image.lean ====
section
/-!
DEFINITION. The save image of a pre-empted context (R400 to R403, R424): which regions of a core are in it, their content and coding, the core
and plot headers, and where everything lies.
-/
namespace Sys2Proof.Machine

-- The regions of a core image (R402)

/-- Accesses of core k that become replay entries before those that await an answer, in the order of region 30 (R396, R401): the hoard log, a parked
load, and a table load that is parked with those behind it. -/
def parkedEntries (c : Core) : Nat :=
  c.hoard.length + (if c.hold.any (fun h => h.kind == .parked) then 1 else 0) + ((List.range 4).filter c.mat.loading.getLsbD).length

/-- All replay entries of core k: its word and its posted writes may await an answer. -/
def replayEntries (c : Core) : Nat := parkedEntries c + (if c.hold.any (fun h => h.kind == .answer) then 1 else 0) + c.flight.length

/-- Region r of a core holds something else than at its binding, as core b (R403, R424). -/
def regionDiffers (c b : Core) (r : Nat) : Bool :=
  let t := c.th
  match r with
  | 1 => t.c != b.th.c || t.handler != b.th.handler || t.hcap != b.th.hcap || t.hcode != b.th.hcode || c.btrack != b.btrack ||
      c.edges != b.edges
  | 2 => c.qin != b.qin || c.qv != b.qv || c.qc != b.qc || c.qi != b.qi || c.chains != b.chains || c.cmds != b.cmds ||
      c.posted != b.posted || c.seqs != b.seqs || c.om != b.om
  | 3 => c.vec.x != b.vec.x || c.vec.m != b.vec.m || c.vec.wb != b.vec.wb || c.vec.cm != b.vec.cm || c.vec.vovf != b.vec.vovf ||
      c.vec.vnanc != b.vec.vnanc || t.vseed != b.th.vseed
  | 4 => c.vec.v != b.vec.v
  | 21 => c.mat.acc0 != b.mat.acc0 || c.mat.satc0 != b.mat.satc0
  | 22 => c.mat.acc1 != b.mat.acc1 || c.mat.satc1 != b.mat.satc1
  | 23 => c.mat.eb != b.mat.eb
  | 24 => c.mat.mseg != b.mat.mseg || t.fmt != b.th.fmt || t.eseed != b.th.eseed || c.mat.dtv != b.mat.dtv
  | 25 | 26 | 27 | 28 => (mapFind c.mat.dt (r - 25)).isSome
  | 30 => replayEntries c != 0
  | _ => false

/-- Region r of core k is in the image (R403): it has been written since binding, as its writers have noted or as it differs from its binding value. A
slot that is not EMPTY has been written. What INIT loaded counts as written (R424), as do the counters, which count from binding on. -/
def regionSaved (s : State) (m : Nat) (e : QEntry) (k r : Nat) : Bool :=
  let c := coreAt s k
  if 5 ≤ r ∧ r ≤ 20 then (c.slot (r - 5)).state != .empty
  else
    r == 0 || r == 29 || r == 31 || (c.th.wrote ||| c.vec.wrote ||| c.mat.wrote).getLsbD r || (r == 2 && !c.portSetter.isEmpty) ||
    (r == 24 && hasInit (mcbAt s m)) || (decide (25 ≤ r) && decide (r ≤ 28) && c.mat.dtInit.getLsbD (r - 25)) ||
    regionDiffers c (boundCore (mcbAt s m) m e k [] c) r

/-- n bytes of a region whose layout is not given. -/
def openRegion (save k r n : Nat) : List Byte := (List.range n).map (Config.imageByte save k r)

/-- Bytes filled up with zero. -/
def zeroPad (n : Nat) (bs : List Byte) : List Byte := bs ++ List.replicate (n - bs.length) 0

/-- A bank with its saturation count, which follows it. -/
def bankBytes (words : List W32) (satc : Nat) : List Byte :=
  zeroPad 16384 (words.flatMap (fun w => leBytes 4 w.toNat)) ++ leBytes 64 satc

/-- The stop records of region 31: of pending reports, each after a report of open layout, and of the core's agents with the lanes that it holds, each
with its copy of package time at the stop (R391, R398). -/
def recordRegion (s : State) (m save k : Nat) : List Byte :=
  let c := coreAt s k
  let since := s.pt - ((mcbAt s m).inv.map (·.stopAt)).getD s.pt
  let lanes := (heldLanes s m).filter (fun l => (laneAt s l).holder.map (·.2) == some k)
  let own := threadRecord s k 2 :: (List.range 4).map (fun e => engineRecord s k (BitVec.ofNat 2 e) 2) ++
    c.mat.task.toList.map (fun t => taskRecord s k t 2) ++ lanes.map (fun l => laneRecord s l 2)
  let reports := (List.zip (List.range c.pending.length) c.pending).flatMap (fun p =>
    openRegion save k (33 + p.1) 128 ++ (reportRecord s k p.2).bytes)
  reports ++ own.flatMap (fun r => { r with pt := r.pt - since }.bytes)

/-- The raw bytes of region r (R402). The vector registers stand register by register, lane by lane (DESIGN CHOICE: R402 gives the size alone). -/
def regionBytes (s : State) (m save k r : Nat) : List Byte :=
  let c := coreAt s k
  match r with
  | 0 => openRegion save k r 1024
  | 1 => openRegion save k r (Config.saveLen save k % 262144)
  | 2 => openRegion save k r 8192
  | 3 => openRegion save k r 2048
  | 4 => (List.range 512).flatMap (fun n => zeroPad 512 ((mapGet [] c.vec.v n).flatMap (fun w => leBytes 4 w.toNat)))
  | 21 => bankBytes c.mat.acc0 c.mat.satc0
  | 22 => bankBytes c.mat.acc1 c.mat.satc1
  | 23 => openRegion save k r 32832
  | 24 => openRegion save k r 256
  | 25 | 26 | 27 | 28 => zeroPad 16384 ((mapGet [] c.mat.dt (r - 25)).flatMap (fun w => leBytes 4 w.toNat))
  | 29 => openRegion save k r 256
  | 30 => openRegion save k r (128 * replayEntries c)
  | 31 => recordRegion s m save k
  | _ => zeroPad 16384 (c.slot (r - 5)).data

-- Coding (R403)

/-- Tokens of the kinds that an image may hold: literal, zero run and repeat. -/
def imageKinds : Nat → List Byte → Bool
  | 0, _ => false
  | _, [] => true
  | fuel + 1, t :: rest =>
    match t.toNat / 64 with
    | 0 => imageKinds fuel (rest.drop (t.toNat % 64 + 1))
    | 1 => imageKinds fuel (rest.drop 1)
    | 2 => imageKinds fuel (rest.drop 2)
    | _ => false

/-- Literal tokens of 64 bytes. -/
def literalTokens : Nat → List Byte → List Byte
  | 0, _ => []
  | _, [] => []
  | fuel + 1, bs => BitVec.ofNat 8 ((bs.take 64).length - 1) :: bs.take 64 ++ literalTokens fuel (bs.drop 64)

/-- The tokens of a chunk: those that the part picks, where they are a coding of it, and else literals. -/
def imageChunk (raw : List Byte) : List Byte :=
  let t := Config.imageTokens raw
  let fits := imageKinds (t.length + 1) t && decide (1 ≤ t.length ∧ t.length ≤ 65536) &&
    (match decodeTokens raw.length (t.length + 1) 0 t 0 [] with | .ok out => out == raw.reverse | .error _ => false)
  if fits then t else literalTokens (raw.length / 64 + 1) raw

/-- A coded region: chunks of 32,768 raw bytes, the last one shorter, each after its length (DESIGN CHOICE: R403 bounds a chunk and does not fix
its size). -/
def codeRegion : Nat → List Byte → List Byte
  | 0, _ => []
  | _, [] => []
  | fuel + 1, raw =>
    let t := imageChunk (raw.take 32768)
    leBytes 4 t.length ++ t ++ codeRegion fuel (raw.drop 32768)

/-- The bytes that are stored of region r, and whether they are coded: the vector region always is, and another where that is shorter. -/
def storedRegion (r : Nat) (raw : List Byte) : Bool × List Byte :=
  let z := codeRegion (raw.length / 32768 + 1) raw
  if r == 4 || decide (z.length < raw.length) then (true, z) else (false, raw)

-- Core images and the plot image

def roundTo64 (n : Nat) : Nat := (n + 63) / 64 * 64

/-- A region in a core image: its number, where it begins, whether it is coded, and its stored bytes. -/
abbrev PlacedRegion := Nat × Nat × Bool × List Byte

/-- Regions laid out from an offset on, each on a 64-byte boundary (R401). -/
def placeRegions : Nat → List (Nat × Bool × List Byte) → List PlacedRegion
  | _, [] => []
  | off, (r, c, bs) :: rest => (r, roundTo64 off, c, bs) :: placeRegions (roundTo64 off + bs.length) rest

/-- The regions of core k's image. -/
def coreRegions (s : State) (m : Nat) (e : QEntry) (save k : Nat) : List PlacedRegion :=
  placeRegions 320 (((List.range 32).filter (regionSaved s m e k)).map (fun r =>
    let z := storedRegion r (regionBytes s m save k r)
    (r, z.1, z.2)))

/-- The length of a core image, and its DIRTY. -/
def imageEnd (l : List PlacedRegion) : Nat := ((l.getLast?).map (fun p => p.2.1 + p.2.2.2.length)).getD 320
def imageDirty (l : List PlacedRegion) : Nat := (l.map (fun p => 2 ^ p.1)).foldl (· + ·) 0

/-- The header of a core image (R401). -/
def coreHeader (c : Core) (k len dirty : Nat) : BitVec 512 :=
  BitVec.ofNat 512 (0x5A534349 + coreX k * 2 ^ 128 + coreY k * 2 ^ 136 + len * 2 ^ 384 +
    (if c.pending.isEmpty then 0 else 2 ^ 456) + replayEntries c % 2 ^ 16 * 2 ^ 464 + dirty % 2 ^ 32 * 2 ^ 480)

/-- The directory entry of region r (R401); zero for a region that is not in the image. -/
def directoryEntry (l : List PlacedRegion) (r : Nat) : Nat :=
  match l.find? (fun p => p.1 == r) with
  | none => 0
  | some p => p.2.2.2.length % 2 ^ 24 + (if p.2.2.1 then 2 ^ 31 else 0) + p.2.1 * 2 ^ 32

/-- Bytes filled up to an offset with bytes of open content. -/
def openPad (save k off : Nat) (bs : List Byte) : List Byte :=
  bs ++ (List.range (off - bs.length)).map (fun i => Config.imageByte save k 32 (bs.length + i))

/-- A core image: header, directory and regions, in whole beats. -/
def coreImage (s : State) (m : Nat) (e : QEntry) (save k : Nat) : List Byte :=
  let l := coreRegions s m e save k
  let front := leBytes 64 (coreHeader (coreAt s k) k (imageEnd l) (imageDirty l)).toNat ++
    (List.range 32).flatMap (fun r => leBytes 8 (directoryEntry l r))
  openPad save k (roundTo64 (imageEnd l)) (l.foldl (fun bs p => openPad save k p.2.1 bs ++ p.2.2.2) front)

/-- The plot header (R400). -/
def plotHeader (b : Mcb) (m wdt ncore plotOff len pt : Nat) : BitVec 512 :=
  BitVec.ofNat 512 (0x5A535649 + 2 ^ 32 + b.wlog.toNat * 2 ^ 192 + b.hlog.toNat * 2 ^ 196 + wdt % 2 ^ 64 * 2 ^ 256 +
    m % 2 ^ 14 * 2 ^ 322 + ncore % 2 ^ 16 * 2 ^ 336 + plotOff % 2 ^ 32 * 2 ^ 352 + len % 2 ^ 64 * 2 ^ 384 + pt % 2 ^ 64 * 2 ^ 448)

/-- Core images one after the other from an offset, with the offset of each, and the offset after the last. -/
def placeImages : Nat → List (List Byte) → List (Nat × List Byte) × Nat
  | off, [] => ([], off)
  | off, bs :: rest =>
    let r := placeImages (off + bs.length) rest
    ((off, bs) :: r.1, r.2)

/-- The plot image of block m (R400): header, core offsets, core images and the plot region, whose layout is open. -/
def plotImage (s : State) (m : Nat) (i : Inv) (save : Nat) : List Byte :=
  let b := mcbAt s m
  let n := b.plot.length
  let first := roundTo64 (64 + 8 * n)
  let r := placeImages first (b.plot.map (coreImage s m i.head save))
  let plotLen := 64 * (1 + Config.saveLen save 1024 % (512 + 1536 * n))
  openPad save 1024 first (leBytes 64 (plotHeader b m i.wdt n r.2 (r.2 + plotLen) s.pt).toNat ++ r.1.flatMap (fun p => leBytes 8 p.1)) ++
    r.1.flatMap (·.2) ++ openRegion save 1024 0 plotLen

/-- The answer of core k's awaited word, or of a posted write, is written into its replay entry, by its place in region 30, in the image of a SUSPENDED context (R397): the
128 bytes of that entry change to bytes of open layout, where region 30 stands coded with all its stored bytes. -/
def answerImage (s : State) (m k entry : Nat) : State :=
  let b := mcbAt s m
  match b.plot.idxOf? k with
  | none => s
  | some n =>
    if b.state != 5 && b.state != 2 then s
    else
      let key := physKey 1 0 b.savepa.toNat
      let core := key + memNat s.mem (key + 64 + 8 * n) 8
      let d := memNat s.mem (core + 64 + 8 * 30) 8
      let off := core + d / 2 ^ 32
      let s' := { s with free := s.free + 1 }
      if d.testBit 31 then putBytes s' none off (openRegion s.free k 30 (d % 2 ^ 24))
      else putBytes s' none (off + 128 * entry) (openRegion s.free k 30 128)

end Sys2Proof.Machine
end

