-- ==== Sys2Proof/Machine/Interface.lean ====
section
/-!
DEFINITION. Assignable interfaces (R428, R429): completions (R430), who may issue what (R431), and host memory under an
interface's PASID.
-/
namespace Sys2Proof.Machine

-- Status codes of R430

def stOk : Byte := 0
def stBadField : Byte := 1
def stBusy : Byte := 2
def stBadImage : Byte := 3
def stTableFull : Byte := 4
def stDenied : Byte := 5
def stBadOp : Byte := 6

/-- A ring size that an interface takes: log2 of its entries (R429). -/
def ringOn (log : W64) : Bool := decide (4 ≤ log.toNat) && decide (log.toNat ≤ 16)

/-- The key of a host byte at an I/O virtual address under a PASID (R428). -/
def hostKey (pasid : BitVec 20) (va : W64) : Nat := physKey 2 pasid.toNat va.toNat

/-- The PASID of an issuer: its interface's, and 0 for the physical function. -/
def issuerPasid (s : State) (iss : Issuer) : BitVec 20 :=
  match iss.ifc with
  | none => 0
  | some i => ((ifcAt s i).assigned.map (·.2)).getD 0

/-- Bytes of host memory that an issuer names. -/
def hostBytes (s : State) (iss : Issuer) (va : W64) (n : Nat) : List Byte := memBytes s.mem (hostKey (issuerPasid s iss) va) n

/-- The part writes host memory for an issuer. -/
def hostWrite (s : State) (iss : Issuer) (va : W64) (bs : List Byte) : State :=
  putBytes s none (hostKey (issuerPasid s iss) va) bs

/-- The 16 bytes of a completion (R430). -/
def completionBytes (tag : W32) (status : Byte) (result : W64) : List Byte :=
  leBytes 16 (status.toNat + tag.toNat * 2 ^ 32 + result.toNat * 2 ^ 64)

/-- The slot of a free-running ring index. -/
def ringSlot (base log index : W64) (size : Nat) : W64 := base + w64 (size * (index.toNat % 2 ^ log.toNat))

/-- A command completes: its completion goes to its interface's ring, which signals its vector (R428, R430). -/
def complete (s : State) (iss : Issuer) (status : Byte) (result : W64) : State :=
  match iss.ifc with
  | none => { s with pfCompletions := s.pfCompletions ++ [(iss.tag, status, result)] }
  | some i =>
    let x := ifcAt s i
    let s := if ringOn x.cqlog then
        hostWrite s iss (ringSlot x.cqbase x.cqlog x.cqtail 16) (completionBytes iss.tag status result)
      else s
    s.updIfc i (fun x => { x with
      completions := x.completions ++ [(iss.tag, status, result)], cqtail := x.cqtail + 1, msix := x.msix + 1 })

/-- An issuer that may issue commands: an interface that nothing has assigned accepts none (R428). -/
def accepts (s : State) (iss : Issuer) : Bool :=
  match iss.ifc with
  | none => true
  | some i => (ifcAt s i).assigned.isSome

/-- The issuer may name state of a partition: the hypervisor of any, a guest of its own (R421, R431). -/
def mayName (s : State) (iss : Issuer) (part : BitVec 4) : Bool :=
  match iss.ifc with
  | none => true
  | some i => (ifcAt s i).assigned.map (·.1) == some part

/-- Runs a command of an issuer, or answers DENIED where it may not issue it (R431). -/
def command (s : State) (iss : Issuer) (may : Bool) (run : State) : Host.Outcome State Fault Refusal :=
  if !accepts s iss then .next s
  else if !may then .next (complete s iss stDenied 0)
  else .next run

/-- A command that the hypervisor alone may issue. -/
def hypOnly (s : State) (iss : Issuer) (run : State) : Host.Outcome State Fault Refusal := command s iss iss.ifc.isNone run

/-- The host's write of an interface page; while the host link is in link training, RDY bit 8 = 0 (R457), no write comes. -/
def pageWrite (s : State) (t : State) : Host.Outcome State Fault Refusal := .next (if s.rdy.getLsbD 8 then t else s)

/-- CQHEAD: the host has consumed completions (R429). -/
def execCqheadWrite (ifc : Nat) (head : W64) (s : State) : Host.Outcome State Fault Refusal :=
  pageWrite s (s.updIfc ifc (fun x => { x with cqhead := head }))

/-- SQTAIL: the doorbell (R429), which takes its place among the doorbells of all interfaces (R432). Descriptors up to it are read one a step. -/
def execSqtailDoorbell (ifc : Nat) (tail : W64) (s : State) : Host.Outcome State Fault Refusal :=
  pageWrite s { s.updIfc ifc (fun x => { x with sqtail := tail }) with bells := s.bells ++ [(ifc, tail)] }

/-- The other registers of an interface page (R429): read-only registers and offsets above RINGS ignore a write. -/
def execInterfaceRegisterWrite (ifc : Nat) (offset : BitVec 12) (value : W64) (s : State) : Host.Outcome State Fault Refusal :=
  pageWrite s (s.updIfc ifc (fun x =>
    match offset.toNat with
    | 0x000 => { x with sqbase := value }
    | 0x008 => { x with sqlog := value }
    | 0x020 => { x with cqbase := value }
    | 0x028 => { x with cqlog := value }
    | 0x050 => { x with rings := value }
    | _ => x))

/-- The register of an interface page at an offset, as the host reads it: what no register holds reads as zero (R429). -/
def Ifc.register (x : Ifc) (offset : BitVec 12) : W64 :=
  match offset.toNat with
  | 0x000 => x.sqbase
  | 0x008 => x.sqlog
  | 0x010 => x.sqtail
  | 0x018 => x.sqhead
  | 0x020 => x.cqbase
  | 0x028 => x.cqlog
  | 0x030 => x.cqhead
  | 0x038 => x.cqtail
  | 0x040 => x.strstat
  | 0x048 => x.lastst
  | 0x050 => x.rings
  | _ => 0

/-- The completion ring of an interface is full or disabled: the part reads no further descriptor (R430). -/
def ringFull (x : Ifc) : Bool := !ringOn x.cqlog || decide (2 ^ x.cqlog.toNat ≤ (x.cqtail - x.cqhead).toNat)

end Sys2Proof.Machine
end

