-- ==== Sys2Proof/Machine/Preempt.lean ====
section
/-!
DEFINITION. Pre-emption, the save image and the resume in place (R395 to R406, R465), the watchdog ladder (R407, R408, R452), the
answers that never come (R393, R397, R449), skew events (R195), and the answers to a held plot (R392).
-/
namespace Sys2Proof.Machine

-- Landing

/-- At LAND a held full/empty form or bar.wait is withdrawn, a stalled word is stopped before it has any effect, and a parked access, and one
whose answer has not come, stay recorded (R396). A fetch is made again. -/
def landHold (s : State) (k : Nat) : State :=
  match (coreAt s k).hold with
  | none => s
  | some h =>
    if (h.kind == .answer || h.kind == .parked) && h.word.isSome then
      (recordHold s s k 1 h).updCore k (fun c => { c with hold := some { h with wait := none } })
    else dropHold s s k h.outcome

/-- A hoarded st.ef that waits at its controller is withdrawn: it becomes a replay entry (R228, R396). -/
def landHoard (s : State) (k : Nat) : State :=
  let s := (coreAt s k).hoard.foldl (fun s h => endHoardWait s s k 1 h) s
  s.updCore k (fun c => { c with hoard := c.hoard.map (fun h => { h with held := none, wait := none }) })

/-- Core k still has an access that has been sent and that lands of itself (R396): a word whose answer comes, a write on its way to a side that
answers, a contribution in the fabric, a watchpoint report, or a decoder table whose load is not parked. -/
def landing (s : State) (m k : Nat) : Bool :=
  confirmed s k || (coreAt s k).struck.isSome || ((coreAt s k).mat.loading != 0 && !tableParked s m k) ||
  (coreAt s k).flight.any (fun f => !silent s f.place.key f.data.length) ||
  s.switch.any (fun e => e.ofCore k && !silent s e.first.place.key e.size)

/-- Core k's word was sent and waits for an answer that does not come. -/
def awaitsAnswer (s : State) (k : Nat) : Bool := (coreAt s k).hold.any (fun h => h.kind == .answer)

/-- PREEMPT_LAND_COMPLETE (R395, R396): every access of the plot has landed or is recorded. -/
def execPreemptLandComplete (m : Nat) (s : State) : Host.Outcome State Fault Refusal :=
  match (mcbAt s m).inv with
  | none => .next s
  | some i =>
    let plot := (mcbAt s m).plot
    if i.preempt != .stop || i.kill.isSome || plot.any (landing s m) then .next s
    else
      let s := plot.foldl (fun s k => landHoard (landHold s k) k) s
      .next (s.updInv m (fun i => { i with preempt := .save, awaiting := (plot.filter (awaitsAnswer s)).map (fun k => (k, none)) }))

-- Saving

/-- The cycles that core k's word has held, and that only a chain has kept its commands from starting, are counted up to the save (R173). -/
def countHeld (s : State) (k : Nat) : State :=
  let s := match (coreAt s k).hold with
    | none => s
    | some h => countHold s k h
  (coreAt s k).cmds.foldl (fun s x => countChained s k x) s

/-- SAVE_COMPLETE (R395, R400, R45): the image stands in the save pool; the context is SUSPENDED and its cores are free. Reports that are pending
stay in it (R398). What resume restores is held as it was; the image says it in bytes. -/
def execSaveComplete (m : Nat) (s : State) : Host.Outcome State Fault Refusal :=
  let b := mcbAt s m
  match b.inv with
  | none => .next s
  | some i =>
    if i.preempt != .save || i.kill.isSome then .next s
    else
      match i.savePages with
      | none => .next s
      | some run =>
        let plot := b.plot
        let s1 := putBytes { s with free := s.free + 1 } none (physKey 1 0 (65536 * run.1)) (plotImage s m i s.free)
        let saved := plot.map (fun k => (k, coreAt (countHeld s k) k))
        let s2 := s1.updMcb m (fun b => { b with
          state := 5, savepa := w64 (65536 * run.1), ox := BitVec.ofNat 5 i.ox, oy := BitVec.ofNat 5 i.oy, saved := saved })
        let s3 := s2.updInv m (fun i => { i with
          preempt := .none, stage := .search, held := false, faultHalt := false, debugStop := false })
        .next (plot.foldl (fun t k => t.updCore k Core.freed) s3)

/-- The first byte of a save image that resume refuses: a header that is not the context's own, or a line that fails its check
(R384, R400). -/
def imageFails (s : State) (m : Nat) : Option Nat :=
  let b := mcbAt s m
  let key := physKey 1 0 b.savepa.toNat
  let h := BitVec.ofNat 512 (memNat s.mem key 64)
  let len := fieldNat h 384 64
  match s.bad.find? (fun e => decide (key / 64 ≤ e.1) && decide (e.1 * 64 < key + len)) with
  | some e => some (keyAddr (e.1 * 64))
  | none =>
    if fieldNat h 0 32 = 0x5A535649 && fieldNat h 32 8 = 1 && fieldNat h 322 14 = m && fieldNat h 192 4 = b.wlog.toNat &&
       fieldNat h 196 4 = b.hlog.toNat then none
    else some b.savepa.toNat

/-- A saved core restored at a time onto the place that holds it: parked and hoarded accesses are sent again and walk afresh, and waits that were
withdrawn run again (R404). What it counts of them begins anew (R173). A PRIO written meanwhile takes effect (R44). The place keeps its mark, its
caches, its copies of package time and the writes that are on their way from it. -/
def restoreCore (m : Nat) (prio : BitVec 4) (pt : Nat) (now saved : Core) : Core :=
  { saved with
    bound := some m, th := { saved.th with prio := prio }, fenced := now.fenced, ptDev := now.ptDev, ptFloor := now.ptFloor
    engDev := now.engDev, engFloor := now.engFloor, skews := now.skews, xtlb := now.xtlb, flight := now.flight
    hold := saved.hold.map (fun h => if h.kind = .parked then { h with until_ := 1, since := pt } else h)
    hoard := saved.hoard.map (fun h => { h with extent := 0 })
    cmds := saved.cmds.map (fun x => { x with parked := x.parked.map (fun _ => 0), ask := none, chained := x.chained.map (fun _ => pt) })
    mat := { saved.mat with task := saved.mat.task.map (fun t => { t with parked := t.parked.map (fun _ => 0), ask := none }) } }

/-- RESTORE_SAVE_IMAGE (R404, R384): the image replaces the preload, and requests that no peer has answered are sent again (R396); or the
invocation is killed and its records name the line that fails. IMAGE, CAPTAB, OBJTAB, QUEUE and INIT are not checked again (DESIGN CHOICE: R45 and
R53 check them at a binding, and R404 gives the restore in place of what reads them). -/
def execRestoreSaveImage (m : Nat) (s : State) : Host.Outcome State Fault Refusal :=
  let b := mcbAt s m
  match b.inv with
  | none => .next s
  | some i =>
    if i.stage != .restore || b.state != 2 then .next s
    else
      let t := b.saved.foldl (fun t p => t.setCore p.1 (restoreCore m b.prio s.pt (coreAt s p.1) p.2)) s
      match imageFails s m with
      | some a =>
        let rs := (plotRecords t m 4).map (fun r => { r with faddr := w64 a })
        .next (finish (t.updRings b.part.toNat (fun p => p.pushKill rs)) m 0x05 false)
      | none => .next ((b.saved.flatMap (fun p => unanswered p.2)).foldl sendRequest (t.updInv m (fun i => { i with stage := .fetch })))

-- Answers that come late, or never

/-- The block of which core k's image or landed access still awaits an answer. -/
def awaiter (s : State) (k : Nat) : Option Nat :=
  (s.mcbs.find? (fun e => match e.2.inv with
    | none => false
    | some i => i.awaiting.any (fun a => a.1 == k && a.2.isNone))).map (·.1)

/-- Block m's image holds core k: its context is SUSPENDED or not yet restored. -/
def inImage (s : State) (m k : Nat) : Option Core :=
  if (mcbAt s m).state = 5 || (mcbAt s m).inv.any (fun i => i.stage == .restore) then mapFind (mcbAt s m).saved k else none

/-- Core k as the access that it awaits an answer for left it, live or in the image. -/
def awaitingCore (s : State) (k : Nat) : Core :=
  match awaiter s k with
  | none => coreAt s k
  | some m => (inImage s m k).getD (coreAt s k)

/-- The access that core k awaits an answer for. -/
def awaited (s : State) (k : Nat) : Option Hold :=
  (awaitingCore s k).hold.bind (fun (h : Hold) => if h.kind = WaitKind.answer then some h else none)

/-- The capability that a word which awaits an answer goes through. -/
def answerCap (i : Instr) : M Cap :=
  match i with
  | .ld _ _ c _ _ => readC c
  | .ldx _ _ a _ _ _ => readC a
  | .ldc _ _ c _ => readC c
  | .amo _ _ a _ _ _ => readC a
  | .amoCas _ _ a _ _ => readC a
  | _ => return (← thread).captab

/-- An access of core k for block m that awaits an answer: the object that it names, and its place. -/
def awaitedPlace (s : State) (m k : Nat) (h : Hold) : Nat × Res :=
  let c := match (answerCap h.ins).run { s.setCore k (awaitingCore s k) with turn := k } with
    | .ok c _ => c
    | .error _ _ => Cap.null
  let d := readDir s m c.obj
  (c.obj, { key := h.flag, sp := keySpace h.flag, addr := keyAddr h.flag, dir := d, ext := 0, extKey := extKeyOf d (h.lease / 65536), expiry := 0 })

/-- What an atomic word writes where it found `old`, with its width in bytes (R229, R230). -/
def atomicWrites (i : Instr) (old : Nat) : M (Option (Nat × Nat)) := do
  match i with
  | .amo _ _ _ b w o =>
    let n := atomicBytes w
    return some (n, atomicOp o.toNat n (old % 2 ^ (8 * n)) ((← readS b).toNat % 2 ^ (8 * n)))
  | .amoCas _ d _ b w =>
    let n := atomicBytes w
    let e := (← readS d).toNat % 2 ^ (8 * n)
    let v := (← readS b).toNat % 2 ^ (8 * n)
    return if old % 2 ^ (8 * n) = e then some (n, v) else none
  | _ => return none

/-- An access whose answer comes has performed at its place (R397): what an atomic word writes stands there, and the access counts (R202). -/
def lateAccess (s : State) (m k : Nat) (h : Hold) (value : BitVec 128) : State :=
  let (obj, r) := awaitedPlace s m k h
  let w := { whoThread s k with mcb := m, start := some (h.lease - h.got.length) }
  let t := match (atomicWrites h.ins value.toNat).run { s.setCore k (awaitingCore s k) with turn := k } with
    | .ok (some (n, v)) _ => putBytes s (tweakOf s m r.dir obj h.lease) h.flag (leBytes n v)
    | _ => s
  countAccess t w obj h.lease (answerBytes h.ins - h.got.length) r

/-- AWAITING_ANSWER_ARRIVAL (R397): the answer, the bytes of the access from the awaited piece on, is written into its entry of the image. -/
def execAwaitingAnswerArrival (m core : Nat) (value : BitVec 128) (s : State) : Host.Outcome State Fault Refusal :=
  match (mcbAt s m).inv with
  | none => .next s
  | some i =>
    if !i.awaiting.contains (core, none) || i.kill.isSome then .next s
    else
      let t := match awaited s core with
        | none => s
        | some h => lateAccess s m core h value
      .next ((answerImage t m core (parkedEntries (awaitingCore s core))).updInv m (fun i => { i with
        awaiting := i.awaiting.map (fun a => if a.1 == core && a.2.isNone then (core, some value) else a) }))

/-- The far side of an awaited access answers again: what its memory holds is the answer. -/
def answerNow (k : Nat) (s : State) : Host.Outcome State Fault Refusal :=
  match awaiter s k, awaited s k with
  | some m, some h =>
    if silent s h.flag 1 then .next s
    else
      let (obj, r) := awaitedPlace s m k h
      execAwaitingAnswerArrival m k (BitVec.ofNat 128 (leNat (viewBytes s (tweakOf s m r.dir obj h.lease) h.flag 16))) s
  | _, _ => .next s

/-- The capability fault of an access that nothing answers (R397, R449), at the offset that the access was sent to. -/
def noAnswer (h : Hold) : FaultRec := { cls := 0, sub := 3, addr := w64 h.lease }

/-- The wait for an answer ends in a fault: pending at resume where its context is saved or being saved (R397, R398). -/
def failAwaiting (s : State) (m k : Nat) (h : Hold) : State :=
  let serial := ((mcbAt s m).inv.map (·.serial)).getD 0
  let s := s.updInv m (fun i => { i with awaiting := i.awaiting.filter (fun a => a.1 != k) })
  let s := match inImage s m k with
    | none => s.updCore k (fun c => { c with hold := none })
    | some c => s.updMcb m (fun b => { b with saved := mapPut b.saved k { c with hold := none } })
  answerImage (reportTo s serial k (noAnswer h)) m k (parkedEntries ((inImage s m k).getD (coreAt s k)))

/-- An access of core k that nothing answers ends: it has landed for a kill, faults its word (R212), or faults at resume. -/
def endAnswer (s : State) (k : Nat) (h : Hold) : State :=
  match awaiter s k with
  | some m => failAwaiting s m k h
  | none =>
    let s1 := s.updCore k (fun c => { c with hold := none })
    match coreInv s k with
    | none => s
    | some i => if i.kill.isSome then s1 else threadFault s1 k (noAnswer h)

/-- An access sent to a place at a time has waited as long as its far side may take: 1 ms where no path leads to a peer (R449), and else 65 ms, the
shortest time of the completion timeout's range (R434). -/
def tooLate (s : State) (nepol : Bool) (key since : Nat) : Bool :=
  decide (4 ≤ keySpace key) == nepol && decide (since + (if nepol then 1000000 else 65000000) ≤ s.pt)

/-- The capability fault of a write that nothing answers, at an offset: it comes after its word (R212, R397). -/
def lateNoAnswer (off : Nat) : FaultRec := { cls := 0, sub := 3, addr := w64 off, imp := true, order := 6 }

/-- A posted write of core k that has waited too long ends with its fault. -/
def lateFlight (s : State) (nepol : Bool) (k : Nat) : Option State :=
  ((coreAt s k).flight.find? (fun f => silent s f.place.key f.data.length && tooLate s nepol f.place.key f.since)).map (fun f =>
    reportTo (s.updCore k (fun c => { c with flight := c.flight.erase f })) f.serial k (lateNoAnswer f.start))

/-- Reductions in the fabric to which core k contributes, and which have waited too long for a path, end with a fault of each contributor (R449). -/
def lateSwitch (s : State) (nepol : Bool) (k : Nat) : Option State :=
  (s.switch.find? (fun e => e.ofCore k && silent s e.first.place.key e.size && tooLate s nepol e.first.place.key e.since)).map (fun e =>
    (e.first :: e.more).foldl (fun s p => reportTo s ((p.who.agent.family.map (·.2)).getD 0) p.who.core (lateNoAnswer p.off))
      { s with switch := s.switch.erase e })

/-- The access of a command of core k that has waited too long ends: it has landed for a kill, and else is the command's fault. -/
def lateCmd (s : State) (nepol : Bool) (k : Nat) : Option State :=
  let late := fun (x : Cmd) => x.ask.any (fun a => Ask.stands s (some a) && tooLate s nepol a.key a.since)
  ((coreAt s k).cmds.find? late).bind (fun x =>
    if (coreInv s k).any (fun i => i.kill.isSome) then some (putCmd s k { x with ask := none })
    else if enginesRun s k then
      some (endFaulted s k { x with started := true, ask := none } { cls := 0, sub := 3, addr := w64 ((x.ask.map (·.off)).getD 0) })
    else none)

/-- The same of the tile task that core k runs, and of the records that it has posted and whose issue waits. -/
def lateTask (s : State) (nepol : Bool) (k : Nat) : Option State :=
  let late := fun (a : Option Ask) => a.any (fun b => Ask.stands s a && tooLate s nepol b.key b.since)
  let f : FaultRec := { cls := 0, sub := 3, addr := 0 }
  match (coreAt s k).bound with
  | none => none
  | some m =>
    match (coreAt s k).mat.task, (mcbAt s m).inv with
    | some t, some i =>
      if !late t.ask then none
      else if i.kill.isSome then some (putTask s k { t with ask := none })
      else if enginesRun s k then some (taskFault (endTask s k m t false) k t.task t.stepNo f)
      else none
    | none, some i =>
      if i.halted then none
      else (i.tasks.find? (fun t => t.core == k && late t.ask)).map (fun t => noteReady (taskFault (takenOut s m t) k t 0 f) m)
    | _, none => none

/-- The first access of core k that has waited too long ends. -/
def endLate (s : State) (nepol : Bool) (k : Nat) : State :=
  match (awaited s k).filter (fun h => tooLate s nepol h.flag h.since && !(nepol && (awaiter s k).isSome)) with
  | some h => endAnswer s k h
  | none => ((((lateFlight s nepol k).or (lateSwitch s nepol k)).or (lateCmd s nepol k)).or (lateTask s nepol k)).getD s

/-- COMPLETION_TIMEOUT (R393, R397, R434): an access of core k to HOST or PMEM that nothing answers ends. -/
def execCompletionTimeout (core : Nat) (s : State) : Host.Outcome State Fault Refusal := .next (endLate s false core)

/-- NEPOL_PATH_TIMEOUT (R449): an access to a peer that finds no path for 1 ms faults; under pre-emption it stays an awaiting-answer entry. -/
def execNepolPathTimeout (core : Nat) (s : State) : Host.Outcome State Fault Refusal := .next (endLate s true core)

-- The watchdog ladder

/-- U of a block in ns (R407). -/
def watchUnit (b : Mcb) : Nat := 16000 * 16 ^ b.tu.toNat

/-- The watchdog of a block counts: BOUND or PRE-EMPTING. -/
def watched (b : Mcb) : Bool := b.state == 3 || b.state == 4

/-- A notice of R452 in the lookup-miss ring; a full ring drops it and counts T1SKIP. -/
def watchNotice (s : State) (m req : Nat) : State :=
  let part := (mcbAt s m).part.toNat
  let desc := mkDesc 4 false false 0 0 0 (w64 req) (w64 m) 0 0 0 0 0
  if missRoom s part then missRing s part (leBytes 64 desc.toNat)
  else s.updPart part (fun p => p.bump 2)

/-- The ladder of a block's invocation moves. -/
def setLadder (s : State) (m : Nat) (l : Ladder) : State := s.updInv m (fun i => { i with ladder := l })

/-- T1_EXPIRY (R407, R452): a pre-emption is requested; where none is, T1SKIP counts. -/
def execT1Expiry (m : Nat) (s : State) : Host.Outcome State Fault Refusal :=
  let b := mcbAt s m
  match b.inv with
  | none => .next s
  | some i =>
    if !watched b || i.ladder != .count || i.wdt < b.t1.toNat * watchUnit b then .next s
    else
      let t := setLadder s m .t1done
      let skip := t.updPart b.part.toNat (fun p => p.bump 2)
      if s.mode.getLsbD 2 then .next (watchNotice t m 1)
      else if b.state = 4 || i.kill.isSome then .next skip
      else .next ((requestPreempt t m).getD skip)

/-- T2_EXPIRY (R407, R452): a kill, KILLED_IN_SAVE when the context is PRE-EMPTING. -/
def execT2Expiry (m : Nat) (s : State) : Host.Outcome State Fault Refusal :=
  let b := mcbAt s m
  match b.inv with
  | none => .next s
  | some i =>
    if !watched b || i.ladder != .t1done || i.wdt < b.t2.toNat * watchUnit b then .next s
    else
      let t := setLadder s m .killing
      if s.mode.getLsbD 2 then .next (watchNotice t m 2)
      else .next (startKill t m (killStatus t m))

/-- T3_EXPIRY (R408): every core of the plot is fenced, its records go to the kill ring with REASON 5, the reply due is sent, and
the block is FAILED. -/
def execT3Expiry (m : Nat) (s : State) : Host.Outcome State Fault Refusal :=
  let b := mcbAt s m
  match b.inv with
  | none => .next s
  | some i =>
    if !watched b || i.ladder != .killing || i.wdt < b.t3.toNat * watchUnit b then .next s
    else
      let rs := (if i.kill.isSome then i.killRecords else plotRecords s m 5).map (fun r => { r with reason := 5 })
      let t := endWaits s m
      let t := t.updRings b.part.toNat (fun p => p.pushKill rs)
      let t := b.plot.foldl (fun t k => t.updCore k (fun c => { c with fenced := true })) t
      .next (finish t m (i.kill.getD (killStatus s m)) true)

-- Skew events

/-- The number of an agent in the skew log: cores, then engines, then controllers and the fabric port. -/
def ptAgentCode : PtAgent → Nat
  | .core k => k
  | .engine k e => 1024 * (1 + e.toNat) + k
  | .gsramController d => 8192 + d
  | .hbmController n => 8256 + n
  | .nepolPort => 8320

/-- A skew event is counted and logged with its cycle (R195, R420): for a core's partition, and for every partition where the agent is shared. -/
def logSkew (s : State) (parts : List Nat) (agent cycle : Nat) (deviation : Int) : State :=
  parts.foldl (fun s p => s.updPart p (fun x => { x.bump 0 with skewLog := x.skewLog ++ [(agent, cycle, deviation)] })) s

def allParts (s : State) : List Nat := (s.parts.filter (fun e => e.2.exists_)).map (·.1)

/-- The first-level translations of core k and the second-level ones of its island are dropped (R195). -/
def dropTranslations (s : State) (k : Nat) : State :=
  (s.updCore k (fun c => { c with xtlb := [] })).updIsland (islandOf k) (fun i => { i with xtlb2 := [] })

/-- Core k's copy of package time, which has deviated, is set right without ever decreasing (R195). -/
def resyncCore (s : State) (k : Nat) (deviation : Int) : State :=
  (dropTranslations s k).updCore k (fun c => { c with
    ptFloor := Max.max (localPt s k) ((s.pt : Int) + deviation).toNat, ptDev := 0 })

/-- The copy of engine e of core k, which has deviated, is set right without ever decreasing (R195). -/
def resyncEngine (s : State) (k : Nat) (e : BitVec 2) (deviation : Int) : State :=
  (dropTranslations s k).updCore k (fun c => { c with
    engFloor := mapSet 0 c.engFloor e.toNat (Max.max (engPt s k e) ((s.pt : Int) + deviation).toNat)
    engDev := mapSet 0 c.engDev e.toNat 0 })

/-- The cycle of a skew event: of its core's clock, and of a shared agent the die's 1.25 GHz. -/
def skewCycle (s : State) : PtAgent → Nat
  | .core k => cyclesOf s k s.pt
  | .engine k _ => cyclesOf s k s.pt
  | _ => s.pt * 125 / 100

/-- SKEW_EVENT (R195). A deviation of 8 ns or less is none. -/
def execSkewEvent (agent : PtAgent) (deviation : Int) (s : State) : Host.Outcome State Fault Refusal :=
  let cycle := skewCycle s agent
  if deviation.natAbs ≤ 8 then .next s
  else
    match agent with
    | .core k =>
      let now := localPt s k
      let s := logSkew (resyncCore s k deviation) ((corePart s k).map (·.toNat)).toList (ptAgentCode agent) cycle deviation
      let recent := now :: (coreAt s k).skews.filter (fun t => decide (now < t + 1000000))
      let s := s.updCore k (fun c => { c with skews := recent })
      if recent.length < 3 then .next s
      else
        let s := s.updCore k (fun c => { c with fenced := true })
        match (coreAt s k).bound with
        | none => .next s
        | some m => .next (startKill s m (killStatus s m))
    | .engine k e =>
      .next (logSkew (resyncEngine s k e deviation) ((corePart s k).map (·.toNat)).toList (ptAgentCode agent) cycle deviation)
    | _ =>
      let s := logSkew s (allParts s) (ptAgentCode agent) cycle deviation
      .next { s.setPortDev agent deviation with
        controllersRefuse := if s.controllersRefuse.contains agent then s.controllersRefuse else agent :: s.controllersRefuse }

/-- PT_COPY_RESYNCHRONISED (R195): the controller or port serves leased accesses again. -/
def execPtCopyResynchronised (agent : PtAgent) (s : State) : Host.Outcome State Fault Refusal :=
  .next { s.setPortDev agent 0 with
    controllersRefuse := s.controllersRefuse.filter (fun a => a != agent) }

-- The answers to a held plot

/-- The plot waits for the answer of R392: held under code 1, and not being killed or pre-empted. -/
def Inv.awaitsReply (i : Inv) : Bool := i.held && i.kill.isNone && i.preempt == .none

/-- FAULT.REPLY with RESUME (R392). A debug stop is continued by it too (R415). -/
def execFaultReplyResume (iss : Issuer) (m : Nat) (s : State) : Host.Outcome State Fault Refusal :=
  command s iss (mayName s iss (mcbAt s m).part)
    (match (mcbAt s m).inv with
     | none => complete s iss stBadField 0
     | some i =>
       if i.awaitsReply || (i.debugStop && i.kill.isNone && i.preempt == .none) then complete (resumePlot s m false) iss stOk 0
       else complete s iss stBadField 0)

/-- FAULT.REPLY with RESUME and H = 1 (R392): the faulting core enters its handler with the recorded cause. -/
def execFaultReplyResumeHandler (iss : Issuer) (m : Nat) (s : State) : Host.Outcome State Fault Refusal :=
  command s iss (mayName s iss (mcbAt s m).part)
    (match (mcbAt s m).inv with
     | none => complete s iss stBadField 0
     | some i => if i.awaitsReply then complete (resumePlot s m true) iss stOk 0 else complete s iss stBadField 0)

/-- FAULT.REPLY with KILL (R392, R452): of a held invocation, and under MODE.WDOG of any BOUND or PRE-EMPTING one. -/
def execFaultReplyKill (iss : Issuer) (m : Nat) (s : State) : Host.Outcome State Fault Refusal :=
  let b := mcbAt s m
  command s iss (mayName s iss b.part)
    (match b.inv with
     | none => complete s iss stBadField 0
     | some i =>
       if i.held && b.state == 3 || s.mode.getLsbD 2 && watched b then
         complete (startKill s m (killStatus s m)) iss stOk 0
       else complete s iss stBadField 0)

end Sys2Proof.Machine
end

