-- ==== Sys2Proof/Machine/Blocks.lean ====
section
/-!
DEFINITION. The commands on micro-context blocks: INSTALL with the function image and the granary (R42 to R51, R464), WRITE and
REMOVE (R44, R50), CAPWRITE (R378) and REVOKE (R196).
-/
namespace Sys2Proof.Machine

-- The layout of a block (R42)

/-- Reserved bits of a block. -/
def mcbReserved (v : BitVec 2048) : Bool :=
  v.getLsbD 79 || v.getLsbD 83 || fieldNat v 992 32 != 0 || fieldNat v 1221 3 != 0 || fieldNat v 1229 819 != 0

/-- The bits of a block as software reads them. -/
def Mcb.bits (b : Mcb) : BitVec 2048 :=
  BitVec.ofNat 2048 (b.funcid.toNat + b.state.toNat * 2 ^ 64 + (if b.v then 2 ^ 67 else 0) + b.prio.toNat * 2 ^ 68 +
    b.part.toNat * 2 ^ 72 + b.wlog.toNat * 2 ^ 76 + b.hlog.toNat * 2 ^ 80 + b.keyslot.toNat * 2 ^ 84 +
    b.faultpolicy.toNat * 2 ^ 96 + b.leasemax.toNat * 2 ^ 120 + b.tu.toNat * 2 ^ 125 + b.image.bits.toNat * 2 ^ 128 +
    b.captab.bits.toNat * 2 ^ 256 + b.objtab.bits.toNat * 2 ^ 384 + b.handler.bits.toNat * 2 ^ 512 +
    b.queue.bits.toNat * 2 ^ 640 + b.qhead.toNat * 2 ^ 768 + b.qtail.toNat * 2 ^ 800 + b.t1.toNat * 2 ^ 832 +
    b.t2.toNat * 2 ^ 848 + b.t3.toNat * 2 ^ 864 + b.cntthr.toNat * 2 ^ 880 + b.horizon.toNat * 2 ^ 896 +
    b.entry.toNat * 2 ^ 960 + b.init.bits.toNat * 2 ^ 1024 + b.savepa.toNat * 2 ^ 1152 + b.ox.toNat * 2 ^ 1216 +
    b.oy.toNat * 2 ^ 1224)

/-- The tag of a capability field that a command writes (R464). -/
def writtenCap (bits : BitVec 128) : Cap := ⟨bits, bits != 0 && fieldNat bits 124 4 == 1⟩

/-- The block with the fields that software writes taken from bits; a capability field is written where the mask names it. -/
def Mcb.withBits (b : Mcb) (v mask : BitVec 2048) : Mcb :=
  let cap := fun (lo : Nat) (old : Cap) => if fieldNat mask lo 128 = 0 then old else writtenCap (field v lo 128)
  { b with
    funcid := field v 0 64, prio := field v 68 4, part := field v 72 4, wlog := field v 76 3, hlog := field v 80 3
    keyslot := field v 84 12, faultpolicy := field v 96 24, leasemax := field v 120 5, tu := field v 125 3
    image := cap 128 b.image, captab := cap 256 b.captab, objtab := cap 384 b.objtab, handler := cap 512 b.handler
    queue := cap 640 b.queue, qhead := field v 768 32, qtail := field v 800 32, t1 := field v 832 16, t2 := field v 848 16
    t3 := field v 864 16, cntthr := field v 880 16, entry := field v 960 32, init := cap 1024 b.init }

/-- The checks of R44 and R90 on the block that index m would hold. -/
def mcbRefused (s : State) (m : Nat) (b : Mcb) : Bool :=
  b.funcid == 0 || s.mcbs.any (fun e => e.1 != m && e.2.v && e.2.funcid == b.funcid && e.2.part == b.part) ||
  decide (5 < b.wlog.toNat) || decide (5 < b.hlog.toNat) || !(partAt s b.part.toNat).exists_ ||
  !shapeFits s b.part b.wlog.toNat b.hlog.toNat || decide (24 < b.leasemax.toNat) ||
  (List.range 12).any (fun k => fieldNat b.faultpolicy (2 * k) 2 == 3) || fieldNat b.faultpolicy 22 2 != 0 ||
  b.t1 == 0 || !decide (b.t1.toNat < b.t2.toNat) || !decide (b.t2.toNat < b.t3.toNat) || decide (3 < b.tu.toNat) ||
  !b.image.valid || !b.captab.valid || !b.objtab.valid || !b.queue.valid || b.objtab.sp != 0 || b.queue.sp != 0 ||
  (b.queue.hi - b.queue.lo) % 4096 != 0 || b.entriesN == 0 || decide (65536 < b.entriesN) ||
  decide (2 * b.entriesN ≤ b.qhead.toNat) || decide (2 * b.entriesN ≤ b.qtail.toNat)

/-- The object table of the block is that of another installed block (R183). -/
def tableTaken (s : State) (m : Nat) (b : Mcb) : Bool := s.mcbs.any (fun e => e.1 != m && e.2.v && e.2.otPhys == b.otPhys)

/-- Where an offset of an object of block m lies, as a command finds it: its walk stays in HORIZON and the caches, whatever it gives (R188). -/
def commandPlace (s : State) (m obj sp off : Nat) : Option Res × State :=
  match (resolve (whoSower s m) obj sp off { write := false }).run s with
  | .ok r s1 => (some r, rollBack s s1)
  | .error _ s1 => (none, rollBack s s1)

/-- The next n entries of a block's queue from index j, from their descriptors in memory. -/
def queuedEntries (m : Nat) : Nat → Nat → State → List QEntry × State
  | 0, _, s => ([], s)
  | n + 1, j, s =>
    let b := mcbAt s m
    let x := commandPlace s m b.queue.obj 0 (4096 * (j % b.entriesN))
    match x.1 with
    | none => queuedEntries m n (j + 1) x.2
    | some r =>
      let more := queuedEntries m n (j + 1) { x.2 with nextSerial := x.2.nextSerial + 1 }
      (⟨BitVec.ofNat 512 (memNat s.mem r.key 64), none, s.pt, EdgeSet.none, none, x.2.nextSerial⟩ :: more.1, more.2)

/-- A block's entries follow its indices. -/
def requeue (s : State) (m : Nat) : State :=
  let b := mcbAt s m
  let r := queuedEntries m ((b.qtail.toNat + 2 * b.entriesN - b.qhead.toNat) % (2 * b.entriesN)) b.qhead.toNat s
  r.2.updMcb m (fun b => { b with entries := r.1 })

-- The function image (R46)

/-- A segment of a function image. -/
structure ImageSeg where
  kind : Nat
  sp : Nat
  obj : Nat
  size : Nat
  hash : BitVec 256
  bytes : List Byte
  deriving DecidableEq, Repr

/-- The segments that descriptors list, their bytes one after the other from an offset of the image; and the offset after the
last. -/
def segsFrom (s : State) (iss : Issuer) (va : W64) : Nat → List (BitVec 512) → List ImageSeg × Nat
  | off, [] => ([], off)
  | off, d :: rest =>
    let kind := fieldNat d 0 8
    let size := fieldNat d 64 40
    let n := if kind = 4 then 0 else size
    let seg : ImageSeg :=
      { kind := kind, sp := fieldNat d 8 4, obj := fieldNat d 16 24, size := size, hash := field d 256 256,
        bytes := hostBytes s iss (va + w64 off) n }
    let r := segsFrom s iss va (off + n) rest
    (seg :: r.1, r.2)

/-- The image refuses a descriptor. -/
def descRefused (d : BitVec 512) : Bool :=
  decide (6 < fieldNat d 0 8) || fieldNat d 12 4 != 0 || fieldNat d 40 24 != 0 || fieldNat d 104 152 != 0 ||
  decide (1 < fieldNat d 8 4) || (fieldNat d 0 8 == 5 && fieldNat d 8 4 != 0)

/-- The segments of an image, or none where R46 refuses it. The size of an initial-state segment is not checked (DESIGN CHOICE: R53 names the two
sizes that it has, and no refusal of another). -/
def readImage (s : State) (iss : Issuer) (va len : W64) : Option (List ImageSeg) :=
  let n := leNat (hostBytes s iss va 8)
  if n = 0 ∨ 64 < n then none
  else
    let ds := (List.range n).map (fun i => BitVec.ofNat 512 (leNat (hostBytes s iss (va + w64 (8 + 64 * i)) 64)))
    if ds.any descRefused then none
    else
      let r := segsFrom s iss va (8 + 64 * n) ds
      let one := fun (kind : Nat) => (r.1.filter (fun g => g.kind == kind)).length == 1
      if decide (r.2 ≤ len.toNat) && one 0 && one 5 && one 6 && decide ((r.1.map (·.obj)).Nodup) then some r.1 else none

/-- Entry i of a capability table's bytes. -/
def tableEntry (bytes : List Byte) (i : Nat) : BitVec 128 := BitVec.ofNat 128 (leNat ((bytes.drop (16 * i)).take 16))

/-- The entries of the capability table that name a segment of the image (R47). -/
def namedEntries (segs : List ImageSeg) (bytes : List Byte) : List Nat :=
  (List.range 256).filter (fun i =>
    let c : Cap := ⟨tableEntry bytes i, true⟩
    c.bits != 0 && c.valid && segs.any (fun g => g.obj == c.obj))

/-- An entry that grants a write of a granary segment (R49). -/
def grantsGranary (segs : List ImageSeg) (bytes : List Byte) : Bool :=
  (namedEntries segs bytes).any (fun i =>
    let c : Cap := ⟨tableEntry bytes i, true⟩
    (c.perm &&& (permST ||| permSTCAP ||| permAMO ||| permFE)) != 0 &&
    segs.any (fun g => g.obj == c.obj && decide (g.kind ≤ 2)))

/-- A capability of the install command from offset 0 over a segment (R464): exact bounds, or the granule that fits. -/
def segCap (g : ImageSeg) (perm : BitVec 12) : Cap :=
  let e := (exactGx 0 0 g.size).getD (((List.range 16).find? (fun e => decide (ceilDiv g.size (2 ^ (e + 4)) < 2 ^ 20))).getD 15)
  mkCap g.obj g.sp perm e 0 (ceilDiv g.size (2 ^ (e + 4))) 0

-- Pages

/-- A segment with the pages that hold it, those of its extent map, and whether the granary had it. -/
structure SegPlan where
  seg : ImageSeg
  pages : List Nat
  map : Nat
  mapPages : Nat
  hit : Bool
  deriving DecidableEq, Repr

/-- A run of n unused HBM pages of a pool, outside the save pool. -/
def mapRun (p : Partition) (n : Nat) : Option Nat :=
  if n = 0 then some p.hbmPool.1
  else (List.range p.hbmPool.2).find? (fun j =>
    decide (j + n ≤ p.hbmPool.2) &&
    (List.range n).all (fun i => !p.used.contains (1, p.hbmPool.1 + j + i) && !inRun p.savePool (p.hbmPool.1 + j + i))) |>.map
      (p.hbmPool.1 + ·)

/-- Takes pages for every segment: those of a matching granary segment, else fresh ones (R49, R464). -/
def planSegs (choice : List Nat) : Partition → List Segment → List ImageSeg → Option (List SegPlan × Partition × List Segment)
  | p, gs, [] => some ([], p, gs)
  | p, gs, g :: rest =>
    let n := ceilDiv g.size 65536
    let maps := ceilDiv (8 * n) 65536
    let hash := Config.shake256 g.bytes
    match mapRun p maps with
    | none => none
    | some at_ =>
      let p := p.take 1 (List.range' at_ maps)
      let old := if g.kind ≤ 2 then gs.find? (fun x => x.hash == hash && x.size == g.size && x.sp == g.sp) else none
      match old with
      | some x =>
        let gs := gs.map (fun y => if y == x then { y with refs := y.refs + 1 } else y)
        match planSegs choice p gs rest with
        | none => none
        | some r => some (⟨g, x.pages, at_, maps, true⟩ :: r.1, r.2)
      | none =>
        match choosePages p g.sp n choice with
        | none => none
        | some pages =>
          let p := p.take g.sp pages
          let gs := if g.kind ≤ 2 then
              { hash := hash, size := g.size, sp := g.sp, pages := pages, refs := 1, horizon := 0 } :: gs
            else gs
          match planSegs choice p gs rest with
          | none => none
          | some r => some (⟨g, pages, at_, maps, false⟩ :: r.1, r.2)

-- What INSTALL writes

/-- A page before INSTALL fills it: zero bytes, no tags, good checks, and the encryption of the object that it will hold. -/
def freshPage (s : State) (sp page : Nat) (enc : Option Tweak) : State :=
  let key := physKey sp 0 (65536 * page)
  let inPage := fun (unit k : Nat) => k * unit / 65536 == key / 65536
  let s := { s with
    mem := s.mem.filter (fun e => !inPage 1 e.1), tags := s.tags.filter (fun e => !inPage 16 e.1)
    stamps := s.stamps.filter (fun e => !inPage 64 e.1), marks := s.marks.filter (fun e => !inPage 1 e.1)
    bad := s.bad.filter (fun e => !inPage 64 e.1), enc := s.enc.filter (fun e => !inPage 64 e.1)
    encPage := match enc with
      | none => mapErase s.encPage (key / 65536)
      | some t => mapPut s.encPage (key / 65536) t }
  markDirty s sp (65536 * page)

/-- The bytes of a segment written to its pages, under the page's own encryption. -/
def fillPages (s : State) (g : ImageSeg) (enc : Option (BitVec 512 × Nat)) : Nat → List Nat → State
  | _, [] => s
  | i, page :: rest =>
    let t := enc.map (fun e => (e.1, e.2, i))
    let s := freshPage s g.sp page t
    let s := putBytes s (t.map (fun e => (e.1, e.2.1, 1024 * i))) (physKey g.sp 0 (65536 * page)) ((g.bytes.drop (65536 * i)).take 65536)
    fillPages s g enc (i + 1) rest

/-- The directory entry of a segment (R464, R183). -/
def segDir (g : ImageSeg) (emap lx : Nat) : BitVec 256 :=
  let flags := if g.kind ≤ 2 then 3 else if g.kind ≥ 5 then 1 else if g.sp = 1 then 4 else 0
  BitVec.ofNat 256 (flags + 2 ^ 7 + g.sp * 2 ^ 18 + lx * 2 ^ 22 + 2 ^ 124 + ceilDiv g.size 65536 * 2 ^ 128 + emap % 2 ^ 48 * 2 ^ 160)

/-- One segment installed: its bytes, its extent map, its directory entry. -/
def placeSeg (b : Mcb) (s : State) (p : SegPlan) : State :=
  let enc := if (p.seg.kind = 3 || p.seg.kind = 4) && p.seg.sp = 1 then some (blockKeys s b, p.seg.obj) else none
  let s := if p.hit then s else fillPages s p.seg enc 0 p.pages
  let s := (List.range' p.map p.mapPages).foldl (fun s g => freshPage s 1 g none) s
  let s := putBytes s none (physKey 1 0 (65536 * p.map)) (p.pages.flatMap (fun g => leBytes 8 (g * 2 ^ 8 + 1)))
  externalWrite s 0 0 (b.otPhys + 32 * p.seg.obj) (leBytes 32 (segDir p.seg (65536 * p.map) b.leasemax.toNat).toNat)

/-- The tags of the capability table's entries that name segments (R47). -/
def tagTable (s : State) (plans : List SegPlan) (named : List Nat) : State :=
  match plans.find? (fun p => p.seg.kind == 5) with
  | none => s
  | some p =>
    { s with tags := named.foldl (fun t i => mapPut t (physKey 0 0 (65536 * p.pages.headD 0) / 16 + i) true) s.tags }

-- The lookup table (R88)

/-- The bucket of a partition by one of its two hash functions. -/
def hashBucket (s : State) (part : Nat) (which : Bool) (funcid : W64) : Nat :=
  (Config.lookupHash which part (partAt s part).resets funcid).toNat

/-- The other bucket of a partition that may hold a FUNCID. -/
def otherBucket (s : State) (part bucket : Nat) (funcid : W64) : Nat :=
  let h := hashBucket s part false funcid
  if h = bucket then hashBucket s part true funcid else h

/-- Block m put into a bucket; the block that it displaces goes to its own other bucket, and so on for a number of moves; ids names the FUNCID
of each block. -/
def displace (s : State) (part : Nat) (ids : Nat → W64) : Nat → SMap Nat → Nat → Nat → Option (SMap Nat)
  | fuel, t, bucket, m =>
    match mapFind t bucket with
    | none => some (mapPut t bucket m)
    | some n =>
      match fuel with
      | 0 => none
      | fuel + 1 => displace s part ids fuel (mapPut t bucket m) (otherBucket s part bucket (ids n)) n

/-- The lookup table of a partition with block m under a FUNCID, or none where it cannot be placed within 32 moves (R88). -/
def placeBlock (s : State) (part m : Nat) (funcid : W64) : Option (SMap Nat) :=
  let t := (partAt s part).table.filter (fun e => e.2 != m)
  let put := fun (which : Bool) =>
    displace s part (fun n => if n = m then funcid else (mcbAt s n).funcid) 32 t (hashBucket s part which funcid) m
  (put false).or (put true)

/-- Block m leaves the lookup tables. -/
def leaveTable (s : State) (m : Nat) : State :=
  { s with parts := s.parts.map (fun e => (e.1, { e.2 with table := e.2.table.filter (fun x => x.2 != m) })) }

/-- The index that INSTALL takes, or its refusal (R464). -/
def installIndex (s : State) (a : InstallArgs) : Except Byte Nat :=
  if a.any then
    if a.idx ≠ 0 then .error stBadField
    else
      match (List.range 16384).find? (fun i => !(mcbAt s i).v) with
      | none => .error stTableFull
      | some i => .ok i
  else if (mcbAt s a.idx.toNat).v then .error stBusy
  else .ok a.idx.toNat

/-- The block that INSTALL would write, from the host's buffer and the image's segments. -/
def installBlock (a : InstallArgs) (v : BitVec 2048) (segs : List ImageSeg) : Mcb :=
  let of := fun (kind : Nat) => segs.find? (fun g => g.kind == kind)
  let b := Mcb.zero.withBits v (BitVec.allOnes 2048)
  { b with
    v := true, state := if b.qhead = b.qtail then 0 else 1, otPhys := a.tablePhys
    image := match of 0 with | some g => segCap g (permLD ||| permEXEC) | none => Cap.null
    captab := match of 5 with | some g => segCap g (permLD ||| permLDCAP) | none => Cap.null
    init := match of 6 with | some g => if g.size = 0 then Cap.null else segCap g permLD | none => Cap.null }

/-- A field of the buffer that INSTALL sets itself is not zero (R464). -/
def installSets (v : BitVec 2048) : Bool :=
  fieldNat v 64 4 != 0 || fieldNat v 896 64 != 0 || fieldNat v 1152 64 != 0 || fieldNat v 1216 5 != 0 ||
  fieldNat v 1224 5 != 0 || fieldNat v 128 256 != 0 || fieldNat v 1024 128 != 0

/-- The directory slot of a segment lies in the table and holds PRESENT = 0 (R464). -/
def slotFree (s : State) (b : Mcb) (obj : Nat) : Bool :=
  decide (32 * obj + 32 ≤ b.objtab.hi) && !dirPresent (BitVec.ofNat 256 (memNat s.mem (dirKey b obj) 32))

/-- Some compute island of a partition is not ready (R457), or its scrub still runs, in which no command maps the pool's pages (R441). That
INSTALL is BUSY during the scrub is a DESIGN CHOICE: R441 names no status. -/
def islandsWait (s : State) (part : BitVec 4) : Bool :=
  (partAt s part.toNat).scrubbing || (List.range 16).any (fun i => (islandAt s i).part == some part && !s.rdy.getLsbD (20 + i))

/-- INSTALL's checks and its effect (R464). -/
def installRun (iss : Issuer) (a : InstallArgs) (s : State) : State :=
  match installIndex s a with
  | .error e => complete s iss e 0
  | .ok m =>
    let v := BitVec.ofNat 2048 (leNat (hostBytes s iss a.mcbVa 256))
    if mcbReserved v || installSets v then complete s iss stBadField 0
    else if !mayName s iss (field v 72 4) then complete s iss stDenied 0
    else
      match readImage s iss a.imgVa a.imgLen with
      | none => complete s iss stBadImage 0
      | some segs =>
        let table := ((segs.find? (fun g => g.kind == 5)).map (·.bytes)).getD []
        let b := installBlock a v segs
        if grantsGranary segs table then complete s iss stBadImage 0
        else if mcbRefused s m b || tableTaken s m b || !segs.all (fun g => slotFree s b g.obj) then complete s iss stBadField 0
        else if islandsWait s b.part then complete s iss stBusy 0
        else
          match placeBlock s b.part.toNat m b.funcid, planSegs a.choice (partAt s b.part.toNat) s.granary segs with
          | none, _ => complete s iss stTableFull 0
          | _, none => complete s iss stBusy 0
          | some buckets, some (plans, p, gs) =>
            let named := namedEntries segs table
            let mine := plans.flatMap (fun q => (List.range' q.map q.mapPages).map (fun g => (1, g)) ++
              (if q.seg.kind ≤ 2 then [] else q.pages.map (fun g => (q.seg.sp, g))))
            let shared := (plans.filter (fun q => q.seg.kind ≤ 2)).map (fun q => (Config.shake256 q.seg.bytes, q.seg.size, q.seg.sp))
            let s := ({ leaveTable s m with granary := gs }).updPart b.part.toNat (fun _ => { p with table := buckets })
            let s := plans.foldl (placeSeg b) s
            let s := tagTable s plans named
            let s := s.setMcb m { b with capFilled := named, segments := shared, pages := mine }
            complete (requeue s m) iss stOk (w64 m)

/-- INSTALL (R464). -/
def execInstall (iss : Issuer) (a : InstallArgs) (s : State) : Host.Outcome State Fault Refusal :=
  command s iss true (installRun iss a s)

-- WRITE and REMOVE

/-- Bits of fields that a WRITE may name in any state: PRIO, TU, T1, T2, T3 and CNTTHR (R44). -/
def anyState : BitVec 2048 :=
  BitVec.ofNat 2048 ((2 ^ 4 - 1) * 2 ^ 68 + (2 ^ 3 - 1) * 2 ^ 125 + (2 ^ 64 - 1) * 2 ^ 832)

/-- Where the object table that OBJTAB names begins, as the table in force maps it. -/
def tablePlace (s : State) (m : Nat) (c : Cap) : Nat × State :=
  let x := commandPlace s m c.obj 0 c.lo
  (match x.1 with
    | some r => r.addr - c.lo
    | none => (mcbAt s m).otPhys, x.2)

/-- WRITE (R44): the field checks, then the state; a write accepted by a FAILED block clears the fault (R45). A block with V = 0 is BADFIELD, and a
new FUNCID that finds no bucket is TABLEFULL (DESIGN CHOICE: R44 gives neither). Bits of the fields that the part alone sets are ignored. -/
def execMcbWrite (iss : Issuer) (m : Nat) (mask value : BitVec 2048) (s : State) : Host.Outcome State Fault Refusal :=
  let old := mcbAt s m
  let v := (old.bits &&& ~~~mask) ||| (value &&& mask)
  let b0 := old.withBits v mask
  let place := if fieldNat mask 384 128 = 0 then (old.otPhys, s) else tablePlace s m b0.objtab
  let b := { b0 with otPhys := place.1, horizon := (mcbAt place.2 m).horizon }
  command s iss (mayName s iss old.part && mayName s iss b.part)
    (let s := place.2
     if !old.v || mcbReserved (value &&& mask) || mcbRefused s m b || tableTaken s m b then complete s iss stBadField 0
     else if (mask &&& ~~~anyState) != 0 && old.state != 0 && old.state != 6 then complete s iss stBusy 0
     else
       let moves := b.funcid != old.funcid || b.part != old.part
       match if moves then placeBlock s b.part.toNat m b.funcid else some (partAt s b.part.toNat).table with
       | none => complete s iss stTableFull 0
       | some table =>
       let s := ((if moves then leaveTable s m else s).updPart b.part.toNat (fun p => { p with table := table })).setMcb m b
       let s := if fieldNat mask 768 64 = 0 then s else requeue s m
       let s := if old.state = 6 || old.state = 0 then
           s.updMcb m (fun b => { b with state := if b.qhead = b.qtail then 0 else 1 })
         else s
       complete s iss stOk 0)

/-- A granary segment loses a mapping (R50, R194): its reference count drops, and H is what its tables reached. -/
def dropRef (horizon : Nat) (gs : List Segment) (key : BitVec 256 × Nat × Nat) : List Segment :=
  gs.map (fun g =>
    if g.hash == key.1 && g.size == key.2.1 && g.sp == key.2.2 then { g with refs := g.refs - 1, horizon := Max.max g.horizon horizon } else g)

/-- REMOVE (R44, R50): V is cleared, and its bucket; a block with V = 0 is BADFIELD (DESIGN CHOICE: R44 gives no status). Pages whose last
mapping is gone are freed under the waiting rule. -/
def execMcbRemove (iss : Issuer) (m : Nat) (s : State) : Host.Outcome State Fault Refusal :=
  let b := mcbAt s m
  command s iss (mayName s iss b.part)
    (if !b.v then complete s iss stBadField 0
     else if !((b.state == 0 || b.state == 6) && b.qhead == b.qtail) then complete s iss stBusy 0
     else
       let gs := b.segments.foldl (dropRef b.horizon.toNat) s.granary
       let gone := gs.filter (fun g => g.refs == 0)
       let waits := (if b.pages.isEmpty then [] else [Waiting.free b.horizon.toNat b.pages b.part]) ++
         gone.map (fun g => Waiting.free g.horizon (g.pages.map (fun p => (g.sp, p))) b.part)
       let s := { s with granary := gs.filter (fun g => g.refs != 0), waiting := s.waiting ++ waits }
       complete ((leaveTable s m).updMcb m (fun b => { b with v := false, segments := [], pages := [], capFilled := [] })) iss stOk 0)

/-- CAPWRITE (R378). -/
def execCapWrite (iss : Issuer) (m : Nat) (index : BitVec 8) (entry : BitVec 128) (s : State) :
    Host.Outcome State Fault Refusal :=
  let b := mcbAt s m
  let c : Cap := ⟨entry, true⟩
  let d := readDir s m c.obj
  command s iss (mayName s iss b.part)
    (if !b.v || !(b.state == 0 || b.state == 6) || c.ver != 1 || !dirPresent d || dirSp d != c.sp ||
        b.capFilled.contains index.toNat then complete s iss stBadField 0
     else
       let x := commandPlace s m b.captab.obj b.captab.sp (b.captab.lo + 16 * index.toNat)
       match x.1 with
       | none => complete x.2 iss stBadField 0
       | some r =>
         let s2 := externalWrite x.2 0 r.sp r.addr (leBytes 16 entry.toNat)
         complete { s2 with tags := mapPut s2.tags (r.key / 16) true } iss stOk 0)

/-- REVOKE (R196): the directory entry is stored whole, and HORIZON is read; the command completes after the waiting rule. -/
def execRevoke (iss : Issuer) (m : Nat) (obj : BitVec 24) (npages : Option Nat) (s : State) : Host.Outcome State Fault Refusal :=
  let b := mcbAt s m
  let d := readDir s m obj.toNat
  let from_ := npages.getD 0
  command s iss (mayName s iss b.part)
    (if !b.v || !dirPresent d || npages.any (fun n => decide (dirNpages d ≤ n)) then complete s iss stBadField 0
     else
       let new := match npages with
         | none => setField d 7 1 0
         | some n => setField d 128 25 n
       let gone := (List.range' from_ (dirNpages d - from_)).filterMap (fun p =>
         let x := w64 (memNat s.mem (extKeyOf d p) 8)
         if extPresent x && b.pages.contains (dirSp d, extPpn x) then some (dirSp d, extPpn x) else none)
       let s := externalWrite s 0 0 (b.otPhys + 32 * obj.toNat) (leBytes 32 new.toNat)
       let s := s.updMcb m (fun b => { b with pages := b.pages.filter (fun g => !gone.contains g) })
       { s with waiting := s.waiting ++ [.revoke iss (mcbAt s m).horizon.toNat gone b.part] })

/-- REVOKE_WAIT_END (R196, R192, R194): a wait for leases is over, its pages are free, and a REVOKE completes. -/
def execRevokeWaitEnd (nth : Nat) (s : State) : Host.Outcome State Fault Refusal :=
  .next (
    match s.waiting[nth]? with
    | some (.revoke iss h gone _) =>
      if s.pt ≤ h + 16 then s
      else complete (freePages { s with waiting := s.waiting.eraseIdx nth } gone) iss stOk (w64 s.pt)
    | some (.free h gone _) =>
      if s.pt ≤ h + 16 then s else freePages { s with waiting := s.waiting.eraseIdx nth } gone
    | _ => s)

end Sys2Proof.Machine
end

