-- ==== Sys2Proof/Machine/Streams.lean ====
section
/-!
DEFINITION. Command streams: the front-end's memory accesses (R94, R97, R245), its fetches (R96, R243, R244), the packets (R95 to
R101), stream faults (R102), and the commands that open, move and close a stream (R431).
-/
namespace Sys2Proof.Machine

-- What an access of the front-end gives

/-- The outcome of an access of a front-end: a value, a stream fault with its code, or a wait for a page. -/
inductive Got (α : Type) where
  | got (a : α) (s : State)
  | fail (code : Nat) (s : State)
  /-- It waits, as a word's access would hold. -/
  | wait (h : Hold) (s : State)
  | hard (f : Fault)

/-- The code of R102 for a fault of an access. -/
def streamCode (f : FaultRec) : Nat := if f.cls = 7 || f.cls = 8 then 7 else 3

/-- Runs an access of a front-end. What its walks have done stands in any case (R188). -/
def streamTry {α : Type} (x : M α) (s : State) : Got α :=
  match x.run s with
  | .ok a t => .got a t
  | .error (.fault f) t => .fail (streamCode f) t
  | .error (.wait h) t => .wait h t
  | .error (.hard f) _ => .hard f

/-- The checks of DOBJ: bounds, alignment, rights and space (R94, R95, R179). -/
def checkDobj (x : Stream) (off n align : Nat) (need : BitVec 12) : M Unit := do
  if !x.dobj.valid then raise 0 0 off
  if off % align ≠ 0 || x.dlen < off + n then raise 0 1 off
  if !x.dobj.has need then raise 0 2 off
  if x.dobj.sp > 5 then raise 0 3 off

/-- A read of a front-end within one page: the bytes and their key. A watchpoint's match counts (R417). -/
def streamRead (n : Nat) (x : Stream) (off len align : Nat) : M (List Byte × Nat) := do
  checkDobj x off len align permLD
  let w := whoStream n x
  let r ← resolve w x.dobj.obj x.dobj.sp off { write := false }
  answers r len off
  checkLines off r len
  let bs ← readPiece w x.dobj.obj off r len
  modify (fun s => countAccess s w x.dobj.obj off len r)
  let _ ← watchAccess w .read off r len
  return (bs, r.key)

/-- The memory word of PRED, WAIT, COND and SWITCH (R95, R97): its value and its key. -/
def streamWord (n : Nat) (x : Stream) (off : Nat) : M (W64 × Nat) := do
  let (bs, key) ← streamRead n x off 8 8
  return (w64 (leNat bs), key)

/-- The release of a front-end: its direct edge, and its region closes (R97, R363). -/
def streamEdge (x : Stream) : EdgeSet := EdgeSet.one (.stream x.serial) x.region

/-- A write of a front-end, a release at device scope (R97, R101): a plain value, or the old value with an addend. -/
def streamWrite (n : Nat) (x : Stream) (off len : Nat) (f : Nat → Nat) (need : BitVec 12) (kind : WatchKind) : M Unit := do
  checkDobj x off len len need
  let w := whoStream n x
  needSys w x.dobj off
  let r ← resolve w x.dobj.obj x.dobj.sp off { write := true }
  answers r len off
  checkLines off r len
  let old ← readPiece w x.dobj.obj off r len
  writePiece w (streamEdge x) x.region x.dobj.obj off r (leBytes len (f (leNat old)))
  let _ ← watchAccess w kind off r len
  modify (fun s => s.updStream n (fun y => { y with region := y.region + 1 }))

/-- What a front-end takes from the releases before the writes whose value it has read (R362). A packet of a front-end releases to a satisfied
WAIT alone, and not to PRED, COND or SWITCH. -/
def readEdges (s : State) (x : Stream) (key n : Nat) (wait : Bool) : EdgeSet :=
  (marksOf s key n).foldl (fun g m =>
    (m.fences.filter (fun f => sameScope s f.scope f.agent (.stream x.serial))).foldl (fun g f => g.join f.edges)
      (if wait || fieldNat m.setter 44 4 != 7 then g.join m.releaseEdges else g)) EdgeSet.none

/-- Stream n takes the edges of a read of PRED, COND or SWITCH. -/
def streamAcquire (n : Nat) (x : Stream) (key : Nat) (s : State) : State :=
  s.updStream n (fun y => { y with edges := y.edges.join (readEdges s x key 8 false) })

/-- Stream n takes the edges of the satisfied read of WAIT. -/
def streamJoin (n : Nat) (x : Stream) (key : Nat) (s : State) : State :=
  s.updStream n (fun y => { y with edges := y.edges.join (readEdges s x key 8 true) })

-- Levels

/-- The level that executes. -/
def Stream.top (x : Stream) : Level := x.levels.headD ⟨0, 0, 0, []⟩
/-- Its number: 0 is the ring. -/
def Stream.depth (x : Stream) : Nat := x.levels.length - 1
def Stream.setTop (x : Stream) (l : Level) : Stream := { x with levels := l :: x.levels.tail }
/-- The offset of the packet to execute next. -/
def Stream.pos (x : Stream) : Nat := x.top.pos
/-- The first byte past what the front-end may fetch at its level: the ring's tail, or the buffer's end. -/
def Stream.limit (x : Stream) : Nat := if x.depth = 0 then x.tail else x.top.base + x.top.size

/-- A stream fault or stop discards the fetched words of every level (R96). -/
def Stream.discard (x : Stream) : Stream := { x with levels := x.levels.map (fun l => { l with words := [] }) }

/-- STRSTAT and LASTST of a stream stand in its interface's page, or at its command port. -/
def setStrstat (s : State) (x : Stream) (v : W64) : State :=
  match x.ifc, x.hart with
  | some i, _ => s.updIfc i (fun y => { y with strstat := v })
  | none, some h => s.updHart h (fun y => { y with strstat := v })
  | none, none => s
def setLastst (s : State) (x : Stream) (v : Byte) : State :=
  match x.ifc, x.hart with
  | some i, _ => s.updIfc i (fun y => { y with lastst := w64 v.toNat })
  | none, some h => s.updHart h (fun y => { y with lastst := w64 v.toNat })
  | none, none => s

/-- A stream fault (R102): the stream stops at an offset with a code. -/
def streamFault (s : State) (n : Nat) (x : Stream) (code off : Nat) : State :=
  setStrstat (s.updStream n (fun y => { y.discard with status := .faulted, wait := none })) x (w64 (code + off * 256))

/-- Leaves every buffer whose end is reached; where a loop of the buffer is open, the stream faults there (R98, R100, R102). -/
def leaveBuffers : Nat → State → Nat → State
  | 0, s, _ => s
  | fuel + 1, s, n =>
    match mapFind s.streams n with
    | none => s
    | some x =>
      if x.depth = 0 || x.pos < x.limit then s
      else if x.loops.any (fun l => l.level == x.depth) then streamFault s n x 5 x.limit
      else leaveBuffers fuel (s.updStream n (fun y => { y with levels := y.levels.tail, skip := (0, 0) })) n

/-- The words of a command port's FIFO that have executed leave it, but for those of an open loop of level 0 (R442). -/
def Stream.trim (x : Stream) : Stream :=
  if x.hart.isNone then x else
  let p := (x.levels.getLast?.map (·.pos)).getD 0
  let first := (x.loops.filter (fun l => l.level == 0)).foldl (fun p l => Min.min p l.body) p
  { x with fifo := x.fifo.drop ((first - x.fifoPos) / 4), fifoPos := Max.max x.fifoPos first }

-- Accesses that wait

/-- The access of stream x that a far side does not answer: sent when it first waited (R434). -/
def Stream.asks (x : Stream) (h : Hold) (pt : Nat) : Option Ask :=
  if h.kind ≠ .answer then none
  else if x.ask.any (fun a => a.key == h.flag) then x.ask
  else some ⟨h.flag, h.lease, pt⟩

/-- What stream x awaits has taken as long as its far side may: 65 ms, or 1 ms with no path to a peer (R434, R449). -/
def Stream.late (s : State) (x : Stream) (h : Hold) : Bool :=
  h.kind == .answer && x.ask.any (fun a => a.key == h.flag && tooLate s (decide (4 ≤ keySpace a.key)) a.key a.since)

/-- An access of stream n waits: its page moves to the head of its Sprout job's list where one is parked (R273), and an access that awaits an
answer is noted. -/
def accessWaits (s : State) (n : Nat) (x : Stream) (h : Hold) : State :=
  let s := s.updStream n (fun y => { y with ask := x.asks h s.pt })
  if h.kind = .parked then promote s h.extent else s

-- Fetching

/-- The words of a command port's FIFO by offset. -/
def fifoWords (x : Stream) : SMap (Nat × W32) := x.fifo.zipIdx.map (fun e => (x.fifoPos + 4 * e.2, (0, e.1)))

/-- Fetched words put where none are held. -/
def putWords (l : Level) (ws : List (Nat × Nat × W32)) : Level :=
  { l with words := ws.foldl (fun m e => if (mapFind m e.1).isSome then m else mapPut m e.1 e.2) l.words }

/-- One block of the window is read, whole but for what the buffer or the ring's tail cuts off: its words that are not held. It waits where its page
is not usable (R102), and says so; any failure is kept with its code for the packet that needs the word. A page beyond the memory gives code 3 (DESIGN
CHOICE: log entry 11; a block may be read for a packet that never executes). -/
def fetchBlock (n lo hi : Nat) (s : State) : Bool × State :=
  match mapFind s.streams n with
  | none => (true, s)
  | some x =>
    let offs := ((List.range ((hi - lo) / 4)).map (fun i => lo + 4 * i)).filter (fun o => (mapFind x.top.words o).isNone)
    match offs with
    | [] => (true, s)
    | o :: _ =>
      let inside := offs.filter (fun p => decide (p + 4 ≤ x.dlen))
      let outside := (offs.filter (fun p => !decide (p + 4 ≤ x.dlen))).map (fun p => (p, 3, (0 : W32)))
      let put := fun (s : State) (ws : List (Nat × Nat × W32)) =>
        s.updStream n (fun y => y.setTop (putWords y.top (ws ++ outside)))
      let failed := fun (s : State) (code : Nat) => (true, put s (inside.map (fun p => (p, code, 0))))
      match inside.getLast? with
      | none => (true, put s [])
      | some z =>
        match streamTry (streamRead n x o (z + 4 - o) 4) s with
        | .got v t => (true, put t (inside.map (fun p => (p, 0, BitVec.ofNat 32 (leNat ((v.1.drop (p - o)).take 4))))))
        | .fail code t => failed t code
        | .wait h t => if x.late s h then failed t 3 else (false, accessWaits (put t []) n x h)
        | .hard _ => failed s 3

/-- The window of the packet at the present place is read (R96, R243): the aligned 64-byte blocks that it covers, from its first byte to 256 bytes
beyond, each once; whether every one could be. A block that the window's end cuts is read whole (DEDUCED: R243 reads blocks, and R244 lets a packet
run from held words); what the ring's tail cuts off is read when the tail has moved. -/
def fetchWindow (n : Nat) (s : State) : Bool × State :=
  match mapFind s.streams n with
  | none => (true, s)
  | some x =>
    if x.depth = 0 && x.hart.isSome then (true, s.updStream n (fun y => y.setTop { y.top with words := fifoWords y }))
    else
      let first := x.pos / 64
      (List.range 5).foldl (fun (r : Bool × State) i =>
        let lo := Max.max x.top.base (64 * (first + i))
        let end_ := Min.min x.limit (64 * (first + i) + 64)
        if lo < end_ && decide (64 * (first + i) < x.pos + 256) then
          let t := fetchBlock n lo end_ r.2
          (r.1 && t.1, t.2)
        else r) (true, s)

-- Closing

/-- The wait record of a WAIT packet of stream st for the word at a key (R410). -/
def waitRecord (s : State) (st : Nat) (x : Stream) (key out : Nat) (setter : BitVec 48) : State :=
  pushWait s x.part.toNat (waitRecordBytes s.pt ((s.pt - x.since) * 125 / 100) setter (agentId 7 0 0 st) 5 out (flagOf key))

/-- Stream n is closed: its interface or port holds none, and a STREAM.CLOSE that awaited this completes. A WAIT packet that stands, where a partition
or a command processor is reset, has its wait ended as by a kill (DESIGN CHOICE: of the outcomes of R410, which names none for it). -/
def closeStream (s : State) (n : Nat) : State :=
  match mapFind s.streams n with
  | none => s
  | some x =>
    let s := match x.wait with
      | some (.flag _ addr _ _) =>
        match (streamWord n x addr.toNat).run s with
        | .ok v _ => waitRecord s n x v.2 2 agentNone
        | .error _ _ => s
      | _ => s
    let s := { s with streams := mapErase s.streams n }
    let s := match x.closing with
      | none => s
      | some iss => complete s iss stOk 0
    match x.ifc, x.hart with
    | some i, _ => s.updIfc i (fun y => { y with stream := none })
    | none, some h => s.updHart h (fun y => { y with port := none })
    | none, none => s

/-- The current packet of stream n is over: a STREAM.CLOSE that waited for it closes the stream and completes (R431). -/
def packetOver (s : State) (n : Nat) : State :=
  if (mapFind s.streams n).any (·.closing.isSome) then closeStream s n else s

/-- A packet of a number of words has executed; `go` enters a buffer or returns in a loop. Entering a buffer reads its first window (R243). -/
def packetDone (s : State) (n words : Nat) (go : Stream → Stream := id) : State :=
  let depth := fun (s : State) => ((mapFind s.streams n).map (·.depth)).getD 0
  let t := leaveBuffers 6 (s.updStream n (fun x =>
    let l := x.top
    (go { x.setTop { l with pos := l.pos + 4 * words } with wait := none, ask := none, packets := x.packets + 1 }).trim)) n
  packetOver (if depth s < depth t then (fetchWindow n t).2 else t) n

/-- A stream fault of a packet (R102), at its offset. -/
def packetFault (s : State) (n : Nat) (x : Stream) (code : Nat) : State := packetOver (streamFault s n x code x.pos) n

/-- The packet of stream n waits. -/
def streamWaits (s : State) (n : Nat) (w : StreamWait) : State :=
  s.updStream n (fun x => { x with wait := some w, since := if x.wait == some w then x.since else s.pt })

/-- Stream n may execute a packet: it runs, and its packet does not wait but for a page. -/
def streamReady (x : Stream) : Bool := x.status == .running && (x.wait.isNone || x.wait == some .page)

/-- Runs a packet's meaning on stream n. -/
def onStream (s : State) (n : Nat) (f : Stream → Host.Outcome State Fault Refusal) : Host.Outcome State Fault Refusal :=
  match mapFind s.streams n with
  | none => .next s
  | some x => if streamReady x then f x else .next s

/-- An access of a packet: its value, or a stream fault at the packet, or a wait for the page. -/
def withAccess {α : Type} (s : State) (n : Nat) (x : Stream) (a : M α) (f : α → State → State) :
    Host.Outcome State Fault Refusal :=
  match streamTry a s with
  | .got v t => .next (f v t)
  | .fail code t => .next (packetFault t n x code)
  | .wait h t =>
    if x.late s h then .next (packetFault t n x 3)
    else
      let t := accessWaits (if h.kind = .parked && x.wait.isNone then t.count x.part.toNat 8 1 else t) n x h
      .next (if x.wait.isSome && x.wait != some .page then t else streamWaits t n .page)
  | .hard f => .fault f

/-- A condition that R95 reserves. -/
def condReserved (c : BitVec 3) : Bool := decide (6 ≤ c.toNat)

-- Packets

/-- NOP (R95): any length. -/
def execPktNop (st : Nat) (len : BitVec 16) (s : State) : Host.Outcome State Fault Refusal :=
  onStream s st (fun _ => .next (packetDone s st (1 + len.toNat)))

/-- A LAUNCH that the queue takes, or that waits for room (R91, R98). While the Sower is not ready it is dropped and counted (R457), and its packet
is done, with W = 1 too, where no retirement would come (DESIGN CHOICE). -/
def launchPacket (s : State) (st : Nat) (x : Stream) (w : Bool) (funcid arg : W64) : State :=
  if !s.rdy.getLsbD 36 then packetDone (dropAtSower s x.part.toNat) st 5 else
  match lookup s x.part funcid with
  | none => packetFault s st x 6
  | some m =>
    let b := mcbAt s m
    if b.state = 6 then packetDone (if w then setLastst s x 0x02 else s) st 5
    else if b.queueFull then streamWaits s st (.launchFull w funcid arg)
    else
      let desc := mkDesc 2 false w 0 0xFF 0 (w64 x.pos) arg 0 0 0 0 0
      let serial := s.nextSerial
      let s := enqueue s m desc [] none (streamEdge x) (some st)
      let s := s.updStream st (fun y => { y with region := y.region + 1, launched := y.launched ++ [(m, serial)] })
      if w then streamWaits s st (.retire m serial) else packetDone s st 5

/-- LAUNCH (R98). -/
def execPktLaunch (st : Nat) (w : Bool) (funcid arg : W64) (s : State) : Host.Outcome State Fault Refusal :=
  onStream s st (fun x => .next (launchPacket s st x w funcid arg))

/-- LAUNCH_ENQUEUE_RETRY (R91): an entry is free. -/
def execLaunchEnqueueRetry (st : Nat) (s : State) : Host.Outcome State Fault Refusal :=
  match mapFind s.streams st with
  | some x =>
    match x.wait with
    | some (.launchFull w funcid arg) => .next (launchPacket s st x w funcid arg)
    | _ => .next s
  | none => .next s

/-- LAUNCH_RETIRE_WAIT_END (R98): LASTST takes the status, and the retirement is a join. -/
def execLaunchRetireWaitEnd (st : Nat) (s : State) : Host.Outcome State Fault Refusal :=
  match mapFind s.streams st with
  | some x =>
    match x.wait with
    | some (.retire m serial) =>
      match x.retired.find? (fun r => r.1 == m && r.2.1 == serial) with
      | none => .next s
      | some r =>
        let s := s.updStream st (fun y => { y with
          edges := y.edges.join r.2.2.2, retired := y.retired.filter (fun q => !(q.1 == m && q.2.1 == serial)) })
        .next (packetDone (setLastst s x r.2.2.1) st 5)
    | _ => .next s
  | none => .next s

/-- The fault of entering a buffer (R98, R102), if any: its size, its level, its place. -/
def bufFault (x : Stream) (b : BufDesc) : Option Nat :=
  if b.size = 0 then none
  else if x.depth ≥ 4 then some 4
  else if b.addr.toNat % 4 ≠ 0 ∨ x.dlen < b.addr.toNat + 4 * b.size.toNat then some 3
  else none

/-- Enters a buffer, if it is not empty. -/
def enterBuf (b : BufDesc) (x : Stream) : Stream :=
  if b.size = 0 then x else { x with levels := ⟨b.addr.toNat, 4 * b.size.toNat, b.addr.toNat, []⟩ :: x.levels }

/-- A buffer size above 1,048,576 words. -/
def bufTooBig (b : BufDesc) : Bool := decide (1048576 < b.size.toNat)

/-- A packet of a number of words enters a buffer. -/
def enterPacket (s : State) (st : Nat) (x : Stream) (words : Nat) (b : BufDesc) : State :=
  match bufFault x b with
  | some code => packetFault s st x code
  | none => packetDone s st words (enterBuf b)

/-- IB (R98). -/
def execPktIb (st : Nat) (buf : BufDesc) (s : State) : Host.Outcome State Fault Refusal :=
  onStream s st (fun x =>
    .next (if bufTooBig buf then packetFault s st x 2 else enterPacket s st x 4 buf))

/-- PRED (R99). -/
def execPktPred (st : Nat) (cond : BitVec 3) (addr ref mask : W64) (count : W32) (s : State) : Host.Outcome State Fault Refusal :=
  onStream s st (fun x =>
    if condReserved cond || decide (65535 < count.toNat) then .next (packetFault s st x 2)
    else if count = 0 then .next (packetFault s st x 5)
    else withAccess s st x (streamWord st x addr.toNat) (fun v t =>
      let t := streamAcquire st x v.2 t
      if condHolds cond (v.1 &&& mask) ref then packetDone t st 8
      else packetDone t st 8 (fun y => { y with skip := (count.toNat, 0) })))

/-- LOOP (R100). A count of 0 skips to the packet after its ENDLOOP. -/
def execPktLoop (st : Nat) (trips : W32) (s : State) : Host.Outcome State Fault Refusal :=
  onStream s st (fun x =>
    .next (
      if trips = 0 then packetDone s st 2 (fun y => { y with skip := (1, 1) })
      else if x.loops.length ≥ 4 then packetFault s st x 5
      else packetDone s st 2 (fun y => { y with loops := ⟨x.depth, x.pos + 8, trips.toNat⟩ :: y.loops })))

/-- ENDLOOP (R100): another pass discards the level's fetched words (R96). -/
def execPktEndloop (st : Nat) (s : State) : Host.Outcome State Fault Refusal :=
  onStream s st (fun x =>
    .next (
      match x.loops with
      | [] => packetFault s st x 5
      | l :: rest =>
        if l.level ≠ x.depth then packetFault s st x 5
        else if l.count = 1 then packetDone s st 1 (fun y => { y with loops := rest })
        else packetDone s st 1 (fun y =>
          { y.setTop { y.top with pos := l.body, words := [] } with loops := { l with count := l.count - 1 } :: rest })))

/-- WRITE (R101). -/
def execPktWrite (st : Nat) (wide : Bool) (addr value : W64) (s : State) : Host.Outcome State Fault Refusal :=
  let n := if wide then 8 else 4
  onStream s st (fun x =>
    withAccess s st x (streamWrite st x addr.toNat n (fun _ => value.toNat) permST .write) (fun _ t =>
      packetDone t st (if wide then 5 else 4)))

/-- The wait record of a WAIT packet that has waited (R410, R411). -/
def waitPacketRecord (s : State) (st : Nat) (x : Stream) (key : Nat) : State :=
  waitRecord s st x key 0 (((lastWriter s key 8).map (·.setter)).getD agentNone)

/-- WAIT with H = 0 reads its word (R101): satisfied, it is an acquire; else the packet waits. -/
def waitWord (s : State) (st : Nat) (x : Stream) (cond : BitVec 3) (addr ref mask : W64) : Host.Outcome State Fault Refusal :=
  withAccess s st x (streamWord st x addr.toNat) (fun v t =>
    if condHolds cond (v.1 &&& mask) ref then
      let t := streamJoin st x v.2 t
      packetDone (if x.wait == some (.flag cond addr ref mask) then waitPacketRecord t st x v.2 else t) st 7
    else streamWaits t st (.flag cond addr ref mask))

/-- WAIT with H = 0 (R101). -/
def execPktWaitFlag (st : Nat) (cond : BitVec 3) (addr ref mask : W64) (s : State) : Host.Outcome State Fault Refusal :=
  onStream s st (fun x =>
    if condReserved cond then .next (packetFault s st x 2) else waitWord s st x cond addr ref mask)

/-- WAIT_REREAD (R101). -/
def execWaitReread (st : Nat) (s : State) : Host.Outcome State Fault Refusal :=
  match mapFind s.streams st with
  | some x =>
    match x.wait with
    | some (.flag cond addr ref mask) => waitWord s st x cond addr ref mask
    | _ => .next s
  | none => .next s

/-- WAIT with H = 1 (R101). -/
def execPktWaitTime (st : Nat) (bound : W64) (s : State) : Host.Outcome State Fault Refusal :=
  onStream s st (fun _ =>
    .next (if bound.toNat + 16 < s.pt then packetDone s st 3 else streamWaits s st (.time bound)))

/-- WAIT_TIME_END (R101). -/
def execWaitTimeEnd (st : Nat) (s : State) : Host.Outcome State Fault Refusal :=
  match mapFind s.streams st with
  | some x =>
    match x.wait with
    | some (.time bound) => .next (if bound.toNat + 16 < s.pt then packetDone s st 3 else s)
    | _ => .next s
  | none => .next s

/-- SIGNAL once nothing that it waits for runs (R101): the retirements are joins, and the addend is added atomically. -/
def signalNow (s : State) (st : Nat) (x : Stream) (notify : Bool) (addr addend : W64) : Host.Outcome State Fault Refusal :=
  let y := { x with edges := x.retired.foldl (fun g r => g.join r.2.2.2) x.edges }
  withAccess s st x (streamWrite st y addr.toNat 8 (fun v => (v + addend.toNat) % 2 ^ 64) (permLD ||| permST) .sync) (fun _ t =>
    let t := t.updStream st (fun z => { z with edges := y.edges, retired := [] })
    let t := match notify, x.ifc with
      | true, some i => t.updIfc i (fun f => { f with msix := f.msix + 1 })
      | _, _ => t
    packetDone t st 5)

/-- SIGNAL (R101). -/
def execPktSignal (st : Nat) (notify : Bool) (addr addend : W64) (s : State) : Host.Outcome State Fault Refusal :=
  onStream s st (fun x =>
    if x.launched.isEmpty then signalNow s st x notify addr addend
    else .next (streamWaits s st (.signal notify addr addend)))

/-- SIGNAL_ADD (R101). -/
def execSignalAdd (st : Nat) (s : State) : Host.Outcome State Fault Refusal :=
  match mapFind s.streams st with
  | some x =>
    match x.wait with
    | some (.signal notify addr addend) => if x.launched.isEmpty then signalNow s st x notify addr addend else .next s
    | _ => .next s
  | none => .next s

/-- FFENCE (R101): earlier packets have completed when it starts, so it waits for its own discard alone. -/
def execPktFfence (st : Nat) (s : State) : Host.Outcome State Fault Refusal :=
  onStream s st (fun _ => .next (streamWaits s st .ffence))

/-- FFENCE_REFETCH (R96): the fetched words of every level are discarded. -/
def execFfenceRefetch (st : Nat) (s : State) : Host.Outcome State Fault Refusal :=
  match mapFind s.streams st with
  | some x =>
    match x.wait with
    | some .ffence => .next (packetDone s st 1 Stream.discard)
    | _ => .next s
  | none => .next s

/-- COND (R98). -/
def execPktCond (st : Nat) (cond : BitVec 3) (addr ref : W64) (thenBuf elseBuf : BufDesc) (s : State) :
    Host.Outcome State Fault Refusal :=
  onStream s st (fun x =>
    if condReserved cond || bufTooBig thenBuf || bufTooBig elseBuf then .next (packetFault s st x 2)
    else withAccess s st x (streamWord st x addr.toNat) (fun v t =>
      enterPacket (streamAcquire st x v.2 t) st x 11 (if condHolds cond v.1 ref then thenBuf else elseBuf)))

/-- SWITCH (R98). -/
def execPktSwitch (st : Nat) (addr : W64) (dflt : BufDesc) (cases : List BufDesc) (s : State) :
    Host.Outcome State Fault Refusal :=
  onStream s st (fun x =>
    if cases.isEmpty || decide (16 < cases.length) || bufTooBig dflt || cases.any bufTooBig then .next (packetFault s st x 2)
    else withAccess s st x (streamWord st x addr.toNat) (fun v t =>
      enterPacket (streamAcquire st x v.2 t) st x (6 + 3 * cases.length) (cases.getD v.1.toNat dflt)))

/-- END (R98): it returns from a buffer, or stops the stream at level 0, at the packet after it. -/
def execPktEnd (st : Nat) (s : State) : Host.Outcome State Fault Refusal :=
  onStream s st (fun x =>
    .next (
      if x.loops.any (fun l => l.level == x.depth) then packetFault s st x 5
      else if x.depth = 0 then packetDone s st 1 (fun y => { y.discard with status := .ended })
      else packetDone s st 1 (fun y => { y with levels := y.levels.tail, skip := (0, 0) })))

-- Fetching

/-- Payload words i and i + 1 of a packet, low word first. -/
def dword (ws : List W32) (i : Nat) : W64 := w64 ((ws.getD i 0).toNat + (ws.getD (i + 1) 0).toNat * 2 ^ 32)

/-- A buffer descriptor in a payload. -/
def bufAt (ws : List W32) (i : Nat) : BufDesc := ⟨dword ws i, ws.getD (i + 2) 0⟩

/-- Unused FLAGS bits or a LEN that R95 does not give for the type. With H = 1 a WAIT reads no condition, whose bits then count as unused FLAGS
bits (DESIGN CHOICE: R95 does not say). -/
def badFormat (type flags len : Nat) : Bool :=
  match type with
  | 0x00 => flags != 0
  | 0x01 => decide (1 < flags) || len != 4
  | 0x02 => flags != 0 || len != 3
  | 0x03 => decide (7 < flags) || len != 7
  | 0x04 => flags != 0 || len != 1
  | 0x05 => flags != 0 || len != 0
  | 0x06 => decide (1 < flags) || len != 3 + flags
  | 0x07 => decide (15 < flags) || (if flags < 8 then len != 6 else flags != 8 || len != 2)
  | 0x08 => decide (1 < flags) || len != 4
  | 0x09 => flags != 0 || len != 0
  | 0x0A => decide (7 < flags) || len != 10
  | 0x0B => decide (15 < flags) || len != 5 + 3 * (flags + 1)
  | _ => flags != 0 || len != 0

/-- A packet executes from its words (R95). -/
def runPacket (n type flags len : Nat) (ws : List W32) (s : State) : Host.Outcome State Fault Refusal :=
  let cond : BitVec 3 := BitVec.ofNat 3 flags
  let bit := flags % 2 == 1
  match type with
  | 0x00 => execPktNop n (BitVec.ofNat 16 len) s
  | 0x01 => execPktLaunch n bit (dword ws 0) (dword ws 2) s
  | 0x02 => execPktIb n (bufAt ws 0) s
  | 0x03 => execPktPred n cond (dword ws 0) (dword ws 2) (dword ws 4) (ws.getD 6 0) s
  | 0x04 => execPktLoop n (ws.getD 0 0) s
  | 0x05 => execPktEndloop n s
  | 0x06 => execPktWrite n bit (dword ws 0) (if bit then dword ws 2 else w64 (ws.getD 2 0).toNat) s
  | 0x07 =>
    if flags = 8 then execPktWaitTime n (dword ws 0) s
    else execPktWaitFlag n cond (dword ws 0) (dword ws 2) (dword ws 4) s
  | 0x08 => execPktSignal n bit (dword ws 0) (dword ws 2) s
  | 0x09 => execPktFfence n s
  | 0x0A => execPktCond n cond (dword ws 0) (dword ws 2) (bufAt ws 4) (bufAt ws 7) s
  | 0x0B =>
    execPktSwitch n (dword ws 0) (bufAt ws 2) ((List.range (flags + 1)).map (fun i => bufAt ws (5 + 3 * i))) s
  | _ => execPktEnd n s

/-- A packet that PRED or LOOP skips (R99, R100). -/
def skipPacket (s : State) (n type words : Nat) : State :=
  leaveBuffers 6 (s.updStream n (fun x =>
    let (left, opened) := x.skip
    let skip :=
      if type = 0x04 then (left, opened + 1)
      else if type = 0x05 && opened ≠ 0 then (if opened = 1 then left - 1 else left, opened - 1)
      else if opened = 0 then (left - 1, 0) else (left, opened)
    ({ x.setTop { x.top with pos := x.pos + 4 * words } with skip := skip, wait := none }).trim)) n

/-- The held words at an offset and after it: the words, or the code of the first that failed; none where one is missing. -/
def heldWords (l : Level) (off : Nat) : Nat → Option (Except Nat (List W32))
  | 0 => some (.ok [])
  | k + 1 =>
    match mapFind l.words off with
    | none => none
    | some (code, w) =>
      if code ≠ 0 then some (.error code)
      else
        match heldWords l (off + 4) k with
        | some (.ok rest) => some (.ok (w :: rest))
        | r => r

/-- Stream n executes its next packet (R95 to R102). Of several codes of R102, that of words past the buffer's end comes first, then the TYPE, then
the format; a skipped packet is looked at for its length alone (DESIGN CHOICE: R102 gives no order, and R99 skips a packet without effect). -/
def packetStep (n : Nat) (s0 : State) : Host.Outcome State Fault Refusal :=
  match mapFind s0.streams n with
  | none => .next s0
  | some x0 =>
    if !streamReady x0 || (partAt s0 x0.part.toNat).frozen || x0.limit < x0.pos + 4 then .next s0
    else if x0.pos % 4 ≠ 0 then .next (packetFault s0 n x0 3)
    else
      let r := fetchWindow n s0
      let s := r.2
      let x := (mapFind s.streams n).getD x0
      let waits := streamWaits (if x0.wait.isNone then s.count x.part.toNat 8 1 else s) n .page
      if !r.1 then .next waits else
      match heldWords x.top x.pos 1 with
      | none => .next waits
      | some (.error code) => .next (packetFault s n x code)
      | some (.ok hs) =>
        let h := hs.headD 0
        let type := fieldNat h 24 8
        let flags := fieldNat h 16 8
        let len := fieldNat h 0 16
        if x.limit < x.pos + 4 * (1 + len) then
          .next (if x.depth = 0 then s else packetFault s n x 2)
        else if x.skip.1 ≠ 0 then .next (skipPacket s n type (1 + len))
        else if 0x0C < type then .next (packetFault s n x 1)
        else if badFormat type flags len then .next (packetFault s n x 2)
        else
          match heldWords x.top (x.pos + 4) (if type = 0 then 0 else len) with
          | none => .next waits
          | some (.error code) => .next (packetFault s n x code)
          | some (.ok ws) => runPacket n type flags len ws s

/-- Stream n moves: its packet's wait ends, or it executes a packet. -/
def streamStep (n : Nat) (s : State) : Host.Outcome State Fault Refusal :=
  match mapFind s.streams n with
  | none => .next s
  | some x =>
    if x.status != .running then .next s else
    match x.wait with
    | some (.launchFull _ _ _) => execLaunchEnqueueRetry n s
    | some (.retire _ _) => execLaunchRetireWaitEnd n s
    | some (.flag _ _ _ _) => execWaitReread n s
    | some (.time _) => execWaitTimeEnd n s
    | some (.signal _ _ _) => execSignalAdd n s
    | some .ffence => execFfenceRefetch n s
    | _ => packetStep n s

-- Commands on streams

/-- The stream of an issuer's interface, or of the command port of the core that issues. -/
def issuerStream (s : State) (iss : Issuer) : Option Nat :=
  match iss.ifc with
  | some i => (ifcAt s i).stream
  | none => (hartAt s s.hart).port

def firstFree {α : Type} (m : SMap α) (n : Nat) : Nat := ((List.range' n (m.length + 1)).find? (fun i => (mapFind m i).isNone)).getD n

/-- STREAM.OPEN (R94, R431, R442): DOBJ is the object with the rights named. An interface and a command port hold one stream
each. -/
def execStreamOpen (iss : Issuer) (m : Nat) (obj : BitVec 24) (perm : BitVec 12) (ring tail : W64) (s : State) :
    Host.Outcome State Fault Refusal :=
  let b := mcbAt s m
  let d := readDir s m obj.toNat
  command s iss (mayName s iss b.part)
    (if !b.v || !dirWellFormed d || !dirPresent d then complete s iss stBadField 0
     else if (issuerStream s iss).isSome then complete s iss stBusy 0
     else
       let n := firstFree s.streams 0
       let x : Stream :=
         { serial := s.nextSerial, ifc := iss.ifc, hart := if iss.ifc.isNone then some s.hart else none, part := b.part, mcb := m,
           dobj := mkCap obj.toNat (dirSp d) perm 0 0 0 0, dlen := 65536 * dirNpages d, tail := if iss.ifc.isNone then 0 else tail.toNat,
           status := .running, levels := [⟨0, 0, if iss.ifc.isNone then 0 else ring.toNat, []⟩], loops := [], skip := (0, 0),
           wait := none, since := 0, launched := [], retired := [], packets := 0, region := 0, edges := EdgeSet.none, xtlb := [],
           fifo := [], fifoPos := 0 }
       let s := { s with streams := mapPut s.streams n x, nextSerial := s.nextSerial + 1 }
       let s := match iss.ifc with
         | some i => s.updIfc i (fun y => { y with stream := some n })
         | none => s.updHart s.hart (fun y => { y with port := some n })
       complete s iss stOk (w64 n))

/-- The issuer may name a stream: its partition's, or none that is open. -/
def mayStream (s : State) (iss : Issuer) (n : Nat) : Bool :=
  match mapFind s.streams n with
  | none => true
  | some x => mayName s iss x.part

/-- STREAM.TAIL (R102, R431): the ring's tail moves, and a stopped stream restarts where it stands. -/
def execStreamTail (iss : Issuer) (st : Nat) (tail : W64) (s : State) : Host.Outcome State Fault Refusal :=
  command s iss (mayStream s iss st)
    (match mapFind s.streams st with
     | none => complete s iss stBadField 0
     | some x =>
       let s := s.updStream st (fun y => { y with tail := if x.hart.isSome then y.tail else tail.toNat, status := .running })
       complete (leaveBuffers 6 s st) iss stOk 0)

/-- STREAM.CLOSE (R431): the stream closes after its current packet, one that waits, and at once where there is none. A second one for a stream that is
closing is BUSY (DESIGN CHOICE: R431 does not say). -/
def execStreamClose (iss : Issuer) (st : Nat) (s : State) : Host.Outcome State Fault Refusal :=
  command s iss (mayStream s iss st)
    (match mapFind s.streams st with
     | none => complete s iss stBadField 0
     | some x =>
       if x.closing.isSome then complete s iss stBusy 0
       else if x.status == .running && x.wait.isSome then s.updStream st (fun y => { y with closing := some iss })
       else complete (closeStream s st) iss stOk 0)

end Sys2Proof.Machine
end

