-- ==== Sys2Proof/Machine/Admin.lean ====
section
/-!
DEFINITION. The commands of the hypervisor on partitions and ports: queue pairs, ASSIGN, PARTITION, KEYSLOT, REPLAY (R431), dirty
tracking and checkpoint (R436 to R439), partition reset (R440, R441), and windows (R446, R447).
-/
namespace Sys2Proof.Machine

-- Queue pairs (R275, R431)

/-- QP.CREATE: the queue pair is bound to a block and a plot position. -/
def execQpCreate (iss : Issuer) (m : Nat) (px py : BitVec 5) (peer : QpPeer) (s : State) : Host.Outcome State Fault Refusal :=
  let b := mcbAt s m
  command s iss (mayName s iss b.part)
    (if !b.v || decide (2 ^ b.wlog.toNat ≤ px.toNat) || decide (2 ^ b.hlog.toNat ≤ py.toNat) then complete s iss stBadField 0
     else
       let n := firstFree s.qps 0
       complete { s with qps := mapPut s.qps n ⟨m, px.toNat, py.toNat, peer⟩ } iss stOk (w64 n))

/-- QP.DESTROY. -/
def execQpDestroy (iss : Issuer) (qp : BitVec 24) (s : State) : Host.Outcome State Fault Refusal :=
  match mapFind s.qps qp.toNat with
  | none => command s iss true (complete s iss stBadField 0)
  | some q =>
    command s iss (mayName s iss (mcbAt s q.mcb).part) (complete { s with qps := mapErase s.qps qp.toNat } iss stOk 0)

-- Partitions

/-- ASSIGN (R428). -/
def execAssign (iss : Issuer) (ifc : Nat) (part : BitVec 4) (pasid : BitVec 20) (s : State) : Host.Outcome State Fault Refusal :=
  hypOnly s iss
    (if 4096 ≤ ifc ∨ !(partAt s part.toNat).exists_ then complete s iss stBadField 0
     else
       let s := s.updIfc ifc (fun x => { x with assigned := some (part, pasid) })
       complete (s.updPart part.toNat (fun p => { p with pasid := pasid })) iss stOk 0)

/-- Some context is bound, binding or suspended on an island (R103, R459). -/
def islandBusy (s : State) (island : Nat) : Bool :=
  s.mcbs.any (fun e => (e.2.state == 2 || e.2.state == 3 || e.2.state == 4 || e.2.state == 5) &&
    e.2.plot.any (fun k => islandOf k == island))

/-- The islands of a mask. -/
def islandsOf (mask : BitVec 16) : List Nat := (List.range 16).filter (fun i => mask.getLsbD i)

/-- A pool lies in another. -/
def poolWithin (a b : Nat × Nat) : Bool := a.2 == 0 || (decide (b.1 ≤ a.1) && decide (a.1 + a.2 ≤ b.1 + b.2))

/-- A mask leaves another partition that exists with no island (R103). -/
def takesLastIsland (s : State) (part : Nat) (mask : BitVec 16) : Bool :=
  s.parts.any (fun e => e.2.exists_ && e.1 != part &&
    (List.range 16).all (fun i => (islandAt s i).part != some (BitVec.ofNat 4 e.1) || mask.getLsbD i))

/-- PARTITION (R103, R431, R457, R465, R80, R81, R281). Each partition holds at least one island: a mask that is empty, or that takes
the last island of another partition, is refused; R103 names no status, and BADFIELD is the model's choice (DESIGN CHOICE). -/
def execPartition (iss : Issuer) (a : PartitionArgs) (s : State) : Host.Outcome State Fault Refusal :=
  let part := a.part.toNat
  hypOnly s iss
    (if a.islands = 0 ∨ takesLastIsland s part a.islands ∨ a.invport = 4791 ∨ !poolWithin a.savePool a.hbmPool ∨
        a.ingress.any (fun p => decide (4 < p.ipv4.length) || decide (4 < p.ipv6.length)) then complete s iss stBadField 0
     else
       let moved := (List.range 16).filter (fun i =>
         ((islandAt s i).part == some a.part) != a.islands.getLsbD i)
       if moved.any (islandBusy s) ∨ (islandsOf a.islands).any (fun i => !s.rdy.getLsbD (20 + i)) then complete s iss stBusy 0
       else
         let s := (List.range 16).foldl (fun s i =>
           if a.islands.getLsbD i then s.updIsland i (fun x => { x with part := some a.part })
           else if (islandAt s i).part = some a.part then s.updIsland i (fun x => { x with part := none }) else s) s
         let s := (List.range 32).foldl (fun s l =>
           if a.lanes.getLsbD l then s.updLane l (fun x => { x with part := some a.part })
           else if (laneAt s l).part = some a.part then s.updLane l (fun x => { x with part := none }) else s) s
         let s := a.macs.foldl (fun s p => s.updPort p.1 (fun x => { x with mac := p.2 })) s
         let keep := s.ingress.filter (fun e => e.part != a.part &&
           !a.ingress.any (fun p => p.port == e.pair.port && p.vlan == e.pair.vlan))
         let s := { s with ingress := keep ++ a.ingress.map (fun p => Ingress.mk p a.part) }
         let s := s.updPart part (fun p => { p with
           exists_ := true, invport := a.invport, slowPath := a.slowPath, gsramPool := a.gsramPool, hbmPool := a.hbmPool,
           savePool := a.savePool })
         complete s iss stOk 0)

/-- KEYSLOT (R52): two XTS keys in the low 512 bits and a GCM key above them, or an erasure. What the old keys encrypted stays under them
(R51). -/
def execKeyslot (iss : Issuer) (slot : BitVec 12) (keys : Option (BitVec 768)) (parts : BitVec 16) (s : State) :
    Host.Outcome State Fault Refusal :=
  hypOnly s iss
    (match keys with
     | none => complete { s with slots := mapErase s.slots slot.toNat } iss stOk 0
     | some k => complete { s with slots := mapPut s.slots slot.toNat ⟨field k 0 512, field k 512 256, parts⟩ } iss stOk 0)

/-- The blocks of masked partitions. -/
def maskedBlocks (s : State) (parts : BitVec 16) : List Nat :=
  (s.mcbs.filter (fun e => parts.getLsbD e.2.part.toNat)).map (·.1)

/-- REPLAY (R201): every parked access of every bound context of the masked partitions is sent again. -/
def execReplay (iss : Issuer) (parts : BitVec 16) (s : State) : Host.Outcome State Fault Refusal :=
  hypOnly s iss (complete ((maskedBlocks s parts).foldl replayPlot s) iss stOk 0)

-- Dirty tracking

/-- The controllers of GSRAM and HBM. -/
def controllers : List PtAgent :=
  [.gsramController 0, .gsramController 1] ++ (List.range 8).map .hbmController

/-- BITMAP.SWAP (R437): the switch time is 1,000 ns ahead. The first swap gives the places of the buffers. A swap while one is under way is BUSY
(DESIGN CHOICE: R437 does not say). -/
def execBitmapSwap (iss : Issuer) (bases : Option (Nat × Nat)) (s : State) : Host.Outcome State Fault Refusal :=
  hypOnly s iss
    (if s.dirtySwitch.isSome then complete s iss stBusy 0
     else if s.dirtyAt.isSome == bases.isSome then complete s iss stBadField 0
     else
       let at_ := s.pt + 1000
       { s with dirtyAt := s.dirtyAt.or bases, dirtySwitch := some at_, waiting := s.waiting ++ [.bitmap iss at_] })

/-- BITMAP_SWITCH_COMPLETE (R437): every controller's copy of package time has reached S, so that it writes into the new buffer alone. -/
def execBitmapSwitchComplete (s : State) : Host.Outcome State Fault Refusal :=
  .next (
    match s.dirtySwitch with
    | none => s
    | some at_ =>
      if controllers.any (fun a => decide (portPt s a < at_)) then s
      else
        let done := s.waiting.findSome? (fun w => match w with | .bitmap iss t => some (iss, t) | _ => none)
        let s := { s with
          dirtyOne := !s.dirtyOne, dirtySwitch := none
          waiting := s.waiting.filter (fun w => match w with | .bitmap _ _ => false | _ => true) }
        match done with
        | some (iss, t) => complete s iss stOk (w64 t)
        | none => s)

-- Checkpoint

/-- A binding that a freeze stops: the context goes back to where it was (R438). -/
def unbind (s : State) (m : Nat) : State :=
  let b := mcbAt s m
  if b.state ≠ 2 then s
  else
    let s := b.plot.foldl (fun s k => if (coreAt s k).bound = some m then s.updCore k Core.freed else s) s
    match b.inv with
    | none => s
    | some i =>
      if b.saved.isEmpty then s.updMcb m (fun b => { b with state := 1, inv := none })
      else s.updMcb m (fun b => { b with state := 5, inv := some { i with stage := .search } })

/-- Pre-emption of every BOUND context of a list, or none where the save pool cannot hold every image (R438). -/
def preemptAll : List Nat → State → Option State
  | [], s => some s
  | m :: rest, s =>
    if (mcbAt s m).state = 3 then
      match requestPreempt s m with
      | none => none
      | some t => preemptAll rest t
    else preemptAll rest s

/-- The masked partitions freeze or thaw. -/
def setFrozen (s : State) (parts : BitVec 16) (f : Bool) : State :=
  (List.range 16).foldl (fun s p => if parts.getLsbD p then s.updPart p (fun x => { x with frozen := f }) else s) s

/-- CHECKPOINT (R438): freeze and pre-empt. -/
def execCheckpoint (iss : Issuer) (parts : BitVec 16) (target : CkptTarget) (dirty stayFrozen : Bool) (s : State) :
    Host.Outcome State Fault Refusal :=
  hypOnly s iss
    (let t := setFrozen s parts true
     let bs := maskedBlocks s parts
     let bad := match target with
       | .qps l => l.isEmpty || decide (8 < l.length) || l.any (fun q => (mapFind s.qps q.toNat).isNone)
       | .pmem _ => false
     if bad then complete s iss stBadField 0
     else
       match preemptAll bs (bs.foldl unbind t) with
       | none => complete s iss stBusy 0
       | some u => { u with waiting := u.waiting ++ [.checkpoint iss parts target dirty stayFrozen s.pt] })

/-- A page is dirty in the buffer that the last swap retired (R437, R438). -/
def retiredDirty (s : State) (sp page : Nat) : Bool :=
  match s.dirtyAt with
  | none => false
  | some (b0, b1) =>
    let bit := dirtyBit sp (65536 * page)
    (memByte s.mem (physKey 1 0 ((if s.dirtyOne then b0 else b1) + bit / 8))).getLsbD (bit % 8)

/-- The pages of a partition: GSRAM, then HBM. -/
def partPages (p : Partition) : List (Nat × Nat) :=
  (List.range' p.gsramPool.1 p.gsramPool.2).map (fun g => (0, g)) ++ (List.range' p.hbmPool.1 p.hbmPool.2).map (fun g => (1, g))

/-- The stream of one region of pages (R439, R261). -/
def regionStream (s : State) (dirty : Bool) (pages : List (Nat × Nat)) : List Byte :=
  (pages.zipIdx.flatMap (fun e =>
    if dirty && !retiredDirty s e.1.1 e.1.2 then []
    else recordBytes e.2 (viewBytes s none (physKey e.1.1 0 (65536 * e.1.2)) 65536))) ++ leBytes 16 endRecord.toNat

/-- The pages of a list in regions of 4 GiB. -/
def regions : Nat → List (Nat × Nat) → List (List (Nat × Nat))
  | 0, _ => []
  | fuel + 1, l => if l.isEmpty then [] else l.take 65536 :: regions fuel (l.drop 65536)

/-- Streams go to the target: stream r at offset r times 4 GiB and 2 MiB, on the queue pairs in turn, or in PMEM, where they are durable. -/
def writeStreams (target : CkptTarget) : Nat → List (List Byte) → State → State
  | _, [], s => s
  | r, bs :: rest, s =>
    let off := r * 0x100200000
    writeStreams target (r + 1) rest (match target with
      | .pmem base =>
        let t := putBytes s none (physKey 3 0 (base + off)) bs
        { t with pmem := (pmemBlocks (physKey 3 0 (base + off)) bs.length).foldl mapErase t.pmem }
      | .qps l =>
        let qp := l.getD (r % l.length) 0
        s.transmitRdma (roceRequest s qp.toNat 1 (w64 off) bs.length bs) (fun u => .rdmaSend qp 1 (w64 off) bs bs.length u))

/-- CHECKPOINT_STREAMS_WRITTEN (R438, R439): every context is suspended or gone, the streams are written, and the partitions thaw or
stay frozen. -/
def execCheckpointStreamsWritten (s : State) : Host.Outcome State Fault Refusal :=
  .next (
    match s.waiting.zipIdx.findSome? (fun e => match e.1 with
        | .checkpoint iss parts target dirty stay at_ => some (e.2, iss, parts, target, dirty, stay, at_)
        | _ => none) with
    | none => s
    | some (n, iss, parts, target, dirty, stay, at_) =>
      if (maskedBlocks s parts).any (fun m => (mcbAt s m).state == 3 || (mcbAt s m).state == 4) then s
      else
        let pages := ((List.range 16).filter (fun p => parts.getLsbD p)).flatMap (fun p =>
          regions 300 (partPages (partAt s p)))
        let t := writeStreams target 0 (pages.map (regionStream s dirty)) s
        let t := { t with waiting := t.waiting.eraseIdx n }
        complete (if stay then t else setFrozen t parts false) iss stOk (w64 at_))

-- Reset

/-- A partition's queued invocations are answered KILLED; those that are bound are killed, suspended ones end (R440). -/
def killAll (s : State) (m : Nat) : State :=
  let b := mcbAt s m
  let s := if b.inv.isSome then b.entries.tail.foldl (fun s e => e.answer s 0x05 []) s
    else b.entries.foldl (fun s e => e.answer s 0x05 []) s
  let s := s.updMcb m (fun b => { b with entries := if b.inv.isSome then b.entries.take 1 else [] })
  if b.state = 3 ∨ b.state = 4 then startKill s m (killStatus s m) else finish s m 0x05 false

/-- The message in the Sower is of a partition that is reset: it is dropped and counted (R440). -/
def dropMessage (s : State) (part : BitVec 4) : State :=
  if s.sower.any (fun x => x.1.part == part) then dropAtSower { s with sower := none } part.toNat else s

/-- The streams of a partition are closed. -/
def closeStreams (s : State) (part : BitVec 4) : State :=
  ((s.streams.filter (fun e => e.2.part == part)).map (·.1)).foldl closeStream s

/-- RESET (R440): kills begin, arrivals are dropped, and the partition's streams are closed. -/
def execPartitionReset (iss : Issuer) (part : BitVec 4) (s : State) : Host.Outcome State Fault Refusal :=
  hypOnly s iss
    (if !(partAt s part.toNat).exists_ then complete s iss stBadField 0
     else if (partAt s part.toNat).scrubbing then complete s iss stBusy 0
     else
       let s := s.updPart part.toNat (fun p => { p with scrubbing := true, resetBy := some iss, frozen := true })
       let s := ((s.mcbs.filter (fun e => e.2.part == part)).map (·.1)).foldl killAll s
       closeStreams (dropMessage s part) part)

/-- The scrub of a run of pages (R441): zero bytes, good checks, tags clear, words empty, no stamp. -/
def scrubRun (s : State) (sp : Nat) (run : Nat × Nat) : State :=
  let out := fun (unit k : Nat) => !(decide (physKey sp 0 (65536 * run.1) ≤ k * unit) && decide (k * unit < physKey sp 0 (65536 * (run.1 + run.2))))
  let s := { s with
    mem := s.mem.filter (fun e => out 1 e.1), tags := s.tags.filter (fun e => out 16 e.1), fe := s.fe.filter (fun e => out 8 e.1)
    feMark := s.feMark.filter (fun e => out 8 e.1), stamps := s.stamps.filter (fun e => out 64 e.1)
    marks := s.marks.filter (fun e => out 1 e.1), bars := s.bars.filter (fun e => out 64 e.1)
    barsAt := s.barsAt.filter (fun e => out 1 (e.1 / 65536))
    bad := s.bad.filter (fun e => out 64 e.1), enc := s.enc.filter (fun e => out 64 e.1)
    encPage := s.encPage.filter (fun e => out 65536 e.1) }
  (List.range' run.1 run.2).foldl (fun s g => markDirty s sp (65536 * g)) s

/-- A partition with its debug state, pages in use and job ring cleared (R440). -/
def Partition.cleared (p : Partition) : Partition :=
  { p with
    used := [], waitRing := (0, 0), waits := Ring.empty, traceTargets := (0, 0), traces := [], bps := [], wps := [], banks := []
    fixed := [], sample := ([], 0, 0, 0), frozen := false, scrubbing := false, resetBy := Option.none, jobRing := [], hostJobs := [], table := []
    resets := p.resets + 1, debugStops := [], skewLog := [] }

/-- What still waits as a partition has been reset: pages of its pools are free already, and a watchpoint setting of its debug state, which is cleared,
completes with no effect (DESIGN CHOICE: R440 names no status). -/
def resetWaiting (part : BitVec 4) (inPool : Nat × Nat → Bool) (s : State) (w : Waiting) : State :=
  let keep := fun (w : Waiting) => { s with waiting := s.waiting ++ [w] }
  match w with
  | .watchpoint iss p _ _ _ => if p = part then complete s iss stOk 0 else keep w
  | .revoke iss h pages p => keep (.revoke iss h (pages.filter (fun g => !inPool g)) p)
  | .free h pages p => keep (.free h (pages.filter (fun g => !inPool g)) p)
  | w => keep w

/-- SCRUB_COMPLETE (R440, R441): the kills have completed; blocks, queue pairs and key-slot enables are cleared, streams opened since are closed, the
islands are power-cycled, the pages are scrubbed, and RESET completes. A granary segment that the partition's blocks map in another partition's pool
keeps its reference count (DESIGN CHOICE: R50 lowers it by a removal, and R440 is none). -/
def execScrubComplete (part : BitVec 4) (s : State) : Host.Outcome State Fault Refusal :=
  let p := partAt s part.toNat
  .next (
    if !p.scrubbing || s.mcbs.any (fun e => e.2.part == part && e.2.inv.isSome) then s
    else
      let blocks := (s.mcbs.filter (fun e => e.2.part == part)).map (·.1)
      let inPool := fun (g : Nat × Nat) => inRun (if g.1 = 0 then p.gsramPool else p.hbmPool) g.2
      let inPools := fun (g : Segment) => g.pages.any (fun x => inPool (g.sp, x))
      let s := closeStreams (dropMessage s part) part
      let s := s.waiting.foldl (resetWaiting part inPool) { s with waiting := [] }
      let s := { s with
        qps := s.qps.filter (fun e => !blocks.contains e.2.mcb)
        slots := s.slots.map (fun e => (e.1, { e.2 with parts := e.2.parts &&& ~~~((1 : BitVec 16) <<< part.toNat) }))
        mcbs := s.mcbs.filter (fun e => e.2.part != part)
        granary := s.granary.filter (fun g => !inPools g)
        cores := s.cores.map (fun e => if corePart s e.1 = some part then (e.1, e.2.cleared) else e) }
      let s := (List.range 16).foldl (fun s i =>
        if (islandAt s i).part = some part then s.updIsland i (fun x => { x with xtlb2 := [] }) else s) s
      let s := scrubRun (scrubRun s 0 p.gsramPool) 1 p.hbmPool
      let s := s.updPart part.toNat Partition.cleared
      match p.resetBy with
      | some iss => complete s iss stOk 0
      | none => s)

-- Windows

/-- WINDOW for a reduction window (R447). -/
def execWindowReduction (iss : Issuer) (win : BitVec 6) (base pages : Nat) (epoch : W16) (s : State) :
    Host.Outcome State Fault Refusal :=
  hypOnly s iss (complete { s with windows := mapPut s.windows win.toNat ⟨base, pages, epoch⟩ } iss stOk 0)

/-- WINDOW for an entry of the export table (R446). -/
def execWindowExport (iss : Issuer) (slot : Nat) (entry : Option ExportEntry) (s : State) : Host.Outcome State Fault Refusal :=
  hypOnly s iss (complete { s with exports := match entry with
    | none => mapErase s.exports slot
    | some e => mapPut s.exports slot e } iss stOk 0)

end Sys2Proof.Machine
end

