-- ==== Sys2Proof/Machine/Debug.lean ====
section
/-!
DEFINITION. The debug unit (R410 to R422): counter banks and trace units, the snapshot of open waits, breakpoints, watchpoints
and the sampling unit.
-/
namespace Sys2Proof.Machine

def Partition.bank (p : Partition) (u : Nat) : Bank := mapGet Bank.free p.banks u
def Partition.setBank (p : Partition) (u : Nat) (b : Bank) : Partition := { p with banks := mapSet Bank.free p.banks u b }

-- Ownership (R421): what an event of an issuer does, with RES of R422: 0 done, 1 BUSY, 2 not owner

def Bank.claim (b : Bank) : Option Nat → Bank × Nat
  | none =>
    match b.owner with
    | .guest g => ({ b with owner := .taken g, savedCounters := b.counters, savedSel := b.sel }, 0)
    | .free => ({ b with owner := .hyp }, 0)
    | _ => (b, 0)
  | some i =>
    match b.owner with
    | .free => ({ b with owner := .guest i }, 0)
    | .guest g => (b, if g = i then 0 else 1)
    | _ => (b, 1)

def Bank.release (b : Bank) : Option Nat → Bank × Nat
  | none =>
    match b.owner with
    | .hyp => ({ b with owner := .free }, 0)
    | .taken g =>
      ({ owner := .guest g, counters := b.savedCounters, sel := b.savedSel, savedCounters := [], savedSel := 0, disc := true }, 0)
    | _ => (b, 2)
  | some i =>
    match b.owner with
    | .guest g => if g = i then ({ b with owner := .free, disc := false }, 0) else (b, 2)
    | .taken g => if g = i then ({ b with owner := .hyp, savedCounters := [], savedSel := 0, disc := false }, 0) else (b, 2)
    | _ => (b, 2)

/-- RES of a read or write by an issuer. -/
def Bank.access (b : Bank) : Option Nat → Nat
  | none => match b.owner with
    | .hyp => 0
    | .taken _ => 0
    | _ => 2
  | some i => match b.owner with
    | .guest g => if g = i then 0 else 2
    | .taken g => if g = i then 1 else 2
    | _ => 2

/-- The status word of R422: DISC is the owning guest's. -/
def Bank.status (b : Bank) (ifc : Option Nat) (res : Nat) : W64 :=
  w64 (res + (match b.owner, ifc with
    | .guest g, some i => if g = i && b.disc then 4 else 0
    | _, _ => 0))

/-- A bank or trace-unit command: units 6 and 7 do not exist. -/
def bankCommand (s : State) (iss : Issuer) (part : BitVec 4) (unit : BitVec 3) (bad : Bool) (run : Bank → State) :
    Host.Outcome State Fault Refusal :=
  command s iss (mayName s iss part)
    (if 6 ≤ unit.toNat || bad || !(partAt s part.toNat).exists_ then complete s iss stBadField 0
     else run ((partAt s part.toNat).bank unit.toNat))

/-- The bank's new state, and the completion. -/
def setBank (s : State) (iss : Issuer) (part : BitVec 4) (unit : BitVec 3) (b : Bank) (result : W64) : State :=
  complete (s.updPart part.toNat (fun p => p.setBank unit.toNat b)) iss stOk result

/-- CLAIM (R421). -/
def execBankClaim (iss : Issuer) (part : BitVec 4) (unit : BitVec 3) (s : State) : Host.Outcome State Fault Refusal :=
  bankCommand s iss part unit false (fun b =>
    let r := b.claim iss.ifc
    setBank s iss part unit r.1 (r.1.status iss.ifc r.2))

/-- RELEASE (R421). -/
def execBankRelease (iss : Issuer) (part : BitVec 4) (unit : BitVec 3) (s : State) : Host.Outcome State Fault Refusal :=
  bankCommand s iss part unit false (fun b =>
    let r := b.release iss.ifc
    setBank s iss part unit r.1 (r.1.status iss.ifc r.2))

/-- READ (R421, R422): the eight counters go to host memory. A trace unit has none. -/
def execBankRead (iss : Issuer) (part : BitVec 4) (unit : BitVec 3) (va : W64) (s : State) : Host.Outcome State Fault Refusal :=
  bankCommand s iss part unit false (fun b =>
    let res := b.access iss.ifc
    if res ≠ 0 then complete s iss stOk (b.status iss.ifc res)
    else
      let t := if unit.toNat < 4 then hostWrite s iss va ((List.range 8).flatMap (fun i => leBytes 8 (mapGet 0 b.counters i).toNat)) else s
      setBank t iss part unit (match iss.ifc with | some _ => { b with disc := false } | none => b) (b.status iss.ifc 0))

/-- WRITE (R419, R421): the selections of a bank's counters. A trace unit has none. -/
def execBankWrite (iss : Issuer) (part : BitVec 4) (unit : BitVec 3) (sel : BitVec 64) (s : State) :
    Host.Outcome State Fault Refusal :=
  let bad := if unit.toNat < 4 then (List.range 8).any (fun i => decide (12 ≤ fieldNat sel (8 * i) 8)) else sel != 0
  bankCommand s iss part unit bad (fun b =>
    let res := b.access iss.ifc
    if res ≠ 0 then complete s iss stOk (b.status iss.ifc res)
    else setBank s iss part unit { b with sel := sel } (b.status iss.ifc 0))

-- The snapshot (R412)

/-- The place of a word, for FLAG of an open wait. -/
def placeOf (s : State) (w : Who) (obj sp off : Nat) : Nat :=
  match (resolve w obj sp off { write := false }).run s with
  | .ok r _ => r.key
  | .error _ _ => 0

/-- The last agent that changed the flag of a standing wait of core k (R412): for a queue port, who last pushed or popped its FIFO, at either
end, and for a barrier, who last arrived. -/
def lastSetter (s : State) (k : Nat) (h : Hold) : BitVec 48 :=
  let touched := fun (c n : Nat) => (mapFind (coreAt s c).portSetter n).getD agentNone
  if h.kind = .slot then ((coreAt s k).slot h.flag).setter
  else if h.kind ≠ .port then flagSetter (·.last) s k h
  else if h.flag = 63 then touched (mailboxDest (coreAt s k).th) 62
  else if h.lease = 1 then touched ((neighbour k (h.flag - 56)).getD k) (56 + farPort (h.flag - 56))
  else touched k h.flag

/-- Open waits of core k: its thread's hold, replayed st.ef forms at their controllers, and commands that wait for a slot's fill or for room in qv or
qc. -/
def coreWaits (s : State) (k : Nat) : List (List Byte) :=
  let c := coreAt s k
  let cycles := fun (since : Nat) => cyclesOf s k (s.pt - since)
  (match c.hold.bind (fun h => h.flagWait.map (fun f => (h, f))) with
    | none => []
    | some (h, f, flag, since) =>
      [waitRecordBytes s.pt (cycles since) (lastSetter s k h) (agentId 0 k 0 0) f 0 flag]) ++
  c.hoard.filterMap (fun h => h.wait.map (fun w =>
    waitRecordBytes s.pt (cycles w.1) (((mapFind s.feMark (w.2 / 8)).map (·.setter)).getD agentNone) (agentId 0 k 0 0) 0 0 (flagOf w.2))) ++
  c.cmds.flatMap (fun x => x.waits.map (fun w =>
    let setter := if w.1 = 3 then (c.slot w.2.1).setter else (mapFind c.portSetter w.2.1).getD agentNone
    waitRecordBytes s.pt (cycles w.2.2) setter (agentId (1 + x.eng.toNat) k x.seq.toNat 0) w.1 0 w.2.1))

/-- Open waits of an invocation's records for their wait words. -/
def taskWaits (s : State) (m : Nat) : List (List Byte) :=
  match (mcbAt s m).inv with
  | none => []
  | some i => (i.tasks.filter (fun t => t.wen && !t.seen && t.since != 0)).map (fun t =>
    let w := whoSower s m
    let key := match (taskEntry w m t.sidx).run s with
      | .ok c _ => placeOf s w c.1.obj c.1.sp t.wwoff
      | .error _ _ => 0
    waitRecordBytes s.pt (cyclesOf s t.core (s.pt - t.since)) (((mapFind s.feMark (key / 8)).map (·.setter)).getD agentNone)
      (agentId 5 t.core t.n 0) 4 0 (flagOf key))

/-- The open wait of a stream's WAIT packet. -/
def streamWaitEntry (s : State) (n : Nat) (x : Stream) : Option (List Byte) :=
  match x.wait with
  | some (.flag _ addr _ _) =>
    let key := placeOf s (whoStream n x) x.dobj.obj x.dobj.sp addr.toNat
    some (waitRecordBytes s.pt ((s.pt - x.since) * 125 / 100) (((lastWriter s key 8).map (·.setter)).getD agentNone) (agentId 7 0 0 n) 5 0
      (flagOf key))
  | _ => none

/-- The open-wait entries of a partition. -/
def openWaits (s : State) (part : BitVec 4) : List (List Byte) :=
  ((List.range 1024).filter (fun k => corePart s k == some part)).flatMap (coreWaits s) ++
  ((s.mcbs.filter (fun e => e.2.part == part)).flatMap (fun e => taskWaits s e.1)) ++
  (s.streams.filter (fun e => e.2.part == part)).filterMap (fun e => streamWaitEntry s e.1 e.2)

/-- SNAPSHOT (R412): the entries go to host memory; RESULT is their number. -/
def execSnapshot (iss : Issuer) (part : BitVec 4) (va : W64) (s : State) : Host.Outcome State Fault Refusal :=
  command s iss (mayName s iss part)
    (let l := openWaits s part
     complete (hostWrite s iss va l.flatten) iss stOk (w64 l.length))

-- Breakpoints and watchpoints

/-- BPWRITE (R414). -/
def execBpWrite (iss : Issuer) (part : BitVec 4) (n : BitVec 2) (value : W64) (s : State) : Host.Outcome State Fault Refusal :=
  command s iss (mayName s iss part)
    (if !value.getLsbD 48 && (fieldNat value 46 2 != 0 || fieldNat value 30 16 != 0) then complete s iss stBadField 0
     else complete (s.updPart part.toNat (fun p => { p with bps := mapSet 0 p.bps n.toNat value })) iss stOk 0)

/-- A watchpoint register that WPWRITE takes (R416). -/
def watchOk (v : BitVec 128) : Bool :=
  fieldNat v 100 12 == 0 && fieldNat v 8 38 == 0 && fieldNat v 4 3 == 0 && decide (fieldNat v 60 4 < 2) &&
  !(v.getLsbD 0 && fieldNat v 112 16 == 0)

/-- WPWRITE (R416): an accepted setting binds 64 cycles later, at the clock of the partition's slowest island (R461), and the command completes
then. -/
def execWpWrite (iss : Issuer) (part : BitVec 4) (n : BitVec 3) (value : BitVec 128) (s : State) :
    Host.Outcome State Fault Refusal :=
  command s iss (mayName s iss part)
    (if !watchOk value then complete s iss stBadField 0
     else { s with waiting := s.waiting ++ [.watchpoint iss part n.toNat value (s.pt + nsOf (slowestRate s part.toNat) 64)] })

/-- One accepted watchpoint setting binds, when it is due. -/
def bindWatch (s : State) (w : Waiting) : State :=
  match w with
  | .watchpoint iss part n value due =>
    if due ≤ s.pt then complete (s.updPart part.toNat (fun p => { p with wps := mapSet 0 p.wps n value })) iss stOk 0
    else { s with waiting := s.waiting ++ [w] }
  | _ => { s with waiting := s.waiting ++ [w] }

/-- Accepted watchpoint settings that are due bind. -/
def bindWatches (s : State) : State := s.waiting.foldl bindWatch { s with waiting := [] }

-- Sampling (R413)

/-- The unfinished commands of an engine, in their order: a posted receive buffer is one until its message is placed (R277). -/
def unfinished (c : Core) (e : BitVec 2) : List Cmd := (c.posted.foldl insertCmd c.cmds).filter (fun x => x.eng == e)

/-- A running point of an engine: SEQ and step of its oldest unfinished command, or QSEQ and 0. -/
def enginePoint (c : Core) (e : BitVec 2) : Nat :=
  match unfinished c e with
  | x :: _ => x.seq.toNat * 2 ^ 32 + (if x.started then x.step % 2 ^ 32 else 0)
  | [] => (c.seq e).toNat * 2 ^ 32

/-- The 64 bytes of a sample record. -/
def sampleBytes (s : State) (k : Nat) : List Byte :=
  let c := coreAt s k
  let busy := ((List.range 4).filter (fun e => !(unfinished c (BitVec.ofNat 2 e)).isEmpty)).foldl (fun n e => n + 2 ^ e) 0
  leBytes 64 (coreX k + coreY k * 2 ^ 8 + busy * 2 ^ 120 + enginePoint c engVE * 2 ^ 128 + enginePoint c engME * 2 ^ 176 +
    enginePoint c engCE * 2 ^ 224 + enginePoint c engNE * 2 ^ 272 + c.th.pc.toNat * 2 ^ 384 + localPt s k % 2 ^ 64 * 2 ^ 448)

/-- Package time of P cycles of the first sampled core. -/
def samplePeriod (s : State) (cores : List Nat) (period : Nat) : Nat := ceilDiv (period * 100) (clockRate s (cores.headD 0))

/-- SAMPLE (R413): an empty list of cores stops the unit. -/
def execSample (iss : Issuer) (part : BitVec 4) (cores : List Nat) (period : Nat) (unit : BitVec 1) (s : State) :
    Host.Outcome State Fault Refusal :=
  let p := partAt s part.toNat
  command s iss (mayName s iss part)
    (if period < 1024 || decide (2 ^ 24 < period) || cores.any (fun k => decide (1024 ≤ k) || corePart s k != some part) then
       complete s iss stBadField 0
     else if (p.bank (4 + unit.toNat)).owner != .free && (p.bank (4 + unit.toNat)).access iss.ifc != 0 then
       complete s iss stBusy 0
     else complete (s.updPart part.toNat (fun p =>
       { p with sample := (cores, period, unit.toNat, s.pt + samplePeriod s cores period) })) iss stOk 0)

/-- A record goes to a trace unit, and to the HBM target of the unit. -/
def traceRecord (part unit : Nat) (s : State) (bs : List Byte) : State :=
  let p := partAt s part
  let old := mapGet [] p.traces unit
  let base := if unit = 0 then p.traceTargets.1 else p.traceTargets.2
  let at_ := base + 64 * old.length
  let s := if base != 0 && physExists 1 at_ 64 then putBytes s none (physKey 1 0 at_) bs else s
  s.updPart part (fun p => { p with traces := mapSet [] p.traces unit (old ++ [bs]) })

/-- SAMPLE_TICK (R413): a period is over; each selected core gives one record. -/
def execSampleTick (part : Nat) (s : State) : Host.Outcome State Fault Refusal :=
  let (cores, period, unit, due) := (partAt s part).sample
  .next (
    if cores.isEmpty || decide (s.pt < due) then s
    else
      let t := (cores.map (sampleBytes s)).foldl (traceRecord part unit) s
      t.updPart part (fun p => { p with sample := (cores, period, unit, due + samplePeriod s cores period) }))

/-- DBGCFG (R410, R431): the wait ring, in HBM, and where the trace units write. -/
def execDbgCfg (iss : Issuer) (part : BitVec 4) (ringBase ringLen : Nat) (targets : Nat × Nat) (s : State) :
    Host.Outcome State Fault Refusal :=
  hypOnly s iss
    (if !physExists 1 ringBase ringLen then complete s iss stBadField 0
     else complete (s.updPart part.toNat (fun p =>
       { p with waitRing := (ringBase, ringLen), waits := Ring.empty, traceTargets := targets, traces := [] })) iss stOk 0)

end Sys2Proof.Machine
end

