-- ==== Sys2Proof/Machine/Harts.lean ====
section
/-!
DEFINITION. The registers of a command-processor core (R450): integer and floating-point registers, the standard CSRs with their fields, and
the entry and return of an exception or interrupt. R450 takes all of these from the published RISC-V specifications, which the manual does
not restate (PRESUMED).
-/
namespace Sys2Proof.Machine

def Hart.reg (h : Hart) (n : BitVec 5) : W64 := if n = 0 then 0 else mapGet 0 h.x n.toNat
def Hart.setReg (h : Hart) (n : BitVec 5) (v : W64) : Hart := if n = 0 then h else { h with x := mapSet 0 h.x n.toNat v }
def Hart.bank (h : Hart) (n : Nat) : FwBank := mapGet ⟨[], false⟩ h.banks n
def Hart.setBank (h : Hart) (n : Nat) (b : FwBank) : Hart := { h with banks := mapSet ⟨[], false⟩ h.banks n b }

/-- A core's copy of package time (R450, PTIME). -/
def hartPt (s : State) (h : Nat) : Nat := ((s.pt : Int) + (hartAt s h).ptDev).toNat

-- Fields of mstatus

def Hart.fs (h : Hart) : Nat := fieldNat h.mstatus 13 2
def Hart.mpp (h : Hart) : Nat := fieldNat h.mstatus 11 2
def Hart.mprv (h : Hart) : Bool := h.mstatus.getLsbD 17
def Hart.sum (h : Hart) : Bool := h.mstatus.getLsbD 18
def Hart.mxr (h : Hart) : Bool := h.mstatus.getLsbD 19
def Hart.tvm (h : Hart) : Bool := h.mstatus.getLsbD 20
def Hart.tsr (h : Hart) : Bool := h.mstatus.getLsbD 22

/-- The floating-point state is dirty. -/
def Hart.fpDirty (h : Hart) : Hart := { h with mstatus := setField h.mstatus 13 2 3 }

-- Standard CSRs

/-- A standard CSR that the core holds by its address. -/
def Hart.csr (h : Hart) (a : Nat) : W64 := mapGet 0 h.csrs a
def Hart.setCsr (h : Hart) (a : Nat) (v : W64) : Hart := { h with csrs := mapSet 0 h.csrs a v }

/-- Bits of a CSR taken from a value, where a mask names them. -/
def masked (old v : W64) (m : Nat) : W64 := (old &&& ~~~(w64 m)) ||| (v &&& w64 m)

/-- misa: RV64 with A, C, D, F, I, M, S and U. -/
def misaBits : W64 := w64 (2 ^ 63 + 0x14112D)

/-- mstatus as it is read: UXL and SXL are 2, and SD says that FS is dirty. -/
def Hart.status (h : Hart) : W64 := h.mstatus ||| w64 (2 ^ 33 + 2 ^ 35 + (if h.fs = 3 then 2 ^ 63 else 0))

/-- Bits of mstatus that sstatus shows. -/
def sstatusMask : Nat := 2 ^ 1 + 2 ^ 5 + 2 ^ 8 + 3 * 2 ^ 13 + 2 ^ 18 + 2 ^ 19
/-- Bits of mstatus that software writes, beside MPP. -/
def mstatusMask : Nat := sstatusMask + 2 ^ 3 + 2 ^ 7 + 2 ^ 17 + 2 ^ 20 + 2 ^ 21 + 2 ^ 22

/-- mip: the external interrupt of the core, and the bits that software holds. -/
def Hart.mip (h : Hart) : W64 := h.csr 0x344 ||| (if h.irq then w64 (2 ^ 11) else 0)

/-- An interrupt is pending and enabled by mie. -/
def Hart.pendingIrq (h : Hart) : Bool := h.irq || (h.mip &&& h.csr 0x304) != 0

/-- A counter of the unprivileged set may be read in the present mode. -/
def Hart.counterOn (h : Hart) (n : Nat) : Bool :=
  (h.mode == 3 || (h.csr 0x306).getLsbD n) && (h.mode != 0 || (h.csr 0x106).getLsbD n)

/-- The value of a standard CSR; none where there is no such CSR or it cannot be accessed now. -/
def Hart.readStandard (s : State) (n : Nat) (a : Nat) : Option W64 :=
  let h := hartAt s n
  match a with
  | 0x001 => if h.fs = 0 then none else some (h.csr 0x003 &&& 0x1F)
  | 0x002 => if h.fs = 0 then none else some ((h.csr 0x003 >>> 5) &&& 7)
  | 0x003 => if h.fs = 0 then none else some (h.csr 0x003)
  | 0x100 => some (h.status &&& w64 (sstatusMask + 3 * 2 ^ 32 + 2 ^ 63))
  | 0x104 => some (h.csr 0x304 &&& h.csr 0x303)
  | 0x144 => some (h.mip &&& h.csr 0x303)
  | 0x180 => if h.mode = 1 && h.tvm then none else some (h.csr a)
  | 0x300 => some h.status
  | 0x301 => some misaBits
  | 0x305 => some h.mtvec
  | 0x341 => some h.mepc
  | 0x342 => some h.mcause
  | 0x343 => some h.mtval
  | 0x344 => some h.mip
  | 0xB00 => some (h.csr a)
  | 0xB02 => some (h.csr a)
  | 0xC00 => if h.counterOn 0 then some (h.csr 0xB00) else none
  | 0xC01 => if h.counterOn 1 then some (w64 (hartPt s n)) else none
  | 0xC02 => if h.counterOn 2 then some (h.csr 0xB02) else none
  | 0xF14 => some (w64 n)
  | _ =>
    if [0x105, 0x106, 0x10A, 0x140, 0x141, 0x142, 0x143, 0x302, 0x303, 0x304, 0x306, 0x30A, 0x320, 0x340].contains a then some (h.csr a)
    else if [0xF11, 0xF12, 0xF13, 0xF15].contains a then some (Config.hartId a)
    else if (decide (0x323 ≤ a) && decide (a ≤ 0x33F)) || (decide (0x3A0 ≤ a) && decide (a ≤ 0x3AF) && a % 2 == 0) ||
       (decide (0x3B0 ≤ a) && decide (a ≤ 0x3EF)) || (decide (0xB03 ≤ a) && decide (a ≤ 0xB1F)) then some 0
    else if decide (0xC03 ≤ a) && decide (a ≤ 0xC1F) && h.counterOn (a - 0xC00) then some 0
    else none

/-- mstatus written: MPP keeps its value where the new one names no mode. -/
def Hart.writeStatus (h : Hart) (v : W64) (mask : Nat) : Hart :=
  { h with mstatus := masked h.mstatus v mask }

/-- A trap vector's base and mode. -/
def trapVector (v : W64) : W64 := v &&& ~~~(2 : W64)

/-- satp written: a mode that the core does not have leaves it as it is. -/
def Hart.writeSatp (h : Hart) (v : W64) : Hart := if [0, 8, 9].contains (fieldNat v 60 4) then h.setCsr 0x180 v else h

/-- A write of a standard CSR that can be accessed; read-only fields keep their value. -/
def Hart.writeStandard (h : Hart) (a : Nat) (v : W64) : Hart :=
  match a with
  | 0x001 => (h.setCsr 0x003 (masked (h.csr 0x003) v 0x1F)).fpDirty
  | 0x002 => (h.setCsr 0x003 (masked (h.csr 0x003) (v <<< 5) 0xE0)).fpDirty
  | 0x003 => (h.setCsr 0x003 (v &&& 0xFF)).fpDirty
  | 0x100 => h.writeStatus v sstatusMask
  | 0x104 => h.setCsr 0x304 (masked (h.csr 0x304) v (h.csr 0x303).toNat)
  | 0x105 => h.setCsr a (trapVector v)
  | 0x106 => h.setCsr a (v &&& 0xFFFFFFFF)
  | 0x10A => h.setCsr a (v &&& 1)
  | 0x140 => h.setCsr a v
  | 0x141 => h.setCsr a (v &&& ~~~(1 : W64))
  | 0x142 => h.setCsr a v
  | 0x143 => h.setCsr a v
  | 0x144 => h.setCsr 0x344 (masked (h.csr 0x344) v (fieldNat (h.csr 0x303) 1 1 * 2))
  | 0x180 => h.writeSatp v
  | 0x300 => h.writeStatus v (mstatusMask + (if fieldNat v 11 2 = 2 then 0 else 3 * 2 ^ 11))
  | 0x302 => h.setCsr a (v &&& 0xB3FF)
  | 0x303 => h.setCsr a (v &&& 0x222)
  | 0x304 => h.setCsr a (v &&& 0xAAA)
  | 0x305 => { h with mtvec := trapVector v }
  | 0x306 => h.setCsr a (v &&& 0xFFFFFFFF)
  | 0x30A => h.setCsr a (v &&& 1)
  | 0x320 => h.setCsr a (v &&& 5)
  | 0x340 => h.setCsr a v
  | 0x341 => { h with mepc := v &&& ~~~(1 : W64) }
  | 0x342 => { h with mcause := v }
  | 0x343 => { h with mtval := v }
  | 0x344 => h.setCsr a (v &&& 0x222)
  | 0xB00 => h.setCsr a v
  | 0xB02 => h.setCsr a v
  | _ => h

-- Exceptions and interrupts

/-- The exception or interrupt goes to supervisor mode. -/
def Hart.delegates (h : Hart) (intr : Bool) (cause : Nat) : Bool :=
  decide (h.mode.toNat ≤ 1) && (h.csr (if intr then 0x303 else 0x302)).getLsbD cause

/-- Where a trap vector sends a trap. -/
def vectorAt (v : W64) (intr : Bool) (cause : Nat) : W64 :=
  let base := w64 (v.toNat / 4 * 4)
  if intr && v.getLsbD 0 then base + w64 (4 * cause) else base

/-- The value of mcause or scause. -/
def causeBits (intr : Bool) (cause : Nat) : W64 := w64 (cause + if intr then 2 ^ 63 else 0)

/-- A trap is taken: the pc, the cause and the value are saved, the enable moves to the previous enable and clears, and the pc goes to the
vector of machine mode, or of supervisor mode where the trap is delegated. -/
def Hart.take (h : Hart) (intr : Bool) (cause : Nat) (tval : W64) : Hart :=
  if h.delegates intr cause then
    let st := setField (setField h.mstatus 8 1 h.mode.toNat) 5 1 (fieldNat h.mstatus 1 1)
    { ((((h.setCsr 0x141 h.pc).setCsr 0x142 (causeBits intr cause)).setCsr 0x143 tval)) with
      mstatus := setField st 1 1 0, mode := 1, pc := vectorAt (h.csr 0x105) intr cause }
  else
    let st := setField (setField h.mstatus 11 2 h.mode.toNat) 7 1 (fieldNat h.mstatus 3 1)
    { h with
      mepc := h.pc, mcause := causeBits intr cause, mtval := tval, mstatus := setField st 3 1 0, mode := 3
      pc := vectorAt h.mtvec intr cause }

/-- An exception. -/
def Hart.trap (h : Hart) (cause : Nat) (tval : W64) : Hart := h.take false cause tval

/-- The interrupt that is taken before the next instruction, if one is: those of machine mode before those of supervisor mode. -/
def Hart.interrupt (h : Hart) : Option Nat :=
  let live := h.mip &&& h.csr 0x304
  let enabled := fun (toS : Bool) =>
    if toS then decide (h.mode.toNat = 0) || (h.mode == 1 && h.mstatus.getLsbD 1) else decide (h.mode.toNat < 3) || h.mstatus.getLsbD 3
  let first := fun (toS : Bool) =>
    [11, 3, 7, 9, 1, 5].find? (fun c => live.getLsbD c && (h.csr 0x303).getLsbD c == toS && enabled toS)
  (first false).or (first true)

/-- mret: back to the mode and enable that were saved. -/
def Hart.mret (h : Hart) : Hart :=
  let st := setField (setField (setField h.mstatus 3 1 (fieldNat h.mstatus 7 1)) 7 1 1) 11 2 0
  { h with
    pc := h.mepc, mode := BitVec.ofNat 2 h.mpp, mstatus := if h.mpp = 3 then st else setField st 17 1 0 }

/-- sret. -/
def Hart.sret (h : Hart) : Hart :=
  let st := setField (setField (setField h.mstatus 1 1 (fieldNat h.mstatus 5 1)) 5 1 1) 8 1 0
  { h with
    pc := h.csr 0x141, mode := BitVec.ofNat 2 (fieldNat h.mstatus 8 1), mstatus := setField st 17 1 0 }

-- The end of an instruction

/-- The counters of a core after an instruction: cycles go on, and instret counts what completes. -/
def Hart.counted (h : Hart) (n : Nat) (completed : Bool) : Hart :=
  let stop := h.csr 0x320
  let h := if stop.getLsbD 0 then h else h.setCsr 0xB00 (h.csr 0xB00 + w64 (Config.hartCycles n))
  if completed && !stop.getLsbD 2 then h.setCsr 0xB02 (h.csr 0xB02 + 1) else h

/-- The counters of core k after an instruction that has led from one state to another: one that writes a counter leaves what it wrote. -/
def countRv (s t : State) (k : Nat) (completed : Bool) : State :=
  let after := (hartAt s k).counted s.free completed
  let keep := fun (a : Nat) (h : Hart) =>
    if (hartAt t k).csr a = (hartAt s k).csr a then h.setCsr a (after.csr a) else h
  { t.updHart k (fun h => keep 0xB00 (keep 0xB02 h)) with free := s.free + 1 }

/-- The illegal-instruction exception. -/
def illegalHart (s : State) (h : Nat) : State := countRv s (s.updHart h (fun x => x.trap 2 0)) h false

/-- The instruction of core h completes. -/
def hartNext (s : State) (h : Nat) (f : Hart → Hart) : State := countRv s (s.updHart h (fun x => { f x with pc := x.pc + 4 })) h true

end Sys2Proof.Machine
end

