-- ==== Sys2Proof/Machine/Firmware.lean ====
section
/-!
DEFINITION. The command-processor cores (R450, R455, R456), their firmware (R453, R454), the function modes (R451), and the
command port (R442 to R445).
-/
namespace Sys2Proof.Machine

-- The command port

/-- ZCEN enables zc instructions in the core's present mode (R442, R450). -/
def Hart.zcOn (h : Hart) : Bool :=
  match h.mode.toNat with
  | 3 => h.zcen.getLsbD 0
  | 1 => h.zcen.getLsbD 1
  | 0 => h.zcen.getLsbD 2
  | _ => false

/-- A zc instruction of core `hart`. -/
def zcWord (s : State) (run : Hart → State) : Host.Outcome State Fault Refusal :=
  .next (if (hartAt s s.hart).zcOn then run (hartAt s s.hart) else illegalHart s s.hart)

/-- The stream that is open on a core's port. -/
def portStream (s : State) (h : Hart) : Option (Nat × Stream) :=
  match h.port with
  | none => none
  | some n => (mapFind s.streams n).map (fun x => (n, x))

/-- zc.push (R443). -/
def execZcPush (a d : BitVec 5) (s : State) : Host.Outcome State Fault Refusal :=
  zcWord s (fun h =>
    match portStream s h with
    | none => hartNext s s.hart (fun x => x.setReg d (BitVec.allOnes 64))
    | some (n, x) =>
      if 256 ≤ x.fifo.length then hartNext s s.hart (fun x => x.setReg d (BitVec.allOnes 64))
      else
        let w : W32 := BitVec.ofNat 32 (h.reg a).toNat
        hartNext (s.updStream n (fun x => { x with fifo := x.fifo ++ [w], tail := x.tail + 4 })) s.hart
          (fun y => y.setReg d (w64 (255 - x.fifo.length))))

/-- Every word pushed has executed with its effects, or the stream has stopped (R444). A LAUNCH with W = 0 has executed once it is queued (R97,
R98). -/
def portIdle (s : State) (h : Hart) : Bool :=
  match portStream s h with
  | none => true
  | some (_, x) => x.status != .running || (x.wait.isNone && x.depth == 0 && decide (x.tail ≤ x.pos))

/-- zc.fence (R444): it goes on until the port is idle; a pending interrupt ends it first. -/
def execZcFence (d : BitVec 5) (s : State) : Host.Outcome State Fault Refusal :=
  zcWord s (fun h =>
    if portIdle s h then hartNext s s.hart (fun x => { x.setReg d x.strstat with fencing := false })
    else if h.pendingIrq then hartNext s s.hart (fun x => { x.setReg d (w64 (2 ^ 63)) with fencing := false })
    else s.updHart s.hart (fun x => { x with fencing := true }))

/-- zc.stat (R445). -/
def execZcStat (a d : BitVec 5) (s : State) : Host.Outcome State Fault Refusal :=
  zcWord s (fun h =>
    let port := portStream s h
    let v := match (h.reg a).toNat with
      | 0 => h.strstat
      | 1 => h.lastst
      | 2 => w64 ((port.map (·.2.packets)).getD 0)
      | 3 => w64 (256 - ((port.map (·.2.fifo.length)).getD 0))
      | _ => BitVec.allOnes 64
    hartNext s s.hart (fun x => x.setReg d v))

-- Firmware images (R453)

/-- A field of an image's header. -/
def fwHeader (bs : List Byte) : BitVec 512 := BitVec.ofNat 512 (leNat (bs.take 64))
def fwEntry (bs : List Byte) : Nat := fieldNat (fwHeader bs) 96 32
def fwLen (bs : List Byte) : Nat := fieldNat (fwHeader bs) 64 32
def fwSigLen (bs : List Byte) : Nat := fieldNat (fwHeader bs) 48 16
def fwSvn (bs : List Byte) : Nat := fieldNat (fwHeader bs) 32 16

/-- The header's own checks: MAGIC, reserved bits and lengths. -/
def fwHeaderOk (bs : List Byte) : Bool :=
  fieldNat (fwHeader bs) 0 32 == 0x5A46574D && fieldNat (fwHeader bs) 128 384 == 0 && fwLen bs % 4 == 0 &&
  decide (fwLen bs ≤ 1048576) && decide (1 ≤ fwSigLen bs) && decide (fwSigLen bs ≤ 1280) && fwEntry bs % 4 == 0

/-- Bytes of an image. -/
def fwSize (bs : List Byte) : Nat := 64 + fwLen bs + fwSigLen bs

/-- An image that the part accepts. -/
def fwOk (bs : List Byte) : Bool :=
  fwHeaderOk bs && Config.falconOk (bs.take (64 + fwLen bs)) ((bs.drop (64 + fwLen bs)).take (fwSigLen bs)) &&
  decide (Config.fusedSvn.toNat ≤ fwSvn bs)

/-- The core numbers of a mask. -/
def hartsOf (mask : BitVec 16) : List Nat := (List.range 16).filter (fun h => mask.getLsbD h)

/-- FWLOAD (R453): the image goes to the inactive bank of each named core, with zero bytes after it, and is verified: where a check fails the bank is
left invalid. Of an image longer than the bank its first bytes are copied (DESIGN CHOICE: R453 does not say). -/
def execFwLoad (iss : Issuer) (harts : BitVec 16) (va : W64) (s : State) : Host.Outcome State Fault Refusal :=
  hypOnly s iss
    (if (hartsOf harts).any (fun h => (hartAt s h).swapPending) then complete s iss stBusy 0
     else
       let head := hostBytes s iss va 64
       let image := hostBytes s iss va (Min.min (fwSize head) 1050624)
       let ok := fwHeaderOk head && fwOk image
       let t := (hartsOf harts).foldl (fun s h => s.updHart h (fun x =>
         x.setBank (1 - x.active) ⟨image ++ List.replicate (1050624 - image.length) 0, ok⟩)) s
       complete t iss (if ok then stOk else stBadImage) 0)

/-- FWSWAP (R453): swap pending on each named core. -/
def execFwSwap (iss : Issuer) (harts : BitVec 16) (s : State) : Host.Outcome State Fault Refusal :=
  hypOnly s iss
    (if (hartsOf harts).any (fun h => !((hartAt s h).bank (1 - (hartAt s h).active)).valid) then complete s iss stBusy 0
     else if hartsOf harts = [] then complete s iss stOk (w64 s.pt)
     else
       let t := (hartsOf harts).foldl (fun s h => s.updHart h (fun x => { x with swapPending := true })) s
       { t with waiting := t.waiting ++ [.fwswap iss harts] })

/-- An FWSWAP completes with the last swap of its cores. -/
def finishSwap (s : State) (w : Waiting) : State :=
  match w with
  | .fwswap iss harts =>
    if (hartsOf harts).any (fun h => (hartAt s h).swapPending) then { s with waiting := s.waiting ++ [w] }
    else complete s iss stOk (w64 s.pt)
  | _ => { s with waiting := s.waiting ++ [w] }

def finishSwaps (s : State) : State := s.waiting.foldl finishSwap { s with waiting := [] }

/-- The active image's bytes. -/
def Hart.image (h : Hart) : List Byte := (h.bank h.active).bytes.take (fwSize (h.bank h.active).bytes)

/-- ATTEST (R453). -/
def execAttest (iss : Issuer) (nonce : BitVec 256) (va : W64) (s : State) : Host.Outcome State Fault Refusal :=
  hypOnly s iss
    (let cores := (List.range 16).map (fun h => (fwSvn (hartAt s h).image, Config.shake256 (hartAt s h).image))
     let r := Config.attestReport nonce Config.fusedSvn cores
     complete (hostWrite s iss va r) iss stOk (w64 r.length))

/-- The registers of a core at reset, with the pc at ENTRY of its active bank: what a swap resets (R454). Its memory is the bank again. -/
def Hart.restart (h : Hart) : Hart :=
  { h with
    x := [], f := [], csrs := [], reserve := none, ram := [], pc := w64 (fwEntry (h.bank h.active).bytes), mode := 3, mcause := 0, mepc := 0
    mtval := 0, mtvec := 0, mstatus := 0, fencing := false }

/-- The swap of R454. -/
def Hart.swap (h : Hart) : Hart := { h with active := 1 - h.active, swapPending := false, q := false }.restart

-- Device registers

/-- A custom CSR address of the RISC-V address map. -/
def customCsr (a : Nat) : Bool := a / 256 == 8 || (decide (5 ≤ a / 256) && decide (0xC0 ≤ a % 256))

/-- A device register as machine mode reads it (R450); an address that is not listed has none. -/
def readDevice (s : State) (n a : Nat) : Option W64 :=
  let h := hartAt s n
  match a with
  | 0x7C0 => some (zext64 h.zcen)
  | 0x7C1 => some (ofBool h.q)
  | 0x7C2 => some s.mode
  | 0x7C3 => some h.cpwd
  | 0xFC0 => some s.rdy
  | 0xFC1 => some (w64 (n % 8 + n / 8 * 16))
  | 0xFC2 => some (w64 (hartPt s n))
  | 0xFC3 => some (w64 (h.active + (if (h.bank (1 - h.active)).valid then 2 else 0) + (if h.swapPending then 4 else 0) +
      fwSvn h.image * 2 ^ 16))
  | _ => none

/-- A device register as machine mode writes it; none where the write is illegal: at an address that is not listed or is read-only, or with
reserved bits that are not zero (R450). A write of CPWD reloads the timer (R456); FWCTL with Q = 1 has no effect while no swap is
pending (R454). -/
def writeDevice (s : State) (n a : Nat) (v : W64) : Option State :=
  match a with
  | 0x7C0 => if fieldNat v 3 61 = 0 then some (s.updHart n (fun x => { x with zcen := field v 0 3 })) else none
  | 0x7C1 => if fieldNat v 1 63 = 0 then some (if v = 1 then s else s.updHart n (fun x => { x with q := false })) else none
  | 0x7C2 => if fieldNat v 5 59 = 0 then some { s with mode := v } else none
  | 0x7C3 => some (s.updHart n (fun x => { x with cpwd := v, cpwdAt := hartPt s n }))
  | _ => none

/-- The mode that a CSR address asks for, and whether it is read-only. -/
def csrMode (a : Nat) : Nat := a / 256 % 4
def csrReadOnly (a : Nat) : Bool := a / 1024 == 3

/-- A CSR as core n reads it in its present mode; none where that is illegal. -/
def readCsr (s : State) (n a : Nat) : Option W64 :=
  if customCsr a then (if (hartAt s n).mode = 3 then readDevice s n a else none)
  else if (hartAt s n).mode.toNat < csrMode a then none
  else Hart.readStandard s n a

/-- A CSR as core n writes it in its present mode; none where that is illegal. -/
def writeCsr (s : State) (n a : Nat) (v : W64) : Option State :=
  if customCsr a then (if (hartAt s n).mode = 3 then writeDevice s n a v else none)
  else if csrReadOnly a || (readCsr s n a).isNone then none
  else some (s.updHart n (fun x => x.writeStandard a v))

/-- A write of a core's CSR: it runs and the core goes on, or it is illegal. -/
def csrWord (s : State) (n a : Nat) (v : W64) : Host.Outcome State Fault Refusal :=
  .next (match writeCsr s n a v with
    | none => illegalHart s n
    | some t => countRv s (t.updHart n (fun x => { x with pc := x.pc + 4 })) n true)

/-- CPWD (R450, R456): a write reloads the timer. -/
def execCpwdWrite (hart : Nat) (value : W64) (s : State) : Host.Outcome State Fault Refusal := csrWord s hart 0x7C3 value

/-- A write of FWCTL that swaps the core. -/
def swapsNow (h : Hart) (value : W64) : Bool := h.mode == 3 && value == 1 && h.swapPending

/-- FWCTL (R454): Q = 1 swaps the core, where a swap is pending, once no zc.fence of its own is executing; else it has no
effect. -/
def execFwctlWrite (hart : Nat) (value : W64) (s : State) : Host.Outcome State Fault Refusal :=
  let h := hartAt s hart
  if swapsNow h value then .next (if h.fencing then s else finishSwaps (s.updHart hart Hart.swap))
  else csrWord s hart 0x7C1 value

/-- MODE (R451): one register for the whole part. -/
def execModeWrite (hart : Nat) (value : W64) (s : State) : Host.Outcome State Fault Refusal := csrWord s hart 0x7C2 value

/-- A write of a CSR by its address (R450). -/
def execCsrWrite (hart : Nat) (csr : BitVec 12) (value : W64) (s : State) : Host.Outcome State Fault Refusal :=
  if csr = 0x7C1 then execFwctlWrite hart value s else csrWord s hart csr.toNat value

/-- The event of a core's heartbeat in the skew logs (R456): agent, cycle, no deviation. -/
def logCore (s : State) (h : Nat) : State :=
  (allParts s).foldl (fun s p => s.updPart p (fun x => { x with skewLog := x.skewLog ++ [(8448 + h, s.pt * 125 / 100, 0)] })) s

/-- CP_HEARTBEAT_TIMEOUT (R456): the core is reset into its active bank, or into the new one when a swap is pending, and the stream
on its port is closed; STRSTAT is kept. -/
def execCpHeartbeatTimeout (hart : Nat) (s : State) : Host.Outcome State Fault Refusal :=
  let h := hartAt s hart
  .next (
    if !h.running || h.cpwd = 0 || decide (hartPt s hart ≤ h.cpwdAt + 1000 * h.cpwd.toNat) then s
    else
      let s := match h.port with
        | some n => closeStream s n
        | none => s
      let s := s.updHart hart (fun x =>
        { (if x.swapPending then x.swap else x.restart) with zcen := 1, q := false, cpwd := 0, cpwdAt := 0 })
      logCore (finishSwaps s) hart)

end Sys2Proof.Machine
end

