-- ==== Sys2Proof/Machine/Power.lean ====
section
/-!
DEFINITION. Bring-up, power islands and the power cap (R457 to R462).
-/
namespace Sys2Proof.Machine

/-- The cores of a compute island. -/
def islandCores (i : Nat) : List Nat := (List.range 1024).filter (fun k => islandOf k == i)

/-- Island i loses its power, and its cores what `clear` takes from them. Islands 22 and 23 hold the eight command-processor cores of their die (R5, R450), which stop; they boot again at
the next WAKE. -/
def gateIsland (s : State) (i : Nat) (clear : Core → Core := Core.cleared) : State :=
  let s := s.updIsland i (fun x => { x with powered := false, xtlb2 := [] })
  if i < 16 then
    let s := (islandCores i).foldl (fun s k => s.updCore k clear) s
    { s with rdy := s.rdy &&& ~~~(1#64 <<< (20 + i)) }
  else if i = 22 ∨ i = 23 then
    (List.range' (8 * (i - 22)) 8).foldl (fun s h => s.updHart h (fun x => { x with running := false })) s
  else s

/-- Some partition uses the memory or port of an island of 16 to 21 (R459). R5 puts the HBM sides of die A and die B in islands 18 and 19, and
the I/O of the dies in 20 and 21, and does not number what lies on each: stacks 0 to 3 and ports 0 to 3 are die A's (DESIGN CHOICE). -/
def islandUsed (s : State) (i : Nat) : Bool :=
  s.parts.any (fun e => e.2.exists_ &&
    (if i = 16 then decide (0 < e.2.gsramPool.2) && decide (e.2.gsramPool.1 < 16384)
     else if i = 17 then decide (0 < e.2.gsramPool.2) && decide (16384 < e.2.gsramPool.1 + e.2.gsramPool.2)
     else if i = 18 then decide (0 < e.2.hbmPool.2) && decide (e.2.hbmPool.1 < 4 * 1048576)
     else if i = 19 then decide (0 < e.2.hbmPool.2) && decide (4 * 1048576 < e.2.hbmPool.1 + e.2.hbmPool.2)
     else if i = 20 then s.ingress.any (fun p => p.part.toNat == e.1 && decide (physicalPort s p.pair.port < 4))
     else i == 21 && s.ingress.any (fun p => p.part.toNat == e.1 && decide (4 ≤ physicalPort s p.pair.port))))

/-- An island at another operating point: one that runs has its clock stopped for 1 µs (R460). -/
def Island.atPoint (x : Island) (pt : Nat) (point : BitVec 3) : Island :=
  if x.point = point then x else { x with point := point, stopped := if x.powered then pt + 1000 else x.stopped }

/-- POWER (R459, R460): an operating point, which powers the island, or a gate. -/
def execPower (iss : Issuer) (island : BitVec 5) (point : BitVec 3) (gate : Bool) (s : State) : Host.Outcome State Fault Refusal :=
  let i := island.toNat
  hypOnly s iss
    (if 24 ≤ i || 6 ≤ point.toNat then complete s iss stBadField 0
     else if gate then
       if (if i < 16 then islandBusy s i else islandUsed s i) then complete s iss stBusy 0
       else complete (gateIsland s i) iss stOk 0
     else complete (s.updIsland i (fun x => { x.atPoint s.pt point with powered := true, setPoint := point })) iss stOk 0)

/-- A core that a bound, binding or suspended context holds. -/
def coreHeld (s : State) (k : Nat) : Bool :=
  (coreAt s k).bound.isSome ||
  s.mcbs.any (fun e => (e.2.state == 2 || e.2.state == 3 || e.2.state == 4 || e.2.state == 5) && e.2.plot.contains k)

/-- CORERESET (R459). -/
def execCoreReset (iss : Issuer) (x y : BitVec 5) (s : State) : Host.Outcome State Fault Refusal :=
  let k := 32 * y.toNat + x.toNat
  hypOnly s iss
    (if coreHeld s k then complete s iss stBusy 0 else complete (s.updCore k Core.cleared) iss stOk 0)

/-- FUNCTION_READY (R457): a function becomes usable. -/
def execFunctionReady (bit : BitVec 6) (s : State) : Host.Outcome State Fault Refusal :=
  .next (if bit.toNat < 56 then { s with rdy := s.rdy ||| (1#64 <<< bit.toNat) } else s)

/-- The bank that the boot ROM starts (R458): 0, or 1 when 0 fails. -/
def bootBank (h : Hart) : Option Nat := if fwOk (h.bank 0).bytes then some 0 else if fwOk (h.bank 1).bytes then some 1 else none

/-- A core boots, or stays in reset, and its failure is reported over the sideband. -/
def bootHart (s : State) (h : Nat) : State :=
  match bootBank (hartAt s h) with
  | some b => s.updHart h (fun x => { { x with active := b, running := true }.restart with zcen := 1, q := false, cpwd := 0 })
  | none => { s with mctp := s.mctp ++ [w64 h] }

/-- WAKE (R458): the sequencer powers islands 22 and 23, and every core that is in reset boots. -/
def execWake (s : State) : Host.Outcome State Fault Refusal :=
  let s := [22, 23].foldl (fun s i => s.updIsland i (fun x => { x with powered := true })) s
  .next (((List.range 16).filter (fun h => !(hartAt s h).running)).foldl bootHart s)

/-- A loss of power and the power-on after it (R375, R457, R458): PMEM blocks hold what `choice` picks of the values that each may hold, firmware
banks and what lies beside the part stay, and everything else is as after power-on. -/
def losePower (choice : SMap Nat) (s : State) : State :=
  { State.reset with
    clock := s.clock, agenda := s.agenda, free := s.free, mem := afterPowerLoss s choice
    harts := s.harts.foldl (fun m e => mapSet Hart.reset m e.1 { Hart.reset with banks := e.2.banks }) []
    hostDeny := s.hostDeny, mute := s.mute, breakout := s.breakout, device := s.device, master := s.master }

/-- SLEEP (R458): while no control-complex core runs, every island is gated. -/
def execSleep (s : State) : Host.Outcome State Fault Refusal :=
  .next (if (List.range 16).any (fun h => (hartAt s h).running) then s
    else { (List.range 24).foldl gateIsland s with rdy := 0 })

/-- An island one operating point lower. -/
def Island.lower (x : Island) (pt : Nat) : Island := if x.point = 0 then x else x.atPoint pt (x.point - 1)
/-- An island one point higher, up to its set point. -/
def Island.raise (x : Island) (pt : Nat) : Island := if x.point.toNat < x.setPoint.toNat then x.atPoint pt (x.point + 1) else x

/-- POWER_MANAGER_TICK (R462): one measurement. `coolFor` counts measurements in a row that lie at least 90 W below the cap. -/
def execPowerManagerTick (watts : Nat) (hot : BitVec 16) (s : State) : Host.Outcome State Fault Refusal :=
  let cool := if watts ≤ 1710 then s.coolFor + 1 else 0
  let s := { s with power := watts, coolFor := cool }
  .next ((List.range 16).foldl (fun s i => s.updIsland i (fun x =>
    if !x.powered then x
    else if 1800 < watts || hot.getLsbD i then x.lower s.pt
    else if 11 ≤ cool then x.raise s.pt else x)) s)

/-- An invocation ends with KILLED: a kill of one that runs, the end of one that does not (R462). -/
def killInvocation (s : State) (m : Nat) : State :=
  let b := mcbAt s m
  if b.state = 3 ∨ b.state = 4 then startKill s m (killStatus s m)
  else if b.inv.isSome then finish s m 0x05 false else s

/-- A core as its island is gated by the trip: of one that a kill still ends, what the kill needs stays until it completes. -/
def Core.tripped (c : Core) : Core := if c.bound.isNone then c.cleared else { c with fenced := false, xtlb := [] }

/-- THERMAL_TRIP (R462): every compute island is gated, its invocations are killed, and the sideband reports the trip. -/
def execThermalTrip (s : State) : Host.Outcome State Fault Refusal :=
  let s := (s.mcbs.map (·.1)).foldl killInvocation s
  let s := (List.range 16).foldl (fun s i => gateIsland s i Core.tripped) s
  .next { s with mctp := s.mctp ++ [w64 256] }

end Sys2Proof.Machine
end

