-- ==== Sys2Proof/Machine/Fabric.lean ====
section
/-!
DEFINITION. The Nepol fabric (R446 to R449) and the Sprout engines (R272 to R274).
-/
namespace Sys2Proof.Machine

-- Inbound accesses

/-- The export table admits an access (R446). -/
def exported (s : State) (device : W16) (sp addr n : Nat) (read write : Bool) : Bool :=
  s.exports.any (fun e => e.2.device == device && e.2.sp.toNat == sp && (!read || e.2.mayRead) && (!write || e.2.mayWrite) &&
    decide (e.2.firstPage ≤ addr / 65536) && decide ((addr + n - 1) / 65536 < e.2.firstPage + e.2.pages))

/-- The Nepol port refuses an access from a peer: a leased one while its copy of package time is off or no beacons come (R195, R448), and one
whose grant has lapsed by that copy (R190). -/
def portRefuses (s : State) (q : NepolAccess) : Bool :=
  (q.leased && (s.nepolRefuses || s.controllersRefuse.contains .nepolPort)) || decide (q.expiry + 8 < portPt s .nepolPort)

/-- An atomic or reduction of n bytes from outside performs at the home (R232, R376): `f` gives what it writes where it finds a value, if it writes.
A failed line keeps it from performing, and then no watchpoint matches it (R417). -/
def externalAtomic (s : State) (sp addr n : Nat) (f : Nat → Option Nat) : State :=
  let k := physKey sp 0 addr
  let w := whoExternal 2
  if badPartial s k n then s
  else
    let s := watchExternal s w .sync sp addr [(addr, n)]
    match f (leNat (viewBytes s none k n)) with
    | none => s
    | some v => markBytes (stampLines (putBytes s none k (leBytes n v)) w 0 k n) w EdgeSet.none k n

/-- The bytes of a size bit. -/
def sizeBytes (wide : Bool) : Nat := if wide then 8 else 4

/-- What an atomic or reduction of an operation code of R32 writes where it finds a value. -/
def externalOp (op : BitVec 4) (wide : Bool) (operand : W64) (old : Nat) : Option Nat :=
  some (atomicOp op.toNat (sizeBytes wide) old (operand.toNat % 2 ^ (8 * sizeBytes wide)))

/-- What a compare and swap writes where it finds a value (R230). -/
def externalCas (wide : Bool) (expect operand : W64) (old : Nat) : Option Nat :=
  let m := 2 ^ (8 * sizeBytes wide)
  if old = expect.toNat % m then some (operand.toNat % m) else none

/-- An access from a peer as it performs. -/
def performNepol (s : State) (q : NepolAccess) : State :=
  match q.op with
  | .read n => watchExternal s (whoExternal 2) .read q.sp.toNat q.addr [(q.addr, n)]
  | .write data => externalWrite s 2 q.sp.toNat q.addr data
  | .atomic op wide operand => externalAtomic s q.sp.toNat q.addr (sizeBytes wide) (externalOp op wide operand)
  | .cas wide expect operand => externalAtomic s q.sp.toNat q.addr (sizeBytes wide) (externalCas wide expect operand)

/-- Bytes that an access from a peer covers. -/
def nepolBytes : NepolOp → Nat
  | .read n => n
  | .write data => data.length
  | .atomic _ wide _ => sizeBytes wide
  | .cas wide _ _ => sizeBytes wide

/-- NEPOL_INBOUND_ACCESS (R190, R446, R447): an access that the port refuses returns to its agent, one that the export table does not admit
faults at its sender, and neither has any effect here. A reduction one of whose contributions has performed is dropped. -/
def execNepolInboundAccess (q : NepolAccess) (s : State) : Host.Outcome State Fault Refusal :=
  let n := nepolBytes q.op
  let read := match q.op with | .write _ => false | _ => true
  let write := match q.op with | .read _ => false | _ => true
  if portRefuses s q || !exported s q.device q.sp.toNat q.addr n read write || q.contributions.any (fun c => s.performed.contains c) then
    .next s
  else external s (.nepol q) q.sp.toNat q.addr n (fun _ =>
    let t := performNepol s q
    { t with performed := t.performed ++ q.contributions })

/-- NEPOL_LINK_FAILURE (R449): traffic moves to the other links. -/
def execNepolLinkFailure (link : BitVec 4) (s : State) : Host.Outcome State Fault Refusal :=
  .next { s with linksDown := s.linksDown ||| (1#16 <<< link.toNat) }

/-- A contribution resent to this home (R447): it performs in the window, in HBM, unless it has performed. The window is the home's own, so it needs
no lease; while the port refuses what peers send under leases it is refused as they are, since the sender's translation is one (R448). -/
def resend (win : Window) (s : State) (c : Contribution) : State :=
  let n := sizeBytes c.wide
  if s.nepolRefuses || s.controllersRefuse.contains .nepolPort || s.performed.contains c.id || decide (c.addr < win.base) || decide (win.base + 65536 * win.pages < c.addr + n) ||
     !physExists 1 c.addr n then s
  else
    let t := externalAtomic s 1 c.addr n (externalOp c.op c.wide c.operand)
    { t with performed := t.performed ++ [c.id] }

/-- NEPOL_SWITCH_FAILURE (R447): unacknowledged contributions arrive unmerged; each counts once. -/
def execNepolSwitchFailure (win : BitVec 6) (resent : List Contribution) (s : State) : Host.Outcome State Fault Refusal :=
  .next (match mapFind s.windows win.toNat with
    | none => s
    | some w => resent.foldl (resend w) s)

-- The time base (R448)

/-- BEACON_RECEIVE (R448): the reference follows the master's, never backwards; what the lack of beacons began ends. -/
def execBeaconReceive (master : W64) (s : State) : Host.Outcome State Fault Refusal :=
  .next (if s.master then s
    else { s with pt := Max.max s.pt master.toNat, lastBeacon := Max.max s.pt master.toNat, nepolRefuses := false })

/-- A translation of a page on a peer device. -/
def XEntry.nepol (e : XEntry) : Bool := dirSp e.dir == 4 || dirSp e.dir == 5

/-- Every agent drops its NEPOL translations. -/
def dropNepol (s : State) : State :=
  { s with
    cores := s.cores.map (fun e => (e.1, { e.2 with xtlb := e.2.xtlb.filter (fun x => !x.nepol) }))
    islands := s.islands.map (fun e => (e.1, { e.2 with xtlb2 := e.2.xtlb2.filter (fun x => !x.nepol) }))
    streams := s.streams.map (fun e => (e.1, { e.2 with xtlb := e.2.xtlb.filter (fun x => !x.nepol) })) }

/-- BEACON_TIMEOUT (R448): no beacon for 10 µs. -/
def execBeaconTimeout (s : State) : Host.Outcome State Fault Refusal :=
  .next (if s.master || s.nepolRefuses || decide (s.pt < s.lastBeacon + 10000) then s
    else { dropNepol (logSkew s (allParts s) (ptAgentCode .nepolPort) (skewCycle s .nepolPort) 0) with nepolRefuses := true })

-- Sprout (R272 to R274)

def jobFirst (d : BitVec 512) : Nat := fieldNat d 336 24
def jobCount (d : BitVec 512) : Nat := fieldNat d 312 24
def jobMcb (d : BitVec 512) : Nat := fieldNat d 298 14
def jobObj (d : BitVec 512) : Nat := fieldNat d 360 24
def jobKind (d : BitVec 512) : Nat := fieldNat d 296 2

/-- The page numbers in the order of the job: its ORDER list, or ascending. The list's address names its space as R410 names a place. -/
def jobOrder (s : State) (d : BitVec 512) : List Nat :=
  let at_ := fieldNat d 384 64
  if at_ = 0 then List.range' (jobFirst d) (jobCount d)
  else (List.range (jobCount d)).map (fun i => memNat s.mem (physKey (at_ / 2 ^ 44 % 16) 0 (at_ % 2 ^ 44) + 4 * i) 4)

/-- A descriptor that the engine takes. -/
def jobOk (s : State) (d : BitVec 512) : Bool :=
  fieldNat d 0 208 == 0 && jobKind d != 3 && jobCount d != 0 &&
  (jobOrder s d).all (fun p => decide (jobFirst d ≤ p) && decide (p < jobFirst d + jobCount d))

/-- The place of page p of a job's object, by the entries as they stand: its directory entry, the key of its extent entry and its address. -/
def jobPlace (s : State) (j : SproutJob) (p : Nat) : BitVec 256 × Nat × Nat :=
  let d := readDir s (jobMcb j.desc) (jobObj j.desc)
  let key := extKeyOf d p
  (d, key, 65536 * extPpn (w64 (memNat s.mem key 8)))

/-- Pages of a job go into flight: for a namespace an NVMe read command asks for the 16 blocks of each (R272). -/
def requestPages (s : State) (j : SproutJob) (pages : List Nat) : State :=
  if jobKind j.desc ≠ 1 then s
  else
    pages.foldl (fun s p =>
      let qp := fieldNat j.desc 272 24
      let lba := fieldNat j.desc 448 64 + 16 * (p - jobFirst j.desc)
      s.transmitRdma (roceRequest s qp 0 (w64 lba) 65536 []) (fun u => .nvmeRead (BitVec.ofNat 24 qp) lba 16 (jobPlace s j p).2.2 u)) s

/-- SPROUT_JOB_START (R272, R451): the engine of a die that runs no job takes the next descriptor of a partition's ring. A refused
one never starts, and in the host-assisted mode the entry goes to the host. -/
def execSproutJobStart (part die : Nat) (s : State) : Host.Outcome State Fault Refusal :=
  .next (
    match (partAt s part).jobRing with
    | [] => s
    | d :: rest =>
      if !s.rdy.getLsbD 54 || (mapFind s.jobs die).isSome then s
      else
        let s := s.updPart part (fun p => { p with jobRing := rest })
        if s.mode.getLsbD 4 then s.updPart part (fun p => { p with hostJobs := p.hostJobs ++ [d] })
        else if !jobOk s d then s
        else
          let l := jobOrder s d
          let j : SproutJob := ⟨part, die, d, l.drop 8, l.take 8, 0⟩
          requestPages { s with jobs := mapPut s.jobs die j } j j.flight)

/-- Where page p of a job stands at its source, in host memory or a peer's; namespace blocks arrive with the event. -/
def sourceKey (s : State) (j : SproutJob) (p : Nat) : Option Nat :=
  let src := fieldNat j.desc 448 64 + 65536 * (p - jobFirst j.desc)
  match jobKind j.desc with
  | 0 => some (hostKey (partAt s j.part).pasid (w64 src))
  | 2 => some (physKey 4 (fieldNat j.desc 272 16) src)
  | _ => none

/-- The bytes of page p as they arrive. -/
def sourceBytes (s : State) (j : SproutJob) (p : Nat) (data : List Byte) : List Byte :=
  match sourceKey s j p with
  | some k => memBytes s.mem k 65536
  | none => data.take 65536

/-- A page has been copied from one key to another unchanged: where its units stand encrypted they stay so, under what they were encrypted under (R51).
GSRAM holds none encrypted: there the bits that stood at the source are data. -/
def keepCipher (s0 s : State) (from_ into : Nat) : State :=
  if keySpace into = 0 then putBytes s none into (viewBytes s0 none from_ 65536)
  else { s with enc := (List.range 1024).foldl (fun e i => mapPut e (into / 64 + i) (unitTag s0 (from_ / 64 + i))) s.enc }

/-- SPROUT_PAGE_ARRIVAL (R273): the first page in flight has arrived: its bytes are written and checked, and one store of the extent entry
makes it usable. The next page of the order goes into flight. -/
def execSproutPageArrival (job : Nat) (data : List Byte) (s : State) : Host.Outcome State Fault Refusal :=
  match mapFind s.jobs job with
  | none => .next s
  | some j =>
    match j.flight with
    | [] => .next s
    | p :: rest =>
      let (d, key, addr) := jobPlace s j p
      let x := w64 (memNat s.mem key 8)
      let next := j.order.take 1
      let j := { j with flight := rest ++ next, order := j.order.drop 1, arrived := j.arrived + 1 }
      let s := requestPages { s with jobs := mapPut s.jobs job j } j next
      if dirSp d ≥ 2 || !physExists (dirSp d) addr 65536 then .fault .noSuchAddress
      else
        let t := externalWrite s 3 (dirSp d) addr (sourceBytes s j p data)
        let s := match sourceKey s j p with
          | some k => keepCipher s t k (physKey (dirSp d) 0 addr)
          | none => t
        .next (externalWrite s 3 (dirEmsp d) (keyAddr key) (leBytes 8 (x.toNat - fieldNat x 2 1 * 4)))

/-- SPROUT_JOB_END (R274): the completion word is written and set full. -/
def execSproutJobEnd (job : Nat) (sourceError : Bool) (s : State) : Host.Outcome State Fault Refusal :=
  match mapFind s.jobs job with
  | none => .next s
  | some j =>
    if !sourceError && !(j.flight.isEmpty && j.order.isEmpty) then .next s
    else
      let addr := fieldNat j.desc 208 64
      let w := whoExternal 3
      if !physExists 0 addr 8 then .fault .noSuchAddress
      else
        let s := externalWrite s 3 0 addr (leBytes 8 (j.arrived % 2 ^ 24 + (if sourceError then 2 ^ 24 else 0)))
        let k := physKey 0 0 addr / 8
        .next { s with
          fe := mapSet false s.fe k true, feMark := mapPut s.feMark k ⟨EdgeSet.none, w.setter⟩, jobs := mapErase s.jobs job }

end Sys2Proof.Machine
end

