-- ==== Sys2Proof/Machine/Commands.lean ====
section
/-!
DEFINITION. The commands of an interface as they come from its ring (R429 to R432): one descriptor is read, checked and executed. ARGS of
INSTALL are laid out by R464, and those of the others by Config.commandOf.
-/
namespace Sys2Proof.Machine

/-- The issuer of a command that has not completed. -/
def Waiting.issuer : Waiting → Option Issuer
  | .revoke iss _ _ _ => some iss
  | .free _ _ _ => none
  | .bitmap iss _ => some iss
  | .checkpoint iss _ _ _ _ _ => some iss
  | .watchpoint iss _ _ _ _ => some iss
  | .fwswap iss _ => some iss

/-- A command of the interface has not completed (R432); RESET waits in its partition, and STREAM.CLOSE at its stream. -/
def commandPending (s : State) (ifc : Nat) : Bool :=
  s.streams.any (fun e => (e.2.closing.map (·.ifc)) == some (some ifc)) ||
  s.waiting.any (fun w => (w.issuer.map (·.ifc)) == some (some ifc)) ||
  s.parts.any (fun e => e.2.scrubbing && (e.2.resetBy.map (·.ifc)) == some (some ifc))

/-- The ARGS of an INSTALL descriptor (R464); reserved bits must be zero. -/
def installArgs (d : BitVec 512) : Option InstallArgs :=
  let any := d.getLsbD 270
  if fieldNat d 271 241 ≠ 0 || (any && fieldNat d 256 14 != 0) then none
  else
    let p := Config.installChoice d
    some ⟨any, field d 256 14, field d 192 64, field d 128 64, field d 64 64, p.1, p.2⟩

/-- A command of a listed OP with ARGS in another layout runs, if its descriptor holds one. -/
def runCommand (iss : Issuer) (op : Nat) (i : Option Instr) (s : State) : Host.Outcome State Fault Refusal :=
  match op, i with
  | 0x02, some (.mcbWrite _ m mask v) => execMcbWrite iss m mask v s
  | 0x03, some (.mcbRemove _ m) => execMcbRemove iss m s
  | 0x04, some (.capWrite _ m n e) => execCapWrite iss m n e s
  | 0x05, some (.revoke _ m obj n) => execRevoke iss m obj n s
  | 0x06, some (.streamOpen _ m obj perm ring tail) => execStreamOpen iss m obj perm ring tail s
  | 0x07, some (.streamTail _ st tail) => execStreamTail iss st tail s
  | 0x08, some (.streamClose _ st) => execStreamClose iss st s
  | 0x09, some (.qpCreate _ m px py peer) => execQpCreate iss m px py peer s
  | 0x0A, some (.qpDestroy _ qp) => execQpDestroy iss qp s
  | 0x0B, some (.faultReplyResume _ m) => execFaultReplyResume iss m s
  | 0x0B, some (.faultReplyResumeHandler _ m) => execFaultReplyResumeHandler iss m s
  | 0x0B, some (.faultReplyKill _ m) => execFaultReplyKill iss m s
  | 0x20, some (.bankClaim _ p u) => execBankClaim iss p u s
  | 0x21, some (.bankRelease _ p u) => execBankRelease iss p u s
  | 0x22, some (.bankRead _ p u va) => execBankRead iss p u va s
  | 0x23, some (.bankWrite _ p u sel) => execBankWrite iss p u sel s
  | 0x24, some (.snapshot _ p va) => execSnapshot iss p va s
  | 0x25, some (.bpWrite _ p n v) => execBpWrite iss p n v s
  | 0x26, some (.wpWrite _ p n v) => execWpWrite iss p n v s
  | 0x27, some (.sample _ p cores period u) => execSample iss p cores period u s
  | _, _ => .next (complete s iss stBadField 0)

/-- An OP that R431, R453 and R459 list. -/
def listedOp (op : Nat) : Bool :=
  (decide (1 ≤ op) && decide (op ≤ 0x0B)) || (decide (0x10 ≤ op) && decide (op ≤ 0x1C)) || (decide (0x20 ≤ op) && decide (op ≤ 0x28))

/-- An OP that a guest may issue (R431). -/
def guestOp (op : Nat) : Bool := (decide (1 ≤ op) && decide (op ≤ 0x0B)) || (decide (0x20 ≤ op) && decide (op ≤ 0x27))

/-- A descriptor is executed for an interface (R430, R431). -/
def runDescriptor (ifc : Nat) (d : BitVec 512) (s : State) : Host.Outcome State Fault Refusal :=
  let op := fieldNat d 0 8
  let iss : Issuer := ⟨some ifc, field d 32 32⟩
  if !listedOp op then .next (complete s iss stBadOp 0)
  else if !guestOp op then .next (complete s iss stDenied 0)
  else if fieldNat d 8 24 ≠ 0 then .next (complete s iss stBadField 0)
  else if op = 1 then
    match installArgs d with
    | none => .next (complete s iss stBadField 0)
    | some a => execInstall iss a s
  else runCommand iss op (Config.commandOf d) s

/-- The block that a descriptor names, if it names one (R432). -/
def namedBlock (d : BitVec 512) : Option Nat :=
  if fieldNat d 0 8 = 1 then (installArgs d).bind (fun a => if a.any then none else some a.idx.toNat)
  else
    match Config.commandOf d with
    | some (.mcbWrite _ m _ _) => some m
    | some (.mcbRemove _ m) => some m
    | some (.capWrite _ m _ _) => some m
    | some (.revoke _ m _ _) => some m
    | some (.streamOpen _ m _ _ _ _) => some m
    | some (.qpCreate _ m _ _ _) => some m
    | some (.faultReplyResume _ m) => some m
    | some (.faultReplyResumeHandler _ m) => some m
    | some (.faultReplyKill _ m) => some m
    | _ => none

/-- Descriptor j of an interface's submission ring. -/
def descriptorAt (s : State) (ifc : Nat) (j : W64) : BitVec 512 :=
  let x := ifcAt s ifc
  BitVec.ofNat 512 (leNat (hostBytes s ⟨some ifc, 0⟩ (ringSlot x.sqbase x.sqlog j 64) 64))

/-- Descriptors of an interface from the next one up to a doorbell's tail. -/
def rungBy (x : Ifc) (tail : W64) : List W64 :=
  let n := (tail - x.sqhead).toNat
  if n ≤ 2 ^ x.sqlog.toNat then (List.range n).map (fun i => x.sqhead + w64 i) else []

/-- The next command of an interface waits for a command of another that names the same block and has begun, or that an earlier doorbell
announced (R432). -/
def afterOthers (s : State) (ifc m : Nat) : Bool :=
  let x := ifcAt s ifc
  let earlier := s.bells.takeWhile (fun b => !(b.1 == ifc && (rungBy x b.2).contains x.sqhead))
  s.ifcs.any (fun e => e.1 != ifc && e.2.naming == some m && commandPending s e.1) ||
  earlier.any (fun b => b.1 != ifc && (ifcAt s b.1).assigned.isSome && ringOn (ifcAt s b.1).sqlog &&
    (rungBy (ifcAt s b.1) b.2).any (fun j => namedBlock (descriptorAt s b.1 j) == some m))

/-- The part reads an interface's next descriptor (R429, R430, R432), once the host link is ready (R457). -/
def commandStep (ifc : Nat) (s : State) : Host.Outcome State Fault Refusal :=
  let x := ifcAt s ifc
  if x.assigned.isNone || !ringOn x.sqlog || x.sqhead = x.sqtail || ringFull x || commandPending s ifc || !s.rdy.getLsbD 8 then .next s
  else
    let d := descriptorAt s ifc x.sqhead
    if (namedBlock d).any (afterOthers s ifc) then .next s
    else
      let s := s.updIfc ifc (fun x => { x with sqhead := x.sqhead + 1, naming := namedBlock d })
      runDescriptor ifc d { s with bells := s.bells.filter (fun b => !(b.1 == ifc && b.2 == x.sqhead + 1)) }

end Sys2Proof.Machine
end

