-- ==== Sys2Proof/Machine/Integer.lean ====
section
/-!
DEFINITION. Integer, immediate and bit instructions (R136 to R140), compares, predicates and selection (R141 to R143).
-/
namespace Sys2Proof.Machine

/-- Reads sa, then sb, and writes f of them to sd (R136). -/
def binary (d a b : BitVec 6) (f : W64 → W64 → W64) : M Flow := do
  let before ← get
  let x ← readS a
  let y ← readS b
  roomFor before d
  writeS d (f x y)
  return .seq

/-- Reads sa and writes f of it to sd (R137 to R140). -/
def unary (d a : BitVec 6) (f : W64 → W64) : M Flow := do
  let before ← get
  let x ← readS a
  roomFor before d
  writeS d (f x)
  return .seq

/-- A shift amount b[5:0]. -/
def shamt (b : W64) : Nat := b.toNat % 64

/-- Signed division truncated toward zero; by zero gives -1, and the most negative number by -1 gives itself (R136). -/
def divS (a b : W64) : W64 := if b = 0 then -1 else BitVec.ofInt 64 (a.toInt.tdiv b.toInt)
/-- The remainder with the sign of a; by zero gives a (R136). -/
def remS (a b : W64) : W64 := if b = 0 then a else BitVec.ofInt 64 (a.toInt.tmod b.toInt)
/-- Unsigned division; by zero gives 2^64 - 1. -/
def divU (a b : W64) : W64 := if b = 0 then -1 else w64 (a.toNat / b.toNat)
/-- Unsigned remainder; by zero gives a. -/
def remU (a b : W64) : W64 := if b = 0 then a else w64 (a.toNat % b.toNat)
/-- The high half of the signed product. -/
def mulHigh (a b : W64) : W64 := BitVec.ofInt 64 (a.toInt * b.toInt / 2 ^ 64)
/-- The high half of the unsigned product. -/
def mulHighU (a b : W64) : W64 := w64 (a.toNat * b.toNat / 2 ^ 64)

/-- Leading zero bits of a number of the given width. -/
def leadingZeros (w : Nat) (n : Nat) : Nat := if n = 0 then w else w - 1 - n.log2
/-- Trailing zero bits, over a width given as fuel. -/
def trailingZeros : Nat → Nat → Nat
  | 0, _ => 0
  | w + 1, n => if n % 2 = 1 then 0 else 1 + trailingZeros w (n / 2)
/-- One bits, over a width given as fuel. -/
def popCount : Nat → Nat → Nat
  | 0, _ => 0
  | w + 1, n => n % 2 + popCount w (n / 2)
/-- The eight bytes reversed. -/
def byteSwap (a : W64) : W64 := w64 (leNat ((leBytes 8 a.toNat).reverse))
/-- Bits of the sz field of sext and zext: 8, 16 or 32 (R140). -/
def extBits (s : BitVec 2) : Nat := 8 * 2 ^ s.toNat
/-- Bit n - 1 copied into every bit above it. -/
def signExt (n : Nat) (a : W64) : W64 :=
  if n ≥ 64 then a else if a.getLsbD (n - 1) then a ||| (-1 <<< n) else a &&& w64 (2 ^ n - 1)
/-- Every bit from bit n up cleared. -/
def zeroExt (n : Nat) (a : W64) : W64 := w64 (a.toNat % 2 ^ n)

/-- add (R136). -/
def execAdd (z : BitVec 1) (d a b : BitVec 6) (s : State) : Host.Outcome State Fault Refusal :=
  runWord (aBit z) false (.add z d a b) (binary d a b (fun x y => x + y)) s

/-- sub (R136). -/
def execSub (z : BitVec 1) (d a b : BitVec 6) (s : State) : Host.Outcome State Fault Refusal :=
  runWord (aBit z) false (.sub z d a b) (binary d a b (fun x y => x - y)) s

/-- and (R136). -/
def execAnd (z : BitVec 1) (d a b : BitVec 6) (s : State) : Host.Outcome State Fault Refusal :=
  runWord (aBit z) false (.and z d a b) (binary d a b (fun x y => x &&& y)) s

/-- or (R136). -/
def execOr (z : BitVec 1) (d a b : BitVec 6) (s : State) : Host.Outcome State Fault Refusal :=
  runWord (aBit z) false (.or z d a b) (binary d a b (fun x y => x ||| y)) s

/-- xor (R136). -/
def execXor (z : BitVec 1) (d a b : BitVec 6) (s : State) : Host.Outcome State Fault Refusal :=
  runWord (aBit z) false (.xor z d a b) (binary d a b (fun x y => x ^^^ y)) s

/-- andn (R136). -/
def execAndn (z : BitVec 1) (d a b : BitVec 6) (s : State) : Host.Outcome State Fault Refusal :=
  runWord (aBit z) false (.andn z d a b) (binary d a b (fun x y => x &&& ~~~y)) s

/-- sll (R136). -/
def execSll (z : BitVec 1) (d a b : BitVec 6) (s : State) : Host.Outcome State Fault Refusal :=
  runWord (aBit z) false (.sll z d a b) (binary d a b (fun x y => x <<< shamt y)) s

/-- srl (R136). -/
def execSrl (z : BitVec 1) (d a b : BitVec 6) (s : State) : Host.Outcome State Fault Refusal :=
  runWord (aBit z) false (.srl z d a b) (binary d a b (fun x y => x >>> shamt y)) s

/-- sra (R136). -/
def execSra (z : BitVec 1) (d a b : BitVec 6) (s : State) : Host.Outcome State Fault Refusal :=
  runWord (aBit z) false (.sra z d a b) (binary d a b (fun x y => x.sshiftRight (shamt y))) s

/-- rol (R136). -/
def execRol (z : BitVec 1) (d a b : BitVec 6) (s : State) : Host.Outcome State Fault Refusal :=
  runWord (aBit z) false (.rol z d a b) (binary d a b (fun x y => x.rotateLeft (shamt y))) s

/-- mul (R136). -/
def execMul (z : BitVec 1) (d a b : BitVec 6) (s : State) : Host.Outcome State Fault Refusal :=
  runWord (aBit z) false (.mul z d a b) (binary d a b (fun x y => x * y)) s

/-- mulh (R136). -/
def execMulh (z : BitVec 1) (d a b : BitVec 6) (s : State) : Host.Outcome State Fault Refusal :=
  runWord (aBit z) false (.mulh z d a b) (binary d a b (fun x y => mulHigh x y)) s

/-- mulhu (R136). -/
def execMulhu (z : BitVec 1) (d a b : BitVec 6) (s : State) : Host.Outcome State Fault Refusal :=
  runWord (aBit z) false (.mulhu z d a b) (binary d a b (fun x y => mulHighU x y)) s

/-- div (R136). -/
def execDiv (z : BitVec 1) (d a b : BitVec 6) (s : State) : Host.Outcome State Fault Refusal :=
  runWord (aBit z) false (.div z d a b) (binary d a b (fun x y => divS x y)) s

/-- divu (R136). -/
def execDivu (z : BitVec 1) (d a b : BitVec 6) (s : State) : Host.Outcome State Fault Refusal :=
  runWord (aBit z) false (.divu z d a b) (binary d a b (fun x y => divU x y)) s

/-- rem (R136). -/
def execRem (z : BitVec 1) (d a b : BitVec 6) (s : State) : Host.Outcome State Fault Refusal :=
  runWord (aBit z) false (.rem z d a b) (binary d a b (fun x y => remS x y)) s

/-- remu (R136). -/
def execRemu (z : BitVec 1) (d a b : BitVec 6) (s : State) : Host.Outcome State Fault Refusal :=
  runWord (aBit z) false (.remu z d a b) (binary d a b (fun x y => remU x y)) s

/-- min (R136). -/
def execMin (z : BitVec 1) (d a b : BitVec 6) (s : State) : Host.Outcome State Fault Refusal :=
  runWord (aBit z) false (.min z d a b) (binary d a b (fun x y => if x.slt y then x else y)) s

/-- max (R136). -/
def execMax (z : BitVec 1) (d a b : BitVec 6) (s : State) : Host.Outcome State Fault Refusal :=
  runWord (aBit z) false (.max z d a b) (binary d a b (fun x y => if x.slt y then y else x)) s

/-- minu (R136). -/
def execMinu (z : BitVec 1) (d a b : BitVec 6) (s : State) : Host.Outcome State Fault Refusal :=
  runWord (aBit z) false (.minu z d a b) (binary d a b (fun x y => if x.ult y then x else y)) s

/-- maxu (R136). -/
def execMaxu (z : BitVec 1) (d a b : BitVec 6) (s : State) : Host.Outcome State Fault Refusal :=
  runWord (aBit z) false (.maxu z d a b) (binary d a b (fun x y => if x.ult y then y else x)) s

/-- slt (R136). -/
def execSlt (z : BitVec 1) (d a b : BitVec 6) (s : State) : Host.Outcome State Fault Refusal :=
  runWord (aBit z) false (.slt z d a b) (binary d a b (fun x y => ofBool (x.slt y))) s

/-- sltu (R136). -/
def execSltu (z : BitVec 1) (d a b : BitVec 6) (s : State) : Host.Outcome State Fault Refusal :=
  runWord (aBit z) false (.sltu z d a b) (binary d a b (fun x y => ofBool (x.ult y))) s

/-- clz (R139). -/
def execClz (z : BitVec 1) (d a : BitVec 6) (s : State) : Host.Outcome State Fault Refusal :=
  runWord (aBit z) false (.clz z d a) (unary d a (fun x => w64 (leadingZeros 64 x.toNat))) s

/-- ctz (R139). -/
def execCtz (z : BitVec 1) (d a : BitVec 6) (s : State) : Host.Outcome State Fault Refusal :=
  runWord (aBit z) false (.ctz z d a) (unary d a (fun x => w64 (trailingZeros 64 x.toNat))) s

/-- popc (R139). -/
def execPopc (z : BitVec 1) (d a : BitVec 6) (s : State) : Host.Outcome State Fault Refusal :=
  runWord (aBit z) false (.popc z d a) (unary d a (fun x => w64 (popCount 64 x.toNat))) s

/-- bswap (R139). -/
def execBswap (z : BitVec 1) (d a : BitVec 6) (s : State) : Host.Outcome State Fault Refusal :=
  runWord (aBit z) false (.bswap z d a) (unary d a (fun x => byteSwap x)) s

/-- sext (R140). -/
def execSext (z : BitVec 1) (d a : BitVec 6) (w : BitVec 2) (s : State) : Host.Outcome State Fault Refusal :=
  runWord (aBit z) false (.sext z d a w) (unary d a (fun x => signExt (extBits w) x)) s

/-- zext (R140). -/
def execZext (z : BitVec 1) (d a : BitVec 6) (w : BitVec 2) (s : State) : Host.Outcome State Fault Refusal :=
  runWord (aBit z) false (.zext z d a w) (unary d a (fun x => zeroExt (extBits w) x)) s

/-- addi (R137). -/
def execAddi (z : BitVec 1) (d a : BitVec 6) (i : BitVec 12) (s : State) : Host.Outcome State Fault Refusal :=
  runWord (aBit z) false (.addi z d a i) (unary d a (fun x => x + sext64 i)) s

/-- andi (R137). -/
def execAndi (z : BitVec 1) (d a : BitVec 6) (i : BitVec 12) (s : State) : Host.Outcome State Fault Refusal :=
  runWord (aBit z) false (.andi z d a i) (unary d a (fun x => x &&& sext64 i)) s

/-- ori (R137). -/
def execOri (z : BitVec 1) (d a : BitVec 6) (i : BitVec 12) (s : State) : Host.Outcome State Fault Refusal :=
  runWord (aBit z) false (.ori z d a i) (unary d a (fun x => x ||| sext64 i)) s

/-- xori (R137). -/
def execXori (z : BitVec 1) (d a : BitVec 6) (i : BitVec 12) (s : State) : Host.Outcome State Fault Refusal :=
  runWord (aBit z) false (.xori z d a i) (unary d a (fun x => x ^^^ sext64 i)) s

/-- slti (R137). -/
def execSlti (z : BitVec 1) (d a : BitVec 6) (i : BitVec 12) (s : State) : Host.Outcome State Fault Refusal :=
  runWord (aBit z) false (.slti z d a i) (unary d a (fun x => ofBool (x.slt (sext64 i)))) s

/-- sltiu (R137). -/
def execSltiu (z : BitVec 1) (d a : BitVec 6) (i : BitVec 12) (s : State) : Host.Outcome State Fault Refusal :=
  runWord (aBit z) false (.sltiu z d a i) (unary d a (fun x => ofBool (x.ult (sext64 i)))) s

/-- slli (R137). -/
def execSlli (z : BitVec 1) (d a i : BitVec 6) (s : State) : Host.Outcome State Fault Refusal :=
  runWord (aBit z) false (.slli z d a i) (unary d a (fun x => x <<< i.toNat)) s

/-- srli (R137). -/
def execSrli (z : BitVec 1) (d a i : BitVec 6) (s : State) : Host.Outcome State Fault Refusal :=
  runWord (aBit z) false (.srli z d a i) (unary d a (fun x => x >>> i.toNat)) s

/-- srai (R137). -/
def execSrai (z : BitVec 1) (d a i : BitVec 6) (s : State) : Host.Outcome State Fault Refusal :=
  runWord (aBit z) false (.srai z d a i) (unary d a (fun x => x.sshiftRight i.toNat)) s

/-- lui (R138). -/
def execLui (z : BitVec 1) (d : BitVec 6) (i : BitVec 18) (s : State) : Host.Outcome State Fault Refusal :=
  runWord (aBit z) false (.lui z d i) (do writeS d (sext64 i <<< 12); return .seq) s

/-- cmp (R141). -/
def execCmp (z : BitVec 1) (c d : BitVec 3) (a b : BitVec 6) (s : State) : Host.Outcome State Fault Refusal :=
  runWord (aBit z) false (.cmp z c d a b) (do
    let x ← readS a
    let y ← readS b
    updThread (fun t => writeCmp t c d x y)
    return .seq) s

/-- cmpi (R141). -/
def execCmpi (z : BitVec 1) (c d : BitVec 3) (a : BitVec 6) (i : BitVec 12) (s : State) : Host.Outcome State Fault Refusal :=
  runWord (aBit z) false (.cmpi z c d a i) (do
    let x ← readS a
    updThread (fun t => writeCmp t c d x (sext64 i))
    return .seq) s

/-- sel and sel.n (R143): both sources are read. -/
def execSel (z : BitVec 1) (d a b : BitVec 6) (n : BitVec 1) (p : BitVec 3) (s : State) : Host.Outcome State Fault Refusal :=
  runWord (aBit z) false (.sel z d a b n p) (do
    let x ← readS a
    let y ← readS b
    roomFor s d
    let q := (← thread).getP p.toNat
    writeS d (if q != (n == 1) then x else y)
    return .seq) s

/-- A predicate written from two predicates (R142). -/
def predOp (d : BitVec 3) (a b : BitVec 3) (f : Bool → Bool → Bool) : M Flow := do
  updThread (fun t => t.setP d.toNat (f (t.getP a.toNat) (t.getP b.toNat)))
  return .seq

/-- pand (R142). -/
def execPand (z : BitVec 1) (d a b : BitVec 3) (s : State) : Host.Outcome State Fault Refusal :=
  runWord (aBit z) false (.pand z d a b) (predOp d a b (fun x y => x && y)) s

/-- por (R142). -/
def execPor (z : BitVec 1) (d a b : BitVec 3) (s : State) : Host.Outcome State Fault Refusal :=
  runWord (aBit z) false (.por z d a b) (predOp d a b (fun x y => x || y)) s

/-- pxor (R142). -/
def execPxor (z : BitVec 1) (d a b : BitVec 3) (s : State) : Host.Outcome State Fault Refusal :=
  runWord (aBit z) false (.pxor z d a b) (predOp d a b (fun x y => x != y)) s

/-- pnot (R142). -/
def execPnot (z : BitVec 1) (d a : BitVec 3) (s : State) : Host.Outcome State Fault Refusal :=
  runWord (aBit z) false (.pnot z d a) (predOp d a a (fun x _ => !x)) s

/-- pmov (R142). -/
def execPmov (z : BitVec 1) (d a : BitVec 3) (s : State) : Host.Outcome State Fault Refusal :=
  runWord (aBit z) false (.pmov z d a) (predOp d a a (fun x _ => x)) s

end Sys2Proof.Machine
end

