-- ==== Sys2Proof/Machine/Dispatch.lean ====
section
/-!
DEFINITION. The dispatch of every instruction and event of the opcode table to its meaning: one arm per constructor.
-/
namespace Sys2Proof.Machine

/-- The meaning of an instruction or event in a state. -/
def exec (i : Instr) (s : State) : Host.Outcome State Fault Refusal :=
  match i with
  | .add z d a b => Sys2Proof.Machine.execAdd z d a b s
  | .sub z d a b => Sys2Proof.Machine.execSub z d a b s
  | .and z d a b => Sys2Proof.Machine.execAnd z d a b s
  | .or z d a b => Sys2Proof.Machine.execOr z d a b s
  | .xor z d a b => Sys2Proof.Machine.execXor z d a b s
  | .andn z d a b => Sys2Proof.Machine.execAndn z d a b s
  | .sll z d a b => Sys2Proof.Machine.execSll z d a b s
  | .srl z d a b => Sys2Proof.Machine.execSrl z d a b s
  | .sra z d a b => Sys2Proof.Machine.execSra z d a b s
  | .rol z d a b => Sys2Proof.Machine.execRol z d a b s
  | .mul z d a b => Sys2Proof.Machine.execMul z d a b s
  | .mulh z d a b => Sys2Proof.Machine.execMulh z d a b s
  | .mulhu z d a b => Sys2Proof.Machine.execMulhu z d a b s
  | .div z d a b => Sys2Proof.Machine.execDiv z d a b s
  | .divu z d a b => Sys2Proof.Machine.execDivu z d a b s
  | .rem z d a b => Sys2Proof.Machine.execRem z d a b s
  | .remu z d a b => Sys2Proof.Machine.execRemu z d a b s
  | .min z d a b => Sys2Proof.Machine.execMin z d a b s
  | .max z d a b => Sys2Proof.Machine.execMax z d a b s
  | .minu z d a b => Sys2Proof.Machine.execMinu z d a b s
  | .maxu z d a b => Sys2Proof.Machine.execMaxu z d a b s
  | .slt z d a b => Sys2Proof.Machine.execSlt z d a b s
  | .sltu z d a b => Sys2Proof.Machine.execSltu z d a b s
  | .clz z d a => Sys2Proof.Machine.execClz z d a s
  | .ctz z d a => Sys2Proof.Machine.execCtz z d a s
  | .popc z d a => Sys2Proof.Machine.execPopc z d a s
  | .bswap z d a => Sys2Proof.Machine.execBswap z d a s
  | .sext z d a xs => Sys2Proof.Machine.execSext z d a xs s
  | .zext z d a xs => Sys2Proof.Machine.execZext z d a xs s
  | .cmp z c d a b => Sys2Proof.Machine.execCmp z c d a b s
  | .cmpi z c d a imm => Sys2Proof.Machine.execCmpi z c d a imm s
  | .sel z d a b n p => Sys2Proof.Machine.execSel z d a b n p s
  | .pand z d a b => Sys2Proof.Machine.execPand z d a b s
  | .por z d a b => Sys2Proof.Machine.execPor z d a b s
  | .pxor z d a b => Sys2Proof.Machine.execPxor z d a b s
  | .pnot z d a => Sys2Proof.Machine.execPnot z d a s
  | .pmov z d a => Sys2Proof.Machine.execPmov z d a s
  | .addi z d a imm => Sys2Proof.Machine.execAddi z d a imm s
  | .andi z d a imm => Sys2Proof.Machine.execAndi z d a imm s
  | .ori z d a imm => Sys2Proof.Machine.execOri z d a imm s
  | .xori z d a imm => Sys2Proof.Machine.execXori z d a imm s
  | .slli z d a imm => Sys2Proof.Machine.execSlli z d a imm s
  | .srli z d a imm => Sys2Proof.Machine.execSrli z d a imm s
  | .srai z d a imm => Sys2Proof.Machine.execSrai z d a imm s
  | .slti z d a imm => Sys2Proof.Machine.execSlti z d a imm s
  | .sltiu z d a imm => Sys2Proof.Machine.execSltiu z d a imm s
  | .lui z d imm => Sys2Proof.Machine.execLui z d imm s
  | .br d => Sys2Proof.Machine.execBr d s
  | .bp p d => Sys2Proof.Machine.execBp p d s
  | .bnp p d => Sys2Proof.Machine.execBnp p d s
  | .call d imm => Sys2Proof.Machine.execCall d imm s
  | .jmpr d a => Sys2Proof.Machine.execJmpr d a s
  | .ret a => Sys2Proof.Machine.execRet a s
  | .loop l xs e => Sys2Proof.Machine.execLoop l xs e s
  | .loopi l c e => Sys2Proof.Machine.execLoopi l c e s
  | .lbrk l => Sys2Proof.Machine.execLbrk l s
  | .cbnd z d a b => Sys2Proof.Machine.execCbnd z d a b s
  | .ccur z d a b => Sys2Proof.Machine.execCcur z d a b s
  | .cadd z d a b => Sys2Proof.Machine.execCadd z d a b s
  | .cand z d a b => Sys2Proof.Machine.execCand z d a b s
  | .cget z d a k => Sys2Proof.Machine.execCget z d a k s
  | .ctest z d a b => Sys2Proof.Machine.execCtest z d a b s
  | .cmov z d a => Sys2Proof.Machine.execCmov z d a s
  | .ctab z d a => Sys2Proof.Machine.execCtab z d a s
  | .caddi z d a imm => Sys2Proof.Machine.execCaddi z d a imm s
  | .qpoll z d p => Sys2Proof.Machine.execQpoll z d p s
  | .qwait z p => Sys2Proof.Machine.execQwait z p s
  | .omClaim z xs => Sys2Proof.Machine.execOmClaim z xs s
  | .omRelease z xs => Sys2Proof.Machine.execOmRelease z xs s
  | .omState z d xs => Sys2Proof.Machine.execOmState z d xs s
  | .eqFence z m => Sys2Proof.Machine.execEqFence z m s
  | .chain z e g => Sys2Proof.Machine.execChain z e g s
  | .taskPost z a => Sys2Proof.Machine.execTaskPost z a s
  | .fmtSet z n a => Sys2Proof.Machine.execFmtSet z n a s
  | .fmtGet z d n => Sys2Proof.Machine.execFmtGet z d n s
  | .mfsr d xs => Sys2Proof.Machine.execMfsr d xs s
  | .mtsr a xs => Sys2Proof.Machine.execMtsr a xs s
  | .trapret => Sys2Proof.Machine.execTrapret s
  | .exit => Sys2Proof.Machine.execExit s
  | .exitAbandon => Sys2Proof.Machine.execExitAbandon s
  | .rdtime d => Sys2Proof.Machine.execRdtime d s
  | .rdcnt d a => Sys2Proof.Machine.execRdcnt d a s
  | .brkpt => Sys2Proof.Machine.execBrkpt s
  | .trap imm => Sys2Proof.Machine.execTrap imm s
  | .fence z k xs => Sys2Proof.Machine.execFence z k xs s
  | .pbar z => Sys2Proof.Machine.execPbar z s
  | .lwait z a => Sys2Proof.Machine.execLwait z a s
  | .barInit z a b => Sys2Proof.Machine.execBarInit z a b s
  | .barArrive z a => Sys2Proof.Machine.execBarArrive z a s
  | .barWait z a => Sys2Proof.Machine.execBarWait z a s
  | .barTest z d a => Sys2Proof.Machine.execBarTest z d a s
  | .genAlloc z d a => Sys2Proof.Machine.execGenAlloc z d a s
  | .genPass z => Sys2Proof.Machine.execGenPass z s
  | .ld z d c xs imm => Sys2Proof.Machine.execLd z d c xs imm s
  | .st z d c xs imm => Sys2Proof.Machine.execSt z d c xs imm s
  | .ldc z d c imm => Sys2Proof.Machine.execLdc z d c imm s
  | .stc z d c imm => Sys2Proof.Machine.execStc z d c imm s
  | .ldx z d a b x w => Sys2Proof.Machine.execLdx z d a b x w s
  | .stx z d a b x w => Sys2Proof.Machine.execStx z d a b x w s
  | .ldFe z d c imm => Sys2Proof.Machine.execLdFe z d c imm s
  | .ldFf z d c imm => Sys2Proof.Machine.execLdFf z d c imm s
  | .stEf z d c imm => Sys2Proof.Machine.execStEf z d c imm s
  | .feFill z d c imm => Sys2Proof.Machine.execFeFill z d c imm s
  | .feClr z c imm => Sys2Proof.Machine.execFeClr z c imm s
  | .feSt z d c imm => Sys2Proof.Machine.execFeSt z d c imm s
  | .pref z c imm => Sys2Proof.Machine.execPref z c imm s
  | .amo z d a b w o => Sys2Proof.Machine.execAmo z d a b w o s
  | .amoCas z d a b w => Sys2Proof.Machine.execAmoCas z d a b w s
  | .red z a b w o => Sys2Proof.Machine.execRed z a b w o s
  | .vadd z d a b f => Sys2Proof.Machine.execVadd z d a b f s
  | .vsub z d a b f => Sys2Proof.Machine.execVsub z d a b f s
  | .vmul z d a b f => Sys2Proof.Machine.execVmul z d a b f s
  | .vfma z d a b f => Sys2Proof.Machine.execVfma z d a b f s
  | .vfms z d a b f => Sys2Proof.Machine.execVfms z d a b f s
  | .vfnma z d a b f => Sys2Proof.Machine.execVfnma z d a b f s
  | .vmin z d a b f => Sys2Proof.Machine.execVmin z d a b f s
  | .vmax z d a b f => Sys2Proof.Machine.execVmax z d a b f s
  | .vabs z d a f => Sys2Proof.Machine.execVabs z d a f s
  | .vneg z d a f => Sys2Proof.Machine.execVneg z d a f s
  | .vrcp z d a f => Sys2Proof.Machine.execVrcp z d a f s
  | .vrsqrt z d a f => Sys2Proof.Machine.execVrsqrt z d a f s
  | .vsqrt z d a f => Sys2Proof.Machine.execVsqrt z d a f s
  | .vexp2 z d a f => Sys2Proof.Machine.execVexp2 z d a f s
  | .vlog2 z d a f => Sys2Proof.Machine.execVlog2 z d a f s
  | .vtanh z d a f => Sys2Proof.Machine.execVtanh z d a f s
  | .vdiv z d a b f => Sys2Proof.Machine.execVdiv z d a b f s
  | .viadd z d a b f => Sys2Proof.Machine.execViadd z d a b f s
  | .visub z d a b f => Sys2Proof.Machine.execVisub z d a b f s
  | .vimul z d a b f => Sys2Proof.Machine.execVimul z d a b f s
  | .vimulh z d a b f => Sys2Proof.Machine.execVimulh z d a b f s
  | .vand z d a b f => Sys2Proof.Machine.execVand z d a b f s
  | .vor z d a b f => Sys2Proof.Machine.execVor z d a b f s
  | .vxor z d a b f => Sys2Proof.Machine.execVxor z d a b f s
  | .vshl z d a b f => Sys2Proof.Machine.execVshl z d a b f s
  | .vshr z d a b f => Sys2Proof.Machine.execVshr z d a b f s
  | .vsra z d a b f => Sys2Proof.Machine.execVsra z d a b f s
  | .vimin z d a b f => Sys2Proof.Machine.execVimin z d a b f s
  | .vimax z d a b f => Sys2Proof.Machine.execVimax z d a b f s
  | .vcmp z c d a b f => Sys2Proof.Machine.execVcmp z c d a b f s
  | .vicmp z c d a b f => Sys2Proof.Machine.execVicmp z c d a b f s
  | .vsel z d a b => Sys2Proof.Machine.execVsel z d a b s
  | .mand z d a b => Sys2Proof.Machine.execMand z d a b s
  | .mor z d a b => Sys2Proof.Machine.execMor z d a b s
  | .mnot z d a => Sys2Proof.Machine.execMnot z d a s
  | .mpop z d a => Sys2Proof.Machine.execMpop z d a s
  | .vcvt z d a xs f => Sys2Proof.Machine.execVcvt z d a xs f s
  | .vpack z d a xs f => Sys2Proof.Machine.execVpack z d a xs f s
  | .vunpack z d a xs f => Sys2Proof.Machine.execVunpack z d a xs f s
  | .vperm z d a b f => Sys2Proof.Machine.execVperm z d a b f s
  | .vbcast z d xs h f => Sys2Proof.Machine.execVbcast z d xs h f s
  | .vrot z d a imm f => Sys2Proof.Machine.execVrot z d a imm f s
  | .vlane z d f => Sys2Proof.Machine.execVlane z d f s
  | .vredsum z d a t f => Sys2Proof.Machine.execVredsum z d a t f s
  | .vredmax z d a t f => Sys2Proof.Machine.execVredmax z d a t f s
  | .vredmin z d a t f => Sys2Proof.Machine.execVredmin z d a t f s
  | .vscan z d a t f => Sys2Proof.Machine.execVscan z d a t f s
  | .vwin z k xs b => Sys2Proof.Machine.execVwin z k xs b s
  | .vxset z v xs k f => Sys2Proof.Machine.execVxset z v xs k f s
  | .vmovs z d xs l => Sys2Proof.Machine.execVmovs z d xs l s
  | .vmovq z d imm => Sys2Proof.Machine.execVmovq z d imm s
  | .vld z d c xs v f => Sys2Proof.Machine.execVld z d c xs v f s
  | .vst z d c xs v f => Sys2Proof.Machine.execVst z d c xs v f s
  | .vldx z d c xs v f => Sys2Proof.Machine.execVldx z d c xs v f s
  | .vstx z d c xs v f => Sys2Proof.Machine.execVstx z d c xs v f s
  | .vldS z d c xs v f => Sys2Proof.Machine.execVldS z d c xs v f s
  | .vstS z d c xs v f => Sys2Proof.Machine.execVstS z d c xs v f s
  | .mma z n a b f xs => Sys2Proof.Machine.execMma z n a b f xs s
  | .mmaZ z n a b f xs => Sys2Proof.Machine.execMmaZ z n a b f xs s
  | .accClr z n => Sys2Proof.Machine.execAccClr z n s
  | .accRd z n c q => Sys2Proof.Machine.execAccRd z n c q s
  | .accWr z n c q => Sys2Proof.Machine.execAccWr z n c q s
  | .epi z n o c xs q => Sys2Proof.Machine.execEpi z n o c xs q s
  | .epiV z n o xs q => Sys2Proof.Machine.execEpiV z n o xs q s
  | .dtabLd z t c q => Sys2Proof.Machine.execDtabLd z t c q s
  | .dtabInv z t => Sys2Proof.Machine.execDtabInv z t s
  | .mseg z xs => Sys2Proof.Machine.execMseg z xs s
  | .cp z d e l c => Sys2Proof.Machine.execCp z d e l c s
  | .cp2d z d e n c => Sys2Proof.Machine.execCp2d z d e n c s
  | .cpOm z n e l c => Sys2Proof.Machine.execCpOm z n e l c s
  | .cpGat z d e n c => Sys2Proof.Machine.execCpGat z d e n c s
  | .cpSet z d n c => Sys2Proof.Machine.execCpSet z d n c s
  | .cpZ z d e l c => Sys2Proof.Machine.execCpZ z d e l c s
  | .cpX z d e l c => Sys2Proof.Machine.execCpX z d e l c s
  | .cpCk z d e l c => Sys2Proof.Machine.execCpCk z d e l c s
  | .netPost z c l q => Sys2Proof.Machine.execNetPost z c l q s
  | .netSend z c l q => Sys2Proof.Machine.execNetSend z c l q s
  | .netSendWrite z c l q => Sys2Proof.Machine.execNetSendWrite z c l q s
  | .netSendRead z c l q => Sys2Proof.Machine.execNetSendRead z c l q s
  | .netReply z c l => Sys2Proof.Machine.execNetReply z c l s
  | .fstLd z c l xs => Sys2Proof.Machine.execFstLd z c l xs s
  | .fstStart z c l xs => Sys2Proof.Machine.execFstStart z c l xs s
  | .fstStop z xs => Sys2Proof.Machine.execFstStop z xs s
  | .zcPush xs d => Sys2Proof.Machine.execZcPush xs d s
  | .zcFence d => Sys2Proof.Machine.execZcFence d s
  | .zcStat xs d => Sys2Proof.Machine.execZcStat xs d s
  | .frameReceive port f => Sys2Proof.Machine.execFrameReceive port f s
  | .sowerAcceptMessage => Sys2Proof.Machine.execSowerAcceptMessage s
  | .gcmHeaderCheck => Sys2Proof.Machine.execGcmHeaderCheck s
  | .mcbLookup => Sys2Proof.Machine.execMcbLookup s
  | .freePlotSearch part => Sys2Proof.Machine.execFreePlotSearch part s
  | .bindAndRegisterPreload mcb => Sys2Proof.Machine.execBindAndRegisterPreload mcb s
  | .restoreSaveImage mcb => Sys2Proof.Machine.execRestoreSaveImage mcb s
  | .firstFetch mcb => Sys2Proof.Machine.execFirstFetch mcb s
  | .decoderTableInitLoad core dt => Sys2Proof.Machine.execDecoderTableInitLoad core dt s
  | .launchEnqueueRetry st => Sys2Proof.Machine.execLaunchEnqueueRetry st s
  | .roceSendReceive from_ data => Sys2Proof.Machine.execRoceSendReceive from_ data s
  | .roceInboundRdma q => Sys2Proof.Machine.execRoceInboundRdma q s
  | .hostInboundWrite sp addr data => Sys2Proof.Machine.execHostInboundWrite sp addr data s
  | .engineCommandStart core eng => Sys2Proof.Machine.execEngineCommandStart core eng s
  | .engineCommandComplete core eng nth ans => Sys2Proof.Machine.execEngineCommandComplete core eng nth ans s
  | .mmaSegmentRetire core => Sys2Proof.Machine.execMmaSegmentRetire core s
  | .taskIssue mcb => Sys2Proof.Machine.execTaskIssue mcb s
  | .taskComplete core => Sys2Proof.Machine.execTaskComplete core s
  | .taskWaitRecheck mcb => Sys2Proof.Machine.execTaskWaitRecheck mcb s
  | .parkedAccessReplay core => Sys2Proof.Machine.execParkedAccessReplay core s
  | .xtlbEntryExpiry core => Sys2Proof.Machine.execXtlbEntryExpiry core s
  | .leaseRenewal core eng nth => Sys2Proof.Machine.execLeaseRenewal core eng nth s
  | .heldFormWithdrawal core => Sys2Proof.Machine.execHeldFormWithdrawal core s
  | .feWaitSatisfied core => Sys2Proof.Machine.execFeWaitSatisfied core s
  | .barWaitCompletion core => Sys2Proof.Machine.execBarWaitCompletion core s
  | .queuePortStallEnd core => Sys2Proof.Machine.execQueuePortStallEnd core s
  | .lwaitEnd core => Sys2Proof.Machine.execLwaitEnd core s
  | .eqFenceEnd core => Sys2Proof.Machine.execEqFenceEnd core s
  | .fenceComplete core => Sys2Proof.Machine.execFenceComplete core s
  | .genPassWaitEnd core => Sys2Proof.Machine.execGenPassWaitEnd core s
  | .omClaimWaitEnd core => Sys2Proof.Machine.execOmClaimWaitEnd core s
  | .exitDrainEnd core => Sys2Proof.Machine.execExitDrainEnd core s
  | .invocationRetirement mcb => Sys2Proof.Machine.execInvocationRetirement mcb s
  | .haltRelease mcb => Sys2Proof.Machine.execHaltRelease mcb s
  | .killComplete mcb => Sys2Proof.Machine.execKillComplete mcb s
  | .preemptLandComplete mcb => Sys2Proof.Machine.execPreemptLandComplete mcb s
  | .saveComplete mcb => Sys2Proof.Machine.execSaveComplete mcb s
  | .awaitingAnswerArrival mcb core value => Sys2Proof.Machine.execAwaitingAnswerArrival mcb core value s
  | .t1Expiry mcb => Sys2Proof.Machine.execT1Expiry mcb s
  | .t2Expiry mcb => Sys2Proof.Machine.execT2Expiry mcb s
  | .t3Expiry mcb => Sys2Proof.Machine.execT3Expiry mcb s
  | .skewEvent agent deviation => Sys2Proof.Machine.execSkewEvent agent deviation s
  | .cpHeartbeatTimeout hart => Sys2Proof.Machine.execCpHeartbeatTimeout hart s
  | .beaconReceive master => Sys2Proof.Machine.execBeaconReceive master s
  | .beaconTimeout => Sys2Proof.Machine.execBeaconTimeout s
  | .nepolPathTimeout core => Sys2Proof.Machine.execNepolPathTimeout core s
  | .completionTimeout core => Sys2Proof.Machine.execCompletionTimeout core s
  | .powerManagerTick watts hot => Sys2Proof.Machine.execPowerManagerTick watts hot s
  | .thermalTrip => Sys2Proof.Machine.execThermalTrip s
  | .wake => Sys2Proof.Machine.execWake s
  | .sleep => Sys2Proof.Machine.execSleep s
  | .sproutJobStart part die => Sys2Proof.Machine.execSproutJobStart part die s
  | .sproutPageArrival job data => Sys2Proof.Machine.execSproutPageArrival job data s
  | .sproutJobEnd job sourceError => Sys2Proof.Machine.execSproutJobEnd job sourceError s
  | .sampleTick part => Sys2Proof.Machine.execSampleTick part s
  | .pktNop st len => Sys2Proof.Machine.execPktNop st len s
  | .pktLaunch st w funcid arg => Sys2Proof.Machine.execPktLaunch st w funcid arg s
  | .launchRetireWaitEnd st => Sys2Proof.Machine.execLaunchRetireWaitEnd st s
  | .pktIb st buf => Sys2Proof.Machine.execPktIb st buf s
  | .pktPred st cond addr ref mask count => Sys2Proof.Machine.execPktPred st cond addr ref mask count s
  | .pktLoop st trips => Sys2Proof.Machine.execPktLoop st trips s
  | .pktEndloop st => Sys2Proof.Machine.execPktEndloop st s
  | .pktWrite st wide addr value => Sys2Proof.Machine.execPktWrite st wide addr value s
  | .pktWaitFlag st cond addr ref mask => Sys2Proof.Machine.execPktWaitFlag st cond addr ref mask s
  | .waitReread st => Sys2Proof.Machine.execWaitReread st s
  | .pktWaitTime st bound => Sys2Proof.Machine.execPktWaitTime st bound s
  | .waitTimeEnd st => Sys2Proof.Machine.execWaitTimeEnd st s
  | .pktSignal st notify addr addend => Sys2Proof.Machine.execPktSignal st notify addr addend s
  | .signalAdd st => Sys2Proof.Machine.execSignalAdd st s
  | .pktFfence st => Sys2Proof.Machine.execPktFfence st s
  | .ffenceRefetch st => Sys2Proof.Machine.execFfenceRefetch st s
  | .pktCond st cond addr ref thenBuf elseBuf => Sys2Proof.Machine.execPktCond st cond addr ref thenBuf elseBuf s
  | .pktSwitch st addr dflt cases => Sys2Proof.Machine.execPktSwitch st addr dflt cases s
  | .pktEnd st => Sys2Proof.Machine.execPktEnd st s
  | .sqtailDoorbell ifc tail => Sys2Proof.Machine.execSqtailDoorbell ifc tail s
  | .cqheadWrite ifc head => Sys2Proof.Machine.execCqheadWrite ifc head s
  | .interfaceRegisterWrite ifc offset value => Sys2Proof.Machine.execInterfaceRegisterWrite ifc offset value s
  | .install iss a => Sys2Proof.Machine.execInstall iss a s
  | .mcbWrite iss mcb mask value => Sys2Proof.Machine.execMcbWrite iss mcb mask value s
  | .mcbRemove iss mcb => Sys2Proof.Machine.execMcbRemove iss mcb s
  | .capWrite iss mcb index entry => Sys2Proof.Machine.execCapWrite iss mcb index entry s
  | .revoke iss mcb obj npages => Sys2Proof.Machine.execRevoke iss mcb obj npages s
  | .revokeWaitEnd nth => Sys2Proof.Machine.execRevokeWaitEnd nth s
  | .streamOpen iss mcb obj perm ring tail => Sys2Proof.Machine.execStreamOpen iss mcb obj perm ring tail s
  | .streamTail iss st tail => Sys2Proof.Machine.execStreamTail iss st tail s
  | .streamClose iss st => Sys2Proof.Machine.execStreamClose iss st s
  | .qpCreate iss mcb px py peer => Sys2Proof.Machine.execQpCreate iss mcb px py peer s
  | .qpDestroy iss qp => Sys2Proof.Machine.execQpDestroy iss qp s
  | .faultReplyResume iss mcb => Sys2Proof.Machine.execFaultReplyResume iss mcb s
  | .faultReplyResumeHandler iss mcb => Sys2Proof.Machine.execFaultReplyResumeHandler iss mcb s
  | .faultReplyKill iss mcb => Sys2Proof.Machine.execFaultReplyKill iss mcb s
  | .assign iss ifc part pasid => Sys2Proof.Machine.execAssign iss ifc part pasid s
  | .partition iss a => Sys2Proof.Machine.execPartition iss a s
  | .keyslot iss slot keys parts => Sys2Proof.Machine.execKeyslot iss slot keys parts s
  | .replay iss parts => Sys2Proof.Machine.execReplay iss parts s
  | .checkpoint iss parts target dirty stayFrozen => Sys2Proof.Machine.execCheckpoint iss parts target dirty stayFrozen s
  | .bitmapSwap iss bases => Sys2Proof.Machine.execBitmapSwap iss bases s
  | .bitmapSwitchComplete => Sys2Proof.Machine.execBitmapSwitchComplete s
  | .partitionReset iss part => Sys2Proof.Machine.execPartitionReset iss part s
  | .windowReduction iss win base pages epoch => Sys2Proof.Machine.execWindowReduction iss win base pages epoch s
  | .windowExport iss slot entry => Sys2Proof.Machine.execWindowExport iss slot entry s
  | .bankClaim iss part unit => Sys2Proof.Machine.execBankClaim iss part unit s
  | .bankRelease iss part unit => Sys2Proof.Machine.execBankRelease iss part unit s
  | .bankRead iss part unit va => Sys2Proof.Machine.execBankRead iss part unit va s
  | .bankWrite iss part unit sel => Sys2Proof.Machine.execBankWrite iss part unit sel s
  | .snapshot iss part va => Sys2Proof.Machine.execSnapshot iss part va s
  | .bpWrite iss part n value => Sys2Proof.Machine.execBpWrite iss part n value s
  | .wpWrite iss part n value => Sys2Proof.Machine.execWpWrite iss part n value s
  | .sample iss part cores period unit => Sys2Proof.Machine.execSample iss part cores period unit s
  | .dbgCfg iss part ringBase ringLen targets => Sys2Proof.Machine.execDbgCfg iss part ringBase ringLen targets s
  | .fwLoad iss harts va => Sys2Proof.Machine.execFwLoad iss harts va s
  | .fwSwap iss harts => Sys2Proof.Machine.execFwSwap iss harts s
  | .attest iss nonce va => Sys2Proof.Machine.execAttest iss nonce va s
  | .coreReset iss x y => Sys2Proof.Machine.execCoreReset iss x y s
  | .power iss island point gate => Sys2Proof.Machine.execPower iss island point gate s
  | .cpwdWrite hart value => Sys2Proof.Machine.execCpwdWrite hart value s
  | .fwctlWrite hart value => Sys2Proof.Machine.execFwctlWrite hart value s
  | .modeWrite hart value => Sys2Proof.Machine.execModeWrite hart value s
  | .csrWrite hart csr value => Sys2Proof.Machine.execCsrWrite hart csr value s
  | .illegalInstruction word => Sys2Proof.Machine.execIllegalInstruction word s
  | .functionReady bit => Sys2Proof.Machine.execFunctionReady bit s
  | .ptCopyResynchronised agent => Sys2Proof.Machine.execPtCopyResynchronised agent s
  | .nepolInboundAccess q => Sys2Proof.Machine.execNepolInboundAccess q s
  | .nepolLinkFailure link => Sys2Proof.Machine.execNepolLinkFailure link s
  | .nepolSwitchFailure win resent => Sys2Proof.Machine.execNepolSwitchFailure win resent s
  | .scrubComplete part => Sys2Proof.Machine.execScrubComplete part s
  | .checkpointStreamsWritten => Sys2Proof.Machine.execCheckpointStreamsWritten s

end Sys2Proof.Machine
end

