-- ==== Sys2Proof/Machine/Riscv.lean ====
section
/-!
DEFINITION. The RV64GC instructions of a command-processor core (R450), with Zicsr and Zifencei, the three privilege modes and Sv48
paging, as the published RISC-V unprivileged and privileged specifications define them (PRESUMED: the manual does not restate them).

What those specifications leave to an implementation is settled so: plain accesses may be misaligned, an A or D bit that is clear is a page
fault, no physical-memory-protection entry and no event counter is present, sc succeeds whenever its reservation stands, wfi and the fences
complete at once, and mtval of an illegal instruction is 0 (DESIGN CHOICE). Physical addresses below the size of a bank without its image
header are the body of the active image with what the core has stored since; the manual gives nothing of those beyond (DESIGN CHOICE): a read
there gives an open value, a write has no effect that the model holds, and a fetch is an instruction access fault.
-/
namespace Sys2Proof.Machine

/-- What an instruction does: an exception with its value, or a new state of the part. -/
inductive RvOut where
  | trap (cause : Nat) (tval : W64)
  | done (s : State)

-- Memory

/-- Bytes of a core's own memory. -/
def rvMemory : Nat := 1050560

/-- A byte of a core's physical memory; `n` counts instructions for the bytes beyond. -/
def Hart.byte (h : Hart) (n a : Nat) : Byte :=
  match mapFind h.ram a with
  | some b => b
  | none => if a < rvMemory then (h.bank h.active).bytes.getD (64 + a) 0 else Config.hartBus n a

/-- Bytes of a core's physical memory, as a number. -/
def Hart.load (h : Hart) (n : Nat) (places : List Nat) : Nat := leNat (places.map (h.byte n))

/-- A byte stored. -/
def Hart.store (h : Hart) (a : Nat) (b : Byte) : Hart := if a < rvMemory then { h with ram := mapPut h.ram a b } else h

/-- Bytes stored at their places, lowest first. -/
def Hart.storeAll (h : Hart) (places : List Nat) (v : Nat) : Hart :=
  (places.zip (leBytes places.length v)).foldl (fun h e => h.store e.1 e.2) h

/-- A page-table entry lets an access through: kind 0 fetches, 1 reads, 2 writes. -/
def Hart.pteAllows (h : Hart) (mode kind : Nat) (pte : W64) : Bool :=
  let user := pte.getLsbD 4
  (if mode = 0 then user else !user || (h.sum && kind != 0)) &&
  (if kind = 0 then pte.getLsbD 3 else if kind = 1 then pte.getLsbD 1 || (h.mxr && pte.getLsbD 3) else pte.getLsbD 2) &&
  pte.getLsbD 6 && (kind != 2 || pte.getLsbD 7)

/-- The walk of a page table of i levels at a physical address: the physical address of a virtual one, or none for a page fault. -/
def Hart.walk (h : Hart) (n mode kind va : Nat) : Nat → Nat → Option Nat
  | 0, _ => none
  | i + 1, table =>
    let at_ := table + 8 * (va / 2 ^ (12 + 9 * i) % 512)
    let pte := w64 (h.load n (List.range' at_ 8))
    let ppn := fieldNat pte 10 44
    if !pte.getLsbD 0 || (pte.getLsbD 2 && !pte.getLsbD 1) || fieldNat pte 54 10 != 0 then none
    else if pte.getLsbD 1 || pte.getLsbD 3 then
      if ppn % 2 ^ (9 * i) = 0 && h.pteAllows mode kind pte then some (4096 * ppn + va % 2 ^ (12 + 9 * i)) else none
    else if pte.getLsbD 4 || fieldNat pte 6 2 != 0 then none
    else h.walk n mode kind va i (4096 * ppn)

/-- The mode that an access is made in: MPRV lends reads and writes that of MPP. -/
def Hart.accessMode (h : Hart) (kind : Nat) : Nat := if kind != 0 && h.mprv then h.mpp else h.mode.toNat

/-- The physical address of a virtual one. -/
def Hart.place (h : Hart) (n kind : Nat) (va : W64) : Option Nat :=
  let mode := h.accessMode kind
  let satp := h.csr 0x180
  let levels := if fieldNat satp 60 4 = 8 then 3 else 4
  if mode = 3 || fieldNat satp 60 4 = 0 then some va.toNat
  else if (va.setWidth (12 + 9 * levels)).signExtend 64 ≠ va then none
  else h.walk n mode kind va.toNat levels (4096 * fieldNat satp 0 44)

/-- The places of n bytes from a virtual address, or the address of the first byte whose page faults. -/
def Hart.places (h : Hart) (n kind : Nat) (va : W64) (bytes : Nat) : Except W64 (List Nat) :=
  (List.range bytes).foldr (fun i r =>
    match h.place n kind (va + w64 i), r with
    | none, _ => .error (va + w64 i)
    | some a, .ok l => .ok (a :: l)
    | some _, .error e => .error e) (.ok [])

/-- A read of n bytes. -/
def rvLoad (s : State) (k : Nat) (va : W64) (bytes : Nat) (go : Nat → RvOut) : RvOut :=
  match (hartAt s k).places s.free 1 va bytes with
  | .error e => .trap 13 e
  | .ok l => go ((hartAt s k).load s.free l)

/-- A write of n bytes. -/
def rvStore (s : State) (k : Nat) (va : W64) (bytes v : Nat) (go : Hart → Hart) : RvOut :=
  match (hartAt s k).places s.free 2 va bytes with
  | .error e => .trap 15 e
  | .ok l => .done (s.updHart k (fun h => go (h.storeAll l v)))

-- Fields of an instruction

def rvOpcode (w : W32) : Nat := fieldNat w 0 7
def rvRd (w : W32) : BitVec 5 := field w 7 5
def rvF3 (w : W32) : Nat := fieldNat w 12 3
def rvRs1 (w : W32) : BitVec 5 := field w 15 5
def rvRs2 (w : W32) : BitVec 5 := field w 20 5
def rvF7 (w : W32) : Nat := fieldNat w 25 7
def immI (w : W32) : W64 := (field w 20 12).signExtend 64
def immS (w : W32) : W64 := (field w 25 7 ++ field w 7 5).signExtend 64
def immB (w : W32) : W64 := (field w 31 1 ++ field w 7 1 ++ field w 25 6 ++ field w 8 4 ++ (0 : BitVec 1)).signExtend 64
def immU (w : W32) : W64 := (field w 12 20 ++ (0 : BitVec 12)).signExtend 64
def immJ (w : W32) : W64 := (field w 31 1 ++ field w 12 8 ++ field w 20 1 ++ field w 21 10 ++ (0 : BitVec 1)).signExtend 64

-- Integer arithmetic

/-- The register-register operations of the base set: `alt` is sub and the arithmetic right shift; `sh` is the shift amount. -/
def rvAlu {n : Nat} (f3 : Nat) (alt : Bool) (a b : BitVec n) (sh : Nat) : BitVec n :=
  match f3 with
  | 0 => if alt then a - b else a + b
  | 1 => a <<< sh
  | 2 => if a.slt b then 1 else 0
  | 3 => if a.ult b then 1 else 0
  | 4 => a ^^^ b
  | 5 => if alt then a.sshiftRight sh else a >>> sh
  | 6 => a ||| b
  | _ => a &&& b

/-- Multiplication and division: a division by zero gives all ones and leaves the dividend, and an overflow wraps. -/
def rvMulDiv {n : Nat} (f3 : Nat) (a b : BitVec n) : BitVec n :=
  match f3 with
  | 0 => a * b
  | 1 => BitVec.ofInt n (a.toInt * b.toInt / 2 ^ n)
  | 2 => BitVec.ofInt n (a.toInt * b.toNat / 2 ^ n)
  | 3 => BitVec.ofNat n (a.toNat * b.toNat / 2 ^ n)
  | 4 => if b.toNat = 0 then BitVec.allOnes n else BitVec.ofInt n (a.toInt.tdiv b.toInt)
  | 5 => if b.toNat = 0 then BitVec.allOnes n else BitVec.ofNat n (a.toNat / b.toNat)
  | 6 => if b.toNat = 0 then a else BitVec.ofInt n (a.toInt.tmod b.toInt)
  | _ => if b.toNat = 0 then a else BitVec.ofNat n (a.toNat % b.toNat)

/-- What an atomic operation writes. -/
def rvAmo {n : Nat} (f5 : Nat) (old v : BitVec n) : BitVec n :=
  match f5 with
  | 0x00 => old + v
  | 0x01 => v
  | 0x04 => old ^^^ v
  | 0x08 => old ||| v
  | 0x0C => old &&& v
  | 0x10 => if old.slt v then old else v
  | 0x14 => if old.slt v then v else old
  | 0x18 => if old.ult v then old else v
  | _ => if old.ult v then v else old

-- Floating point

/-- F and D registers: an F value stands in 64 bits with ones above it. -/
def rvFmt (d : Bool) : Fmt := if d then fp64 else fp32
def Hart.freg (h : Hart) (d : Bool) (n : BitVec 5) : Nat :=
  let v := mapGet 0 h.f n.toNat
  if d then v.toNat else if fieldNat v 32 32 = 2 ^ 32 - 1 then fieldNat v 0 32 else fp32.nanCode
def Hart.setFreg (h : Hart) (d : Bool) (n : BitVec 5) (c : Nat) : Hart :=
  { h with f := mapSet 0 h.f n.toNat (w64 (if d then c else c % 2 ^ 32 + (2 ^ 32 - 1) * 2 ^ 32)) }.fpDirty

/-- The accrued flags: inexact 1, underflow 2, overflow 4, division by zero 8, invalid 16. -/
def Hart.flags (h : Hart) (n : Nat) : Hart :=
  if n = 0 then h else (h.setCsr 0x003 (h.csr 0x003 ||| w64 n)).fpDirty

/-- A signalling NaN. -/
def isSnan (f : Fmt) (c : Nat) : Bool := (f.decode c).isNan && c / 2 ^ (f.prec.getD 2 - 2) % 2 == 0

/-- A rounding mode as `roundsUp` numbers them. -/
def rvMode (rm : Nat) : Nat := if rm = 2 then 3 else if rm = 3 then 2 else rm

/-- A number rounded, with its flags: tininess is detected after rounding. -/
def rvRound (f : Fmt) (rm : Nat) (x : Num) : Nat × Nat :=
  match x with
  | .nan => (f.nanCode, 0)
  | .inf neg => ((if neg then f.signBit else 0) + f.infCode.getD 0, 0)
  | .fin neg m e =>
    let p := f.prec.getD 1
    let sign := if neg then f.signBit else 0
    let (q, u) := roundMag f.prec f.emin (rvMode rm) neg 0 m e
    let c := magCode p f.emin q u
    let g := Min.min e u
    let exact := m * 2 ^ (e - g).toNat == q * 2 ^ (u - g).toNat
    let (q1, u1) := roundMag f.prec (f.emin - 4096) (rvMode rm) neg 0 m e
    let tiny := decide ((bitLen q1 : Int) + u1 < f.emin + p)
    if c > f.maxCode then
      (sign + (if rm = 1 || (rm = 2 && !neg) || (rm = 3 && neg) then f.maxCode else f.infCode.getD 0), 5)
    else (sign + c, if exact then 0 else if tiny then 3 else 1)

/-- A result: of operands one of which is a signalling NaN, or that the operation does not define, invalid is raised. -/
def rvResult (f : Fmt) (rm : Nat) (args : List Nat) (x : Num) : Nat × Nat :=
  let nans := args.any (fun c => (f.decode c).isNan)
  if x.isNan then (f.nanCode, if args.any (isSnan f) || !nans then 16 else 0) else rvRound f rm x

/-- An exact sum: one of opposite zeros or of opposite numbers is -0 when rounding goes down. -/
def rvSum (rm : Nat) (x y : Num) : Num :=
  match x.add y with
  | .fin neg 0 e => .fin (if rm = 2 then !(!x.isNeg && !y.isNeg) else neg) 0 e
  | z => z

/-- fadd, fsub, fmul, fdiv by bits [3:2] of funct7 and whether to subtract. -/
def rvBinary (f : Fmt) (rm op a b : Nat) : Nat × Nat :=
  let x := f.decode a
  let y := f.decode b
  match op with
  | 0 => rvResult f rm [a, b] (rvSum rm x y)
  | 1 => rvResult f rm [a, b] (rvSum rm x y.neg)
  | 2 => rvResult f rm [a, b] (x.mul y)
  | _ =>
    let r := rvResult f rm [a, b] (x.div y)
    match x, y with
    | .fin _ m _, .fin _ 0 _ => if m = 0 then r else (r.1, 8)
    | _, _ => r

/-- fsqrt. -/
def rvSqrt (f : Fmt) (rm a : Nat) : Nat × Nat := rvResult f rm [a] (f.decode a).sqrt

/-- The fused operations: the product is negated for fnmsub and fnmadd, the addend for fmsub and fnmadd. -/
def rvFused (f : Fmt) (rm : Nat) (negProd negAdd : Bool) (a b c : Nat) : Nat × Nat :=
  let p := (f.decode a).mul (f.decode b)
  let p := if negProd then p.neg else p
  let z := if negAdd then (f.decode c).neg else f.decode c
  let r := rvResult f rm [a, b, c] (rvSum rm p z)
  if p.isNan && !(f.decode a).isNan && !(f.decode b).isNan then (f.nanCode, 16) else r

/-- fmin and fmax: -0 is below +0, and a number beats a NaN. -/
def rvMinMax (f : Fmt) (wantMax : Bool) (a b : Nat) : Nat × Nat :=
  let x := f.decode a
  let y := f.decode b
  let fl := if isSnan f a || isSnan f b then 16 else 0
  let less := x.cmp y == some .lt || (x.cmp y == some .eq && x.isNeg && !y.isNeg)
  (if x.isNan && y.isNan then f.nanCode else if x.isNan then b else if y.isNan then a
   else if less != wantMax then a else b, fl)

/-- feq, flt, fle by funct3 2, 1, 0. -/
def rvCompare (f : Fmt) (f3 a b : Nat) : W64 × Nat :=
  let r := (f.decode a).cmp (f.decode b)
  let fl := if f3 = 2 then (if isSnan f a || isSnan f b then 16 else 0) else (if r.isNone then 16 else 0)
  (ofBool (if f3 = 2 then r == some .eq else if f3 = 1 then r == some .lt else r == some .lt || r == some .eq), fl)

/-- fclass. -/
def rvClass (f : Fmt) (c : Nat) : W64 :=
  match f.decode c with
  | .nan => if isSnan f c then 0x100 else 0x200
  | .inf neg => if neg then 1 else 0x80
  | .fin neg m _ =>
    if m = 0 then (if neg then 8 else 0x10)
    else if m < 2 ^ (f.prec.getD 1 - 1) then (if neg then 4 else 0x20)
    else (if neg then 2 else 0x40)

/-- A value to an integer of a range, rounded; out of range it saturates, and a NaN gives the greatest. -/
def rvToInt (lo hi : Int) (rm : Nat) (x : Num) : Int × Nat :=
  match x with
  | .nan => (hi, 16)
  | .inf neg => (if neg then lo else hi, 16)
  | .fin neg m e =>
    let (q, u) := roundMag none 0 (rvMode rm) neg 0 m e
    let v : Int := if neg then -((q * 2 ^ u.toNat : Nat) : Int) else ((q * 2 ^ u.toNat : Nat) : Int)
    let exact := if e ≥ 0 then true else m % 2 ^ (-e).toNat == 0
    if v < lo then (lo, 16) else if v > hi then (hi, 16) else (v, if exact then 0 else 1)

/-- The range of fcvt's integer forms: W, WU, L, LU. -/
def rvRange (t : Nat) : Int × Int :=
  match t with
  | 0 => (-(2 ^ 31), 2 ^ 31 - 1)
  | 1 => (0, 2 ^ 32 - 1)
  | 2 => (-(2 ^ 63), 2 ^ 63 - 1)
  | _ => (0, 2 ^ 64 - 1)

/-- An integer register as the source of fcvt. -/
def rvFromReg (t : Nat) (v : W64) : Int :=
  match t with
  | 0 => (v.setWidth 32).toInt
  | 1 => (v.setWidth 32).toNat
  | 2 => v.toInt
  | _ => v.toNat

/-- The integer as fcvt writes it: 32-bit results are sign-extended. -/
def rvToReg (t : Nat) (v : Int) : W64 := if t < 2 then (BitVec.ofInt 32 v).signExtend 64 else BitVec.ofInt 64 v

-- Execution

/-- An instruction of core k of `len` bytes completes. -/
def rvDone (s : State) (k len : Nat) (f : Hart → Hart) : RvOut := .done (s.updHart k (fun h => { f h with pc := h.pc + w64 len }))

def rvIllegal : RvOut := .trap 2 0

/-- Loads by funct3. -/
def rvLoads (s : State) (k len : Nat) (w : W32) : RvOut :=
  let va := (hartAt s k).reg (rvRs1 w) + immI w
  let f3 := rvF3 w
  if f3 = 7 then rvIllegal
  else rvLoad s k va (2 ^ (f3 % 4)) (fun v => rvDone s k len (fun h => h.setReg (rvRd w)
    (match f3 with
     | 0 => (BitVec.ofNat 8 v).signExtend 64
     | 1 => (BitVec.ofNat 16 v).signExtend 64
     | 2 => (BitVec.ofNat 32 v).signExtend 64
     | _ => w64 v)))

/-- Stores by funct3. -/
def rvStores (s : State) (k len : Nat) (w : W32) : RvOut :=
  let h := hartAt s k
  if 4 ≤ rvF3 w then rvIllegal
  else rvStore s k (h.reg (rvRs1 w) + immS w) (2 ^ rvF3 w) (h.reg (rvRs2 w)).toNat (fun h => { h with pc := h.pc + w64 len })

/-- Conditional branches. -/
def rvBranch (s : State) (k len : Nat) (w : W32) : RvOut :=
  let h := hartAt s k
  let a := h.reg (rvRs1 w)
  let b := h.reg (rvRs2 w)
  let taken := match rvF3 w with
    | 0 => some (a == b)
    | 1 => some (a != b)
    | 4 => some (a.slt b)
    | 5 => some (!a.slt b)
    | 6 => some (a.ult b)
    | 7 => some (!a.ult b)
    | _ => none
  match taken with
  | none => rvIllegal
  | some true => .done (s.updHart k (fun h => { h with pc := h.pc + immB w }))
  | some false => rvDone s k len id

/-- Operations with an immediate, of 64 bits. -/
def rvOpImm (s : State) (k len : Nat) (w : W32) : RvOut :=
  let h := hartAt s k
  let f3 := rvF3 w
  let top := fieldNat w 26 6
  if (f3 = 1 && top != 0) || (f3 = 5 && top != 0 && top != 0x10) then rvIllegal
  else rvDone s k len (fun x => x.setReg (rvRd w)
    (rvAlu f3 (f3 == 5 && top == 0x10) (h.reg (rvRs1 w)) (immI w) (fieldNat w 20 6)))

/-- Operations with an immediate, of 32 bits. -/
def rvOpImm32 (s : State) (k len : Nat) (w : W32) : RvOut :=
  let h := hartAt s k
  let f3 := rvF3 w
  let ok := f3 = 0 || (f3 = 1 && rvF7 w = 0) || (f3 = 5 && (rvF7 w = 0 || rvF7 w = 0x20))
  if !ok then rvIllegal
  else rvDone s k len (fun x => x.setReg (rvRd w)
    ((rvAlu f3 (f3 == 5 && rvF7 w == 0x20) ((h.reg (rvRs1 w)).setWidth 32) ((immI w).setWidth 32) (fieldNat w 20 5)).signExtend 64))

/-- Register-register operations, of 64 bits. -/
def rvOp (s : State) (k len : Nat) (w : W32) : RvOut :=
  let h := hartAt s k
  let a := h.reg (rvRs1 w)
  let b := h.reg (rvRs2 w)
  let f3 := rvF3 w
  let put := fun (v : W64) => rvDone s k len (fun x => x.setReg (rvRd w) v)
  match rvF7 w with
  | 0x00 => put (rvAlu f3 false a b (b.toNat % 64))
  | 0x20 => if f3 = 0 || f3 = 5 then put (rvAlu f3 true a b (b.toNat % 64)) else rvIllegal
  | 0x01 => put (rvMulDiv f3 a b)
  | _ => rvIllegal

/-- Register-register operations, of 32 bits. -/
def rvOp32 (s : State) (k len : Nat) (w : W32) : RvOut :=
  let h := hartAt s k
  let a := (h.reg (rvRs1 w)).setWidth 32
  let b := (h.reg (rvRs2 w)).setWidth 32
  let f3 := rvF3 w
  let put := fun (v : W32) => rvDone s k len (fun x => x.setReg (rvRd w) (v.signExtend 64))
  match rvF7 w with
  | 0x00 => if f3 = 0 || f3 = 1 || f3 = 5 then put (rvAlu f3 false a b (b.toNat % 32)) else rvIllegal
  | 0x20 => if f3 = 0 || f3 = 5 then put (rvAlu f3 true a b (b.toNat % 32)) else rvIllegal
  | 0x01 => if f3 = 0 || 4 ≤ f3 then put (rvMulDiv f3 a b) else rvIllegal
  | _ => rvIllegal

/-- lr, sc and the atomic operations: of 4 or 8 bytes, which must be aligned. -/
def rvAtomic (s : State) (k len : Nat) (w : W32) : RvOut :=
  let h := hartAt s k
  let va := h.reg (rvRs1 w)
  let n := 2 ^ rvF3 w
  let f5 := fieldNat w 27 5
  let wide := rvF3 w == 3
  let signed := fun (v : Nat) => if wide then w64 v else (BitVec.ofNat 32 v).signExtend 64
  if rvF3 w ≠ 2 && rvF3 w ≠ 3 then rvIllegal
  else if f5 = 2 then
    if rvRs2 w ≠ 0 then rvIllegal
    else if va.toNat % n ≠ 0 then .trap 4 va
    else
      match h.places s.free 1 va n with
      | .error e => .trap 13 e
      | .ok l => rvDone s k len (fun x => { x.setReg (rvRd w) (signed (h.load s.free l)) with reserve := some (l.headD 0, n) })
  else if !([0x00, 0x01, 0x03, 0x04, 0x08, 0x0C, 0x10, 0x14, 0x18, 0x1C].contains f5) then rvIllegal
  else if va.toNat % n ≠ 0 then .trap 6 va
  else
    match h.places s.free 2 va n with
    | .error e => .trap 15 e
    | .ok l =>
      if f5 = 3 then
        if h.reserve = some (l.headD 0, n) then
          rvDone s k len (fun x => { (x.storeAll l (h.reg (rvRs2 w)).toNat).setReg (rvRd w) 0 with reserve := none })
        else rvDone s k len (fun x => { x.setReg (rvRd w) 1 with reserve := none })
      else
        let old := h.load s.free l
        let new := if wide then (rvAmo f5 (w64 old) (h.reg (rvRs2 w))).toNat
          else (rvAmo f5 (BitVec.ofNat 32 old) ((h.reg (rvRs2 w)).setWidth 32)).toNat
        rvDone s k len (fun x => (x.storeAll l new).setReg (rvRd w) (signed old))

/-- Loads and stores of the floating-point registers. -/
def rvFloatMemory (s : State) (k len : Nat) (w : W32) (store : Bool) : RvOut :=
  let h := hartAt s k
  let d := rvF3 w == 3
  let n := 2 ^ rvF3 w
  if h.fs = 0 || (rvF3 w ≠ 2 && rvF3 w ≠ 3) then rvIllegal
  else if store then
    rvStore s k (h.reg (rvRs1 w) + immS w) n ((mapGet 0 h.f (rvRs2 w).toNat).toNat) (fun x => { x with pc := x.pc + w64 len })
  else rvLoad s k (h.reg (rvRs1 w) + immI w) n (fun v => rvDone s k len (fun x => x.setFreg d (rvRd w) v))

/-- The rounding mode of an instruction, dynamic or its own; none where it is reserved. -/
def Hart.rounding (h : Hart) (w : W32) : Option Nat :=
  let rm := if rvF3 w = 7 then fieldNat (h.csr 0x003) 5 3 else rvF3 w
  if rm ≤ 4 then some rm else none

/-- The fused operations by opcode: fmadd, fmsub, fnmsub, fnmadd. -/
def rvMadd (s : State) (k len : Nat) (w : W32) : RvOut :=
  let h := hartAt s k
  let fmt := fieldNat w 25 2
  let d := fmt == 1
  let op := fieldNat w 2 2
  if h.fs = 0 || 2 ≤ fmt then rvIllegal
  else
    match h.rounding w with
    | none => rvIllegal
    | some rm =>
      let r := rvFused (rvFmt d) rm (2 ≤ op) (op == 1 || op == 3) (h.freg d (rvRs1 w)) (h.freg d (rvRs2 w)) (h.freg d (field w 27 5))
      rvDone s k len (fun x => (x.setFreg d (rvRd w) r.1).flags r.2)

/-- The other floating-point operations, by bits [6:2] of funct7. -/
def rvFloat (s : State) (k len : Nat) (w : W32) : RvOut :=
  let h := hartAt s k
  let fmt := rvF7 w % 4
  let d := fmt == 1
  let f := rvFmt d
  let a := h.freg d (rvRs1 w)
  let b := h.freg d (rvRs2 w)
  let t := (rvRs2 w).toNat
  let f3 := rvF3 w
  let rounded := fun (go : Nat → Nat × Nat) => match h.rounding w with
    | none => rvIllegal
    | some rm => rvDone s k len (fun x => (x.setFreg d (rvRd w) (go rm).1).flags (go rm).2)
  let toReg := fun (v : W64) (fl : Nat) => rvDone s k len (fun x => (x.setReg (rvRd w) v).flags fl)
  let plain := fun (c fl : Nat) => rvDone s k len (fun x => (x.setFreg d (rvRd w) c).flags fl)
  if h.fs = 0 || 2 ≤ fmt then rvIllegal
  else
    match rvF7 w / 4 with
    | 0 => rounded (fun rm => rvBinary f rm 0 a b)
    | 1 => rounded (fun rm => rvBinary f rm 1 a b)
    | 2 => rounded (fun rm => rvBinary f rm 2 a b)
    | 3 => rounded (fun rm => rvBinary f rm 3 a b)
    | 4 =>
      let sign := b / f.signBit
      let own := a / f.signBit
      if f3 = 0 then plain (a % f.signBit + sign * f.signBit) 0
      else if f3 = 1 then plain (a % f.signBit + (1 - sign) * f.signBit) 0
      else if f3 = 2 then plain (a % f.signBit + (own + sign) % 2 * f.signBit) 0
      else rvIllegal
    | 5 => if f3 ≤ 1 then plain (rvMinMax f (f3 == 1) a b).1 (rvMinMax f (f3 == 1) a b).2 else rvIllegal
    | 8 =>
      if t = (if d then 0 else 1) then
        let src := h.freg (!d) (rvRs1 w)
        rounded (fun rm =>
          let r := rvRound f rm ((rvFmt (!d)).decode src)
          (r.1, if isSnan (rvFmt (!d)) src then 16 else r.2))
      else rvIllegal
    | 11 => if t = 0 then rounded (fun rm => rvSqrt f rm a) else rvIllegal
    | 20 => if f3 ≤ 2 then toReg (rvCompare f f3 a b).1 (rvCompare f f3 a b).2 else rvIllegal
    | 24 =>
      if t < 4 then
        match h.rounding w with
        | none => rvIllegal
        | some rm =>
          let r := rvToInt (rvRange t).1 (rvRange t).2 rm (f.decode a)
          toReg (rvToReg t r.1) r.2
      else rvIllegal
    | 26 => if t < 4 then rounded (fun rm => rvRound f rm (Num.ofInt (rvFromReg t (h.reg (rvRs1 w))))) else rvIllegal
    | 28 =>
      if t ≠ 0 then rvIllegal
      else if f3 = 0 then
        let v := mapGet 0 h.f (rvRs1 w).toNat
        toReg (if d then v else (v.setWidth 32).signExtend 64) 0
      else if f3 = 1 then toReg (rvClass f a) 0
      else rvIllegal
    | 30 => if t = 0 && f3 = 0 then plain ((h.reg (rvRs1 w)).toNat) 0 else rvIllegal
    | _ => rvIllegal

/-- The CSR instructions: swap, set and clear, from a register or from an immediate. A form that writes nothing does not write. -/
def rvCsr (s : State) (k len : Nat) (w : W32) : RvOut :=
  let h := hartAt s k
  let a := fieldNat w 20 12
  let v := if rvF3 w < 4 then h.reg (rvRs1 w) else zext64 (rvRs1 w)
  let op := rvF3 w % 4
  let writes := op == 1 || rvRs1 w != 0
  match readCsr s k a with
  | none => rvIllegal
  | some old =>
    let new := if op = 1 then v else if op = 2 then old ||| v else old &&& ~~~v
    if !writes then rvDone s k len (fun x => x.setReg (rvRd w) old)
    else if a = 0x7C1 && swapsNow h new then .done (finishSwaps (s.updHart k Hart.swap))
    else
      match writeCsr s k a new with
      | none => rvIllegal
      | some t => rvDone t k len (fun x => x.setReg (rvRd w) old)

/-- ecall, ebreak, the returns, wfi and sfence.vma. -/
def rvSystem (s : State) (k len : Nat) (w : W32) : RvOut :=
  let h := hartAt s k
  let mode := h.mode.toNat
  if w = 0x00000073 then .trap (8 + mode) 0
  else if w = 0x00100073 then .trap 3 h.pc
  else if w = 0x30200073 then (if mode = 3 then .done (s.updHart k Hart.mret) else rvIllegal)
  else if w = 0x10200073 then (if mode = 0 || (mode = 1 && h.tsr) then rvIllegal else .done (s.updHart k Hart.sret))
  else if w = 0x10500073 then rvDone s k len id
  else if rvF7 w = 0x09 && rvRd w = 0 then (if mode = 0 || (mode = 1 && h.tvm) then rvIllegal else rvDone s k len id)
  else rvIllegal

/-- One instruction of 32 bits, which took `len` bytes of the program. -/
def rvExec (s : State) (k len : Nat) (w : W32) : RvOut :=
  let h := hartAt s k
  match rvOpcode w with
  | 0x03 => rvLoads s k len w
  | 0x07 => rvFloatMemory s k len w false
  | 0x0F => if rvF3 w ≤ 1 then rvDone s k len id else rvIllegal
  | 0x13 => rvOpImm s k len w
  | 0x17 => rvDone s k len (fun x => x.setReg (rvRd w) (h.pc + immU w))
  | 0x1B => rvOpImm32 s k len w
  | 0x23 => rvStores s k len w
  | 0x27 => rvFloatMemory s k len w true
  | 0x2F => rvAtomic s k len w
  | 0x33 => rvOp s k len w
  | 0x37 => rvDone s k len (fun x => x.setReg (rvRd w) (immU w))
  | 0x3B => rvOp32 s k len w
  | 0x43 => rvMadd s k len w
  | 0x47 => rvMadd s k len w
  | 0x4B => rvMadd s k len w
  | 0x4F => rvMadd s k len w
  | 0x53 => rvFloat s k len w
  | 0x63 => rvBranch s k len w
  | 0x67 =>
    if rvF3 w ≠ 0 then rvIllegal
    else .done (s.updHart k (fun x =>
      { x.setReg (rvRd w) (h.pc + w64 len) with pc := (h.reg (rvRs1 w) + immI w) &&& ~~~(1 : W64) }))
  | 0x6F => .done (s.updHart k (fun x => { x.setReg (rvRd w) (h.pc + w64 len) with pc := h.pc + immJ w }))
  | 0x73 => if rvF3 w = 0 then rvSystem s k len w else if rvF3 w = 4 then rvIllegal else rvCsr s k len w
  | _ => rvIllegal

-- Compressed instructions

/-- The words that a compressed instruction stands for, from their fields. -/
def encI (op f3 rd rs1 imm : Nat) : W32 := BitVec.ofNat 32 (op + rd * 2 ^ 7 + f3 * 2 ^ 12 + rs1 * 2 ^ 15 + imm % 4096 * 2 ^ 20)
def encR (op f3 f7 rd rs1 rs2 : Nat) : W32 :=
  BitVec.ofNat 32 (op + rd * 2 ^ 7 + f3 * 2 ^ 12 + rs1 * 2 ^ 15 + rs2 * 2 ^ 20 + f7 * 2 ^ 25)
def encS (op f3 rs1 rs2 imm : Nat) : W32 :=
  BitVec.ofNat 32 (op + imm % 32 * 2 ^ 7 + f3 * 2 ^ 12 + rs1 * 2 ^ 15 + rs2 * 2 ^ 20 + imm / 32 % 128 * 2 ^ 25)
def encB (f3 rs1 imm : Nat) : W32 :=
  BitVec.ofNat 32 (0x63 + imm / 2048 % 2 * 2 ^ 7 + imm / 2 % 16 * 2 ^ 8 + f3 * 2 ^ 12 + rs1 * 2 ^ 15 + imm / 32 % 64 * 2 ^ 25 +
    imm / 4096 % 2 * 2 ^ 31)
def encJ (imm : Nat) : W32 :=
  BitVec.ofNat 32 (0x6F + imm / 4096 % 256 * 2 ^ 12 + imm / 2048 % 2 * 2 ^ 20 + imm / 2 % 1024 * 2 ^ 21 + imm / 2 ^ 20 % 2 * 2 ^ 31)

/-- A number of n bits sign-extended to a width, as a number. -/
def sextNat (n width v : Nat) : Nat := if v / 2 ^ (n - 1) % 2 = 1 then v % 2 ^ n + (2 ^ width - 2 ^ n) else v % 2 ^ n

/-- The word that a compressed instruction stands for; none where it is illegal. -/
def expandC (c : BitVec 16) : Option W32 :=
  let b := fun (lo n : Nat) => fieldNat c lo n
  let rd := b 7 5
  let rs2 := b 2 5
  let rdq := 8 + b 2 3
  let rsq := 8 + b 7 3
  let imm6 := sextNat 6 12 (b 2 5 + b 12 1 * 32)
  let uw := b 6 1 * 4 + b 10 3 * 8 + b 5 1 * 64
  let ud := b 10 3 * 8 + b 5 2 * 64
  let jump := sextNat 12 21 (b 3 3 * 2 + b 11 1 * 16 + b 2 1 * 32 + b 7 1 * 64 + b 6 1 * 128 + b 9 2 * 256 + b 8 1 * 1024 + b 12 1 * 2048)
  let branch := sextNat 9 13 (b 3 2 * 2 + b 10 2 * 8 + b 2 1 * 32 + b 5 2 * 64 + b 12 1 * 256)
  match b 0 2, b 13 3 with
  | 0, 0 =>
    let imm := b 6 1 * 4 + b 5 1 * 8 + b 11 2 * 16 + b 7 4 * 64
    if imm = 0 then none else some (encI 0x13 0 rdq 2 imm)
  | 0, 1 => some (encI 0x07 3 rdq rsq ud)
  | 0, 2 => some (encI 0x03 2 rdq rsq uw)
  | 0, 3 => some (encI 0x03 3 rdq rsq ud)
  | 0, 5 => some (encS 0x27 3 rsq rdq ud)
  | 0, 6 => some (encS 0x23 2 rsq rdq uw)
  | 0, 7 => some (encS 0x23 3 rsq rdq ud)
  | 1, 0 => some (encI 0x13 0 rd rd imm6)
  | 1, 1 => if rd = 0 then none else some (encI 0x1B 0 rd rd imm6)
  | 1, 2 => some (encI 0x13 0 rd 0 imm6)
  | 1, 3 =>
    if imm6 = 0 then none
    else if rd = 2 then
      some (encI 0x13 0 2 2 (sextNat 10 12 (b 6 1 * 16 + b 2 1 * 32 + b 5 1 * 64 + b 3 2 * 128 + b 12 1 * 512)))
    else some (BitVec.ofNat 32 (0x37 + rd * 2 ^ 7 + sextNat 6 20 (b 2 5 + b 12 1 * 32) * 2 ^ 12))
  | 1, 4 =>
    match b 10 2 with
    | 0 => some (encI 0x13 5 rsq rsq (b 2 5 + b 12 1 * 32))
    | 1 => some (encI 0x13 5 rsq rsq (b 2 5 + b 12 1 * 32 + 0x400))
    | 2 => some (encI 0x13 7 rsq rsq imm6)
    | _ =>
      match b 12 1, b 5 2 with
      | 0, 0 => some (encR 0x33 0 0x20 rsq rsq rdq)
      | 0, 1 => some (encR 0x33 4 0 rsq rsq rdq)
      | 0, 2 => some (encR 0x33 6 0 rsq rsq rdq)
      | 0, _ => some (encR 0x33 7 0 rsq rsq rdq)
      | _, 0 => some (encR 0x3B 0 0x20 rsq rsq rdq)
      | _, 1 => some (encR 0x3B 0 0 rsq rsq rdq)
      | _, _ => none
  | 1, 5 => some (encJ jump)
  | 1, 6 => some (encB 0 rsq branch)
  | 1, 7 => some (encB 1 rsq branch)
  | 2, 0 => some (encI 0x13 1 rd rd (b 2 5 + b 12 1 * 32))
  | 2, 1 => some (encI 0x07 3 rd 2 (b 5 2 * 8 + b 12 1 * 32 + b 2 3 * 64))
  | 2, 2 => if rd = 0 then none else some (encI 0x03 2 rd 2 (b 4 3 * 4 + b 12 1 * 32 + b 2 2 * 64))
  | 2, 3 => if rd = 0 then none else some (encI 0x03 3 rd 2 (b 5 2 * 8 + b 12 1 * 32 + b 2 3 * 64))
  | 2, 4 =>
    if b 12 1 = 0 then
      if rs2 = 0 then (if rd = 0 then none else some (encI 0x67 0 0 rd 0)) else some (encR 0x33 0 0 rd 0 rs2)
    else if rs2 = 0 then (if rd = 0 then some 0x00100073 else some (encI 0x67 0 1 rd 0))
    else some (encR 0x33 0 0 rd rd rs2)
  | 2, 5 => some (encS 0x27 3 2 rs2 (b 10 3 * 8 + b 7 3 * 64))
  | 2, 6 => some (encS 0x23 2 2 rs2 (b 9 4 * 4 + b 7 2 * 64))
  | 2, 7 => some (encS 0x23 3 2 rs2 (b 10 3 * 8 + b 7 3 * 64))
  | _, _ => none

-- A core's next instruction

/-- What a core fetches: a word and the bytes it took, or the exception of the fetch. -/
inductive RvFetch where
  | fault (cause : Nat) (tval : W64)
  | word (w : W32)
  | short (c : BitVec 16)

/-- Two bytes of the program. -/
def Hart.parcel (h : Hart) (n : Nat) (va : W64) : Except (Nat × W64) (BitVec 16) :=
  match h.places n 0 va 2 with
  | .error e => .error (12, e)
  | .ok l => if l.any (fun a => decide (rvMemory ≤ a)) then .error (1, va) else .ok (BitVec.ofNat 16 (h.load n l))

/-- The fetch at the pc. -/
def Hart.fetch (h : Hart) (n : Nat) : RvFetch :=
  match h.parcel n h.pc with
  | .error e => .fault e.1 e.2
  | .ok c =>
    if c.toNat % 4 ≠ 3 then .short c
    else
      match h.parcel n (h.pc + 2) with
      | .error e => .fault e.1 e.2
      | .ok d => .word (d ++ c)

/-- What an instruction of core k does, as a state. -/
def rvCommit (s : State) (k : Nat) (r : RvOut) : State :=
  match r with
  | .trap cause tval => countRv s (s.updHart k (fun h => h.trap cause tval)) k false
  | .done t => countRv s t k true

end Sys2Proof.Machine
end

