-- ==== Sys2Proof/Machine/Schedule.lean ====
section
/-!
DEFINITION. Who moves: the passage of package time, one move of one agent, and the moves that the part may make of itself.
-/
namespace Sys2Proof.Machine

-- The passage of time

/-- The clock that a partition's cycle counters count: that of its lowest island (R419, R461). -/
def lowestIsland (s : State) (p : Nat) : Option Nat := (List.range 16).find? (fun i => (islandAt s i).part == some (BitVec.ofNat 4 p))

/-- Cycles of a clock of a rate from now on for a time, by the running count of its cycles. -/
def cyclesNext (s : State) (rate dt : Nat) : Nat := (s.pt + dt) * rate / 100 - s.pt * rate / 100

/-- Cycles of a core in a time, with the hundredths left over (counter 0 of R173). -/
def Core.tick (c : Core) (rate dt : Nat) : Core :=
  let f := c.cycleFrac + dt * rate
  { c with cycleFrac := f % 100, counters := mapSet 0 c.counters 0 (mapGet 0 c.counters 0 + w64 (f / 100)) }

/-- Cycles of a partition's cycle counters in a time: those of its lowest island, whose clock may stop (R419, R460). -/
def partCycles (s : State) (p dt : Nat) : Nat :=
  match lowestIsland s p with
  | none => 0
  | some i => cyclesNext s (pointRate (islandAt s i).point) (dt - stopTime s [i] dt)

/-- Cycles that the standing flag waits of a partition wait in a time, each at its agent's clock (R410, R419). -/
def waitCycles (s : State) (p dt : Nat) : Nat :=
  let cores := ((List.range 1024).filter (fun k => corePart s k == some (BitVec.ofNat 4 p))).map (fun k =>
    let n := (coreWaits s k).length
    if n = 0 then 0 else n * cyclesNext s (clockRate s k) (dt - stopTime s (plotIslands s k) dt))
  let blocks := (s.mcbs.filter (fun e => e.2.part.toNat == p)).map (fun e =>
    (taskWaits s e.1).length * cyclesNext s (clockRate s (e.2.plot.headD 0)) dt)
  let streams := (s.streams.filter (fun e => e.2.part.toNat == p)).map (fun e => if (streamWaitEntry s e.1 e.2).isSome then cyclesNext s 125 dt else 0)
  (cores ++ blocks ++ streams).sum

/-- Cycles are counted, and the watchdogs of bound contexts count (R407), while a clock stands still too (R460). -/
def countTime (s : State) (dt : Nat) : State :=
  let s := s.parts.foldl (fun s e =>
    if e.2.banks.isEmpty then s else (s.count e.1 0 (partCycles s e.1 dt)).count e.1 10 (waitCycles s e.1 dt)) s
  let s := s.cores.foldl (fun s e =>
    if e.2.bound.isSome then s.updCore e.1 (fun c => c.tick (clockRate s e.1) (dt - stopTime s (plotIslands s e.1) dt)) else s) s
  s.mcbs.foldl (fun s e =>
    if e.2.state == 3 || e.2.state == 4 then s.updInv e.1 (fun i => { i with wdt := i.wdt + dt }) else s) s

/-- Package time advances: by the next advance that the state lists, or by 1 ns (R186). Watchpoint settings that are due bind. -/
def tick (s : State) : State :=
  let dt := s.clock.headD 1
  bindWatches { countTime s dt with pt := s.pt + dt, clock := s.clock.tail }

-- Threads

/-- A code breakpoint at the pc of core k that has not stopped at it yet (R414, R415). -/
def breaksAt (s : State) (k : Nat) : Option Nat :=
  match (coreAt s k).bound with
  | none => none
  | some m =>
    let t := (coreAt s k).th
    if !(coreAt s k).bpPassed.contains t.pc && t.code.obj == t.codecap.obj &&
       (partAt s (mcbAt s m).part.toNat).bps.any (fun e => e.2.getLsbD 49 && !e.2.getLsbD 48 && fieldNat e.2 50 14 == m &&
         4 * fieldNat e.2 0 30 == t.pc.toNat)
    then some m else none

/-- Core k holds at a word whose wait surely goes on, so that it is not sent again. -/
def surelyHeld (s : State) (k : Nat) : Bool :=
  match (coreAt s k).hold with
  | none => false
  | some h => stillHeld s k h

/-- The word that core k holds at. -/
def heldWord (s : State) (k : Nat) : Option Instr := (coreAt s k).hold.bind Hold.word

/-- Core k fetches the word at its pc and runs it; a code breakpoint stops before it. -/
def fetchAndRun (k : Nat) (s : State) : Host.Outcome State Fault Refusal :=
  match breaksAt s k with
  | some m => .next (debugStop (s.updCore k (fun c => { c with bpPassed := c.th.pc :: c.bpPassed })) m)
  | none =>
    match fetchWord.run s with
    | .error e s1 => stopped s s1 none .exit e
    | .ok w s1 =>
      match decode w with
      | .ok i => exec i s1
      | .error _ => execIllegalInstruction w s1

/-- The thread of core k runs the word that it holds at, or the word at its pc, if it may run; a word that has been sent goes on whatever halts
the plot (R386). The stop record that a handler entry owes comes first (R389). -/
def moveThread (k : Nat) (s0 : State) : Host.Outcome State Fault Refusal :=
  let s := { s0 with turn := k }
  if !(threadRuns s k || confirmed s k) || surelyHeld s k then .next s
  else
    let s := handlerRecord s k
    if (coreAt s k).owed.isSome then .next s
    else
      match heldWord s k with
      | some i => exec i s
      | none => fetchAndRun k s

-- Command-processor cores

/-- Core h of the control complex runs one instruction (R442, R450): a zc instruction, or one of RISC-V's own. A pending interrupt that is enabled
is taken first, but for a zc.fence that is executing, which it ends (R444). -/
def moveHart (h : Nat) (s0 : State) : Host.Outcome State Fault Refusal :=
  let s := { s0 with hart := h }
  let x := hartAt s h
  if !x.running then .next s
  else
    match if x.fencing then none else x.interrupt with
    | some c => .next (s.updHart h (fun y => y.take true c 0))
    | none =>
      match x.fetch s.free with
      | .fault cause tval => .next (rvCommit s h (.trap cause tval))
      | .short c => .next (rvCommit s h (match expandC c with | none => rvIllegal | some w => rvExec s h 2 w))
      | .word w =>
        match decodeZc w with
        | some i => exec i s
        | none => .next (rvCommit s h (rvExec s h 4 w))

-- The moves of the part itself

/-- A write on its way as the write itself, wherever its walks have led it. -/
def Flight.same (f g : Flight) : Bool := f.who.agent == g.who.agent && f.cap == g.cap && f.off == g.off && f.since == g.since

/-- The place in region 30 of a write that core k had on its way when it was saved. -/
def flightEntry (c : Core) (f : Flight) : Nat :=
  parkedEntries c + (if c.hold.any (fun h => h.kind == .answer) then 1 else 0) + c.flight.findIdx f.same

/-- The first write of core k on its way that can land lands; where its context is SUSPENDED, its entry in the image is answered (R396, R397). -/
def landWrites (k : Nat) (s : State) : Host.Outcome State Fault Refusal :=
  let t := landFirst s k (coreAt s k).flight.length
  let landed := (coreAt s k).flight.filter (fun f => !(coreAt t k).flight.any f.same)
  .next (landed.foldl (fun t f =>
    match s.mcbs.find? (fun e => e.2.inv.any (fun i => i.serial == f.serial)) with
    | none => t
    | some e => answerImage t e.1 k (flightEntry ((inImage s e.1 k).getD (coreAt s k)) f)) t)

/-- What was held at a port jth arrives, where nothing holds it any more (R438, R457). -/
def releaseInbound (j : Nat) (s : State) : Host.Outcome State Fault Refusal :=
  let before := { s with inbound := s.inbound.take j }
  match s.inbound[j]? with
  | none => .next s
  | some i =>
    match (match i with
      | .send x data => execRoceSendReceive x data before
      | .rdma q => execRoceInboundRdma q before
      | .host sp addr data => execHostInboundWrite sp addr data before
      | .nepol q => execNepolInboundAccess q before) with
    | .next t => .next (if j < t.inbound.length then s else { t with inbound := t.inbound ++ s.inbound.drop (j + 1) })
    | o => o

/-- A move that changes the state and always goes on. -/
def plain (f : State → State) (s : State) : Host.Outcome State Fault Refusal := .next (f s)

/-- The moves of core k. -/
def coreMoves (s : State) (k : Nat) : List (State → Host.Outcome State Fault Refusal) :=
  let started := fun (e : BitVec 2) => List.range (Max.max 1 ((startedCmds s k e).length))
  [moveThread k, execMmaSegmentRetire k, execTaskComplete k, execParkedAccessReplay k, execXtlbEntryExpiry k,
   execHeldFormWithdrawal k, execFeWaitSatisfied k, execBarWaitCompletion k, execQueuePortStallEnd k, execLwaitEnd k,
   execEqFenceEnd k, execFenceComplete k, execGenPassWaitEnd k, execOmClaimWaitEnd k, execExitDrainEnd k,
   execNepolPathTimeout k, execCompletionTimeout k, landWrites k,
   plain (fun s => landStrike s k), plain (fun s => endDrain s k), taskAhead k, answerNow k] ++
  [0, 1, 2, 3].flatMap (fun e =>
    [execEngineCommandStart k e, execDecoderTableInitLoad k e] ++
    (started e).flatMap (fun n => [execEngineCommandComplete k e n .none, execLeaseRenewal k e n]))

/-- The moves of block m's context. -/
def blockMoves (m : Nat) : List (State → Host.Outcome State Fault Refusal) :=
  [execTaskWaitRecheck m, execTaskIssue m, execBindAndRegisterPreload m, execRestoreSaveImage m, execFirstFetch m,
   execInvocationRetirement m, execHaltRelease m, execKillComplete m, execPreemptLandComplete m, execSaveComplete m,
   execT1Expiry m, execT2Expiry m, execT3Expiry m, plain (fun s => sowerReplay s m)]

/-- The moves of partition p. -/
def partMoves (p : Nat) : List (State → Host.Outcome State Fault Refusal) :=
  [execFreePlotSearch p, execSampleTick p, execScrubComplete (BitVec.ofNat 4 p), execSproutJobStart p 0, execSproutJobStart p 1]

/-- The moves of a Sprout job: a page whose source the part reads itself, and its end. -/
def jobMoves (j : Nat × SproutJob) : List (State → Host.Outcome State Fault Refusal) :=
  (if jobKind j.2.desc = 1 then [] else [execSproutPageArrival j.1 []]) ++ [execSproutJobEnd j.1 false]

/-- The moves of what is on its way: increments to their extent entries (R379), and reductions through the switches (R232). -/
def transitMoves (s : State) : List (State → Host.Outcome State Fault Refusal) :=
  (List.range s.counts.length).map (fun n => plain (fun s => performCount s n)) ++
  (List.range s.switch.length).flatMap (fun i => [plain (fun s => mergeSwitch s i), plain (fun s => deliverSwitch s i)])

/-- Every move that the part may make of itself, in the order in which they are looked at. -/
def ownMoves (s : State) : List (State → Host.Outcome State Fault Refusal) :=
  [execSowerAcceptMessage, execGcmHeaderCheck, execMcbLookup, execBitmapSwitchComplete, execCheckpointStreamsWritten,
   execBeaconTimeout] ++
  (List.range s.waiting.length).map execRevokeWaitEnd ++ (List.range s.inbound.length).map releaseInbound ++
  s.cores.flatMap (fun e => coreMoves s e.1) ++ s.mcbs.flatMap (fun e => blockMoves e.1) ++
  s.parts.flatMap (fun e => partMoves e.1) ++ s.streams.map (fun e => streamStep e.1) ++ s.ifcs.map (fun e => commandStep e.1) ++
  s.jobs.flatMap jobMoves ++ s.harts.flatMap (fun e => [moveHart e.1, execCpHeartbeatTimeout e.1]) ++ transitMoves s ++
  s.ports.map (fun e => plain (fun s => releaseTx s e.1))

/-- The nth of those moves, in rotation. -/
def ownMove (n : Nat) (s : State) : Host.Outcome State Fault Refusal :=
  match (ownMoves s)[n % (ownMoves s).length]? with
  | some f => f s
  | none => .next s

/-- One move of one agent. -/
def move (a : Act) (s : State) : Host.Outcome State Fault Refusal :=
  match a with
  | .thread k => moveThread k s
  | .event i => exec i s
  | .due n => ownMove n s
  | .stream n => streamStep n s
  | .command i => commandStep i s
  | .hart h => moveHart h s
  | .powerLoss choice => .next (losePower choice s)

end Sys2Proof.Machine
end

