-- ==== Sys2Proof/Machine/Boot.lean ====
section
/-!
DEFINITION. Placing an instruction where the next step fetches. A program reaches the part from outside, by INSTALL and an invocation
message; where no thread can run, this stands for that load and gives core `turn` a bound block with one page of code.
-/
namespace Sys2Proof.Machine

/-- A queue entry of no message (R90). -/
def emptyEntry : QEntry := ⟨0, none, 0, EdgeSet.none, none, 0⟩

/-- A block whose one core is k, bound and running. Its object table begins at GSRAM address 0. -/
def bootBlock (k : Nat) : Mcb :=
  let b := { Mcb.zero with v := true, state := 3, objtab := mkCap 0 0 permLD 0 0 4096 0 }
  { b with inv := some { newInv b emptyEntry (coreX k) (coreY k) with stage := .running } }

/-- A core whose thread starts at word 0 of object 1. -/
def bootCore (m : Nat) : Core :=
  { Core.reset with bound := some m, th := { Thread.reset with codecap := mkCap 1 0 permEXEC 0 0 4096 0 } }

/-- Object 1 as R183 and R184 describe it: one page of GSRAM at 0x20000, its extent map at 0x10000. -/
def bootDir : BitVec 256 := BitVec.ofNat 256 (2 ^ 7 + 2 ^ 128 + 0x10000 * 2 ^ 160)
def bootExtent : W64 := w64 (2 * 2 ^ 8 + 1)

/-- Core `turn` with a block, and a word at its pc. -/
def bootThread (s : State) (w : W32) : State :=
  let k := s.turn % 1024
  let m := (coreAt s k).bound.getD 0
  let s := (((s.setMcb m (bootBlock k)).setCore k (bootCore m)).updIsland (islandOf k) (fun i => { i with xtlb2 := [] }))
  let s := putBytes s none (physKey 0 0 32) (leBytes 32 bootDir.toNat)
  let s := putBytes s none (physKey 0 0 0x10000) (leBytes 8 bootExtent.toNat)
  let s := putBytes s none (physKey 0 0 0x20000) (leBytes 4 w.toNat)
  { s with
    rdy := s.rdy ||| (1#64 <<< 18), controllersRefuse := s.controllersRefuse.filter (fun a => a != .gsramController 0)
    bad := [0, 1024, 2048].foldl (fun b a => mapErase b (physKey 0 0 (64 * a) / 64)) s.bad
    turn := k, agenda := .thread k :: s.agenda }

/-- Where the thread of core `turn` fetches next, if it can. -/
def fetchPlace : M Res := do
  let t ← thread
  let c := t.code
  let pc := t.pc.toNat
  if pc % 4 ≠ 0 then raise 0 5 pc
  let a ← checkCap c permEXEC pc 4
  let w := whoThread (← get) (← self)
  let r ← resolve w c.obj c.sp a { write := false }
  checkLines a r 4
  return r

/-- The word at the pc of core `turn`, which runs, replaced; or a block and a word for it. -/
def placeThread (s : State) (w : W32) : State :=
  if threadRuns s s.turn && (coreAt s s.turn).hold.isNone && (coreAt s s.turn).owed.isNone && (breaksAt s s.turn).isNone then
    match fetchPlace.run s with
    | .ok r _ =>
      let c := (coreAt s s.turn).th.code
      let t := putBytes s (tweakOf s ((coreAt s s.turn).bound.getD 0) r.dir c.obj (coreAt s s.turn).th.pc.toNat) r.key (leBytes 4 w.toNat)
      { t with agenda := .thread s.turn :: s.agenda }
    | .error _ _ => bootThread s w
  else bootThread s w

/-- A command-processor core that can fetch no word at its pc, made to fetch from the start of its memory. -/
def bootRv (h : Hart) : Hart :=
  { h with
    running := true, fencing := false, irq := false, mode := 3, pc := 0, csrs := mapErase h.csrs 0x304 }

/-- The places of the word at a core's pc, where it runs and can fetch it. -/
def rvFetchPlaces (h : Hart) (n : Nat) : Option (List Nat) :=
  if !h.running || (!h.fencing && h.interrupt.isSome) then none
  else
    match h.places n 0 h.pc 4 with
    | .ok l => if l.all (fun a => decide (a < rvMemory)) then some l else none
    | .error _ => none

/-- A word at the pc of core `hart`, which runs. -/
def placeHart (s : State) (w : W32) : State :=
  let put := match rvFetchPlaces (hartAt s s.hart) s.free with
    | some l => fun (h : Hart) => h.storeAll l w.toNat
    | none => fun (h : Hart) => (bootRv h).storeAll [0, 1, 2, 3] w.toNat
  { s.updHart s.hart put with agenda := .hart s.hart :: s.agenda }

/-- A word of the opcode table, where the next step fetches it: a zc word for a command-processor core, and the others for a core
thread. -/
def placeWord (s : State) (w : W32) : State :=
  if w ≠ 0x0000000B ∧ (decodeZc w).isSome then placeHart s w else placeThread s w

end Sys2Proof.Machine
end

