-- ==== Sys2Proof/Machine/Step.lean ====
section
/-!
DEFINITION. One step of the part.
-/
namespace Sys2Proof.Machine

/-- One step: package time advances, and the agent that the state names moves; where it names none, the part's own moves
take turns. -/
def step (s : State) : Host.Outcome State Fault Refusal :=
  match s.agenda with
  | a :: rest => move a (tick { s with agenda := rest })
  | [] => move (.due s.rr) (tick { s with rr := s.rr + 1 })

/-- The state with an instruction where the next step fetches it. Every instruction word has 32 bits. -/
def State.withFetchWord (s : State) (_nbits w : Nat) : State := placeWord s (BitVec.ofNat 32 w)

end Sys2Proof.Machine
end

