-- ==== Sys2Proof/Safety.lean ====
section
/-!
DEFINITION. What a safe step is, and the terms in which the statements speak of operands, of a completed word, and of what
a step leaves unchanged.
-/
namespace Sys2Proof.Machine

/-- The three outcomes of a step of this machine. -/
abbrev Out := Host.Outcome State Fault Refusal

/-- The state that an outcome goes on to, if it goes on. -/
def nextOf (o : Out) : Option State :=
  match o with
  | .next t => some t
  | _ => none

/-- The thread on which a word runs. -/
def theThread (s : State) : Thread := (coreAt s s.turn).th

/-- Scalar operand `a` gives `x` in `s`, and leaves `s1`: a register leaves the state alone, a port is popped (R16). -/
def reads (a : BitVec 6) (s : State) (x : W64) (s1 : State) : Prop := (readS a).run s = .ok x s1

/-- `v` goes to scalar operand `d` in `s`, which leaves `t`: a register is written, a port takes a word (R16). -/
def writes (d : BitVec 6) (v : W64) (s t : State) : Prop := (writeS d v).run s = .ok () t

/-- The port that a result goes to had room, and was no misuse, as the word began in `s` (R17); a register always has room. -/
def roomIn (s : State) (d : BitVec 6) : Prop := ∀ u, (roomFor s d).run u = .ok () u

/-- The state with registers of the thread changed. -/
def onThread (s : State) (f : Thread → Thread) : State := s.updCore s.turn (fun c => { c with th := f c.th })

/-- A word that started in `s` and whose own effects led to `t` is complete: a wait that it held is over, it counts as issued unless it
held already, counter 1 counts it, and the pc follows its flow. -/
def wordEnd (s t : State) (access : Bool) (f : Flow) : State :=
  completeWord (countIssue s (endHold s t s.turn 0) s.turn access) s.turn f

/-- A word that started in `s` and stopped for `e` in `u`: it faults with nothing left of it but its issue, or holds; it counts as issued unless it
stalls, is illegal or has been counted (R17, R36, R173). -/
def halts (access : Bool) (s u : State) (i : Instr) (e : Stop) : Out := stopped s u (some access) i e

/-- The word `i`, which starts in `s` and whose effects but for its result led to `u`, completes with `v` in scalar operand `d`: in a register
always, and through a port where the port has room as the word begins, and takes it. -/
def yields (s u : State) (i : Instr) (access : Bool) (d : BitVec 6) (v : W64) : Prop :=
  (d.toNat < 56 → exec i s = .next (wordEnd s (onThread u (fun t => t.setS d.toNat v)) access .seq)) ∧
  ∀ t, roomIn s d → writes d v u t → exec i s = .next (wordEnd s t access .seq)

/-- The step of a state's machine that a computation takes, where it goes through. -/
def does {α : Type} (m : M α) (s : State) (x : α) (t : State) : Prop := m.run s = .ok x t

/-- Every byte of memory reads in `t` as in `s`. -/
def sameMemory (s t : State) : Prop := ∀ k, memByte t.mem k = memByte s.mem k

-- Accesses

/-- A capability that admits an access of n bytes at an offset with given rights (R177, R180, R181, R182, R209). -/
def admits (c : Cap) (need : BitVec 12) (ea : Int) (n : Nat) : Prop :=
  c.tag = true ∧ c.ver = 1 ∧ 0 ≤ ea ∧ ea < 2 ^ 40 ∧ (c.lo : Int) ≤ ea ∧ ea + n ≤ c.hi ∧ c.perm &&& need = need ∧ c.sp ≤ 6

/-- The running thread as an accessing agent. -/
def whoNow (s : State) : Who := whoThread s s.turn

/-- Nothing refuses an access of n bytes at a resolved place: its lines check, no watchpoint matches, and no far side denies it. -/
def unhindered (s : State) (w : Who) (kind : WatchKind) (p : Nat × Nat × Res) : Prop :=
  (∀ l ∈ linesOf p.2.2.key p.2.1, mapFind s.bad l = none) ∧
  watchFind s (mcbAt s w.mcb).part.toNat w kind p.1 p.2.2.key p.2.1 = none ∧
  ∀ d ∈ s.hostDeny, overlaps d.1 d.2 p.2.2.key p.2.1 = false

/-- The far side of a place answers now (R434, R449). -/
def farAnswers (s : State) (p : Nat × Nat × Res) : Prop := silent s p.2.2.key p.2.1 = false

/-- No line of a place breaks the race rule for an agent (R369). -/
def raceFree (s : State) (w : Who) (p : Nat × Nat × Res) : Prop := raceLine s w p.2.2.key p.2.1 = none

/-- A write of the running core that has not performed touches n bytes of an object: in the hoard log, on its way, or in the fabric (R116, R200). -/
def pendingWrite (s : State) (obj a n : Nat) : Bool := hoardOverlaps s s.turn ((coreAt s s.turn).bound.getD 0) obj a n

/-- No earlier write of the running core stands before its access of n bytes: none that has not performed touches them, and for
HOST none of the part is on its way there (R200, R374, R382). -/
def notBehind (s : State) (c : Cap) (a n : Nat) : Prop :=
  pendingWrite s c.obj a n = false ∧ (c.sp = 2 → ∀ e ∈ s.cores, ∀ f ∈ e.2.flight, f.place.sp ≠ 2)

/-- No write of any core is on its way to n bytes at a place that a far side serves (R233, R376). -/
def noFlights (s : State) (r : Res) (n : Nat) : Prop :=
  2 ≤ r.sp → ∀ e ∈ s.cores, ∀ f ∈ e.2.flight, overlaps f.place.key f.data.length r.key n = false

/-- Every earlier write of the running core in the part's own memory has performed, and no match of one is still to be reported: what
a release needs (R116, R200, R423). -/
def drained (s : State) : Prop := logDrained s s.turn = true ∧ (coreAt s s.turn).struck = none

/-- A store into an object table needs SYS (R181, R214). -/
def sysWhereNeeded (s : State) (c : Cap) : Prop :=
  c.sp = 0 → namesTable s (whoNow s).mcb c.obj = true → c.perm &&& permSYS = permSYS

/-- The pieces of a load of n bytes that the running core has not read yet (R211). -/
def leftToRead (s : State) (c : Cap) (a n : Nat) : List (Nat × Nat) :=
  (atomPieces c.sp (atomFuel n) a n).filter (fun p => decide (a + (loadGot s s.turn).1.length ≤ p.1))

/-- The running thread can read one piece: it resolves to `r`, no write is on its way there, nothing refuses it, its far side answers, and it breaks
no race rule. -/
def readable (s : State) (c : Cap) (off n : Nat) (r : Res) (s1 : State) : Prop :=
  does (resolve (whoNow s) c.obj c.sp off { write := false }) s r s1 ∧ noFlights s1 r n ∧
  unhindered s1 (whoNow s) .read (off, n, r) ∧ farAnswers s1 (off, n, r) ∧ raceFree s1 (whoNow s) (off, n, r)

/-- The bytes at a resolved place, as block m's key slot shows them. -/
def bytesAt (s : State) (m : Nat) (c : Cap) (off n : Nat) (r : Res) : List Byte := viewBytes s (tweakOf s m r.dir c.obj off) r.key n

/-- The running thread can store n bytes at an offset: its pieces `ps` resolve, and nothing refuses one or breaks the race rule (R211, R214). -/
def writable (s : State) (c : Cap) (a n : Nat) (ps : List (Nat × Nat × Res)) (s1 : State) : Prop :=
  pendingWrite s c.obj a n = false ∧ behindHost s (whoNow s) c.sp = false ∧ sysWhereNeeded s c ∧
  does (resolveStore (whoNow s) c.obj c.sp { write := true } (atomPieces c.sp (atomFuel n) a n)) s ps s1 ∧
  ∀ p ∈ ps, unhindered s1 (whoNow s) .write p ∧ raceFree s1 (whoNow s) p

/-- One place that a form of one granule or word reaches, with no earlier write of the core before it and no report on its way. -/
def reaches (s : State) (c : Cap) (a n : Nat) (write : Bool) (r : Res) (s1 : State) : Prop :=
  pendingWrite s c.obj a n = false ∧ (coreAt s s.turn).struck = none ∧
  does (resolve (whoNow s) c.obj c.sp a { write := write }) s r s1 ∧ unhindered s1 (whoNow s) .sync (a, n, r)

/-- The memory after a write at one place differs from the memory before in the n written bytes alone: where no dirty bitmap is configured, and
each written unit is under the tweak of its writer. -/
def onlyWrote (s u : State) (c : Cap) (off n : Nat) (r : Res) : Prop :=
  s.dirtyAt = none →
  (∀ l ∈ linesOf r.key n, keySpace r.key = 0 ∨
    unitTag s l = (tweakOf s (whoNow s).mcb r.dir c.obj off).map (fun t => (t.1, t.2.1, t.2.2 + (l - r.key / 64)))) →
  ∀ k, (k < r.key ∨ r.key + n ≤ k) → memByte u.mem k = memByte s.mem k

/-- The running core has sent pieces of a store on their way, in order, each with its bytes (R211, R212). -/
def sent (s u : State) (a : Nat) (bs : List Byte) (ps : List (Nat × Nat × Res)) : Prop :=
  ∃ fs, (coreAt u s.turn).flight = (coreAt s s.turn).flight ++ fs ∧
    fs.map (fun f => (f.off, f.place, f.data)) = ps.map (fun p => (p.1, p.2.2, (bs.drop (p.1 - a)).take p.2.1))

-- Engine words

/-- The queue of an engine has room for one more command (R122). -/
def room (s : State) (e : BitVec 2) : Prop :=
  ((coreAt s s.turn).cmds.filter (fun x => x.eng == e && !x.started)).length < 32

/-- A capability that an engine command takes as an operand: tagged, with ENG and the rights needed, in a given space (R122). -/
def operand (c : Cap) (need : BitVec 12) (sps : List Nat) : Prop :=
  c.tag = true ∧ c.ver = 1 ∧ c.perm &&& (need ||| permENG) = need ||| permENG ∧ c.sp ∈ sps

/-- An engine word that starts in `s`, and the reading of whose scalars led to `s1`, faults on a capability operand: SUB 0 without its tag, SUB 2
without ENG or a right, SUB 3 in a space that it does not take (R122, R131). -/
def refuses (s s1 : State) (z : BitVec 1) (i : Instr) (c : Cap) (need : BitVec 12) (sps : List Nat) : Prop :=
  let faults := fun sub => exec i s = halts (z == 1) s s1 i (.fault { cls := 0, sub := sub, addr := BitVec.ofNat 64 c.cur })
  let valid := c.tag = true ∧ c.ver = 1
  let rights := c.perm &&& (need ||| permENG) = need ||| permENG
  (¬ valid → faults 0) ∧ (valid → ¬ rights → faults 2) ∧ (valid → rights → c.sp ∉ sps → faults 3)

/-- The running thread has dispatched a command: it stands last in the core's unfinished commands, not started, with the
engine's next SEQ, its captured operands and the address of its word. Registers, memory and every other core stay, and the
thread's region is closed. -/
def queued (s u : State) (e : BitVec 2) (i : Instr) (args : List W64) (caps : List Cap) (fmts : List W64) : Prop :=
  (∃ x, (coreAt u s.turn).cmds = (coreAt s s.turn).cmds ++ [x] ∧ x.eng = e ∧ x.ins = i ∧ x.ord = (coreAt s s.turn).nextOrd ∧
    x.seq = (coreAt s s.turn).seq e ∧ x.pc = (theThread s).pc ∧ x.args = args ∧ x.caps = caps ∧ x.fmts = fmts ∧
    x.started = false ∧ x.step = 0) ∧
  (coreAt u s.turn).nextOrd = (coreAt s s.turn).nextOrd + 1 ∧ (coreAt u s.turn).seq e = (coreAt s s.turn).seq e + 1 ∧
  (∀ f, f ≠ e → (coreAt u s.turn).seq f = (coreAt s s.turn).seq f) ∧ theThread u = theThread s ∧ u.mem = s.mem ∧ u.fe = s.fe ∧
  (coreAt u s.turn).vec = (coreAt s s.turn).vec ∧ (coreAt u s.turn).mat = (coreAt s s.turn).mat ∧
  (coreAt u s.turn).region = (coreAt s s.turn).region + 1 ∧ ∀ k, k ≠ s.turn → coreAt u k = coreAt s k

/-- An engine word that starts in `s` completes: its command is dispatched with these captured operands, whose reading led to `s1`. -/
def dispatches (s s1 : State) (z : BitVec 1) (e : BitVec 2) (i : Instr) (args : List W64) (caps : List Cap) (fmts : List W64) : Prop :=
  ∃ u, exec i s = .next (wordEnd s u (z == 1) .seq) ∧ queued s1 u e i args caps fmts

-- Commands

/-- An issuer may issue commands that name a partition (R428, R431). -/
def allowed (s : State) (iss : Issuer) (part : BitVec 4) : Prop := accepts s iss = true ∧ mayName s iss part = true

/-- The completions that an issuer has received (R430). -/
def completionsOf (s : State) (iss : Issuer) : List (W32 × Byte × W64) :=
  match iss.ifc with
  | none => s.pfCompletions
  | some i => (ifcAt s i).completions

/-- A command completes with a status and a result: its issuer receives them with its tag. -/
def completes (s t : State) (iss : Issuer) (status : Byte) (result : W64) : Prop :=
  completionsOf t iss = completionsOf s iss ++ [(iss.tag, status, result)]

/-- No partition has a wait ring with room for an entry, and no interface has rings in host memory: no record of a wait, a fault or a kill goes
to memory (R410, R433). -/
def Ringless (s : State) : Prop := ∀ p, (partAt s p).waitRing.2 < 32 ∧ ringIfcs s p = []

end Sys2Proof.Machine
end

