-- ==== Sys2Proof/Certificates/Slice0/Obligations.lean ====
section
/-!
DEFINITION. The statements for the provers.
-/
section
open Sys2Proof Sys2Proof.Machine

/-- The integer register forms. Each of the 23 forms of major 0x00 is encoded with its fn of R27, reads sa, then sb,
writes f(a, b) to sd with f from the table of R136, and completes: for every pair of values, with registers and queue
ports alike as operands. Where the port of the result is full as the word begins, before its own pops, the word waits
instead. The word 0x0024A2CC is mulhu s9, s10, s11. -/
def Obligations.BinaryIntegerResults : Prop :=
  (∀ p ∈ ([(0, .add, fun x y => x + y), (1, .sub, fun x y => x - y), (2, .and, fun x y => x &&& y), (3, .or, fun x y => x ||| y),
      (4, .xor, fun x y => x ^^^ y), (5, .andn, fun x y => x &&& ~~~y), (6, .sll, fun x y => x <<< (y.toNat % 64)),
      (7, .srl, fun x y => x >>> (y.toNat % 64)), (8, .sra, fun x y => BitVec.ofInt 64 (x.toInt / 2 ^ (y.toNat % 64))),
      (9, .rol, fun x y => x <<< (y.toNat % 64) ||| x >>> (64 - y.toNat % 64)),
      (10, .mul, fun x y => BitVec.ofNat 64 (x.toNat * y.toNat)),
      (11, .mulh, fun x y => BitVec.ofInt 64 (x.toInt * y.toInt / 2 ^ 64)),
      (12, .mulhu, fun x y => BitVec.ofNat 64 (x.toNat * y.toNat / 2 ^ 64)),
      (13, .div, fun x y => if y = 0 then -1 else BitVec.ofInt 64 (x.toInt.tdiv y.toInt)),
      (14, .divu, fun x y => if y = 0 then BitVec.ofNat 64 (2 ^ 64 - 1) else BitVec.ofNat 64 (x.toNat / y.toNat)),
      (15, .rem, fun x y => if y = 0 then x else BitVec.ofInt 64 (x.toInt - y.toInt * x.toInt.tdiv y.toInt)),
      (16, .remu, fun x y => if y = 0 then x else BitVec.ofNat 64 (x.toNat % y.toNat)),
      (17, .min, fun x y => BitVec.ofInt 64 (Min.min x.toInt y.toInt)),
      (18, .max, fun x y => BitVec.ofInt 64 (Max.max x.toInt y.toInt)),
      (19, .minu, fun x y => BitVec.ofNat 64 (Min.min x.toNat y.toNat)),
      (20, .maxu, fun x y => BitVec.ofNat 64 (Max.max x.toNat y.toNat)),
      (21, .slt, fun x y => if x.toInt < y.toInt then 1 else 0), (22, .sltu, fun x y => if x.toNat < y.toNat then 1 else 0)] :
      List (Nat × (BitVec 1 → BitVec 6 → BitVec 6 → BitVec 6 → Instr) × (W64 → W64 → W64))),
    ∀ z d a b, decode (BitVec.ofNat 32 (z.toNat * 2 ^ 30 + d.toNat * 2 ^ 18 + a.toNat * 2 ^ 12 + b.toNat * 2 ^ 6 + p.1)) =
        .ok (p.2.1 z d a b) ∧
      ∀ s x y s1 s2, reads a s x s1 → reads b s1 y s2 →
        (∀ t, roomIn s d → writes d (p.2.2 x y) s2 t → exec (p.2.1 z d a b) s = .next (wordEnd s t (z == 1) .seq)) ∧
        ∀ h, (roomFor s d).run s2 = .error (.wait h) s2 → exec (p.2.1 z d a b) s = halts (z == 1) s s2 (p.2.1 z d a b) (.wait h)) ∧
  decode 0x0024A2CC = .ok (.mulhu 0 9 10 11)

/-- The immediate forms, lui and the bit instructions. addi, andi, ori, xori, slti and sltiu use the sign-extended
immediate and slli, srli and srai shift by it: each is encoded with its major of R137, reads sa, writes g(a, i) to sd,
and completes. A shift word with imm12[11:6] other than zero is no instruction. The word 0x0C0C3004 is slli s3, s3, 4.
lui writes the sign-extended immediate times 4,096. clz, ctz, popc, bswap, sext and zext read sa and write what R139
and R140 say, and complete; each is encoded as its rule says, and rb = 3 to 63 of sext and zext is a reserved value.
Counts of leading and trailing zeros are given by the greatest and the least set bit, and 64 for 0; popc by the list
of set bits; bswap byte by byte; sext and zext bit by bit. -/
def Obligations.ImmediateResults : Prop :=
  (∀ p ∈ ([(0x08, .addi, fun x y => x + y), (0x09, .andi, fun x y => x &&& y), (0x0A, .ori, fun x y => x ||| y),
      (0x0B, .xori, fun x y => x ^^^ y), (0x0F, .slti, fun x y => if x.toInt < y.toInt then 1 else 0),
      (0x10, .sltiu, fun x y => if x.toNat < y.toNat then 1 else 0)] :
      List (Nat × (BitVec 1 → BitVec 6 → BitVec 6 → BitVec 12 → Instr) × (W64 → W64 → W64))),
    ∀ z d a i, decode (BitVec.ofNat 32 (z.toNat * 2 ^ 30 + p.1 * 2 ^ 24 + d.toNat * 2 ^ 18 + a.toNat * 2 ^ 12 + i.toNat)) =
        .ok (p.2.1 z d a i) ∧
      ∀ s x s1 t, reads a s x s1 → roomIn s d → writes d (p.2.2 x (i.signExtend 64)) s1 t →
        exec (p.2.1 z d a i) s = .next (wordEnd s t (z == 1) .seq)) ∧
  (∀ p ∈ ([(0x0C, .slli, fun x n => x <<< n), (0x0D, .srli, fun x n => x >>> n),
      (0x0E, .srai, fun x n => BitVec.ofInt 64 (x.toInt / 2 ^ n))] :
      List (Nat × (BitVec 1 → BitVec 6 → BitVec 6 → BitVec 6 → Instr) × (W64 → Nat → W64))),
    ∀ z d a (n : BitVec 12),
      (∀ i : BitVec 6, n.toNat = i.toNat →
        decode (BitVec.ofNat 32 (z.toNat * 2 ^ 30 + p.1 * 2 ^ 24 + d.toNat * 2 ^ 18 + a.toNat * 2 ^ 12 + n.toNat)) =
          .ok (p.2.1 z d a i) ∧
        ∀ s x s1 t, reads a s x s1 → roomIn s d → writes d (p.2.2 x i.toNat) s1 t →
          exec (p.2.1 z d a i) s = .next (wordEnd s t (z == 1) .seq)) ∧
      (64 ≤ n.toNat → ∃ e,
        decode (BitVec.ofNat 32 ((z : BitVec 1).toNat * 2 ^ 30 + p.1 * 2 ^ 24 + d.toNat * 2 ^ 18 + a.toNat * 2 ^ 12 + n.toNat)) =
          .error e)) ∧
  decode 0x0C0C3004 = .ok (.slli 0 3 3 4) ∧
  (∀ z d (i : BitVec 18), decode (BitVec.ofNat 32 (z.toNat * 2 ^ 30 + 0x11 * 2 ^ 24 + d.toNat * 2 ^ 18 + i.toNat)) = .ok (.lui z d i) ∧
    ∀ s t, writes d (BitVec.ofInt 64 (i.toInt * 4096)) s t → exec (.lui z d i) s = .next (wordEnd s t (z == 1) .seq)) ∧
  (∀ z d a, let word := fun fn rb => decode (BitVec.ofNat 32 (z.toNat * 2 ^ 30 + 2 ^ 24 + d.toNat * 2 ^ 18 + a.toNat * 2 ^ 12 + rb * 64 + fn))
    word 0 0 = .ok (.clz z d a) ∧ word 1 0 = .ok (.ctz z d a) ∧ word 2 0 = .ok (.popc z d a) ∧ word 5 0 = .ok (.bswap z d a) ∧
    (∀ w : BitVec 2, w.toNat < 3 → word 3 w.toNat = .ok (.sext z d a w) ∧ word 4 w.toNat = .ok (.zext z d a w)) ∧
    (∀ rb, 3 ≤ rb → rb < 64 → (∃ e, word 3 rb = .error e) ∧ ∃ e, word 4 rb = .error e)) ∧
  (∀ z d a s x s1, reads a s x s1 → roomIn s d →
    (∀ n t, (n = 64 ∧ x = 0 ∨ n < 64 ∧ x.getLsbD (63 - n) = true ∧ ∀ j, 63 - n < j → x.getLsbD j = false) →
      writes d (BitVec.ofNat 64 n) s1 t → exec (.clz z d a) s = .next (wordEnd s t (z == 1) .seq)) ∧
    (∀ n t, (n = 64 ∧ x = 0 ∨ n < 64 ∧ x.getLsbD n = true ∧ ∀ j < n, x.getLsbD j = false) →
      writes d (BitVec.ofNat 64 n) s1 t → exec (.ctz z d a) s = .next (wordEnd s t (z == 1) .seq)) ∧
    (∀ t, writes d (BitVec.ofNat 64 ((List.range 64).filter (fun j => x.getLsbD j)).length) s1 t →
      exec (.popc z d a) s = .next (wordEnd s t (z == 1) .seq)) ∧
    (∀ (y : W64) t, (∀ j < 8, ∀ b < 8, y.getLsbD (8 * j + b) = x.getLsbD (8 * (7 - j) + b)) →
      writes d y s1 t → exec (.bswap z d a) s = .next (wordEnd s t (z == 1) .seq)) ∧
    (∀ (w : BitVec 2) (y : W64) t, w.toNat < 3 → (∀ j < 64, y.getLsbD j = x.getLsbD (Min.min j (8 * 2 ^ w.toNat - 1))) →
      writes d y s1 t → exec (.sext z d a w) s = .next (wordEnd s t (z == 1) .seq)) ∧
    (∀ (w : BitVec 2) (y : W64) t, w.toNat < 3 → (∀ j < 64, y.getLsbD j = (decide (j < 8 * 2 ^ w.toNat) && x.getLsbD j)) →
      writes d y s1 t → exec (.zext z d a w) s = .next (wordEnd s t (z == 1) .seq)))

/-- A precise fault of a word has no other effect. A word that faults in a thread with H = 0, in an invocation that is not
killed or pre-empted and whose route for the class is 0, leaves every register of the thread (the pc at the word), the
ports, slots, engines and hoard log as they were before the word; the fault waits as a report of the core, and the
halt line of the plot is up. Where no partition has a wait ring and no interface has rings, in which the ends of waits
and faults would be recorded, memory, tags and full/empty bits stay too. -/
def Obligations.PreciseFaultLeavesState : Prop :=
  ∀ access s u i f m v, (coreAt s s.turn).bound = some m → (mcbAt s m).inv = some v → v.kill = none → v.preempt = .none →
    (theThread s).h = false → fieldNat (mcbAt s m).faultpolicy (2 * f.cls) 2 = 0 →
    ∃ t, halts access s u i (.fault f) = .next t ∧ theThread t = theThread s ∧
      (Ringless s → t.mem = s.mem ∧ t.tags = s.tags ∧ t.fe = s.fe) ∧
      (∃ g ∈ (coreAt t s.turn).pending, g.cls = f.cls ∧ g.sub = f.sub ∧ g.addr = f.addr ∧ g.imp = f.imp) ∧
      (coreAt t s.turn).hold = none ∧ (∃ w, (mcbAt t m).inv = some w ∧ w.faultHalt = true) ∧
      (let c := coreAt s s.turn; let d := coreAt t s.turn;
        d.qin = c.qin ∧ d.qv = c.qv ∧ d.qc = c.qc ∧ d.qi = c.qi ∧ d.om = c.om ∧ d.hoard = c.hoard ∧ d.vec = c.vec ∧ d.mat = c.mat ∧
        d.cmds.map (·.ord) = c.cmds.map (·.ord))

/-- A word that waits holds its core. A word that has to wait leaves the registers, ports, slots and commands of its core
as they were; the core holds at it with the kind of the wait, and the pc stays at the word, so that it runs again.
Where the core held nothing, memory and every full/empty bit stay too, but for a split load that has read some of its
pieces: of it, what those reads did stands. -/
def Obligations.WaitingWordHolds : Prop :=
  ∀ access s u i h, u.turn = s.turn → ∃ t g, halts access s u i (.wait h) = .next t ∧ theThread t = theThread s ∧
    (coreAt t s.turn).hold = some g ∧ g.kind = h.kind ∧ g.ins = i ∧ (coreAt t s.turn).qin = (coreAt s s.turn).qin ∧
    (coreAt t s.turn).qi = (coreAt s s.turn).qi ∧ (coreAt t s.turn).qc = (coreAt s s.turn).qc ∧
    (coreAt t s.turn).qv = (coreAt s s.turn).qv ∧
    (h.kind ≠ .pieces → (coreAt t s.turn).om = (coreAt s s.turn).om ∧ (coreAt t s.turn).cmds = (coreAt s s.turn).cmds) ∧
    ((coreAt s s.turn).hold = none →
      t.mem = (if h.kind = .pieces then u.mem else s.mem) ∧ t.fe = (if h.kind = .pieces then u.fe else s.fe))

/-- Taking an exception. Handler entry on a core with H = 0 and a valid HANDLER saves STATUS in ESTATUS and the given
address in EPC, writes CAUSE and FADDR, sets H, puts the pc at HANDLER.CUR and takes the handler's code through
HANDLER as it is now; every other register of the thread, every block and every other core stay, and, where the core
holds no waiting word, every byte of memory. A core that is in its handler, or whose HANDLER is not valid, has its
invocation killed instead. -/
def Obligations.HandlerEntry : Prop :=
  ∀ s k cause addr epc, let th := (coreAt s k).th
    (th.h = false → th.handler.tag = true → th.handler.ver = 1 → let t := handlerEntry s k cause addr epc
      (coreAt t k).th = { th with estatus := th.status, epc := epc, cause := cause, faddr := addr, h := true,
                                  pc := BitVec.ofNat 64 th.handler.cur, hcode := th.handler } ∧
      (coreAt t k).hold = none ∧ ((coreAt s k).hold = none → t.mem = s.mem) ∧ t.mcbs = s.mcbs ∧
      ∀ j, j ≠ k → coreAt t j = coreAt s j) ∧
    (∀ m v, (th.h = true ∨ th.handler.tag = false ∨ th.handler.ver ≠ 1) → (coreAt s k).bound = some m → (mcbAt s m).inv = some v →
      v.kill = none → ∃ w, (mcbAt (handlerEntry s k cause addr epc) m).inv = some w ∧ w.kill = some 5)

/-- trap, brkpt and words that decode to nothing. trap enters the handler with class 16, its code in CAUSE, FADDR 0 and
EPC at the next word in program order, and completes. brkpt enters it with class 17, FADDR 0 and EPC at the word
itself, where no debug stop is armed; where one is armed, the plot stops with the pc at the word. The event
ILLEGAL_INSTRUCTION of a word that decodes to no instruction is the precise fault of class 2 with SUB 0, and of a word
that decodes it does nothing. -/
def Obligations.TrapsEnterTheHandler : Prop :=
  (∀ s (i : BitVec 18), exec (.trap i) s = .next (wordEnd s (handlerEntry (onThread s (fun t => t.next)) s.turn
      (BitVec.ofNat 64 (16 + i.toNat * 2 ^ 32)) 0 (theThread s).next.pc) false .done)) ∧
  (∀ s m, (coreAt s s.turn).bound = some m → debugArmed s m = false →
    exec .brkpt s = .next (handlerEntry (countIssue s s s.turn false) s.turn 17 0 (theThread s).pc)) ∧
  (∀ s m v, (coreAt s s.turn).bound = some m → debugArmed s m = true → (mcbAt s m).inv = some v →
    ∃ t w, exec .brkpt s = .next t ∧ theThread t = theThread s ∧ (mcbAt t m).inv = some w ∧ w.debugStop = true) ∧
  (∀ s w e, decode w = .error e → exec (.illegalInstruction w) s = halts false s s .exit (.fault { cls := 2, sub := 0, addr := 0 })) ∧
  (∀ s w i, decode w = .ok i → exec (.illegalInstruction w) s = .next s)

/-- Returning from an exception. trapret with H = 1, reserved bits of ESTATUS zero and no report pending completes: H and
AE become those of ESTATUS, the pc becomes EPC, and every other register stays, PRIO, EPC and ESTATUS included. With H
= 0 it is an illegal instruction with SUB 5, and with a reserved bit of ESTATUS set one with SUB 6. -/
def Obligations.TrapretReturns : Prop :=
  ∀ s, let t := theThread s
    let reserved := t.estatus.extractLsb' 8 56 ≠ 0 ∨ t.estatus.extractLsb' 2 2 ≠ 0
    (t.h = true → ¬ reserved → (coreAt s s.turn).pending = [] →
      exec .trapret s = .next (wordEnd s (onThread s (fun t =>
        { t with h := t.estatus.getLsbD 0, ae := t.estatus.getLsbD 1, pc := t.epc })) false .done)) ∧
    (t.h = false → exec .trapret s = halts false s s .trapret (.fault { cls := 2, sub := 5, addr := 0 })) ∧
    (t.h = true → reserved → exec .trapret s = halts false s s .trapret (.fault { cls := 2, sub := 6, addr := 0 }))

/-- exit and exit.abandon retire the thread. exit with no unfinished command, an empty hoard log, no store of the part's
own memory on its way and no watchpoint report outstanding, and exit.abandon at once, retire the thread: its registers
are those of a thread that holds nothing (but for ESEED), its slots, commands, chains, posted buffers and hoard log
are gone, its region is closed, and every other core and, but for the records of waits that exit.abandon ends, memory
stay. exit with a command, a hoard-log entry or a store left waits. That exit waits for writes on their way and for a
watchpoint report outstanding is the model's reading (log entry 33). -/
def Obligations.ExitRetires : Prop :=
  ∀ s, let c := coreAt s s.turn
    let gone := fun (t : State) (quiet : Prop) => ∃ u, t = wordEnd s u false .done ∧ (quiet → u.mem = s.mem) ∧ (∀ k, k ≠ s.turn → coreAt u k = coreAt s k) ∧
      (let d := coreAt u s.turn;
        d.retired = true ∧ d.th = { Thread.reset with eseed := c.th.eseed } ∧ d.om = [] ∧ d.cmds = [] ∧ d.chains = [] ∧
        d.posted = [] ∧ d.hoard = [] ∧ d.bound = c.bound ∧ d.region = c.region + 1)
    (c.cmds = [] → drained s → ∃ t, exec .exit s = .next t ∧ gone t True) ∧
    (∃ t, exec .exitAbandon s = .next t ∧ gone t (Ringless s)) ∧
    ((c.cmds ≠ [] ∨ logDrained s s.turn = false) → ∃ h, exec .exit s = halts false s s .exit (.wait h) ∧ h.kind = .drain) ∧
    (c.cmds = [] → logDrained s s.turn = true → c.struck ≠ none → ∃ h, exec .exit s = halts false s s .exit (.wait h) ∧ h.kind = .struck)

/-- cmp, cmpi, the predicate forms and sel. Each is encoded as its rule says. cmp and cmpi write pd with the condition of
R26 on the values (eq, ne, lt, ge signed, ltu, geu unsigned); codes 6 and 7 and pd = 0 are reserved. The predicate
forms write pd with pa and pb, pa or pb, pa xor pb, not pa, or pa. sel and sel.n read both sources and write sd with a
where the predicate, inverted for sel.n, is true, and else with b. All complete. -/
def Obligations.ComparePredicateSelect : Prop :=
  (∀ z (c pd : BitVec 3) (a b : BitVec 6) (i : BitVec 12),
    let cmpWord := decode (BitVec.ofNat 32 (z.toNat * 2 ^ 30 + 2 * 2 ^ 24 + c.toNat * 2 ^ 21 + pd.toNat * 2 ^ 18 + a.toNat * 2 ^ 12 + b.toNat * 64))
    let cmpiWord := decode (BitVec.ofNat 32 (z.toNat * 2 ^ 30 + 3 * 2 ^ 24 + c.toNat * 2 ^ 21 + pd.toNat * 2 ^ 18 + a.toNat * 2 ^ 12 + i.toNat))
    (c.toNat < 6 → pd ≠ 0 → cmpWord = .ok (.cmp z c pd a b) ∧ cmpiWord = .ok (.cmpi z c pd a i)) ∧
    ((6 ≤ c.toNat ∨ pd = 0) → (∃ e, cmpWord = .error e) ∧ ∃ e, cmpiWord = .error e)) ∧
  (∀ p ∈ ([(0, fun x y => x = y), (1, fun x y => x ≠ y), (2, fun x y => x.toInt < y.toInt), (3, fun x y => y.toInt ≤ x.toInt),
      (4, fun x y => x.toNat < y.toNat), (5, fun x y => y.toNat ≤ x.toNat)] : List (BitVec 3 × (W64 → W64 → Prop))),
    ∀ z pd a s x s1 (v : Bool), reads a s x s1 →
      (∀ b y s2, reads b s1 y s2 → (v = true ↔ p.2 x y) →
        exec (.cmp z p.1 pd a b) s = .next (wordEnd s (onThread s2 (fun t => t.setP pd.toNat v)) (z == 1) .seq)) ∧
      (∀ i : BitVec 12, (v = true ↔ p.2 x (i.signExtend 64)) →
        exec (.cmpi z p.1 pd a i) s = .next (wordEnd s (onThread s1 (fun t => t.setP pd.toNat v)) (z == 1) .seq))) ∧
  (∀ z (d a b : BitVec 3) s,
    let fin := fun (v : Bool) => Host.Outcome.next (wordEnd s (onThread s (fun t => t.setP d.toNat v)) (z == 1) .seq)
    let pa := (theThread s).getP a.toNat
    let pb := (theThread s).getP b.toNat
    let word := fun fn (rb : BitVec 3) =>
      decode (BitVec.ofNat 32 (z.toNat * 2 ^ 30 + 5 * 2 ^ 24 + d.toNat * 2 ^ 18 + a.toNat * 2 ^ 12 + rb.toNat * 64 + fn))
    exec (.pand z d a b) s = fin (pa && pb) ∧ exec (.por z d a b) s = fin (pa || pb) ∧ exec (.pxor z d a b) s = fin (pa ^^ pb) ∧
    exec (.pnot z d a) s = fin (!pa) ∧ exec (.pmov z d a) s = fin pa ∧
    (d ≠ 0 → word 0 b = .ok (.pand z d a b) ∧ word 1 b = .ok (.por z d a b) ∧ word 2 b = .ok (.pxor z d a b) ∧
      word 3 0 = .ok (.pnot z d a) ∧ word 4 0 = .ok (.pmov z d a)) ∧
    (d = 0 → ∀ fn < 5, ∃ e, word fn b = .error e)) ∧
  (∀ z d a b (n : BitVec 1) (p : BitVec 3),
    decode (BitVec.ofNat 32 (z.toNat * 2 ^ 30 + 4 * 2 ^ 24 + d.toNat * 2 ^ 18 + a.toNat * 2 ^ 12 + b.toNat * 64 + n.toNat * 8 + p.toNat)) =
      .ok (.sel z d a b n p) ∧
    ∀ s x y s1 s2 t, reads a s x s1 → reads b s1 y s2 → roomIn s d →
      writes d (if ((theThread s2).getP p.toNat ^^ (n == 1)) = true then x else y) s2 t →
      exec (.sel z d a b n p) s = .next (wordEnd s t (z == 1) .seq))

/-- Scalar registers, s0 and the queue ports as operands. Codes 1 to 55 read and write the register of that number and
change nothing else; s0 reads zero and a write of it is discarded. A read of qi, qc or qv, or of a neighbour port with
a neighbour in the plot, pops the first word of the queue, which leaves the queue; where the queue is empty, it
changes nothing and waits on the port. A read of qo and a write of qv, qc or qi raise queue-port misuse with SUB 0,
and a neighbour port with no neighbour in the plot raises it with SUB 1. -/
def Obligations.OperandsReadAndWritten : Prop :=
  (∀ (n : BitVec 6) s, n.toNat < 56 → reads n s (if n = 0 then 0 else mapGet 0 (theThread s).s n.toNat) s) ∧
  (∀ (n : BitVec 6) v s, n.toNat < 56 → ∃ t, writes n v s t ∧ (n = 0 → (theThread t) = theThread s) ∧
    (n ≠ 0 → theThread t = { theThread s with s := mapSet 0 (theThread s).s n.toNat v }) ∧
    (∀ m : BitVec 6, m.toNat < 56 → m ≠ 0 → reads m t (if m = n then v else mapGet 0 (theThread s).s m.toNat) t) ∧
    t.mem = s.mem ∧ t.mcbs = s.mcbs ∧ ∀ k, k ≠ s.turn → coreAt t k = coreAt s k) ∧
  (∀ s w rest, (coreAt s s.turn).qi = w :: rest → ∃ t, reads 62 s w.val t ∧ (coreAt t s.turn).qi = rest ∧ theThread t = theThread s) ∧
  (∀ s w rest, (coreAt s s.turn).qc = w :: rest → ∃ t, reads 61 s w.word t ∧ (coreAt t s.turn).qc = rest ∧ theThread t = theThread s) ∧
  (∀ s w rest, (coreAt s s.turn).qv = w :: rest → ∃ t, reads 60 s w.val t ∧ (coreAt t s.turn).qv = rest ∧ theThread t = theThread s) ∧
  (∀ (n : BitVec 6) s w rest, 56 ≤ n.toNat → n.toNat < 60 → plotNeighbour s s.turn (n.toNat - 56) ≠ none →
    (coreAt s s.turn).port (n.toNat - 56) = w :: rest →
    ∃ t, reads n s w.val t ∧ (coreAt t s.turn).port (n.toNat - 56) = rest ∧ theThread t = theThread s) ∧
  (∀ (n : BitVec 6) s, (n = 62 ∧ (coreAt s s.turn).qi = [] ∨ n = 61 ∧ (coreAt s s.turn).qc = [] ∨ n = 60 ∧ (coreAt s s.turn).qv = [] ∨
      56 ≤ n.toNat ∧ n.toNat < 60 ∧ plotNeighbour s s.turn (n.toNat - 56) ≠ none ∧ (coreAt s s.turn).port (n.toNat - 56) = []) →
    ∃ h, (readS n).run s = .error (.wait h) s ∧ h.kind = .port) ∧
  (∀ s, ∃ t e, (readS 63).run s = .error (.fault e) t ∧ e.cls = 10 ∧ e.sub = 0) ∧
  (∀ (n : BitVec 6) v s, 60 ≤ n.toNat → n.toNat < 63 → ∃ t e, (writeS n v).run s = .error (.fault e) t ∧ e.cls = 10 ∧ e.sub = 0) ∧
  (∀ (n : BitVec 6) v s, 56 ≤ n.toNat → n.toNat < 60 → plotNeighbour s s.turn (n.toNat - 56) = none →
    (∃ t e, (readS n).run s = .error (.fault e) t ∧ e.cls = 10 ∧ e.sub = 1) ∧
    (∃ t e, (writeS n v).run s = .error (.fault e) t ∧ e.cls = 10 ∧ e.sub = 1))

/-- A push to a queue port. A write of a neighbour port with room appends the word at the end of that neighbour's queue
from this side, and a write of qo appends it to the mailbox of the core that MBDST names, where that core's context is
bound with the sender's key slot and partition; a full queue of 8 words, or a full mailbox of 16, waits, and a
destination that does not accept raises queue-port misuse with SUB 2. A push is a release: with room, it waits while
an earlier write of the core in the part's own memory has not performed. In each case the pushing thread's registers
stay. -/
def Obligations.PortPush : Prop :=
  (∀ (n : BitVec 6) v s d, 56 ≤ n.toNat → n.toNat < 60 → plotNeighbour s s.turn (n.toNat - 56) = some d → d ≠ s.turn →
    (((coreAt s d).port ((n.toNat - 56 + 2) % 4)).length < 8 → drained s →
      ∃ t e, writes n v s t ∧ (coreAt t d).port ((n.toNat - 56 + 2) % 4) =
        (coreAt s d).port ((n.toNat - 56 + 2) % 4) ++ [⟨v, e, s.turn⟩] ∧ theThread t = theThread s) ∧
    (((coreAt s d).port ((n.toNat - 56 + 2) % 4)).length < 8 → logDrained s s.turn = false →
      ∃ h, (writeS n v).run s = .error (.wait h) s ∧ h.kind = .hoarded) ∧
    (8 ≤ ((coreAt s d).port ((n.toNat - 56 + 2) % 4)).length → ∃ h, (writeS n v).run s = .error (.wait h) s ∧ h.kind = .port)) ∧
  (∀ v s, let d := mailboxDest (theThread s)
    ((coreAt s d).qi.length < 16 → mailboxAccepts s s.turn d = true → drained s →
      ∃ t e, writes 63 v s t ∧ (coreAt t d).qi = (coreAt s d).qi ++ [⟨v, e, s.turn⟩] ∧ theThread t = theThread s) ∧
    ((coreAt s d).qi.length < 16 → mailboxAccepts s s.turn d = true → logDrained s s.turn = false →
      ∃ h, (writeS 63 v).run s = .error (.wait h) s ∧ h.kind = .hoarded) ∧
    ((coreAt s d).qi.length < 16 → mailboxAccepts s s.turn d = false →
      ∃ t e, (writeS 63 v).run s = .error (.fault e) t ∧ e.cls = 10 ∧ e.sub = 2) ∧
    (16 ≤ (coreAt s d).qi.length → ∃ h, (writeS 63 v).run s = .error (.wait h) s ∧ h.kind = .port))

/-- p0 is never written, c0 is null. In every thread p0 reads true and c0 reads as the null capability, and a write of
either leaves the thread as it was; a write of another predicate or capability register is read back, and leaves every
other one. A well-formed word with a predicate destination names p1 to p7, and the words with destination 0, and a
branch word with p = 0 and neg = 1, decode to no instruction. -/
def Obligations.PredicateZeroReadsTrue : Prop :=
  (∀ (t : Thread), t.getP 0 = true ∧ t.getC 0 = ⟨0, false⟩ ∧ (∀ b, t.setP 0 b = t) ∧ (∀ c, t.setC 0 c = t) ∧
    (∀ n < 8, 0 < n → ∀ b, (t.setP n b).getP n = b ∧ ∀ m < 8, m ≠ n → (t.setP n b).getP m = t.getP m) ∧
    (∀ n < 32, 0 < n → ∀ c, (t.setC n c).getC n = c ∧ ∀ m < 32, m ≠ n → (t.setC n c).getC m = t.getC m)) ∧
  (∀ z c a b (q r : BitVec 3) (k : BitVec 5) i (d : BitVec 20),
    ∀ x ∈ [Instr.cmp z c 0 a b, .cmpi z c 0 a i, .pand z 0 q r, .por z 0 q r, .pxor z 0 q r, .pnot z 0 q, .pmov z 0 q,
      .ctest z 0 k b, .qpoll z 0 q, .barTest z 0 k, .bnp 0 d], ∀ w, decode w ≠ .ok x) ∧
  (∀ d : BitVec 20, ∃ e, decode (BitVec.ofNat 32 (0x14 * 2 ^ 24 + 2 ^ 20 + d.toNat)) = .error e)

/-- What completing a word changes. A word that falls through and that held nothing, once its own effects have led to t:
every register of the thread other than the pc, the loop levels and LACT is as in t, the engines, ports, slots, hoard
log and fault reports of the core are as in t, core counters other than 1 to 3 are as in t, and so are every other
core, memory, tags, full/empty bits, blocks, streams and interfaces. Where no level ends at the pc, the loop levels
stay too and the pc moves on by 4. -/
def Obligations.CompletedWordFrame : Prop :=
  ∀ s t access, t.turn = s.turn → (coreAt t s.turn).hold = none → let u := wordEnd s t access .seq
    (∃ l a p, theThread u = { theThread t with loops := l, lact := a, pc := p }) ∧
    ((∀ n ∈ (theThread t).innermost, ((theThread t).loop n).last ≠ (theThread t).pc) →
      theThread u = { theThread t with pc := (theThread t).pc + 4 }) ∧
    (let c := coreAt u s.turn; let d := coreAt t s.turn;
      c.cmds = d.cmds ∧ c.qin = d.qin ∧ c.qv = d.qv ∧ c.qc = d.qc ∧ c.qi = d.qi ∧ c.om = d.om ∧ c.hoard = d.hoard ∧
      c.pending = d.pending ∧ c.vec = d.vec ∧ c.mat = d.mat ∧ c.edges = d.edges ∧ c.btrack = d.btrack ∧
      ∀ n, n = 0 ∨ 3 < n → mapGet 0 c.counters n = mapGet 0 d.counters n) ∧
    (∀ k, k ≠ s.turn → coreAt u k = coreAt t k) ∧ u.mem = t.mem ∧ u.tags = t.tags ∧ u.fe = t.fe ∧ u.mcbs = t.mcbs ∧
    u.streams = t.streams ∧ u.ifcs = t.ifcs ∧ u.pt = t.pt

/-- Frame of the integer, compare and predicate words. When exec of a form of R136 to R143 with registers (not ports) as
operands answers a next state of a core that held nothing, every register but the destination, the pc, the loop levels
and LACT is unchanged, every byte of memory reads as before, and every other core, block and special register is
unchanged. A destination s0 changes nothing. -/
def Obligations.RegisterWordFrame : Prop :=
  ∀ s t, (coreAt s s.turn).hold = none →
    let kept := sameMemory s t ∧ t.mcbs = s.mcbs ∧ t.tags = s.tags ∧ t.fe = s.fe ∧ (∀ k, k ≠ s.turn → coreAt t k = coreAt s k) ∧
      (coreAt t s.turn).vec = (coreAt s s.turn).vec ∧ (coreAt t s.turn).mat = (coreAt s s.turn).mat ∧
      (coreAt t s.turn).om = (coreAt s s.turn).om ∧ (coreAt t s.turn).cmds = (coreAt s s.turn).cmds
    let onlyS := fun (d : BitVec 6) => ∃ r l a p, theThread t = { theThread s with s := r, loops := l, lact := a, pc := p } ∧
      ∀ m, m ≠ d.toNat → mapGet 0 r m = mapGet 0 (theThread s).s m
    let onlyP := fun (d : BitVec 3) => ∃ q l a p, theThread t = { theThread s with p := q, loops := l, lact := a, pc := p } ∧
      ∀ m < 8, m ≠ d.toNat → (theThread t).getP m = (theThread s).getP m
    (∀ z (d a b : BitVec 6), d.toNat < 56 → a.toNat < 56 → b.toNat < 56 →
      ∀ i ∈ [Instr.add z d a b, .sub z d a b, .and z d a b, .or z d a b, .xor z d a b, .andn z d a b, .sll z d a b,
        .srl z d a b, .sra z d a b, .rol z d a b, .mul z d a b, .mulh z d a b, .mulhu z d a b, .div z d a b, .divu z d a b,
        .rem z d a b, .remu z d a b, .min z d a b, .max z d a b, .minu z d a b, .maxu z d a b, .slt z d a b, .sltu z d a b],
        exec i s = .next t → onlyS d ∧ kept) ∧
    (∀ z (d a j : BitVec 6) (n : BitVec 12) (u : BitVec 18) (w : BitVec 2), d.toNat < 56 → a.toNat < 56 →
      ∀ i ∈ [Instr.addi z d a n, .andi z d a n, .ori z d a n, .xori z d a n, .slti z d a n, .sltiu z d a n, .slli z d a j,
        .srli z d a j, .srai z d a j, .lui z d u, .clz z d a, .ctz z d a, .popc z d a, .bswap z d a, .sext z d a w, .zext z d a w],
        exec i s = .next t → onlyS d ∧ kept) ∧
    (∀ z (d a b : BitVec 6) n p, d.toNat < 56 → a.toNat < 56 → b.toNat < 56 → exec (.sel z d a b n p) s = .next t → onlyS d ∧ kept) ∧
    (∀ z c (d : BitVec 3) (a b : BitVec 6) (n : BitVec 12), a.toNat < 56 → b.toNat < 56 →
      ∀ i ∈ [Instr.cmp z c d a b, .cmpi z c d a n], exec i s = .next t → onlyP d ∧ kept) ∧
    (∀ z (d a b : BitVec 3), ∀ i ∈ [Instr.pand z d a b, .por z d a b, .pxor z d a b, .pnot z d a, .pmov z d a],
      exec i s = .next t → onlyP d ∧ kept)

/-- Results of br, bp, bnp, call, jmpr and ret. At a word at which no level would loop back, a taken br, bp or bnp goes to
the pc plus four times the signed displacement, and bp and bnp that are not taken fall through; call writes pc + 4 to
sd and goes to the displaced pc; jmpr reads its target, writes pc + 4 to sd and goes to the target; ret goes to what
it reads. The first five deactivate the levels that R149 says a taken word leaves; call leaves none. -/
def Obligations.BranchResults : Prop :=
  ∀ s, (theThread s).endsLoop = false → let pc := (theThread s).pc
    let go := fun (u : State) (g : W64) (leaves : Bool) => Host.Outcome.next (wordEnd s u false (.taken g leaves))
    (∀ d : BitVec 20, exec (.br d) s = go s (pc + BitVec.ofInt 64 (4 * d.toInt)) true) ∧
    (∀ p (d : BitVec 20), (theThread s).getP p.toNat = true →
      exec (.bp p d) s = go s (pc + BitVec.ofInt 64 (4 * d.toInt)) true ∧ exec (.bnp p d) s = .next (wordEnd s s false .seq)) ∧
    (∀ p (d : BitVec 20), (theThread s).getP p.toNat = false →
      exec (.bnp p d) s = go s (pc + BitVec.ofInt 64 (4 * d.toInt)) true ∧ exec (.bp p d) s = .next (wordEnd s s false .seq)) ∧
    (∀ d (i : BitVec 18) t, writes d (pc + 4) s t → exec (.call d i) s = go t (pc + BitVec.ofInt 64 (4 * i.toInt)) false) ∧
    (∀ d a g u t, reads a s g u → roomIn s d → writes d ((theThread u).pc + 4) u t → exec (.jmpr d a) s = go t g true) ∧
    (∀ a g u, reads a s g u → exec (.ret a) s = go u g true)

/-- Where a taken word leaves the thread. After a taken word the pc is its target. A word that leaves levels keeps every
level whose body does not hold the word, or holds the target too, unless it was activated after a level that is left;
and a level whose body holds the word and not the target is inactive. A word that leaves no level keeps every level.
Loop registers stay. -/
def Obligations.TakenWordMovesPc : Prop :=
  ∀ (t : Thread) g, (t.flow (.taken g true)).pc = g ∧ (t.flow (.taken g true)).loops = t.loops ∧
    t.flow (.taken g false) = { t with pc := g } ∧
    (lactLegal (zext64 t.lact) = true → ∀ n < 4, t.active n = true →
      ((t.inBody n t.pc = true ∧ t.inBody n g = false) → (t.flow (.taken g true)).active n = false) ∧
      ((∀ m < 4, t.active m = true → t.rank m ≤ t.rank n → ¬ (t.inBody m t.pc = true ∧ t.inBody m g = false)) →
        (t.flow (.taken g true)).active n = true))

/-- A flow word at the end of a body that would loop back. A word of majors 0x14 to 0x18 whose address is the LEND of an
active level with LCNT above 1 is an illegal instruction with SUB 4, found before the word has any effect. -/
def Obligations.FlowWordAtLoopEnd : Prop :=
  ∀ s n, (theThread s).active n = true → n < 4 → ((theThread s).loop n).last = (theThread s).pc →
    1 < ((theThread s).loop n).cnt.toNat →
    ∀ (d : BitVec 20) (p : BitVec 3) (f : BitVec 18) (a b : BitVec 6) (l : BitVec 2) (e : BitVec 11) (k : BitVec 10),
      ∀ i ∈ [Instr.br d, .bp p d, .bnp p d, .call a f, .jmpr a b, .ret a, .loop l a e, .loopi l k e, .lbrk l],
        exec i s = halts false s s i (.fault { cls := 2, sub := 4, addr := 0 })

/-- Results of loop, loopi and lbrk. loop with the count it reads, and loopi with count + 1: a count of 0 goes past the
body; any other sets LBEG to the next word, LEND to the last body word, LCNT to the count and LITR to 0, activates the
level with the next rank, and falls through. An active level, or a word in the body of an active level that ends
earlier, is an illegal instruction with SUB 2. lbrk of an active level deactivates it and every level activated after
it and goes to LEND + 4; of a level that is not active it is an illegal instruction with SUB 3. -/
def Obligations.LoopResults : Prop :=
  (∀ s (l : BitVec 2) (e : BitVec 11) a n u, (theThread s).endsLoop = false → reads a s n u → theThread u = theThread s →
    let t := theThread s
    let last := t.pc + BitVec.ofNat 64 (4 * e.toNat)
    let inner := ∃ m ∈ t.innermost, t.inBody m t.pc = true ∧ (t.loop m).last.toNat < last.toNat
    (t.active l.toNat = false → ¬ inner → n = 0 →
      exec (.loop l a e) s = .next (wordEnd s u false (.taken (last + 4) false))) ∧
    (t.active l.toNat = false → ¬ inner → n ≠ 0 →
      exec (.loop l a e) s = .next (wordEnd s (onThread u (fun t =>
        (t.setLoop l.toNat ⟨n, 0, t.pc + 4, last⟩).activate l.toNat)) false .seq)) ∧
    ((t.active l.toNat = true ∨ inner) →
      exec (.loop l a e) s = halts false s u (.loop l a e) (.fault { cls := 2, sub := 2, addr := 0 }))) ∧
  (∀ s (l : BitVec 2) (c : BitVec 10) (e : BitVec 11), (theThread s).endsLoop = false →
    let t := theThread s
    let last := t.pc + BitVec.ofNat 64 (4 * e.toNat)
    let inner := ∃ m ∈ t.innermost, t.inBody m t.pc = true ∧ (t.loop m).last.toNat < last.toNat
    (t.active l.toNat = false → ¬ inner →
      exec (.loopi l c e) s = .next (wordEnd s (onThread s (fun t =>
        (t.setLoop l.toNat ⟨BitVec.ofNat 64 (c.toNat + 1), 0, t.pc + 4, last⟩).activate l.toNat)) false .seq)) ∧
    ((t.active l.toNat = true ∨ inner) →
      exec (.loopi l c e) s = halts false s s (.loopi l c e) (.fault { cls := 2, sub := 2, addr := 0 }))) ∧
  (∀ s (l : BitVec 2), (theThread s).endsLoop = false →
    ((theThread s).active l.toNat = true →
      exec (.lbrk l) s = .next (wordEnd s (onThread s (fun t => t.dropFrom l.toNat)) false
        (.taken (((theThread s).loop l.toNat).last + 4) false))) ∧
    ((theThread s).active l.toNat = false →
      exec (.lbrk l) s = halts false s s (.lbrk l) (.fault { cls := 2, sub := 3, addr := 0 })))

/-- The examination after a word at LEND. With one active level whose LEND is the word's address: the completed word
counts LCNT down and LITR up, and where LCNT is then not 0 the next word is LBEG and the level stays active; where it
is 0 the level is inactive and the next word is pc + 4. A word that ends no active level moves the pc on by 4 and
leaves the loop registers. -/
def Obligations.LoopExamination : Prop :=
  ∀ (t : Thread) n, n < 4 → t.innermost = [n] → let l := t.loop n
    (l.last = t.pc → l.cnt ≠ 1 → (t.flow .seq).pc = l.beg ∧ (t.flow .seq).loop n = ⟨l.cnt - 1, l.itr + 1, l.beg, l.last⟩ ∧
      (t.flow .seq).lact = t.lact) ∧
    (l.last = t.pc → l.cnt = 1 → (t.flow .seq).pc = t.pc + 4 ∧ (t.flow .seq).loop n = ⟨0, l.itr + 1, l.beg, l.last⟩ ∧
      (t.flow .seq).active n = false) ∧
    (l.last ≠ t.pc → t.flow .seq = { t with pc := t.pc + 4 })

/-- Results of the capability words. cadd and caddi move CUR by the signed amount, keep the other fields, and clear the
tag of a cursor that leaves 0 to 2^40 - 1; ccur sets CUR to the low 40 bits and clears the tag for a value from 2^40;
cand intersects PERM and keeps the tag; cmov copies; cget writes the field that its code names; ctest writes whether
the capability is tagged and the range lies in its bounds. Each leaves every other field and completes. ctab reads
entry i of the capability table through CAPTAB with its granule's tag, after the core's earlier writes to it, and an
index above 255 raises the capability fault with SUB 1 at 16 times the index. -/
def Obligations.CapabilityResults : Prop :=
  (∀ z (d a : BitVec 5) (b : BitVec 6) s y u, reads b s y u → let c := (theThread s).getC a.toNat
    let fin := fun (r : Cap) => Host.Outcome.next (wordEnd s (onThread u (fun t => t.setC d.toNat r)) (z == 1) .seq)
    (∃ r : Cap, exec (.cadd z d a b) s = fin r ∧ r.cur = (((c.cur : Int) + y.toInt) % 2 ^ 40).toNat ∧
      r.tag = (c.tag && decide (0 ≤ (c.cur : Int) + y.toInt) && decide ((c.cur : Int) + y.toInt < 2 ^ 40)) ∧
      r.bits.extractLsb' 40 88 = c.bits.extractLsb' 40 88) ∧
    (∃ r : Cap, exec (.ccur z d a b) s = fin r ∧ r.cur = y.toNat % 2 ^ 40 ∧ r.tag = (c.tag && decide (y.toNat < 2 ^ 40)) ∧
      r.bits.extractLsb' 40 88 = c.bits.extractLsb' 40 88) ∧
    (∃ r : Cap, exec (.cand z d a b) s = fin r ∧ r.perm = c.perm &&& y.setWidth 12 ∧ r.tag = c.tag ∧
      r.bits.extractLsb' 0 68 = c.bits.extractLsb' 0 68 ∧ r.bits.extractLsb' 80 48 = c.bits.extractLsb' 80 48) ∧
    (∀ p : BitVec 3, ∃ v : Bool, exec (.ctest z p a b) s = .next (wordEnd s (onThread u (fun t => t.setP p.toNat v)) (z == 1) .seq) ∧
      (v = true ↔ c.tag = true ∧ c.ver = 1 ∧ c.lo ≤ c.cur ∧ c.cur + y.toNat ≤ c.hi))) ∧
  (∀ z (d a : BitVec 5) (i : BitVec 12) s, let c := (theThread s).getC a.toNat
    (∃ r : Cap, exec (.caddi z d a i) s = .next (wordEnd s (onThread s (fun t => t.setC d.toNat r)) (z == 1) .seq) ∧
      r.cur = (((c.cur : Int) + i.toInt) % 2 ^ 40).toNat ∧
      r.tag = (c.tag && decide (0 ≤ (c.cur : Int) + i.toInt) && decide ((c.cur : Int) + i.toInt < 2 ^ 40)) ∧
      r.bits.extractLsb' 40 88 = c.bits.extractLsb' 40 88) ∧
    exec (.cmov z d a) s = .next (wordEnd s (onThread s (fun t => t.setC d.toNat c)) (z == 1) .seq)) ∧
  (∀ z d (a : BitVec 5) (k : BitVec 6) s t, k.toNat < 9 → let c := (theThread s).getC a.toNat
    writes d (BitVec.ofNat 64 ([c.cur, c.base * 2 ^ (c.gx + 4), c.len * 2 ^ (c.gx + 4), c.perm.toNat, c.sp, c.obj,
      if c.tag then 1 else 0, c.gx, c.ver].getD k.toNat 0)) s t →
    exec (.cget z d a k) s = .next (wordEnd s t (z == 1) .seq)) ∧
  (∀ z (d : BitVec 5) (a : BitVec 6) s i s0 r s1, reads a s i s0 → i.toNat < 256 →
    let t := (theThread s0).captab; let off := t.lo + 16 * i.toNat
    notBehind s0 t off 16 → does (resolve (whoNow s0) t.obj t.sp off { write := false }) s0 r s1 →
    noFlights s1 r 16 → unhindered s1 (whoNow s0) .read (off, 16, r) → farAnswers s1 (off, 16, r) →
    ∃ u, exec (.ctab z d a) s = .next (wordEnd s u (z == 1) .seq) ∧
      theThread u = (theThread s0).setC d.toNat ⟨BitVec.ofNat 128 (leNat (bytesAt s1 (whoNow s0).mcb t off 16 r)),
        decide (r.sp < 2) && mapGet false s0.tags (r.key / 16)⟩ ∧
      u.mem = s0.mem ∧ u.tags = s0.tags) ∧
  (∀ z (d : BitVec 5) (a : BitVec 6) s i s0, reads a s i s0 → 256 ≤ i.toNat →
    exec (.ctab z d a) s = halts (z == 1) s s0 (.ctab z d a) (.fault { cls := 0, sub := 1, addr := BitVec.ofNat 64 (16 * i.toNat) }))

/-- cbnd narrows and never widens. cbnd of l bytes at CUR: outside the bounds it raises the capability fault with SUB 1,
and with no granule at which both are exact the one with SUB 4. Otherwise it completes with bounds that are exactly
CUR to CUR + l, tag, cursor, rights, space and object unchanged, and the new bounds lie within the old. -/
def Obligations.NarrowingBounds : Prop :=
  ∀ z (d a : BitVec 5) (b : BitVec 6) s y u, reads b s y u → let c := (theThread s).getC a.toNat
    let i := Instr.cbnd z d a b
    let fits := fun e => c.cur % 2 ^ (e + 4) = 0 ∧ y.toNat % 2 ^ (e + 4) = 0 ∧ c.cur / 2 ^ (e + 4) < 2 ^ 20 ∧ y.toNat / 2 ^ (e + 4) < 2 ^ 20
    ((c.cur < c.lo ∨ c.hi < c.cur + y.toNat) →
      exec i s = halts (z == 1) s u i (.fault { cls := 0, sub := 1, addr := BitVec.ofNat 64 c.cur })) ∧
    (c.lo ≤ c.cur → c.cur + y.toNat ≤ c.hi → (∀ e < 16, ¬ fits e) →
      exec i s = halts (z == 1) s u i (.fault { cls := 0, sub := 4, addr := BitVec.ofNat 64 c.cur })) ∧
    (∀ e < 16, c.lo ≤ c.cur → c.cur + y.toNat ≤ c.hi → fits e → (∀ f < e, ¬ fits f) →
      ∃ r : Cap, exec i s = .next (wordEnd s (onThread u (fun t => t.setC d.toNat r)) (z == 1) .seq) ∧
        r.gx = e ∧ r.lo = c.cur ∧ r.hi = c.cur + y.toNat ∧ c.lo ≤ r.lo ∧ r.hi ≤ c.hi ∧ r.tag = c.tag ∧ r.cur = c.cur ∧
        r.perm = c.perm ∧ r.sp = c.sp ∧ r.obj = c.obj ∧ r.ver = c.ver)

/-- No capability word makes a tag or a right. When such a word goes on, the destination either stands as it was (a fault)
or: a capability that cadd, caddi, ccur, cand, cbnd or cmov writes is tagged only where its source was, and holds no
right, no space and no object that its source did not hold. -/
def Obligations.CapabilitiesOnlyNarrow : Prop :=
  ∀ z (d a : BitVec 5) (b : BitVec 6) (n : BitVec 12) s t, b.toNat < 56 → d.toNat ≠ 0 → (coreAt s s.turn).hold = none →
    ∀ i ∈ [Instr.cadd z d a b, .caddi z d a n, .ccur z d a b, .cand z d a b, .cbnd z d a b, .cmov z d a], exec i s = .next t →
      (theThread t).getC d.toNat = (theThread s).getC d.toNat ∨
      (let r := (theThread t).getC d.toNat; let c := (theThread s).getC a.toNat
        (r.tag = true → c.tag = true) ∧ r.perm &&& ~~~c.perm = 0 ∧ r.sp = c.sp ∧ r.obj = c.obj)

/-- Results of qpoll, qwait and the OM slot words. qpoll writes pd with whether a read of the port would pop (for qo,
whether the mailbox of the core that MBDST names has room), and qwait completes when that holds and else waits; a
neighbour port with no neighbour in the plot is queue-port misuse with SUB 1. om.claim of an EMPTY slot makes it
FILLING, of a DRAINING slot or one whose fill was released waits, and of another FILLING or a READY slot is a misuse
fault with SUB 0. om.release of a READY slot makes it DRAINING, and of a FILLING slot with an unfinished fill marks it
as released; of any other slot it is a misuse fault with SUB 1. A DRAINING slot that no unfinished command reads
becomes EMPTY in a later step of the part, and no other slot does. om.state writes 0, 1, 2 or 3, with 3 for a released
fill. That a DRAINING slot becomes EMPTY in a step of its own is the model's choice (log entry 130). -/
def Obligations.QueueAndSlotWords : Prop :=
  (∀ z (d p : BitVec 3) s, (p.toNat < 4 → plotNeighbour s s.turn p.toNat ≠ none) → let c := coreAt s s.turn
    let ready := if p = 7 then decide ((coreAt s (mailboxDest c.th)).qi.length < 16) else if p = 6 then !c.qi.isEmpty
      else if p = 5 then !c.qc.isEmpty else if p = 4 then !c.qv.isEmpty else !(c.port p.toNat).isEmpty
    exec (.qpoll z d p) s = .next (wordEnd s (onThread s (fun t => t.setP d.toNat ready)) (z == 1) .seq) ∧
    (ready = true → exec (.qwait z p) s = .next (wordEnd s s (z == 1) .seq)) ∧
    (ready = false → ∃ h, exec (.qwait z p) s = halts (z == 1) s s (.qwait z p) (.wait h) ∧ h.kind = .port)) ∧
  (∀ z (d p : BitVec 3) s, p.toNat < 4 → plotNeighbour s s.turn p.toNat = none →
    ∀ i ∈ [Instr.qpoll z d p, .qwait z p], exec i s = halts (z == 1) s s i (.fault { cls := 10, sub := 1, addr := 0 })) ∧
  (∀ z (n : BitVec 4) s, let x := (coreAt s s.turn).slot n.toNat
    let put := fun (y : OmSlot) => Host.Outcome.next (wordEnd s (s.updCore s.turn (fun c => c.setSlot n.toNat y)) (z == 1) .seq)
    (x.state = .empty → x.releasing = false → exec (.omClaim z n) s = put { x with state := .filling, fill := false }) ∧
    ((x.state = .draining ∨ x.releasing = true) →
      ∃ h, exec (.omClaim z n) s = halts (z == 1) s s (.omClaim z n) (.wait h) ∧ h.kind = .slot) ∧
    ((x.state = .filling ∨ x.state = .ready) → x.releasing = false →
      exec (.omClaim z n) s = halts (z == 1) s s (.omClaim z n) (.fault { cls := 3, sub := 0, addr := 0 })) ∧
    (x.state = .ready → exec (.omRelease z n) s = put { x with state := .draining }) ∧
    (x.state = .filling → x.fill = true → x.releasing = false → exec (.omRelease z n) s = put { x with releasing := true }) ∧
    ((x.state = .empty ∨ x.state = .draining ∨ x.state = .filling ∧ (x.fill = false ∨ x.releasing = true)) →
      exec (.omRelease z n) s = halts (z == 1) s s (.omRelease z n) (.fault { cls := 3, sub := 1, addr := 0 }))) ∧
  (∀ s k n, n < 16 → ((coreAt (endDrain s k) k).slot n).state =
    if ((coreAt s k).slot n).state = .draining ∧ ∀ x ∈ (coreAt s k).cmds, x.readsSlot n = false then SlotState.empty
    else ((coreAt s k).slot n).state) ∧
  (∀ z d (n : BitVec 4) s, let x := (coreAt s s.turn).slot n.toNat
    yields s (if x.state = .ready then s.updCore s.turn (fun c => { c with edges := c.edges.join x.edges }) else s) (.omState z d n) (z == 1) d
      (match x.state with | .empty => 0 | .filling => if x.releasing then 3 else 1 | .ready => 2 | .draining => 3))

/-- eq.fence, chain, fmt.set and fmt.get complete with these results. eq.fence completes when no unfinished command of a
named engine is left, nor a posted receive buffer where the network engine is named, and takes the edges of the
completed commands of each; else it waits. chain completes always: with no unfinished command of e1, a posted buffer
counting as one of the network engine, it has no effect; else the last command that was dispatched to e1 becomes the
only one of e1 that the next command of e2 waits for, with its edges where it has completed already. fmt.set completes
with any value and stores it as it stands, and fmt.get completes and writes the entry. -/
def Obligations.EngineControlWords : Prop :=
  (∀ z (m : BitVec 4) s, let c := coreAt s s.turn
    let busy := (∃ x ∈ c.cmds, m.getLsbD x.eng.toNat = true) ∨ (m.getLsbD 3 = true ∧ c.posted ≠ [])
    (¬ busy → ∃ u, exec (.eqFence z m) s = .next (wordEnd s u (z == 1) .seq) ∧ theThread u = theThread s ∧ u.mem = s.mem ∧
      (coreAt u s.turn).edges = ([0, 1, 2, 3].filter (fun e => m.getLsbD e)).foldl
        (fun a e => a.join (mapGet EdgeSet.none c.doneEdges e)) c.edges) ∧
    (busy → ∃ h, exec (.eqFence z m) s = halts (z == 1) s s (.eqFence z m) (.wait h) ∧ h.kind = .eqFence)) ∧
  (∀ z (e g : BitVec 2) s, let c := coreAt s s.turn
    let unfinished := c.cmds ++ c.posted
    let last := mapGet 0 c.lastOrd e.toNat
    ((∀ x ∈ unfinished, x.eng ≠ e) → exec (.chain z e g) s = .next (wordEnd s s (z == 1) .seq)) ∧
    ((∃ x ∈ unfinished, x.eng = e) → exec (.chain z e g) s = .next (wordEnd s (s.updCore s.turn (fun d =>
      { d with chains := c.chains.filter (fun h => ¬ (h.src = e ∧ h.dst = g)) ++
          [⟨e, g, last, if ∃ x ∈ unfinished, x.ord = last then ⟨[], []⟩ else mapGet ⟨[], []⟩ c.doneEdges e.toNat⟩] })) (z == 1) .seq))) ∧
  (∀ z (n : BitVec 4) a s v u, reads a s v u →
    exec (.fmtSet z n a) s = .next (wordEnd s (onThread u (fun t => { t.touch 24 with fmt := mapSet 0 t.fmt n.toNat v })) (z == 1) .seq)) ∧
  (∀ z d (n : BitVec 4) s, yields s s (.fmtGet z d n) (z == 1) d (mapGet 0 (theThread s).fmt n.toNat))

/-- mfsr, mtsr, rdtime and rdcnt complete with these results. mfsr of each scalar register of R129 completes and writes it
to sd, and of each capability register to cd. mtsr of each register marked RW completes and writes it: HSAVE0, HSAVE1,
EPC, ESTATUS, the loop registers, LACT where it is legal, MBDST and STATUS.AE with reserved bits zero, VSEED and ESEED
(the low 32 bits, 0 stored as 1: which bits decide is the model's choice, log entry 121), HANDLER and HCAP; a write of
a register marked R, and one with a reserved bit or an illegal LACT, is an illegal instruction with SUB 7. rdtime
completes and writes the core's copy of package time, and rdcnt the counter, or 0 for a number above 7. -/
def Obligations.SystemRegisterWords : Prop :=
  (∀ (d : BitVec 6) s, let c := coreAt s s.turn; let t := c.th
    ∀ p ∈ ([(0x000, (if t.h then 1 else 0) + (if t.ae then 2 else 0) + BitVec.ofNat 64 (16 * t.prio.toNat)), (0x001, t.estatus),
      (0x002, t.epc), (0x003, t.cause), (0x004, t.faddr),
      (0x005, BitVec.ofNat 64 (coreX s.turn + 256 * coreY s.turn)),
      (0x008, BitVec.ofNat 64 (Max.max c.ptFloor ((s.pt : Int) + c.ptDev).toNat)),
      (0x009, t.vseed.setWidth 64), (0x00A, t.eseed.setWidth 64), (0x00B, t.mbdst),
      (0x00C, BitVec.ofNat 64 ((c.seq 0).toNat + (c.seq 1).toNat * 2 ^ 16 + (c.seq 2).toNat * 2 ^ 32 + (c.seq 3).toNat * 2 ^ 48)),
      (0x00D, 0x03333356), (0x00E, t.hsave0), (0x00F, t.hsave1), (0x020, t.lact.setWidth 64)] ++
      ([0, 1, 2, 3].flatMap (fun n => [(BitVec.ofNat 12 (0x010 + n), (t.loop n).cnt), (BitVec.ofNat 12 (0x014 + n), (t.loop n).itr),
        (BitVec.ofNat 12 (0x018 + n), (t.loop n).beg), (BitVec.ofNat 12 (0x01C + n), (t.loop n).last)])) : List (BitVec 12 × W64)),
      yields s s (.mfsr d p.1) false d p.2) ∧
  (∀ (d : BitVec 6) s m v, (coreAt s s.turn).bound = some m → (mcbAt s m).inv = some v →
    yields s s (.mfsr d 0x006) false d (BitVec.ofNat 64 ((coreX s.turn - v.ox) + 256 * (coreY s.turn - v.oy))) ∧
    yields s s (.mfsr d 0x007) false d
      (BitVec.ofNat 64 ((mcbAt s m).wlog.toNat + 16 * (mcbAt s m).hlog.toNat + 2 ^ 16 * v.ox + 2 ^ 24 * v.oy))) ∧
  (∀ (d : BitVec 6) s, d.toNat < 32 → let t := theThread s
    ∀ p ∈ ([(0x800, t.handler), (0x801, t.codecap), (0x802, t.captab), (0x803, t.objtab), (0x804, t.hcap)] : List (BitVec 12 × Cap)),
      exec (.mfsr d p.1) s = .next (wordEnd s (onThread s (fun t => t.setC d.toNat p.2)) false .seq)) ∧
  (∀ (a : BitVec 6) s v u, reads a s v u →
    let put := fun (n : BitVec 12) (f : Thread → Thread) => exec (.mtsr a n) s = .next (wordEnd s (onThread u f) false .seq)
    let refused := fun (n : BitVec 12) => exec (.mtsr a n) s = halts false s u (.mtsr a n) (.fault { cls := 2, sub := 7, addr := 0 })
    put 0x001 (fun t => { t with estatus := v }) ∧ put 0x002 (fun t => { t with epc := v }) ∧
    put 0x00E (fun t => { t with hsave0 := v }) ∧ put 0x00F (fun t => { t with hsave1 := v }) ∧
    put 0x009 (fun t => { t.touch 3 with vseed := if v.setWidth 32 = (0 : W32) then 1 else v.setWidth 32 }) ∧
    put 0x00A (fun t => { t.touch 24 with eseed := if v.setWidth 32 = (0 : W32) then 1 else v.setWidth 32 }) ∧
    (∀ n < 4, put (BitVec.ofNat 12 (0x010 + n)) (fun t => t.setLoop n { t.loop n with cnt := v }) ∧
      put (BitVec.ofNat 12 (0x014 + n)) (fun t => t.setLoop n { t.loop n with itr := v }) ∧
      put (BitVec.ofNat 12 (0x018 + n)) (fun t => t.setLoop n { t.loop n with beg := v }) ∧
      put (BitVec.ofNat 12 (0x01C + n)) (fun t => t.setLoop n { t.loop n with last := v })) ∧
    (v.toNat < 256 ∧ v.extractLsb' 2 2 = 0 → put 0x000 (fun t => { t with ae := v.getLsbD 1 })) ∧
    (¬ (v.toNat < 256 ∧ v.extractLsb' 2 2 = 0) → refused 0x000) ∧
    (v.toNat < 8192 ∧ v.extractLsb' 5 3 = 0 → put 0x00B (fun t => { t with mbdst := v })) ∧
    (¬ (v.toNat < 8192 ∧ v.extractLsb' 5 3 = 0) → refused 0x00B) ∧
    (lactLegal v = true → put 0x020 (fun t => { t with lact := lactStored v })) ∧ (lactLegal v = false → refused 0x020) ∧
    (∀ n ∈ [0x003, 0x004, 0x005, 0x006, 0x007, 0x008, 0x00C, (0x00D : BitVec 12)], refused n)) ∧
  (∀ (a : BitVec 6) s, a.toNat < 32 → let c := (theThread s).getC a.toNat
    exec (.mtsr a 0x800) s = .next (wordEnd s (onThread s (fun t => { t.touch 1 with handler := c })) false .seq) ∧
    exec (.mtsr a 0x804) s = .next (wordEnd s (onThread s (fun t => { t.touch 1 with hcap := c })) false .seq) ∧
    ∀ n ∈ [0x801, 0x802, (0x803 : BitVec 12)],
      exec (.mtsr a n) s = halts false s s (.mtsr a n) (.fault { cls := 2, sub := 7, addr := 0 })) ∧
  (∀ d s, yields s s (.rdtime d) false d (BitVec.ofNat 64 (Max.max (coreAt s s.turn).ptFloor ((s.pt : Int) + (coreAt s s.turn).ptDev).toNat))) ∧
  (∀ d a s n u, reads a s n u →
    yields s u (.rdcnt d a) false d (if n.toNat ≤ 7 then mapGet 0 (coreAt u u.turn).counters n.toNat else 0))

/-- Results of ld, ldx and ldc. A plain load through a capability that admits it, at the cursor plus the scaled immediate
or index, with no earlier write of the core before it and room where its destination is a port, reads its pieces (the
atomic blocks of its space) in ascending order. With one piece left that resolves, that nothing refuses and that
breaks no race rule, it writes the little-endian bytes at the resolved places to the destination, sign-extended for
the signed sizes and zero-extended for the others, and completes; with more left it reads the first and goes on with
the next in a later step. It changes no register but its destination, no byte, tag or full/empty bit. ldc reads 16
bytes and the granule's tag, cleared where the capability lacks LDCAP, into cd, and completes. That a split load reads
one piece a step is the model's reading (log entry 4). -/
def Obligations.LoadResults : Prop :=
  (∀ (a : BitVec 5) s s0 (sz : BitVec 3) ea off k r s1 (d : BitVec 6), sz ≠ 7 →
    let c := (theThread s).getC a.toNat; let n : Nat := 2 ^ (sz.toNat / 2)
    admits c permLD ea n → notBehind s0 c ea.toNat n → roomIn s d → readable s0 c off k r s1 →
    let bytes := (loadGot s0 s0.turn).1 ++ bytesAt s1 (whoNow s0).mcb c off k r
    let value := if sz.toNat % 2 = 0 then BitVec.ofInt 64 (BitVec.ofNat (8 * n) (leNat bytes)).toInt else BitVec.ofNat 64 (leNat bytes)
    let kept := fun (u : State) => theThread u = theThread s0 ∧ u.mem = s0.mem ∧ u.tags = s0.tags ∧ u.fe = s0.fe
    let result := fun (i : Instr) (z : BitVec 1) =>
      (leftToRead s0 c ea.toNat n = [(off, k)] → (loadGot s0 s0.turn).2 = none → ∃ u, kept u ∧ yields s u i (z == 1) d value) ∧
      (∀ p rest, leftToRead s0 c ea.toNat n = (off, k) :: p :: rest →
        ∃ u h, kept u ∧ exec i s = halts (z == 1) s u i (.wait h) ∧ h.kind = .pieces ∧ h.got = bytes)
    (∀ z (i : BitVec 10), s0 = s → ea = c.cur + i.toInt * n → result (.ld z d a sz i) z) ∧
    (∀ z b (x : BitVec 1) y, reads b s y s0 → ea = c.cur + y.toInt * (if x = 1 then (n : Int) else 1) →
      result (.ldx z d a b x sz) z)) ∧
  (∀ z (d a : BitVec 5) (i : BitVec 10) s r s1, let c := (theThread s).getC a.toNat; let ea := (c.cur : Int) + i.toInt * 16
    admits c permLD ea 16 → c.sp ≠ 6 → ea.toNat % 16 = 0 → notBehind s c ea.toNat 16 → readable s c ea.toNat 16 r s1 →
    ∃ u, exec (.ldc z d a i) s = .next (wordEnd s u (z == 1) .seq) ∧
      theThread u = (theThread s).setC d.toNat ⟨BitVec.ofNat 128 (leNat (bytesAt s1 (whoNow s).mcb c ea.toNat 16 r)),
        decide (r.sp < 2) && mapGet false s.tags (r.key / 16) && decide (c.perm &&& permLDCAP = permLDCAP)⟩ ∧
      u.mem = s.mem ∧ u.tags = s.tags ∧ u.fe = s.fe)

/-- Results and frame of st, stx and stc. A plain store through a capability that admits it (with PERSIST in PMEM), where
its pieces resolve, nothing refuses one and none breaks the race rule, completes. Where its far side answers and no
earlier write of the core to that space is on its way, its first piece performs: those bytes of the data, little-
endian, read back at the resolved place, the tag of every granule written is cleared, and, where no dirty bitmap is
configured, every byte outside them reads as before; the later pieces are on their way in ascending order. Else every
piece is on its way and memory stays. stc stores the 16 bytes and sets the granule's tag to that of the stored
capability. The thread's registers and every full/empty bit stay. That the first piece performs at once and the later
ones on their way, each in a step of its own, and that a store to a far space goes on its way, are the model's
readings (log entries 4 and 44). -/
def Obligations.StoreResults : Prop :=
  (∀ (a : BitVec 5) s s0 n ea off k r rest s1 (v : W64), let c := (theThread s).getC a.toNat; let bs := leBytes n v.toNat
    admits c (if c.sp = 3 then permST ||| permPERSIST else permST) ea n → c.sp ≠ 6 → writable s0 c ea.toNat n ((off, k, r) :: rest) s1 →
    let result := fun (i : Instr) (z : BitVec 1) => ∃ u, exec i s = .next (wordEnd s u (z == 1) .seq) ∧ theThread u = theThread s0 ∧
      u.fe = s0.fe ∧
      (flies s1 (whoNow s0) r k = true → u.mem = s0.mem ∧ u.tags = s0.tags ∧ sent s0 u ea.toNat bs ((off, k, r) :: rest)) ∧
      (flies s1 (whoNow s0) r k = false → sent s0 u ea.toNat bs rest ∧ onlyWrote s0 u c off k r ∧
        (s0.dirtyAt = none → memBytes u.mem r.key k = bs.take k) ∧
        ∀ g, mapGet false u.tags g = if g ∈ granulesOf r.key k then false else mapGet false s0.tags g)
    (∀ z d (sz : BitVec 2) (i : BitVec 10), reads d s v s0 → n = 2 ^ sz.toNat → ea = c.cur + i.toInt * n →
      result (.st z d a sz i) z) ∧
    (∀ z d b (x : BitVec 1) (w : BitVec 3) y s2, reads b s y s2 → reads d s2 v s0 → n = 2 ^ (w.toNat / 2) →
      ea = c.cur + y.toInt * (if x = 1 then (n : Int) else 1) → result (.stx z d a b x w) z)) ∧
  (∀ z (d a : BitVec 5) (i : BitVec 10) s s1 r s2, let c := (theThread s).getC a.toNat; let v := (theThread s).getC d.toNat
    let ea := (c.cur : Int) + i.toInt * 16
    admits c ((if v.tag then permST ||| permSTCAP else permST) ||| (if c.sp = 3 then permPERSIST else 0)) ea 16 → c.sp ≠ 6 →
    (v.tag = true → c.sp < 2) → ea.toNat % 16 = 0 → pendingWrite s c.obj ea.toNat 16 = false →
    behindHost s (whoNow s) c.sp = false → sysWhereNeeded s c → sysWhereNeeded s2 c →
    does (resolve (whoNow s) c.obj c.sp ea.toNat { write := true }) s r s2 →
    (v.tag = true → dirShared r.dir = true → v.perm &&& permSHARE = permSHARE) →
    does (resolve (whoNow s) c.obj c.sp ea.toNat { write := true }) s2 r s1 → unhindered s1 (whoNow s) .write (ea.toNat, 16, r) →
    raceFree s1 (whoNow s) (ea.toNat, 16, r) →
    ∃ u, exec (.stc z d a i) s = .next (wordEnd s u (z == 1) .seq) ∧ theThread u = theThread s ∧ u.fe = s.fe ∧
      (flies s1 (whoNow s) r 16 = true → u.mem = s.mem ∧ sent s u ea.toNat (leBytes 16 v.bits.toNat) [(ea.toNat, 16, r)]) ∧
      (flies s1 (whoNow s) r 16 = false → onlyWrote s u c ea.toNat 16 r ∧
        (s.dirtyAt = none → memBytes u.mem r.key 16 = leBytes 16 v.bits.toNat) ∧
        ∀ g, g ∉ granulesOf r.key 16 → mapGet false u.tags g = mapGet false s.tags g) ∧
      (r.sp < 2 → mapGet false u.tags (r.key / 16) = v.tag))

/-- A store that cannot perform enters the hoard log. A store whose page is not usable, or one to HOST behind an earlier
one in the log that nothing refuses, with room in the 32-entry hoard log, completes: its object offset, bytes and
capability stand in a new entry at the end of the log, and memory and the registers stay. With a full log it holds. -/
def Obligations.ParkedStoreEntersTheLog : Prop :=
  ∀ z d (a : BitVec 5) (sz : BitVec 2) (i : BitVec 10) s s0 v, let c := (theThread s).getC a.toNat; let n : Nat := 2 ^ sz.toNat
    let ea := (c.cur : Int) + i.toInt * n
    reads d s v s0 → admits c (if c.sp = 3 then permST ||| permPERSIST else permST) ea n → c.sp ≠ 6 → sysWhereNeeded s0 c →
    pendingWrite s0 c.obj ea.toNat n = false →
    let find := resolveStore (whoNow s0) c.obj c.sp { write := true } (atomPieces c.sp (atomFuel n) ea.toNat n)
    let parks := ∃ h s1, h.kind = .parked ∧ find.run s0 = .error (.wait h) s1
    let could := ∃ ps s1, does find s0 ps s1 ∧ ∀ p ∈ ps, unhindered s1 (whoNow s0) .write p ∧ raceFree s1 (whoNow s0) p
    (parks ∨ behindHost s0 (whoNow s0) c.sp = true ∧ could) →
    ((coreAt s0 s0.turn).hoard.length < 32 →
      ∃ u e, exec (.st z d a sz i) s = .next (wordEnd s u (z == 1) .seq) ∧
        (coreAt u s0.turn).hoard = (coreAt s0 s0.turn).hoard ++ [e] ∧ e.op = .store ∧ e.cap = c ∧ e.off = ea.toNat ∧
        e.data = leBytes n v.toNat ∧ u.mem = s0.mem ∧ theThread u = theThread s0) ∧
    ((coreAt s0 s0.turn).hoard.length = 32 →
      ∃ u g, exec (.st z d a sz i) s = halts (z == 1) s u (.st z d a sz i) (.wait g) ∧ g.kind = .logFull)

/-- The checks of a load and their order. ld, once its destination has room, through an untagged capability, or one whose
VER is not 1, raises the capability fault with SUB 0; else an offset outside 0 to 2^40 - 1 or outside the bounds
raises SUB 1; else a missing right SUB 2; else a reserved space SUB 3. FADDR is the offset (its low 40 bits for SUB 0
and a range fault, the first byte out of bounds for a bounds fault). Nothing of the word stays before them. -/
def Obligations.AccessFaults : Prop :=
  ∀ z d (a : BitVec 5) (sz : BitVec 3) (i : BitVec 10) s, sz ≠ 7 → roomIn s d → let c := (theThread s).getC a.toNat
    let n : Nat := 2 ^ (sz.toNat / 2); let ea := (c.cur : Int) + i.toInt * n
    let faults := fun sub addr => exec (.ld z d a sz i) s =
      halts (z == 1) s s (.ld z d a sz i) (.fault { cls := 0, sub := sub, addr := BitVec.ofNat 64 addr })
    let tagged := c.tag = true ∧ c.ver = 1
    let ranged := 0 ≤ ea ∧ ea < 2 ^ 40
    let bounded := c.lo ≤ ea.toNat ∧ ea.toNat + n ≤ c.hi
    (¬ tagged → faults 0 (ea % 2 ^ 40).toNat) ∧ (tagged → ¬ ranged → faults 1 (ea % 2 ^ 40).toNat) ∧
    (tagged → ranged → ea.toNat < c.lo ∨ c.hi ≤ ea.toNat → faults 1 ea.toNat) ∧
    (tagged → ranged → c.lo ≤ ea.toNat → ea.toNat < c.hi → c.hi < ea.toNat + n → faults 1 c.hi) ∧
    (tagged → ranged → bounded → c.perm &&& permLD ≠ permLD → faults 2 ea.toNat) ∧
    (tagged → ranged → bounded → c.perm &&& permLD = permLD → 6 < c.sp → faults 3 ea.toNat)

/-- A racing load of a GSRAM line. A plain load of a GSRAM line whose stamp names another agent of a bound invocation,
made since this invocation was bound, with no edge of the reading thread to the writer's region and no barrier
coverage of its arrivals, raises the memory-model exception, class 6 with SUB 0, whose FADDR is the offset of the
line's first byte; and one whose line has no stamp, a stamp of its own agent or of an external writer, or one that an
edge covers, is legal. -/
def Obligations.RaceFault : Prop :=
  (∀ z d (a : BitVec 5) (sz : BitVec 3) (i : BitVec 10) s r s1 st, sz ≠ 7 → let c := (theThread s).getC a.toNat
    let n : Nat := 2 ^ (sz.toNat / 2); let ea := (c.cur : Int) + i.toInt * n; let w := whoNow s
    roomIn s d → admits c permLD ea n → leftToRead s c ea.toNat n = [(ea.toNat, n)] → notBehind s c ea.toNat n →
    does (resolve w c.obj c.sp ea.toNat { write := false }) s r s1 → noFlights s1 r n → r.key / 64 = (r.key + n - 1) / 64 → keySpace r.key = 0 →
    (∀ e ∈ s1.hostDeny, overlaps e.1 e.2 r.key n = false) → silent s1 r.key n = false →
    mapFind s1.stamps (r.key / 64) = some st → st.agent ≠ w.agent → st.agent ≠ .external → w.bindings ≤ st.bindings →
    (∀ e ∈ w.edges.pairs, e.1 = st.agent → e.2 < st.region) →
    (∀ f, st.agent.family = some f → ∀ e ∈ w.edges.cover, e.1 = f.1 → e.2.1 = f.2 → e.2.2 ≤ st.arrivals) →
    exec (.ld z d a sz i) s = halts (z == 1) s s1 (.ld z d a sz i)
      (.fault { cls := 6, sub := 0, addr := BitVec.ofNat 64 (ea.toNat + r.key / 64 * 64 - r.key) })) ∧
  (∀ s w k n, (∀ l ∈ linesOf k n, ∀ st, mapFind s.stamps l = some st →
      st.agent = w.agent ∨ st.agent = .external ∨ st.bindings < w.bindings ∨ (∃ e ∈ w.edges.pairs, e.1 = st.agent ∧ st.region ≤ e.2)) →
    raceLine s w k n = none)

/-- Results of the full/empty forms. On an aligned GSRAM word that the form reaches, with every earlier write of the core
performed (fe.st does not ask for that) and no form before it at the controller: ld.fe and ld.ff of a full word write
its doubleword to sd and leave it empty or full; st.ef of an empty word, and fe.fill of any, store the doubleword and
leave it full; fe.clr leaves it empty and its bytes alone; fe.st writes the eight bits of the line, bit k for word k,
and changes nothing. No form changes another byte, but for the dirty bitmap where one is configured. Every other
word's bit stays, and each completes. ld.fe and ld.ff of an empty word and st.ef of a full one wait. The stores need
SYS in an object table. -/
def Obligations.FullEmptyResults : Prop :=
  ∀ z (a : BitVec 5) (i : BitVec 10) s s0 r s1, let c := (theThread s).getC a.toNat; let ea := (c.cur : Int) + i.toInt * 8
    c.sp = 0 → ea.toNat % 8 = 0 →
    let word := r.key / 8
    let value := BitVec.ofNat 64 (leNat (bytesAt s1 (whoNow s).mcb c ea.toNat 8 r))
    let alone := fun (u : State) => theThread u = theThread s0 ∧ u.mem = s0.mem ∧ u.tags = s0.tags
    let marked := fun (u : State) => theThread u = theThread s0 ∧ (s0.dirtyAt = none → u.mem = s0.mem) ∧ u.tags = s0.tags
    let bit := fun (u : State) (v : Bool) => ∀ n, feFull u n = if n = word then v else feFull s0 n
    let stored := fun (u : State) (v : W64) => theThread u = theThread s0 ∧ bit u true ∧ onlyWrote s0 u c ea.toNat 8 r ∧
      (s0.dirtyAt = none → memBytes u.mem r.key 8 = leBytes 8 v.toNat)
    let waits := fun (j : Instr) => ∃ h, exec j s = halts (z == 1) s s1 j (.wait h) ∧ h.kind = .flag ∧ h.flag = r.key
    let turn := fun (want : Bool) => feFull s1 word = want ∧ laterThanOthers s1 (reached s1 s.turn r.key) s.turn r.key want = false
    (∀ d, s0 = s → admits c (permLD ||| permFE) ea 8 → roomIn s d →
      (drained s → reaches s c ea.toNat 8 true r s1 →
        (turn true → ∃ u, marked u ∧ bit u false ∧ yields s u (.ldFe z d a i) (z == 1) d value) ∧
        (¬ turn true → waits (.ldFe z d a i))) ∧
      (drained s → reaches s c ea.toNat 8 false r s1 →
        (turn true → ∃ u, alone u ∧ bit u true ∧ yields s u (.ldFf z d a i) (z == 1) d value) ∧
        (¬ turn true → waits (.ldFf z d a i))) ∧
      (reaches s c ea.toNat 8 false r s1 → ∀ v : W64, (∀ k < 64, v.getLsbD k = (decide (k < 8) && feFull s (r.key / 64 * 8 + k))) →
        ∃ u, alone u ∧ u.fe = s.fe ∧ yields s u (.feSt z d a i) (z == 1) d v)) ∧
    (∀ d v, reads d s v s0 → admits c (permST ||| permFE) ea 8 → sysWhereNeeded s0 c → drained s0 → reaches s0 c ea.toNat 8 true r s1 →
      (turn false → ∃ u, exec (.stEf z d a i) s = .next (wordEnd s u (z == 1) .seq) ∧ stored u v) ∧
      (¬ turn false → waits (.stEf z d a i)) ∧
      (∃ u, exec (.feFill z d a i) s = .next (wordEnd s u (z == 1) .seq) ∧ stored u v)) ∧
    (s0 = s → admits c (permST ||| permFE) ea 8 → sysWhereNeeded s c → drained s → reaches s c ea.toNat 8 true r s1 →
      ∃ u, exec (.feClr z a i) s = .next (wordEnd s u (z == 1) .seq) ∧ marked u ∧ bit u false)

/-- Results of amo, amo.cas, red and pref. On an aligned place that a space admits and the form reaches, whose far side
answers: amo replaces the value m by op(m, b), modulo its width, and writes the old value to sd, sign-extended for .w;
amo.cas stores b only where m is the expected value, and writes m in each case; red replaces m by op(m, b) and writes
no register, but that one through a reduction window enters the fabric and one behind an earlier write of the core to
a far space goes on its way. Each completes, and every byte outside the place stays. pref completes always and changes
no register, no byte and no full/empty bit. That a write to a far space goes on its way, and in steps of its own, is
the model's reading (log entries 4 and 44). -/
def Obligations.AtomicResults : Prop :=
  (∀ z (a : BitVec 5) (b : BitVec 6) (w : BitVec 1) (op : BitVec 4) s y s0 r s1, let c := (theThread s).getC a.toNat
    let n : Nat := if w = 1 then 8 else 4
    let m := leNat (bytesAt s1 (whoNow s0).mcb c c.cur n r)
    let sint := fun (x : Nat) => (BitVec.ofNat (8 * n) x).toInt
    let v := y.toNat % 2 ^ (8 * n)
    let new := ([(m + v) % 2 ^ (8 * n), m &&& v, m ||| v, m ^^^ v, v, if sint v < sint m then v else m,
      if sint m < sint v then v else m, Min.min m v, Max.max m v, 0, faddBits (w == 1) m v].getD op.toNat 0)
    let placed := fun (u : State) (x : Nat) => theThread u = theThread s0 ∧ u.fe = s0.fe ∧ onlyWrote s0 u c c.cur n r ∧
      (s0.dirtyAt = none → leNat (memBytes u.mem r.key n) = x)
    admits c permAMO c.cur n → c.cur % n = 0 → sysWhereNeeded s0 c → reaches s0 c c.cur n true r s1 → farAnswers s1 (c.cur, n, r) →
    (∀ d, reads b s y s0 → op.toNat < 9 → (c.sp = 0 ∨ c.sp = 1 ∨ c.sp = 4 ∨ c.sp = 5 ∨ c.sp = 2 ∧ (op = 0 ∨ op = 4)) →
      (loadGot s0 s0.turn).1 = [] → notBehind s0 c c.cur n → behindHost s0 (whoNow s0) c.sp = false → noFlights s1 r n → roomIn s d →
      ∃ u, placed u new ∧ yields s u (.amo z d a b w op) (z == 1) d (BitVec.ofInt 64 (sint m))) ∧
    (∀ (d : BitVec 6) e s2, reads d s e s2 → (theThread s2).getC a.toNat = c → reads b s2 y s0 → c.sp < 6 → c.sp ≠ 3 →
      (loadGot s0 s0.turn).1 = [] → notBehind s0 c c.cur n → behindHost s0 (whoNow s0) c.sp = false → noFlights s1 r n →
      ∃ u, (theThread u = theThread s0 ∧ u.fe = s0.fe ∧ onlyWrote s0 u c c.cur n r ∧
          (m ≠ e.toNat % 2 ^ (8 * n) → u.mem = s0.mem) ∧
          (s0.dirtyAt = none → m = e.toNat % 2 ^ (8 * n) → leNat (memBytes u.mem r.key n) = v)) ∧
        yields s u (.amoCas z d a b w) (z == 1) d (BitVec.ofInt 64 (sint m))) ∧
    (reads b s y s0 → op.toNat < 11 → op ≠ 4 → op ≠ 9 → c.sp = 0 ∨ c.sp = 1 ∨ c.sp = 4 ∨ c.sp = 5 →
      ∃ u, exec (.red z a b w op) s = .next (wordEnd s u (z == 1) .seq) ∧ theThread u = theThread s0 ∧
        (c.sp ≠ 5 → flies s1 (whoNow s0) r n = false → placed u new) ∧
        (c.sp ≠ 5 → flies s1 (whoNow s0) r n = true → u.mem = s0.mem ∧ sent s0 u c.cur (leBytes n v) [(c.cur, n, r)]) ∧
        (c.sp = 5 → u.mem = s0.mem ∧ ∃ x, u.switch = s0.switch ++ [x] ∧ x.first.place = r ∧ x.op = op ∧ x.wide = (w == 1) ∧
          x.operand = BitVec.ofNat 64 v))) ∧
  (∀ z a i s, ∃ u, exec (.pref z a i) s = .next (wordEnd s u (z == 1) .seq) ∧ theThread u = theThread s ∧ u.mem = s.mem ∧
    u.tags = s.tags ∧ u.fe = s.fe)

/-- Results of fence, pbar and lwait. fence with a release part waits until every earlier write of its core in the part's
own memory has performed, and at system scope for every write and contribution of the core to be acknowledged, and
then closes the core's region; with an acquire part alone it completes at once. No fence changes a register or a byte.
pbar completes when no PMEM store of the thread is still to perform, and the PMEM port answers where the thread has
stored there; every store of the thread is then durable; while a store is still to perform, or the port is silent, it
waits. lwait through a tagged SYS capability of GSRAM whose object is a block's object table is a fence.ar of device
scope and then waits until the local package time is beyond that block's HORIZON, as first read, plus 16 ns, and
completes then; held at that wait, it reads HORIZON no more. -/
def Obligations.FencesComplete : Prop :=
  (∀ z (k : BitVec 2) (sc : BitVec 3) s, k ≠ 0 → let c := coreAt s s.turn
    let far := c.flight ≠ [] ∨ ∃ e ∈ s.switch, e.ofCore s.turn = true
    ((k = 1 ∨ drained s ∧ (4 ≤ sc.toNat → ¬ far)) → ∃ u, exec (.fence z k sc) s = .next (wordEnd s u (z == 1) .seq) ∧
      theThread u = theThread s ∧ u.mem = s.mem ∧ u.fe = s.fe ∧ (coreAt u s.turn).region = c.region + (if k = 1 then 0 else 1) ∧
      (k = 3 → 1 ≤ sc.toNat → (coreAt u s.turn).recorded = (coreAt u s.turn).edges)) ∧
    (k ≠ 1 → logDrained s s.turn = false → ∃ h, exec (.fence z k sc) s = halts (z == 1) s s (.fence z k sc) (.wait h) ∧ h.kind = .hoarded) ∧
    (k ≠ 1 → drained s → 4 ≤ sc.toNat → far →
      ∃ h, exec (.fence z k sc) s = halts (z == 1) s s (.fence z k sc) (.wait h) ∧ h.kind = .fence)) ∧
  (∀ z s, let ahead := (∃ h ∈ (coreAt s s.turn).hoard, h.cap.sp = 3 ∧ h.who.agent.isThread = true) ∨
      ∃ f ∈ (coreAt s s.turn).flight, f.place.sp = 3
    let mute := (coreAt s s.turn).pmemDirty = true ∧ ∃ d ∈ s.mute, keySpace d.1 = 3 ∧ s.pt < d.2.2
    (¬ ahead → ¬ mute → ∃ u, exec (.pbar z) s = .next (wordEnd s u (z == 1) .seq) ∧ theThread u = theThread s ∧ u.mem = s.mem ∧
      u.fe = s.fe ∧ (coreAt u s.turn).pmemDirty = false ∧
      ∀ b e, mapFind u.pmem b = some e → ∀ x ∈ e.2, ∀ n, x.1 ≠ .thread s.turn n) ∧
    (ahead ∨ mute → ∃ g, exec (.pbar z) s = halts (z == 1) s s (.pbar z) (.wait g) ∧ g.kind = .fence)) ∧
  (∀ z (a : BitVec 5) s, let c := (theThread s).getC a.toNat
    let s1 := fenceRelease (fenceAcquire s s.turn 3) s.turn 3
    let s1' := s1.updCore s.turn (fun c => { c with recorded := c.edges })
    c.tag = true → c.ver = 1 → c.perm &&& permSYS = permSYS → c.sp = 0 →
    let done := ∃ u, exec (.lwait z a) s = .next (wordEnd s u (z == 1) .seq) ∧ theThread u = theThread s ∧ u.mem = s.mem
    let waits := fun (u : State) (e : Nat) => ∃ h, exec (.lwait z a) s = halts (z == 1) s u (.lwait z a) (.wait h) ∧ h.kind = .lease ∧ h.until_ = e
    (∀ m r s2, heldLease s s.turn = none → drained s →
      does (resolve (whoNow s1') c.obj 0 c.lo { write := false }) s1' r s2 → m ∈ s2.mcbs →
      m.2.v = true → physKey 0 0 m.2.otPhys = r.key → (∀ e ∈ s2.mcbs, e.2.v = true → physKey 0 0 e.2.otPhys = r.key → e = m) →
      (m.2.horizon.toNat + 16 < localPt s s.turn → done) ∧
      (localPt s s.turn ≤ m.2.horizon.toNat + 16 → waits s2 (m.2.horizon.toNat + 16))) ∧
    (∀ e, heldLease s s.turn = some e → (e < localPt s s.turn → done) ∧ (localPt s s.turn ≤ e → waits s e)))

/-- Results of the barrier words. On an aligned GSRAM line that the form reaches, with SYS in an object table: bar.init
with a count of 1 to 65,535 writes a line of phase 0 with no arrivals, with the epoch above that of a barrier that
stood there and else 0, and tracks it. bar.arrive at a valid line, which the core tracks at its epoch and phase
without having arrived or does not track, counts one more arrival, or, as the last, sets the count to 0 and the phase
one higher. Both wait for every earlier write of the core. bar.wait after the core's arrival completes and bar.test
writes true when the phase is one higher, and then the core has not arrived in the new phase; at the same phase
bar.wait waits and bar.test writes false. Other registers stay. -/
def Obligations.BarrierResults : Prop :=
  ∀ z (a : BitVec 5) s s0 r s1, let c := (theThread s).getC a.toNat; let k := s.turn; let tab := (mcbAt s0 (whoNow s0).mcb).otPhys
    let old := BitVec.ofNat 512 (leNat (bytesAt s1 (whoNow s0).mcb c c.cur 64 r))
    let line := fun (epoch phase expect arrived : Nat) => 0x5A425252 + epoch * 2 ^ 32 + phase * 2 ^ 48 + expect * 2 ^ 64 + arrived * 2 ^ 80
    let became := fun (u : State) (n : Nat) => theThread u = theThread s0 ∧ onlyWrote s0 u c c.cur 64 r ∧
      (s0.dirtyAt = none → leNat (memBytes u.mem r.key 64) = n)
    c.sp = 0 → c.cur % 64 = 0 →
    (∀ (b : BitVec 6) y, reads b s y s0 → admits c (permST ||| permFE) c.cur 64 → sysWhereNeeded s0 c → reaches s0 c c.cur 64 true r s1 →
      drained s0 → 1 ≤ y.toNat → y.toNat ≤ 65535 →
      ∃ u, exec (.barInit z a b) s = .next (wordEnd s u (z == 1) .seq) ∧
        let e := if barMagic old = 0x5A425252 ∧ old.extractLsb' 96 416 = 0 then (barEpoch old + 1).toNat else 0
        became u (line e 0 y.toNat 0) ∧ btFind (coreAt u k) tab c.obj c.cur = some ⟨tab, c.obj, c.cur, BitVec.ofNat 16 e, 0, false⟩) ∧
    (s0 = s → admits c permFE c.cur 64 → sysWhereNeeded s c → reaches s c c.cur 64 true r s1 → drained s → barValid old = true →
      (∀ t, btFind (coreAt s1 k) tab c.obj c.cur = some t → t.arrived = false ∧ t.epoch = barEpoch old ∧ t.phase = barPhase old) →
      ∃ u, exec (.barArrive z a) s = .next (wordEnd s u (z == 1) .seq) ∧
        became u (if barArrived old + 1 = barExpect old
          then line (barEpoch old).toNat (barPhase old + 1).toNat (barExpect old) 0
          else line (barEpoch old).toNat (barPhase old).toNat (barExpect old) (barArrived old + 1)) ∧
        btFind (coreAt u k) tab c.obj c.cur = some ⟨tab, c.obj, c.cur, barEpoch old, barPhase old, true⟩) ∧
    (∀ t (d : BitVec 3), s0 = s → admits c permFE c.cur 64 → pendingWrite s c.obj c.cur 64 = false →
      does (resolve (whoNow s) c.obj c.sp c.cur { write := false }) s r s1 → unhindered s1 (whoNow s) .sync (c.cur, 64, r) →
      barValid old = true → btFind (coreAt s1 k) tab c.obj c.cur = some t → t.arrived = true → t.epoch = barEpoch old →
      (barPhase old = t.phase + 1 →
        (∃ u, exec (.barWait z a) s = .next (wordEnd s u (z == 1) .seq) ∧ theThread u = theThread s ∧ u.mem = s.mem ∧
          btFind (coreAt u k) tab c.obj c.cur = some { t with phase := barPhase old, arrived := false }) ∧
        (∃ u, exec (.barTest z d a) s = .next (wordEnd s u (z == 1) .seq) ∧ theThread u = (theThread s).setP d.toNat true ∧ u.mem = s.mem)) ∧
      (barPhase old = t.phase →
        (∃ h, exec (.barWait z a) s = halts (z == 1) s s1 (.barWait z a) (.wait h) ∧ h.kind = .barrier ∧ h.flag = r.key) ∧
        (∃ u, exec (.barTest z d a) s = .next (wordEnd s u (z == 1) .seq) ∧ theThread u = (theThread s).setP d.toNat false ∧ u.mem = s.mem)))

/-- Results of gen.alloc and gen.pass. gen.alloc with a valid GSRAM or HBM generation region as entry 255 of the
capability table (LD and ST, length a multiple of 256) writes, for a positive size that fits in the present slab past
its bump pointer, a capability of the region with exact bounds that hold at least the size, lie in the slab, and start
at or beyond the pointer, which then stands at their end; a size of 0, or one that does not fit, writes the null
capability. gen.pass, where no core of the plot is three generations behind and every earlier write of the core has
performed, in every space, moves the core to the next generation and closes its region; the slab's bump pointer
returns to 0 once every core of the plot has passed it. -/
def Obligations.GenerationWords : Prop :=
  (∀ z (d : BitVec 5) (a : BitVec 6) s s0 y g s1 m v, reads a s y s0 → does (loadEntry (whoNow s0) s0.turn 255) s0 (g, none) s1 →
    g.tag = true → g.ver = 1 → g.sp < 2 → g.perm &&& 3 = 3 → (g.hi - g.lo) % 256 = 0 →
    (coreAt s1 s0.turn).bound = some m → (mcbAt s1 m).inv = some v → s1.turn = s0.turn → let n := (coreAt s1 s0.turn).gen % 4
    let sl := (g.hi - g.lo) / 4
    ((y = 0 ∨ slabPlace g n (mapGet 0 v.bump n) (roundUp y.toNat 64) = none) →
      ∃ u, exec (.genAlloc z d a) s = .next (wordEnd s u (z == 1) .seq) ∧ theThread u = (theThread s1).setC d.toNat ⟨0, false⟩ ∧
        (mcbAt u m).inv = some v) ∧
    (∀ e b l, y ≠ 0 → slabPlace g n (mapGet 0 v.bump n) (roundUp y.toNat 64) = some (e, b, l) →
      ∃ u r w, exec (.genAlloc z d a) s = .next (wordEnd s u (z == 1) .seq) ∧ theThread u = (theThread s1).setC d.toNat r ∧
        (mcbAt u m).inv = some w ∧ r.tag = true ∧ r.perm = g.perm ∧ r.obj = g.obj ∧ r.sp = g.sp ∧ r.lo = b ∧ r.hi = b + l ∧
        y.toNat ≤ l ∧ g.lo + n * sl + mapGet 0 v.bump n ≤ r.lo ∧ r.hi ≤ g.lo + (n + 1) * sl ∧
        mapGet 0 w.bump n = r.hi - (g.lo + n * sl))) ∧
  (∀ z s m v, (coreAt s s.turn).bound = some m → (mcbAt s m).inv = some v → drained s →
    (coreAt s s.turn).flight = [] → (∀ e ∈ s.switch, e.ofCore s.turn = false) →
    let n := (coreAt s s.turn).gen
    (∀ j ∈ (mcbAt s m).plot, n < (coreAt s j).gen + 3) →
    ∃ u w, exec (.genPass z) s = .next (wordEnd s u (z == 1) .seq) ∧ theThread u = theThread s ∧ u.mem = s.mem ∧
      (coreAt u s.turn).gen = n + 1 ∧ (coreAt u s.turn).region = (coreAt s s.turn).region + 1 ∧ (mcbAt u m).inv = some w ∧
      ((∀ j ∈ (mcbAt s m).plot, j = s.turn ∨ n < (coreAt s j).gen) → mapGet 0 w.bump (n % 4) = 0) ∧
      ((∃ j ∈ (mcbAt s m).plot, j ≠ s.turn ∧ (coreAt s j).gen ≤ n) → w.bump = v.bump))

/-- Result of task.post. task.post through a tagged GSRAM capability with LD and ENG, at a multiple of 64 within its
bounds, with fewer than 512 records held and every earlier write of the core performed, reads the 64-byte record and
adds it at the end of the plot's records under the next number, and closes the poster's region; the thread's registers
stay. The record is held with FSEL and EPD's selector resolved: one with L = 1 names entry N plus the completed
iterations of the poster's active loop M, modulo 16, one with L = 0 entry N, and the entries that they name are read
then; every other bit is as in memory. With 512 records held it waits. Each of the five faults of R168 is raised
precisely with no record posted (the subcode of a misaligned CUR is the model's choice: the docstring of
execTaskPost). -/
def Obligations.TaskPostResult : Prop :=
  ∀ z (a : BitVec 5) s m v r s1, let c := (theThread s).getC a.toNat; let i := Instr.taskPost z a
    let faults := fun sub addr => exec i s = halts (z == 1) s s i (.fault { cls := 0, sub := sub, addr := BitVec.ofNat 64 addr })
    let valid := c.tag = true ∧ c.ver = 1
    let rights := c.perm &&& (permLD ||| permENG) = permLD ||| permENG
    (¬ valid → faults 0 c.cur) ∧ (valid → ¬ rights → faults 2 c.cur) ∧ (valid → rights → c.sp ≠ 0 → faults 3 c.cur) ∧
    (valid → rights → c.sp = 0 → c.cur % 64 ≠ 0 → faults 7 c.cur) ∧
    (valid → rights → c.sp = 0 → c.cur % 64 = 0 → c.cur < c.lo → faults 1 c.cur) ∧
    (valid → rights → c.sp = 0 → c.cur % 64 = 0 → c.lo ≤ c.cur → c.hi < c.cur + 64 → faults 1 (Max.max c.cur c.hi)) ∧
    (valid → rights → c.sp = 0 → c.cur % 64 = 0 → c.lo ≤ c.cur → c.cur + 64 ≤ c.hi → (coreAt s s.turn).bound = some m →
      (mcbAt s m).inv = some v →
      (512 ≤ v.tasks.length → ∃ h, exec i s = halts (z == 1) s s i (.wait h) ∧ h.kind = .tasks) ∧
      (v.tasks.length < 512 → drained s →
      does (resolve (whoNow s) c.obj 0 c.cur { write := false }) s r s1 → unhindered s1 (whoNow s) .read (c.cur, 64, r) →
      ∃ u w x, exec i s = .next (wordEnd s u (z == 1) .seq) ∧ theThread u = theThread s ∧ u.mem = s.mem ∧ (mcbAt u m).inv = some w ∧
        w.tasks = v.tasks ++ [x] ∧ x.n = v.nextTask ∧ w.nextTask = v.nextTask + 1 ∧ x.core = s.turn ∧
        (let bits := BitVec.ofNat 512 (leNat (bytesAt s1 (whoNow s).mcb c c.cur 64 r));
          let entry := fun (at_ : Nat) => let n := (bits.extractLsb' at_ 4).toNat; let l := (bits.extractLsb' (at_ + 4) 2).toNat
            if bits.getLsbD (at_ + 6) then (n + if (theThread s).active l then ((theThread s).loop l).itr.toNat else 0) % 16 else n
          let selector := fun (at_ : Nat) => if bits.getLsbD (at_ + 6) then BitVec.ofNat 7 (entry at_) else bits.extractLsb' at_ 7
          x.bits.extractLsb' 32 7 = selector 32 ∧ x.bits.extractLsb' 448 7 = selector 448 ∧
          (∀ j, (j < 32 ∨ 39 ≤ j) → (j < 448 ∨ 455 ≤ j) → x.bits.getLsbD j = bits.getLsbD j) ∧
          x.fentry = mapGet 0 (theThread s).fmt (entry 32) ∧ x.eentry = mapGet 0 (theThread s).fmt (entry 448)) ∧
        (coreAt u s.turn).region = (coreAt s s.turn).region + 1))

/-- Vector words queue their command. Every vector word without operands to capture completes, where the vector engine's
queue has room, by queueing its command; the broadcast, window, index and move words capture their scalar, the memory
words their scalar (and the next one for the strided forms) and their capability, which must be tagged and hold ENG,
and the conversions the entry of their selector. -/
def Obligations.VectorWordsDispatch : Prop :=
  ∀ s z, room s 0 →
    (∀ (d a b : BitVec 7) (f : BitVec 1), ∀ i ∈ [Instr.vadd z d a b f, .vsub z d a b f, .vmul z d a b f, .vfma z d a b f,
      .vfms z d a b f, .vfnma z d a b f, .vmin z d a b f, .vmax z d a b f, .vabs z d a f, .vneg z d a f, .vrcp z d a f,
      .vrsqrt z d a f, .vsqrt z d a f, .vexp2 z d a f, .vlog2 z d a f, .vtanh z d a f, .vdiv z d a b f, .viadd z d a b f,
      .visub z d a b f, .vimul z d a b f, .vimulh z d a b f, .vand z d a b f, .vor z d a b f, .vxor z d a b f, .vshl z d a b f,
      .vshr z d a b f, .vsra z d a b f, .vimin z d a b f, .vimax z d a b f, .vsel z d a b, .vperm z d a b f, .vrot z d a b f,
      .vlane z d f, .vredsum z d a b f, .vredmax z d a b f, .vredmin z d a b f, .vscan z d a b f], dispatches s s z 0 i [] [] []) ∧
    (∀ (c : BitVec 4) (p q r : BitVec 3) (d a b : BitVec 7) (f : BitVec 1) (j : BitVec 8),
      ∀ i ∈ [Instr.vcmp z c p a b f, .vicmp z c p a b f, .mand z p q r, .mor z p q r, .mnot z p q, .mpop z d q, .vmovq z d j],
        dispatches s s z 0 i [] [] []) ∧
    (∀ (n b : BitVec 6) (d l : BitVec 7) (k : BitVec 3) (h f : BitVec 1) y s1, reads n s y s1 →
      ∀ i ∈ [Instr.vbcast z d n h f, .vwin z k n b, .vxset z d n k f, .vmovs z d n l], dispatches s s1 z 0 i [y] [] []) ∧
    (∀ (d : BitVec 7) (c : BitVec 5) (n : BitVec 6) (k : BitVec 3) (f : BitVec 1) x s1, reads n s x s1 →
      (operand ((theThread s1).getC c.toNat) 0 [0, 1, 2, 3, 4, 5] →
        ∀ i ∈ [Instr.vld z d c n k f, .vst z d c n k f, .vldx z d c n k f, .vstx z d c n k f],
          dispatches s s1 z 0 i [x, 0] [(theThread s1).getC c.toNat] []) ∧
      (∀ y s2, reads (n + 1) s1 y s2 → let p := (theThread s2).getC c.toNat
        operand p 0 [0, 1, 2, 3, 4, 5] → ∀ i ∈ [Instr.vldS z d c n k f, .vstS z d c n k f], dispatches s s2 z 0 i [x, y] [p] [])) ∧
    (∀ (d a x : BitVec 7) (f : BitVec 1), let t := theThread s; let e := t.getFmt (t.selectFmt x)
      fieldNat e 40 24 = 0 → fieldNat e 24 9 = 0 → entRm e ≤ 5 → fmtOf (entA e) ≠ none → fmtOf (entO e) ≠ none →
      entA e ≠ 0x23 → entO e ≠ 0x23 →
      dispatches s s z 0 (.vcvt z d a x f) [] [] [e] ∧
      (wide32 (entA e) = true → narrow (entO e) = true → a.toNat ≤ 120 - 32 / fmtWidth (entO e) →
        dispatches s s z 0 (.vpack z d a x f) [] [] [e]) ∧
      (narrow (entA e) = true → wide32 (entO e) = true → d.toNat ≤ 120 - 32 / fmtWidth (entA e) →
        dispatches s s z 0 (.vunpack z d a x f) [] [] [e]))

/-- Matrix words queue their command. With room in the matrix engine's queue and operands that pass the checks of
dispatch, each matrix word completes by queueing its command with the captured scalars, capabilities and format
entries: mma and mma.z with a row count of 1 to 4,096 (or s0), a valid entry and two slots that are READY or being
filled; acc.clr and dtab.inv always; acc.rd, acc.wr and dtab.ld with an aligned capability; mseg with a multiple of 32
from 32 to 4,096; epi and epi.v with a legal descriptor. -/
def Obligations.MatrixWordsDispatch : Prop :=
  ∀ s z, room s 1 → let t := theThread s
    let entry := fun (t : Thread) (f : BitVec 7) (n : BitVec 1) =>
      let e := t.getFmt (t.selectFmt f); entryValid e = true ∧ (entAcc e = 2 → n = 0)
    let filled := fun (s : State) (n : BitVec 4) => let x := (coreAt s s.turn).slot n.toNat
      x.state = .ready ∨ x.state = .filling ∧ x.releasing = false ∧ x.fill = true
    (∀ (n : BitVec 1) (a b : BitVec 4) f (k : BitVec 6) v s1, reads k s v s1 → (k = 0 ∨ 1 ≤ v.toNat ∧ v.toNat ≤ 4096) →
      entry (theThread s1) f n → filled s1 a → filled s1 b → ∀ i ∈ [Instr.mma z n a b f k, .mmaZ z n a b f k],
        dispatches s s1 z 1 i [v] [] [(theThread s1).getFmt ((theThread s1).selectFmt f)]) ∧
    (∀ n, dispatches s s z 1 (.accClr z n) [] [] []) ∧ (∀ d, dispatches s s z 1 (.dtabInv z d) [] [] []) ∧
    (∀ n d (c : BitVec 5) q, let p := t.getC c.toNat
      p.cur % 64 = 0 →
      (operand p (if p.sp = 3 then permST ||| permPERSIST else permST) [0, 1, 2, 3, 4, 5] → dispatches s s z 1 (.accRd z n c q) [] [p] []) ∧
      (operand p permLD [0, 1, 2, 3, 4, 5] → dispatches s s z 1 (.accWr z n c q) [] [p] []) ∧
      (operand p permLD [0, 1] → dispatches s s z 1 (.dtabLd z d c q) [] [p] [])) ∧
    (∀ (k : BitVec 6) v s1, reads k s v s1 → v.toNat % 32 = 0 → 32 ≤ v.toNat → v.toNat ≤ 4096 →
      dispatches s s1 z 1 (.mseg z k) [v] [] []) ∧
    (∀ (n : BitVec 1) (o : BitVec 4) (c : BitVec 5) (k : BitVec 6) q v s1 w s2, reads k s v s1 → reads (k + 1) s1 w s2 → epdOk v = true →
      (v.getLsbD 15 = false → o = 0) → (v.getLsbD 15 = true → filled s2 o) → entry (theThread s2) (field v 0 7) n →
      let t2 := theThread s2; let e := t2.getFmt (t2.selectFmt (field v 0 7))
      (w.toNat % 16 = 0 → epdCols v * outBytes e ≤ w.toNat → operand (t2.getC c.toNat) 0 [0, 1, 2, 3, 4, 5] →
        dispatches s s2 z 1 (.epi z n o c k q) [v, w] [t2.getC c.toNat] [e]) ∧
      (w.toNat ≤ 480 → dispatches s s2 z 1 (.epiV z n o k q) [v, w] [] [e]))

/-- The eight copy words complete by queueing their command. With room in the copy engine's queue, a control word whose
reserved bits are zero, a length below 2^32, a destination with ST and ENG (and PERSIST in PMEM) and a source with LD
and ENG, each of cp, cp.2d, cp.om, cp.gat, cp.set, cp.z, cp.x and cp.ck completes by queueing its command. cp takes
its registers in place of one side by DIR, with that side's capability field zero, a whole number of registers and a
register range that fits; cp.gat takes an element size of 1 to 4,096; cp.om needs a claimed slot without a fill and a
length of at most 16,384, and marks the slot's fill. A control word, shape or length out of range is an illegal
instruction with SUB 8, and the misuses of cp.om raise SUB 2, 3 and 4 of class 3. The order of the checks is the
model's reading (log entry 20). -/
def Obligations.CopyWordsDispatch : Prop :=
  (∀ s z (d e : BitVec 5) (n c : BitVec 6) l s1 w s2, room s 2 → reads n s l s1 → reads c s1 w s2 →
    let cd := (theThread s2).getC d.toNat; let ce := (theThread s2).getC e.toNat
    let dst := operand cd (if cd.sp = 3 then permST ||| permPERSIST else permST) [0, 1, 2, 3, 4, 5]
    let src := operand ce permLD [0, 1, 2, 3, 4, 5]
    let short := l.toNat < 2 ^ 32
    let dir := fieldNat w 2 2
    let illegal := fun (i : Instr) => exec i s = halts (z == 1) s s2 i (.fault { cls := 2, sub := 8, addr := 0 })
    let cpOk := w &&& ~~~0x1FF000D = 0 ∧ dir ≠ 3 ∧ short ∧ (if dir = 1 then d = 0 else d ≠ 0) ∧ (if dir = 2 then e = 0 else e ≠ 0) ∧
      (if dir = 0 then fieldNat w 16 9 = 0 else l.toNat % 512 = 0 ∧ fieldNat w 16 9 + l.toNat / 512 ≤ 512)
    let gatOk := w &&& ~~~0xFF03 = 0 ∧ fieldNat l 45 19 = 0 ∧ 1 ≤ fieldNat l 32 13 ∧ fieldNat l 32 13 ≤ 4096
    (cpOk → (dir ≠ 1 → dst) → (dir ≠ 2 → src) → dispatches s s2 z 2 (.cp z d e n c) [w, l] [cd, ce] []) ∧
    (gatOk → dst → src → dispatches s s2 z 2 (.cpGat z d e n c) [w, l] [cd, ce] []) ∧
    (w.toNat < 2 ∧ short → dst → src → dispatches s s2 z 2 (.cpZ z d e n c) [w, l] [cd, ce] []) ∧
    (w.toNat < 4 ∧ short → dst → src → dispatches s s2 z 2 (.cpX z d e n c) [w, l] [cd, ce] []) ∧
    (w &&& ~~~0xFF03 = 0 ∧ short → dst → src → dispatches s s2 z 2 (.cpCk z d e n c) [w, l] [cd, ce] []) ∧
    (¬ cpOk → illegal (.cp z d e n c)) ∧ (¬ gatOk → illegal (.cpGat z d e n c)) ∧
    (¬ (w.toNat < 2 ∧ short) → illegal (.cpZ z d e n c)) ∧ (¬ (w.toNat < 4 ∧ short) → illegal (.cpX z d e n c)) ∧
    (¬ (w &&& ~~~0xFF03 = 0 ∧ short) → illegal (.cpCk z d e n c)) ∧
    (∀ o : BitVec 4, let x := (coreAt s2 s2.turn).slot o.toNat; let i := Instr.cpOm z o e n c
      let misuse := fun sub => exec i s = halts (z == 1) s s2 i (.fault { cls := 3, sub := sub, addr := 0 })
      let claimed := x.state = .filling ∧ x.releasing = false
      (¬ (w.toNat < 2 ∧ short) → illegal i) ∧
      (w.toNat < 2 ∧ short → src →
        (claimed → x.fill = false → l.toNat ≤ 16384 → dispatches s (s2.updCore s2.turn (fun k => k.setSlot o.toNat { x with fill := true })) z 2 i
          [w, l] [Cap.null, ce] []) ∧
        (¬ claimed → misuse 2) ∧ (claimed → x.fill = true → misuse 3) ∧ (claimed → x.fill = false → 16384 < l.toNat → misuse 4)))) ∧
  (∀ s z (d e : BitVec 5) (n c : BitVec 6) l s1 l' s2 w s3, room s 2 → reads n s l s1 → reads (n + 1) s1 l' s2 → reads c s2 w s3 →
    let cd := (theThread s3).getC d.toNat; let ce := (theThread s3).getC e.toNat
    let dst := operand cd (if cd.sp = 3 then permST ||| permPERSIST else permST) [0, 1, 2, 3, 4, 5]
    let illegal := fun (i : Instr) => exec i s = halts (z == 1) s s3 i (.fault { cls := 2, sub := 8, addr := 0 })
    (w.toNat < 2 ∧ fieldNat l 0 32 * fieldNat l 32 32 < 2 ^ 32 → dst → operand ce permLD [0, 1, 2, 3, 4, 5] →
      dispatches s s3 z 2 (.cp2d z d e n c) [w, l, l'] [cd, ce] []) ∧
    (w.toNat < 2 ∧ l.toNat < 2 ^ 32 → dst → dispatches s s3 z 2 (.cpSet z d n c) [w, l, l'] [cd] []) ∧
    (¬ (w.toNat < 2 ∧ fieldNat l 0 32 * fieldNat l 32 32 < 2 ^ 32) → illegal (.cp2d z d e n c)) ∧
    (¬ (w.toNat < 2 ∧ l.toNat < 2 ^ 32) → illegal (.cpSet z d n c)))

/-- Network and transducer words queue their command. With room in the network engine's queue and operands in range,
net.post, net.reply, the three forms of net.send, fst.ld, fst.start and fst.stop complete by queueing their command
with the captured length, queue pair or control word, and buffer capability. NET objects are among those that
net.reply, net.send and fst.start take. -/
def Obligations.NetworkWordsDispatch : Prop :=
  ∀ s z (c : BitVec 5) (n q : BitVec 6), room s 3 → let cap := fun (u : State) => (theThread u).getC c.toNat
    (∀ l s1, reads n s l s1 → l.toNat ≤ 8192 → operand (cap s1) permLD [0, 1, 2, 3, 4, 5, 6] →
      dispatches s s1 z 3 (.netReply z c n) [l] [cap s1] []) ∧
    (∀ x s1, reads q s x s1 → x.toNat < 32 → dispatches s s1 z 3 (.fstStop z q) [0, x] [] []) ∧
    (∀ l s1 x s2, reads n s l s1 → reads q s1 x s2 →
      (1 ≤ l.toNat → l.toNat < 2 ^ 31 → x.toNat < 2 ^ 24 → operand (cap s2) permST [0, 1] →
        dispatches s s2 z 3 (.netPost z c n q) [l, x] [cap s2] []) ∧
      (x.toNat < 65536 → x.extractLsb' 5 3 = 0 → operand (cap s2) permLD [0, 1] →
        dispatches s s2 z 3 (.fstLd z c n q) [l, x] [cap s2] []) ∧
      (x.toNat < 64 → l.toNat < 2 ^ 32 → operand (cap s2) permLD [0, 1, 2, 3, 4, 5, 6] →
        dispatches s s2 z 3 (.fstStart z c n q) [l, x] [cap s2] []) ∧
      (∀ y s3, reads (q + 1) s2 y s3 → l.toNat < 2 ^ 31 →
        (operand (cap s3) permLD [0, 1, 2, 3, 4, 5, 6] →
          dispatches s s3 z 3 (.netSend z c n q) [l, x, y] [cap s3] [] ∧ dispatches s s3 z 3 (.netSendWrite z c n q) [l, x, y] [cap s3] []) ∧
        (operand (cap s3) permST [0, 1, 2, 3, 4, 5, 6] → dispatches s s3 z 3 (.netSendRead z c n q) [l, x, y] [cap s3] [])))

/-- Checks of an engine word at dispatch. With 32 commands of its engine queued and not started, every engine word holds
its core and has no effect. With room, and its other operands in range, each engine word that takes a capability
raises the capability fault with FADDR the cursor, and queues no command, where the capability has no tag (SUB 0),
where it lacks ENG or a right that the word asks for (LD of a source, ST of a destination, PERSIST in PMEM; SUB 2), or
where it lies in a space that the word does not take (SUB 3); a copy looks at its destination first. That ranges are
checked before capabilities is the model's reading (log entry 20). -/
def Obligations.EngineQueueFull : Prop :=
  (∀ s z, let full := fun (i : Instr) => ∃ h, exec i s = halts (z == 1) s s i (.wait h) ∧ h.kind = .engineQueue
    (¬ room s 0 →
      (∀ (d a b : BitVec 7) (f : BitVec 1), ∀ i ∈ [Instr.vadd z d a b f, .vsub z d a b f, .vmul z d a b f, .vdiv z d a b f, .vfma z d a b f,
        .vfms z d a b f, .vfnma z d a b f, .vmin z d a b f, .vmax z d a b f, .viadd z d a b f, .visub z d a b f, .vimul z d a b f,
        .vimulh z d a b f, .vimin z d a b f, .vimax z d a b f, .vand z d a b f, .vor z d a b f, .vxor z d a b f, .vshl z d a b f,
        .vshr z d a b f, .vsra z d a b f, .vsel z d a b, .vperm z d a b f, .vrot z d a b f, .vredsum z d a b f, .vredmax z d a b f,
        .vredmin z d a b f, .vscan z d a b f, .vlane z d f, .vabs z d a f, .vneg z d a f, .vrcp z d a f, .vrsqrt z d a f, .vsqrt z d a f,
        .vexp2 z d a f, .vlog2 z d a f, .vtanh z d a f, .vcvt z d a b f, .vpack z d a b f, .vunpack z d a b f], full i) ∧
      (∀ (e : BitVec 4) (p q r : BitVec 3) (d a b : BitVec 7) (f h : BitVec 1) (j : BitVec 8) (n m : BitVec 6) (c : BitVec 5),
        ∀ i ∈ [Instr.vcmp z e p a b f, .vicmp z e p a b f, .mand z p q r, .mor z p q r, .mnot z p q, .mpop z d q, .vmovq z d j,
          .vbcast z d n h f, .vwin z p n m, .vxset z d n p f, .vmovs z d n a, .vld z d c n p f, .vst z d c n p f, .vldx z d c n p f,
          .vstx z d c n p f, .vldS z d c n p f, .vstS z d c n p f], full i)) ∧
    (¬ room s 1 → ∀ (n q : BitVec 1) (a b : BitVec 4) (d : BitVec 2) (f : BitVec 7) (k : BitVec 6) (c : BitVec 5),
      ∀ i ∈ [Instr.mma z n a b f k, .mmaZ z n a b f k, .accClr z n, .accRd z n c q, .accWr z n c q, .epi z n a c k q, .epiV z n a k q,
        .dtabLd z d c q, .dtabInv z d, .mseg z k], full i) ∧
    (∀ (d e : BitVec 5) (n c : BitVec 6) (o : BitVec 4),
      (¬ room s 2 → ∀ i ∈ [Instr.cp z d e n c, .cp2d z d e n c, .cpOm z o e n c, .cpGat z d e n c, .cpSet z d n c, .cpZ z d e n c,
        .cpX z d e n c, .cpCk z d e n c], full i) ∧
      (¬ room s 3 → ∀ i ∈ [Instr.netPost z d n c, .netReply z d n, .netSend z d n c, .netSendWrite z d n c, .netSendRead z d n c,
        .fstLd z d n c, .fstStart z d n c, .fstStop z n], full i))) ∧
  (∀ s z, let dst := fun (c : Cap) => if c.sp = 3 then permST ||| permPERSIST else permST
    let data := [0, 1, 2, 3, 4, 5]
    (room s 0 → ∀ (d : BitVec 7) (c : BitVec 5) (n : BitVec 6) (k : BitVec 3) (f : BitVec 1) x s1, reads n s x s1 →
      (∀ i ∈ [Instr.vld z d c n k f, .vst z d c n k f, .vldx z d c n k f, .vstx z d c n k f],
        refuses s s1 z i ((theThread s1).getC c.toNat) 0 data) ∧
      ∀ y s2, reads (n + 1) s1 y s2 → ∀ i ∈ [Instr.vldS z d c n k f, .vstS z d c n k f],
        refuses s s2 z i ((theThread s2).getC c.toNat) 0 data) ∧
    (room s 1 → ∀ (n q : BitVec 1) (t : BitVec 2) (o : BitVec 4) (c : BitVec 5) (k : BitVec 6), let p := (theThread s).getC c.toNat
      refuses s s z (.accRd z n c q) p (dst p) data ∧ refuses s s z (.accWr z n c q) p permLD data ∧
      refuses s s z (.dtabLd z t c q) p permLD [0, 1] ∧
      ∀ v s1 w s2, reads k s v s1 → reads (k + 1) s1 w s2 → epdOk v = true → (v.getLsbD 15 = false → o = 0) →
        let e := (theThread s2).getFmt ((theThread s2).selectFmt (field v 0 7))
        entryValid e = true → (entAcc e = 2 → n = 0) → w.toNat % 16 = 0 → epdCols v * outBytes e ≤ w.toNat →
        refuses s s2 z (.epi z n o c k q) ((theThread s2).getC c.toNat) 0 data) ∧
    (room s 2 → ∀ (d e : BitVec 5) (n c : BitVec 6) (o : BitVec 4) l s1, reads n s l s1 →
      (∀ w s2, reads c s1 w s2 → let cd := (theThread s2).getC d.toNat; let ce := (theThread s2).getC e.toNat; let dir := fieldNat w 2 2
        let short := l.toNat < 2 ^ 32
        let cpOk := w &&& ~~~0x1FF000D = 0 ∧ dir ≠ 3 ∧ short ∧ (if dir = 1 then d = 0 else d ≠ 0) ∧ (if dir = 2 then e = 0 else e ≠ 0) ∧
          (if dir = 0 then fieldNat w 16 9 = 0 else l.toNat % 512 = 0 ∧ fieldNat w 16 9 + l.toNat / 512 ≤ 512)
        let gatOk := w &&& ~~~0xFF03 = 0 ∧ fieldNat l 45 19 = 0 ∧ 1 ≤ fieldNat l 32 13 ∧ fieldNat l 32 13 ≤ 4096
        (cpOk → dir ≠ 1 → refuses s s2 z (.cp z d e n c) cd (dst cd) data) ∧
        (cpOk → (dir ≠ 1 → operand cd (dst cd) data) → dir ≠ 2 → refuses s s2 z (.cp z d e n c) ce permLD data) ∧
        (∀ p ∈ ([(.cpGat z d e n c, gatOk), (.cpZ z d e n c, w.toNat < 2 ∧ short), (.cpX z d e n c, w.toNat < 4 ∧ short),
            (.cpCk z d e n c, w &&& ~~~0xFF03 = 0 ∧ short)] : List (Instr × Prop)), p.2 →
          refuses s s2 z p.1 cd (dst cd) data ∧ (operand cd (dst cd) data → refuses s s2 z p.1 ce permLD data)) ∧
        (w.toNat < 2 ∧ short → refuses s s2 z (.cpOm z o e n c) ce permLD data)) ∧
      ∀ l' s2 w s3, reads (n + 1) s1 l' s2 → reads c s2 w s3 →
        let cd := (theThread s3).getC d.toNat; let ce := (theThread s3).getC e.toNat
        (w.toNat < 2 ∧ fieldNat l 0 32 * fieldNat l 32 32 < 2 ^ 32 →
          refuses s s3 z (.cp2d z d e n c) cd (dst cd) data ∧ (operand cd (dst cd) data → refuses s s3 z (.cp2d z d e n c) ce permLD data)) ∧
        (w.toNat < 2 ∧ l.toNat < 2 ^ 32 → refuses s s3 z (.cpSet z d n c) cd (dst cd) data)) ∧
    (room s 3 → ∀ (c : BitVec 5) (n q : BitVec 6) l s1, reads n s l s1 → let cap := fun (u : State) => (theThread u).getC c.toNat
      (l.toNat ≤ 8192 → refuses s s1 z (.netReply z c n) (cap s1) permLD (6 :: data)) ∧
      ∀ x s2, reads q s1 x s2 →
        (1 ≤ l.toNat → l.toNat < 2 ^ 31 → x.toNat < 2 ^ 24 → refuses s s2 z (.netPost z c n q) (cap s2) permST [0, 1]) ∧
        (x.toNat < 65536 → x.extractLsb' 5 3 = 0 → refuses s s2 z (.fstLd z c n q) (cap s2) permLD [0, 1]) ∧
        (x.toNat < 64 → l.toNat < 2 ^ 32 → refuses s s2 z (.fstStart z c n q) (cap s2) permLD (6 :: data)) ∧
        ∀ y s3, reads (q + 1) s2 y s3 → l.toNat < 2 ^ 31 →
          refuses s s3 z (.netSend z c n q) (cap s3) permLD (6 :: data) ∧ refuses s s3 z (.netSendWrite z c n q) (cap s3) permLD (6 :: data) ∧
          refuses s s3 z (.netSendRead z c n q) (cap s3) permST (6 :: data)))

/-- What a port does with a frame. FRAME_RECEIVE always completes. A number that no port or breakout part bears receives
nothing. A frame is dropped and counted at its port when the physical port is not ready, when it is longer than 9,216
bytes, has a service tag or more than one customer tag, when no partition has mapped its port and VLAN ID, and when
its destination MAC address is not accepted. A PAUSE frame is counted; a priority-based one stops each priority that
it names for its quanta. Of an accepted frame: an ARP request for a mapped address of the pair is answered, and so is
a neighbour solicitation that came to such an address or to its solicited-node address, by a solicited advertisement
that does not override, to whoever asked; an answer waits while its priority is paused. An IPv4 frame with options, a
fragment, a bad header checksum or another destination, a UDP datagram over IPv4 whose checksum is neither zero nor
good, a UDP datagram over IPv6 whose checksum is not good, or which has an extension header or another destination, an
ICMPv6 message to another destination, and an IPv6 frame of another kind, are dropped and counted. Every other ARP,
ICMP and ICMPv6 frame, and IPv4 of other protocols, go to the slow-path ring of the pair's partition, where one is
configured, and else are dropped and counted. An intact UDP datagram for the partition's INVPORT joins the port's
ingress queue, while the Sower is ready, the partition is not being reset, and the queue holds fewer than 512 messages
and has room for its bytes within 4 MiB; while the Sower is not ready or the partition is being reset it is dropped
and counted for the partition, and with the queue full at the port; one for UDP port 4791 is left to the steps of the
RoCEv2 engine, and one for another port goes to the slow-path ring. No other port's queue, no byte of memory and no
core changes as a message joins a queue. That the destination filter admits ICMPv6 to a solicited-node address is the
model's choice (log entry 127). -/
def Obligations.FramesReachTheQueues : Prop :=
  ∀ port f s, let drop := s.updPort port (fun p => { p with drops := p.drops + 1 })
    let becomes := fun (t : State) => exec (.frameReceive port f) s = .next t
    let ok := portStands s port = true ∧ s.rdy.getLsbD (physicalPort s port) = true ∧ f.length ≤ 9216 ∧ f.serviceTag = false ∧ f.tags.length ≤ 1
    let pairIs := fun (e : Ingress) => s.ingress.find? (fun e => e.pair.port == port && e.pair.vlan == frameVlan f) = some e
    let tci := f.tags.headD 0; let pcp := (field tci 13 3 : BitVec 3).toNat
    (∃ t, becomes t) ∧ (portStands s port = false → becomes s) ∧ (portStands s port = true → ¬ ok → becomes drop) ∧
    (ok → f.body = .pause → becomes (s.updPort port (fun p => { p with pauses := p.pauses + 1 }))) ∧
    (∀ enable quanta, ok → f.body = .pfc enable quanta → ∃ t, becomes t ∧ t.mem = s.mem ∧ t.cores = s.cores ∧
      ∀ i < 8, mapGet 0 (portAt t port).pausedUntil i = if enable.getLsbD i then s.pt + quantaTime s port (quanta.getD i 0).toNat
        else mapGet 0 (portAt s port).pausedUntil i) ∧
    let frame := f.body ≠ .pause ∧ ∀ enable quanta, f.body ≠ .pfc enable quanta
    (ok → frame → (∀ e ∈ s.ingress, e.pair.port = port → e.pair.vlan ≠ frameVlan f) → becomes drop) ∧
    ∀ e, ok → pairIs e → (frame → macAccepted (portAt s port) e.pair f = false → becomes drop) ∧
      (macAccepted (portAt s port) e.pair f = true →
        let part := partAt s e.part.toNat
        let m : Message := { port := port, part := e.part, smac := f.src, dmac := f.dst, tci := tci, tagged := !f.tags.isEmpty, v6 := false,
                             sip := 0, dip := 0, sport := 0, tos := 0, payload := [] }
        let slow := fun (m : Message) (bs : List Byte) => becomes (slowPath s m bs) ∧ (part.slowPath = false → becomes drop)
        let routed := fun (m : Message) (dport : W16) =>
          (dport = part.invport →
            ((s.rdy.getLsbD 36 = false ∨ part.scrubbing = true) → becomes (s.updPart e.part.toNat (fun p => { p with drops := p.drops + 1 }))) ∧
            (s.rdy.getLsbD 36 = true → part.scrubbing = false →
              ((512 ≤ (portAt s port).queue.length ∨ 4 * 2 ^ 20 < (portAt s port).bytes + m.payload.length) → becomes drop) ∧
              ((portAt s port).queue.length < 512 → (portAt s port).bytes + m.payload.length ≤ 4 * 2 ^ 20 →
                ∃ t, becomes t ∧ (portAt t port).queue = (portAt s port).queue ++ [m] ∧ (∀ p, p ≠ port → portAt t p = portAt s p) ∧
                  t.mem = s.mem ∧ t.cores = s.cores ∧ t.mcbs = s.mcbs))) ∧
          (dport ≠ part.invport → dport = 4791 → becomes s) ∧ (dport ≠ part.invport → dport ≠ 4791 → slow m m.payload)
        (∀ request target sender, f.body = .arp request target sender →
          (request = true ∧ target ∈ e.pair.ipv4 → becomes (transmit s port pcp (.arp port tci target (portAt s port).mac f.src))) ∧
          (¬ (request = true ∧ target ∈ e.pair.ipv4) → slow { m with sip := mapped4 sender } f.raw)) ∧
        (∀ ip l4, f.body = .ipv4 ip l4 →
          let whole := ip.ihl = 5 ∧ ip.moreFragments = false ∧ ip.fragmentOffset = 0 ∧ ip.sumOk = true ∧ ip.dst ∈ e.pair.ipv4
          let m4 := { m with sip := mapped4 ip.src, dip := mapped4 ip.dst, tos := ip.tos }
          (¬ whole → becomes drop) ∧
          (whole → (∀ sport dport zero good payload, l4 ≠ .udp sport dport zero good payload) → slow m4 f.raw) ∧
          (∀ sport dport zero good payload, whole → l4 = .udp sport dport zero good payload →
            (zero = false → good = false → becomes drop) ∧
            (zero = true ∨ good = true → routed { m4 with sport := sport, payload := payload } dport))) ∧
        (∀ ip l4, f.body = .ipv6 ip l4 →
          let m6 := { m with v6 := true, sip := ip.src, dip := ip.dst, tos := ip.tos }
          let here := ip.nextHeader = 58 ∧ ∃ a ∈ e.pair.ipv6, ip.dst = a ∨ ip.dst = solicitedIp a
          (l4 = .other → becomes drop) ∧
          (∀ sport dport zero good payload, l4 = .udp sport dport zero good payload →
            let whole := ip.nextHeader = 17 ∧ ip.dst ∈ e.pair.ipv6 ∧ zero = false ∧ good = true
            (¬ whole → becomes drop) ∧ (whole → routed { m6 with sport := sport, payload := payload } dport)) ∧
          (l4 = .icmpv6 → (¬ here → becomes drop) ∧ (here → slow m6 f.raw)) ∧
          (∀ target, l4 = .solicitation target → (¬ here → becomes drop) ∧ (here → target ∉ e.pair.ipv6 → slow m6 f.raw) ∧
            (here → target ∈ e.pair.ipv6 →
              becomes (transmit s port pcp (.advertisement port tci target (portAt s port).mac true false f.src ip.src))))))

/-- The stages of the Sower. While the Sower is ready and holds no message, and 48 of its cycles have passed since it last
accepted, SOWER_ACCEPT_MESSAGE takes the head of the queue whose turn it is; a message whose header passes and whose
key slot is enabled for its partition is held, another of the right length is dropped and counted for its partition.
GCM_HEADER_CHECK puts the plaintext, with the package time of the check, beside a message whose tag verifies and drops
and counts another. MCB_LOOKUP answers, in this order, status 4 for a payload of more than 4,032 bytes, 3 where no
installed block of the partition has the FUNCID (or enters the message in the lookup-miss ring under MODE bit 0), 8
for another key slot, 2 for a FAILED block and 1 for a full queue or a frozen partition; else the message becomes the
last entry of the block's queue, arrived when its check completed, and an IDLE block is QUEUED. The order of statuses
2 and 1 with a frozen partition, one message in the pipeline at a time, and the time of arrival are the model's
readings (log entries 55, 52 and 53). -/
def Obligations.SowerStages : Prop :=
  (∀ s p m rest, s.sower = none → s.nextAccept ≤ 10 * s.pt → s.rdy.getLsbD 36 = true → nextPort s = some p →
    (portAt s p).queue = m :: rest → m.payload.length = 48 + reqPlen m.header + 16 →
    ∃ t, exec .sowerAcceptMessage s = .next t ∧ (portAt t p).queue = rest ∧ 10 * s.pt + 384 ≤ t.nextAccept ∧ t.mem = s.mem ∧
      if m.headerOk = true ∧ slotKey s (reqKeyslot m.header) m.part ≠ none
      then t.sower = some (m, none) ∧ t.parts = s.parts
      else t.sower = none ∧ (partAt t m.part.toNat).drops = (partAt s m.part.toNat).drops + 1) ∧
  (∀ s m key, s.sower = some (m, none) → slotKey s (reqKeyslot m.header) m.part = some key →
    let n := reqPlen m.header
    let plain := Config.gcmOpen key (reqNonce m.header) (m.payload.take 48) ((m.payload.drop 48).take n)
      (BitVec.ofNat 128 (leNat ((m.payload.drop (48 + n)).take 16)))
    (∀ p, plain = some p → exec .gcmHeaderCheck s = .next { s with sower := some (m, some (p, s.pt)) }) ∧
    (plain = none → ∃ t, exec .gcmHeaderCheck s = .next t ∧ t.sower = none ∧
      (partAt t m.part.toNat).drops = (partAt s m.part.toNat).drops + 1 ∧ t.mem = s.mem ∧ t.mcbs = s.mcbs)) ∧
  (∀ s m plain arrived, s.sower = some (m, some (plain, arrived)) →
    let s0 := { s with sower := none }; let h := m.header; let answers := fun (n : Byte) => exec .mcbLookup s = .next (sendReply s0 m n [])
    let found := fun (b : Nat) => s.mcbs.find? (fun e => e.2.v && e.2.funcid == reqFuncid h && e.2.part == m.part) = some (b, mcbAt s b)
    (4032 < reqPlen h → answers 4) ∧
    (reqPlen h ≤ 4032 → (∀ e ∈ s.mcbs, e.2.v = true → e.2.funcid = reqFuncid h → e.2.part ≠ m.part) →
      (s.mode.getLsbD 0 = false → answers 3) ∧
      (s.mode.getLsbD 0 = true → exec .mcbLookup s = .next (missRing s0 m.part.toNat (leBytes 64 m.desc.toNat ++ plain)))) ∧
    ∀ b, reqPlen h ≤ 4032 → found b → let x := mcbAt s b
      (x.keyslot.toNat ≠ reqKeyslot h → answers 8) ∧
      (x.keyslot.toNat = reqKeyslot h → x.state = 6 → answers 2) ∧
      (x.keyslot.toNat = reqKeyslot h → x.state ≠ 6 → (x.queueFull = true ∨ (partAt s m.part.toNat).frozen = true) → answers 1) ∧
      (x.keyslot.toNat = reqKeyslot h → x.state ≠ 6 → x.queueFull = false → (partAt s m.part.toNat).frozen = false →
        ∃ t e, exec .mcbLookup s = .next t ∧ t.sower = none ∧ (mcbAt t b).entries = x.entries ++ [e] ∧ e.desc = m.desc ∧
          e.msg = some m ∧ e.arrived = arrived ∧ (mcbAt t b).qtail = x.advance x.qtail ∧ (mcbAt t b).state = (if x.state = 0 then 1 else x.state) ∧
          t.cores = s.cores ∧ ∀ k, k ≠ b → mcbAt t k = mcbAt s k))

/-- From a queued entry to a bound plot. While the Sower is ready and the partition is not frozen and holds no reservation
that has come due, FREE_PLOT_SEARCH takes the first candidate: a queued head with a free plot is BINDING there, every
core of the plot is held for it, and each of them was unbound and not fenced; one without a free plot but with a
victim whose save run fits makes the victim PRE-EMPTING and reserves its plot. BIND_AND_REGISTER_PRELOAD of readable
capabilities gives every core of the plot ENTRY as its pc, the entry's argument, length and kind in s1 to s3, its own
entry in c1, the block's capabilities and priority, zero in every other scalar and predicate, and the format table and
the tables to load of its INIT; where they are not readable the block is FAILED. FIRST_FETCH waits for the write of
the entry and for every awaited answer; with nothing left to send again and no report due, it makes the block BOUND
and stamps the time, and at the invocation's first fetch the count of bindings. RESTORE_SAVE_IMAGE of an intact image
gives every saved core its registers, engines and queues again, with the block's present priority, and an image that
fails ends the invocation. DECODER_TABLE_INIT_LOAD makes the next table that is still loading valid with the words of
INIT. None of these steps writes memory, but for the records of waits that a request of pre-emption ends and those of
a kill, where the partition keeps a wait ring or an interface has rings. When the count of bindings rises, and that
the first fetch waits for the write of the entry, are the model's readings (log entries 39 and 141). -/
def Obligations.PlacementAndBinding : Prop :=
  (∀ s (part : BitVec 4) p a m rest e, s.rdy.getLsbD 36 = true → (partAt s part.toNat).frozen = false →
    reservedReady s part = none → candidates s part = (p, a, m, false) :: rest → (mcbAt s m).inv = none →
    (mcbAt s m).entries.head? = some e → let b := mcbAt s m
    (∀ o, freePlot s m p = some o → ∃ t i, exec (.freePlotSearch part.toNat) s = .next t ∧ (mcbAt t m).state = 2 ∧
      (mcbAt t m).inv = some i ∧ i.stage = .preload ∧ i.head = e ∧ i.ox = o.1 ∧ i.oy = o.2 ∧ i.reply = .due ∧ t.mem = s.mem ∧
      (∀ k ∈ plotCores o.1 o.2 b.wlog.toNat b.hlog.toNat,
        (coreAt s k).bound = none ∧ (coreAt s k).fenced = false ∧ (coreAt t k).bound = some m) ∧
      ∀ n, n ≠ m → mcbAt t n = mcbAt s n) ∧
    (∀ v o, freePlot s m p = none → victim s m p = some (v, o) → v ≠ m → saveRun s v ≠ none →
      ∃ t, exec (.freePlotSearch part.toNat) s = .next t ∧ (mcbAt t v).state = 4 ∧ (mcbAt t m).reserved = some (o.1, o.2, v) ∧
        (mcbAt t m).state = b.state ∧ (Ringless s → t.mem = s.mem))) ∧
  (∀ s m i, let b := mcbAt s m
    b.inv = some i → i.stage = .preload → b.state = 2 →
    (∀ init s1, does (bindRead s m) s (some init) s1 →
      ∃ t, exec (.bindAndRegisterPreload m) s = .next t ∧ (mcbAt t m).inv = some { i with stage := .fetch } ∧ t.mem = s.mem ∧
      ∀ k ∈ plotCores i.ox i.oy b.wlog.toNat b.hlog.toNat, let h := (coreAt t k).th
        (coreAt t k).bound = some m ∧ h.pc = BitVec.ofNat 64 (4 * b.entry.toNat) ∧ h.getS 1 = descArg i.head.desc ∧
        h.getS 2 = BitVec.ofNat 64 (descPlen i.head.desc) ∧ h.getS 3 = BitVec.ofNat 64 (descKind i.head.desc) ∧
        (∀ n, n = 0 ∨ 4 ≤ n → h.getS n = 0) ∧ h.getC 1 = entryCap b ∧ (∀ n, n ≠ 1 → h.getC n = Cap.null) ∧ h.p = 0 ∧ h.h = false ∧
        h.ae = true ∧ h.prio = b.prio ∧ h.codecap = b.image ∧ h.captab = b.captab ∧ h.objtab = b.objtab ∧ h.handler = b.handler ∧
        (∀ n < 16, mapGet 0 h.fmt n = BitVec.ofNat 64 (leNat ((init.drop (8 * n)).take 8))) ∧
        (coreAt t k).mat.dtv = 0 ∧ (coreAt t k).mat.loading = BitVec.ofNat 4 ((init.getD 128 0).toNat % 16) ∧
        h.lact = 0 ∧ (coreAt t k).cmds = [] ∧ (coreAt t k).hoard = [] ∧ (coreAt t k).retired = false) ∧
    (∀ s1, does (bindRead s m) s none s1 → ∃ t, exec (.bindAndRegisterPreload m) s = .next t ∧ (mcbAt t m).inv = none ∧
      (mcbAt t m).state = 6 ∧ t.mem = s.mem)) ∧
  (∀ s m i, (mcbAt s m).inv = some i → i.stage = .fetch → (mcbAt s m).state = 2 →
    ((∃ a ∈ i.awaiting, a.2 = none) ∨ (∃ e ∈ s.sowerLog, e.1 = m ∧ e.2.1 = (mcbAt s m).qhead.toNat) →
      exec (.firstFetch m) s = .next s) ∧
    (i.awaiting = [] → (∀ e ∈ s.sowerLog, e.1 = m → e.2.1 ≠ (mcbAt s m).qhead.toNat) →
      (∀ k ∈ (mcbAt s m).plot, resumes s m i.serial k = false ∧ (coreAt s k).pending = []) →
      ∃ t j, exec (.firstFetch m) s = .next t ∧ (mcbAt t m).state = 3 ∧ (mcbAt t m).inv = some j ∧ j.stage = .running ∧
        j.bindings = (if i.bindings = 0 then s.bindings + 1 else i.bindings) ∧ j.fetchedAt = s.pt ∧ j.wdt = i.wdt ∧
        j.savePages = none ∧ t.bindings = s.bindings + 1 ∧ t.mem = s.mem ∧ t.cores = s.cores)) ∧
  (∀ s m i, let b := mcbAt s m
    b.inv = some i → i.stage = .restore → b.state = 2 → (b.saved.map (·.1)).Nodup →
    (imageFails s m = none → ∃ t, exec (.restoreSaveImage m) s = .next t ∧ (mcbAt t m).inv = some { i with stage := .fetch } ∧
      t.mem = s.mem ∧ ∀ k c, (k, c) ∈ b.saved → let u := coreAt t k
        u.bound = some m ∧ u.th = { c.th with prio := b.prio } ∧ u.vec = c.vec ∧ u.mat.acc0 = c.mat.acc0 ∧ u.mat.acc1 = c.mat.acc1 ∧ u.qin = c.qin ∧
        u.qv = c.qv ∧ u.qc = c.qc ∧ u.om = c.om ∧ u.hold = c.hold.map (fun h => if h.kind = .parked then { h with until_ := 1, since := s.pt } else h) ∧ u.pending = c.pending ∧ u.gen = c.gen) ∧
    (imageFails s m ≠ none → ∃ t, exec (.restoreSaveImage m) s = .next t ∧ (mcbAt t m).inv = none ∧ (Ringless s → t.mem = s.mem) ∧
      ((mcbAt t m).state = 0 ∨ (mcbAt t m).state = 1))) ∧
  (∀ s k m i (d : BitVec 2) l, (coreAt s k).bound = some m → (mcbAt s m).inv = some i → loadsTables i = true →
    (coreAt s k).mat.loading.getLsbD d.toNat = true → (∀ j < d.toNat, (coreAt s k).mat.loading.getLsbD j = false) →
    ∀ s1, does (readTable s m d.toNat) s l s1 → ∃ t, exec (.decoderTableInitLoad k d) s = .next t ∧ t.mem = s.mem ∧
      (coreAt t k).mat.dtv.getLsbD d.toNat = true ∧ (coreAt t k).mat.loading.getLsbD d.toNat = false ∧
      mapFind (coreAt t k).mat.dt d.toNat = some l ∧ (coreAt t k).th = (coreAt s k).th ∧
      (∀ j, j < 4 → j ≠ d.toNat → (coreAt t k).mat.dtv.getLsbD j = (coreAt s k).mat.dtv.getLsbD j) ∧ ∀ n, n ≠ k → coreAt t n = coreAt s n)

/-- Writes, reads and messages from outside. An access from outside to a place in GSRAM or HBM that exists, is ready, lies
in no frozen partition's pool, with nothing held for that partition, and whose lines check and are not encrypted
performs: HOST_INBOUND_WRITE, an RDMA WRITE of ROCE_INBOUND_RDMA (which is acknowledged) and a write of
NEPOL_INBOUND_ACCESS that the export table admits leave their bytes at the place, every other byte as it was, and
every granule that they touch without its tag; an RDMA READ answers the bytes and writes none, and answers a line that
fails its check with a NAK; an atomic access from a peer leaves the result of its operation, and a compare and swap
its operand where the place holds what it expects. What a frozen partition, a die that is not ready or an earlier
access of the partition holds back stands at its port. An answer of RDMA is sent under the priority of its request,
and waits where a peer pauses that priority or an earlier frame of it waits. A RoCEv2 packet from a port and VLAN that
no partition has mapped is dropped and counted. An access from a peer that the port refuses or the export table does
not admit changes nothing, and so does a reduction that holds a contribution that has performed. ROCE_SEND_RECEIVE
without a bound block or a posted buffer answers receiver-not-ready with the timer of the queue pair, and else starts
the placement of its bytes into the oldest buffer of the queue pair. That a refused access changes nothing here, what
a frame of RDMA holds, that writes from outside are not encrypted, and that a reduction with a performed contribution
is dropped whole, are the model's choices (log entries 108, 132, 36 and 109). -/
def Obligations.AccessesFromOutside : Prop :=
  ∀ (s : State) (sp : BitVec 4) (addr : Nat),
    let k := physKey sp.toNat 0 addr
    let open_ := fun (n : Nat) => sp.toNat < 2 ∧ physReady s sp.toNat addr = true ∧ physExists sp.toNat addr n = true ∧
      (∀ p, pageOwner s sp.toNat addr = some p → (partAt s p).frozen = false) ∧ heldBefore s sp.toNat addr = false ∧ s.dirtyAt = none
    let good := fun (n : Nat) => ∀ l ∈ linesOf k n, mapFind s.bad l = none ∧ unitTag s l = none
    let placed := fun (t : State) (data : List Byte) =>
      (∀ i, i < data.length → memByte t.mem (k + i) = data.getD i 0) ∧
      (∀ j, j < k ∨ k + data.length ≤ j → memByte t.mem j = memByte s.mem j) ∧
      (∀ g ∈ granulesOf k data.length, mapGet false t.tags g = false) ∧ t.cores = s.cores ∧ t.mcbs = s.mcbs
    let answered := fun (t : State) (peer : RoceSource) (f : TxFrame) => let p := portAt s peer.port; let prio := peer.pcp.toNat
      if s.pt < mapGet 0 p.pausedUntil prio ∨ (∃ e ∈ p.held, e.1 = prio) then t.tx = s.tx ∧ (portAt t peer.port).held = p.held ++ [(prio, f)]
      else t.tx = s.tx ++ [f] ∧ (portAt t peer.port).held = p.held
    (∀ data : List Byte, open_ data.length → good data.length →
      (∃ t, exec (.hostInboundWrite sp addr data) s = .next t ∧ placed t data) ∧
      (∀ peer : RoceSource, mappedPair s peer = true → mapFind s.qps peer.qp.toNat ≠ none →
        ∃ t, exec (.roceInboundRdma (.write peer sp addr data)) s = .next t ∧ placed t data ∧ answered t peer (.rdmaAck peer [] (roceAnswer peer 4 0 []))) ∧
      (∀ dev expiry leased ids, let q : NepolAccess := ⟨dev, expiry, leased, sp, addr, .write data, ids⟩
        portRefuses s q = false → exported s dev sp.toNat addr data.length false true = true →
        (∀ c ∈ ids, c ∉ s.performed) → ∃ t, exec (.nepolInboundAccess q) s = .next t ∧ placed t data ∧
          t.performed = s.performed ++ ids)) ∧
    (∀ n (peer : RoceSource), open_ n → mappedPair s peer = true → mapFind s.qps peer.qp.toNat ≠ none →
      (good n → ∃ t, exec (.roceInboundRdma (.read peer sp addr n)) s = .next t ∧ t.mem = s.mem ∧ t.cores = s.cores ∧
        let bs := memBytes s.mem k n; answered t peer (.rdmaAck peer bs (roceAnswer peer 4 n bs))) ∧
      ((∃ l ∈ linesOf k n, mapFind s.bad l ≠ none) → ∃ t, exec (.roceInboundRdma (.read peer sp addr n)) s = .next t ∧
        t.mem = s.mem ∧ answered t peer (.rdmaNak peer (roceAnswer peer 5 0 [])))) ∧
    (∀ (peer : RoceSource) (data : List Byte) n, mappedPair s peer = false →
      let drop := s.updPort peer.port (fun p => { p with drops := p.drops + 1 })
      exec (.roceInboundRdma (.write peer sp addr data)) s = .next drop ∧ exec (.roceInboundRdma (.read peer sp addr n)) s = .next drop ∧
      exec (.roceSendReceive peer data) s = .next drop) ∧
    (∀ dev expiry leased (op : BitVec 4) (wide : Bool) (v : W64), let n := if wide then 8 else 4
      let q : NepolAccess := ⟨dev, expiry, leased, sp, addr, .atomic op wide v, []⟩
      open_ n → good n → portRefuses s q = false → exported s dev sp.toNat addr n true true = true →
        ∃ t, exec (.nepolInboundAccess q) s = .next t ∧
          placed t (leBytes n (atomicOp op.toNat n (memNat s.mem k n) (v.toNat % 2 ^ (8 * n))))) ∧
    (∀ dev expiry leased (wide : Bool) (expect v : W64), let n := if wide then 8 else 4
      let q : NepolAccess := ⟨dev, expiry, leased, sp, addr, .cas wide expect v, []⟩
      open_ n → good n → portRefuses s q = false → exported s dev sp.toNat addr n true true = true →
        ∃ t, exec (.nepolInboundAccess q) s = .next t ∧
          (memNat s.mem k n = expect.toNat % 2 ^ (8 * n) → placed t (leBytes n (v.toNat % 2 ^ (8 * n)))) ∧
          (memNat s.mem k n ≠ expect.toNat % 2 ^ (8 * n) → t.mem = s.mem)) ∧
    (∀ (data : List Byte) n (peer : RoceSource) (q : NepolAccess), sp.toNat < 2 → (placeHeld s sp.toNat addr = true ∨ heldBefore s sp.toNat addr = true) →
      let held := fun (i : Inbound) => Host.Outcome.next { s with inbound := s.inbound ++ [i] }
      exec (.hostInboundWrite sp addr data) s = held (.host sp addr data) ∧
      (mappedPair s peer = true → mapFind s.qps peer.qp.toNat ≠ none →
        exec (.roceInboundRdma (.write peer sp addr data)) s = held (.rdma (.write peer sp addr data)) ∧
        exec (.roceInboundRdma (.read peer sp addr n)) s = held (.rdma (.read peer sp addr n))) ∧
      (q.op = .write data → q.sp = sp → q.addr = addr → portRefuses s q = false →
        exported s q.device sp.toNat addr data.length false true = true → (∀ c ∈ q.contributions, c ∉ s.performed) →
        exec (.nepolInboundAccess q) s = held (.nepol q))) ∧
    (∀ dev expiry leased op ids, (portRefuses s ⟨dev, expiry, leased, sp, addr, op, ids⟩ = true ∨ exported s dev sp.toNat addr (nepolBytes op) (match op with | .write _ => false | _ => true)
        (match op with | .read _ => false | _ => true) = false ∨ ∃ c ∈ ids, c ∈ s.performed) →
      exec (.nepolInboundAccess ⟨dev, expiry, leased, sp, addr, op, ids⟩) s = .next s) ∧
    ∀ (peer : RoceSource) (data : List Byte) p, mappedPair s peer = true → mapFind s.qps peer.qp.toNat = some p →
      let b := mcbAt s p.mcb; let qp := peer.qp
      let nak := ∃ t, exec (.roceSendReceive peer data) s = .next t ∧ t.mem = s.mem ∧ t.cores = s.cores ∧
        answered t peer (.rnrNak qp p.peer.rnrTimer (roceAnswer peer 3 0 []))
      let waits := (partAt s b.part.toNat).frozen = true ∨ sendHeld s qp = true
      (waits → exec (.roceSendReceive peer data) s = .next { s with inbound := s.inbound ++ [.send peer data] }) ∧
      (¬ waits → b.inv = none → nak) ∧
      ∀ i, ¬ waits → b.inv = some i → let c := 32 * (i.oy + p.py) + i.ox + p.px
        (((coreAt s c).bound ≠ some p.mcb ∨ ∀ x ∈ (coreAt s c).posted, x.qp ≠ qp.toNat) → nak) ∧
        ∀ x s1, b.state = 3 → (coreAt s c).bound = some p.mcb → (coreAt s c).posted.find? (fun x => x.qp == qp.toNat) = some x →
          does (bufferPages x) { s with turn := c } [] s1 → let n := (x.arg 0).toNat
          ∃ t y, exec (.roceSendReceive peer data) s = .next t ∧ y ∈ (coreAt t c).cmds ∧ y.ord = x.ord ∧ y.started = true ∧
            y.buf = data.take n ∧ y.tmp = [2, 0, data.length % 2 ^ 31 + if n < data.length then 2 ^ 31 else 0] ∧
            (∀ z ∈ (coreAt t c).posted, z.ord ≠ x.ord) ∧ t.mem = s1.mem

/-- How a dispatched command starts, runs and completes. On a core whose engines run: the next command of an engine starts
when nothing holds it back, and otherwise stays queued, its wait for a chain noted with its time, or, where the fills
of slots that it reads are all that keeps it, its wait for each of them with the time at which it began. The running
two-source vector command completes in one step: where its registers lie below code 120, each active lane of the
destination takes the operation of the two source lanes, every other lane and every other physical register keeps its
value, and the command leaves the queue without a completion entry. A micro-step of a running command that goes on
replaces it; its last step removes it and, where the command posts and qc has room, enters SEQ, engine, STATUS and
DETAIL into qc; with qc full the command stays and posts, and is gone, once qc has room; a command other than an
epilogue whose writes have not performed, a copy into PMEM that is not durable, and a command of an engine in order
behind one that awaits its writes, stay until that is over. MMA_SEGMENT_RETIRE takes the same steps of a matrix
product. -/
def Obligations.EngineCommandsRun : Prop :=
  ∀ s k, enginesRun s k = true → let s' := { s with turn := k }
    let ends := fun (s1 t : State) (y : Cmd) (st det : Nat) =>
      let word := BitVec.ofNat 64 (y.seq.toNat + y.eng.toNat * 2 ^ 16 + st % 256 * 2 ^ 24 + det % 2 ^ 32 * 2 ^ 32)
      t.mem = s1.mem ∧ (coreAt t k).th = (coreAt s1 k).th ∧
      ((y.posts = false ∨ (coreAt s1 k).qc.length < 32) → ∀ z ∈ (coreAt t k).cmds, z.ord ≠ y.ord) ∧
      (y.posts = false → (coreAt t k).qc = (coreAt s1 k).qc) ∧
      (y.posts = true → (coreAt s1 k).qc.length < 32 → ∃ g, (coreAt t k).qc = (coreAt s1 k).qc ++ [⟨word, g⟩]) ∧
      (y.posts = true → 32 ≤ (coreAt s1 k).qc.length → (coreAt t k).qc = (coreAt s1 k).qc ∧
        ∃ z ∈ (coreAt t k).cmds, z.ord = y.ord ∧ z.posting = some word)
    (∀ e x, nextCmd (coreAt s k) e = some x → holdsStill s' x = false → x.isPost = false →
      (canStart s' k x = false → chainHolds s' k x = false → x.chained = none → x.waits = [] → (∀ z ∈ (coreAt s k).cmds, z.ord = x.ord → z = x) →
        ∃ t, exec (.engineCommandStart k e) s = .next t ∧ t.mem = s.mem ∧ t.mcbs = s.mcbs ∧
          (slotWaits s' k x = [] → coreAt t k = coreAt s k) ∧ (∀ j, j ≠ k → coreAt t j = coreAt s j) ∧ (coreAt t k).th = (coreAt s k).th ∧
          ∃ y, (coreAt t k).cmds = (coreAt s k).cmds.map (fun z => if z.ord == x.ord then y else z) ∧
            y = { x with waits := y.waits } ∧ (∀ n ∈ slotWaits s' k x, (3, n, s.pt) ∈ y.waits) ∧
            ∀ w ∈ y.waits, w.1 = 3 ∧ w.2.2 = s.pt ∧ w.2.1 ∈ slotWaits s' k x) ∧
      (chainHolds s' k x = true → ∃ t, exec (.engineCommandStart k e) s = .next t ∧ t.mem = s.mem ∧
        (coreAt t k).cmds = (coreAt s k).cmds.map (fun z =>
          if z.ord == x.ord && x.chained.isNone then { x with chained := some s.pt } else z)) ∧
      (canStart s' k x = true → stepBreak s' k x (x.step + 1) = none → x.waits = [] → x.chained = none → ∀ y s1,
        does (startOf { x with
          parked := none, ask := none }) s' y s1 → y.isPost = false →
        ∃ t, exec (.engineCommandStart k e) s = .next t ∧ (coreAt t k).th = (coreAt s1 k).th ∧ t.mem = s1.mem ∧
          (coreAt t k).cmds = (coreAt s1 k).cmds.map (fun z => if z.ord == y.ord then { y with started := true } else z))) ∧
    (∀ x z d a b f, (startedCmds s k 0)[0]? = some x → x.posting = none → x.ending = none → x.parked = none → x.hit = none →
      stepBreak s k x (x.step + 1) = none → endsLater s k x = false →
      x.eng = 0 → d.toNat < 120 → a.toNat < 120 → b.toNat < 120 → (∀ r, ((coreAt s k).vec.phys r).length = 128) →
      ∀ p ∈ [(Instr.vadd z d a b f, faddLane), (.vsub z d a b f, fsubLane), (.vmul z d a b f, fmulLane), (.vmin z d a b f, fminLane),
          (.vmax z d a b f, fmaxLane), (.vdiv z d a b f, fdivLane), (.viadd z d a b f, (· + ·)), (.visub z d a b f, (· - ·)),
          (.vimul z d a b f, (· * ·)), (.vimulh z d a b f, imulhLane), (.vand z d a b f, (· &&& ·)), (.vor z d a b f, (· ||| ·)),
          (.vxor z d a b f, (· ^^^ ·)), (.vshl z d a b f, shlLane), (.vshr z d a b f, shrLane), (.vsra z d a b f, sraLane),
          (.vimin z d a b f, iminLane), (.vimax z d a b f, imaxLane)], x.ins = p.1 → let v := (coreAt s k).vec
        ∃ t, exec (.engineCommandComplete k 0 0 .none) s = .next t ∧ let u := (coreAt t k).vec
          (∀ i, i < 128 → u.at i d.toNat = if v.active f i = true then p.2 (v.at i a.toNat) (v.at i b.toNat) else v.at i d.toNat) ∧
          (∀ r, r ≠ v.reg 0 d.toNat → u.phys r = v.phys r) ∧ u.m = v.m ∧ u.wb = v.wb ∧ u.cm = v.cm ∧
          (∀ y ∈ (coreAt t k).cmds, y.ord ≠ x.ord) ∧ (coreAt t k).qc = (coreAt s k).qc ∧ (coreAt t k).th = (coreAt s k).th ∧
          t.mem = s.mem) ∧
    (∀ e n ans x y s1, (startedCmds s k e)[n]? = some x → x.posting = none → x.ending = none → x.isMma = false → holdsStill s x = false →
      (∀ z ∈ (startedCmds s k e).take n, z.posting = none) → stepBreak s k x (x.step + 1) = none → x.hit = none →
      (does (stepOf ans { x with
          parked := none, ask := none }) s' (.more y) s1 →
        ∃ t, exec (.engineCommandComplete k e n ans) s = .next t ∧ t.mem = s1.mem ∧ (coreAt t k).th = (coreAt s1 k).th ∧
          (coreAt t k).cmds = (coreAt s1 k).cmds.map (fun z => if z.ord == y.ord then y else z)) ∧
      (∀ st det, does (stepOf ans { x with
          parked := none, ask := none }) s' (.done y st det) s1 → y.hit = none → y.posting = none →
        (∃ z ∈ (coreAt s1 k).cmds, z.ord = y.ord) →
        ∃ t, exec (.engineCommandComplete k e n ans) s = .next t ∧
          (endsLater s1 k y = false → ends s1 t y st det) ∧
          ((parkedWrites s1 k y = true ∧ y.isEpilogue = false ∨ awaitsFlush s1 y = true ∨ endsAfter s1 k y = true) → t.mem = s1.mem ∧ (coreAt t k).qc = (coreAt s1 k).qc ∧
            ∃ z ∈ (coreAt t k).cmds, z.ord = y.ord ∧ z.ending = some (st, det)))) ∧
    (∀ e n ans x st det, (startedCmds s k e)[n]? = some x → x.posting = none → x.ending = some (st, det) →
      (endsLater s k x = true → exec (.engineCommandComplete k e n ans) s = .next s) ∧
      (endsLater s k x = false → ∃ t, exec (.engineCommandComplete k e n ans) s = .next t ∧ ends s t x st det)) ∧
    (∀ e n ans x word, (startedCmds s k e)[n]? = some x → x.posting = some word → let qc := (coreAt s k).qc
      (32 ≤ qc.length → exec (.engineCommandComplete k e n ans) s = .next s) ∧
      (qc.length < 32 → ∃ t g, exec (.engineCommandComplete k e n ans) s = .next t ∧ (coreAt t k).qc = qc ++ [⟨word, g⟩] ∧
        (∀ z ∈ (coreAt t k).cmds, z.ord ≠ x.ord) ∧ (coreAt t k).th = (coreAt s k).th ∧ (Ringless s → t.mem = s.mem))) ∧
    ∀ x y s1, (startedCmds s k 1).find? (fun x => x.isMma && x.posting.isNone && x.ending.isNone) = some x →
      stepBreak s k x (segmentEndOf s k x) = none → x.hit = none →
      (does (matrixStep { x with
          parked := none, ask := none }) s' (.more y) s1 → y.eng = 1 →
        ∃ t, exec (.mmaSegmentRetire k) s = .next t ∧ (coreAt t k).mat = (coreAt s1 k).mat ∧ (coreAt t k).th = (coreAt s1 k).th ∧
          (coreAt t k).cmds = (coreAt s1 k).cmds.map (fun z => if z.ord == y.ord then y else z)) ∧
      (∀ st det, does (matrixStep { x with
          parked := none, ask := none }) s' (.done y st det) s1 → y.isMma = true → y.eng = 1 →
        y.hit = none → y.posting = none → endsLater s1 k y = false →
        ∃ t, exec (.mmaSegmentRetire k) s = .next t ∧ (coreAt t k).mat = (coreAt s1 k).mat ∧
          (coreAt t k).qc = (coreAt s1 k).qc ∧ ∀ z ∈ (coreAt t k).cmds, z.ord ≠ y.ord)

/-- The plot scheduler and the run of a record. In a running plot: TASK_ISSUE gives the head record of the stream served
next to the free matrix engine once its checks pass, with its capabilities and no row retired, and takes it from the
records held; a record that fails a check is taken from them without reaching an engine. TASK_WAIT_RECHECK marks the
one waiting head record whose word is full as seen, with the edges of the fill. TASK_COMPLETE takes the task's next
micro-step, and the last of them frees the engine and gives the stream's next record its edges. -/
def Obligations.TileTasksRun : Prop :=
  ∀ s m i0, (mcbAt s m).inv = some i0 → i0.halted = false → i0.stage = .running →
    (∀ n k t, let i := i0.serve (readyStreams s m i0); let u := noteReady s m
      i.nextServed = some n → freeEngine u m = some k → headRecord u m i n = some t → t.parked = none →
      let t' := { t with edges := t.edges.join (mapGet EdgeSet.none i.taskEdges n) }
      (∀ edges caps kt saw s1, does (issueRecord (recordWho u m k t') m t') { u with turn := k } (.run edges caps kt none saw) s1 →
        ∃ v x, exec (.taskIssue m) s = .next v ∧ (coreAt v k).mat.task = some x ∧ x.task = { t' with ask := none } ∧ x.edges = edges ∧ x.caps = caps ∧
          x.rows = 0 ∧ x.epi = 0 ∧ x.hit = none ∧ (∀ j, (mcbAt v m).inv = some j → ∀ y ∈ j.tasks, y.n ≠ t.n) ∧
          (saw = none → v.mem = s1.mem)) ∧
      (∀ f s1, (issueRecord (recordWho u m k t') m t').run { u with turn := k } = .error (.fault f) s1 →
        ∃ v, exec (.taskIssue m) s = .next v ∧ (coreAt v k).mat.task = none ∧ (Ringless s → f.cls ≠ 9 → v.mem = s.mem) ∧
          ∀ j, (mcbAt v m).inv = some j → ∀ y ∈ j.tasks, y.n ≠ t.n)) ∧
    (∀ n t e key s1, n < 256 → headRecord s m i0 n = some t → t.wen = true → t.seen = false → t.since = 0 →
      (∀ n', n' ≠ n → ∀ t', headRecord s m i0 n' = some t' → t'.wen = false ∨ t'.seen = true) →
      does (readWaitWord (recordWho s m t.core t) m t) { s with turn := t.core } (some (e, key, none)) s1 → (mcbAt s1 m).inv = some i0 →
      ∃ v j, exec (.taskWaitRecheck m) s = .next v ∧ (mcbAt v m).inv = some j ∧ v.mem = s1.mem ∧
        j.tasks = i0.tasks.map (fun u => if u.n == t.n then { u with seen := true, failed := false, edges := u.edges.join e } else u)) ∧
    ∀ k x u s1, enginesRun s k = true → (coreAt s k).bound = some m → (coreAt s k).mat.task = some x → x.parked = none → x.hit = none →
      (does (taskStep { x with
          parked := none, ask := none }) { s with turn := k } (.beat u none) s1 → ∃ v, exec (.taskComplete k) s = .next v ∧
        (coreAt v k).mat.task = some { u with hit := none } ∧ v.mem = s1.mem ∧ (coreAt v k).th = (coreAt s1 k).th) ∧
      (does (taskStep { x with
          parked := none, ask := none }) { s with turn := k } (.still u) s1 → ∃ v, exec (.taskComplete k) s = .next v ∧
        (coreAt v k).mat.task = some u ∧ v.mem = s1.mem ∧ (coreAt v k).th = (coreAt s1 k).th) ∧
      (does (taskStep { x with
          parked := none, ask := none }) { s with turn := k } (.done u) s1 → (mcbAt s1 m).inv ≠ none →
        ∃ v j, exec (.taskComplete k) s = .next v ∧ (coreAt v k).mat.task = none ∧ v.mem = s1.mem ∧ (mcbAt v m).inv = some j ∧
          mapFind j.taskEdges u.task.stream ≠ none)

/-- The ends of waits, replay and expiry. A core whose plot runs and whose hold may go on completes its held word when
what it waits for has come: om.claim takes an EMPTY slot, eq.fence goes on without a named command, exit retires a
drained core, gen.pass advances once no core of the plot is three generations behind, lwait completes beyond the
HORIZON, a fence whose core's writes have performed closes its region, pbar makes the core's stores durable, a held
ld.fe takes a full word and leaves it empty, a bar.wait completes in the next phase; a stalled port word issues next.
A full/empty form held past its grant is sent again and, while its word stays empty, holds again. The first hoard-log
entry whose page is usable performs and leaves the log. Expired translations are dropped and no others. A renewal
walks the pages that a running command works on. An access that no path serves for 1 ms, or no answer for 65 ms,
faults its word or its engine command with SUB 3, and not before (that the timeout is 65 ms is the model's choice: log
entry 136). -/
def Obligations.WaitsEnd : Prop :=
  (∀ s k h, (coreAt s k).hold = some h → threadRuns s k = true → stillHeld s k h = false → let s' := { s with turn := k }; let c := coreAt s k
    let ends := fun (i : Instr) (z : BitVec 1) (P : State → Prop) => ∃ u, exec i s = .next (wordEnd s' u (z == 1) .seq) ∧ P u
    (∀ z n, h.kind = .slot → h.ins = .omClaim z n → (c.slot n.toNat).state = .empty → (c.slot n.toNat).releasing = false →
      ends (.omClaimWaitEnd k) z (fun u => ((coreAt u k).slot n.toNat).state = .filling ∧ theThread u = c.th)) ∧
    (∀ z m, h.kind = .eqFence → h.ins = .eqFence z m → (∀ x ∈ c.cmds, maskNames m x.eng = false) → (m.getLsbD 3 = true → c.posted = []) →
      ends (.eqFenceEnd k) z (fun u => theThread u = c.th ∧ u.mem = s.mem)) ∧
    (h.kind = .drain → h.ins = .exit → c.cmds = [] → drained s' →
      ∃ u, exec (.exitDrainEnd k) s = .next (wordEnd s' u false .done) ∧ (coreAt u k).retired = true) ∧
    (∀ z m v, h.kind = .generation → h.ins = .genPass z → c.bound = some m → (mcbAt s m).inv = some v → drained s' → c.flight = [] → (∀ e ∈ s.switch, e.ofCore k = false) →
      (∀ j ∈ (mcbAt s m).plot, c.gen < (coreAt s j).gen + 3) → ends (.genPassWaitEnd k) z (fun u => (coreAt u k).gen = c.gen + 1)) ∧
    (∀ z kd sc, (h.kind = .hoarded ∨ h.kind = .fence) → h.ins = .fence z kd sc → kd ≠ 0 → kd ≠ 1 → drained s' →
      (4 ≤ sc.toNat → c.flight = [] ∧ ∀ e ∈ s.switch, e.ofCore k = false) →
      ends (.fenceComplete k) z (fun u => (coreAt u k).region = c.region + 1 ∧ theThread u = c.th)) ∧
    (∀ z, (h.kind = .hoarded ∨ h.kind = .fence) → h.ins = .pbar z →
      (∀ g ∈ c.hoard, g.cap.sp = 3 → g.who.agent.isThread = false) → (∀ f ∈ c.flight, f.place.sp ≠ 3) →
      (∀ d ∈ s.mute, keySpace d.1 = 3 → d.2.2 ≤ s.pt) → ends (.fenceComplete k) z (fun u => (coreAt u k).pmemDirty = false)) ∧
    (∀ z (a : BitVec 5), let p := c.th.getC a.toNat
      h.kind = .lease → h.ins = .lwait z a → p.tag = true → p.ver = 1 → p.perm &&& permSYS = permSYS → p.sp = 0 →
      h.until_ < localPt s k → ends (.lwaitEnd k) z (fun u => theThread u = c.th ∧ u.mem = s.mem)) ∧
    (∀ z d (a : BitVec 5) (i : BitVec 10) r s1, let p := c.th.getC a.toNat; let ea := (p.cur : Int) + i.toInt * 8
      h.kind = .flag → h.ins = .ldFe z d a i → p.sp = 0 → ea.toNat % 8 = 0 → admits p (permLD ||| permFE) ea 8 →
      drained s' → reaches s' p ea.toNat 8 true r s1 → feFull s1 (r.key / 8) = true →
      laterThanOthers s1 (reached s1 k r.key) k r.key true = false → d.toNat < 56 →
      ends (.feWaitSatisfied k) z (fun u => feFull u (r.key / 8) = false ∧
        theThread u = c.th.setS d.toNat (BitVec.ofNat 64 (leNat (bytesAt s1 (whoNow s').mcb p ea.toNat 8 r))))) ∧
    (∀ z (a : BitVec 5) r s1 t, let p := c.th.getC a.toNat
      let line := BitVec.ofNat 512 (leNat (bytesAt s1 (whoNow s').mcb p p.cur 64 r))
      h.kind = .barrier → h.ins = .barWait z a → p.sp = 0 → p.cur % 64 = 0 → admits p permFE p.cur 64 → reaches s' p p.cur 64 false r s1 →
      barValid line = true → btFind (coreAt s1 k) (mcbAt s (whoNow s').mcb).otPhys p.obj p.cur = some t → t.arrived = true →
      t.epoch = barEpoch line → barPhase line = t.phase + 1 → ends (.barWaitCompletion k) z (fun u => theThread u = c.th)) ∧
    (h.kind = .port → portAnswers s k h.flag = true →
      exec (.queuePortStallEnd k) s = .next { s with turn := k, agenda := .thread k :: s.agenda })) ∧
  (∀ s k h z d (a : BitVec 5) (i : BitVec 10) r s1, (coreAt s k).hold = some h → threadRuns s k = true →
    (∀ o, h.place = some o → h.lease + 8 < placePt s o.2.2.sp o.2.2.addr) → h.place ≠ none → h.kind = .flag → h.issued = true →
    h.ins = .ldFe z d a i → let s' := { s with turn := k }; let p := (coreAt s k).th.getC a.toNat; let ea := (p.cur : Int) + i.toInt * 8
    p.sp = 0 → ea.toNat % 8 = 0 → admits p (permLD ||| permFE) ea 8 → d.toNat < 56 → drained s' →
    reaches s' p ea.toNat 8 true r s1 → feFull s1 (r.key / 8) = false →
    ∃ t g, exec (.heldFormWithdrawal k) s = .next t ∧ (coreAt t k).hold = some g ∧ g.kind = .flag ∧ g.flag = r.key ∧ (h.flag = r.key → g.since = h.since) ∧
      (coreAt t k).th = (coreAt s k).th ∧ t.mem = s.mem ∧ t.fe = s.fe) ∧
  (∀ s k, replays s k = true → let c := coreAt s k
    (∀ g rest s1, c.hoard = g :: rest → g.held = none → (g.extent = 0 ∨ extentUsable s g.extent true = true) →
      does (replayEntry k g) { s with turn := k } (none, none) s1 → (coreAt s1 k).hoard = c.hoard →
      ∃ t, exec (.parkedAccessReplay k) s = .next t ∧ (coreAt t k).hoard = rest ∧ (g.wait = none → t.mem = s1.mem) ∧ (coreAt t k).th = (coreAt s1 k).th) ∧
    (∀ h, c.hoard = [] → c.hold = some h → h.kind = .parked → threadRuns s k = true → stillHeld s k h = false →
      exec (.parkedAccessReplay k) s = .next { s with turn := k, agenda := .thread k :: s.agenda })) ∧
  (∀ s k, ∃ t, exec (.xtlbEntryExpiry k) s = .next t ∧
    (∀ e, e ∈ (coreAt t k).xtlb ↔ e ∈ (coreAt s k).xtlb ∧ localPt s k < e.expiry) ∧
    (∀ e, e ∈ (islandAt t (islandOf k)).xtlb2 ↔ e ∈ (islandAt s (islandOf k)).xtlb2 ∧ localPt s k < e.expiry) ∧
    (coreAt t k).th = (coreAt s k).th ∧ t.mem = s.mem ∧ ∀ j, j ≠ k → coreAt t j = coreAt s j) ∧
  (∀ s k e n x t, enginesRun s k = true →
    ((coreAt s k).cmds.filter (fun x => x.eng == e && x.started && x.posting.isNone && x.ending.isNone))[n]? = some x →
    does ((workPages x).forM (renewPage (whoCmd s k x))) { s with turn := k } () t →
    exec (.leaseRenewal k e n) s = .next t) ∧
  ∀ s k i nepol, awaiter s k = none → coreInv s k = some i → i.kill = none → let c := coreAt s k
    let late := if nepol = true then exec (.nepolPathTimeout k) s else exec (.completionTimeout k) s
    let limit := if nepol = true then 1000000 else 65000000
    let far := fun (key : Nat) => decide (4 ≤ keySpace key) = nepol
    let fault : Nat → FaultRec := fun off => { cls := 0, sub := 3, addr := BitVec.ofNat 64 off }
    (∀ h, awaited s k = some h → far h.flag → h.since + limit ≤ s.pt →
      late = .next (threadFault (s.updCore k (fun c => { c with hold := none })) k (fault h.lease))) ∧
    ((∀ h, awaited s k = some h → far h.flag → s.pt < h.since + limit) → c.flight = [] → (∀ e ∈ s.switch, e.ofCore k = false) →
      c.mat.task = none → (∀ t ∈ i.tasks, t.ask = none) →
      ((∀ x ∈ c.cmds, ∀ a, x.ask = some a → far a.key → s.pt < a.since + limit) → late = .next s) ∧
      ∀ x a, x ∈ c.cmds → x.ask = some a → silent s a.key 1 = true → far a.key → a.since + limit ≤ s.pt → enginesRun s k = true →
        (∀ y ∈ c.cmds, y.ask ≠ none → y = x) → late = .next (endFaulted s k { x with
          started := true, ask := none } (fault a.off)))

/-- Packets, their waits, and the command port. A running stream whose packet does not wait executes each packet: the
packet after it is next, unless it enters or leaves a buffer or returns in a loop; LAUNCH enters a KIND 2 entry in the
queue of its block, and with W = 1 waits for the retirement, and is dropped and counted while the Sower is not ready;
IB, COND and SWITCH enter their buffer; PRED skips when its condition fails; LOOP and ENDLOOP count passes, at most 4
deep; WRITE and SIGNAL write memory; WAIT and FFENCE wait until what they wait for holds; END leaves a buffer or stops
the stream. A reserved condition or size stops the stream with code 2, a place outside DOBJ with 3, a fifth buffer
level with 4, a loop error with 5, an unknown FUNCID with 6. A stream whose STREAM.CLOSE waits closes, and that
command completes, when its packet is over. The end of each wait completes its packet. In the modes that ZCEN names
zc.push appends a word and returns the free words left, zc.fence of an idle port returns STRSTAT and one that a
pending interrupt ends 2^63, and zc.stat returns what rs1 names; in other modes they are illegal instructions. The
ring's layout and the codes of places outside DOBJ, that zc.fence ends without a stream, the modes and traps of the
RISC-V specification, and when a word leaves a command port, are the model's readings (log entries 77, 88, 13 and
118). -/
def Obligations.StreamPackets : Prop :=
  (∀ s n x w, mapFind s.streams n = some x → (x.depth = 0 ∨ x.pos + 4 * w < x.limit) → x.hart = none → x.levels ≠ [] →
    (∀ iss, x.closing = some iss → mapFind (packetDone s n w).streams n = none ∧ completes s (packetDone s n w) iss 0 0) ∧
    (x.closing = none → ∃ y, mapFind (packetDone s n w).streams n = some y ∧ y.pos = x.pos + 4 * w ∧ y.packets = x.packets + 1 ∧ y.wait = none ∧
      y.status = x.status ∧ y.loops = x.loops ∧ y.depth = x.depth ∧ (packetDone s n w).mem = s.mem)) ∧
  (∀ s n x, mapFind s.streams n = some x → streamReady x = true → let fails := fun code => Host.Outcome.next (packetFault s n x code)
    (∀ len, exec (.pktNop n len) s = .next (packetDone s n (1 + len.toNat))) ∧
    (∀ w f a, s.rdy.getLsbD 36 = false → exec (.pktLaunch n w f a) s = .next (packetDone (dropAtSower s x.part.toNat) n 5)) ∧
    (∀ w f a, s.rdy.getLsbD 36 = true → (lookup s x.part f = none → exec (.pktLaunch n w f a) s = fails 6) ∧
      ∀ m, lookup s x.part f = some m → let b := mcbAt s m
        (b.state = 6 → exec (.pktLaunch n w f a) s = .next (packetDone (if w then setLastst s x 2 else s) n 5)) ∧
        (b.state ≠ 6 → b.queueFull = true → exec (.pktLaunch n w f a) s = .next (streamWaits s n (.launchFull w f a))) ∧
        (b.state ≠ 6 → b.queueFull = false → x.closing = none → ∃ t e y, exec (.pktLaunch n w f a) s = .next t ∧ (mcbAt t m).entries = b.entries ++ [e] ∧
          descKind e.desc = 2 ∧ descArg e.desc = a ∧ descW e.desc = w ∧ e.stream = some n ∧ mapFind t.streams n = some y ∧
          y.launched = x.launched ++ [(m, s.nextSerial)] ∧ (w = true → y.wait = some (.retire m s.nextSerial)))) ∧
    (∀ b : BufDesc, (1048576 < b.size.toNat → exec (.pktIb n b) s = fails 2) ∧
      (b.size.toNat ≤ 1048576 → b.size ≠ 0 → 4 ≤ x.depth → exec (.pktIb n b) s = fails 4) ∧
      (b.size.toNat ≤ 1048576 → b.size ≠ 0 → x.depth < 4 → (b.addr.toNat % 4 ≠ 0 ∨ x.dlen < b.addr.toNat + 4 * b.size.toNat) →
        exec (.pktIb n b) s = fails 3) ∧
      (b.size.toNat ≤ 1048576 → (b.size = 0 ∨ x.depth < 4 ∧ b.addr.toNat % 4 = 0 ∧ b.addr.toNat + 4 * b.size.toNat ≤ x.dlen) →
        exec (.pktIb n b) s = .next (packetDone s n 4 (enterBuf b)))) ∧
    (∀ c addr ref mask cnt, ((6 ≤ c.toNat ∨ 65535 < cnt.toNat) → exec (.pktPred n c addr ref mask cnt) s = fails 2) ∧
      (c.toNat < 6 → cnt = 0 → exec (.pktPred n c addr ref mask cnt) s = fails 5) ∧
      ∀ v key t, c.toNat < 6 → 1 ≤ cnt.toNat → cnt.toNat ≤ 65535 → does (streamWord n x addr.toNat) s (v, key) t →
        exec (.pktPred n c addr ref mask cnt) s = .next (packetDone (streamAcquire n x key t) n 8
          (if condHolds c (v &&& mask) ref then id else fun y => { y with skip := (cnt.toNat, 0) }))) ∧
    (∀ k : W32, (k = 0 → exec (.pktLoop n k) s = .next (packetDone s n 2 (fun y => { y with skip := (1, 1) }))) ∧
      (k ≠ 0 → 4 ≤ x.loops.length → exec (.pktLoop n k) s = fails 5) ∧
      (k ≠ 0 → x.loops.length < 4 → exec (.pktLoop n k) s =
        .next (packetDone s n 2 (fun y => { y with loops := ⟨x.depth, x.pos + 8, k.toNat⟩ :: y.loops })))) ∧
    ((x.loops = [] → exec (.pktEndloop n) s = fails 5) ∧ ∀ l rest, x.loops = l :: rest →
      (l.level ≠ x.depth → exec (.pktEndloop n) s = fails 5) ∧
      (l.level = x.depth → l.count = 1 → exec (.pktEndloop n) s = .next (packetDone s n 1 (fun y => { y with loops := rest }))) ∧
      (l.level = x.depth → l.count ≠ 1 → exec (.pktEndloop n) s = .next (packetDone s n 1 (fun y =>
        { y.setTop { y.top with pos := l.body, words := [] } with loops := { l with count := l.count - 1 } :: rest })))) ∧
    (∀ wide addr v t, does (streamWrite n x addr.toNat (if wide then 8 else 4) (fun _ => v.toNat) permST .write) s () t →
      exec (.pktWrite n wide addr v) s = .next (packetDone t n (if wide then 5 else 4))) ∧
    (∀ c addr ref mask, (6 ≤ c.toNat → exec (.pktWaitFlag n c addr ref mask) s = fails 2) ∧
      ∀ v key t, c.toNat < 6 → does (streamWord n x addr.toNat) s (v, key) t →
        (condHolds c (v &&& mask) ref = true → x.wait = none →
          exec (.pktWaitFlag n c addr ref mask) s = .next (packetDone (streamJoin n x key t) n 7)) ∧
        (condHolds c (v &&& mask) ref = false →
          exec (.pktWaitFlag n c addr ref mask) s = .next (streamWaits t n (.flag c addr ref mask)))) ∧
    (∀ b : W64, (b.toNat + 16 < s.pt → exec (.pktWaitTime n b) s = .next (packetDone s n 3)) ∧
      (s.pt ≤ b.toNat + 16 → exec (.pktWaitTime n b) s = .next (streamWaits s n (.time b)))) ∧
    (∀ nt addr a, (x.launched ≠ [] → exec (.pktSignal n nt addr a) s = .next (streamWaits s n (.signal nt addr a))) ∧
      ∀ t, x.launched = [] → x.retired = [] → x.closing = none →
        does (streamWrite n x addr.toNat 8 (fun v => (v + a.toNat) % 2 ^ 64) (permLD ||| permST) .sync) s () t →
        ∃ u, exec (.pktSignal n nt addr a) s = .next u ∧ u.mem = t.mem ∧
          ∀ i, x.ifc = some i → (ifcAt u i).msix = (ifcAt t i).msix + if nt then 1 else 0) ∧
    exec (.pktFfence n) s = .next (streamWaits s n .ffence) ∧
    (∀ c addr ref b b', ((6 ≤ c.toNat ∨ 1048576 < b.size.toNat ∨ 1048576 < b'.size.toNat) → exec (.pktCond n c addr ref b b') s = fails 2) ∧
      ∀ v key t, c.toNat < 6 → b.size.toNat ≤ 1048576 → b'.size.toNat ≤ 1048576 → does (streamWord n x addr.toNat) s (v, key) t →
        let g := if condHolds c v ref then b else b'
        bufFault x g = none → exec (.pktCond n c addr ref b b') s = .next (packetDone (streamAcquire n x key t) n 11 (enterBuf g))) ∧
    (∀ addr b (l : List BufDesc) v key t, l ≠ [] → l.length ≤ 16 → (∀ g ∈ b :: l, g.size.toNat ≤ 1048576) →
      does (streamWord n x addr.toNat) s (v, key) t → let g := l.getD v.toNat b
      bufFault x g = none →
        exec (.pktSwitch n addr b l) s = .next (packetDone (streamAcquire n x key t) n (6 + 3 * l.length) (enterBuf g))) ∧
    (((∃ l ∈ x.loops, l.level = x.depth) → exec (.pktEnd n) s = fails 5) ∧ ((∀ l ∈ x.loops, l.level ≠ x.depth) →
      exec (.pktEnd n) s = .next (packetDone s n 1 (fun y => if x.depth = 0 then { y.discard with status := .ended }
        else { y with levels := y.levels.tail, skip := (0, 0) }))))) ∧
  (∀ s n x, mapFind s.streams n = some x →
    (∀ w f a m, s.rdy.getLsbD 36 = true → x.wait = some (.launchFull w f a) → lookup s x.part f = some m → (mcbAt s m).state ≠ 6 → (mcbAt s m).queueFull = false →
      ∃ t e, exec (.launchEnqueueRetry n) s = .next t ∧ (mcbAt t m).entries = (mcbAt s m).entries ++ [e] ∧ descKind e.desc = 2 ∧
        descArg e.desc = a) ∧
    (∀ m sn st g, x.wait = some (.retire m sn) → x.retired.find? (fun r => r.1 == m && r.2.1 == sn) = some (m, sn, st, g) →
      ∃ t, exec (.launchRetireWaitEnd n) s = .next t ∧ ∀ i, x.ifc = some i → (ifcAt t i).lastst = BitVec.ofNat 64 st.toNat) ∧
    (∀ c addr ref mask v key t, x.wait = some (.flag c addr ref mask) → does (streamWord n x addr.toNat) s (v, key) t →
      (condHolds c (v &&& mask) ref = true → exec (.waitReread n) s =
        .next (packetDone (waitPacketRecord (streamJoin n x key t) n x key) n 7)) ∧
      (condHolds c (v &&& mask) ref = false → exec (.waitReread n) s = .next (streamWaits t n (.flag c addr ref mask)))) ∧
    (∀ b, x.wait = some (.time b) → b.toNat + 16 < s.pt → exec (.waitTimeEnd n) s = .next (packetDone s n 3)) ∧
    (∀ nt addr a t, x.wait = some (.signal nt addr a) → x.launched = [] → x.retired = [] → x.closing = none →
      does (streamWrite n x addr.toNat 8 (fun v => (v + a.toNat) % 2 ^ 64) (permLD ||| permST) .sync) s () t →
      ∃ u, exec (.signalAdd n) s = .next u ∧ u.mem = t.mem) ∧
    (x.wait = some .ffence → exec (.ffenceRefetch n) s = .next (packetDone s n 1 Stream.discard))) ∧
  ∀ s (a d : BitVec 5), let h := hartAt s s.hart; let port := portStream s h
    let returns := fun (i : Instr) (v : W64) => ∃ t, exec i s = .next t ∧ (hartAt t s.hart).reg d = (if d = 0 then 0 else v) ∧
      (hartAt t s.hart).pc = h.pc + 4 ∧ t.mem = s.mem
    (h.zcOn = false → ∀ i ∈ [Instr.zcPush a d, .zcFence d, .zcStat a d], exec i s = .next (illegalHart s s.hart)) ∧
    (h.zcOn = true →
      ((∀ p, port = some p → 256 ≤ p.2.fifo.length) → returns (.zcPush a d) (BitVec.allOnes 64)) ∧
      (∀ p, port = some p → p.2.fifo.length < 256 → returns (.zcPush a d) (BitVec.ofNat 64 (255 - p.2.fifo.length)) ∧
        ∃ t y, exec (.zcPush a d) s = .next t ∧ mapFind t.streams p.1 = some y ∧
          y.fifo = p.2.fifo ++ [BitVec.ofNat 32 (h.reg a).toNat] ∧ y.tail = p.2.tail + 4) ∧
      (portIdle s h = true → returns (.zcFence d) h.strstat) ∧
      (portIdle s h = false → h.pendingIrq = true → returns (.zcFence d) (BitVec.ofNat 64 (2 ^ 63))) ∧
      (portIdle s h = false → h.pendingIrq = false → exec (.zcFence d) s = .next (s.updHart s.hart (fun x => { x with fencing := true }))) ∧
      returns (.zcStat a d) (match (h.reg a).toNat with
        | 0 => h.strstat
        | 1 => h.lastst
        | 2 => BitVec.ofNat 64 ((port.map (·.2.packets)).getD 0)
        | 3 => BitVec.ofNat 64 (256 - ((port.map (·.2.fifo.length)).getD 0))
        | _ => BitVec.allOnes 64))

/-- Retirement, kill, halt release, pre-emption, watchdog and skew. Once every core of a running plot has retired and no
task is left, INVOCATION_RETIREMENT pops the entry, frees the cores and leaves the block IDLE or QUEUED. KILL_COMPLETE
does the same of a killed invocation whose accesses have landed, and enters the stop records of the cut that began it
in the kill ring. HALT_RELEASE of a fault halt brings down the halt line, and a core with a report under route code 0
whose handler is valid enters it. PREEMPT_LAND_COMPLETE passes from landing to saving once nothing that was sent is
still to land; SAVE_COMPLETE leaves the block SUSPENDED with its cores saved and freed; an answer that arrives late is
written into its entry. T1 requests a pre-emption or counts T1SKIP, T2 starts a kill and takes that cut, T3 fences the
plot and fails the block. A deviation of more than 8 ns drops the translations of a core and sets its copy, or that of
its engine, right without setting it back, and three within a millisecond fence it; a controller refuses leases until
its copy is resynchronised. -/
def Obligations.InvocationsEnd : Prop :=
  ∀ s m i, let b := mcbAt s m
    b.inv = some i → let plot := plotCores i.ox i.oy b.wlog.toNat b.hlog.toNat
    let gone := fun (t : State) => (mcbAt t m).inv = none ∧ (mcbAt t m).entries = b.entries.tail ∧ (mcbAt t m).qhead = b.advance b.qhead ∧
      t.mem = s.mem ∧ ∀ k ∈ plot, (coreAt s k).bound = some m → (coreAt t k).bound = none
    let rest := if b.entries.tail = [] then (0 : BitVec 3) else 1
    (i.stage = .running → i.kill = none → plot ≠ [] → (∀ k ∈ plot, (coreAt s k).retired = true ∧ (coreAt s k).mat.task = none) → i.tasks = [] →
      ∃ t, exec (.invocationRetirement m) s = .next t ∧ gone t ∧ (mcbAt t m).state = rest) ∧
    (∀ st, i.kill = some st → (∃ k ∈ plot, awaitsFar s k = true) → exec (.killComplete m) s = .next s) ∧
    (∀ st, i.kill = some st → (∀ k ∈ plot, awaitsFar s k = false) →
      ∃ t, exec (.killComplete m) s = .next t ∧ (mcbAt t m).inv = none ∧ (mcbAt t m).state = rest ∧
        (mcbAt t m).entries = b.entries.tail ∧
        (ringIfcs s b.part.toNat = [] →
          (partAt t b.part.toNat).killRing = ((partAt s b.part.toNat).pushKill i.killRecords).killRing) ∧ (∀ k ∈ plot, (coreAt s k).bound = some m → (coreAt t k).bound = none)) ∧
    (i.faultHalt = true → i.held = false → i.debugStop = false → i.kill = none → i.preempt = .none →
      ∃ t, exec (.haltRelease m) s = .next t ∧ (∀ j, (mcbAt t m).inv = some j → j.faultHalt = false) ∧
        ∀ k f, plot.Nodup → k ∈ plot → firstRoute s m k = some 0 → (coreAt s k).pending.head? = some f →
          (coreAt s k).th.handler.tag = true → (coreAt s k).th.handler.ver = 1 → (∀ j ∈ plot, (coreAt s j).th.hcap.tag = false) →
          (∀ j ∈ plot, j ≠ k → firstRoute s m j ≠ some 0) → let h := (coreAt t k).th
          h.h = true ∧ h.pc = BitVec.ofNat 64 (coreAt s k).th.handler.cur ∧ h.cause = f.cause ∧ h.faddr = f.addr ∧
          h.epc = f.epc.getD (coreAt s k).th.pc ∧ h.estatus = (coreAt s k).th.status ∧ (coreAt t k).hold = none) ∧
    (i.preempt = .stop → i.kill = none →
      ((∃ k ∈ plot, landing s m k = true) → exec (.preemptLandComplete m) s = .next s) ∧
      ((∀ k ∈ plot, landing s m k = false) → ∃ t j, exec (.preemptLandComplete m) s = .next t ∧ (mcbAt t m).inv = some j ∧
        j.preempt = .save ∧
        ∀ k ∈ plot, ∀ h, (coreAt s k).hold = some h → ((k, none) ∈ j.awaiting ↔ h.kind = .answer ∧ h.word ≠ none))) ∧
    (∀ run, i.preempt = .save → i.kill = none → i.savePages = some run → plot.Nodup →
      ∃ t, exec (.saveComplete m) s = .next t ∧ (mcbAt t m).state = 5 ∧ (mcbAt t m).savepa = BitVec.ofNat 64 (65536 * run.1) ∧
        (∀ k ∈ plot, (∃ c, (k, c) ∈ (mcbAt t m).saved ∧ { c with counters := (coreAt s k).counters } = coreAt s k) ∧
          (coreAt t k).bound = none) ∧
        ∃ j, (mcbAt t m).inv = some j ∧ j.preempt = .none ∧ j.stage = .search) ∧
    (∀ k v, (k, none) ∈ i.awaiting → i.kill = none → ∃ t j, exec (.awaitingAnswerArrival m k v) s = .next t ∧ (mcbAt t m).inv = some j ∧
      (k, some v) ∈ j.awaiting ∧ (k, none) ∉ j.awaiting ∧ t.cores = s.cores) ∧
    (b.state = 3 → s.mode.getLsbD 2 = false →
      (i.ladder = .count → b.t1.toNat * watchUnit b ≤ i.wdt → i.kill = none →
        (saveRun s m ≠ none → ∃ t j, exec (.t1Expiry m) s = .next t ∧ (mcbAt t m).state = 4 ∧ (mcbAt t m).inv = some j ∧ j.ladder = .t1done) ∧
        (saveRun s m = none → ∃ t, exec (.t1Expiry m) s = .next t ∧ (mcbAt t m).state = 3 ∧
          mapGet 0 (partAt t b.part.toNat).fixed 2 = mapGet 0 (partAt s b.part.toNat).fixed 2 + 1)) ∧
      (i.ladder = .t1done → b.t2.toNat * watchUnit b ≤ i.wdt → i.kill = none → ∃ t j, exec (.t2Expiry m) s = .next t ∧
        (mcbAt t m).inv = some j ∧ j.kill = some 5 ∧ j.ladder = .killing ∧ j.killRecords = plotRecords (setLadder s m .killing) m 4)) ∧
    (watched b = true → i.ladder = .killing → b.t3.toNat * watchUnit b ≤ i.wdt → ∃ t, exec (.t3Expiry m) s = .next t ∧
      (mcbAt t m).state = 6 ∧ (mcbAt t m).inv = none ∧ ∀ k ∈ plot, (coreAt t k).fenced = true) ∧
    (∀ k d, (d.natAbs ≤ 8 → exec (.skewEvent (.core k) d) s = .next s) ∧
      (8 < d.natAbs → ∃ t, exec (.skewEvent (.core k) d) s = .next t ∧ (coreAt t k).xtlb = [] ∧ (coreAt t k).ptDev = 0 ∧
        localPt s k ≤ localPt t k ∧
        (2 ≤ ((coreAt s k).skews.filter (fun u => decide (localPt s k < u + 1000000))).length → (coreAt t k).fenced = true))) ∧
    (∀ k e d, 8 < d.natAbs → ∃ t, exec (.skewEvent (.engine k e) d) s = .next t ∧ (coreAt t k).xtlb = [] ∧
      mapGet 0 (coreAt t k).engDev e.toNat = 0 ∧ engPt s k e ≤ engPt t k e) ∧
    ∀ a d, ((∃ n, a = .gsramController n ∨ a = .hbmController n) ∨ a = .nepolPort) → 8 < d.natAbs →
      ∃ t u, exec (.skewEvent a d) s = .next t ∧ a ∈ t.controllersRefuse ∧ exec (.ptCopyResynchronised a) t = .next u ∧
        a ∉ u.controllersRefuse

/-- Commands on blocks, streams, queue pairs and held plots. A command from an interface that nothing has assigned changes
nothing, and one that names a block of another partition completes with DENIED alone. Where the issuer may name the
block and the checks of the command pass: INSTALL writes the block of its index, valid, with the fields of the buffer,
and answers the index; WRITE changes the masked fields and no other block; REMOVE clears V of an idle block with an
empty queue, and another is BUSY; CAPWRITE writes and tags one entry; REVOKE stores the directory entry and completes
only once package time is beyond the HORIZON read plus 16 ns, when its pages are free; QP.CREATE binds a new queue
pair and QP.DESTROY removes one; STREAM.OPEN and STREAM.TAIL open and restart a stream, and STREAM.CLOSE removes one
that does not wait, and of one whose packet waits completes only once it is over; FAULT.REPLY resumes a held plot for
which no further report is due under route code 1 or 2, or kills it. That bits of fields which the part alone sets are
ignored in a WRITE, and BUSY for a second STREAM.CLOSE, are the model's choices (log entries 70 and 79). -/
def Obligations.BlockCommands : Prop :=
  ∀ s iss, let ok := fun (t : State) (v : W64) => completes s t iss 0 v
    (∀ m, let b := mcbAt s m
      ∀ i ∈ [Instr.mcbRemove iss m, .faultReplyResume iss m, .faultReplyResumeHandler iss m, .faultReplyKill iss m],
        (accepts s iss = false → exec i s = .next s) ∧
        (accepts s iss = true → mayName s iss b.part = false → exec i s = .next (complete s iss 5 0))) ∧
    (∀ a m v segs plans p gs, accepts s iss = true → installIndex s a = .ok m → v = BitVec.ofNat 2048 (leNat (hostBytes s iss a.mcbVa 256)) →
      mcbReserved v = false → installSets v = false → mayName s iss (field v 72 4) = true → readImage s iss a.imgVa a.imgLen = some segs →
      let table := ((segs.find? (fun g => g.kind == 5)).map (·.bytes)).getD []
      let b := installBlock a v segs
      grantsGranary segs table = false → mcbRefused s m b = false → tableTaken s m b = false → (∀ g ∈ segs, slotFree s b g.obj = true) →
      islandsWait s b.part = false → placeBlock s b.part.toNat m b.funcid ≠ none → planSegs a.choice (partAt s b.part.toNat) s.granary segs = some (plans, p, gs) →
      ∃ t, exec (.install iss a) s = .next t ∧ ok t (BitVec.ofNat 64 m) ∧ (mcbAt t m).v = true ∧ (mcbAt t m).funcid = field v 0 64 ∧
        (mcbAt t m).part = field v 72 4 ∧ (mcbAt t m).entry = field v 960 32 ∧ (mcbAt t m).t1 = field v 832 16 ∧
        (mcbAt t m).otPhys = a.tablePhys ∧ (mcbAt t m).state = (if field v 768 32 = field v 800 32 then 0 else 1) ∧
        (mcbAt t m).image.tag = true ∧ (mcbAt t m).inv = none ∧ t.granary = gs) ∧
    (∀ a e, accepts s iss = true → installIndex s a = .error e → exec (.install iss a) s = .next (complete s iss e 0)) ∧
    (∀ m mask value, let old := mcbAt s m; let v := (old.bits &&& ~~~mask) ||| (value &&& mask); let b := old.withBits v mask
      allowed s iss old.part → mayName s iss b.part = true → old.v = true → mcbReserved (value &&& mask) = false →
      fieldNat mask 384 128 = 0 → mcbRefused s m b = false → tableTaken s m b = false →
      (mask &&& ~~~anyState ≠ 0 → old.state ≠ 0 → old.state ≠ 6 → exec (.mcbWrite iss m mask value) s = .next (complete s iss 2 0)) ∧
      ((mask &&& ~~~anyState = 0 ∨ old.state = 0 ∨ old.state = 6) →
        (b.funcid = old.funcid ∧ b.part = old.part ∨ placeBlock s b.part.toNat m b.funcid ≠ none) → fieldNat mask 768 64 = 0 →
        ∃ t, exec (.mcbWrite iss m mask value) s = .next t ∧
        ok t 0 ∧ (let u := mcbAt t m; u.funcid = field v 0 64 ∧ u.prio = field v 68 4 ∧ u.part = field v 72 4 ∧ u.faultpolicy = field v 96 24 ∧
          u.t1 = field v 832 16 ∧ u.t2 = field v 848 16 ∧ u.t3 = field v 864 16 ∧ u.cntthr = field v 880 16 ∧ u.tu = field v 125 3 ∧
          u.v = true ∧ u.horizon = old.horizon ∧ u.entries = old.entries ∧ (old.state ≠ 0 → old.state ≠ 6 → u.state = old.state)) ∧
        ∀ n, n ≠ m → mcbAt t n = mcbAt s n)) ∧
    (∀ m, let b := mcbAt s m
      allowed s iss b.part → b.v = true →
      ((b.state = 0 ∨ b.state = 6) → b.qhead = b.qtail → ∃ t, exec (.mcbRemove iss m) s = .next t ∧ ok t 0 ∧ (mcbAt t m).v = false ∧
        (b.pages ≠ [] → Waiting.free b.horizon.toNat b.pages b.part ∈ t.waiting)) ∧
      (((b.state ≠ 0 ∧ b.state ≠ 6) ∨ b.qhead ≠ b.qtail) → exec (.mcbRemove iss m) s = .next (complete s iss 2 0))) ∧
    (∀ m n e r s1, let b := mcbAt s m; let c : Cap := ⟨e, true⟩; let d := readDir s m c.obj
      allowed s iss b.part → b.v = true → (b.state = 0 ∨ b.state = 6) → c.ver = 1 → dirPresent d = true → dirSp d = c.sp →
      n.toNat ∉ b.capFilled → keySpace r.key < 2 →
      does (resolve (whoSower s m) b.captab.obj b.captab.sp (b.captab.lo + 16 * n.toNat) { write := false }) s r s1 →
      ∃ t, exec (.capWrite iss m n e) s = .next t ∧ ok t 0 ∧ mapGet false t.tags (r.key / 16) = true) ∧
    (∀ m obj np, let b := mcbAt s m; let d := readDir s m obj.toNat
      allowed s iss b.part → b.v = true → dirPresent d = true → (∀ n, np = some n → n < dirNpages d) →
      ∃ t g, exec (.revoke iss m obj np) s = .next t ∧ completionsOf t iss = completionsOf s iss ∧
        t.waiting = s.waiting ++ [.revoke iss b.horizon.toNat g b.part]) ∧
    (∀ n iss' h g part, s.waiting[n]? = some (.revoke iss' h g part) →
      (s.pt ≤ h + 16 → exec (.revokeWaitEnd n) s = .next s) ∧
      (h + 16 < s.pt → ∃ t, exec (.revokeWaitEnd n) s = .next t ∧ completes s t iss' 0 (BitVec.ofNat 64 s.pt) ∧
        t.waiting = s.waiting.eraseIdx n ∧ ∀ x ∈ g, ∀ p, x ∉ (partAt t p).used)) ∧
    (∀ m (px py : BitVec 5) peer, let b := mcbAt s m
      allowed s iss b.part → b.v = true → px.toNat < 2 ^ b.wlog.toNat → py.toNat < 2 ^ b.hlog.toNat →
      ∃ t n, exec (.qpCreate iss m px py peer) s = .next t ∧ ok t (BitVec.ofNat 64 n) ∧ mapFind s.qps n = none ∧
        mapFind t.qps n = some ⟨m, px.toNat, py.toNat, peer⟩) ∧
    (∀ (q : BitVec 24) x, mapFind s.qps q.toNat = some x → allowed s iss (mcbAt s x.mcb).part →
      ∃ t, exec (.qpDestroy iss q) s = .next t ∧ ok t 0 ∧ mapFind t.qps q.toNat = none) ∧
    (∀ m obj perm ring tail, let b := mcbAt s m; let d := readDir s m obj.toNat
      allowed s iss b.part → b.v = true → dirWellFormed d = true → dirPresent d = true → issuerStream s iss = none →
      ∃ t n x, exec (.streamOpen iss m obj perm ring tail) s = .next t ∧ ok t (BitVec.ofNat 64 n) ∧ mapFind s.streams n = none ∧
        mapFind t.streams n = some x ∧ x.mcb = m ∧ x.part = b.part ∧ x.status = .running ∧ x.dobj.obj = obj.toNat ∧ x.dobj.perm = perm ∧
        x.dlen = 65536 * dirNpages d ∧ issuerStream t iss = some n) ∧
    (∀ n x (tail : W64), mapFind s.streams n = some x → allowed s iss x.part →
      (x.depth = 0 → x.hart = none → ∃ t y, exec (.streamTail iss n tail) s = .next t ∧ ok t 0 ∧ mapFind t.streams n = some y ∧ y.tail = tail.toNat ∧
        y.status = .running) ∧
      (x.closing = none → (x.status = .running → x.wait = none) →
        ∃ t, exec (.streamClose iss n) s = .next t ∧ ok t 0 ∧ mapFind t.streams n = none) ∧
      (x.closing = none → x.status = .running → x.wait ≠ none → ∃ t, exec (.streamClose iss n) s = .next t ∧
        completionsOf t iss = completionsOf s iss ∧ mapFind t.streams n = some { x with closing := some iss }) ∧
      (x.closing ≠ none → exec (.streamClose iss n) s = .next (complete s iss 2 0))) ∧
    ∀ m i, let b := mcbAt s m
      allowed s iss b.part → b.inv = some i → i.held = true → i.kill = none → i.preempt = .none → b.state = 3 →
      (∀ k ∈ b.plot, ∀ f ∈ (coreAt s k).pending, routeOf s m f.cls ≠ 2 ∧
        (f ∈ (coreAt s k).pending.tail → routeOf s m f.cls = 0)) →
      (∃ t j, exec (.faultReplyResume iss m) s = .next t ∧ ok t 0 ∧ (mcbAt t m).inv = some j ∧ j.held = false ∧ j.kill = none) ∧
      (∃ t, exec (.faultReplyResumeHandler iss m) s = .next t ∧ ok t 0 ∧ ∀ j, (mcbAt t m).inv = some j → j.held = false) ∧
      (∃ t j, exec (.faultReplyKill iss m) s = .next t ∧ ok t 0 ∧ (mcbAt t m).inv = some j ∧ j.kill = some 5)

/-- Banks, trace units, breakpoints, watchpoints, snapshot and samples. For an issuer that may name an existing partition:
CLAIM of a free bank or trace unit makes the issuer its owner, the hypervisor's CLAIM of a guest's saves the guest's
counters and selections, and a guest that finds another owner is told BUSY; RELEASE frees an owned unit, and gives a
taken one back to its guest with the saved counters and DISC set; READ by the owner returns the unit's status and
clears a guest's DISC, and WRITE sets the selections; one that does not own it is told so. SNAPSHOT returns the number
of open waits. BPWRITE sets a register; WPWRITE completes only when the setting binds, 64 cycles of the partition's
slowest island later; SAMPLE sets the sampling unit, and SAMPLE_TICK adds one record per selected core when a period
is over. DBGCFG gives the wait ring its place. An absent unit or a reserved field is BAD_FIELD. That BUSY and not-
owner are RES of a completion with STATUS OK, which unit and cycles SAMPLE takes, and the island whose cycles bind a
watchpoint, are the model's readings (log entries 91, 93 and 94). -/
def Obligations.DebugCommands : Prop :=
  ∀ s iss (part : BitVec 4), let p := partAt s part.toNat; allowed s iss part → p.exists_ = true →
    let q := fun (t : State) => partAt t part.toNat
    (∀ u : BitVec 3, 6 ≤ u.toNat → ∀ va sel, ∀ i ∈ [Instr.bankClaim iss part u, .bankRelease iss part u, .bankRead iss part u va,
      .bankWrite iss part u sel], exec i s = .next (complete s iss 1 0)) ∧
    (∀ u : BitVec 3, u.toNat < 6 → let b := p.bank u.toNat
      let becomes := fun (i : Instr) (b' : Bank) (res : W64) => ∃ t, exec i s = .next t ∧ completes s t iss 0 res ∧ (q t).bank u.toNat = b' ∧
        ∀ v, v ≠ u.toNat → (q t).bank v = p.bank v
      (∀ g, iss.ifc = some g →
        (b.owner = .free → b.disc = false → becomes (.bankClaim iss part u) { b with owner := .guest g } 0) ∧
        (b.owner = .hyp → becomes (.bankClaim iss part u) b 1 ∧ becomes (.bankRelease iss part u) b 2) ∧
        (b.owner = .guest g →
          becomes (.bankRelease iss part u) { b with owner := .free, disc := false } 0 ∧
          (∀ va, becomes (.bankRead iss part u va) { b with disc := false } (if b.disc then 4 else 0)) ∧
          ∀ sel : BitVec 64, (u.toNat < 4 → ∀ j < 8, fieldNat sel (8 * j) 8 < 12) → (4 ≤ u.toNat → sel = 0) →
            becomes (.bankWrite iss part u sel) { b with sel := sel } (if b.disc then 4 else 0)) ∧
        (∀ va, b.owner = .free → ∃ t, exec (.bankRead iss part u va) s = .next t ∧ completes s t iss 0 2 ∧ q t = p)) ∧
      (iss.ifc = none →
        (b.owner = .free → becomes (.bankClaim iss part u) { b with owner := .hyp } 0) ∧
        (b.owner = .hyp → becomes (.bankRelease iss part u) { b with owner := .free } 0) ∧
        (∀ g, b.owner = .guest g →
          becomes (.bankClaim iss part u) { b with owner := .taken g, savedCounters := b.counters, savedSel := b.sel } 0) ∧
        (∀ g, b.owner = .taken g → becomes (.bankRelease iss part u)
          { owner := .guest g, counters := b.savedCounters, sel := b.savedSel, savedCounters := [], savedSel := 0, disc := true } 0) ∧
        (∀ va, b.owner = .hyp → u.toNat < 4 → ∃ t, exec (.bankRead iss part u va) s = .next t ∧
          memBytes t.mem (hostKey 0 va) 64 = (List.range 8).flatMap (fun i => leBytes 8 (mapGet 0 b.counters i).toNat)))) ∧
    (∀ va, ∃ t, exec (.snapshot iss part va) s = .next t ∧ completes s t iss 0 (BitVec.ofNat 64 (openWaits s part).length) ∧ t.cores = s.cores) ∧
    (∀ (n : BitVec 2) (v : W64),
      (v.getLsbD 48 = false → (fieldNat v 46 2 ≠ 0 ∨ fieldNat v 30 16 ≠ 0) → exec (.bpWrite iss part n v) s = .next (complete s iss 1 0)) ∧
      ((v.getLsbD 48 = true ∨ fieldNat v 46 2 = 0 ∧ fieldNat v 30 16 = 0) → ∃ t, exec (.bpWrite iss part n v) s = .next t ∧
        completes s t iss 0 0 ∧ mapGet 0 (q t).bps n.toNat = v ∧ ∀ j, j ≠ n.toNat → mapGet 0 (q t).bps j = mapGet 0 p.bps j)) ∧
    (∀ (n : BitVec 3) v, (watchOk v = true → exec (.wpWrite iss part n v) s =
        .next { s with waiting := s.waiting ++ [.watchpoint iss part n.toNat v (s.pt + nsOf (slowestRate s part.toNat) 64)] }) ∧
      (watchOk v = false → exec (.wpWrite iss part n v) s = .next (complete s iss 1 0))) ∧
    (∀ cores period (u : BitVec 1), 1024 ≤ period → period ≤ 2 ^ 24 → (∀ k ∈ cores, k < 1024 ∧ corePart s k = some part) →
      (p.bank (4 + u.toNat)).owner = .free → ∃ t, exec (.sample iss part cores period u) s = .next t ∧ completes s t iss 0 0 ∧
        (q t).sample = (cores, period, u.toNat, s.pt + samplePeriod s cores period)) ∧
    (∀ cores period u due, p.sample = (cores, period, u, due) → cores ≠ [] →
      (s.pt < due → exec (.sampleTick part.toNat) s = .next s) ∧
      (due ≤ s.pt → ∃ t, exec (.sampleTick part.toNat) s = .next t ∧
        mapGet [] (q t).traces u = mapGet [] p.traces u ++ cores.map (sampleBytes s) ∧
        (q t).sample = (cores, period, u, due + samplePeriod s cores period) ∧ t.cores = s.cores)) ∧
    (∀ base len targets, iss.ifc = none → physExists 1 base len = true → ∃ t, exec (.dbgCfg iss part base len targets) s = .next t ∧
      completes s t iss 0 0 ∧ (q t).waitRing = (base, len) ∧ (q t).traceTargets = targets ∧ (q t).waits = Ring.empty)

/-- Interfaces, partitions, keys, replay, windows, dirty tracking, checkpoint and reset. While the host link is ready, the
registers of an interface take what software writes, and the doorbell moves the tail and takes its place among the
doorbells; while it is not, no write comes. Beyond its registers an interface's page reads as zero. A hypervisor
command from an assigned interface completes with DENIED alone. From the hypervisor: ASSIGN gives an interface its
partition and PASID; PARTITION assigns islands that no bound context uses and are ready, with pools, INVPORT and
ingress pairs, and refuses a mask that is empty or leaves another partition without one (the status, BADFIELD, is the
model's choice: log entry 122); KEYSLOT writes or erases a slot; REPLAY sends every parked access of the masked
partitions again; the WINDOW commands write their tables; BITMAP.SWAP sets the switch time 1,000 ns ahead and
completes at the switch, once every controller's copy of package time has reached it, and a second one meanwhile is
BUSY; CHECKPOINT freezes its partitions and completes once no context of them is bound, thawing them or not; RESET
stops a partition, and its scrub leaves every byte of its pools zero, its blocks gone and its cores as reset but for
their copies of package time and the writes on their way from them, and completes it. The refusals of PARTITION, the
layout of KEYSLOT's keys, and BUSY for a second BITMAP.SWAP are the model's choices (log entries 82, 83 and 157). -/
def Obligations.HypervisorCommands : Prop :=
  (∀ s n (v : W64), let x := ifcAt s n
    (∀ o : BitVec 12, 0x058 ≤ o.toNat → x.register o = 0) ∧
    (s.rdy.getLsbD 8 = false → ∀ o, ∀ i ∈ [Instr.sqtailDoorbell n v, .cqheadWrite n v, .interfaceRegisterWrite n o v], exec i s = .next s) ∧
    (s.rdy.getLsbD 8 = true →
    exec (.sqtailDoorbell n v) s = .next { s.updIfc n (fun x => { x with sqtail := v }) with bells := s.bells ++ [(n, v)] } ∧
    exec (.cqheadWrite n v) s = .next (s.updIfc n (fun x => { x with cqhead := v })) ∧
    ∀ o : BitVec 12, ∃ t, exec (.interfaceRegisterWrite n o v) s = .next t ∧ t.mem = s.mem ∧ let y := ifcAt t n
      y.sqbase = (if o = 0x000 then v else x.sqbase) ∧ y.sqlog = (if o = 0x008 then v else x.sqlog) ∧
      y.cqbase = (if o = 0x020 then v else x.cqbase) ∧ y.cqlog = (if o = 0x028 then v else x.cqlog) ∧
      y.rings = (if o = 0x050 then v else x.rings) ∧ y.sqhead = x.sqhead ∧ y.cqtail = x.cqtail ∧ y.strstat = x.strstat ∧
      y.lastst = x.lastst)) ∧
  (∀ s iss g, iss.ifc = some g → accepts s iss = true → ∀ a n (p : BitVec 4) (k : BitVec 12) (m : BitVec 16) id tgt d f b e (w : BitVec 6) x y,
    ∀ i ∈ [Instr.assign iss n p id, .partition iss a, .keyslot iss k none m, .replay iss m, .checkpoint iss m tgt d f,
      .bitmapSwap iss b, .partitionReset iss p, .windowReduction iss w x y e, .windowExport iss n none],
      exec i s = .next (complete s iss 5 0)) ∧
  (∀ s iss, iss.ifc = none → let ok := fun (t : State) => completes s t iss 0 0
    (∀ n part pasid, n < 4096 → (partAt s part.toNat).exists_ = true → ∃ t, exec (.assign iss n part pasid) s = .next t ∧ ok t ∧
      (ifcAt t n).assigned = some (part, pasid) ∧ (partAt t part.toNat).pasid = pasid) ∧
    (∀ a, (a.islands = 0 ∨ takesLastIsland s a.part.toNat a.islands = true) → exec (.partition iss a) s = .next (complete s iss 1 0)) ∧
    (∀ a, a.islands ≠ 0 → takesLastIsland s a.part.toNat a.islands = false → a.invport ≠ 4791 → poolWithin a.savePool a.hbmPool = true →
      (∀ p ∈ a.ingress, p.ipv4.length ≤ 4 ∧ p.ipv6.length ≤ 4) →
      (∀ j < 16, ((islandAt s j).part = some a.part ↔ a.islands.getLsbD j = false) → islandBusy s j = false) →
      (∀ j < 16, a.islands.getLsbD j = true → s.rdy.getLsbD (20 + j) = true) →
      ∃ t, exec (.partition iss a) s = .next t ∧ ok t ∧ (∀ j < 16, (islandAt t j).part = some a.part ↔ a.islands.getLsbD j = true) ∧
        (let p := partAt t a.part.toNat; p.exists_ = true ∧ p.invport = a.invport ∧ p.gsramPool = a.gsramPool ∧ p.hbmPool = a.hbmPool ∧
          p.savePool = a.savePool ∧ p.slowPath = a.slowPath) ∧ (∀ p ∈ a.ingress, (⟨p, a.part⟩ : Ingress) ∈ t.ingress)) ∧
    (∀ slot parts (k : BitVec 768), (∃ t, exec (.keyslot iss slot (some k) parts) s = .next t ∧ ok t ∧
        mapFind t.slots slot.toNat = some ⟨field k 0 512, field k 512 256, parts⟩ ∧ t.mem = s.mem) ∧
      ∃ t, exec (.keyslot iss slot none parts) s = .next t ∧ ok t ∧ mapFind t.slots slot.toNat = none) ∧
    (∀ parts, ∃ t, exec (.replay iss parts) s = .next t ∧ ok t ∧ ∀ m ∈ maskedBlocks s parts, ∀ k ∈ (mcbAt s m).plot,
      (∀ h ∈ (coreAt t k).hoard, h.extent = 0) ∧ (∀ x ∈ (coreAt t k).cmds, x.parked = none ∨ x.parked = some 0) ∧ (coreAt t k).th = (coreAt s k).th) ∧
    (∀ (w : BitVec 6) base pages epoch, ∃ t, exec (.windowReduction iss w base pages epoch) s = .next t ∧ ok t ∧
      mapFind t.windows w.toNat = some ⟨base, pages, epoch⟩) ∧
    (∀ n e, ∃ t, exec (.windowExport iss n e) s = .next t ∧ ok t ∧ mapFind t.exports n = e) ∧
    (∀ b, (s.dirtySwitch ≠ none → exec (.bitmapSwap iss b) s = .next (complete s iss 2 0)) ∧
      (s.dirtySwitch = none → (s.dirtyAt = none ↔ b ≠ none) → ∃ t, exec (.bitmapSwap iss b) s = .next t ∧
        t.dirtySwitch = some (s.pt + 1000) ∧ t.dirtyAt = s.dirtyAt.or b ∧ completionsOf t iss = completionsOf s iss)) ∧
    (∀ parts base d f, (∀ m ∈ maskedBlocks s parts, (mcbAt s m).state ≠ 2 ∧ (mcbAt s m).state ≠ 3) →
      ∃ t, exec (.checkpoint iss parts (.pmem base) d f) s = .next t ∧ t.waiting = s.waiting ++ [.checkpoint iss parts (.pmem base) d f s.pt] ∧
        ∀ p < 16, parts.getLsbD p = true → (partAt t p).frozen = true) ∧
    (∀ part, (partAt s part.toNat).exists_ = true → (partAt s part.toNat).scrubbing = false → (∀ e ∈ s.streams, e.2.part = part → e.2.closing = none) →
      ∃ t, exec (.partitionReset iss part) s = .next t ∧ (partAt t part.toNat).scrubbing = true ∧
        (partAt t part.toNat).resetBy = some iss ∧ completionsOf t iss = completionsOf s iss)) ∧
  (∀ s n iss, s.dirtySwitch = some n → s.waiting = [.bitmap iss n] →
    ((∃ a ∈ controllers, portPt s a < n) → exec .bitmapSwitchComplete s = .next s) ∧
    ((∀ a ∈ controllers, n ≤ portPt s a) → ∃ t, exec .bitmapSwitchComplete s = .next t ∧
      completes s t iss 0 (BitVec.ofNat 64 n) ∧ t.dirtyOne = !s.dirtyOne ∧ t.dirtySwitch = none ∧ t.waiting = [])) ∧
  (∀ s iss parts tgt d stay n, s.waiting = [.checkpoint iss parts tgt d stay n] →
    ((∃ m ∈ maskedBlocks s parts, (mcbAt s m).state = 3 ∨ (mcbAt s m).state = 4) → exec .checkpointStreamsWritten s = .next s) ∧
    ((∀ m ∈ maskedBlocks s parts, (mcbAt s m).state ≠ 3 ∧ (mcbAt s m).state ≠ 4) → ∃ t, exec .checkpointStreamsWritten s = .next t ∧
      completes s t iss 0 (BitVec.ofNat 64 n) ∧ t.waiting = [] ∧
      (stay = false → ∀ p < 16, parts.getLsbD p = true → (partAt t p).frozen = false) ∧
      (stay = true → ∀ p, (partAt t p).frozen = (partAt s p).frozen))) ∧
  ∀ s part iss, let p := partAt s part.toNat
    p.scrubbing = true → p.resetBy = some iss → iss.ifc = none → s.dirtyAt = none → (∀ e ∈ s.mcbs, e.2.part = part → e.2.inv = none) →
    (∀ e ∈ s.streams, e.2.part = part → e.2.closing = none) → (∀ i n v d, .watchpoint i part n v d ∉ s.waiting) →
    ∃ t, exec (.scrubComplete part) s = .next t ∧ completes s t iss 0 0 ∧
      (∀ a, 65536 * p.gsramPool.1 ≤ a → a < 65536 * (p.gsramPool.1 + p.gsramPool.2) → a < 2 ^ 31 →
        memByte t.mem (physKey 0 0 a) = 0 ∧ feFull t (physKey 0 0 a / 8) = false ∧ mapGet false t.tags (physKey 0 0 a / 16) = false) ∧
      (∀ a, 65536 * p.hbmPool.1 ≤ a → a < 65536 * (p.hbmPool.1 + p.hbmPool.2) → a < 2 ^ 39 → memByte t.mem (physKey 1 0 a) = 0) ∧
      (∀ k, corePart s k = some part → coreAt t k = (coreAt s k).cleared) ∧ (∀ e ∈ t.mcbs, e.2.part ≠ part) ∧
      (partAt t part.toNat).scrubbing = false ∧ (partAt t part.toNat).frozen = false

/-- Firmware, device registers, bring-up and power. From the hypervisor: FWLOAD puts an image in the inactive banks, as
far as a bank reaches and with zero bytes after it, and makes them valid when it verifies, FWSWAP sets swap pending on
cores whose inactive bank is valid, ATTEST writes the report and returns its length, CORERESET of a core that no
context holds leaves it as reset but for its copies of package time and the writes on their way from it, POWER sets an
operating point, at which a running island stops for 1 µs, or gates an island that nothing uses, and is BADFIELD at a
point beyond 5, with the gate bit too. In machine mode a write of CPWD reloads the timer, of MODE and ZCEN sets them,
and of FWCTL with Q = 1 under a pending swap starts the other bank at its ENTRY; in another mode, or with a reserved
bit set, the write is an illegal instruction. A running core whose heartbeat is late starts again in its active bank.
The power manager lowers every powered island above the cap and raises it towards its set point after ten cool
measurements. THERMAL_TRIP gates every compute island and kills what runs there; WAKE boots the cores whose image
verifies; SLEEP with no core running gates every island; FUNCTION_READY sets its bit. What a gated island loses, the
interface that the boot ROM takes, the islands of the control complex and of memory, and the counting of cool
measurements are the model's readings (log entries 16, 102, 104, 105 and 107). -/
def Obligations.ControlComplex : Prop :=
  (∀ s iss, iss.ifc = none →
    (∀ harts va, (∀ h ∈ hartsOf harts, (hartAt s h).swapPending = false) → let head := hostBytes s iss va 64
      let image := hostBytes s iss va (Min.min (fwSize head) 1050624); let ok := fwHeaderOk head && fwOk image
      ∃ t, exec (.fwLoad iss harts va) s = .next t ∧ completes s t iss (if ok then 0 else 3) 0 ∧ ∀ h ∈ hartsOf harts,
        ((hartAt t h).bank (1 - (hartAt s h).active)).valid = ok ∧
        ((hartAt t h).bank (1 - (hartAt s h).active)).bytes = image ++ List.replicate (1050624 - image.length) 0 ∧
        (hartAt t h).bank (hartAt s h).active = (hartAt s h).bank (hartAt s h).active) ∧
    (∀ harts, hartsOf harts ≠ [] → (∀ h ∈ hartsOf harts, ((hartAt s h).bank (1 - (hartAt s h).active)).valid = true) →
      ∃ t, exec (.fwSwap iss harts) s = .next t ∧ t.waiting = s.waiting ++ [.fwswap iss harts] ∧
        ∀ h ∈ hartsOf harts, (hartAt t h).swapPending = true) ∧
    (∀ harts, (∃ h ∈ hartsOf harts, ((hartAt s h).bank (1 - (hartAt s h).active)).valid = false) →
      exec (.fwSwap iss harts) s = .next (complete s iss 2 0)) ∧
    (∀ nonce va, let r := Config.attestReport nonce Config.fusedSvn ((List.range 16).map (fun h =>
        (fwSvn (hartAt s h).image, Config.shake256 (hartAt s h).image)))
      ∃ t, exec (.attest iss nonce va) s = .next t ∧ completes s t iss 0 (BitVec.ofNat 64 r.length) ∧
        memBytes t.mem (hostKey 0 va) r.length = r) ∧
    (∀ x y : BitVec 5, let k := 32 * y.toNat + x.toNat
      (coreHeld s k = true → exec (.coreReset iss x y) s = .next (complete s iss 2 0)) ∧
      (coreHeld s k = false → ∃ t, exec (.coreReset iss x y) s = .next t ∧ completes s t iss 0 0 ∧
        coreAt t k = (coreAt s k).cleared ∧ ∀ j, j ≠ k → coreAt t j = coreAt s j)) ∧
    (∀ (i : BitVec 5) (p : BitVec 3), i.toNat < 24 → p.toNat < 6 → let x := islandAt s i.toNat
      ∃ t, exec (.power iss i p false) s = .next t ∧ completes s t iss 0 0 ∧
      (islandAt t i.toNat).powered = true ∧ (islandAt t i.toNat).point = p ∧ (islandAt t i.toNat).setPoint = p ∧
      (islandAt t i.toNat).stopped = (if x.powered ∧ x.point ≠ p then s.pt + 1000 else x.stopped)) ∧
    (∀ i (p : BitVec 3) g, (24 ≤ i.toNat ∨ 6 ≤ p.toNat) → exec (.power iss i p g) s = .next (complete s iss 1 0)) ∧
    (∀ (i : BitVec 5) (p : BitVec 3), i.toNat < 16 → p.toNat < 6 →
      (islandBusy s i.toNat = true → exec (.power iss i p true) s = .next (complete s iss 2 0)) ∧
      (islandBusy s i.toNat = false → ∃ t, exec (.power iss i p true) s = .next t ∧ completes s t iss 0 0 ∧
        (islandAt t i.toNat).powered = false ∧ t.rdy.getLsbD (20 + i.toNat) = false ∧
        ∀ k < 1024, islandOf k = i.toNat → coreAt t k = (coreAt s k).cleared))) ∧
  (∀ s h (v : W64), let x := hartAt s h; let y := fun (t : State) => hartAt t h
    (x.mode = 3 →
      (∃ t, exec (.cpwdWrite h v) s = .next t ∧ (y t).cpwd = v ∧ (y t).cpwdAt = hartPt s h ∧ (y t).pc = x.pc + 4) ∧
      (v.toNat < 32 → ∃ t, exec (.modeWrite h v) s = .next t ∧ t.mode = v ∧ (y t).pc = x.pc + 4) ∧
      (v.toNat < 8 → ∃ t, exec (.csrWrite h 0x7C0 v) s = .next t ∧ (y t).zcen = BitVec.ofNat 3 v.toNat ∧ (y t).pc = x.pc + 4) ∧
      (v = 1 → x.swapPending = true → x.fencing = false → ∃ t, exec (.fwctlWrite h v) s = .next t ∧ (y t).active = 1 - x.active ∧
        (y t).swapPending = false ∧ (y t).pc = BitVec.ofNat 64 (fwEntry (x.bank (1 - x.active)).bytes) ∧ (y t).x = []) ∧
      (v = 1 → x.swapPending = false → ∃ t, exec (.fwctlWrite h v) s = .next t ∧ (y t).active = x.active ∧ (y t).pc = x.pc + 4) ∧
      (32 ≤ v.toNat → exec (.modeWrite h v) s = .next (illegalHart s h)) ∧
      (8 ≤ v.toNat → exec (.csrWrite h 0x7C0 v) s = .next (illegalHart s h)) ∧
      (2 ≤ v.toNat → exec (.fwctlWrite h v) s = .next (illegalHart s h))) ∧
    (x.mode ≠ 3 → ∀ i ∈ [Instr.cpwdWrite h v, .modeWrite h v, .fwctlWrite h v, .csrWrite h 0x7C0 v], exec i s = .next (illegalHart s h)) ∧
    ((x.running = false ∨ x.cpwd = 0 ∨ hartPt s h ≤ x.cpwdAt + 1000 * x.cpwd.toNat) → exec (.cpHeartbeatTimeout h) s = .next s) ∧
    (x.running = true → x.cpwd ≠ 0 → x.cpwdAt + 1000 * x.cpwd.toNat < hartPt s h → x.swapPending = false → x.port = none →
      ∃ t, exec (.cpHeartbeatTimeout h) s = .next t ∧ (y t).pc = BitVec.ofNat 64 (fwEntry (x.bank x.active).bytes) ∧ (y t).mode = 3 ∧
        (y t).cpwd = 0 ∧ (y t).zcen = 1 ∧ (y t).strstat = x.strstat)) ∧
  (∀ s watts (hot : BitVec 16), ∃ t, exec (.powerManagerTick watts hot) s = .next t ∧
    t.coolFor = (if watts ≤ 1710 then s.coolFor + 1 else 0) ∧ ∀ j < 16, let x := islandAt s j; let y := islandAt t j
      y.setPoint = x.setPoint ∧ y.powered = x.powered ∧ (x.powered = false → y.point = x.point) ∧
      (x.powered = true → (1800 < watts ∨ hot.getLsbD j = true) → y.point.toNat = x.point.toNat - 1) ∧
      (x.powered = true → watts ≤ 1800 → hot.getLsbD j = false →
        y.point.toNat = if 10 ≤ s.coolFor ∧ watts ≤ 1710 ∧ x.point.toNat < x.setPoint.toNat then x.point.toNat + 1 else x.point.toNat)) ∧
  (∀ s, ∃ t, exec .thermalTrip s = .next t ∧ t.mctp = s.mctp ++ [256] ∧ (Ringless s → t.mem = s.mem) ∧ (∀ j < 16, (islandAt t j).powered = false) ∧
    ∀ e ∈ s.mcbs, mcbAt s e.1 = e.2 → e.2.state = 3 → ∀ i, e.2.inv = some i → i.kill = none →
      ∃ j, (mcbAt t e.1).inv = some j ∧ j.kill = some 5) ∧
  (∀ s, ∃ t, exec .wake s = .next t ∧ (islandAt t 22).powered = true ∧ (islandAt t 23).powered = true ∧
    ∀ h < 16, (hartAt s h).running = false → (fwOk ((hartAt s h).bank 0).bytes = true →
        (hartAt t h).running = true ∧ (hartAt t h).active = 0 ∧ (hartAt t h).pc = BitVec.ofNat 64 (fwEntry ((hartAt s h).bank 0).bytes)) ∧
      (fwOk ((hartAt s h).bank 0).bytes = false → fwOk ((hartAt s h).bank 1).bytes = true →
        (hartAt t h).running = true ∧ (hartAt t h).active = 1)) ∧
  (∀ s, (∀ h < 16, (hartAt s h).running = false) → ∃ t, exec .sleep s = .next t ∧ t.rdy = 0 ∧ ∀ j < 24, (islandAt t j).powered = false) ∧
  ∀ s (b : BitVec 6), b.toNat < 56 → exec (.functionReady b) s = .next { s with rdy := s.rdy ||| (1#64 <<< b.toNat) }

/-- The time base, failures of the fabric, and Sprout jobs. A beacon moves a follower's package time to the master's,
never backwards, and ends a refusal; 10 µs without one make every agent drop its NEPOL translations and the ports
refuse leased accesses. A failed link leaves the others; a contribution that a failed switch resends performs in its
window unless it has performed or the port refuses what peers send under leases, and is then remembered. A Sprout
engine without a job takes the next descriptor of a ring, where it is ready and the descriptor is well formed, with at
most eight pages in flight; in the host-assisted mode it only hands that descriptor to the host; the arrival of a page
writes its bytes and then clears ARRIVING of its extent entry alone, and sends the next page into flight; the end of
the job writes the completion word and leaves it full. That a contribution counts once by its identity, how package
time follows a beacon, how the engines take jobs, and that pages arrive in the order of their flight are the model's
readings (log entries 109, 110, 111 and 113). -/
def Obligations.FabricAndSprout : Prop :=
  (∀ s (w : W64), (s.master = true → exec (.beaconReceive w) s = .next s) ∧
    (s.master = false → ∃ t, exec (.beaconReceive w) s = .next t ∧ t.pt = Max.max s.pt w.toNat ∧ t.lastBeacon = t.pt ∧
      t.nepolRefuses = false ∧ t.cores = s.cores ∧ t.mem = s.mem)) ∧
  (∀ s, ((s.master = true ∨ s.nepolRefuses = true ∨ s.pt < s.lastBeacon + 10000) → exec .beaconTimeout s = .next s) ∧
    (s.master = false → s.nepolRefuses = false → s.lastBeacon + 10000 ≤ s.pt → ∃ t, exec .beaconTimeout s = .next t ∧
      t.nepolRefuses = true ∧ t.mem = s.mem ∧ (∀ k, ∀ e ∈ (coreAt t k).xtlb, dirSp e.dir ≠ 4 ∧ dirSp e.dir ≠ 5) ∧
      (∀ i, ∀ e ∈ (islandAt t i).xtlb2, dirSp e.dir ≠ 4 ∧ dirSp e.dir ≠ 5) ∧ ∀ k, (coreAt t k).th = (coreAt s k).th)) ∧
  (∀ s (l : BitVec 4), ∃ t, exec (.nepolLinkFailure l) s = .next t ∧ t.linksDown.getLsbD l.toNat = true ∧
    (∀ j, j ≠ l.toNat → t.linksDown.getLsbD j = s.linksDown.getLsbD j) ∧ t.mem = s.mem ∧ t.cores = s.cores) ∧
  (∀ s (w : BitVec 6) win c, mapFind s.windows w.toNat = some win → let n := if c.wide then 8 else 4; let k := physKey 1 0 c.addr
    let refuses := s.nepolRefuses || s.controllersRefuse.contains .nepolPort
    ((c.id ∈ s.performed ∨ refuses = true) → exec (.nepolSwitchFailure w [c]) s = .next s) ∧
    (c.id ∉ s.performed → refuses = false → win.base ≤ c.addr → c.addr + n ≤ win.base + 65536 * win.pages → physExists 1 c.addr n = true → s.dirtyAt = none →
      (∀ l ∈ linesOf k n, mapFind s.bad l = none ∧ unitTag s l = none) →
      ∃ t, exec (.nepolSwitchFailure w [c]) s = .next t ∧ t.performed = s.performed ++ [c.id] ∧
        memNat t.mem k n = atomicOp c.op.toNat n (memNat s.mem k n) (c.operand.toNat % 2 ^ (8 * n)) % 2 ^ (8 * n) ∧
        ∀ j, j < k ∨ k + n ≤ j → memByte t.mem j = memByte s.mem j)) ∧
  (∀ s p die d rest, (partAt s p).jobRing = d :: rest → s.rdy.getLsbD 54 = true → mapFind s.jobs die = none → s.mode.getLsbD 4 = false →
    ∃ t, exec (.sproutJobStart p die) s = .next t ∧ (partAt t p).jobRing = rest ∧
      (jobOk s d = false → t.jobs = s.jobs) ∧
      (jobOk s d = true → ∃ j, mapFind t.jobs die = some j ∧ j.desc = d ∧ j.part = p ∧ j.arrived = 0 ∧ j.flight.length ≤ 8 ∧
        j.flight ++ j.order = jobOrder s d)) ∧
  (∀ s p die d rest, (partAt s p).jobRing = d :: rest → s.rdy.getLsbD 54 = true → mapFind s.jobs die = none → s.mode.getLsbD 4 = true →
    ∃ t, exec (.sproutJobStart p die) s = .next t ∧ (partAt t p).jobRing = rest ∧ t.jobs = s.jobs ∧
      (partAt t p).hostJobs = (partAt s p).hostJobs ++ [d]) ∧
  (∀ s n j p rest data, mapFind s.jobs n = some j → j.flight = p :: rest → jobKind j.desc = 1 → data.length = 65536 → s.dirtyAt = none →
    s.bad = [] → s.enc = [] → s.encPage = [] →
    let d := readDir s (jobMcb j.desc) (jobObj j.desc); let key := extKeyOf d p; let x := BitVec.ofNat 64 (memNat s.mem key 8)
    let at_ := physKey (dirSp d) 0 (65536 * extPpn x)
    dirSp d < 2 → physExists (dirSp d) (65536 * extPpn x) 65536 = true → key = physKey (dirEmsp d) 0 (keyAddr key) →
    (key + 8 ≤ at_ ∨ at_ + 65536 ≤ key) →
    ∃ t j', exec (.sproutPageArrival n data) s = .next t ∧ memBytes t.mem at_ 65536 = data ∧
      memNat t.mem key 8 = (x &&& ~~~(4 : W64)).toNat ∧ mapFind t.jobs n = some j' ∧ j'.arrived = j.arrived + 1 ∧
      j'.flight = rest ++ j.order.take 1 ∧ j'.order = j.order.drop 1) ∧
  ∀ s n j e, mapFind s.jobs n = some j → let a := fieldNat j.desc 208 64; let k := physKey 0 0 a
    s.dirtyAt = none → (∀ l ∈ linesOf k 8, mapFind s.bad l = none) →
    (e = false → (j.flight ≠ [] ∨ j.order ≠ []) → exec (.sproutJobEnd n e) s = .next s) ∧
    ((e = true ∨ j.flight = [] ∧ j.order = []) → physExists 0 a 8 = true → ∃ t, exec (.sproutJobEnd n e) s = .next t ∧
      memNat t.mem k 8 = j.arrived % 2 ^ 24 + (if e then 2 ^ 24 else 0) ∧ feFull t (k / 8) = true ∧ mapFind t.jobs n = none)

/-- Decoding and encoding agree on every word. For every instruction word with every operand at every value that its
encoding admits: decoding the encoded word gives the instruction back, by the Ziric decoder and for the three zc words
by the decoder of the command-processor cores. And every word that either decoder reads encodes back to itself, so no
bit of a word is ignored and no two instructions share a word of one decoder. -/
def Obligations.DecodeAndEncodeAgree : Prop :=
  (∀ i w, i.wf = true → encode i = some w →
    match i with
    | .zcPush _ _ | .zcFence _ | .zcStat _ _ => decodeZc w = some i
    | _ => decode w = .ok i) ∧
  (∀ i w, decode w = .ok i → i.wf = true ∧ encode i = some w) ∧
  (∀ i w, decodeZc w = some i → encode i = some w)

/-- Every step keeps memory in its canonical form. If the addresses of memory rise strictly and no entry holds what an
unlisted byte reads as, then both hold after every step that goes on: of a thread, an engine, a command stream, the
control complex, or anything that arrives from outside. So two memories that read alike are equal data. -/
def Obligations.StepKeepsMemoryCanonical : Prop :=
  (∀ s t, Memory.wf s.mem = true → step s = .next t → Memory.wf t.mem = true) ∧
  (∀ m n, Memory.wf m = true → Memory.wf n = true → (∀ k, memByte m k = memByte n k) → m = n)

/-- The part after power-on. After power-on memory is in its canonical form with nothing listed, RDY and MODE are 0, no
island has power and no command-processor core runs; each such core has ZCEN 1 and CPWD, FWCTL.Q 0; every micro-
context block has V 0 and STATE 0, and no core is bound. A thread that is bound has s0 and c0 at zero and null and p0
at one; its vector engine reads zero in every register, with WB, CM and the counts 0, and MSEG is 256. -/
def Obligations.ResetState : Prop :=
  Memory.wf State.reset.mem = true ∧ (∀ k, memByte State.reset.mem k = emptyByte) ∧
  State.reset.rdy = 0 ∧ State.reset.mode = 0 ∧
  (∀ i, (islandAt State.reset i).powered = false) ∧
  (∀ h, (hartAt State.reset h).running = false ∧ (hartAt State.reset h).zcen = 1 ∧ (hartAt State.reset h).cpwd = 0 ∧
    (hartAt State.reset h).q = false) ∧
  (∀ m, (mcbAt State.reset m).v = false ∧ (mcbAt State.reset m).state = 0) ∧
  (∀ k, (coreAt State.reset k).bound = none) ∧
  Thread.reset.getS 0 = 0 ∧ Thread.reset.getC 0 = Cap.null ∧ Thread.reset.getP 0 = true ∧
  (∀ r lane, lane < 128 → ((mapGet (List.replicate 128 0) VectorState.reset.v r).getD lane 0 : W32) = 0) ∧
  VectorState.reset.wb = 0 ∧ VectorState.reset.cm = 0 ∧ VectorState.reset.vovf = 0 ∧ VectorState.reset.vnanc = 0 ∧
  MatrixState.reset.mseg = 256

/-- Words that the manual writes out decode to what they stand for. One word of each format and engine, with the value
that the manual gives for it: integer, immediate, branch, call, loop, capability, queue, system, fence, load and
store, full/empty, atomic, vector, matrix, copy, network and command-port words. -/
def Obligations.SampleWordsDecode : Prop :=
  decode 0x0024A2CC = .ok (.mulhu 0 9 10 11) ∧ decode 0x11092345 = .ok (.lui 0 2 0x12345) ∧
  decode 0x14200002 = .ok (.bp 1 2) ∧ decode 0x157C0010 = .ok (.call 31 16) ∧ decode 0x17403803 = .ok (.loop 1 7 3) ∧
  decode 0x20081100 = .ok (.cbnd 0 2 1 4) ∧ decode 0x24079000 = .ok (.qpoll 0 1 1) ∧ decode 0x31006009 = .ok (.mtsr 6 9) ∧
  decode 0x34000021 = .ok (.fence 0 2 1) ∧ decode 0x381427FF = .ok (.ld 0 5 1 1 (-1)) ∧
  decode 0x3C2431CC = .ok (.stx 0 9 3 7 0 4) ∧ decode 0x3D188001 = .ok (.ldFe 0 6 4 1) ∧
  decode 0x3E043090 = .ok (.amo 0 1 3 2 1 0) ∧ decode 0x80C40914 = .ok (.vfma 0 8 9 10 0) ∧
  decode 0x8D018856 = .ok (.vst 0 3 2 5 3 0) ∧ decode 0x90046044 = .ok (.mma 0 0 2 3 1 4) ∧
  decode 0xE0085187 = .ok (.cp 1 4 5 6 7) ∧ decode 0xB0483102 = .ok (.netSendRead 0 4 6 8) ∧
  decodeZc 0x0005A50B = some (.zcStat 11 10)

/-- A step runs the instruction at the pc. When the thread that moves next may run, holds at nothing, owes no stop record
and stands at no code breakpoint, and its pc is a multiple of 4 whose four bytes lie in the bounds of its code
capability with EXEC, in a space that can be fetched from, with no earlier write of the core still to perform there,
and resolve to a place that checks and answers, then the step is exec of the instruction to which those bytes decode,
little-endian, in the state after the passage of time and the fetch, which counts as an access of its page; bytes that
decode to none raise the illegal-instruction fault. That a fetch counts as an access of its page, and is neither race-
checked nor watched, is the model's reading (log entry 43). A step that the environment or the part makes is exec of
that step, and one of a command-processor core that takes no interrupt is exec of the zc word at its pc. -/
def Obligations.StepRunsTheWordAtThePc : Prop :=
  (∀ s rest k r s1, s.agenda = .thread k :: rest →
    let s0 : State := { tick { s with agenda := rest } with turn := k }
    let t := theThread s0
    let pc := t.pc.toNat
    threadRuns s0 k = true → (coreAt s0 k).hold = none → (coreAt s0 k).owed = none → breaksAt s0 k = none →
    pc % 4 = 0 → pc + 4 ≤ 2 ^ 40 → t.code.tag = true → t.code.ver = 1 → t.code.lo ≤ pc → pc + 4 ≤ t.code.hi →
    t.code.perm &&& permEXEC = permEXEC → t.code.sp ≤ 5 → notBehind s0 t.code pc 4 →
    does (resolve (whoNow s0) t.code.obj t.code.sp pc { write := false }) s0 r s1 → noFlights s1 r 4 →
    (∀ l ∈ linesOf r.key 4, mapFind s1.bad l = none) → (∀ d ∈ s1.hostDeny, overlaps d.1 d.2 r.key 4 = false) →
    silent s1 r.key 4 = false →
    let bs := bytesAt s1 (whoNow s0).mcb t.code pc 4 r
    let s2 := countAccess s1 (whoNow s0) t.code.obj pc 4 r
    (∀ i, decodeBytes bs = .ok i → step s = exec i s2) ∧
    (∀ e, decodeBytes bs = .error e → step s = halts false s2 s2 .exit (.fault { cls := 2, sub := 0, addr := 0 }))) ∧
  (∀ s rest i, s.agenda = .event i :: rest → step s = exec i (tick { s with agenda := rest })) ∧
  (∀ s rest h i w, s.agenda = .hart h :: rest → let s0 : State := { tick { s with agenda := rest } with hart := h }
    let x := hartAt s0 h
    x.running = true → (x.fencing = true ∨ x.interrupt = none) → x.fetch s0.free = .word w → decodeZc w = some i → step s = exec i s0)

end
end

