-- ==== Sys2Proof/Laws/Maps.lean ====
section
/-!
SUPPORT. Sparse arrays: what a look-up finds after an update, and that every update keeps the canonical form.
-/
namespace Sys2Proof.Machine

variable {α : Type}

theorem mapFind_insert (m : SMap α) (n k : Nat) (v : α) (h : ∀ e ∈ m, e.1 ≠ n) :
    mapFind (mapInsert m n v) k = if n = k then some v else mapFind m k := by
  induction m with
  | nil => simp [mapInsert, mapFind]
  | cons e m ih =>
    have h1 := h e (by simp)
    have h2 := ih (fun x hx => h x (by simp [hx]))
    unfold mapInsert
    split
    · simp [mapFind]
    · simp only [mapFind, h2]
      by_cases a : e.1 = k <;> by_cases b : n = k <;> simp [a, b]
      omega

theorem mapFind_filter (m : SMap α) (p : Nat → Bool) (k : Nat) :
    mapFind (m.filter (fun e => p e.1)) k = if p k then mapFind m k else none := by
  induction m with
  | nil => simp [mapFind]
  | cons e m ih =>
    by_cases a : e.1 = k
    · subst a; by_cases b : p e.1 <;> simp_all [mapFind, List.filter]
    · by_cases b : p e.1 <;> simp_all [mapFind, List.filter]

theorem mapErase_ne (m : SMap α) (n : Nat) : ∀ e ∈ mapErase m n, e.1 ≠ n := by
  intro e he; simpa using (List.mem_filter.1 he).2

@[simp] theorem mapFind_erase (m : SMap α) (n k : Nat) :
    mapFind (mapErase m n) k = if n = k then none else mapFind m k := by
  have := mapFind_filter m (fun x => decide (x ≠ n)) k
  simp only [mapErase, ne_eq] at *
  rw [this]
  by_cases h : k = n
  · simp [h]
  · simp [h, Ne.symm h]

@[simp] theorem mapFind_put (m : SMap α) (n k : Nat) (v : α) :
    mapFind (mapPut m n v) k = if n = k then some v else mapFind m k := by
  rw [mapPut, mapFind_insert _ _ _ _ (mapErase_ne m n), mapFind_erase]; split <;> rfl

@[simp] theorem mapGet_erase (d : α) (m : SMap α) (n k : Nat) :
    mapGet d (mapErase m n) k = if n = k then d else mapGet d m k := by
  simp only [mapGet, mapFind_erase]; split <;> rfl

@[simp] theorem mapGet_put (d : α) (m : SMap α) (n k : Nat) (v : α) :
    mapGet d (mapPut m n v) k = if n = k then v else mapGet d m k := by
  simp only [mapGet, mapFind_put]; split <;> rfl

/-- A look-up after an update gives the value that was set, and elsewhere what stood there. -/
@[simp] theorem mapGet_set [DecidableEq α] (d : α) (m : SMap α) (n k : Nat) (v : α) :
    mapGet d (mapSet d m n v) k = if n = k then v else mapGet d m k := by
  unfold mapSet; split <;> simp_all

theorem mapGet_filter (d : α) (m : SMap α) (p : Nat → Bool) (k : Nat) :
    mapGet d (m.filter (fun e => p e.1)) k = if p k then mapGet d m k else d := by
  simp only [mapGet, mapFind_filter]; split <;> rfl

-- The canonical form

section
variable [DecidableEq α] {d : α}

theorem mapWf_iff (m : SMap α) :
    mapWf d m = true ↔ m.Pairwise (fun a b => a.1 < b.1) ∧ ∀ e ∈ m, e.2 ≠ d := by
  simp [mapWf]

theorem mapWf_filter {m : SMap α} (p : Nat × α → Bool) (h : mapWf d m = true) : mapWf d (m.filter p) = true := by
  rw [mapWf_iff] at *
  exact ⟨h.1.filter _, fun e he => h.2 e (List.mem_filter.1 he).1⟩

theorem mapWf_erase {m : SMap α} (n : Nat) (h : mapWf d m = true) : mapWf d (mapErase m n) = true := mapWf_filter _ h

omit [DecidableEq α] in
theorem mem_insert {m : SMap α} {n : Nat} {v : α} {e : Nat × α} (h : e ∈ mapInsert m n v) : e = (n, v) ∨ e ∈ m := by
  induction m with
  | nil => simpa [mapInsert] using h
  | cons x m ih =>
    unfold mapInsert at h
    split at h
    · simpa using h
    · rcases List.mem_cons.1 h with h | h
      · exact .inr (by simp [h])
      · rcases ih h with h | h
        · exact .inl h
        · exact .inr (by simp [h])

theorem mapWf_insert {m : SMap α} {n : Nat} {v : α} (hv : v ≠ d) (hn : ∀ e ∈ m, e.1 ≠ n) (h : mapWf d m = true) :
    mapWf d (mapInsert m n v) = true := by
  rw [mapWf_iff] at *
  refine ⟨?_, fun e he => ?_⟩
  · induction m with
    | nil => simp [mapInsert]
    | cons x m ih =>
      have hx := List.pairwise_cons.1 h.1
      unfold mapInsert
      split
      case isTrue hlt =>
        refine List.pairwise_cons.2 ⟨fun e he => ?_, h.1⟩
        rcases List.mem_cons.1 he with rfl | he
        · exact hlt
        · exact lt_trans hlt (hx.1 e he)
      case isFalse hlt =>
        refine List.pairwise_cons.2 ⟨fun e he => ?_, ih (fun e he => hn e (by simp [he])) ⟨hx.2, fun e he => h.2 e (by simp [he])⟩⟩
        rcases mem_insert he with rfl | he
        · have := hn x (by simp); show x.1 < n; omega
        · exact hx.1 e he
  · rcases mem_insert he with rfl | he
    · exact hv
    · exact h.2 e he

/-- Setting a key keeps the canonical form, whatever the value. -/
theorem mapWf_set {m : SMap α} (n : Nat) (v : α) (h : mapWf d m = true) : mapWf d (mapSet d m n v) = true := by
  unfold mapSet
  split
  · exact mapWf_erase n h
  · exact mapWf_insert (by assumption) (mapErase_ne m n) (mapWf_erase n h)

omit [DecidableEq α] in
theorem mapFind_none_of_lt {m : SMap α} {n : Nat} (h : ∀ e ∈ m, n < e.1) : mapFind m n = none := by
  induction m with
  | nil => rfl
  | cons e m ih =>
    have := h e (by simp)
    simp only [mapFind]
    rw [if_neg (by omega)]
    exact ih (fun x hx => h x (by simp [hx]))

/-- Two arrays in canonical form that read alike are equal. -/
theorem mapWf_ext {m n : SMap α} (hm : mapWf d m = true) (hn : mapWf d n = true) (h : ∀ k, mapGet d m k = mapGet d n k) : m = n := by
  rw [mapWf_iff] at hm hn
  induction m generalizing n with
  | nil =>
    cases n with
    | nil => rfl
    | cons f n => have := h f.1; simp [mapGet, mapFind] at this; exact absurd this.symm (hn.2 f (by simp))
  | cons e m ih =>
    cases n with
    | nil => have := h e.1; simp [mapGet, mapFind] at this; exact absurd this (hm.2 e (by simp))
    | cons f n =>
      have he := List.pairwise_cons.1 hm.1
      have hf := List.pairwise_cons.1 hn.1
      have hde := hm.2 e (by simp)
      have hdf := hn.2 f (by simp)
      have key : e.1 = f.1 := by
        rcases Nat.lt_trichotomy e.1 f.1 with hlt | heq | hgt
        · have h1 := h e.1
          have h2 : mapFind (f :: n) e.1 = none := mapFind_none_of_lt (by
            intro x hx; rcases List.mem_cons.1 hx with rfl | hx
            · exact hlt
            · exact lt_trans hlt (hf.1 x hx))
          rw [mapGet, mapGet, h2] at h1; simp [mapFind] at h1; exact absurd h1 hde
        · exact heq
        · have h1 := h f.1
          have h2 : mapFind (e :: m) f.1 = none := mapFind_none_of_lt (by
            intro x hx; rcases List.mem_cons.1 hx with rfl | hx
            · exact hgt
            · exact lt_trans hgt (he.1 x hx))
          rw [mapGet, mapGet, h2] at h1; simp [mapFind] at h1; exact absurd h1.symm hdf
      have val : e.2 = f.2 := by
        have h1 := h e.1
        simpa [mapGet, mapFind, key] using h1
      have : m = n := by
        refine ih ⟨he.2, fun x hx => hm.2 x (by simp [hx])⟩ ⟨hf.2, fun x hx => hn.2 x (by simp [hx])⟩ (fun k => ?_)
        have hk := h k
        by_cases hek : e.1 = k
        · have h1 : mapFind m k = none := mapFind_none_of_lt (fun x hx => hek ▸ he.1 x hx)
          have h2 : mapFind n k = none := mapFind_none_of_lt (fun x hx => hek ▸ key ▸ hf.1 x hx)
          simp [mapGet, h1, h2]
        · simpa [mapGet, mapFind, hek, key ▸ hek] using hk
      rw [this, Prod.ext key val]
end

end Sys2Proof.Machine
end

