-- ==== Sys2Proof/Laws/Memory.lean ====
section
/-!
SUPPORT. Memory: a read after a write, what a write leaves alone, and that every operation keeps the canonical form.
-/
namespace Sys2Proof.Machine

@[simp] theorem memByte_memSet (m : List Host.Cell) (k j : Nat) (b : Byte) :
    memByte (memSet m k b) j = if k = j then b else memByte m j := mapGet_set _ _ _ _ _

/-- The bytes read back, and every other byte stays. -/
theorem memByte_memWrite (m : List Host.Cell) (k : Nat) (bs : List Byte) (j : Nat) :
    memByte (memWrite m k bs) j = if k ≤ j ∧ j < k + bs.length then bs.getD (j - k) 0 else memByte m j := by
  induction bs generalizing m k with
  | nil => simp [memWrite]
  | cons b bs ih =>
    rw [memWrite, ih, memByte_memSet]
    by_cases h : k = j
    · subst h; simp
    · by_cases g : k + 1 ≤ j ∧ j < k + 1 + bs.length
      · have : j - k = (j - (k + 1)) + 1 := by omega
        rw [if_pos g, if_pos (by simp; omega), this]; simp
      · rw [if_neg g, if_neg h, if_neg (by simp; omega)]

theorem memByte_memWrite_out (m : List Host.Cell) (k : Nat) (bs : List Byte) (j : Nat) (h : j < k ∨ k + bs.length ≤ j) :
    memByte (memWrite m k bs) j = memByte m j := by
  rw [memByte_memWrite, if_neg (by omega)]

theorem memBytes_memWrite (m : List Host.Cell) (k : Nat) (bs : List Byte) : memBytes (memWrite m k bs) k bs.length = bs := by
  apply List.ext_getElem
  · simp [memBytes]
  · intro i h1 h2
    simp only [memBytes, List.getElem_map, List.getElem_range, memByte_memWrite]
    rw [if_pos (by omega)]
    simp [h2]

theorem memBytes_congr {m n : List Host.Cell} {k len : Nat} (h : ∀ j, k ≤ j → j < k + len → memByte m j = memByte n j) :
    memBytes m k len = memBytes n k len := by
  apply List.map_congr_left
  intro i hi
  exact h _ (by omega) (by have := List.mem_range.1 hi; omega)

-- The canonical form

theorem Memory.wf_memSet {m : List Host.Cell} (k : Nat) (b : Byte) (h : Memory.wf m = true) : Memory.wf (memSet m k b) = true :=
  mapWf_set k b h

theorem Memory.wf_memWrite {m : List Host.Cell} (k : Nat) (bs : List Byte) (h : Memory.wf m = true) :
    Memory.wf (memWrite m k bs) = true := by
  induction bs generalizing m k with
  | nil => exact h
  | cons b bs ih => exact ih _ (Memory.wf_memSet k b h)

theorem Memory.wf_filter {m : List Host.Cell} (p : Host.Cell → Bool) (h : Memory.wf m = true) : Memory.wf (m.filter p) = true :=
  mapWf_filter p h

/-- Two memories in canonical form that read alike are equal. -/
theorem Memory.ext {m n : List Host.Cell} (hm : Memory.wf m = true) (hn : Memory.wf n = true)
    (h : ∀ k, memByte m k = memByte n k) : m = n := mapWf_ext hm hn h

theorem wf_markDirty {s : State} (sp addr : Nat) (h : Memory.wf s.mem = true) : Memory.wf (markDirty s sp addr).mem = true := by
  unfold markDirty
  split
  · exact h
  · split
    · exact h
    · exact Memory.wf_memSet _ _ h

theorem markDirty_none {s : State} (sp addr : Nat) (h : s.dirtyAt = none) : markDirty s sp addr = s := by
  unfold markDirty; rw [h]

/-- What holds of a state holds of a fold that keeps it. -/
theorem foldl_keeps {α β : Type} {P : β → Prop} {f : β → α → β} (h : ∀ b a, P b → P (f b a)) (l : List α) (b : β) (hb : P b) :
    P (l.foldl f b) := by
  induction l generalizing b with
  | nil => exact hb
  | cons a l ih => exact ih _ (h b a hb)

theorem wf_markPages {s : State} (k n : Nat) (h : Memory.wf s.mem = true) : Memory.wf (markPages s k n).mem = true :=
  foldl_keeps (P := fun s : State => Memory.wf s.mem = true) (fun _ _ hs => wf_markDirty _ _ hs) _ _ h

theorem markPages_none {s : State} (k n : Nat) (h : s.dirtyAt = none) : markPages s k n = s :=
  foldl_keeps (P := fun t => t = s) (fun _ _ e => by rw [e]; exact markDirty_none _ _ h) _ s rfl

theorem wf_retag {s : State} (want : Option Tweak) (line : Nat) (h : Memory.wf s.mem = true) :
    Memory.wf (retag s want line).mem = true := by
  unfold retag
  split
  · exact h
  · exact Memory.wf_memWrite _ _ h

theorem wf_putBytes {s : State} (want : Option Tweak) (k : Nat) (bs : List Byte) (h : Memory.wf s.mem = true) :
    Memory.wf (putBytes s want k bs).mem = true := by
  unfold putBytes
  dsimp only
  split
  · exact h
  · apply wf_markPages
    apply Memory.wf_memWrite
    exact foldl_keeps (P := fun s : State => Memory.wf s.mem = true) (fun s l hs => wf_retag _ l hs) _ _ h

theorem wf_scrubPage {s : State} (sp page : Nat) (h : Memory.wf s.mem = true) : Memory.wf (scrubPage s sp page).mem = true :=
  Memory.wf_filter _ h

-- What a write of bytes leaves

/-- A unit that needs no cipher, or is under the writer's tweak already, keeps its bytes before a write. -/
theorem retag_same {s : State} (want : Option Tweak) (line : Nat) (h : line * 64 / 2 ^ 88 = 0 ∨ unitTag s line = want) :
    retag s want line = s := by
  unfold retag
  rw [if_pos (by simpa using h)]

/-- A write in which no unit changes its tweak: the state with the bytes written, the tags of their granules clear, the checks of whole lines good,
and the durable values of PMEM blocks kept. -/
theorem putBytes_eq {s : State} {want : Option Tweak} {k : Nat} {bs : List Byte} (hn : bs ≠ []) (hd : s.dirtyAt = none)
    (hu : ∀ l ∈ linesOf k bs.length, l * 64 / 2 ^ 88 = 0 ∨
      unitTag s l = want.map (fun t => (t.1, t.2.1, t.2.2 + (l - k / 64)))) :
    putBytes s want k bs = { s with
      mem := memWrite s.mem k bs
      tags := (granulesOf k bs.length).foldl mapErase s.tags
      bad := ((linesOf k bs.length).filter (fun l => decide (k ≤ l * 64) && decide (l * 64 + 64 ≤ k + bs.length))).foldl mapErase s.bad
      pmem := keepDurable s k bs.length } := by
  have key : ∀ ls : List Nat, (∀ l ∈ ls, l * 64 / 2 ^ 88 = 0 ∨ unitTag s l = want.map (fun t => (t.1, t.2.1, t.2.2 + (l - k / 64)))) →
      ls.foldl (fun s l => retag s (want.map (fun t => (t.1, t.2.1, t.2.2 + (l - k / 64)))) l) s = s := by
    intro ls
    induction ls with
    | nil => intro _; rfl
    | cons l ls ih =>
      intro h
      rw [List.foldl_cons, retag_same _ _ (h l (by simp))]
      exact ih (fun x hx => h x (by simp [hx]))
  unfold putBytes
  dsimp only
  rw [if_neg (by simpa using hn), key _ hu, markPages_none]
  exact hd

/-- After such a write the bytes read back, and every other byte stays. -/
theorem memByte_putBytes {s : State} {want : Option Tweak} {k : Nat} {bs : List Byte} (hd : s.dirtyAt = none)
    (hu : ∀ l ∈ linesOf k bs.length, l * 64 / 2 ^ 88 = 0 ∨
      unitTag s l = want.map (fun t => (t.1, t.2.1, t.2.2 + (l - k / 64)))) (j : Nat) :
    memByte (putBytes s want k bs).mem j = if k ≤ j ∧ j < k + bs.length then bs.getD (j - k) 0 else memByte s.mem j := by
  by_cases hn : bs = []
  · subst hn
    have : putBytes s want k [] = s := by simp [putBytes]
    rw [this, if_neg (by simp)]
  · rw [putBytes_eq hn hd hu]
    exact memByte_memWrite _ _ _ _

theorem mapGet_foldl_erase {α : Type} (d : α) (ks : List Nat) (m : SMap α) (k : Nat) :
    mapGet d (ks.foldl mapErase m) k = if k ∈ ks then d else mapGet d m k := by
  induction ks generalizing m with
  | nil => simp
  | cons a ks ih =>
    rw [List.foldl_cons, ih, mapGet_erase]
    by_cases h : k ∈ ks
    · simp [h]
    · by_cases g : a = k
      · simp [h, g]
      · simp [h, g, Ne.symm g]

end Sys2Proof.Machine
end

