-- ==== Sys2Proof/Laws/State.lean ====
section
/-!
SUPPORT. What each update of one record of the state leaves: a lemma for each other field, and what the accessors find.
-/
namespace Sys2Proof.Machine

variable (s : State)

-- setCore

@[simp] theorem State.setCore_pt (k : Nat) (c : Core) : (s.setCore k c).pt = s.pt := rfl
@[simp] theorem State.setCore_clock (k : Nat) (c : Core) : (s.setCore k c).clock = s.clock := rfl
@[simp] theorem State.setCore_agenda (k : Nat) (c : Core) : (s.setCore k c).agenda = s.agenda := rfl
@[simp] theorem State.setCore_rr (k : Nat) (c : Core) : (s.setCore k c).rr = s.rr := rfl
@[simp] theorem State.setCore_turn (k : Nat) (c : Core) : (s.setCore k c).turn = s.turn := rfl
@[simp] theorem State.setCore_hart (k : Nat) (c : Core) : (s.setCore k c).hart = s.hart := rfl
@[simp] theorem State.setCore_free (k : Nat) (c : Core) : (s.setCore k c).free = s.free := rfl
@[simp] theorem State.setCore_mem (k : Nat) (c : Core) : (s.setCore k c).mem = s.mem := rfl
@[simp] theorem State.setCore_tags (k : Nat) (c : Core) : (s.setCore k c).tags = s.tags := rfl
@[simp] theorem State.setCore_fe (k : Nat) (c : Core) : (s.setCore k c).fe = s.fe := rfl
@[simp] theorem State.setCore_feMark (k : Nat) (c : Core) : (s.setCore k c).feMark = s.feMark := rfl
@[simp] theorem State.setCore_stamps (k : Nat) (c : Core) : (s.setCore k c).stamps = s.stamps := rfl
@[simp] theorem State.setCore_marks (k : Nat) (c : Core) : (s.setCore k c).marks = s.marks := rfl
@[simp] theorem State.setCore_writes (k : Nat) (c : Core) : (s.setCore k c).writes = s.writes := rfl
@[simp] theorem State.setCore_bars (k : Nat) (c : Core) : (s.setCore k c).bars = s.bars := rfl
@[simp] theorem State.setCore_barsAt (k : Nat) (c : Core) : (s.setCore k c).barsAt = s.barsAt := rfl
@[simp] theorem State.setCore_bad (k : Nat) (c : Core) : (s.setCore k c).bad = s.bad := rfl
@[simp] theorem State.setCore_encPage (k : Nat) (c : Core) : (s.setCore k c).encPage = s.encPage := rfl
@[simp] theorem State.setCore_enc (k : Nat) (c : Core) : (s.setCore k c).enc = s.enc := rfl
@[simp] theorem State.setCore_dirtyAt (k : Nat) (c : Core) : (s.setCore k c).dirtyAt = s.dirtyAt := rfl
@[simp] theorem State.setCore_dirtyOne (k : Nat) (c : Core) : (s.setCore k c).dirtyOne = s.dirtyOne := rfl
@[simp] theorem State.setCore_dirtySwitch (k : Nat) (c : Core) : (s.setCore k c).dirtySwitch = s.dirtySwitch := rfl
@[simp] theorem State.setCore_mcbs (k : Nat) (c : Core) : (s.setCore k c).mcbs = s.mcbs := rfl
@[simp] theorem State.setCore_bindings (k : Nat) (c : Core) : (s.setCore k c).bindings = s.bindings := rfl
@[simp] theorem State.setCore_nextSerial (k : Nat) (c : Core) : (s.setCore k c).nextSerial = s.nextSerial := rfl
@[simp] theorem State.setCore_islands (k : Nat) (c : Core) : (s.setCore k c).islands = s.islands := rfl
@[simp] theorem State.setCore_parts (k : Nat) (c : Core) : (s.setCore k c).parts = s.parts := rfl
@[simp] theorem State.setCore_granary (k : Nat) (c : Core) : (s.setCore k c).granary = s.granary := rfl
@[simp] theorem State.setCore_sower (k : Nat) (c : Core) : (s.setCore k c).sower = s.sower := rfl
@[simp] theorem State.setCore_sowerRegion (k : Nat) (c : Core) : (s.setCore k c).sowerRegion = s.sowerRegion := rfl
@[simp] theorem State.setCore_sowerLog (k : Nat) (c : Core) : (s.setCore k c).sowerLog = s.sowerLog := rfl
@[simp] theorem State.setCore_rotation (k : Nat) (c : Core) : (s.setCore k c).rotation = s.rotation := rfl
@[simp] theorem State.setCore_nextAccept (k : Nat) (c : Core) : (s.setCore k c).nextAccept = s.nextAccept := rfl
@[simp] theorem State.setCore_ports (k : Nat) (c : Core) : (s.setCore k c).ports = s.ports := rfl
@[simp] theorem State.setCore_breakout (k : Nat) (c : Core) : (s.setCore k c).breakout = s.breakout := rfl
@[simp] theorem State.setCore_ingress (k : Nat) (c : Core) : (s.setCore k c).ingress = s.ingress := rfl
@[simp] theorem State.setCore_slots (k : Nat) (c : Core) : (s.setCore k c).slots = s.slots := rfl
@[simp] theorem State.setCore_qps (k : Nat) (c : Core) : (s.setCore k c).qps = s.qps := rfl
@[simp] theorem State.setCore_tx (k : Nat) (c : Core) : (s.setCore k c).tx = s.tx := rfl
@[simp] theorem State.setCore_lanes (k : Nat) (c : Core) : (s.setCore k c).lanes = s.lanes := rfl
@[simp] theorem State.setCore_jobs (k : Nat) (c : Core) : (s.setCore k c).jobs = s.jobs := rfl
@[simp] theorem State.setCore_ifcs (k : Nat) (c : Core) : (s.setCore k c).ifcs = s.ifcs := rfl
@[simp] theorem State.setCore_pfCompletions (k : Nat) (c : Core) : (s.setCore k c).pfCompletions = s.pfCompletions := rfl
@[simp] theorem State.setCore_streams (k : Nat) (c : Core) : (s.setCore k c).streams = s.streams := rfl
@[simp] theorem State.setCore_waiting (k : Nat) (c : Core) : (s.setCore k c).waiting = s.waiting := rfl
@[simp] theorem State.setCore_hostDeny (k : Nat) (c : Core) : (s.setCore k c).hostDeny = s.hostDeny := rfl
@[simp] theorem State.setCore_inbound (k : Nat) (c : Core) : (s.setCore k c).inbound = s.inbound := rfl
@[simp] theorem State.setCore_mute (k : Nat) (c : Core) : (s.setCore k c).mute = s.mute := rfl
@[simp] theorem State.setCore_pmem (k : Nat) (c : Core) : (s.setCore k c).pmem = s.pmem := rfl
@[simp] theorem State.setCore_bells (k : Nat) (c : Core) : (s.setCore k c).bells = s.bells := rfl
@[simp] theorem State.setCore_rdy (k : Nat) (c : Core) : (s.setCore k c).rdy = s.rdy := rfl
@[simp] theorem State.setCore_mode (k : Nat) (c : Core) : (s.setCore k c).mode = s.mode := rfl
@[simp] theorem State.setCore_hostWalks (k : Nat) (c : Core) : (s.setCore k c).hostWalks = s.hostWalks := rfl
@[simp] theorem State.setCore_harts (k : Nat) (c : Core) : (s.setCore k c).harts = s.harts := rfl
@[simp] theorem State.setCore_master (k : Nat) (c : Core) : (s.setCore k c).master = s.master := rfl
@[simp] theorem State.setCore_lastBeacon (k : Nat) (c : Core) : (s.setCore k c).lastBeacon = s.lastBeacon := rfl
@[simp] theorem State.setCore_nepolRefuses (k : Nat) (c : Core) : (s.setCore k c).nepolRefuses = s.nepolRefuses := rfl
@[simp] theorem State.setCore_controllersRefuse (k : Nat) (c : Core) : (s.setCore k c).controllersRefuse = s.controllersRefuse := rfl
@[simp] theorem State.setCore_portDev (k : Nat) (c : Core) : (s.setCore k c).portDev = s.portDev := rfl
@[simp] theorem State.setCore_portFloor (k : Nat) (c : Core) : (s.setCore k c).portFloor = s.portFloor := rfl
@[simp] theorem State.setCore_mctp (k : Nat) (c : Core) : (s.setCore k c).mctp = s.mctp := rfl
@[simp] theorem State.setCore_power (k : Nat) (c : Core) : (s.setCore k c).power = s.power := rfl
@[simp] theorem State.setCore_coolFor (k : Nat) (c : Core) : (s.setCore k c).coolFor = s.coolFor := rfl
@[simp] theorem State.setCore_device (k : Nat) (c : Core) : (s.setCore k c).device = s.device := rfl
@[simp] theorem State.setCore_exports (k : Nat) (c : Core) : (s.setCore k c).exports = s.exports := rfl
@[simp] theorem State.setCore_windows (k : Nat) (c : Core) : (s.setCore k c).windows = s.windows := rfl
@[simp] theorem State.setCore_performed (k : Nat) (c : Core) : (s.setCore k c).performed = s.performed := rfl
@[simp] theorem State.setCore_nextContribution (k : Nat) (c : Core) : (s.setCore k c).nextContribution = s.nextContribution := rfl
@[simp] theorem State.setCore_switch (k : Nat) (c : Core) : (s.setCore k c).switch = s.switch := rfl
@[simp] theorem State.setCore_counts (k : Nat) (c : Core) : (s.setCore k c).counts = s.counts := rfl
@[simp] theorem State.setCore_linksDown (k : Nat) (c : Core) : (s.setCore k c).linksDown = s.linksDown := rfl

-- updCore

@[simp] theorem State.updCore_pt (k : Nat) (f : Core → Core) : (s.updCore k f).pt = s.pt := rfl
@[simp] theorem State.updCore_clock (k : Nat) (f : Core → Core) : (s.updCore k f).clock = s.clock := rfl
@[simp] theorem State.updCore_agenda (k : Nat) (f : Core → Core) : (s.updCore k f).agenda = s.agenda := rfl
@[simp] theorem State.updCore_rr (k : Nat) (f : Core → Core) : (s.updCore k f).rr = s.rr := rfl
@[simp] theorem State.updCore_turn (k : Nat) (f : Core → Core) : (s.updCore k f).turn = s.turn := rfl
@[simp] theorem State.updCore_hart (k : Nat) (f : Core → Core) : (s.updCore k f).hart = s.hart := rfl
@[simp] theorem State.updCore_free (k : Nat) (f : Core → Core) : (s.updCore k f).free = s.free := rfl
@[simp] theorem State.updCore_mem (k : Nat) (f : Core → Core) : (s.updCore k f).mem = s.mem := rfl
@[simp] theorem State.updCore_tags (k : Nat) (f : Core → Core) : (s.updCore k f).tags = s.tags := rfl
@[simp] theorem State.updCore_fe (k : Nat) (f : Core → Core) : (s.updCore k f).fe = s.fe := rfl
@[simp] theorem State.updCore_feMark (k : Nat) (f : Core → Core) : (s.updCore k f).feMark = s.feMark := rfl
@[simp] theorem State.updCore_stamps (k : Nat) (f : Core → Core) : (s.updCore k f).stamps = s.stamps := rfl
@[simp] theorem State.updCore_marks (k : Nat) (f : Core → Core) : (s.updCore k f).marks = s.marks := rfl
@[simp] theorem State.updCore_writes (k : Nat) (f : Core → Core) : (s.updCore k f).writes = s.writes := rfl
@[simp] theorem State.updCore_bars (k : Nat) (f : Core → Core) : (s.updCore k f).bars = s.bars := rfl
@[simp] theorem State.updCore_barsAt (k : Nat) (f : Core → Core) : (s.updCore k f).barsAt = s.barsAt := rfl
@[simp] theorem State.updCore_bad (k : Nat) (f : Core → Core) : (s.updCore k f).bad = s.bad := rfl
@[simp] theorem State.updCore_encPage (k : Nat) (f : Core → Core) : (s.updCore k f).encPage = s.encPage := rfl
@[simp] theorem State.updCore_enc (k : Nat) (f : Core → Core) : (s.updCore k f).enc = s.enc := rfl
@[simp] theorem State.updCore_dirtyAt (k : Nat) (f : Core → Core) : (s.updCore k f).dirtyAt = s.dirtyAt := rfl
@[simp] theorem State.updCore_dirtyOne (k : Nat) (f : Core → Core) : (s.updCore k f).dirtyOne = s.dirtyOne := rfl
@[simp] theorem State.updCore_dirtySwitch (k : Nat) (f : Core → Core) : (s.updCore k f).dirtySwitch = s.dirtySwitch := rfl
@[simp] theorem State.updCore_mcbs (k : Nat) (f : Core → Core) : (s.updCore k f).mcbs = s.mcbs := rfl
@[simp] theorem State.updCore_bindings (k : Nat) (f : Core → Core) : (s.updCore k f).bindings = s.bindings := rfl
@[simp] theorem State.updCore_nextSerial (k : Nat) (f : Core → Core) : (s.updCore k f).nextSerial = s.nextSerial := rfl
@[simp] theorem State.updCore_islands (k : Nat) (f : Core → Core) : (s.updCore k f).islands = s.islands := rfl
@[simp] theorem State.updCore_parts (k : Nat) (f : Core → Core) : (s.updCore k f).parts = s.parts := rfl
@[simp] theorem State.updCore_granary (k : Nat) (f : Core → Core) : (s.updCore k f).granary = s.granary := rfl
@[simp] theorem State.updCore_sower (k : Nat) (f : Core → Core) : (s.updCore k f).sower = s.sower := rfl
@[simp] theorem State.updCore_sowerRegion (k : Nat) (f : Core → Core) : (s.updCore k f).sowerRegion = s.sowerRegion := rfl
@[simp] theorem State.updCore_sowerLog (k : Nat) (f : Core → Core) : (s.updCore k f).sowerLog = s.sowerLog := rfl
@[simp] theorem State.updCore_rotation (k : Nat) (f : Core → Core) : (s.updCore k f).rotation = s.rotation := rfl
@[simp] theorem State.updCore_nextAccept (k : Nat) (f : Core → Core) : (s.updCore k f).nextAccept = s.nextAccept := rfl
@[simp] theorem State.updCore_ports (k : Nat) (f : Core → Core) : (s.updCore k f).ports = s.ports := rfl
@[simp] theorem State.updCore_breakout (k : Nat) (f : Core → Core) : (s.updCore k f).breakout = s.breakout := rfl
@[simp] theorem State.updCore_ingress (k : Nat) (f : Core → Core) : (s.updCore k f).ingress = s.ingress := rfl
@[simp] theorem State.updCore_slots (k : Nat) (f : Core → Core) : (s.updCore k f).slots = s.slots := rfl
@[simp] theorem State.updCore_qps (k : Nat) (f : Core → Core) : (s.updCore k f).qps = s.qps := rfl
@[simp] theorem State.updCore_tx (k : Nat) (f : Core → Core) : (s.updCore k f).tx = s.tx := rfl
@[simp] theorem State.updCore_lanes (k : Nat) (f : Core → Core) : (s.updCore k f).lanes = s.lanes := rfl
@[simp] theorem State.updCore_jobs (k : Nat) (f : Core → Core) : (s.updCore k f).jobs = s.jobs := rfl
@[simp] theorem State.updCore_ifcs (k : Nat) (f : Core → Core) : (s.updCore k f).ifcs = s.ifcs := rfl
@[simp] theorem State.updCore_pfCompletions (k : Nat) (f : Core → Core) : (s.updCore k f).pfCompletions = s.pfCompletions := rfl
@[simp] theorem State.updCore_streams (k : Nat) (f : Core → Core) : (s.updCore k f).streams = s.streams := rfl
@[simp] theorem State.updCore_waiting (k : Nat) (f : Core → Core) : (s.updCore k f).waiting = s.waiting := rfl
@[simp] theorem State.updCore_hostDeny (k : Nat) (f : Core → Core) : (s.updCore k f).hostDeny = s.hostDeny := rfl
@[simp] theorem State.updCore_inbound (k : Nat) (f : Core → Core) : (s.updCore k f).inbound = s.inbound := rfl
@[simp] theorem State.updCore_mute (k : Nat) (f : Core → Core) : (s.updCore k f).mute = s.mute := rfl
@[simp] theorem State.updCore_pmem (k : Nat) (f : Core → Core) : (s.updCore k f).pmem = s.pmem := rfl
@[simp] theorem State.updCore_bells (k : Nat) (f : Core → Core) : (s.updCore k f).bells = s.bells := rfl
@[simp] theorem State.updCore_rdy (k : Nat) (f : Core → Core) : (s.updCore k f).rdy = s.rdy := rfl
@[simp] theorem State.updCore_mode (k : Nat) (f : Core → Core) : (s.updCore k f).mode = s.mode := rfl
@[simp] theorem State.updCore_hostWalks (k : Nat) (f : Core → Core) : (s.updCore k f).hostWalks = s.hostWalks := rfl
@[simp] theorem State.updCore_harts (k : Nat) (f : Core → Core) : (s.updCore k f).harts = s.harts := rfl
@[simp] theorem State.updCore_master (k : Nat) (f : Core → Core) : (s.updCore k f).master = s.master := rfl
@[simp] theorem State.updCore_lastBeacon (k : Nat) (f : Core → Core) : (s.updCore k f).lastBeacon = s.lastBeacon := rfl
@[simp] theorem State.updCore_nepolRefuses (k : Nat) (f : Core → Core) : (s.updCore k f).nepolRefuses = s.nepolRefuses := rfl
@[simp] theorem State.updCore_controllersRefuse (k : Nat) (f : Core → Core) : (s.updCore k f).controllersRefuse = s.controllersRefuse := rfl
@[simp] theorem State.updCore_portDev (k : Nat) (f : Core → Core) : (s.updCore k f).portDev = s.portDev := rfl
@[simp] theorem State.updCore_portFloor (k : Nat) (f : Core → Core) : (s.updCore k f).portFloor = s.portFloor := rfl
@[simp] theorem State.updCore_mctp (k : Nat) (f : Core → Core) : (s.updCore k f).mctp = s.mctp := rfl
@[simp] theorem State.updCore_power (k : Nat) (f : Core → Core) : (s.updCore k f).power = s.power := rfl
@[simp] theorem State.updCore_coolFor (k : Nat) (f : Core → Core) : (s.updCore k f).coolFor = s.coolFor := rfl
@[simp] theorem State.updCore_device (k : Nat) (f : Core → Core) : (s.updCore k f).device = s.device := rfl
@[simp] theorem State.updCore_exports (k : Nat) (f : Core → Core) : (s.updCore k f).exports = s.exports := rfl
@[simp] theorem State.updCore_windows (k : Nat) (f : Core → Core) : (s.updCore k f).windows = s.windows := rfl
@[simp] theorem State.updCore_performed (k : Nat) (f : Core → Core) : (s.updCore k f).performed = s.performed := rfl
@[simp] theorem State.updCore_nextContribution (k : Nat) (f : Core → Core) : (s.updCore k f).nextContribution = s.nextContribution := rfl
@[simp] theorem State.updCore_switch (k : Nat) (f : Core → Core) : (s.updCore k f).switch = s.switch := rfl
@[simp] theorem State.updCore_counts (k : Nat) (f : Core → Core) : (s.updCore k f).counts = s.counts := rfl
@[simp] theorem State.updCore_linksDown (k : Nat) (f : Core → Core) : (s.updCore k f).linksDown = s.linksDown := rfl

-- setMcb

@[simp] theorem State.setMcb_pt (m : Nat) (b : Mcb) : (s.setMcb m b).pt = s.pt := rfl
@[simp] theorem State.setMcb_clock (m : Nat) (b : Mcb) : (s.setMcb m b).clock = s.clock := rfl
@[simp] theorem State.setMcb_agenda (m : Nat) (b : Mcb) : (s.setMcb m b).agenda = s.agenda := rfl
@[simp] theorem State.setMcb_rr (m : Nat) (b : Mcb) : (s.setMcb m b).rr = s.rr := rfl
@[simp] theorem State.setMcb_turn (m : Nat) (b : Mcb) : (s.setMcb m b).turn = s.turn := rfl
@[simp] theorem State.setMcb_hart (m : Nat) (b : Mcb) : (s.setMcb m b).hart = s.hart := rfl
@[simp] theorem State.setMcb_free (m : Nat) (b : Mcb) : (s.setMcb m b).free = s.free := rfl
@[simp] theorem State.setMcb_mem (m : Nat) (b : Mcb) : (s.setMcb m b).mem = s.mem := rfl
@[simp] theorem State.setMcb_tags (m : Nat) (b : Mcb) : (s.setMcb m b).tags = s.tags := rfl
@[simp] theorem State.setMcb_fe (m : Nat) (b : Mcb) : (s.setMcb m b).fe = s.fe := rfl
@[simp] theorem State.setMcb_feMark (m : Nat) (b : Mcb) : (s.setMcb m b).feMark = s.feMark := rfl
@[simp] theorem State.setMcb_stamps (m : Nat) (b : Mcb) : (s.setMcb m b).stamps = s.stamps := rfl
@[simp] theorem State.setMcb_marks (m : Nat) (b : Mcb) : (s.setMcb m b).marks = s.marks := rfl
@[simp] theorem State.setMcb_writes (m : Nat) (b : Mcb) : (s.setMcb m b).writes = s.writes := rfl
@[simp] theorem State.setMcb_bars (m : Nat) (b : Mcb) : (s.setMcb m b).bars = s.bars := rfl
@[simp] theorem State.setMcb_barsAt (m : Nat) (b : Mcb) : (s.setMcb m b).barsAt = s.barsAt := rfl
@[simp] theorem State.setMcb_bad (m : Nat) (b : Mcb) : (s.setMcb m b).bad = s.bad := rfl
@[simp] theorem State.setMcb_encPage (m : Nat) (b : Mcb) : (s.setMcb m b).encPage = s.encPage := rfl
@[simp] theorem State.setMcb_enc (m : Nat) (b : Mcb) : (s.setMcb m b).enc = s.enc := rfl
@[simp] theorem State.setMcb_dirtyAt (m : Nat) (b : Mcb) : (s.setMcb m b).dirtyAt = s.dirtyAt := rfl
@[simp] theorem State.setMcb_dirtyOne (m : Nat) (b : Mcb) : (s.setMcb m b).dirtyOne = s.dirtyOne := rfl
@[simp] theorem State.setMcb_dirtySwitch (m : Nat) (b : Mcb) : (s.setMcb m b).dirtySwitch = s.dirtySwitch := rfl
@[simp] theorem State.setMcb_cores (m : Nat) (b : Mcb) : (s.setMcb m b).cores = s.cores := rfl
@[simp] theorem State.setMcb_bindings (m : Nat) (b : Mcb) : (s.setMcb m b).bindings = s.bindings := rfl
@[simp] theorem State.setMcb_nextSerial (m : Nat) (b : Mcb) : (s.setMcb m b).nextSerial = s.nextSerial := rfl
@[simp] theorem State.setMcb_islands (m : Nat) (b : Mcb) : (s.setMcb m b).islands = s.islands := rfl
@[simp] theorem State.setMcb_parts (m : Nat) (b : Mcb) : (s.setMcb m b).parts = s.parts := rfl
@[simp] theorem State.setMcb_granary (m : Nat) (b : Mcb) : (s.setMcb m b).granary = s.granary := rfl
@[simp] theorem State.setMcb_sower (m : Nat) (b : Mcb) : (s.setMcb m b).sower = s.sower := rfl
@[simp] theorem State.setMcb_sowerRegion (m : Nat) (b : Mcb) : (s.setMcb m b).sowerRegion = s.sowerRegion := rfl
@[simp] theorem State.setMcb_sowerLog (m : Nat) (b : Mcb) : (s.setMcb m b).sowerLog = s.sowerLog := rfl
@[simp] theorem State.setMcb_rotation (m : Nat) (b : Mcb) : (s.setMcb m b).rotation = s.rotation := rfl
@[simp] theorem State.setMcb_nextAccept (m : Nat) (b : Mcb) : (s.setMcb m b).nextAccept = s.nextAccept := rfl
@[simp] theorem State.setMcb_ports (m : Nat) (b : Mcb) : (s.setMcb m b).ports = s.ports := rfl
@[simp] theorem State.setMcb_breakout (m : Nat) (b : Mcb) : (s.setMcb m b).breakout = s.breakout := rfl
@[simp] theorem State.setMcb_ingress (m : Nat) (b : Mcb) : (s.setMcb m b).ingress = s.ingress := rfl
@[simp] theorem State.setMcb_slots (m : Nat) (b : Mcb) : (s.setMcb m b).slots = s.slots := rfl
@[simp] theorem State.setMcb_qps (m : Nat) (b : Mcb) : (s.setMcb m b).qps = s.qps := rfl
@[simp] theorem State.setMcb_tx (m : Nat) (b : Mcb) : (s.setMcb m b).tx = s.tx := rfl
@[simp] theorem State.setMcb_lanes (m : Nat) (b : Mcb) : (s.setMcb m b).lanes = s.lanes := rfl
@[simp] theorem State.setMcb_jobs (m : Nat) (b : Mcb) : (s.setMcb m b).jobs = s.jobs := rfl
@[simp] theorem State.setMcb_ifcs (m : Nat) (b : Mcb) : (s.setMcb m b).ifcs = s.ifcs := rfl
@[simp] theorem State.setMcb_pfCompletions (m : Nat) (b : Mcb) : (s.setMcb m b).pfCompletions = s.pfCompletions := rfl
@[simp] theorem State.setMcb_streams (m : Nat) (b : Mcb) : (s.setMcb m b).streams = s.streams := rfl
@[simp] theorem State.setMcb_waiting (m : Nat) (b : Mcb) : (s.setMcb m b).waiting = s.waiting := rfl
@[simp] theorem State.setMcb_hostDeny (m : Nat) (b : Mcb) : (s.setMcb m b).hostDeny = s.hostDeny := rfl
@[simp] theorem State.setMcb_inbound (m : Nat) (b : Mcb) : (s.setMcb m b).inbound = s.inbound := rfl
@[simp] theorem State.setMcb_mute (m : Nat) (b : Mcb) : (s.setMcb m b).mute = s.mute := rfl
@[simp] theorem State.setMcb_pmem (m : Nat) (b : Mcb) : (s.setMcb m b).pmem = s.pmem := rfl
@[simp] theorem State.setMcb_bells (m : Nat) (b : Mcb) : (s.setMcb m b).bells = s.bells := rfl
@[simp] theorem State.setMcb_rdy (m : Nat) (b : Mcb) : (s.setMcb m b).rdy = s.rdy := rfl
@[simp] theorem State.setMcb_mode (m : Nat) (b : Mcb) : (s.setMcb m b).mode = s.mode := rfl
@[simp] theorem State.setMcb_hostWalks (m : Nat) (b : Mcb) : (s.setMcb m b).hostWalks = s.hostWalks := rfl
@[simp] theorem State.setMcb_harts (m : Nat) (b : Mcb) : (s.setMcb m b).harts = s.harts := rfl
@[simp] theorem State.setMcb_master (m : Nat) (b : Mcb) : (s.setMcb m b).master = s.master := rfl
@[simp] theorem State.setMcb_lastBeacon (m : Nat) (b : Mcb) : (s.setMcb m b).lastBeacon = s.lastBeacon := rfl
@[simp] theorem State.setMcb_nepolRefuses (m : Nat) (b : Mcb) : (s.setMcb m b).nepolRefuses = s.nepolRefuses := rfl
@[simp] theorem State.setMcb_controllersRefuse (m : Nat) (b : Mcb) : (s.setMcb m b).controllersRefuse = s.controllersRefuse := rfl
@[simp] theorem State.setMcb_portDev (m : Nat) (b : Mcb) : (s.setMcb m b).portDev = s.portDev := rfl
@[simp] theorem State.setMcb_portFloor (m : Nat) (b : Mcb) : (s.setMcb m b).portFloor = s.portFloor := rfl
@[simp] theorem State.setMcb_mctp (m : Nat) (b : Mcb) : (s.setMcb m b).mctp = s.mctp := rfl
@[simp] theorem State.setMcb_power (m : Nat) (b : Mcb) : (s.setMcb m b).power = s.power := rfl
@[simp] theorem State.setMcb_coolFor (m : Nat) (b : Mcb) : (s.setMcb m b).coolFor = s.coolFor := rfl
@[simp] theorem State.setMcb_device (m : Nat) (b : Mcb) : (s.setMcb m b).device = s.device := rfl
@[simp] theorem State.setMcb_exports (m : Nat) (b : Mcb) : (s.setMcb m b).exports = s.exports := rfl
@[simp] theorem State.setMcb_windows (m : Nat) (b : Mcb) : (s.setMcb m b).windows = s.windows := rfl
@[simp] theorem State.setMcb_performed (m : Nat) (b : Mcb) : (s.setMcb m b).performed = s.performed := rfl
@[simp] theorem State.setMcb_nextContribution (m : Nat) (b : Mcb) : (s.setMcb m b).nextContribution = s.nextContribution := rfl
@[simp] theorem State.setMcb_switch (m : Nat) (b : Mcb) : (s.setMcb m b).switch = s.switch := rfl
@[simp] theorem State.setMcb_counts (m : Nat) (b : Mcb) : (s.setMcb m b).counts = s.counts := rfl
@[simp] theorem State.setMcb_linksDown (m : Nat) (b : Mcb) : (s.setMcb m b).linksDown = s.linksDown := rfl

-- updMcb

@[simp] theorem State.updMcb_pt (m : Nat) (f : Mcb → Mcb) : (s.updMcb m f).pt = s.pt := rfl
@[simp] theorem State.updMcb_clock (m : Nat) (f : Mcb → Mcb) : (s.updMcb m f).clock = s.clock := rfl
@[simp] theorem State.updMcb_agenda (m : Nat) (f : Mcb → Mcb) : (s.updMcb m f).agenda = s.agenda := rfl
@[simp] theorem State.updMcb_rr (m : Nat) (f : Mcb → Mcb) : (s.updMcb m f).rr = s.rr := rfl
@[simp] theorem State.updMcb_turn (m : Nat) (f : Mcb → Mcb) : (s.updMcb m f).turn = s.turn := rfl
@[simp] theorem State.updMcb_hart (m : Nat) (f : Mcb → Mcb) : (s.updMcb m f).hart = s.hart := rfl
@[simp] theorem State.updMcb_free (m : Nat) (f : Mcb → Mcb) : (s.updMcb m f).free = s.free := rfl
@[simp] theorem State.updMcb_mem (m : Nat) (f : Mcb → Mcb) : (s.updMcb m f).mem = s.mem := rfl
@[simp] theorem State.updMcb_tags (m : Nat) (f : Mcb → Mcb) : (s.updMcb m f).tags = s.tags := rfl
@[simp] theorem State.updMcb_fe (m : Nat) (f : Mcb → Mcb) : (s.updMcb m f).fe = s.fe := rfl
@[simp] theorem State.updMcb_feMark (m : Nat) (f : Mcb → Mcb) : (s.updMcb m f).feMark = s.feMark := rfl
@[simp] theorem State.updMcb_stamps (m : Nat) (f : Mcb → Mcb) : (s.updMcb m f).stamps = s.stamps := rfl
@[simp] theorem State.updMcb_marks (m : Nat) (f : Mcb → Mcb) : (s.updMcb m f).marks = s.marks := rfl
@[simp] theorem State.updMcb_writes (m : Nat) (f : Mcb → Mcb) : (s.updMcb m f).writes = s.writes := rfl
@[simp] theorem State.updMcb_bars (m : Nat) (f : Mcb → Mcb) : (s.updMcb m f).bars = s.bars := rfl
@[simp] theorem State.updMcb_barsAt (m : Nat) (f : Mcb → Mcb) : (s.updMcb m f).barsAt = s.barsAt := rfl
@[simp] theorem State.updMcb_bad (m : Nat) (f : Mcb → Mcb) : (s.updMcb m f).bad = s.bad := rfl
@[simp] theorem State.updMcb_encPage (m : Nat) (f : Mcb → Mcb) : (s.updMcb m f).encPage = s.encPage := rfl
@[simp] theorem State.updMcb_enc (m : Nat) (f : Mcb → Mcb) : (s.updMcb m f).enc = s.enc := rfl
@[simp] theorem State.updMcb_dirtyAt (m : Nat) (f : Mcb → Mcb) : (s.updMcb m f).dirtyAt = s.dirtyAt := rfl
@[simp] theorem State.updMcb_dirtyOne (m : Nat) (f : Mcb → Mcb) : (s.updMcb m f).dirtyOne = s.dirtyOne := rfl
@[simp] theorem State.updMcb_dirtySwitch (m : Nat) (f : Mcb → Mcb) : (s.updMcb m f).dirtySwitch = s.dirtySwitch := rfl
@[simp] theorem State.updMcb_cores (m : Nat) (f : Mcb → Mcb) : (s.updMcb m f).cores = s.cores := rfl
@[simp] theorem State.updMcb_bindings (m : Nat) (f : Mcb → Mcb) : (s.updMcb m f).bindings = s.bindings := rfl
@[simp] theorem State.updMcb_nextSerial (m : Nat) (f : Mcb → Mcb) : (s.updMcb m f).nextSerial = s.nextSerial := rfl
@[simp] theorem State.updMcb_islands (m : Nat) (f : Mcb → Mcb) : (s.updMcb m f).islands = s.islands := rfl
@[simp] theorem State.updMcb_parts (m : Nat) (f : Mcb → Mcb) : (s.updMcb m f).parts = s.parts := rfl
@[simp] theorem State.updMcb_granary (m : Nat) (f : Mcb → Mcb) : (s.updMcb m f).granary = s.granary := rfl
@[simp] theorem State.updMcb_sower (m : Nat) (f : Mcb → Mcb) : (s.updMcb m f).sower = s.sower := rfl
@[simp] theorem State.updMcb_sowerRegion (m : Nat) (f : Mcb → Mcb) : (s.updMcb m f).sowerRegion = s.sowerRegion := rfl
@[simp] theorem State.updMcb_sowerLog (m : Nat) (f : Mcb → Mcb) : (s.updMcb m f).sowerLog = s.sowerLog := rfl
@[simp] theorem State.updMcb_rotation (m : Nat) (f : Mcb → Mcb) : (s.updMcb m f).rotation = s.rotation := rfl
@[simp] theorem State.updMcb_nextAccept (m : Nat) (f : Mcb → Mcb) : (s.updMcb m f).nextAccept = s.nextAccept := rfl
@[simp] theorem State.updMcb_ports (m : Nat) (f : Mcb → Mcb) : (s.updMcb m f).ports = s.ports := rfl
@[simp] theorem State.updMcb_breakout (m : Nat) (f : Mcb → Mcb) : (s.updMcb m f).breakout = s.breakout := rfl
@[simp] theorem State.updMcb_ingress (m : Nat) (f : Mcb → Mcb) : (s.updMcb m f).ingress = s.ingress := rfl
@[simp] theorem State.updMcb_slots (m : Nat) (f : Mcb → Mcb) : (s.updMcb m f).slots = s.slots := rfl
@[simp] theorem State.updMcb_qps (m : Nat) (f : Mcb → Mcb) : (s.updMcb m f).qps = s.qps := rfl
@[simp] theorem State.updMcb_tx (m : Nat) (f : Mcb → Mcb) : (s.updMcb m f).tx = s.tx := rfl
@[simp] theorem State.updMcb_lanes (m : Nat) (f : Mcb → Mcb) : (s.updMcb m f).lanes = s.lanes := rfl
@[simp] theorem State.updMcb_jobs (m : Nat) (f : Mcb → Mcb) : (s.updMcb m f).jobs = s.jobs := rfl
@[simp] theorem State.updMcb_ifcs (m : Nat) (f : Mcb → Mcb) : (s.updMcb m f).ifcs = s.ifcs := rfl
@[simp] theorem State.updMcb_pfCompletions (m : Nat) (f : Mcb → Mcb) : (s.updMcb m f).pfCompletions = s.pfCompletions := rfl
@[simp] theorem State.updMcb_streams (m : Nat) (f : Mcb → Mcb) : (s.updMcb m f).streams = s.streams := rfl
@[simp] theorem State.updMcb_waiting (m : Nat) (f : Mcb → Mcb) : (s.updMcb m f).waiting = s.waiting := rfl
@[simp] theorem State.updMcb_hostDeny (m : Nat) (f : Mcb → Mcb) : (s.updMcb m f).hostDeny = s.hostDeny := rfl
@[simp] theorem State.updMcb_inbound (m : Nat) (f : Mcb → Mcb) : (s.updMcb m f).inbound = s.inbound := rfl
@[simp] theorem State.updMcb_mute (m : Nat) (f : Mcb → Mcb) : (s.updMcb m f).mute = s.mute := rfl
@[simp] theorem State.updMcb_pmem (m : Nat) (f : Mcb → Mcb) : (s.updMcb m f).pmem = s.pmem := rfl
@[simp] theorem State.updMcb_bells (m : Nat) (f : Mcb → Mcb) : (s.updMcb m f).bells = s.bells := rfl
@[simp] theorem State.updMcb_rdy (m : Nat) (f : Mcb → Mcb) : (s.updMcb m f).rdy = s.rdy := rfl
@[simp] theorem State.updMcb_mode (m : Nat) (f : Mcb → Mcb) : (s.updMcb m f).mode = s.mode := rfl
@[simp] theorem State.updMcb_hostWalks (m : Nat) (f : Mcb → Mcb) : (s.updMcb m f).hostWalks = s.hostWalks := rfl
@[simp] theorem State.updMcb_harts (m : Nat) (f : Mcb → Mcb) : (s.updMcb m f).harts = s.harts := rfl
@[simp] theorem State.updMcb_master (m : Nat) (f : Mcb → Mcb) : (s.updMcb m f).master = s.master := rfl
@[simp] theorem State.updMcb_lastBeacon (m : Nat) (f : Mcb → Mcb) : (s.updMcb m f).lastBeacon = s.lastBeacon := rfl
@[simp] theorem State.updMcb_nepolRefuses (m : Nat) (f : Mcb → Mcb) : (s.updMcb m f).nepolRefuses = s.nepolRefuses := rfl
@[simp] theorem State.updMcb_controllersRefuse (m : Nat) (f : Mcb → Mcb) : (s.updMcb m f).controllersRefuse = s.controllersRefuse := rfl
@[simp] theorem State.updMcb_portDev (m : Nat) (f : Mcb → Mcb) : (s.updMcb m f).portDev = s.portDev := rfl
@[simp] theorem State.updMcb_portFloor (m : Nat) (f : Mcb → Mcb) : (s.updMcb m f).portFloor = s.portFloor := rfl
@[simp] theorem State.updMcb_mctp (m : Nat) (f : Mcb → Mcb) : (s.updMcb m f).mctp = s.mctp := rfl
@[simp] theorem State.updMcb_power (m : Nat) (f : Mcb → Mcb) : (s.updMcb m f).power = s.power := rfl
@[simp] theorem State.updMcb_coolFor (m : Nat) (f : Mcb → Mcb) : (s.updMcb m f).coolFor = s.coolFor := rfl
@[simp] theorem State.updMcb_device (m : Nat) (f : Mcb → Mcb) : (s.updMcb m f).device = s.device := rfl
@[simp] theorem State.updMcb_exports (m : Nat) (f : Mcb → Mcb) : (s.updMcb m f).exports = s.exports := rfl
@[simp] theorem State.updMcb_windows (m : Nat) (f : Mcb → Mcb) : (s.updMcb m f).windows = s.windows := rfl
@[simp] theorem State.updMcb_performed (m : Nat) (f : Mcb → Mcb) : (s.updMcb m f).performed = s.performed := rfl
@[simp] theorem State.updMcb_nextContribution (m : Nat) (f : Mcb → Mcb) : (s.updMcb m f).nextContribution = s.nextContribution := rfl
@[simp] theorem State.updMcb_switch (m : Nat) (f : Mcb → Mcb) : (s.updMcb m f).switch = s.switch := rfl
@[simp] theorem State.updMcb_counts (m : Nat) (f : Mcb → Mcb) : (s.updMcb m f).counts = s.counts := rfl
@[simp] theorem State.updMcb_linksDown (m : Nat) (f : Mcb → Mcb) : (s.updMcb m f).linksDown = s.linksDown := rfl

-- updInv

@[simp] theorem State.updInv_pt (m : Nat) (f : Inv → Inv) : (s.updInv m f).pt = s.pt := rfl
@[simp] theorem State.updInv_clock (m : Nat) (f : Inv → Inv) : (s.updInv m f).clock = s.clock := rfl
@[simp] theorem State.updInv_agenda (m : Nat) (f : Inv → Inv) : (s.updInv m f).agenda = s.agenda := rfl
@[simp] theorem State.updInv_rr (m : Nat) (f : Inv → Inv) : (s.updInv m f).rr = s.rr := rfl
@[simp] theorem State.updInv_turn (m : Nat) (f : Inv → Inv) : (s.updInv m f).turn = s.turn := rfl
@[simp] theorem State.updInv_hart (m : Nat) (f : Inv → Inv) : (s.updInv m f).hart = s.hart := rfl
@[simp] theorem State.updInv_free (m : Nat) (f : Inv → Inv) : (s.updInv m f).free = s.free := rfl
@[simp] theorem State.updInv_mem (m : Nat) (f : Inv → Inv) : (s.updInv m f).mem = s.mem := rfl
@[simp] theorem State.updInv_tags (m : Nat) (f : Inv → Inv) : (s.updInv m f).tags = s.tags := rfl
@[simp] theorem State.updInv_fe (m : Nat) (f : Inv → Inv) : (s.updInv m f).fe = s.fe := rfl
@[simp] theorem State.updInv_feMark (m : Nat) (f : Inv → Inv) : (s.updInv m f).feMark = s.feMark := rfl
@[simp] theorem State.updInv_stamps (m : Nat) (f : Inv → Inv) : (s.updInv m f).stamps = s.stamps := rfl
@[simp] theorem State.updInv_marks (m : Nat) (f : Inv → Inv) : (s.updInv m f).marks = s.marks := rfl
@[simp] theorem State.updInv_writes (m : Nat) (f : Inv → Inv) : (s.updInv m f).writes = s.writes := rfl
@[simp] theorem State.updInv_bars (m : Nat) (f : Inv → Inv) : (s.updInv m f).bars = s.bars := rfl
@[simp] theorem State.updInv_barsAt (m : Nat) (f : Inv → Inv) : (s.updInv m f).barsAt = s.barsAt := rfl
@[simp] theorem State.updInv_bad (m : Nat) (f : Inv → Inv) : (s.updInv m f).bad = s.bad := rfl
@[simp] theorem State.updInv_encPage (m : Nat) (f : Inv → Inv) : (s.updInv m f).encPage = s.encPage := rfl
@[simp] theorem State.updInv_enc (m : Nat) (f : Inv → Inv) : (s.updInv m f).enc = s.enc := rfl
@[simp] theorem State.updInv_dirtyAt (m : Nat) (f : Inv → Inv) : (s.updInv m f).dirtyAt = s.dirtyAt := rfl
@[simp] theorem State.updInv_dirtyOne (m : Nat) (f : Inv → Inv) : (s.updInv m f).dirtyOne = s.dirtyOne := rfl
@[simp] theorem State.updInv_dirtySwitch (m : Nat) (f : Inv → Inv) : (s.updInv m f).dirtySwitch = s.dirtySwitch := rfl
@[simp] theorem State.updInv_cores (m : Nat) (f : Inv → Inv) : (s.updInv m f).cores = s.cores := rfl
@[simp] theorem State.updInv_bindings (m : Nat) (f : Inv → Inv) : (s.updInv m f).bindings = s.bindings := rfl
@[simp] theorem State.updInv_nextSerial (m : Nat) (f : Inv → Inv) : (s.updInv m f).nextSerial = s.nextSerial := rfl
@[simp] theorem State.updInv_islands (m : Nat) (f : Inv → Inv) : (s.updInv m f).islands = s.islands := rfl
@[simp] theorem State.updInv_parts (m : Nat) (f : Inv → Inv) : (s.updInv m f).parts = s.parts := rfl
@[simp] theorem State.updInv_granary (m : Nat) (f : Inv → Inv) : (s.updInv m f).granary = s.granary := rfl
@[simp] theorem State.updInv_sower (m : Nat) (f : Inv → Inv) : (s.updInv m f).sower = s.sower := rfl
@[simp] theorem State.updInv_sowerRegion (m : Nat) (f : Inv → Inv) : (s.updInv m f).sowerRegion = s.sowerRegion := rfl
@[simp] theorem State.updInv_sowerLog (m : Nat) (f : Inv → Inv) : (s.updInv m f).sowerLog = s.sowerLog := rfl
@[simp] theorem State.updInv_rotation (m : Nat) (f : Inv → Inv) : (s.updInv m f).rotation = s.rotation := rfl
@[simp] theorem State.updInv_nextAccept (m : Nat) (f : Inv → Inv) : (s.updInv m f).nextAccept = s.nextAccept := rfl
@[simp] theorem State.updInv_ports (m : Nat) (f : Inv → Inv) : (s.updInv m f).ports = s.ports := rfl
@[simp] theorem State.updInv_breakout (m : Nat) (f : Inv → Inv) : (s.updInv m f).breakout = s.breakout := rfl
@[simp] theorem State.updInv_ingress (m : Nat) (f : Inv → Inv) : (s.updInv m f).ingress = s.ingress := rfl
@[simp] theorem State.updInv_slots (m : Nat) (f : Inv → Inv) : (s.updInv m f).slots = s.slots := rfl
@[simp] theorem State.updInv_qps (m : Nat) (f : Inv → Inv) : (s.updInv m f).qps = s.qps := rfl
@[simp] theorem State.updInv_tx (m : Nat) (f : Inv → Inv) : (s.updInv m f).tx = s.tx := rfl
@[simp] theorem State.updInv_lanes (m : Nat) (f : Inv → Inv) : (s.updInv m f).lanes = s.lanes := rfl
@[simp] theorem State.updInv_jobs (m : Nat) (f : Inv → Inv) : (s.updInv m f).jobs = s.jobs := rfl
@[simp] theorem State.updInv_ifcs (m : Nat) (f : Inv → Inv) : (s.updInv m f).ifcs = s.ifcs := rfl
@[simp] theorem State.updInv_pfCompletions (m : Nat) (f : Inv → Inv) : (s.updInv m f).pfCompletions = s.pfCompletions := rfl
@[simp] theorem State.updInv_streams (m : Nat) (f : Inv → Inv) : (s.updInv m f).streams = s.streams := rfl
@[simp] theorem State.updInv_waiting (m : Nat) (f : Inv → Inv) : (s.updInv m f).waiting = s.waiting := rfl
@[simp] theorem State.updInv_hostDeny (m : Nat) (f : Inv → Inv) : (s.updInv m f).hostDeny = s.hostDeny := rfl
@[simp] theorem State.updInv_inbound (m : Nat) (f : Inv → Inv) : (s.updInv m f).inbound = s.inbound := rfl
@[simp] theorem State.updInv_mute (m : Nat) (f : Inv → Inv) : (s.updInv m f).mute = s.mute := rfl
@[simp] theorem State.updInv_pmem (m : Nat) (f : Inv → Inv) : (s.updInv m f).pmem = s.pmem := rfl
@[simp] theorem State.updInv_bells (m : Nat) (f : Inv → Inv) : (s.updInv m f).bells = s.bells := rfl
@[simp] theorem State.updInv_rdy (m : Nat) (f : Inv → Inv) : (s.updInv m f).rdy = s.rdy := rfl
@[simp] theorem State.updInv_mode (m : Nat) (f : Inv → Inv) : (s.updInv m f).mode = s.mode := rfl
@[simp] theorem State.updInv_hostWalks (m : Nat) (f : Inv → Inv) : (s.updInv m f).hostWalks = s.hostWalks := rfl
@[simp] theorem State.updInv_harts (m : Nat) (f : Inv → Inv) : (s.updInv m f).harts = s.harts := rfl
@[simp] theorem State.updInv_master (m : Nat) (f : Inv → Inv) : (s.updInv m f).master = s.master := rfl
@[simp] theorem State.updInv_lastBeacon (m : Nat) (f : Inv → Inv) : (s.updInv m f).lastBeacon = s.lastBeacon := rfl
@[simp] theorem State.updInv_nepolRefuses (m : Nat) (f : Inv → Inv) : (s.updInv m f).nepolRefuses = s.nepolRefuses := rfl
@[simp] theorem State.updInv_controllersRefuse (m : Nat) (f : Inv → Inv) : (s.updInv m f).controllersRefuse = s.controllersRefuse := rfl
@[simp] theorem State.updInv_portDev (m : Nat) (f : Inv → Inv) : (s.updInv m f).portDev = s.portDev := rfl
@[simp] theorem State.updInv_portFloor (m : Nat) (f : Inv → Inv) : (s.updInv m f).portFloor = s.portFloor := rfl
@[simp] theorem State.updInv_mctp (m : Nat) (f : Inv → Inv) : (s.updInv m f).mctp = s.mctp := rfl
@[simp] theorem State.updInv_power (m : Nat) (f : Inv → Inv) : (s.updInv m f).power = s.power := rfl
@[simp] theorem State.updInv_coolFor (m : Nat) (f : Inv → Inv) : (s.updInv m f).coolFor = s.coolFor := rfl
@[simp] theorem State.updInv_device (m : Nat) (f : Inv → Inv) : (s.updInv m f).device = s.device := rfl
@[simp] theorem State.updInv_exports (m : Nat) (f : Inv → Inv) : (s.updInv m f).exports = s.exports := rfl
@[simp] theorem State.updInv_windows (m : Nat) (f : Inv → Inv) : (s.updInv m f).windows = s.windows := rfl
@[simp] theorem State.updInv_performed (m : Nat) (f : Inv → Inv) : (s.updInv m f).performed = s.performed := rfl
@[simp] theorem State.updInv_nextContribution (m : Nat) (f : Inv → Inv) : (s.updInv m f).nextContribution = s.nextContribution := rfl
@[simp] theorem State.updInv_switch (m : Nat) (f : Inv → Inv) : (s.updInv m f).switch = s.switch := rfl
@[simp] theorem State.updInv_counts (m : Nat) (f : Inv → Inv) : (s.updInv m f).counts = s.counts := rfl
@[simp] theorem State.updInv_linksDown (m : Nat) (f : Inv → Inv) : (s.updInv m f).linksDown = s.linksDown := rfl

-- updPart

@[simp] theorem State.updPart_pt (p : Nat) (f : Partition → Partition) : (s.updPart p f).pt = s.pt := rfl
@[simp] theorem State.updPart_clock (p : Nat) (f : Partition → Partition) : (s.updPart p f).clock = s.clock := rfl
@[simp] theorem State.updPart_agenda (p : Nat) (f : Partition → Partition) : (s.updPart p f).agenda = s.agenda := rfl
@[simp] theorem State.updPart_rr (p : Nat) (f : Partition → Partition) : (s.updPart p f).rr = s.rr := rfl
@[simp] theorem State.updPart_turn (p : Nat) (f : Partition → Partition) : (s.updPart p f).turn = s.turn := rfl
@[simp] theorem State.updPart_hart (p : Nat) (f : Partition → Partition) : (s.updPart p f).hart = s.hart := rfl
@[simp] theorem State.updPart_free (p : Nat) (f : Partition → Partition) : (s.updPart p f).free = s.free := rfl
@[simp] theorem State.updPart_mem (p : Nat) (f : Partition → Partition) : (s.updPart p f).mem = s.mem := rfl
@[simp] theorem State.updPart_tags (p : Nat) (f : Partition → Partition) : (s.updPart p f).tags = s.tags := rfl
@[simp] theorem State.updPart_fe (p : Nat) (f : Partition → Partition) : (s.updPart p f).fe = s.fe := rfl
@[simp] theorem State.updPart_feMark (p : Nat) (f : Partition → Partition) : (s.updPart p f).feMark = s.feMark := rfl
@[simp] theorem State.updPart_stamps (p : Nat) (f : Partition → Partition) : (s.updPart p f).stamps = s.stamps := rfl
@[simp] theorem State.updPart_marks (p : Nat) (f : Partition → Partition) : (s.updPart p f).marks = s.marks := rfl
@[simp] theorem State.updPart_writes (p : Nat) (f : Partition → Partition) : (s.updPart p f).writes = s.writes := rfl
@[simp] theorem State.updPart_bars (p : Nat) (f : Partition → Partition) : (s.updPart p f).bars = s.bars := rfl
@[simp] theorem State.updPart_barsAt (p : Nat) (f : Partition → Partition) : (s.updPart p f).barsAt = s.barsAt := rfl
@[simp] theorem State.updPart_bad (p : Nat) (f : Partition → Partition) : (s.updPart p f).bad = s.bad := rfl
@[simp] theorem State.updPart_encPage (p : Nat) (f : Partition → Partition) : (s.updPart p f).encPage = s.encPage := rfl
@[simp] theorem State.updPart_enc (p : Nat) (f : Partition → Partition) : (s.updPart p f).enc = s.enc := rfl
@[simp] theorem State.updPart_dirtyAt (p : Nat) (f : Partition → Partition) : (s.updPart p f).dirtyAt = s.dirtyAt := rfl
@[simp] theorem State.updPart_dirtyOne (p : Nat) (f : Partition → Partition) : (s.updPart p f).dirtyOne = s.dirtyOne := rfl
@[simp] theorem State.updPart_dirtySwitch (p : Nat) (f : Partition → Partition) : (s.updPart p f).dirtySwitch = s.dirtySwitch := rfl
@[simp] theorem State.updPart_mcbs (p : Nat) (f : Partition → Partition) : (s.updPart p f).mcbs = s.mcbs := rfl
@[simp] theorem State.updPart_cores (p : Nat) (f : Partition → Partition) : (s.updPart p f).cores = s.cores := rfl
@[simp] theorem State.updPart_bindings (p : Nat) (f : Partition → Partition) : (s.updPart p f).bindings = s.bindings := rfl
@[simp] theorem State.updPart_nextSerial (p : Nat) (f : Partition → Partition) : (s.updPart p f).nextSerial = s.nextSerial := rfl
@[simp] theorem State.updPart_islands (p : Nat) (f : Partition → Partition) : (s.updPart p f).islands = s.islands := rfl
@[simp] theorem State.updPart_granary (p : Nat) (f : Partition → Partition) : (s.updPart p f).granary = s.granary := rfl
@[simp] theorem State.updPart_sower (p : Nat) (f : Partition → Partition) : (s.updPart p f).sower = s.sower := rfl
@[simp] theorem State.updPart_sowerRegion (p : Nat) (f : Partition → Partition) : (s.updPart p f).sowerRegion = s.sowerRegion := rfl
@[simp] theorem State.updPart_sowerLog (p : Nat) (f : Partition → Partition) : (s.updPart p f).sowerLog = s.sowerLog := rfl
@[simp] theorem State.updPart_rotation (p : Nat) (f : Partition → Partition) : (s.updPart p f).rotation = s.rotation := rfl
@[simp] theorem State.updPart_nextAccept (p : Nat) (f : Partition → Partition) : (s.updPart p f).nextAccept = s.nextAccept := rfl
@[simp] theorem State.updPart_ports (p : Nat) (f : Partition → Partition) : (s.updPart p f).ports = s.ports := rfl
@[simp] theorem State.updPart_breakout (p : Nat) (f : Partition → Partition) : (s.updPart p f).breakout = s.breakout := rfl
@[simp] theorem State.updPart_ingress (p : Nat) (f : Partition → Partition) : (s.updPart p f).ingress = s.ingress := rfl
@[simp] theorem State.updPart_slots (p : Nat) (f : Partition → Partition) : (s.updPart p f).slots = s.slots := rfl
@[simp] theorem State.updPart_qps (p : Nat) (f : Partition → Partition) : (s.updPart p f).qps = s.qps := rfl
@[simp] theorem State.updPart_tx (p : Nat) (f : Partition → Partition) : (s.updPart p f).tx = s.tx := rfl
@[simp] theorem State.updPart_lanes (p : Nat) (f : Partition → Partition) : (s.updPart p f).lanes = s.lanes := rfl
@[simp] theorem State.updPart_jobs (p : Nat) (f : Partition → Partition) : (s.updPart p f).jobs = s.jobs := rfl
@[simp] theorem State.updPart_ifcs (p : Nat) (f : Partition → Partition) : (s.updPart p f).ifcs = s.ifcs := rfl
@[simp] theorem State.updPart_pfCompletions (p : Nat) (f : Partition → Partition) : (s.updPart p f).pfCompletions = s.pfCompletions := rfl
@[simp] theorem State.updPart_streams (p : Nat) (f : Partition → Partition) : (s.updPart p f).streams = s.streams := rfl
@[simp] theorem State.updPart_waiting (p : Nat) (f : Partition → Partition) : (s.updPart p f).waiting = s.waiting := rfl
@[simp] theorem State.updPart_hostDeny (p : Nat) (f : Partition → Partition) : (s.updPart p f).hostDeny = s.hostDeny := rfl
@[simp] theorem State.updPart_inbound (p : Nat) (f : Partition → Partition) : (s.updPart p f).inbound = s.inbound := rfl
@[simp] theorem State.updPart_mute (p : Nat) (f : Partition → Partition) : (s.updPart p f).mute = s.mute := rfl
@[simp] theorem State.updPart_pmem (p : Nat) (f : Partition → Partition) : (s.updPart p f).pmem = s.pmem := rfl
@[simp] theorem State.updPart_bells (p : Nat) (f : Partition → Partition) : (s.updPart p f).bells = s.bells := rfl
@[simp] theorem State.updPart_rdy (p : Nat) (f : Partition → Partition) : (s.updPart p f).rdy = s.rdy := rfl
@[simp] theorem State.updPart_mode (p : Nat) (f : Partition → Partition) : (s.updPart p f).mode = s.mode := rfl
@[simp] theorem State.updPart_hostWalks (p : Nat) (f : Partition → Partition) : (s.updPart p f).hostWalks = s.hostWalks := rfl
@[simp] theorem State.updPart_harts (p : Nat) (f : Partition → Partition) : (s.updPart p f).harts = s.harts := rfl
@[simp] theorem State.updPart_master (p : Nat) (f : Partition → Partition) : (s.updPart p f).master = s.master := rfl
@[simp] theorem State.updPart_lastBeacon (p : Nat) (f : Partition → Partition) : (s.updPart p f).lastBeacon = s.lastBeacon := rfl
@[simp] theorem State.updPart_nepolRefuses (p : Nat) (f : Partition → Partition) : (s.updPart p f).nepolRefuses = s.nepolRefuses := rfl
@[simp] theorem State.updPart_controllersRefuse (p : Nat) (f : Partition → Partition) : (s.updPart p f).controllersRefuse = s.controllersRefuse := rfl
@[simp] theorem State.updPart_portDev (p : Nat) (f : Partition → Partition) : (s.updPart p f).portDev = s.portDev := rfl
@[simp] theorem State.updPart_portFloor (p : Nat) (f : Partition → Partition) : (s.updPart p f).portFloor = s.portFloor := rfl
@[simp] theorem State.updPart_mctp (p : Nat) (f : Partition → Partition) : (s.updPart p f).mctp = s.mctp := rfl
@[simp] theorem State.updPart_power (p : Nat) (f : Partition → Partition) : (s.updPart p f).power = s.power := rfl
@[simp] theorem State.updPart_coolFor (p : Nat) (f : Partition → Partition) : (s.updPart p f).coolFor = s.coolFor := rfl
@[simp] theorem State.updPart_device (p : Nat) (f : Partition → Partition) : (s.updPart p f).device = s.device := rfl
@[simp] theorem State.updPart_exports (p : Nat) (f : Partition → Partition) : (s.updPart p f).exports = s.exports := rfl
@[simp] theorem State.updPart_windows (p : Nat) (f : Partition → Partition) : (s.updPart p f).windows = s.windows := rfl
@[simp] theorem State.updPart_performed (p : Nat) (f : Partition → Partition) : (s.updPart p f).performed = s.performed := rfl
@[simp] theorem State.updPart_nextContribution (p : Nat) (f : Partition → Partition) : (s.updPart p f).nextContribution = s.nextContribution := rfl
@[simp] theorem State.updPart_switch (p : Nat) (f : Partition → Partition) : (s.updPart p f).switch = s.switch := rfl
@[simp] theorem State.updPart_counts (p : Nat) (f : Partition → Partition) : (s.updPart p f).counts = s.counts := rfl
@[simp] theorem State.updPart_linksDown (p : Nat) (f : Partition → Partition) : (s.updPart p f).linksDown = s.linksDown := rfl

-- updIsland

@[simp] theorem State.updIsland_pt (i : Nat) (f : Island → Island) : (s.updIsland i f).pt = s.pt := rfl
@[simp] theorem State.updIsland_clock (i : Nat) (f : Island → Island) : (s.updIsland i f).clock = s.clock := rfl
@[simp] theorem State.updIsland_agenda (i : Nat) (f : Island → Island) : (s.updIsland i f).agenda = s.agenda := rfl
@[simp] theorem State.updIsland_rr (i : Nat) (f : Island → Island) : (s.updIsland i f).rr = s.rr := rfl
@[simp] theorem State.updIsland_turn (i : Nat) (f : Island → Island) : (s.updIsland i f).turn = s.turn := rfl
@[simp] theorem State.updIsland_hart (i : Nat) (f : Island → Island) : (s.updIsland i f).hart = s.hart := rfl
@[simp] theorem State.updIsland_free (i : Nat) (f : Island → Island) : (s.updIsland i f).free = s.free := rfl
@[simp] theorem State.updIsland_mem (i : Nat) (f : Island → Island) : (s.updIsland i f).mem = s.mem := rfl
@[simp] theorem State.updIsland_tags (i : Nat) (f : Island → Island) : (s.updIsland i f).tags = s.tags := rfl
@[simp] theorem State.updIsland_fe (i : Nat) (f : Island → Island) : (s.updIsland i f).fe = s.fe := rfl
@[simp] theorem State.updIsland_feMark (i : Nat) (f : Island → Island) : (s.updIsland i f).feMark = s.feMark := rfl
@[simp] theorem State.updIsland_stamps (i : Nat) (f : Island → Island) : (s.updIsland i f).stamps = s.stamps := rfl
@[simp] theorem State.updIsland_marks (i : Nat) (f : Island → Island) : (s.updIsland i f).marks = s.marks := rfl
@[simp] theorem State.updIsland_writes (i : Nat) (f : Island → Island) : (s.updIsland i f).writes = s.writes := rfl
@[simp] theorem State.updIsland_bars (i : Nat) (f : Island → Island) : (s.updIsland i f).bars = s.bars := rfl
@[simp] theorem State.updIsland_barsAt (i : Nat) (f : Island → Island) : (s.updIsland i f).barsAt = s.barsAt := rfl
@[simp] theorem State.updIsland_bad (i : Nat) (f : Island → Island) : (s.updIsland i f).bad = s.bad := rfl
@[simp] theorem State.updIsland_encPage (i : Nat) (f : Island → Island) : (s.updIsland i f).encPage = s.encPage := rfl
@[simp] theorem State.updIsland_enc (i : Nat) (f : Island → Island) : (s.updIsland i f).enc = s.enc := rfl
@[simp] theorem State.updIsland_dirtyAt (i : Nat) (f : Island → Island) : (s.updIsland i f).dirtyAt = s.dirtyAt := rfl
@[simp] theorem State.updIsland_dirtyOne (i : Nat) (f : Island → Island) : (s.updIsland i f).dirtyOne = s.dirtyOne := rfl
@[simp] theorem State.updIsland_dirtySwitch (i : Nat) (f : Island → Island) : (s.updIsland i f).dirtySwitch = s.dirtySwitch := rfl
@[simp] theorem State.updIsland_mcbs (i : Nat) (f : Island → Island) : (s.updIsland i f).mcbs = s.mcbs := rfl
@[simp] theorem State.updIsland_cores (i : Nat) (f : Island → Island) : (s.updIsland i f).cores = s.cores := rfl
@[simp] theorem State.updIsland_bindings (i : Nat) (f : Island → Island) : (s.updIsland i f).bindings = s.bindings := rfl
@[simp] theorem State.updIsland_nextSerial (i : Nat) (f : Island → Island) : (s.updIsland i f).nextSerial = s.nextSerial := rfl
@[simp] theorem State.updIsland_parts (i : Nat) (f : Island → Island) : (s.updIsland i f).parts = s.parts := rfl
@[simp] theorem State.updIsland_granary (i : Nat) (f : Island → Island) : (s.updIsland i f).granary = s.granary := rfl
@[simp] theorem State.updIsland_sower (i : Nat) (f : Island → Island) : (s.updIsland i f).sower = s.sower := rfl
@[simp] theorem State.updIsland_sowerRegion (i : Nat) (f : Island → Island) : (s.updIsland i f).sowerRegion = s.sowerRegion := rfl
@[simp] theorem State.updIsland_sowerLog (i : Nat) (f : Island → Island) : (s.updIsland i f).sowerLog = s.sowerLog := rfl
@[simp] theorem State.updIsland_rotation (i : Nat) (f : Island → Island) : (s.updIsland i f).rotation = s.rotation := rfl
@[simp] theorem State.updIsland_nextAccept (i : Nat) (f : Island → Island) : (s.updIsland i f).nextAccept = s.nextAccept := rfl
@[simp] theorem State.updIsland_ports (i : Nat) (f : Island → Island) : (s.updIsland i f).ports = s.ports := rfl
@[simp] theorem State.updIsland_breakout (i : Nat) (f : Island → Island) : (s.updIsland i f).breakout = s.breakout := rfl
@[simp] theorem State.updIsland_ingress (i : Nat) (f : Island → Island) : (s.updIsland i f).ingress = s.ingress := rfl
@[simp] theorem State.updIsland_slots (i : Nat) (f : Island → Island) : (s.updIsland i f).slots = s.slots := rfl
@[simp] theorem State.updIsland_qps (i : Nat) (f : Island → Island) : (s.updIsland i f).qps = s.qps := rfl
@[simp] theorem State.updIsland_tx (i : Nat) (f : Island → Island) : (s.updIsland i f).tx = s.tx := rfl
@[simp] theorem State.updIsland_lanes (i : Nat) (f : Island → Island) : (s.updIsland i f).lanes = s.lanes := rfl
@[simp] theorem State.updIsland_jobs (i : Nat) (f : Island → Island) : (s.updIsland i f).jobs = s.jobs := rfl
@[simp] theorem State.updIsland_ifcs (i : Nat) (f : Island → Island) : (s.updIsland i f).ifcs = s.ifcs := rfl
@[simp] theorem State.updIsland_pfCompletions (i : Nat) (f : Island → Island) : (s.updIsland i f).pfCompletions = s.pfCompletions := rfl
@[simp] theorem State.updIsland_streams (i : Nat) (f : Island → Island) : (s.updIsland i f).streams = s.streams := rfl
@[simp] theorem State.updIsland_waiting (i : Nat) (f : Island → Island) : (s.updIsland i f).waiting = s.waiting := rfl
@[simp] theorem State.updIsland_hostDeny (i : Nat) (f : Island → Island) : (s.updIsland i f).hostDeny = s.hostDeny := rfl
@[simp] theorem State.updIsland_inbound (i : Nat) (f : Island → Island) : (s.updIsland i f).inbound = s.inbound := rfl
@[simp] theorem State.updIsland_mute (i : Nat) (f : Island → Island) : (s.updIsland i f).mute = s.mute := rfl
@[simp] theorem State.updIsland_pmem (i : Nat) (f : Island → Island) : (s.updIsland i f).pmem = s.pmem := rfl
@[simp] theorem State.updIsland_bells (i : Nat) (f : Island → Island) : (s.updIsland i f).bells = s.bells := rfl
@[simp] theorem State.updIsland_rdy (i : Nat) (f : Island → Island) : (s.updIsland i f).rdy = s.rdy := rfl
@[simp] theorem State.updIsland_mode (i : Nat) (f : Island → Island) : (s.updIsland i f).mode = s.mode := rfl
@[simp] theorem State.updIsland_hostWalks (i : Nat) (f : Island → Island) : (s.updIsland i f).hostWalks = s.hostWalks := rfl
@[simp] theorem State.updIsland_harts (i : Nat) (f : Island → Island) : (s.updIsland i f).harts = s.harts := rfl
@[simp] theorem State.updIsland_master (i : Nat) (f : Island → Island) : (s.updIsland i f).master = s.master := rfl
@[simp] theorem State.updIsland_lastBeacon (i : Nat) (f : Island → Island) : (s.updIsland i f).lastBeacon = s.lastBeacon := rfl
@[simp] theorem State.updIsland_nepolRefuses (i : Nat) (f : Island → Island) : (s.updIsland i f).nepolRefuses = s.nepolRefuses := rfl
@[simp] theorem State.updIsland_controllersRefuse (i : Nat) (f : Island → Island) : (s.updIsland i f).controllersRefuse = s.controllersRefuse := rfl
@[simp] theorem State.updIsland_portDev (i : Nat) (f : Island → Island) : (s.updIsland i f).portDev = s.portDev := rfl
@[simp] theorem State.updIsland_portFloor (i : Nat) (f : Island → Island) : (s.updIsland i f).portFloor = s.portFloor := rfl
@[simp] theorem State.updIsland_mctp (i : Nat) (f : Island → Island) : (s.updIsland i f).mctp = s.mctp := rfl
@[simp] theorem State.updIsland_power (i : Nat) (f : Island → Island) : (s.updIsland i f).power = s.power := rfl
@[simp] theorem State.updIsland_coolFor (i : Nat) (f : Island → Island) : (s.updIsland i f).coolFor = s.coolFor := rfl
@[simp] theorem State.updIsland_device (i : Nat) (f : Island → Island) : (s.updIsland i f).device = s.device := rfl
@[simp] theorem State.updIsland_exports (i : Nat) (f : Island → Island) : (s.updIsland i f).exports = s.exports := rfl
@[simp] theorem State.updIsland_windows (i : Nat) (f : Island → Island) : (s.updIsland i f).windows = s.windows := rfl
@[simp] theorem State.updIsland_performed (i : Nat) (f : Island → Island) : (s.updIsland i f).performed = s.performed := rfl
@[simp] theorem State.updIsland_nextContribution (i : Nat) (f : Island → Island) : (s.updIsland i f).nextContribution = s.nextContribution := rfl
@[simp] theorem State.updIsland_switch (i : Nat) (f : Island → Island) : (s.updIsland i f).switch = s.switch := rfl
@[simp] theorem State.updIsland_counts (i : Nat) (f : Island → Island) : (s.updIsland i f).counts = s.counts := rfl
@[simp] theorem State.updIsland_linksDown (i : Nat) (f : Island → Island) : (s.updIsland i f).linksDown = s.linksDown := rfl

-- updPort

@[simp] theorem State.updPort_pt (p : Nat) (f : Port → Port) : (s.updPort p f).pt = s.pt := rfl
@[simp] theorem State.updPort_clock (p : Nat) (f : Port → Port) : (s.updPort p f).clock = s.clock := rfl
@[simp] theorem State.updPort_agenda (p : Nat) (f : Port → Port) : (s.updPort p f).agenda = s.agenda := rfl
@[simp] theorem State.updPort_rr (p : Nat) (f : Port → Port) : (s.updPort p f).rr = s.rr := rfl
@[simp] theorem State.updPort_turn (p : Nat) (f : Port → Port) : (s.updPort p f).turn = s.turn := rfl
@[simp] theorem State.updPort_hart (p : Nat) (f : Port → Port) : (s.updPort p f).hart = s.hart := rfl
@[simp] theorem State.updPort_free (p : Nat) (f : Port → Port) : (s.updPort p f).free = s.free := rfl
@[simp] theorem State.updPort_mem (p : Nat) (f : Port → Port) : (s.updPort p f).mem = s.mem := rfl
@[simp] theorem State.updPort_tags (p : Nat) (f : Port → Port) : (s.updPort p f).tags = s.tags := rfl
@[simp] theorem State.updPort_fe (p : Nat) (f : Port → Port) : (s.updPort p f).fe = s.fe := rfl
@[simp] theorem State.updPort_feMark (p : Nat) (f : Port → Port) : (s.updPort p f).feMark = s.feMark := rfl
@[simp] theorem State.updPort_stamps (p : Nat) (f : Port → Port) : (s.updPort p f).stamps = s.stamps := rfl
@[simp] theorem State.updPort_marks (p : Nat) (f : Port → Port) : (s.updPort p f).marks = s.marks := rfl
@[simp] theorem State.updPort_writes (p : Nat) (f : Port → Port) : (s.updPort p f).writes = s.writes := rfl
@[simp] theorem State.updPort_bars (p : Nat) (f : Port → Port) : (s.updPort p f).bars = s.bars := rfl
@[simp] theorem State.updPort_barsAt (p : Nat) (f : Port → Port) : (s.updPort p f).barsAt = s.barsAt := rfl
@[simp] theorem State.updPort_bad (p : Nat) (f : Port → Port) : (s.updPort p f).bad = s.bad := rfl
@[simp] theorem State.updPort_encPage (p : Nat) (f : Port → Port) : (s.updPort p f).encPage = s.encPage := rfl
@[simp] theorem State.updPort_enc (p : Nat) (f : Port → Port) : (s.updPort p f).enc = s.enc := rfl
@[simp] theorem State.updPort_dirtyAt (p : Nat) (f : Port → Port) : (s.updPort p f).dirtyAt = s.dirtyAt := rfl
@[simp] theorem State.updPort_dirtyOne (p : Nat) (f : Port → Port) : (s.updPort p f).dirtyOne = s.dirtyOne := rfl
@[simp] theorem State.updPort_dirtySwitch (p : Nat) (f : Port → Port) : (s.updPort p f).dirtySwitch = s.dirtySwitch := rfl
@[simp] theorem State.updPort_mcbs (p : Nat) (f : Port → Port) : (s.updPort p f).mcbs = s.mcbs := rfl
@[simp] theorem State.updPort_cores (p : Nat) (f : Port → Port) : (s.updPort p f).cores = s.cores := rfl
@[simp] theorem State.updPort_bindings (p : Nat) (f : Port → Port) : (s.updPort p f).bindings = s.bindings := rfl
@[simp] theorem State.updPort_nextSerial (p : Nat) (f : Port → Port) : (s.updPort p f).nextSerial = s.nextSerial := rfl
@[simp] theorem State.updPort_islands (p : Nat) (f : Port → Port) : (s.updPort p f).islands = s.islands := rfl
@[simp] theorem State.updPort_parts (p : Nat) (f : Port → Port) : (s.updPort p f).parts = s.parts := rfl
@[simp] theorem State.updPort_granary (p : Nat) (f : Port → Port) : (s.updPort p f).granary = s.granary := rfl
@[simp] theorem State.updPort_sower (p : Nat) (f : Port → Port) : (s.updPort p f).sower = s.sower := rfl
@[simp] theorem State.updPort_sowerRegion (p : Nat) (f : Port → Port) : (s.updPort p f).sowerRegion = s.sowerRegion := rfl
@[simp] theorem State.updPort_sowerLog (p : Nat) (f : Port → Port) : (s.updPort p f).sowerLog = s.sowerLog := rfl
@[simp] theorem State.updPort_rotation (p : Nat) (f : Port → Port) : (s.updPort p f).rotation = s.rotation := rfl
@[simp] theorem State.updPort_nextAccept (p : Nat) (f : Port → Port) : (s.updPort p f).nextAccept = s.nextAccept := rfl
@[simp] theorem State.updPort_breakout (p : Nat) (f : Port → Port) : (s.updPort p f).breakout = s.breakout := rfl
@[simp] theorem State.updPort_ingress (p : Nat) (f : Port → Port) : (s.updPort p f).ingress = s.ingress := rfl
@[simp] theorem State.updPort_slots (p : Nat) (f : Port → Port) : (s.updPort p f).slots = s.slots := rfl
@[simp] theorem State.updPort_qps (p : Nat) (f : Port → Port) : (s.updPort p f).qps = s.qps := rfl
@[simp] theorem State.updPort_tx (p : Nat) (f : Port → Port) : (s.updPort p f).tx = s.tx := rfl
@[simp] theorem State.updPort_lanes (p : Nat) (f : Port → Port) : (s.updPort p f).lanes = s.lanes := rfl
@[simp] theorem State.updPort_jobs (p : Nat) (f : Port → Port) : (s.updPort p f).jobs = s.jobs := rfl
@[simp] theorem State.updPort_ifcs (p : Nat) (f : Port → Port) : (s.updPort p f).ifcs = s.ifcs := rfl
@[simp] theorem State.updPort_pfCompletions (p : Nat) (f : Port → Port) : (s.updPort p f).pfCompletions = s.pfCompletions := rfl
@[simp] theorem State.updPort_streams (p : Nat) (f : Port → Port) : (s.updPort p f).streams = s.streams := rfl
@[simp] theorem State.updPort_waiting (p : Nat) (f : Port → Port) : (s.updPort p f).waiting = s.waiting := rfl
@[simp] theorem State.updPort_hostDeny (p : Nat) (f : Port → Port) : (s.updPort p f).hostDeny = s.hostDeny := rfl
@[simp] theorem State.updPort_inbound (p : Nat) (f : Port → Port) : (s.updPort p f).inbound = s.inbound := rfl
@[simp] theorem State.updPort_mute (p : Nat) (f : Port → Port) : (s.updPort p f).mute = s.mute := rfl
@[simp] theorem State.updPort_pmem (p : Nat) (f : Port → Port) : (s.updPort p f).pmem = s.pmem := rfl
@[simp] theorem State.updPort_bells (p : Nat) (f : Port → Port) : (s.updPort p f).bells = s.bells := rfl
@[simp] theorem State.updPort_rdy (p : Nat) (f : Port → Port) : (s.updPort p f).rdy = s.rdy := rfl
@[simp] theorem State.updPort_mode (p : Nat) (f : Port → Port) : (s.updPort p f).mode = s.mode := rfl
@[simp] theorem State.updPort_hostWalks (p : Nat) (f : Port → Port) : (s.updPort p f).hostWalks = s.hostWalks := rfl
@[simp] theorem State.updPort_harts (p : Nat) (f : Port → Port) : (s.updPort p f).harts = s.harts := rfl
@[simp] theorem State.updPort_master (p : Nat) (f : Port → Port) : (s.updPort p f).master = s.master := rfl
@[simp] theorem State.updPort_lastBeacon (p : Nat) (f : Port → Port) : (s.updPort p f).lastBeacon = s.lastBeacon := rfl
@[simp] theorem State.updPort_nepolRefuses (p : Nat) (f : Port → Port) : (s.updPort p f).nepolRefuses = s.nepolRefuses := rfl
@[simp] theorem State.updPort_controllersRefuse (p : Nat) (f : Port → Port) : (s.updPort p f).controllersRefuse = s.controllersRefuse := rfl
@[simp] theorem State.updPort_portDev (p : Nat) (f : Port → Port) : (s.updPort p f).portDev = s.portDev := rfl
@[simp] theorem State.updPort_portFloor (p : Nat) (f : Port → Port) : (s.updPort p f).portFloor = s.portFloor := rfl
@[simp] theorem State.updPort_mctp (p : Nat) (f : Port → Port) : (s.updPort p f).mctp = s.mctp := rfl
@[simp] theorem State.updPort_power (p : Nat) (f : Port → Port) : (s.updPort p f).power = s.power := rfl
@[simp] theorem State.updPort_coolFor (p : Nat) (f : Port → Port) : (s.updPort p f).coolFor = s.coolFor := rfl
@[simp] theorem State.updPort_device (p : Nat) (f : Port → Port) : (s.updPort p f).device = s.device := rfl
@[simp] theorem State.updPort_exports (p : Nat) (f : Port → Port) : (s.updPort p f).exports = s.exports := rfl
@[simp] theorem State.updPort_windows (p : Nat) (f : Port → Port) : (s.updPort p f).windows = s.windows := rfl
@[simp] theorem State.updPort_performed (p : Nat) (f : Port → Port) : (s.updPort p f).performed = s.performed := rfl
@[simp] theorem State.updPort_nextContribution (p : Nat) (f : Port → Port) : (s.updPort p f).nextContribution = s.nextContribution := rfl
@[simp] theorem State.updPort_switch (p : Nat) (f : Port → Port) : (s.updPort p f).switch = s.switch := rfl
@[simp] theorem State.updPort_counts (p : Nat) (f : Port → Port) : (s.updPort p f).counts = s.counts := rfl
@[simp] theorem State.updPort_linksDown (p : Nat) (f : Port → Port) : (s.updPort p f).linksDown = s.linksDown := rfl

-- updIfc

@[simp] theorem State.updIfc_pt (i : Nat) (f : Ifc → Ifc) : (s.updIfc i f).pt = s.pt := rfl
@[simp] theorem State.updIfc_clock (i : Nat) (f : Ifc → Ifc) : (s.updIfc i f).clock = s.clock := rfl
@[simp] theorem State.updIfc_agenda (i : Nat) (f : Ifc → Ifc) : (s.updIfc i f).agenda = s.agenda := rfl
@[simp] theorem State.updIfc_rr (i : Nat) (f : Ifc → Ifc) : (s.updIfc i f).rr = s.rr := rfl
@[simp] theorem State.updIfc_turn (i : Nat) (f : Ifc → Ifc) : (s.updIfc i f).turn = s.turn := rfl
@[simp] theorem State.updIfc_hart (i : Nat) (f : Ifc → Ifc) : (s.updIfc i f).hart = s.hart := rfl
@[simp] theorem State.updIfc_free (i : Nat) (f : Ifc → Ifc) : (s.updIfc i f).free = s.free := rfl
@[simp] theorem State.updIfc_mem (i : Nat) (f : Ifc → Ifc) : (s.updIfc i f).mem = s.mem := rfl
@[simp] theorem State.updIfc_tags (i : Nat) (f : Ifc → Ifc) : (s.updIfc i f).tags = s.tags := rfl
@[simp] theorem State.updIfc_fe (i : Nat) (f : Ifc → Ifc) : (s.updIfc i f).fe = s.fe := rfl
@[simp] theorem State.updIfc_feMark (i : Nat) (f : Ifc → Ifc) : (s.updIfc i f).feMark = s.feMark := rfl
@[simp] theorem State.updIfc_stamps (i : Nat) (f : Ifc → Ifc) : (s.updIfc i f).stamps = s.stamps := rfl
@[simp] theorem State.updIfc_marks (i : Nat) (f : Ifc → Ifc) : (s.updIfc i f).marks = s.marks := rfl
@[simp] theorem State.updIfc_writes (i : Nat) (f : Ifc → Ifc) : (s.updIfc i f).writes = s.writes := rfl
@[simp] theorem State.updIfc_bars (i : Nat) (f : Ifc → Ifc) : (s.updIfc i f).bars = s.bars := rfl
@[simp] theorem State.updIfc_barsAt (i : Nat) (f : Ifc → Ifc) : (s.updIfc i f).barsAt = s.barsAt := rfl
@[simp] theorem State.updIfc_bad (i : Nat) (f : Ifc → Ifc) : (s.updIfc i f).bad = s.bad := rfl
@[simp] theorem State.updIfc_encPage (i : Nat) (f : Ifc → Ifc) : (s.updIfc i f).encPage = s.encPage := rfl
@[simp] theorem State.updIfc_enc (i : Nat) (f : Ifc → Ifc) : (s.updIfc i f).enc = s.enc := rfl
@[simp] theorem State.updIfc_dirtyAt (i : Nat) (f : Ifc → Ifc) : (s.updIfc i f).dirtyAt = s.dirtyAt := rfl
@[simp] theorem State.updIfc_dirtyOne (i : Nat) (f : Ifc → Ifc) : (s.updIfc i f).dirtyOne = s.dirtyOne := rfl
@[simp] theorem State.updIfc_dirtySwitch (i : Nat) (f : Ifc → Ifc) : (s.updIfc i f).dirtySwitch = s.dirtySwitch := rfl
@[simp] theorem State.updIfc_mcbs (i : Nat) (f : Ifc → Ifc) : (s.updIfc i f).mcbs = s.mcbs := rfl
@[simp] theorem State.updIfc_cores (i : Nat) (f : Ifc → Ifc) : (s.updIfc i f).cores = s.cores := rfl
@[simp] theorem State.updIfc_bindings (i : Nat) (f : Ifc → Ifc) : (s.updIfc i f).bindings = s.bindings := rfl
@[simp] theorem State.updIfc_nextSerial (i : Nat) (f : Ifc → Ifc) : (s.updIfc i f).nextSerial = s.nextSerial := rfl
@[simp] theorem State.updIfc_islands (i : Nat) (f : Ifc → Ifc) : (s.updIfc i f).islands = s.islands := rfl
@[simp] theorem State.updIfc_parts (i : Nat) (f : Ifc → Ifc) : (s.updIfc i f).parts = s.parts := rfl
@[simp] theorem State.updIfc_granary (i : Nat) (f : Ifc → Ifc) : (s.updIfc i f).granary = s.granary := rfl
@[simp] theorem State.updIfc_sower (i : Nat) (f : Ifc → Ifc) : (s.updIfc i f).sower = s.sower := rfl
@[simp] theorem State.updIfc_sowerRegion (i : Nat) (f : Ifc → Ifc) : (s.updIfc i f).sowerRegion = s.sowerRegion := rfl
@[simp] theorem State.updIfc_sowerLog (i : Nat) (f : Ifc → Ifc) : (s.updIfc i f).sowerLog = s.sowerLog := rfl
@[simp] theorem State.updIfc_rotation (i : Nat) (f : Ifc → Ifc) : (s.updIfc i f).rotation = s.rotation := rfl
@[simp] theorem State.updIfc_nextAccept (i : Nat) (f : Ifc → Ifc) : (s.updIfc i f).nextAccept = s.nextAccept := rfl
@[simp] theorem State.updIfc_ports (i : Nat) (f : Ifc → Ifc) : (s.updIfc i f).ports = s.ports := rfl
@[simp] theorem State.updIfc_breakout (i : Nat) (f : Ifc → Ifc) : (s.updIfc i f).breakout = s.breakout := rfl
@[simp] theorem State.updIfc_ingress (i : Nat) (f : Ifc → Ifc) : (s.updIfc i f).ingress = s.ingress := rfl
@[simp] theorem State.updIfc_slots (i : Nat) (f : Ifc → Ifc) : (s.updIfc i f).slots = s.slots := rfl
@[simp] theorem State.updIfc_qps (i : Nat) (f : Ifc → Ifc) : (s.updIfc i f).qps = s.qps := rfl
@[simp] theorem State.updIfc_tx (i : Nat) (f : Ifc → Ifc) : (s.updIfc i f).tx = s.tx := rfl
@[simp] theorem State.updIfc_lanes (i : Nat) (f : Ifc → Ifc) : (s.updIfc i f).lanes = s.lanes := rfl
@[simp] theorem State.updIfc_jobs (i : Nat) (f : Ifc → Ifc) : (s.updIfc i f).jobs = s.jobs := rfl
@[simp] theorem State.updIfc_pfCompletions (i : Nat) (f : Ifc → Ifc) : (s.updIfc i f).pfCompletions = s.pfCompletions := rfl
@[simp] theorem State.updIfc_streams (i : Nat) (f : Ifc → Ifc) : (s.updIfc i f).streams = s.streams := rfl
@[simp] theorem State.updIfc_waiting (i : Nat) (f : Ifc → Ifc) : (s.updIfc i f).waiting = s.waiting := rfl
@[simp] theorem State.updIfc_hostDeny (i : Nat) (f : Ifc → Ifc) : (s.updIfc i f).hostDeny = s.hostDeny := rfl
@[simp] theorem State.updIfc_inbound (i : Nat) (f : Ifc → Ifc) : (s.updIfc i f).inbound = s.inbound := rfl
@[simp] theorem State.updIfc_mute (i : Nat) (f : Ifc → Ifc) : (s.updIfc i f).mute = s.mute := rfl
@[simp] theorem State.updIfc_pmem (i : Nat) (f : Ifc → Ifc) : (s.updIfc i f).pmem = s.pmem := rfl
@[simp] theorem State.updIfc_bells (i : Nat) (f : Ifc → Ifc) : (s.updIfc i f).bells = s.bells := rfl
@[simp] theorem State.updIfc_rdy (i : Nat) (f : Ifc → Ifc) : (s.updIfc i f).rdy = s.rdy := rfl
@[simp] theorem State.updIfc_mode (i : Nat) (f : Ifc → Ifc) : (s.updIfc i f).mode = s.mode := rfl
@[simp] theorem State.updIfc_hostWalks (i : Nat) (f : Ifc → Ifc) : (s.updIfc i f).hostWalks = s.hostWalks := rfl
@[simp] theorem State.updIfc_harts (i : Nat) (f : Ifc → Ifc) : (s.updIfc i f).harts = s.harts := rfl
@[simp] theorem State.updIfc_master (i : Nat) (f : Ifc → Ifc) : (s.updIfc i f).master = s.master := rfl
@[simp] theorem State.updIfc_lastBeacon (i : Nat) (f : Ifc → Ifc) : (s.updIfc i f).lastBeacon = s.lastBeacon := rfl
@[simp] theorem State.updIfc_nepolRefuses (i : Nat) (f : Ifc → Ifc) : (s.updIfc i f).nepolRefuses = s.nepolRefuses := rfl
@[simp] theorem State.updIfc_controllersRefuse (i : Nat) (f : Ifc → Ifc) : (s.updIfc i f).controllersRefuse = s.controllersRefuse := rfl
@[simp] theorem State.updIfc_portDev (i : Nat) (f : Ifc → Ifc) : (s.updIfc i f).portDev = s.portDev := rfl
@[simp] theorem State.updIfc_portFloor (i : Nat) (f : Ifc → Ifc) : (s.updIfc i f).portFloor = s.portFloor := rfl
@[simp] theorem State.updIfc_mctp (i : Nat) (f : Ifc → Ifc) : (s.updIfc i f).mctp = s.mctp := rfl
@[simp] theorem State.updIfc_power (i : Nat) (f : Ifc → Ifc) : (s.updIfc i f).power = s.power := rfl
@[simp] theorem State.updIfc_coolFor (i : Nat) (f : Ifc → Ifc) : (s.updIfc i f).coolFor = s.coolFor := rfl
@[simp] theorem State.updIfc_device (i : Nat) (f : Ifc → Ifc) : (s.updIfc i f).device = s.device := rfl
@[simp] theorem State.updIfc_exports (i : Nat) (f : Ifc → Ifc) : (s.updIfc i f).exports = s.exports := rfl
@[simp] theorem State.updIfc_windows (i : Nat) (f : Ifc → Ifc) : (s.updIfc i f).windows = s.windows := rfl
@[simp] theorem State.updIfc_performed (i : Nat) (f : Ifc → Ifc) : (s.updIfc i f).performed = s.performed := rfl
@[simp] theorem State.updIfc_nextContribution (i : Nat) (f : Ifc → Ifc) : (s.updIfc i f).nextContribution = s.nextContribution := rfl
@[simp] theorem State.updIfc_switch (i : Nat) (f : Ifc → Ifc) : (s.updIfc i f).switch = s.switch := rfl
@[simp] theorem State.updIfc_counts (i : Nat) (f : Ifc → Ifc) : (s.updIfc i f).counts = s.counts := rfl
@[simp] theorem State.updIfc_linksDown (i : Nat) (f : Ifc → Ifc) : (s.updIfc i f).linksDown = s.linksDown := rfl

-- updLane

@[simp] theorem State.updLane_pt (l : Nat) (f : Lane → Lane) : (s.updLane l f).pt = s.pt := rfl
@[simp] theorem State.updLane_clock (l : Nat) (f : Lane → Lane) : (s.updLane l f).clock = s.clock := rfl
@[simp] theorem State.updLane_agenda (l : Nat) (f : Lane → Lane) : (s.updLane l f).agenda = s.agenda := rfl
@[simp] theorem State.updLane_rr (l : Nat) (f : Lane → Lane) : (s.updLane l f).rr = s.rr := rfl
@[simp] theorem State.updLane_turn (l : Nat) (f : Lane → Lane) : (s.updLane l f).turn = s.turn := rfl
@[simp] theorem State.updLane_hart (l : Nat) (f : Lane → Lane) : (s.updLane l f).hart = s.hart := rfl
@[simp] theorem State.updLane_free (l : Nat) (f : Lane → Lane) : (s.updLane l f).free = s.free := rfl
@[simp] theorem State.updLane_mem (l : Nat) (f : Lane → Lane) : (s.updLane l f).mem = s.mem := rfl
@[simp] theorem State.updLane_tags (l : Nat) (f : Lane → Lane) : (s.updLane l f).tags = s.tags := rfl
@[simp] theorem State.updLane_fe (l : Nat) (f : Lane → Lane) : (s.updLane l f).fe = s.fe := rfl
@[simp] theorem State.updLane_feMark (l : Nat) (f : Lane → Lane) : (s.updLane l f).feMark = s.feMark := rfl
@[simp] theorem State.updLane_stamps (l : Nat) (f : Lane → Lane) : (s.updLane l f).stamps = s.stamps := rfl
@[simp] theorem State.updLane_marks (l : Nat) (f : Lane → Lane) : (s.updLane l f).marks = s.marks := rfl
@[simp] theorem State.updLane_writes (l : Nat) (f : Lane → Lane) : (s.updLane l f).writes = s.writes := rfl
@[simp] theorem State.updLane_bars (l : Nat) (f : Lane → Lane) : (s.updLane l f).bars = s.bars := rfl
@[simp] theorem State.updLane_barsAt (l : Nat) (f : Lane → Lane) : (s.updLane l f).barsAt = s.barsAt := rfl
@[simp] theorem State.updLane_bad (l : Nat) (f : Lane → Lane) : (s.updLane l f).bad = s.bad := rfl
@[simp] theorem State.updLane_encPage (l : Nat) (f : Lane → Lane) : (s.updLane l f).encPage = s.encPage := rfl
@[simp] theorem State.updLane_enc (l : Nat) (f : Lane → Lane) : (s.updLane l f).enc = s.enc := rfl
@[simp] theorem State.updLane_dirtyAt (l : Nat) (f : Lane → Lane) : (s.updLane l f).dirtyAt = s.dirtyAt := rfl
@[simp] theorem State.updLane_dirtyOne (l : Nat) (f : Lane → Lane) : (s.updLane l f).dirtyOne = s.dirtyOne := rfl
@[simp] theorem State.updLane_dirtySwitch (l : Nat) (f : Lane → Lane) : (s.updLane l f).dirtySwitch = s.dirtySwitch := rfl
@[simp] theorem State.updLane_mcbs (l : Nat) (f : Lane → Lane) : (s.updLane l f).mcbs = s.mcbs := rfl
@[simp] theorem State.updLane_cores (l : Nat) (f : Lane → Lane) : (s.updLane l f).cores = s.cores := rfl
@[simp] theorem State.updLane_bindings (l : Nat) (f : Lane → Lane) : (s.updLane l f).bindings = s.bindings := rfl
@[simp] theorem State.updLane_nextSerial (l : Nat) (f : Lane → Lane) : (s.updLane l f).nextSerial = s.nextSerial := rfl
@[simp] theorem State.updLane_islands (l : Nat) (f : Lane → Lane) : (s.updLane l f).islands = s.islands := rfl
@[simp] theorem State.updLane_parts (l : Nat) (f : Lane → Lane) : (s.updLane l f).parts = s.parts := rfl
@[simp] theorem State.updLane_granary (l : Nat) (f : Lane → Lane) : (s.updLane l f).granary = s.granary := rfl
@[simp] theorem State.updLane_sower (l : Nat) (f : Lane → Lane) : (s.updLane l f).sower = s.sower := rfl
@[simp] theorem State.updLane_sowerRegion (l : Nat) (f : Lane → Lane) : (s.updLane l f).sowerRegion = s.sowerRegion := rfl
@[simp] theorem State.updLane_sowerLog (l : Nat) (f : Lane → Lane) : (s.updLane l f).sowerLog = s.sowerLog := rfl
@[simp] theorem State.updLane_rotation (l : Nat) (f : Lane → Lane) : (s.updLane l f).rotation = s.rotation := rfl
@[simp] theorem State.updLane_nextAccept (l : Nat) (f : Lane → Lane) : (s.updLane l f).nextAccept = s.nextAccept := rfl
@[simp] theorem State.updLane_ports (l : Nat) (f : Lane → Lane) : (s.updLane l f).ports = s.ports := rfl
@[simp] theorem State.updLane_breakout (l : Nat) (f : Lane → Lane) : (s.updLane l f).breakout = s.breakout := rfl
@[simp] theorem State.updLane_ingress (l : Nat) (f : Lane → Lane) : (s.updLane l f).ingress = s.ingress := rfl
@[simp] theorem State.updLane_slots (l : Nat) (f : Lane → Lane) : (s.updLane l f).slots = s.slots := rfl
@[simp] theorem State.updLane_qps (l : Nat) (f : Lane → Lane) : (s.updLane l f).qps = s.qps := rfl
@[simp] theorem State.updLane_tx (l : Nat) (f : Lane → Lane) : (s.updLane l f).tx = s.tx := rfl
@[simp] theorem State.updLane_jobs (l : Nat) (f : Lane → Lane) : (s.updLane l f).jobs = s.jobs := rfl
@[simp] theorem State.updLane_ifcs (l : Nat) (f : Lane → Lane) : (s.updLane l f).ifcs = s.ifcs := rfl
@[simp] theorem State.updLane_pfCompletions (l : Nat) (f : Lane → Lane) : (s.updLane l f).pfCompletions = s.pfCompletions := rfl
@[simp] theorem State.updLane_streams (l : Nat) (f : Lane → Lane) : (s.updLane l f).streams = s.streams := rfl
@[simp] theorem State.updLane_waiting (l : Nat) (f : Lane → Lane) : (s.updLane l f).waiting = s.waiting := rfl
@[simp] theorem State.updLane_hostDeny (l : Nat) (f : Lane → Lane) : (s.updLane l f).hostDeny = s.hostDeny := rfl
@[simp] theorem State.updLane_inbound (l : Nat) (f : Lane → Lane) : (s.updLane l f).inbound = s.inbound := rfl
@[simp] theorem State.updLane_mute (l : Nat) (f : Lane → Lane) : (s.updLane l f).mute = s.mute := rfl
@[simp] theorem State.updLane_pmem (l : Nat) (f : Lane → Lane) : (s.updLane l f).pmem = s.pmem := rfl
@[simp] theorem State.updLane_bells (l : Nat) (f : Lane → Lane) : (s.updLane l f).bells = s.bells := rfl
@[simp] theorem State.updLane_rdy (l : Nat) (f : Lane → Lane) : (s.updLane l f).rdy = s.rdy := rfl
@[simp] theorem State.updLane_mode (l : Nat) (f : Lane → Lane) : (s.updLane l f).mode = s.mode := rfl
@[simp] theorem State.updLane_hostWalks (l : Nat) (f : Lane → Lane) : (s.updLane l f).hostWalks = s.hostWalks := rfl
@[simp] theorem State.updLane_harts (l : Nat) (f : Lane → Lane) : (s.updLane l f).harts = s.harts := rfl
@[simp] theorem State.updLane_master (l : Nat) (f : Lane → Lane) : (s.updLane l f).master = s.master := rfl
@[simp] theorem State.updLane_lastBeacon (l : Nat) (f : Lane → Lane) : (s.updLane l f).lastBeacon = s.lastBeacon := rfl
@[simp] theorem State.updLane_nepolRefuses (l : Nat) (f : Lane → Lane) : (s.updLane l f).nepolRefuses = s.nepolRefuses := rfl
@[simp] theorem State.updLane_controllersRefuse (l : Nat) (f : Lane → Lane) : (s.updLane l f).controllersRefuse = s.controllersRefuse := rfl
@[simp] theorem State.updLane_portDev (l : Nat) (f : Lane → Lane) : (s.updLane l f).portDev = s.portDev := rfl
@[simp] theorem State.updLane_portFloor (l : Nat) (f : Lane → Lane) : (s.updLane l f).portFloor = s.portFloor := rfl
@[simp] theorem State.updLane_mctp (l : Nat) (f : Lane → Lane) : (s.updLane l f).mctp = s.mctp := rfl
@[simp] theorem State.updLane_power (l : Nat) (f : Lane → Lane) : (s.updLane l f).power = s.power := rfl
@[simp] theorem State.updLane_coolFor (l : Nat) (f : Lane → Lane) : (s.updLane l f).coolFor = s.coolFor := rfl
@[simp] theorem State.updLane_device (l : Nat) (f : Lane → Lane) : (s.updLane l f).device = s.device := rfl
@[simp] theorem State.updLane_exports (l : Nat) (f : Lane → Lane) : (s.updLane l f).exports = s.exports := rfl
@[simp] theorem State.updLane_windows (l : Nat) (f : Lane → Lane) : (s.updLane l f).windows = s.windows := rfl
@[simp] theorem State.updLane_performed (l : Nat) (f : Lane → Lane) : (s.updLane l f).performed = s.performed := rfl
@[simp] theorem State.updLane_nextContribution (l : Nat) (f : Lane → Lane) : (s.updLane l f).nextContribution = s.nextContribution := rfl
@[simp] theorem State.updLane_switch (l : Nat) (f : Lane → Lane) : (s.updLane l f).switch = s.switch := rfl
@[simp] theorem State.updLane_counts (l : Nat) (f : Lane → Lane) : (s.updLane l f).counts = s.counts := rfl
@[simp] theorem State.updLane_linksDown (l : Nat) (f : Lane → Lane) : (s.updLane l f).linksDown = s.linksDown := rfl

-- updHart

@[simp] theorem State.updHart_pt (h : Nat) (f : Hart → Hart) : (s.updHart h f).pt = s.pt := rfl
@[simp] theorem State.updHart_clock (h : Nat) (f : Hart → Hart) : (s.updHart h f).clock = s.clock := rfl
@[simp] theorem State.updHart_agenda (h : Nat) (f : Hart → Hart) : (s.updHart h f).agenda = s.agenda := rfl
@[simp] theorem State.updHart_rr (h : Nat) (f : Hart → Hart) : (s.updHart h f).rr = s.rr := rfl
@[simp] theorem State.updHart_turn (h : Nat) (f : Hart → Hart) : (s.updHart h f).turn = s.turn := rfl
@[simp] theorem State.updHart_hart (h : Nat) (f : Hart → Hart) : (s.updHart h f).hart = s.hart := rfl
@[simp] theorem State.updHart_free (h : Nat) (f : Hart → Hart) : (s.updHart h f).free = s.free := rfl
@[simp] theorem State.updHart_mem (h : Nat) (f : Hart → Hart) : (s.updHart h f).mem = s.mem := rfl
@[simp] theorem State.updHart_tags (h : Nat) (f : Hart → Hart) : (s.updHart h f).tags = s.tags := rfl
@[simp] theorem State.updHart_fe (h : Nat) (f : Hart → Hart) : (s.updHart h f).fe = s.fe := rfl
@[simp] theorem State.updHart_feMark (h : Nat) (f : Hart → Hart) : (s.updHart h f).feMark = s.feMark := rfl
@[simp] theorem State.updHart_stamps (h : Nat) (f : Hart → Hart) : (s.updHart h f).stamps = s.stamps := rfl
@[simp] theorem State.updHart_marks (h : Nat) (f : Hart → Hart) : (s.updHart h f).marks = s.marks := rfl
@[simp] theorem State.updHart_writes (h : Nat) (f : Hart → Hart) : (s.updHart h f).writes = s.writes := rfl
@[simp] theorem State.updHart_bars (h : Nat) (f : Hart → Hart) : (s.updHart h f).bars = s.bars := rfl
@[simp] theorem State.updHart_barsAt (h : Nat) (f : Hart → Hart) : (s.updHart h f).barsAt = s.barsAt := rfl
@[simp] theorem State.updHart_bad (h : Nat) (f : Hart → Hart) : (s.updHart h f).bad = s.bad := rfl
@[simp] theorem State.updHart_encPage (h : Nat) (f : Hart → Hart) : (s.updHart h f).encPage = s.encPage := rfl
@[simp] theorem State.updHart_enc (h : Nat) (f : Hart → Hart) : (s.updHart h f).enc = s.enc := rfl
@[simp] theorem State.updHart_dirtyAt (h : Nat) (f : Hart → Hart) : (s.updHart h f).dirtyAt = s.dirtyAt := rfl
@[simp] theorem State.updHart_dirtyOne (h : Nat) (f : Hart → Hart) : (s.updHart h f).dirtyOne = s.dirtyOne := rfl
@[simp] theorem State.updHart_dirtySwitch (h : Nat) (f : Hart → Hart) : (s.updHart h f).dirtySwitch = s.dirtySwitch := rfl
@[simp] theorem State.updHart_mcbs (h : Nat) (f : Hart → Hart) : (s.updHart h f).mcbs = s.mcbs := rfl
@[simp] theorem State.updHart_cores (h : Nat) (f : Hart → Hart) : (s.updHart h f).cores = s.cores := rfl
@[simp] theorem State.updHart_bindings (h : Nat) (f : Hart → Hart) : (s.updHart h f).bindings = s.bindings := rfl
@[simp] theorem State.updHart_nextSerial (h : Nat) (f : Hart → Hart) : (s.updHart h f).nextSerial = s.nextSerial := rfl
@[simp] theorem State.updHart_islands (h : Nat) (f : Hart → Hart) : (s.updHart h f).islands = s.islands := rfl
@[simp] theorem State.updHart_parts (h : Nat) (f : Hart → Hart) : (s.updHart h f).parts = s.parts := rfl
@[simp] theorem State.updHart_granary (h : Nat) (f : Hart → Hart) : (s.updHart h f).granary = s.granary := rfl
@[simp] theorem State.updHart_sower (h : Nat) (f : Hart → Hart) : (s.updHart h f).sower = s.sower := rfl
@[simp] theorem State.updHart_sowerRegion (h : Nat) (f : Hart → Hart) : (s.updHart h f).sowerRegion = s.sowerRegion := rfl
@[simp] theorem State.updHart_sowerLog (h : Nat) (f : Hart → Hart) : (s.updHart h f).sowerLog = s.sowerLog := rfl
@[simp] theorem State.updHart_rotation (h : Nat) (f : Hart → Hart) : (s.updHart h f).rotation = s.rotation := rfl
@[simp] theorem State.updHart_nextAccept (h : Nat) (f : Hart → Hart) : (s.updHart h f).nextAccept = s.nextAccept := rfl
@[simp] theorem State.updHart_ports (h : Nat) (f : Hart → Hart) : (s.updHart h f).ports = s.ports := rfl
@[simp] theorem State.updHart_breakout (h : Nat) (f : Hart → Hart) : (s.updHart h f).breakout = s.breakout := rfl
@[simp] theorem State.updHart_ingress (h : Nat) (f : Hart → Hart) : (s.updHart h f).ingress = s.ingress := rfl
@[simp] theorem State.updHart_slots (h : Nat) (f : Hart → Hart) : (s.updHart h f).slots = s.slots := rfl
@[simp] theorem State.updHart_qps (h : Nat) (f : Hart → Hart) : (s.updHart h f).qps = s.qps := rfl
@[simp] theorem State.updHart_tx (h : Nat) (f : Hart → Hart) : (s.updHart h f).tx = s.tx := rfl
@[simp] theorem State.updHart_lanes (h : Nat) (f : Hart → Hart) : (s.updHart h f).lanes = s.lanes := rfl
@[simp] theorem State.updHart_jobs (h : Nat) (f : Hart → Hart) : (s.updHart h f).jobs = s.jobs := rfl
@[simp] theorem State.updHart_ifcs (h : Nat) (f : Hart → Hart) : (s.updHart h f).ifcs = s.ifcs := rfl
@[simp] theorem State.updHart_pfCompletions (h : Nat) (f : Hart → Hart) : (s.updHart h f).pfCompletions = s.pfCompletions := rfl
@[simp] theorem State.updHart_streams (h : Nat) (f : Hart → Hart) : (s.updHart h f).streams = s.streams := rfl
@[simp] theorem State.updHart_waiting (h : Nat) (f : Hart → Hart) : (s.updHart h f).waiting = s.waiting := rfl
@[simp] theorem State.updHart_hostDeny (h : Nat) (f : Hart → Hart) : (s.updHart h f).hostDeny = s.hostDeny := rfl
@[simp] theorem State.updHart_inbound (h : Nat) (f : Hart → Hart) : (s.updHart h f).inbound = s.inbound := rfl
@[simp] theorem State.updHart_mute (h : Nat) (f : Hart → Hart) : (s.updHart h f).mute = s.mute := rfl
@[simp] theorem State.updHart_pmem (h : Nat) (f : Hart → Hart) : (s.updHart h f).pmem = s.pmem := rfl
@[simp] theorem State.updHart_bells (h : Nat) (f : Hart → Hart) : (s.updHart h f).bells = s.bells := rfl
@[simp] theorem State.updHart_rdy (h : Nat) (f : Hart → Hart) : (s.updHart h f).rdy = s.rdy := rfl
@[simp] theorem State.updHart_mode (h : Nat) (f : Hart → Hart) : (s.updHart h f).mode = s.mode := rfl
@[simp] theorem State.updHart_hostWalks (h : Nat) (f : Hart → Hart) : (s.updHart h f).hostWalks = s.hostWalks := rfl
@[simp] theorem State.updHart_master (h : Nat) (f : Hart → Hart) : (s.updHart h f).master = s.master := rfl
@[simp] theorem State.updHart_lastBeacon (h : Nat) (f : Hart → Hart) : (s.updHart h f).lastBeacon = s.lastBeacon := rfl
@[simp] theorem State.updHart_nepolRefuses (h : Nat) (f : Hart → Hart) : (s.updHart h f).nepolRefuses = s.nepolRefuses := rfl
@[simp] theorem State.updHart_controllersRefuse (h : Nat) (f : Hart → Hart) : (s.updHart h f).controllersRefuse = s.controllersRefuse := rfl
@[simp] theorem State.updHart_portDev (h : Nat) (f : Hart → Hart) : (s.updHart h f).portDev = s.portDev := rfl
@[simp] theorem State.updHart_portFloor (h : Nat) (f : Hart → Hart) : (s.updHart h f).portFloor = s.portFloor := rfl
@[simp] theorem State.updHart_mctp (h : Nat) (f : Hart → Hart) : (s.updHart h f).mctp = s.mctp := rfl
@[simp] theorem State.updHart_power (h : Nat) (f : Hart → Hart) : (s.updHart h f).power = s.power := rfl
@[simp] theorem State.updHart_coolFor (h : Nat) (f : Hart → Hart) : (s.updHart h f).coolFor = s.coolFor := rfl
@[simp] theorem State.updHart_device (h : Nat) (f : Hart → Hart) : (s.updHart h f).device = s.device := rfl
@[simp] theorem State.updHart_exports (h : Nat) (f : Hart → Hart) : (s.updHart h f).exports = s.exports := rfl
@[simp] theorem State.updHart_windows (h : Nat) (f : Hart → Hart) : (s.updHart h f).windows = s.windows := rfl
@[simp] theorem State.updHart_performed (h : Nat) (f : Hart → Hart) : (s.updHart h f).performed = s.performed := rfl
@[simp] theorem State.updHart_nextContribution (h : Nat) (f : Hart → Hart) : (s.updHart h f).nextContribution = s.nextContribution := rfl
@[simp] theorem State.updHart_switch (h : Nat) (f : Hart → Hart) : (s.updHart h f).switch = s.switch := rfl
@[simp] theorem State.updHart_counts (h : Nat) (f : Hart → Hart) : (s.updHart h f).counts = s.counts := rfl
@[simp] theorem State.updHart_linksDown (h : Nat) (f : Hart → Hart) : (s.updHart h f).linksDown = s.linksDown := rfl

-- The accessors after an update of another array

@[simp] theorem mcbAt_setCore (k : Nat) (c : Core) (n : Nat) : mcbAt (s.setCore k c) n = mcbAt s n := rfl
@[simp] theorem partAt_setCore (k : Nat) (c : Core) (n : Nat) : partAt (s.setCore k c) n = partAt s n := rfl
@[simp] theorem islandAt_setCore (k : Nat) (c : Core) (n : Nat) : islandAt (s.setCore k c) n = islandAt s n := rfl
@[simp] theorem portAt_setCore (k : Nat) (c : Core) (n : Nat) : portAt (s.setCore k c) n = portAt s n := rfl
@[simp] theorem ifcAt_setCore (k : Nat) (c : Core) (n : Nat) : ifcAt (s.setCore k c) n = ifcAt s n := rfl
@[simp] theorem laneAt_setCore (k : Nat) (c : Core) (n : Nat) : laneAt (s.setCore k c) n = laneAt s n := rfl
@[simp] theorem hartAt_setCore (k : Nat) (c : Core) (n : Nat) : hartAt (s.setCore k c) n = hartAt s n := rfl
@[simp] theorem mcbAt_updCore (k : Nat) (f : Core → Core) (n : Nat) : mcbAt (s.updCore k f) n = mcbAt s n := rfl
@[simp] theorem partAt_updCore (k : Nat) (f : Core → Core) (n : Nat) : partAt (s.updCore k f) n = partAt s n := rfl
@[simp] theorem islandAt_updCore (k : Nat) (f : Core → Core) (n : Nat) : islandAt (s.updCore k f) n = islandAt s n := rfl
@[simp] theorem portAt_updCore (k : Nat) (f : Core → Core) (n : Nat) : portAt (s.updCore k f) n = portAt s n := rfl
@[simp] theorem ifcAt_updCore (k : Nat) (f : Core → Core) (n : Nat) : ifcAt (s.updCore k f) n = ifcAt s n := rfl
@[simp] theorem laneAt_updCore (k : Nat) (f : Core → Core) (n : Nat) : laneAt (s.updCore k f) n = laneAt s n := rfl
@[simp] theorem hartAt_updCore (k : Nat) (f : Core → Core) (n : Nat) : hartAt (s.updCore k f) n = hartAt s n := rfl
@[simp] theorem coreAt_setMcb (m : Nat) (b : Mcb) (n : Nat) : coreAt (s.setMcb m b) n = coreAt s n := rfl
@[simp] theorem partAt_setMcb (m : Nat) (b : Mcb) (n : Nat) : partAt (s.setMcb m b) n = partAt s n := rfl
@[simp] theorem islandAt_setMcb (m : Nat) (b : Mcb) (n : Nat) : islandAt (s.setMcb m b) n = islandAt s n := rfl
@[simp] theorem portAt_setMcb (m : Nat) (b : Mcb) (n : Nat) : portAt (s.setMcb m b) n = portAt s n := rfl
@[simp] theorem ifcAt_setMcb (m : Nat) (b : Mcb) (n : Nat) : ifcAt (s.setMcb m b) n = ifcAt s n := rfl
@[simp] theorem laneAt_setMcb (m : Nat) (b : Mcb) (n : Nat) : laneAt (s.setMcb m b) n = laneAt s n := rfl
@[simp] theorem hartAt_setMcb (m : Nat) (b : Mcb) (n : Nat) : hartAt (s.setMcb m b) n = hartAt s n := rfl
@[simp] theorem coreAt_updMcb (m : Nat) (f : Mcb → Mcb) (n : Nat) : coreAt (s.updMcb m f) n = coreAt s n := rfl
@[simp] theorem partAt_updMcb (m : Nat) (f : Mcb → Mcb) (n : Nat) : partAt (s.updMcb m f) n = partAt s n := rfl
@[simp] theorem islandAt_updMcb (m : Nat) (f : Mcb → Mcb) (n : Nat) : islandAt (s.updMcb m f) n = islandAt s n := rfl
@[simp] theorem portAt_updMcb (m : Nat) (f : Mcb → Mcb) (n : Nat) : portAt (s.updMcb m f) n = portAt s n := rfl
@[simp] theorem ifcAt_updMcb (m : Nat) (f : Mcb → Mcb) (n : Nat) : ifcAt (s.updMcb m f) n = ifcAt s n := rfl
@[simp] theorem laneAt_updMcb (m : Nat) (f : Mcb → Mcb) (n : Nat) : laneAt (s.updMcb m f) n = laneAt s n := rfl
@[simp] theorem hartAt_updMcb (m : Nat) (f : Mcb → Mcb) (n : Nat) : hartAt (s.updMcb m f) n = hartAt s n := rfl
@[simp] theorem coreAt_updInv (m : Nat) (f : Inv → Inv) (n : Nat) : coreAt (s.updInv m f) n = coreAt s n := rfl
@[simp] theorem partAt_updInv (m : Nat) (f : Inv → Inv) (n : Nat) : partAt (s.updInv m f) n = partAt s n := rfl
@[simp] theorem islandAt_updInv (m : Nat) (f : Inv → Inv) (n : Nat) : islandAt (s.updInv m f) n = islandAt s n := rfl
@[simp] theorem portAt_updInv (m : Nat) (f : Inv → Inv) (n : Nat) : portAt (s.updInv m f) n = portAt s n := rfl
@[simp] theorem ifcAt_updInv (m : Nat) (f : Inv → Inv) (n : Nat) : ifcAt (s.updInv m f) n = ifcAt s n := rfl
@[simp] theorem laneAt_updInv (m : Nat) (f : Inv → Inv) (n : Nat) : laneAt (s.updInv m f) n = laneAt s n := rfl
@[simp] theorem hartAt_updInv (m : Nat) (f : Inv → Inv) (n : Nat) : hartAt (s.updInv m f) n = hartAt s n := rfl
@[simp] theorem coreAt_updPart (p : Nat) (f : Partition → Partition) (n : Nat) : coreAt (s.updPart p f) n = coreAt s n := rfl
@[simp] theorem mcbAt_updPart (p : Nat) (f : Partition → Partition) (n : Nat) : mcbAt (s.updPart p f) n = mcbAt s n := rfl
@[simp] theorem islandAt_updPart (p : Nat) (f : Partition → Partition) (n : Nat) : islandAt (s.updPart p f) n = islandAt s n := rfl
@[simp] theorem portAt_updPart (p : Nat) (f : Partition → Partition) (n : Nat) : portAt (s.updPart p f) n = portAt s n := rfl
@[simp] theorem ifcAt_updPart (p : Nat) (f : Partition → Partition) (n : Nat) : ifcAt (s.updPart p f) n = ifcAt s n := rfl
@[simp] theorem laneAt_updPart (p : Nat) (f : Partition → Partition) (n : Nat) : laneAt (s.updPart p f) n = laneAt s n := rfl
@[simp] theorem hartAt_updPart (p : Nat) (f : Partition → Partition) (n : Nat) : hartAt (s.updPart p f) n = hartAt s n := rfl
@[simp] theorem coreAt_updIsland (i : Nat) (f : Island → Island) (n : Nat) : coreAt (s.updIsland i f) n = coreAt s n := rfl
@[simp] theorem mcbAt_updIsland (i : Nat) (f : Island → Island) (n : Nat) : mcbAt (s.updIsland i f) n = mcbAt s n := rfl
@[simp] theorem partAt_updIsland (i : Nat) (f : Island → Island) (n : Nat) : partAt (s.updIsland i f) n = partAt s n := rfl
@[simp] theorem portAt_updIsland (i : Nat) (f : Island → Island) (n : Nat) : portAt (s.updIsland i f) n = portAt s n := rfl
@[simp] theorem ifcAt_updIsland (i : Nat) (f : Island → Island) (n : Nat) : ifcAt (s.updIsland i f) n = ifcAt s n := rfl
@[simp] theorem laneAt_updIsland (i : Nat) (f : Island → Island) (n : Nat) : laneAt (s.updIsland i f) n = laneAt s n := rfl
@[simp] theorem hartAt_updIsland (i : Nat) (f : Island → Island) (n : Nat) : hartAt (s.updIsland i f) n = hartAt s n := rfl
@[simp] theorem coreAt_updPort (p : Nat) (f : Port → Port) (n : Nat) : coreAt (s.updPort p f) n = coreAt s n := rfl
@[simp] theorem mcbAt_updPort (p : Nat) (f : Port → Port) (n : Nat) : mcbAt (s.updPort p f) n = mcbAt s n := rfl
@[simp] theorem partAt_updPort (p : Nat) (f : Port → Port) (n : Nat) : partAt (s.updPort p f) n = partAt s n := rfl
@[simp] theorem islandAt_updPort (p : Nat) (f : Port → Port) (n : Nat) : islandAt (s.updPort p f) n = islandAt s n := rfl
@[simp] theorem ifcAt_updPort (p : Nat) (f : Port → Port) (n : Nat) : ifcAt (s.updPort p f) n = ifcAt s n := rfl
@[simp] theorem laneAt_updPort (p : Nat) (f : Port → Port) (n : Nat) : laneAt (s.updPort p f) n = laneAt s n := rfl
@[simp] theorem hartAt_updPort (p : Nat) (f : Port → Port) (n : Nat) : hartAt (s.updPort p f) n = hartAt s n := rfl
@[simp] theorem coreAt_updIfc (i : Nat) (f : Ifc → Ifc) (n : Nat) : coreAt (s.updIfc i f) n = coreAt s n := rfl
@[simp] theorem mcbAt_updIfc (i : Nat) (f : Ifc → Ifc) (n : Nat) : mcbAt (s.updIfc i f) n = mcbAt s n := rfl
@[simp] theorem partAt_updIfc (i : Nat) (f : Ifc → Ifc) (n : Nat) : partAt (s.updIfc i f) n = partAt s n := rfl
@[simp] theorem islandAt_updIfc (i : Nat) (f : Ifc → Ifc) (n : Nat) : islandAt (s.updIfc i f) n = islandAt s n := rfl
@[simp] theorem portAt_updIfc (i : Nat) (f : Ifc → Ifc) (n : Nat) : portAt (s.updIfc i f) n = portAt s n := rfl
@[simp] theorem laneAt_updIfc (i : Nat) (f : Ifc → Ifc) (n : Nat) : laneAt (s.updIfc i f) n = laneAt s n := rfl
@[simp] theorem hartAt_updIfc (i : Nat) (f : Ifc → Ifc) (n : Nat) : hartAt (s.updIfc i f) n = hartAt s n := rfl
@[simp] theorem coreAt_updLane (l : Nat) (f : Lane → Lane) (n : Nat) : coreAt (s.updLane l f) n = coreAt s n := rfl
@[simp] theorem mcbAt_updLane (l : Nat) (f : Lane → Lane) (n : Nat) : mcbAt (s.updLane l f) n = mcbAt s n := rfl
@[simp] theorem partAt_updLane (l : Nat) (f : Lane → Lane) (n : Nat) : partAt (s.updLane l f) n = partAt s n := rfl
@[simp] theorem islandAt_updLane (l : Nat) (f : Lane → Lane) (n : Nat) : islandAt (s.updLane l f) n = islandAt s n := rfl
@[simp] theorem portAt_updLane (l : Nat) (f : Lane → Lane) (n : Nat) : portAt (s.updLane l f) n = portAt s n := rfl
@[simp] theorem ifcAt_updLane (l : Nat) (f : Lane → Lane) (n : Nat) : ifcAt (s.updLane l f) n = ifcAt s n := rfl
@[simp] theorem hartAt_updLane (l : Nat) (f : Lane → Lane) (n : Nat) : hartAt (s.updLane l f) n = hartAt s n := rfl
@[simp] theorem coreAt_updHart (h : Nat) (f : Hart → Hart) (n : Nat) : coreAt (s.updHart h f) n = coreAt s n := rfl
@[simp] theorem mcbAt_updHart (h : Nat) (f : Hart → Hart) (n : Nat) : mcbAt (s.updHart h f) n = mcbAt s n := rfl
@[simp] theorem partAt_updHart (h : Nat) (f : Hart → Hart) (n : Nat) : partAt (s.updHart h f) n = partAt s n := rfl
@[simp] theorem islandAt_updHart (h : Nat) (f : Hart → Hart) (n : Nat) : islandAt (s.updHart h f) n = islandAt s n := rfl
@[simp] theorem portAt_updHart (h : Nat) (f : Hart → Hart) (n : Nat) : portAt (s.updHart h f) n = portAt s n := rfl
@[simp] theorem ifcAt_updHart (h : Nat) (f : Hart → Hart) (n : Nat) : ifcAt (s.updHart h f) n = ifcAt s n := rfl
@[simp] theorem laneAt_updHart (h : Nat) (f : Hart → Hart) (n : Nat) : laneAt (s.updHart h f) n = laneAt s n := rfl

-- The accessors after an update of their own array

@[simp] theorem coreAt_setCore (k : Nat) (c : Core) (n : Nat) : coreAt (s.setCore k c) n = if k = n then c else coreAt s n :=
  mapGet_set _ _ _ _ _
@[simp] theorem coreAt_updCore (k : Nat) (f : Core → Core) (n : Nat) : coreAt (s.updCore k f) n = if k = n then f (coreAt s k) else coreAt s n :=
  mapGet_set _ _ _ _ _
@[simp] theorem mcbAt_setMcb (k : Nat) (b : Mcb) (n : Nat) : mcbAt (s.setMcb k b) n = if k = n then b else mcbAt s n :=
  mapGet_set _ _ _ _ _
@[simp] theorem mcbAt_updMcb (k : Nat) (f : Mcb → Mcb) (n : Nat) : mcbAt (s.updMcb k f) n = if k = n then f (mcbAt s k) else mcbAt s n :=
  mapGet_set _ _ _ _ _
@[simp] theorem partAt_updPart (k : Nat) (f : Partition → Partition) (n : Nat) : partAt (s.updPart k f) n = if k = n then f (partAt s k) else partAt s n :=
  mapGet_set _ _ _ _ _
@[simp] theorem islandAt_updIsland (k : Nat) (f : Island → Island) (n : Nat) : islandAt (s.updIsland k f) n = if k = n then f (islandAt s k) else islandAt s n :=
  mapGet_set _ _ _ _ _
@[simp] theorem portAt_updPort (k : Nat) (f : Port → Port) (n : Nat) : portAt (s.updPort k f) n = if k = n then f (portAt s k) else portAt s n :=
  mapGet_set _ _ _ _ _
@[simp] theorem ifcAt_updIfc (k : Nat) (f : Ifc → Ifc) (n : Nat) : ifcAt (s.updIfc k f) n = if k = n then f (ifcAt s k) else ifcAt s n :=
  mapGet_set _ _ _ _ _
@[simp] theorem laneAt_updLane (k : Nat) (f : Lane → Lane) (n : Nat) : laneAt (s.updLane k f) n = if k = n then f (laneAt s k) else laneAt s n :=
  mapGet_set _ _ _ _ _
@[simp] theorem hartAt_updHart (k : Nat) (f : Hart → Hart) (n : Nat) : hartAt (s.updHart k f) n = if k = n then f (hartAt s k) else hartAt s n :=
  mapGet_set _ _ _ _ _
@[simp] theorem mcbAt_updInv (k : Nat) (f : Inv → Inv) (n : Nat) :
    mcbAt (s.updInv k f) n = if k = n then { mcbAt s k with inv := (mcbAt s k).inv.map f } else mcbAt s n :=
  mapGet_set _ _ _ _ _

-- Events counted for a partition

@[simp] theorem State.count_pt (p c n : Nat) : (s.count p c n).pt = s.pt := by unfold State.count; split <;> rfl
@[simp] theorem State.countCore_pt (k c n : Nat) : (s.countCore k c n).pt = s.pt := by
  unfold State.countCore; split <;> simp
@[simp] theorem State.count_clock (p c n : Nat) : (s.count p c n).clock = s.clock := by unfold State.count; split <;> rfl
@[simp] theorem State.countCore_clock (k c n : Nat) : (s.countCore k c n).clock = s.clock := by
  unfold State.countCore; split <;> simp
@[simp] theorem State.count_agenda (p c n : Nat) : (s.count p c n).agenda = s.agenda := by unfold State.count; split <;> rfl
@[simp] theorem State.countCore_agenda (k c n : Nat) : (s.countCore k c n).agenda = s.agenda := by
  unfold State.countCore; split <;> simp
@[simp] theorem State.count_rr (p c n : Nat) : (s.count p c n).rr = s.rr := by unfold State.count; split <;> rfl
@[simp] theorem State.countCore_rr (k c n : Nat) : (s.countCore k c n).rr = s.rr := by
  unfold State.countCore; split <;> simp
@[simp] theorem State.count_turn (p c n : Nat) : (s.count p c n).turn = s.turn := by unfold State.count; split <;> rfl
@[simp] theorem State.countCore_turn (k c n : Nat) : (s.countCore k c n).turn = s.turn := by
  unfold State.countCore; split <;> simp
@[simp] theorem State.count_hart (p c n : Nat) : (s.count p c n).hart = s.hart := by unfold State.count; split <;> rfl
@[simp] theorem State.countCore_hart (k c n : Nat) : (s.countCore k c n).hart = s.hart := by
  unfold State.countCore; split <;> simp
@[simp] theorem State.count_free (p c n : Nat) : (s.count p c n).free = s.free := by unfold State.count; split <;> rfl
@[simp] theorem State.countCore_free (k c n : Nat) : (s.countCore k c n).free = s.free := by
  unfold State.countCore; split <;> simp
@[simp] theorem State.count_mem (p c n : Nat) : (s.count p c n).mem = s.mem := by unfold State.count; split <;> rfl
@[simp] theorem State.countCore_mem (k c n : Nat) : (s.countCore k c n).mem = s.mem := by
  unfold State.countCore; split <;> simp
@[simp] theorem State.count_tags (p c n : Nat) : (s.count p c n).tags = s.tags := by unfold State.count; split <;> rfl
@[simp] theorem State.countCore_tags (k c n : Nat) : (s.countCore k c n).tags = s.tags := by
  unfold State.countCore; split <;> simp
@[simp] theorem State.count_fe (p c n : Nat) : (s.count p c n).fe = s.fe := by unfold State.count; split <;> rfl
@[simp] theorem State.countCore_fe (k c n : Nat) : (s.countCore k c n).fe = s.fe := by
  unfold State.countCore; split <;> simp
@[simp] theorem State.count_feMark (p c n : Nat) : (s.count p c n).feMark = s.feMark := by unfold State.count; split <;> rfl
@[simp] theorem State.countCore_feMark (k c n : Nat) : (s.countCore k c n).feMark = s.feMark := by
  unfold State.countCore; split <;> simp
@[simp] theorem State.count_stamps (p c n : Nat) : (s.count p c n).stamps = s.stamps := by unfold State.count; split <;> rfl
@[simp] theorem State.countCore_stamps (k c n : Nat) : (s.countCore k c n).stamps = s.stamps := by
  unfold State.countCore; split <;> simp
@[simp] theorem State.count_marks (p c n : Nat) : (s.count p c n).marks = s.marks := by unfold State.count; split <;> rfl
@[simp] theorem State.countCore_marks (k c n : Nat) : (s.countCore k c n).marks = s.marks := by
  unfold State.countCore; split <;> simp
@[simp] theorem State.count_writes (p c n : Nat) : (s.count p c n).writes = s.writes := by unfold State.count; split <;> rfl
@[simp] theorem State.countCore_writes (k c n : Nat) : (s.countCore k c n).writes = s.writes := by
  unfold State.countCore; split <;> simp
@[simp] theorem State.count_bars (p c n : Nat) : (s.count p c n).bars = s.bars := by unfold State.count; split <;> rfl
@[simp] theorem State.countCore_bars (k c n : Nat) : (s.countCore k c n).bars = s.bars := by
  unfold State.countCore; split <;> simp
@[simp] theorem State.count_barsAt (p c n : Nat) : (s.count p c n).barsAt = s.barsAt := by unfold State.count; split <;> rfl
@[simp] theorem State.countCore_barsAt (k c n : Nat) : (s.countCore k c n).barsAt = s.barsAt := by
  unfold State.countCore; split <;> simp
@[simp] theorem State.count_bad (p c n : Nat) : (s.count p c n).bad = s.bad := by unfold State.count; split <;> rfl
@[simp] theorem State.countCore_bad (k c n : Nat) : (s.countCore k c n).bad = s.bad := by
  unfold State.countCore; split <;> simp
@[simp] theorem State.count_encPage (p c n : Nat) : (s.count p c n).encPage = s.encPage := by unfold State.count; split <;> rfl
@[simp] theorem State.countCore_encPage (k c n : Nat) : (s.countCore k c n).encPage = s.encPage := by
  unfold State.countCore; split <;> simp
@[simp] theorem State.count_enc (p c n : Nat) : (s.count p c n).enc = s.enc := by unfold State.count; split <;> rfl
@[simp] theorem State.countCore_enc (k c n : Nat) : (s.countCore k c n).enc = s.enc := by
  unfold State.countCore; split <;> simp
@[simp] theorem State.count_dirtyAt (p c n : Nat) : (s.count p c n).dirtyAt = s.dirtyAt := by unfold State.count; split <;> rfl
@[simp] theorem State.countCore_dirtyAt (k c n : Nat) : (s.countCore k c n).dirtyAt = s.dirtyAt := by
  unfold State.countCore; split <;> simp
@[simp] theorem State.count_dirtyOne (p c n : Nat) : (s.count p c n).dirtyOne = s.dirtyOne := by unfold State.count; split <;> rfl
@[simp] theorem State.countCore_dirtyOne (k c n : Nat) : (s.countCore k c n).dirtyOne = s.dirtyOne := by
  unfold State.countCore; split <;> simp
@[simp] theorem State.count_dirtySwitch (p c n : Nat) : (s.count p c n).dirtySwitch = s.dirtySwitch := by unfold State.count; split <;> rfl
@[simp] theorem State.countCore_dirtySwitch (k c n : Nat) : (s.countCore k c n).dirtySwitch = s.dirtySwitch := by
  unfold State.countCore; split <;> simp
@[simp] theorem State.count_mcbs (p c n : Nat) : (s.count p c n).mcbs = s.mcbs := by unfold State.count; split <;> rfl
@[simp] theorem State.countCore_mcbs (k c n : Nat) : (s.countCore k c n).mcbs = s.mcbs := by
  unfold State.countCore; split <;> simp
@[simp] theorem State.count_cores (p c n : Nat) : (s.count p c n).cores = s.cores := by unfold State.count; split <;> rfl
@[simp] theorem State.countCore_cores (k c n : Nat) : (s.countCore k c n).cores = s.cores := by
  unfold State.countCore; split <;> simp
@[simp] theorem State.count_bindings (p c n : Nat) : (s.count p c n).bindings = s.bindings := by unfold State.count; split <;> rfl
@[simp] theorem State.countCore_bindings (k c n : Nat) : (s.countCore k c n).bindings = s.bindings := by
  unfold State.countCore; split <;> simp
@[simp] theorem State.count_nextSerial (p c n : Nat) : (s.count p c n).nextSerial = s.nextSerial := by unfold State.count; split <;> rfl
@[simp] theorem State.countCore_nextSerial (k c n : Nat) : (s.countCore k c n).nextSerial = s.nextSerial := by
  unfold State.countCore; split <;> simp
@[simp] theorem State.count_islands (p c n : Nat) : (s.count p c n).islands = s.islands := by unfold State.count; split <;> rfl
@[simp] theorem State.countCore_islands (k c n : Nat) : (s.countCore k c n).islands = s.islands := by
  unfold State.countCore; split <;> simp
@[simp] theorem State.count_granary (p c n : Nat) : (s.count p c n).granary = s.granary := by unfold State.count; split <;> rfl
@[simp] theorem State.countCore_granary (k c n : Nat) : (s.countCore k c n).granary = s.granary := by
  unfold State.countCore; split <;> simp
@[simp] theorem State.count_sower (p c n : Nat) : (s.count p c n).sower = s.sower := by unfold State.count; split <;> rfl
@[simp] theorem State.countCore_sower (k c n : Nat) : (s.countCore k c n).sower = s.sower := by
  unfold State.countCore; split <;> simp
@[simp] theorem State.count_sowerRegion (p c n : Nat) : (s.count p c n).sowerRegion = s.sowerRegion := by unfold State.count; split <;> rfl
@[simp] theorem State.countCore_sowerRegion (k c n : Nat) : (s.countCore k c n).sowerRegion = s.sowerRegion := by
  unfold State.countCore; split <;> simp
@[simp] theorem State.count_sowerLog (p c n : Nat) : (s.count p c n).sowerLog = s.sowerLog := by unfold State.count; split <;> rfl
@[simp] theorem State.countCore_sowerLog (k c n : Nat) : (s.countCore k c n).sowerLog = s.sowerLog := by
  unfold State.countCore; split <;> simp
@[simp] theorem State.count_rotation (p c n : Nat) : (s.count p c n).rotation = s.rotation := by unfold State.count; split <;> rfl
@[simp] theorem State.countCore_rotation (k c n : Nat) : (s.countCore k c n).rotation = s.rotation := by
  unfold State.countCore; split <;> simp
@[simp] theorem State.count_nextAccept (p c n : Nat) : (s.count p c n).nextAccept = s.nextAccept := by unfold State.count; split <;> rfl
@[simp] theorem State.countCore_nextAccept (k c n : Nat) : (s.countCore k c n).nextAccept = s.nextAccept := by
  unfold State.countCore; split <;> simp
@[simp] theorem State.count_ports (p c n : Nat) : (s.count p c n).ports = s.ports := by unfold State.count; split <;> rfl
@[simp] theorem State.countCore_ports (k c n : Nat) : (s.countCore k c n).ports = s.ports := by
  unfold State.countCore; split <;> simp
@[simp] theorem State.count_breakout (p c n : Nat) : (s.count p c n).breakout = s.breakout := by unfold State.count; split <;> rfl
@[simp] theorem State.countCore_breakout (k c n : Nat) : (s.countCore k c n).breakout = s.breakout := by
  unfold State.countCore; split <;> simp
@[simp] theorem State.count_ingress (p c n : Nat) : (s.count p c n).ingress = s.ingress := by unfold State.count; split <;> rfl
@[simp] theorem State.countCore_ingress (k c n : Nat) : (s.countCore k c n).ingress = s.ingress := by
  unfold State.countCore; split <;> simp
@[simp] theorem State.count_slots (p c n : Nat) : (s.count p c n).slots = s.slots := by unfold State.count; split <;> rfl
@[simp] theorem State.countCore_slots (k c n : Nat) : (s.countCore k c n).slots = s.slots := by
  unfold State.countCore; split <;> simp
@[simp] theorem State.count_qps (p c n : Nat) : (s.count p c n).qps = s.qps := by unfold State.count; split <;> rfl
@[simp] theorem State.countCore_qps (k c n : Nat) : (s.countCore k c n).qps = s.qps := by
  unfold State.countCore; split <;> simp
@[simp] theorem State.count_tx (p c n : Nat) : (s.count p c n).tx = s.tx := by unfold State.count; split <;> rfl
@[simp] theorem State.countCore_tx (k c n : Nat) : (s.countCore k c n).tx = s.tx := by
  unfold State.countCore; split <;> simp
@[simp] theorem State.count_lanes (p c n : Nat) : (s.count p c n).lanes = s.lanes := by unfold State.count; split <;> rfl
@[simp] theorem State.countCore_lanes (k c n : Nat) : (s.countCore k c n).lanes = s.lanes := by
  unfold State.countCore; split <;> simp
@[simp] theorem State.count_jobs (p c n : Nat) : (s.count p c n).jobs = s.jobs := by unfold State.count; split <;> rfl
@[simp] theorem State.countCore_jobs (k c n : Nat) : (s.countCore k c n).jobs = s.jobs := by
  unfold State.countCore; split <;> simp
@[simp] theorem State.count_ifcs (p c n : Nat) : (s.count p c n).ifcs = s.ifcs := by unfold State.count; split <;> rfl
@[simp] theorem State.countCore_ifcs (k c n : Nat) : (s.countCore k c n).ifcs = s.ifcs := by
  unfold State.countCore; split <;> simp
@[simp] theorem State.count_pfCompletions (p c n : Nat) : (s.count p c n).pfCompletions = s.pfCompletions := by unfold State.count; split <;> rfl
@[simp] theorem State.countCore_pfCompletions (k c n : Nat) : (s.countCore k c n).pfCompletions = s.pfCompletions := by
  unfold State.countCore; split <;> simp
@[simp] theorem State.count_streams (p c n : Nat) : (s.count p c n).streams = s.streams := by unfold State.count; split <;> rfl
@[simp] theorem State.countCore_streams (k c n : Nat) : (s.countCore k c n).streams = s.streams := by
  unfold State.countCore; split <;> simp
@[simp] theorem State.count_waiting (p c n : Nat) : (s.count p c n).waiting = s.waiting := by unfold State.count; split <;> rfl
@[simp] theorem State.countCore_waiting (k c n : Nat) : (s.countCore k c n).waiting = s.waiting := by
  unfold State.countCore; split <;> simp
@[simp] theorem State.count_hostDeny (p c n : Nat) : (s.count p c n).hostDeny = s.hostDeny := by unfold State.count; split <;> rfl
@[simp] theorem State.countCore_hostDeny (k c n : Nat) : (s.countCore k c n).hostDeny = s.hostDeny := by
  unfold State.countCore; split <;> simp
@[simp] theorem State.count_inbound (p c n : Nat) : (s.count p c n).inbound = s.inbound := by unfold State.count; split <;> rfl
@[simp] theorem State.countCore_inbound (k c n : Nat) : (s.countCore k c n).inbound = s.inbound := by
  unfold State.countCore; split <;> simp
@[simp] theorem State.count_mute (p c n : Nat) : (s.count p c n).mute = s.mute := by unfold State.count; split <;> rfl
@[simp] theorem State.countCore_mute (k c n : Nat) : (s.countCore k c n).mute = s.mute := by
  unfold State.countCore; split <;> simp
@[simp] theorem State.count_pmem (p c n : Nat) : (s.count p c n).pmem = s.pmem := by unfold State.count; split <;> rfl
@[simp] theorem State.countCore_pmem (k c n : Nat) : (s.countCore k c n).pmem = s.pmem := by
  unfold State.countCore; split <;> simp
@[simp] theorem State.count_bells (p c n : Nat) : (s.count p c n).bells = s.bells := by unfold State.count; split <;> rfl
@[simp] theorem State.countCore_bells (k c n : Nat) : (s.countCore k c n).bells = s.bells := by
  unfold State.countCore; split <;> simp
@[simp] theorem State.count_rdy (p c n : Nat) : (s.count p c n).rdy = s.rdy := by unfold State.count; split <;> rfl
@[simp] theorem State.countCore_rdy (k c n : Nat) : (s.countCore k c n).rdy = s.rdy := by
  unfold State.countCore; split <;> simp
@[simp] theorem State.count_mode (p c n : Nat) : (s.count p c n).mode = s.mode := by unfold State.count; split <;> rfl
@[simp] theorem State.countCore_mode (k c n : Nat) : (s.countCore k c n).mode = s.mode := by
  unfold State.countCore; split <;> simp
@[simp] theorem State.count_hostWalks (p c n : Nat) : (s.count p c n).hostWalks = s.hostWalks := by unfold State.count; split <;> rfl
@[simp] theorem State.countCore_hostWalks (k c n : Nat) : (s.countCore k c n).hostWalks = s.hostWalks := by
  unfold State.countCore; split <;> simp
@[simp] theorem State.count_harts (p c n : Nat) : (s.count p c n).harts = s.harts := by unfold State.count; split <;> rfl
@[simp] theorem State.countCore_harts (k c n : Nat) : (s.countCore k c n).harts = s.harts := by
  unfold State.countCore; split <;> simp
@[simp] theorem State.count_master (p c n : Nat) : (s.count p c n).master = s.master := by unfold State.count; split <;> rfl
@[simp] theorem State.countCore_master (k c n : Nat) : (s.countCore k c n).master = s.master := by
  unfold State.countCore; split <;> simp
@[simp] theorem State.count_lastBeacon (p c n : Nat) : (s.count p c n).lastBeacon = s.lastBeacon := by unfold State.count; split <;> rfl
@[simp] theorem State.countCore_lastBeacon (k c n : Nat) : (s.countCore k c n).lastBeacon = s.lastBeacon := by
  unfold State.countCore; split <;> simp
@[simp] theorem State.count_nepolRefuses (p c n : Nat) : (s.count p c n).nepolRefuses = s.nepolRefuses := by unfold State.count; split <;> rfl
@[simp] theorem State.countCore_nepolRefuses (k c n : Nat) : (s.countCore k c n).nepolRefuses = s.nepolRefuses := by
  unfold State.countCore; split <;> simp
@[simp] theorem State.count_controllersRefuse (p c n : Nat) : (s.count p c n).controllersRefuse = s.controllersRefuse := by unfold State.count; split <;> rfl
@[simp] theorem State.countCore_controllersRefuse (k c n : Nat) : (s.countCore k c n).controllersRefuse = s.controllersRefuse := by
  unfold State.countCore; split <;> simp
@[simp] theorem State.count_portDev (p c n : Nat) : (s.count p c n).portDev = s.portDev := by unfold State.count; split <;> rfl
@[simp] theorem State.countCore_portDev (k c n : Nat) : (s.countCore k c n).portDev = s.portDev := by
  unfold State.countCore; split <;> simp
@[simp] theorem State.count_portFloor (p c n : Nat) : (s.count p c n).portFloor = s.portFloor := by unfold State.count; split <;> rfl
@[simp] theorem State.countCore_portFloor (k c n : Nat) : (s.countCore k c n).portFloor = s.portFloor := by
  unfold State.countCore; split <;> simp
@[simp] theorem State.count_mctp (p c n : Nat) : (s.count p c n).mctp = s.mctp := by unfold State.count; split <;> rfl
@[simp] theorem State.countCore_mctp (k c n : Nat) : (s.countCore k c n).mctp = s.mctp := by
  unfold State.countCore; split <;> simp
@[simp] theorem State.count_power (p c n : Nat) : (s.count p c n).power = s.power := by unfold State.count; split <;> rfl
@[simp] theorem State.countCore_power (k c n : Nat) : (s.countCore k c n).power = s.power := by
  unfold State.countCore; split <;> simp
@[simp] theorem State.count_coolFor (p c n : Nat) : (s.count p c n).coolFor = s.coolFor := by unfold State.count; split <;> rfl
@[simp] theorem State.countCore_coolFor (k c n : Nat) : (s.countCore k c n).coolFor = s.coolFor := by
  unfold State.countCore; split <;> simp
@[simp] theorem State.count_device (p c n : Nat) : (s.count p c n).device = s.device := by unfold State.count; split <;> rfl
@[simp] theorem State.countCore_device (k c n : Nat) : (s.countCore k c n).device = s.device := by
  unfold State.countCore; split <;> simp
@[simp] theorem State.count_exports (p c n : Nat) : (s.count p c n).exports = s.exports := by unfold State.count; split <;> rfl
@[simp] theorem State.countCore_exports (k c n : Nat) : (s.countCore k c n).exports = s.exports := by
  unfold State.countCore; split <;> simp
@[simp] theorem State.count_windows (p c n : Nat) : (s.count p c n).windows = s.windows := by unfold State.count; split <;> rfl
@[simp] theorem State.countCore_windows (k c n : Nat) : (s.countCore k c n).windows = s.windows := by
  unfold State.countCore; split <;> simp
@[simp] theorem State.count_performed (p c n : Nat) : (s.count p c n).performed = s.performed := by unfold State.count; split <;> rfl
@[simp] theorem State.countCore_performed (k c n : Nat) : (s.countCore k c n).performed = s.performed := by
  unfold State.countCore; split <;> simp
@[simp] theorem State.count_nextContribution (p c n : Nat) : (s.count p c n).nextContribution = s.nextContribution := by unfold State.count; split <;> rfl
@[simp] theorem State.countCore_nextContribution (k c n : Nat) : (s.countCore k c n).nextContribution = s.nextContribution := by
  unfold State.countCore; split <;> simp
@[simp] theorem State.count_switch (p c n : Nat) : (s.count p c n).switch = s.switch := by unfold State.count; split <;> rfl
@[simp] theorem State.countCore_switch (k c n : Nat) : (s.countCore k c n).switch = s.switch := by
  unfold State.countCore; split <;> simp
@[simp] theorem State.count_counts (p c n : Nat) : (s.count p c n).counts = s.counts := by unfold State.count; split <;> rfl
@[simp] theorem State.countCore_counts (k c n : Nat) : (s.countCore k c n).counts = s.counts := by
  unfold State.countCore; split <;> simp
@[simp] theorem State.count_linksDown (p c n : Nat) : (s.count p c n).linksDown = s.linksDown := by unfold State.count; split <;> rfl
@[simp] theorem State.countCore_linksDown (k c n : Nat) : (s.countCore k c n).linksDown = s.linksDown := by
  unfold State.countCore; split <;> simp

@[simp] theorem coreAt_count (p c n k : Nat) : coreAt (s.count p c n) k = coreAt s k := by simp [coreAt]
@[simp] theorem mcbAt_count (p c n m : Nat) : mcbAt (s.count p c n) m = mcbAt s m := by simp [mcbAt]
@[simp] theorem islandAt_count (p c n i : Nat) : islandAt (s.count p c n) i = islandAt s i := by simp [islandAt]
@[simp] theorem coreAt_countCore (j c n k : Nat) : coreAt (s.countCore j c n) k = coreAt s k := by simp [coreAt]
@[simp] theorem mcbAt_countCore (j c n m : Nat) : mcbAt (s.countCore j c n) m = mcbAt s m := by simp [mcbAt]
@[simp] theorem islandAt_countCore (j c n i : Nat) : islandAt (s.countCore j c n) i = islandAt s i := by simp [islandAt]

-- One stream

@[simp] theorem State.updStream_pt (n : Nat) (f : Stream → Stream) : (s.updStream n f).pt = s.pt := by
  unfold State.updStream; split <;> rfl
@[simp] theorem State.updStream_clock (n : Nat) (f : Stream → Stream) : (s.updStream n f).clock = s.clock := by
  unfold State.updStream; split <;> rfl
@[simp] theorem State.updStream_agenda (n : Nat) (f : Stream → Stream) : (s.updStream n f).agenda = s.agenda := by
  unfold State.updStream; split <;> rfl
@[simp] theorem State.updStream_rr (n : Nat) (f : Stream → Stream) : (s.updStream n f).rr = s.rr := by
  unfold State.updStream; split <;> rfl
@[simp] theorem State.updStream_turn (n : Nat) (f : Stream → Stream) : (s.updStream n f).turn = s.turn := by
  unfold State.updStream; split <;> rfl
@[simp] theorem State.updStream_hart (n : Nat) (f : Stream → Stream) : (s.updStream n f).hart = s.hart := by
  unfold State.updStream; split <;> rfl
@[simp] theorem State.updStream_free (n : Nat) (f : Stream → Stream) : (s.updStream n f).free = s.free := by
  unfold State.updStream; split <;> rfl
@[simp] theorem State.updStream_mem (n : Nat) (f : Stream → Stream) : (s.updStream n f).mem = s.mem := by
  unfold State.updStream; split <;> rfl
@[simp] theorem State.updStream_tags (n : Nat) (f : Stream → Stream) : (s.updStream n f).tags = s.tags := by
  unfold State.updStream; split <;> rfl
@[simp] theorem State.updStream_fe (n : Nat) (f : Stream → Stream) : (s.updStream n f).fe = s.fe := by
  unfold State.updStream; split <;> rfl
@[simp] theorem State.updStream_feMark (n : Nat) (f : Stream → Stream) : (s.updStream n f).feMark = s.feMark := by
  unfold State.updStream; split <;> rfl
@[simp] theorem State.updStream_stamps (n : Nat) (f : Stream → Stream) : (s.updStream n f).stamps = s.stamps := by
  unfold State.updStream; split <;> rfl
@[simp] theorem State.updStream_marks (n : Nat) (f : Stream → Stream) : (s.updStream n f).marks = s.marks := by
  unfold State.updStream; split <;> rfl
@[simp] theorem State.updStream_writes (n : Nat) (f : Stream → Stream) : (s.updStream n f).writes = s.writes := by
  unfold State.updStream; split <;> rfl
@[simp] theorem State.updStream_bars (n : Nat) (f : Stream → Stream) : (s.updStream n f).bars = s.bars := by
  unfold State.updStream; split <;> rfl
@[simp] theorem State.updStream_barsAt (n : Nat) (f : Stream → Stream) : (s.updStream n f).barsAt = s.barsAt := by
  unfold State.updStream; split <;> rfl
@[simp] theorem State.updStream_bad (n : Nat) (f : Stream → Stream) : (s.updStream n f).bad = s.bad := by
  unfold State.updStream; split <;> rfl
@[simp] theorem State.updStream_encPage (n : Nat) (f : Stream → Stream) : (s.updStream n f).encPage = s.encPage := by
  unfold State.updStream; split <;> rfl
@[simp] theorem State.updStream_enc (n : Nat) (f : Stream → Stream) : (s.updStream n f).enc = s.enc := by
  unfold State.updStream; split <;> rfl
@[simp] theorem State.updStream_dirtyAt (n : Nat) (f : Stream → Stream) : (s.updStream n f).dirtyAt = s.dirtyAt := by
  unfold State.updStream; split <;> rfl
@[simp] theorem State.updStream_dirtyOne (n : Nat) (f : Stream → Stream) : (s.updStream n f).dirtyOne = s.dirtyOne := by
  unfold State.updStream; split <;> rfl
@[simp] theorem State.updStream_dirtySwitch (n : Nat) (f : Stream → Stream) : (s.updStream n f).dirtySwitch = s.dirtySwitch := by
  unfold State.updStream; split <;> rfl
@[simp] theorem State.updStream_mcbs (n : Nat) (f : Stream → Stream) : (s.updStream n f).mcbs = s.mcbs := by
  unfold State.updStream; split <;> rfl
@[simp] theorem State.updStream_cores (n : Nat) (f : Stream → Stream) : (s.updStream n f).cores = s.cores := by
  unfold State.updStream; split <;> rfl
@[simp] theorem State.updStream_bindings (n : Nat) (f : Stream → Stream) : (s.updStream n f).bindings = s.bindings := by
  unfold State.updStream; split <;> rfl
@[simp] theorem State.updStream_nextSerial (n : Nat) (f : Stream → Stream) : (s.updStream n f).nextSerial = s.nextSerial := by
  unfold State.updStream; split <;> rfl
@[simp] theorem State.updStream_islands (n : Nat) (f : Stream → Stream) : (s.updStream n f).islands = s.islands := by
  unfold State.updStream; split <;> rfl
@[simp] theorem State.updStream_parts (n : Nat) (f : Stream → Stream) : (s.updStream n f).parts = s.parts := by
  unfold State.updStream; split <;> rfl
@[simp] theorem State.updStream_granary (n : Nat) (f : Stream → Stream) : (s.updStream n f).granary = s.granary := by
  unfold State.updStream; split <;> rfl
@[simp] theorem State.updStream_sower (n : Nat) (f : Stream → Stream) : (s.updStream n f).sower = s.sower := by
  unfold State.updStream; split <;> rfl
@[simp] theorem State.updStream_sowerRegion (n : Nat) (f : Stream → Stream) : (s.updStream n f).sowerRegion = s.sowerRegion := by
  unfold State.updStream; split <;> rfl
@[simp] theorem State.updStream_sowerLog (n : Nat) (f : Stream → Stream) : (s.updStream n f).sowerLog = s.sowerLog := by
  unfold State.updStream; split <;> rfl
@[simp] theorem State.updStream_rotation (n : Nat) (f : Stream → Stream) : (s.updStream n f).rotation = s.rotation := by
  unfold State.updStream; split <;> rfl
@[simp] theorem State.updStream_nextAccept (n : Nat) (f : Stream → Stream) : (s.updStream n f).nextAccept = s.nextAccept := by
  unfold State.updStream; split <;> rfl
@[simp] theorem State.updStream_ports (n : Nat) (f : Stream → Stream) : (s.updStream n f).ports = s.ports := by
  unfold State.updStream; split <;> rfl
@[simp] theorem State.updStream_breakout (n : Nat) (f : Stream → Stream) : (s.updStream n f).breakout = s.breakout := by
  unfold State.updStream; split <;> rfl
@[simp] theorem State.updStream_ingress (n : Nat) (f : Stream → Stream) : (s.updStream n f).ingress = s.ingress := by
  unfold State.updStream; split <;> rfl
@[simp] theorem State.updStream_slots (n : Nat) (f : Stream → Stream) : (s.updStream n f).slots = s.slots := by
  unfold State.updStream; split <;> rfl
@[simp] theorem State.updStream_qps (n : Nat) (f : Stream → Stream) : (s.updStream n f).qps = s.qps := by
  unfold State.updStream; split <;> rfl
@[simp] theorem State.updStream_tx (n : Nat) (f : Stream → Stream) : (s.updStream n f).tx = s.tx := by
  unfold State.updStream; split <;> rfl
@[simp] theorem State.updStream_lanes (n : Nat) (f : Stream → Stream) : (s.updStream n f).lanes = s.lanes := by
  unfold State.updStream; split <;> rfl
@[simp] theorem State.updStream_jobs (n : Nat) (f : Stream → Stream) : (s.updStream n f).jobs = s.jobs := by
  unfold State.updStream; split <;> rfl
@[simp] theorem State.updStream_ifcs (n : Nat) (f : Stream → Stream) : (s.updStream n f).ifcs = s.ifcs := by
  unfold State.updStream; split <;> rfl
@[simp] theorem State.updStream_pfCompletions (n : Nat) (f : Stream → Stream) : (s.updStream n f).pfCompletions = s.pfCompletions := by
  unfold State.updStream; split <;> rfl
@[simp] theorem State.updStream_waiting (n : Nat) (f : Stream → Stream) : (s.updStream n f).waiting = s.waiting := by
  unfold State.updStream; split <;> rfl
@[simp] theorem State.updStream_hostDeny (n : Nat) (f : Stream → Stream) : (s.updStream n f).hostDeny = s.hostDeny := by
  unfold State.updStream; split <;> rfl
@[simp] theorem State.updStream_inbound (n : Nat) (f : Stream → Stream) : (s.updStream n f).inbound = s.inbound := by
  unfold State.updStream; split <;> rfl
@[simp] theorem State.updStream_mute (n : Nat) (f : Stream → Stream) : (s.updStream n f).mute = s.mute := by
  unfold State.updStream; split <;> rfl
@[simp] theorem State.updStream_pmem (n : Nat) (f : Stream → Stream) : (s.updStream n f).pmem = s.pmem := by
  unfold State.updStream; split <;> rfl
@[simp] theorem State.updStream_bells (n : Nat) (f : Stream → Stream) : (s.updStream n f).bells = s.bells := by
  unfold State.updStream; split <;> rfl
@[simp] theorem State.updStream_rdy (n : Nat) (f : Stream → Stream) : (s.updStream n f).rdy = s.rdy := by
  unfold State.updStream; split <;> rfl
@[simp] theorem State.updStream_mode (n : Nat) (f : Stream → Stream) : (s.updStream n f).mode = s.mode := by
  unfold State.updStream; split <;> rfl
@[simp] theorem State.updStream_hostWalks (n : Nat) (f : Stream → Stream) : (s.updStream n f).hostWalks = s.hostWalks := by
  unfold State.updStream; split <;> rfl
@[simp] theorem State.updStream_harts (n : Nat) (f : Stream → Stream) : (s.updStream n f).harts = s.harts := by
  unfold State.updStream; split <;> rfl
@[simp] theorem State.updStream_master (n : Nat) (f : Stream → Stream) : (s.updStream n f).master = s.master := by
  unfold State.updStream; split <;> rfl
@[simp] theorem State.updStream_lastBeacon (n : Nat) (f : Stream → Stream) : (s.updStream n f).lastBeacon = s.lastBeacon := by
  unfold State.updStream; split <;> rfl
@[simp] theorem State.updStream_nepolRefuses (n : Nat) (f : Stream → Stream) : (s.updStream n f).nepolRefuses = s.nepolRefuses := by
  unfold State.updStream; split <;> rfl
@[simp] theorem State.updStream_controllersRefuse (n : Nat) (f : Stream → Stream) : (s.updStream n f).controllersRefuse = s.controllersRefuse := by
  unfold State.updStream; split <;> rfl
@[simp] theorem State.updStream_portDev (n : Nat) (f : Stream → Stream) : (s.updStream n f).portDev = s.portDev := by
  unfold State.updStream; split <;> rfl
@[simp] theorem State.updStream_portFloor (n : Nat) (f : Stream → Stream) : (s.updStream n f).portFloor = s.portFloor := by
  unfold State.updStream; split <;> rfl
@[simp] theorem State.updStream_mctp (n : Nat) (f : Stream → Stream) : (s.updStream n f).mctp = s.mctp := by
  unfold State.updStream; split <;> rfl
@[simp] theorem State.updStream_power (n : Nat) (f : Stream → Stream) : (s.updStream n f).power = s.power := by
  unfold State.updStream; split <;> rfl
@[simp] theorem State.updStream_coolFor (n : Nat) (f : Stream → Stream) : (s.updStream n f).coolFor = s.coolFor := by
  unfold State.updStream; split <;> rfl
@[simp] theorem State.updStream_device (n : Nat) (f : Stream → Stream) : (s.updStream n f).device = s.device := by
  unfold State.updStream; split <;> rfl
@[simp] theorem State.updStream_exports (n : Nat) (f : Stream → Stream) : (s.updStream n f).exports = s.exports := by
  unfold State.updStream; split <;> rfl
@[simp] theorem State.updStream_windows (n : Nat) (f : Stream → Stream) : (s.updStream n f).windows = s.windows := by
  unfold State.updStream; split <;> rfl
@[simp] theorem State.updStream_performed (n : Nat) (f : Stream → Stream) : (s.updStream n f).performed = s.performed := by
  unfold State.updStream; split <;> rfl
@[simp] theorem State.updStream_nextContribution (n : Nat) (f : Stream → Stream) : (s.updStream n f).nextContribution = s.nextContribution := by
  unfold State.updStream; split <;> rfl
@[simp] theorem State.updStream_switch (n : Nat) (f : Stream → Stream) : (s.updStream n f).switch = s.switch := by
  unfold State.updStream; split <;> rfl
@[simp] theorem State.updStream_counts (n : Nat) (f : Stream → Stream) : (s.updStream n f).counts = s.counts := by
  unfold State.updStream; split <;> rfl
@[simp] theorem State.updStream_linksDown (n : Nat) (f : Stream → Stream) : (s.updStream n f).linksDown = s.linksDown := by
  unfold State.updStream; split <;> rfl

@[simp] theorem coreAt_updStream (n : Nat) (f : Stream → Stream) (k : Nat) : coreAt (s.updStream n f) k = coreAt s k := by simp [coreAt]
@[simp] theorem mcbAt_updStream (n : Nat) (f : Stream → Stream) (m : Nat) : mcbAt (s.updStream n f) m = mcbAt s m := by simp [mcbAt]
@[simp] theorem partAt_updStream (n : Nat) (f : Stream → Stream) (p : Nat) : partAt (s.updStream n f) p = partAt s p := by simp [partAt]

end Sys2Proof.Machine
end

