-- ==== Sys2Proof/Laws/Registers.lean ====
section
/-!
SUPPORT. Registers of a thread: what is read after a write, and what a write leaves.
-/
namespace Sys2Proof.Machine

variable (t : Thread)

@[simp] theorem Thread.getS_zero : t.getS 0 = 0 := rfl
@[simp] theorem Thread.getC_zero : t.getC 0 = Cap.null := rfl
@[simp] theorem Thread.getP_zero : t.getP 0 = true := rfl
@[simp] theorem Thread.setS_zero (v : W64) : t.setS 0 v = t := rfl
@[simp] theorem Thread.setC_zero (v : Cap) : t.setC 0 v = t := rfl
@[simp] theorem Thread.setP_zero (b : Bool) : t.setP 0 b = t := rfl

/-- A scalar register after a write of one: the value, but s0 keeps reading zero. -/
theorem Thread.getS_setS (n m : Nat) (v : W64) : (t.setS n v).getS m = if n = m ∧ n ≠ 0 then v else t.getS m := by
  unfold Thread.setS Thread.getS
  by_cases h : n = 0 <;> by_cases g : m = 0 <;> simp_all

/-- A capability register after a write of one: the value, but c0 keeps reading null. -/
theorem Thread.getC_setC (n m : Nat) (v : Cap) : (t.setC n v).getC m = if n = m ∧ n ≠ 0 then v else t.getC m := by
  unfold Thread.setC Thread.getC
  by_cases h : n = 0 <;> by_cases g : m = 0 <;> simp_all

@[simp] theorem Thread.getC_setS (n m : Nat) (v : W64) : (t.setS n v).getC m = t.getC m := by
  unfold Thread.setS; split <;> rfl
@[simp] theorem Thread.getP_setS (n m : Nat) (v : W64) : (t.setS n v).getP m = t.getP m := by
  unfold Thread.setS; split <;> rfl
@[simp] theorem Thread.getS_setC (n m : Nat) (v : Cap) : (t.setC n v).getS m = t.getS m := by
  unfold Thread.setC; split <;> rfl
@[simp] theorem Thread.getP_setC (n m : Nat) (v : Cap) : (t.setC n v).getP m = t.getP m := by
  unfold Thread.setC; split <;> rfl
@[simp] theorem Thread.getS_setP (n m : Nat) (b : Bool) : (t.setP n b).getS m = t.getS m := by
  unfold Thread.setP; split <;> rfl
@[simp] theorem Thread.getC_setP (n m : Nat) (b : Bool) : (t.setP n b).getC m = t.getC m := by
  unfold Thread.setP; split <;> rfl

@[simp] theorem theThread_onThread (s : State) (f : Thread → Thread) : theThread (onThread s f) = f (theThread s) := by
  simp [theThread, onThread]

@[simp] theorem onThread_mem (s : State) (f : Thread → Thread) : (onThread s f).mem = s.mem := rfl
@[simp] theorem onThread_tags (s : State) (f : Thread → Thread) : (onThread s f).tags = s.tags := rfl
@[simp] theorem onThread_fe (s : State) (f : Thread → Thread) : (onThread s f).fe = s.fe := rfl
@[simp] theorem onThread_mcbs (s : State) (f : Thread → Thread) : (onThread s f).mcbs = s.mcbs := rfl
@[simp] theorem onThread_parts (s : State) (f : Thread → Thread) : (onThread s f).parts = s.parts := rfl
@[simp] theorem onThread_islands (s : State) (f : Thread → Thread) : (onThread s f).islands = s.islands := rfl
@[simp] theorem onThread_turn (s : State) (f : Thread → Thread) : (onThread s f).turn = s.turn := rfl
@[simp] theorem onThread_pt (s : State) (f : Thread → Thread) : (onThread s f).pt = s.pt := rfl

/-- A change of a thread leaves every other core. -/
theorem coreAt_onThread_ne (s : State) (f : Thread → Thread) {k : Nat} (h : s.turn ≠ k) : coreAt (onThread s f) k = coreAt s k := by
  simp [onThread, h]

end Sys2Proof.Machine
end

