-- ==== Sys2Proof/Laws/Words.lean ====
section
/-!
SUPPORT. What a computation of a word does, piece by piece, and when a word completes, faults or holds.
-/
namespace Sys2Proof.Machine

-- Computations

theorem run_pure {α : Type} (x : α) (s : State) : (pure x : M α).run s = .ok x s := rfl

theorem run_bind_ok {α β : Type} {m : M α} {f : α → M β} {s t : State} {x : α} (h : m.run s = .ok x t) :
    (m >>= f).run s = (f x).run t := by
  simp only [EStateM.run] at h ⊢
  simp only [bind, EStateM.bind, h]

theorem run_bind_error {α β : Type} {m : M α} {f : α → M β} {s t : State} {e : Stop} (h : m.run s = .error e t) :
    (m >>= f).run s = .error e t := by
  simp only [EStateM.run] at h ⊢
  simp only [bind, EStateM.bind, h]

/-- What a computation in two parts did, where it went through. -/
theorem run_bind_cases {α β : Type} {m : M α} {f : α → M β} {s u : State} {y : β} (h : (m >>= f).run s = .ok y u) :
    ∃ x t, m.run s = .ok x t ∧ (f x).run t = .ok y u := by
  simp only [EStateM.run, bind, EStateM.bind] at h ⊢
  split at h
  · exact ⟨_, _, by assumption, h⟩
  · cases h

theorem run_map_ok {α β : Type} {m : M α} {f : α → β} {s t : State} {x : α} (h : m.run s = .ok x t) :
    (f <$> m).run s = .ok (f x) t := by
  simp only [EStateM.run] at h ⊢
  simp only [Functor.map, EStateM.map, h]

theorem run_get (s : State) : (get : M State).run s = .ok s s := rfl
theorem run_set (s t : State) : (set t : M Unit).run s = .ok () t := rfl
theorem run_modify (f : State → State) (s : State) : (modify f : M Unit).run s = .ok () (f s) := rfl
theorem run_throw {α : Type} (e : Stop) (s : State) : (throw e : M α).run s = .error e s := rfl
theorem run_raise {α : Type} (cls sub addr : Nat) (s : State) :
    (raise cls sub addr : M α).run s = .error (.fault { cls := cls, sub := sub, addr := w64 addr }) s := rfl
theorem run_self (s : State) : self.run s = .ok s.turn s := rfl
theorem run_core (s : State) : core.run s = .ok (coreAt s s.turn) s := rfl
theorem run_thread (s : State) : thread.run s = .ok (theThread s) s := rfl
theorem run_updCore (f : Core → Core) (s : State) : (updCore f).run s = .ok () (s.updCore s.turn f) := rfl
theorem run_updThread (f : Thread → Thread) (s : State) : (updThread f).run s = .ok () (onThread s f) := rfl
theorem run_readC (n : BitVec 5) (s : State) : (readC n).run s = .ok ((theThread s).getC n.toNat) s := rfl
theorem run_writeC (n : BitVec 5) (c : Cap) (s : State) : (writeC n c).run s = .ok () (onThread s (fun t => t.setC n.toNat c)) := rfl

/-- A scalar register, not a port, is read and nothing changes. -/
theorem reads_register {a : BitVec 6} (h : a.toNat < 56) (s : State) : reads a s ((theThread s).getS a.toNat) s := by
  simp only [reads, readS, h, if_true]; rfl

/-- A scalar register, not a port, is written and nothing else changes. -/
theorem writes_register {d : BitVec 6} (h : d.toNat < 56) (v : W64) (s : State) :
    writes d v s (onThread s (fun t => t.setS d.toNat v)) := by
  simp only [writes, writeS, h, if_true]; rfl

-- Words

/-- A result register that is no port always has room. -/
theorem room_register {d : BitVec 6} (h : d.toNat < 56) (before s : State) : (roomFor before d).run s = .ok () s := by
  simp only [roomFor, h, if_true]; rfl

/-- A word whose body goes through completes. -/
theorem runWord_ok {access flow : Bool} {i : Instr} {body : M Flow} {s t : State} {f : Flow}
    (hl : flow = true → (theThread s).endsLoop = false) (h : body.run s = .ok f t) :
    runWord access flow i body s = .next (wordEnd s t access f) := by
  have hc : (flowCheck flow).run s = .ok () s := by
    cases flow
    · rfl
    · simp only [flowCheck]
      rw [run_bind_ok (run_thread s)]
      simp [hl rfl]
  unfold runWord
  rw [run_bind_ok hc, h]
  rfl

/-- A word whose body stops faults or holds, with nothing left of it but its walks and, for a split load, what it has read. -/
theorem runWord_error {access : Bool} {i : Instr} {body : M Flow} {s t : State} {e : Stop} (h : body.run s = .error e t) :
    runWord access false i body s = halts access s t i e := by
  unfold runWord
  rw [run_bind_ok (show (flowCheck false).run s = .ok () s from rfl), h]
  rfl

/-- A word that may loop back at a flow word faults with SUB 4 of class 2 (R149). -/
theorem runWord_loop_end {access : Bool} {i : Instr} {body : M Flow} {s : State} (h : (theThread s).endsLoop = true) :
    runWord access true i body s = halts access s s i (.fault { cls := 2, sub := 4, addr := w64 0 }) := by
  have hc : (flowCheck true).run s = .error (.fault { cls := 2, sub := 4, addr := w64 0 }) s := by
    simp only [flowCheck]
    rw [run_bind_ok (run_thread s)]
    simp [h]; rfl
  unfold runWord
  rw [run_bind_error hc]
  rfl

/-- The two sources are read in order, and then the result is written, if its port has room for it (R17, R136). -/
theorem run_binary {d a b : BitVec 6} {f : W64 → W64 → W64} {s s1 s2 t : State} {x y : W64}
    (h1 : reads a s x s1) (h2 : reads b s1 y s2) (hr : (roomFor s d).run s2 = .ok () s2) (h3 : writes d (f x y) s2 t) :
    (binary d a b f).run s = .ok .seq t := by
  unfold binary
  rw [run_bind_ok (run_get s), run_bind_ok h1, run_bind_ok h2, run_bind_ok hr, run_bind_ok h3]
  rfl

theorem run_unary {d a : BitVec 6} {f : W64 → W64} {s s1 t : State} {x : W64}
    (h1 : reads a s x s1) (hr : (roomFor s d).run s1 = .ok () s1) (h3 : writes d (f x) s1 t) :
    (unary d a f).run s = .ok .seq t := by
  unfold unary
  rw [run_bind_ok (run_get s), run_bind_ok h1, run_bind_ok hr, run_bind_ok h3]
  rfl

end Sys2Proof.Machine
end

