-- ==== Sys2Proof/Laws/Resolve.lean ====
section
/-!
SUPPORT. What a translation can do to the state: it raises a HORIZON, fills translation caches and counts events, and nothing else,
whether it goes through or stops.
-/
namespace Sys2Proof.Machine

/-- The state in which a computation ends, if it goes through or stops. -/
def endOf {α : Type} (m : M α) (s : State) : State :=
  match m.run s with
  | .ok _ t => t
  | .error _ t => t

/-- A relation that a computation keeps from where it begins to where it ends. -/
def Keeps {α : Type} (R : State → State → Prop) (m : M α) : Prop := ∀ s, R s (endOf m s)

theorem Keeps.ok {α : Type} {R : State → State → Prop} {m : M α} (h : Keeps R m) {s t : State} {x : α} (e : m.run s = .ok x t) : R s t := by
  have := h s; rwa [endOf, e] at this

theorem Keeps.error {α : Type} {R : State → State → Prop} {m : M α} (h : Keeps R m) {s t : State} {x : Stop}
    (e : m.run s = .error x t) : R s t := by
  have := h s; rwa [endOf, e] at this

theorem Keeps.bind {α β : Type} {R : State → State → Prop} {m : M α} {f : α → M β} (tr : ∀ a b c, R a b → R b c → R a c)
    (hm : Keeps R m) (hf : ∀ x, Keeps R (f x)) : Keeps R (m >>= f) := by
  intro s
  rcases h : m.run s with ⟨x, t⟩ | ⟨e, t⟩
  · have := hf x t
    rw [endOf, run_bind_ok h]
    exact tr _ _ _ (hm.ok h) this
  · rw [endOf, run_bind_error h]
    exact hm.error h

theorem Keeps.pure {α : Type} {R : State → State → Prop} (rfl' : ∀ s, R s s) (x : α) : Keeps R (Pure.pure x : M α) := fun s => rfl' s
theorem Keeps.get {R : State → State → Prop} (rfl' : ∀ s, R s s) : Keeps R (MonadState.get : M State) := fun s => rfl' s
theorem Keeps.throw {α : Type} {R : State → State → Prop} (rfl' : ∀ s, R s s) (e : Stop) : Keeps R (throw e : M α) := fun s => rfl' s
theorem Keeps.raise {α : Type} {R : State → State → Prop} (rfl' : ∀ s, R s s) (c u a : Nat) : Keeps R (raise c u a : M α) :=
  fun s => rfl' s
theorem Keeps.waitOn {α : Type} {R : State → State → Prop} (rfl' : ∀ s, R s s) (k : WaitKind) (f u l e : Nat) :
    Keeps R (waitOn k f u l e : M α) := fun s => rfl' s
theorem Keeps.modify {R : State → State → Prop} {f : State → State} (h : ∀ s, R s (f s)) : Keeps R (modify f : M Unit) := h

/-- What a translation may change: translation caches, HORIZONs and counter banks. -/
structure Walked (s t : State) : Prop where
  rest : { t with cores := [], islands := [], mcbs := [], parts := [], streams := [], hostWalks := 0 } =
    { s with cores := [], islands := [], mcbs := [], parts := [], streams := [], hostWalks := 0 }
  core : ∀ k, { coreAt t k with xtlb := [] } = { coreAt s k with xtlb := [] }
  mcb : ∀ m, { mcbAt t m with horizon := 0 } = { mcbAt s m with horizon := 0 }
  part : ∀ p, { partAt t p with banks := [] } = { partAt s p with banks := [] }
  island : ∀ i, { islandAt t i with xtlb2 := [] } = { islandAt s i with xtlb2 := [] }

theorem Walked.refl (s : State) : Walked s s := ⟨rfl, fun _ => rfl, fun _ => rfl, fun _ => rfl, fun _ => rfl⟩

theorem Walked.trans (a b c : State) (h : Walked a b) (g : Walked b c) : Walked a c :=
  ⟨g.rest.trans h.rest, fun k => (g.core k).trans (h.core k), fun m => (g.mcb m).trans (h.mcb m),
    fun p => (g.part p).trans (h.part p), fun i => (g.island i).trans (h.island i)⟩

theorem Walked.mem {s t : State} (h : Walked s t) : t.mem = s.mem := by
  have := congrArg State.mem h.rest; exact this
theorem Walked.tags {s t : State} (h : Walked s t) : t.tags = s.tags := by
  have := congrArg State.tags h.rest; exact this
theorem Walked.fe {s t : State} (h : Walked s t) : t.fe = s.fe := by
  have := congrArg State.fe h.rest; exact this
theorem Walked.stamps {s t : State} (h : Walked s t) : t.stamps = s.stamps := by
  have := congrArg State.stamps h.rest; exact this
theorem Walked.turn {s t : State} (h : Walked s t) : t.turn = s.turn := by
  have := congrArg State.turn h.rest; exact this
theorem Walked.pt {s t : State} (h : Walked s t) : t.pt = s.pt := by
  have := congrArg State.pt h.rest; exact this
theorem Walked.dirtyAt {s t : State} (h : Walked s t) : t.dirtyAt = s.dirtyAt := by
  have := congrArg State.dirtyAt h.rest; exact this
theorem Walked.th {s t : State} (h : Walked s t) (k : Nat) : (coreAt t k).th = (coreAt s k).th := by
  have := congrArg Core.th (h.core k); exact this
theorem Walked.hoard {s t : State} (h : Walked s t) (k : Nat) : (coreAt t k).hoard = (coreAt s k).hoard := by
  have := congrArg Core.hoard (h.core k); exact this
theorem Walked.hold {s t : State} (h : Walked s t) (k : Nat) : (coreAt t k).hold = (coreAt s k).hold := by
  have := congrArg Core.hold (h.core k); exact this
theorem Walked.bound {s t : State} (h : Walked s t) (k : Nat) : (coreAt t k).bound = (coreAt s k).bound := by
  have := congrArg Core.bound (h.core k); exact this
theorem Walked.inv {s t : State} (h : Walked s t) (m : Nat) : (mcbAt t m).inv = (mcbAt s m).inv := by
  have := congrArg Mcb.inv (h.mcb m); exact this
theorem Walked.theThread {s t : State} (h : Walked s t) : theThread t = theThread s := by
  simp only [Machine.theThread, h.turn, h.th]

theorem walked_count (s : State) (p c n : Nat) : Walked s (s.count p c n) := by
  refine ⟨?_, fun k => by simp, fun m => by simp, fun q => ?_, fun i => by simp⟩
  · unfold State.count; split <;> rfl
  · unfold State.count; split
    · rfl
    · simp only [partAt_updPart]; split
      · rename_i h; subst h; rfl
      · rfl

theorem walked_hostWalks (s : State) (p c n x : Nat) : Walked s { s.count p c n with hostWalks := x } :=
  let h := walked_count s p c n
  ⟨h.1, h.2, h.3, h.4, h.5⟩

theorem walked_raiseHorizon (s : State) (m e : Nat) : Walked s (raiseHorizon s m e) := by
  refine ⟨rfl, fun k => rfl, fun n => ?_, fun p => rfl, fun i => rfl⟩
  simp only [raiseHorizon, mcbAt_updMcb]; split
  · rename_i h; subst h; rfl
  · rfl

theorem walked_cacheInstall (s : State) (w : Who) (now : Nat) (e : XEntry) : Walked s (cacheInstall s w now e) := by
  unfold cacheInstall
  split
  · exact Walked.refl s
  split
  · refine ⟨?_, fun k => by simp, fun m => by simp, fun p => by simp, fun i => ?_⟩
    · unfold State.updStream; split <;> rfl
    · unfold State.updStream; split <;> rfl
  split
  · exact Walked.refl s
  · refine ⟨rfl, fun k => ?_, fun m => rfl, fun p => rfl, fun i => ?_⟩
    · simp only [coreAt_updIsland, coreAt_updCore]; split
      · rename_i h; subst h; rfl
      · rfl
    · simp only [islandAt_updIsland, islandAt_updCore]; split
      · rename_i h; subst h; rfl
      · rfl

theorem keeps_ite {α : Type} {R : State → State → Prop} {c : Prop} [Decidable c] {m n : M α} (hm : Keeps R m) (hn : Keeps R n) :
    Keeps R (if c then m else n) := by
  split <;> assumption

theorem Keeps.raise_bind {α β : Type} {R : State → State → Prop} (rfl' : ∀ s, R s s) (c u a : Nat) (f : α → M β) :
    Keeps R (Machine.raise c u a >>= f) := fun s => rfl' s
theorem Keeps.throw_bind {α β : Type} {R : State → State → Prop} (rfl' : ∀ s, R s s) (e : Stop) (f : α → M β) :
    Keeps R (MonadExcept.throw e >>= f) := fun s => rfl' s
theorem Keeps.waitOn_bind {α β : Type} {R : State → State → Prop} (rfl' : ∀ s, R s s) (k : WaitKind) (x u l e : Nat) (f : α → M β) :
    Keeps R (Machine.waitOn k x u l e >>= f) := fun s => rfl' s

theorem walked_cacheDrop (s : State) (w : Who) (obj page : Nat) (d : BitVec 256) (x : W64) : Walked s (cacheDrop s w obj page d x) := by
  unfold cacheDrop
  dsimp only
  split
  · refine ⟨?_, fun k => by simp, fun m => by simp, fun p => by simp, fun i => ?_⟩
    · unfold State.updStream; split <;> rfl
    · unfold State.updStream; split <;> rfl
  split
  · exact Walked.refl s
  · refine ⟨rfl, fun k => ?_, fun m => rfl, fun p => rfl, fun i => ?_⟩
    · simp only [coreAt_updIsland, coreAt_updCore]; split
      · rename_i h; subst h; rfl
      · rfl
    · simp only [islandAt_updIsland, islandAt_updCore]; split
      · rename_i h; subst h; rfl
      · rfl

/-- What a walk reads and grants, once HORIZON stands above its time. -/
theorem walk_keeps (w : Who) (obj sp off : Nat) (a : Access) : Keeps Walked (walk w obj sp off a) := by
  have tr := Walked.trans
  have rf := Walked.refl
  unfold walk
  refine Keeps.bind tr (Keeps.get rf) fun s => ?_
  refine Keeps.bind tr (Keeps.modify fun s => walked_hostWalks s _ _ _ _) fun _ => ?_
  refine Keeps.bind tr (Keeps.modify fun s => walked_raiseHorizon s _ _) fun _ => ?_
  dsimp only
  repeat' first
    | with_reducible exact Keeps.raise rf _ _ _
    | with_reducible exact Keeps.raise_bind rf _ _ _ _
    | with_reducible exact Keeps.waitOn rf _ _ _ _ _
    | with_reducible exact Keeps.pure rf _
    | with_reducible refine Keeps.bind tr (Keeps.modify fun s => walked_cacheDrop s _ _ _ _ _) fun _ => ?_
    | with_reducible refine Keeps.bind tr (Keeps.modify fun s => walked_raiseHorizon s _ _) fun _ => ?_
    | with_reducible refine Keeps.bind tr (Keeps.modify fun s => walked_cacheInstall s _ _ _) fun _ => ?_
    | with_reducible refine Keeps.bind tr (Keeps.pure rf _) fun _ => ?_
    | split

theorem lookCaches_keeps (w : Who) (obj page : Nat) : Keeps Walked (lookCaches w obj page) :=
  Keeps.bind Walked.trans (Keeps.get Walked.refl) fun _ =>
    Keeps.bind Walked.trans (Keeps.modify fun s => walked_count s _ _ _) fun _ => Keeps.pure Walked.refl _

theorem translate_keeps (w : Who) (obj sp off : Nat) (a : Access) (e : Option XEntry) : Keeps Walked (translate w obj sp off a e) := by
  unfold translate
  split
  · split
    · exact Keeps.raise Walked.refl _ _ _
    · exact Keeps.bind Walked.trans (Keeps.get Walked.refl) fun _ => Keeps.pure Walked.refl _
  · exact walk_keeps _ _ _ _ _

/-- Everything that the translation of one byte can do. -/
theorem resolve_keeps (w : Who) (obj sp off : Nat) (a : Access) : Keeps Walked (resolve w obj sp off a) := by
  have tr := Walked.trans
  have rf := Walked.refl
  unfold resolve
  refine Keeps.bind tr (Keeps.get rf) fun s => ?_
  split
  · exact Keeps.pure rf _
  · dsimp only
    repeat' first
      | with_reducible exact Keeps.throw_bind rf _ _
      | with_reducible exact Keeps.waitOn_bind rf _ _ _ _ _ _
      | with_reducible exact Keeps.pure rf _
      | with_reducible refine Keeps.bind tr (Keeps.pure rf _) fun _ => ?_
      | with_reducible refine Keeps.bind tr (lookCaches_keeps _ _ _) fun _ => ?_
      | with_reducible refine Keeps.bind tr (translate_keeps _ _ _ _ _ _) fun _ => ?_
      | with_reducible refine Keeps.bind tr (Keeps.get rf) fun _ => ?_
      | split

/-- The same for every page of a range. -/
theorem resolveAll_keeps (w : Who) (obj sp : Nat) (a : Access) (ps : List (Nat × Nat)) : Keeps Walked (resolveAll w obj sp a ps) := by
  induction ps with
  | nil => exact Keeps.pure Walked.refl _
  | cons p ps ih =>
    exact Keeps.bind Walked.trans (resolve_keeps _ _ _ _ _) fun _ => Keeps.bind Walked.trans ih fun _ => Keeps.pure Walked.refl _

/-- A translation that goes through leaves memory, tags, full/empty bits, the running thread and the hoard logs. -/
theorem resolve_frame {w : Who} {obj sp off : Nat} {a : Access} {s t : State} {r : Res} (h : does (resolve w obj sp off a) s r t) :
    Walked s t := (resolve_keeps w obj sp off a).ok h

theorem resolveAll_frame {w : Who} {obj sp : Nat} {a : Access} {ps : List (Nat × Nat)} {s t : State} {rs : List (Nat × Nat × Res)}
    (h : does (resolveAll w obj sp a ps) s rs t) : Walked s t := (resolveAll_keeps w obj sp a ps).ok h

-- The checks of a capability

/-- A capability that admits an access passes the checks, which change nothing. -/
theorem checkCap_ok {c : Cap} {need : BitVec 12} {ea : Int} {n : Nat} (h : admits c need ea n) (s : State) :
    (checkCap c need ea n).run s = .ok ea.toNat s := by
  obtain ⟨ht, hv, h0, h1, hl, hh, hp, hs⟩ := h
  unfold checkCap
  rw [if_neg (by simp [Cap.valid, ht, hv]), if_neg (by simp; omega)]
  dsimp only
  rw [if_neg (by simp; omega), if_neg (by simp [Cap.has, hp]), if_neg (by omega)]
  rfl

end Sys2Proof.Machine
end

