-- ==== Sys2Proof/Laws/Faults.lean ====
section
/-!
SUPPORT. What the report of a fault leaves: it raises the halt line, or starts a kill, and, where no wait ring takes the records of
waits that end and no interface has rings, no byte of memory, no tag, no full/empty bit and no thread register changes until the halt is released.
-/
namespace Sys2Proof.Machine

/-- Memory, tags, full/empty bits, every thread's registers and the places of all rings stand as they were. -/
structure Untouched (s t : State) : Prop where
  mem : t.mem = s.mem
  tags : t.tags = s.tags
  fe : t.fe = s.fe
  turn : t.turn = s.turn
  th : ∀ k, (coreAt t k).th = (coreAt s k).th
  ring : ∀ p, (partAt t p).waitRing = (partAt s p).waitRing
  ifcs : ∀ p, ringIfcs t p = ringIfcs s p

theorem Untouched.refl (s : State) : Untouched s s := ⟨rfl, rfl, rfl, rfl, fun _ => rfl, fun _ => rfl, fun _ => rfl⟩

theorem Untouched.trans {a b c : State} (h : Untouched a b) (g : Untouched b c) : Untouched a c :=
  ⟨g.mem.trans h.mem, g.tags.trans h.tags, g.fe.trans h.fe, g.turn.trans h.turn, fun k => (g.th k).trans (h.th k),
    fun p => (g.ring p).trans (h.ring p), fun p => (g.ifcs p).trans (h.ifcs p)⟩

theorem Untouched.ringless {s t : State} (h : Untouched s t) (r : Ringless s) : Ringless t := fun p => by
  rw [h.ring, h.ifcs]; exact r p

theorem Untouched.foldl {α : Type} {f : State → α → State} (h : ∀ s a, Ringless s → Untouched s (f s a)) (l : List α) (s : State)
    (r : Ringless s) : Untouched s (l.foldl f s) := by
  induction l generalizing s with
  | nil => exact .refl s
  | cons a l ih => exact (h s a r).trans (ih _ ((h s a r).ringless r))

theorem untouched_updCore (s : State) (k : Nat) (f : Core → Core) (h : ∀ c, (f c).th = c.th) : Untouched s (s.updCore k f) := by
  refine ⟨rfl, rfl, rfl, rfl, fun j => ?_, fun _ => rfl, fun _ => rfl⟩
  rw [coreAt_updCore]; split
  · rename_i g; subst g; exact h _
  · rfl

theorem untouched_updInv (s : State) (m : Nat) (f : Inv → Inv) : Untouched s (s.updInv m f) :=
  ⟨rfl, rfl, rfl, rfl, fun _ => rfl, fun _ => rfl, fun _ => rfl⟩
theorem untouched_updLane (s : State) (l : Nat) (f : Lane → Lane) : Untouched s (s.updLane l f) :=
  ⟨rfl, rfl, rfl, rfl, fun _ => rfl, fun _ => rfl, fun _ => rfl⟩

theorem untouched_updPart (s : State) (p : Nat) (f : Partition → Partition) (h : ∀ x, (f x).waitRing = x.waitRing) :
    Untouched s (s.updPart p f) := by
  refine ⟨rfl, rfl, rfl, rfl, fun _ => rfl, fun q => ?_, fun _ => rfl⟩
  rw [partAt_updPart]; split
  · rename_i g; subst g; exact h _
  · rfl

theorem untouched_count (s : State) (p c n : Nat) : Untouched s (s.count p c n) := by
  unfold State.count; split
  · exact .refl s
  · exact untouched_updPart _ _ _ fun _ => rfl

theorem untouched_countCore (s : State) (k c n : Nat) : Untouched s (s.countCore k c n) := by
  unfold State.countCore; split
  · exact .refl s
  · exact untouched_count _ _ _ _

theorem untouched_pushWait (s : State) (p : Nat) (bs : List Byte) (r : Ringless s) : Untouched s (pushWait s p bs) := by
  unfold pushWait
  dsimp only
  split
  · have := (r p).1
    omega
  · exact untouched_updPart _ _ _ fun _ => rfl

theorem untouched_recordHold (pre s : State) (k out : Nat) (h : Hold) (r : Ringless s) : Untouched s (recordHold pre s k out h) := by
  unfold recordHold; split
  · exact .refl s
  · exact untouched_pushWait _ _ _ r

theorem untouched_countHold (s : State) (k : Nat) (h : Hold) : Untouched s (countHold s k h) := by
  unfold countHold; split
  · exact .refl s
  · exact untouched_updCore _ _ _ fun _ => rfl

theorem untouched_dropHold (pre s : State) (k out : Nat) (r : Ringless s) : Untouched s (dropHold pre s k out) := by
  unfold dropHold; split
  · exact .refl s
  · exact ((untouched_recordHold _ _ _ _ _ r).trans (untouched_countHold _ _ _)).trans (untouched_updCore _ _ _ fun _ => rfl)

theorem untouched_cutHold (s : State) (k out : Nat) (r : Ringless s) : Untouched s (cutHold s k out) := by
  unfold cutHold; split
  · exact .refl s
  · split
    · exact untouched_dropHold _ _ _ _ r
    · exact .refl s

theorem untouched_endHoardWait (pre s : State) (k out : Nat) (h : Hoard) (r : Ringless s) : Untouched s (endHoardWait pre s k out h) := by
  unfold endHoardWait; split
  · exact untouched_pushWait _ _ _ r
  · exact .refl s

theorem untouched_stopEngines (s : State) (m out : Nat) (r : Ringless s) : Untouched s (stopEngines s m out) :=
  Untouched.foldl (fun s k r => by
    split
    · exact (untouched_cutHold s k out r).trans (untouched_updCore _ k _ fun _ => rfl)
    · exact .refl s) _ _ r

theorem untouched_releaseLanes (s : State) (m : Nat) (r : Ringless s) : Untouched s (releaseLanes s m) :=
  Untouched.foldl (fun s l _ => by
    split
    · exact untouched_updLane _ _ _
    · split
      · exact untouched_updLane _ _ _
      · exact .refl s) _ _ r

theorem untouched_startKill (s : State) (m : Nat) (status : Byte) (r : Ringless s) : Untouched s (startKill s m status) := by
  unfold startKill
  split
  · exact .refl s
  split
  · exact .refl s
  · have h1 := untouched_updInv s m (fun i => { i with kill := some status, killRecords := plotRecords s m 4 })
    have h2 := h1.trans (untouched_stopEngines _ m 2 (h1.ringless r))
    refine h2.trans ?_
    have h3 := Untouched.foldl (f := fun s k => ((coreAt s k).hoard.foldl (fun s h => endHoardWait s s k 2 h) s).updCore k
      (fun c => { c with hoard := [], posted := [] })) (fun s k r =>
        (Untouched.foldl (fun s h r => untouched_endHoardWait s s k 2 h r) _ s r).trans (untouched_updCore _ k _ fun _ => rfl))
      (mcbAt (stopEngines (s.updInv m (fun i => { i with kill := some status, killRecords := plotRecords s m 4 })) m 2) m).plot _
      (h2.ringless r)
    exact h3.trans (untouched_releaseLanes _ m (h3.ringless (h2.ringless r)))

/-- Signals of the rings name the interfaces that have them as before. -/
theorem ringIfcs_signal (s : State) (p : Nat) (c : Nat × Ifc → Bool) (n : Nat) :
    ringIfcs { s with ifcs := s.ifcs.map (fun e => if c e then (e.1, { e.2 with msix := e.2.msix + n }) else e) } p = ringIfcs s p := by
  unfold ringIfcs
  rw [List.filterMap_map]
  congr 1
  funext e
  simp only [Function.comp]
  split <;> rfl

/-- Where no interface has rings, entries go to the partition's rings alone. -/
theorem untouched_updRings (s : State) (p : Nat) (f : Partition → Partition) (h : ∀ x, (f x).waitRing = x.waitRing) (r : Ringless s) :
    Untouched s (s.updRings p f) := by
  have h1 := untouched_updPart s p (consumed s p) fun _ => rfl
  have h2 := h1.trans (untouched_updPart (s.updPart p (consumed s p)) p f h)
  unfold State.updRings
  simp only [((h1.ringless r) p).2, List.foldl_nil]
  exact h2.trans ⟨rfl, rfl, rfl, rfl, fun _ => rfl, fun _ => rfl, fun q => ringIfcs_signal _ _ _ _⟩

theorem untouched_report (s : State) (k : Nat) (f : FaultRec) (r : Ringless s) : Untouched s (report s k f) := by
  unfold report
  split
  · exact .refl s
  · rename_i m _
    dsimp only
    have h0 : Untouched s (if f.cls = 6 then s.countCore k 11 1 else s) := by
      split
      · exact untouched_countCore _ _ _ _
      · exact .refl s
    generalize ({ f with record := _ } : FaultRec) = g
    have h := h0.trans (untouched_updCore _ k (fun c => { c with pending := insertReport c.pending g }) fun _ => rfl)
    revert h
    generalize State.updCore (if f.cls = 6 then s.countCore k 11 1 else s) k
      (fun c => { c with pending := insertReport c.pending g }) = s1
    intro h
    have r1 := h.ringless r
    refine h.trans ?_
    split
    · exact .refl _
    split
    · exact .refl _
    split
    · exact untouched_startKill _ _ _ r1
    split
    · exact .refl _
    split
    · have g := (untouched_updInv s1 m (fun i => { i with held := true }))
      have e := g.trans (untouched_stopEngines _ m 1 (g.ringless r1))
      exact e.trans (untouched_updRings _ _ _ (fun _ => rfl) (e.ringless r1))
    · have g := (untouched_updInv s1 m (fun i => { i with faultHalt := true }))
      exact g.trans (untouched_stopEngines _ m 1 (g.ringless r1))

/-- A precise fault of a word leaves memory and every register: the handler is entered when the halt is released. -/
theorem untouched_threadFault (s : State) (k : Nat) (f : FaultRec) (r : Ringless s) : Untouched s (threadFault s k f) := by
  unfold threadFault
  split
  · split
    · exact .refl s
    · have h0 : Untouched s (if f.cls = 6 then s.countCore k 11 1 else s) := by
        split
        · exact untouched_countCore _ _ _ _
        · exact .refl s
      have h := fun g => h0.trans (untouched_updCore _ k (fun c => { c with pending := insertReport c.pending g }) fun _ => rfl)
      exact (h _).trans (untouched_startKill _ _ _ ((h _).ringless r))
  · exact untouched_report s k f r

/-- A change of what each key holds keeps what is found there, but for the change. -/
theorem mapFind_map {α : Type} (m : SMap α) (g : Nat → α → α) (k : Nat) :
    mapFind (m.map (fun e => (e.1, g e.1 e.2))) k = (mapFind m k).map (g k) := by
  induction m with
  | nil => rfl
  | cons e m ih =>
    by_cases h : e.1 = k
    · subst h; simp [mapFind]
    · simp [mapFind, h, ih]

theorem partAt_rollBack (s t : State) (p : Nat) : (partAt (rollBack s t) p).waitRing = (partAt s p).waitRing := by
  have h := mapFind_map s.parts (fun k x => { x with banks := (partAt t k).banks }) p
  unfold partAt rollBack
  simp only [mapGet] at h ⊢
  rw [h]
  cases mapFind s.parts p <;> rfl

theorem untouched_rollBack (s t : State) : Untouched s (rollBack s t) := by
  refine ⟨rfl, rfl, rfl, rfl, fun k => ?_, partAt_rollBack s t, fun _ => rfl⟩
  show (mapGet Core.reset (mapSet Core.reset s.cores s.turn _) k).th = _
  rw [mapGet_set]; split
  · rename_i g; subst g; rfl
  · rfl

theorem untouched_countIssue (pre s : State) (k : Nat) (access : Bool) : Untouched s (countIssue pre s k access) := by
  unfold countIssue; split
  · exact .refl s
  · exact untouched_updCore _ _ _ fun _ => rfl

/-- A word that faults leaves memory, tags, full/empty bits and every register as they were, where no ring takes a record. -/
theorem halts_fault_frame {access : Bool} {s s1 t : State} {i : Instr} {f : FaultRec} (r : Ringless s)
    (h : halts access s s1 i (.fault f) = .next t) : Untouched s t := by
  have h1 := untouched_rollBack s s1
  have h2 := h1.trans (untouched_dropHold s _ s.turn (((coreAt s s.turn).hold.map Hold.outcome).getD 0) (h1.ringless r))
  have h3 : Untouched s (if f.cls = 2 then dropHold s (rollBack s s1) s.turn (((coreAt s s.turn).hold.map Hold.outcome).getD 0)
      else countIssue s (dropHold s (rollBack s s1) s.turn (((coreAt s s.turn).hold.map Hold.outcome).getD 0)) s.turn access) := by
    split
    · exact h2
    · exact h2.trans (untouched_countIssue _ _ _ _)
  rw [(Host.Outcome.next.inj h).symm]
  exact h3.trans (untouched_threadFault _ _ _ (h3.ringless r))

end Sys2Proof.Machine
end

