-- ==== Sys2Proof/Laws/Canonical.lean ====
section
/-!
SUPPORT. The canonical form of memory through the operations that words share: reads, writes, counts, waits, faults, and the end of a
word.
-/
namespace Sys2Proof.Machine

theorem wf_reset : Memory.wf State.reset.mem = true := rfl

/-- A computation keeps memory canonical, whether it goes through or stops. -/
abbrev KeepsWf {α : Type} (m : M α) : Prop := Keeps (fun s t => Memory.wf s.mem = true → Memory.wf t.mem = true) m

theorem KeepsWf.of_walked {α : Type} {m : M α} (h : Keeps Walked m) : KeepsWf m := fun s g => by rw [(h s).mem]; exact g

theorem KeepsWf.bind {α β : Type} {m : M α} {f : α → M β} (hm : KeepsWf m) (hf : ∀ x, KeepsWf (f x)) : KeepsWf (m >>= f) :=
  Keeps.bind (fun _ _ _ h g a => g (h a)) hm hf

theorem KeepsWf.pure {α : Type} (x : α) : KeepsWf (Pure.pure x : M α) := fun _ g => g
theorem KeepsWf.get : KeepsWf (MonadState.get : M State) := fun _ g => g
theorem keepsWf_modify {f : State → State} (h : ∀ s, Memory.wf s.mem = true → Memory.wf (f s).mem = true) :
    KeepsWf (modify f : M Unit) := h
theorem keepsWf_modify_mem {f : State → State} (h : ∀ s, (f s).mem = s.mem) : KeepsWf (modify f : M Unit) :=
  fun s g => by show Memory.wf (f s).mem = true; rw [h]; exact g
theorem KeepsWf.raise {α : Type} (c u a : Nat) : KeepsWf (Machine.raise c u a : M α) := fun _ g => g
theorem KeepsWf.waitOn {α : Type} (k : WaitKind) (f u l e : Nat) : KeepsWf (Machine.waitOn k f u l e : M α) := fun _ g => g
theorem KeepsWf.resolve (w : Who) (obj sp off : Nat) (a : Access) : KeepsWf (resolve w obj sp off a) :=
  .of_walked (resolve_keeps w obj sp off a)
theorem KeepsWf.resolveAll (w : Who) (obj sp : Nat) (a : Access) (ps : List (Nat × Nat)) : KeepsWf (resolveAll w obj sp a ps) :=
  .of_walked (resolveAll_keeps w obj sp a ps)

-- Bytes written

theorem wf_markBytes {s : State} (w : Who) (rel : EdgeSet) (k n : Nat) (h : Memory.wf s.mem = true) :
    Memory.wf (markBytes s w rel k n).mem = true := h

theorem wf_stampLines {s : State} (w : Who) (region k n : Nat) (h : Memory.wf s.mem = true) :
    Memory.wf (stampLines s w region k n).mem = true := by
  unfold stampLines; split <;> exact h

/-- A count goes on its way, and no byte changes. -/
theorem countAccess_mem (s : State) (w : Who) (obj off n : Nat) (r : Res) : (countAccess s w obj off n r).mem = s.mem := by
  unfold countAccess; split <;> rfl

theorem wf_countAccess {s : State} (w : Who) (obj off n : Nat) (r : Res) (h : Memory.wf s.mem = true) :
    Memory.wf (countAccess s w obj off n r).mem = true := by rw [countAccess_mem]; exact h

theorem learn_mem (s : State) (w : Who) (k n : Nat) : (learn s w k n).mem = s.mem := by
  unfold learn; split
  · dsimp only; split <;> rfl
  · rfl

theorem wf_learn {s : State} (w : Who) (k n : Nat) (h : Memory.wf s.mem = true) : Memory.wf (learn s w k n).mem = true := by
  rw [learn_mem]; exact h

theorem KeepsWf.writePiece (w : Who) (rel : EdgeSet) (region obj off : Nat) (r : Res) (bs : List Byte) :
    KeepsWf (writePiece w rel region obj off r bs) :=
  keepsWf_modify fun _ h => wf_countAccess _ _ _ _ _ (wf_markBytes _ _ _ _ (wf_stampLines _ _ _ _ (wf_putBytes _ _ _ h)))

theorem KeepsWf.watchAccess (w : Who) (kind : WatchKind) (off : Nat) (r : Res) (n : Nat) : KeepsWf (watchAccess w kind off r n) := by
  unfold Machine.watchAccess
  refine .bind .get fun s => ?_
  split
  · exact .pure _
  · split
    · exact .pure _
    · exact .bind (keepsWf_modify fun _ h => h) fun _ => .pure _

theorem KeepsWf.sowerPut (m idx : Nat) (bs : List Byte) : KeepsWf (sowerPut m idx bs) := by
  unfold Machine.sowerPut
  refine .bind .get fun s => .bind (.resolve _ _ _ _ _) fun r => .bind (keepsWf_modify fun s h => ?_) fun _ => .bind (.watchAccess _ _ _ _ _) fun _ => .pure _
  exact wf_countAccess _ _ _ _ _ (wf_markBytes _ _ _ _ (wf_stampLines _ _ _ _ (wf_putBytes _ _ _ h)))

theorem wf_sowerWrite {s : State} (m idx : Nat) (bs : List Byte) (h : Memory.wf s.mem = true) :
    Memory.wf (sowerWrite s m idx bs).mem = true := by
  unfold sowerWrite
  dsimp only
  split
  · exact h
  · split
    · rename_i e; have x := (KeepsWf.sowerPut _ _ _).ok e h; exact x
    · rename_i e; have x := (KeepsWf.sowerPut _ _ _).error e h; exact x
    · rename_i e; have x := (KeepsWf.sowerPut _ _ _).error e h; exact x

theorem wf_sowerReplay {s : State} (m : Nat) (h : Memory.wf s.mem = true) : Memory.wf (sowerReplay s m).mem = true := by
  unfold sowerReplay
  split
  · exact h
  · split
    · rename_i e; have x := (KeepsWf.sowerPut _ _ _).error e h; exact x
    · rename_i e; have x := (KeepsWf.sowerPut _ _ _).ok e h; exact x
    · rename_i e; have x := (KeepsWf.sowerPut _ _ _).error e h; exact x

theorem wf_enqueueAt {s : State} (m : Nat) (desc : BitVec 512) (payload : List Byte) (msg : Option Message) (edges : EdgeSet)
    (stream : Option Nat) (arrived : Nat) (h : Memory.wf s.mem = true) :
    Memory.wf (enqueueAt s m desc payload msg edges stream arrived).mem = true :=
  wf_sowerWrite (s := { s with free := s.free + 1 }) _ _ _ h

/-- What a ring gains is written to host memory by `putBytes` alone (R433). -/
theorem wf_writeRing {s : State} (x : BitVec 20 × W64) (n : Nat) (old new : Ring) (h : Memory.wf s.mem = true) :
    Memory.wf (writeRing x n old new s).mem = true := by
  unfold writeRing
  dsimp only
  split
  · exact h
  · exact wf_putBytes _ _ _ (foldl_keeps (P := fun s : State => Memory.wf s.mem = true) (fun _ _ hs => wf_putBytes _ _ _ hs) _ _ h)

theorem wf_updRings {s : State} (part : Nat) (f : Partition → Partition) (h : Memory.wf s.mem = true) :
    Memory.wf (s.updRings part f).mem = true := by
  unfold State.updRings
  dsimp only
  exact foldl_keeps (P := fun s : State => Memory.wf s.mem = true)
    (fun _ _ hs => wf_writeRing _ _ _ _ (wf_writeRing _ _ _ _ (wf_writeRing _ _ _ _ (wf_writeRing _ _ _ _ hs)))) _ _ h

theorem wf_notifyCount {s : State} (m : Nat) (d : BitVec 256) (obj page : Nat) (h : Memory.wf s.mem = true) :
    Memory.wf (notifyCount s m d obj page).mem = true := by
  unfold notifyCount
  dsimp only
  split
  · split
    · exact wf_updRings _ _ h
    · exact h
  · split
    · exact h
    · exact wf_enqueueAt _ _ _ _ _ _ _ h

/-- An increment of a page's count keeps the canonical form (R202). -/
theorem wf_performIncrement {s : State} (c : PendingCount) (h : Memory.wf s.mem = true) : Memory.wf (performIncrement s c).mem = true := by
  unfold performIncrement
  dsimp only
  split
  · exact h
  · have := wf_markDirty (s := { s with mem := memWrite s.mem (c.extKey + 6) (leBytes 2 (memNat s.mem (c.extKey + 6) 2 + 1)) })
      (keySpace (c.extKey + 6)) (keyAddr (c.extKey + 6)) (Memory.wf_memWrite _ _ h)
    revert this
    generalize markDirty _ (keySpace (c.extKey + 6)) (keyAddr (c.extKey + 6)) = u
    intro this
    have both : ∀ n : Nat, Memory.wf (if (memNat s.mem (c.extKey + 6) 2 + 1 == n) = true then notifyCount u c.mcb c.dir c.obj c.page
        else u).mem = true := fun n => by
      split
      · exact wf_notifyCount _ _ _ _ this
      · exact this
    exact both _

theorem KeepsWf.raceCheck (w : Who) (write : Bool) (off : Nat) (r : Res) (n : Nat) : KeepsWf (raceCheck w write off r n) := by
  unfold Machine.raceCheck
  refine .bind .get fun s => ?_
  split
  · exact .pure _
  · exact .raise _ _ _

theorem KeepsWf.checkLines (off : Nat) (r : Res) (n : Nat) : KeepsWf (checkLines off r n) := by
  unfold Machine.checkLines
  refine .bind .get fun s => ?_
  split
  · exact .pure _
  · exact .raise _ _ _

theorem KeepsWf.readPiece (w : Who) (obj off : Nat) (r : Res) (n : Nat) : KeepsWf (readPiece w obj off r n) :=
  .bind .get fun _ => .pure _

theorem KeepsWf.readPieces (w : Who) (race : Bool) (kind : WatchKind) (obj : Nat) (ps : List (Nat × Nat × Res)) :
    KeepsWf (readPieces w race kind obj ps) := by
  induction ps with
  | nil => exact .pure _
  | cons p ps ih =>
    have rest : KeepsWf (do
        Machine.checkLines p.1 p.2.2 p.2.1
        let bs ← Machine.readPiece w obj p.1 p.2.2 p.2.1
        let (more, hit') ← Machine.readPieces w race kind obj ps
        modify (fun s => learn (countAccess s w obj p.1 p.2.1 p.2.2) w p.2.2.key p.2.1)
        let hit ← Machine.watchAccess w kind p.1 p.2.2 p.2.1
        return (bs ++ more, hit.or hit')) :=
      .bind (.checkLines _ _ _) fun _ => .bind (.readPiece _ _ _ _ _) fun _ => .bind ih fun _ =>
        .bind (keepsWf_modify fun _ h => wf_learn _ _ _ (wf_countAccess _ _ _ _ _ h)) fun _ => .bind (.watchAccess _ _ _ _ _) fun _ => .pure _
    unfold Machine.readPieces
    dsimp only
    split
    · exact .bind (.raceCheck _ _ _ _ _) fun _ => rest
    · exact rest

-- Waits and the end of a word

theorem wf_pushWait {s : State} (part : Nat) (bs : List Byte) (h : Memory.wf s.mem = true) : Memory.wf (pushWait s part bs).mem = true := by
  unfold pushWait
  dsimp only
  split
  · exact wf_putBytes _ _ _ h
  · exact h

theorem wf_recordHold {s : State} (pre : State) (k out : Nat) (g : Hold) (h : Memory.wf s.mem = true) :
    Memory.wf (recordHold pre s k out g).mem = true := by
  unfold recordHold; split
  · exact h
  · exact wf_pushWait _ _ h

theorem countHold_mem (s : State) (k : Nat) (g : Hold) : (countHold s k g).mem = s.mem := by
  unfold countHold; split <;> rfl

theorem wf_dropHold {s : State} (pre : State) (k out : Nat) (h : Memory.wf s.mem = true) : Memory.wf (dropHold pre s k out).mem = true := by
  unfold dropHold; split
  · exact h
  · show Memory.wf (countHold _ _ _).mem = true
    rw [countHold_mem]; exact wf_recordHold _ _ _ _ h

theorem wf_cutHold {s : State} (k out : Nat) (h : Memory.wf s.mem = true) : Memory.wf (cutHold s k out).mem = true := by
  unfold cutHold; split
  · exact h
  · split
    · exact wf_dropHold _ _ _ h
    · exact h

theorem wf_endHoardWait {s : State} (pre : State) (k out : Nat) (g : Hoard) (h : Memory.wf s.mem = true) :
    Memory.wf (endHoardWait pre s k out g).mem = true := by
  unfold endHoardWait; split
  · exact wf_pushWait _ _ h
  · exact h

theorem wf_stopEngines {s : State} (m out : Nat) (h : Memory.wf s.mem = true) : Memory.wf (stopEngines s m out).mem = true :=
  foldl_keeps (P := fun s : State => Memory.wf s.mem = true) (fun s k hs => by
    split
    · exact wf_cutHold k out hs
    · exact hs) _ _ h

theorem wf_startKill {s : State} (m : Nat) (status : Byte) (h : Memory.wf s.mem = true) : Memory.wf (startKill s m status).mem = true := by
  unfold startKill
  split
  · exact h
  split
  · exact h
  · refine foldl_keeps (P := fun s : State => Memory.wf s.mem = true) (fun s l hs => ?_) _ _ ?_
    · split
      · exact hs
      · split <;> exact hs
    · refine foldl_keeps (P := fun s : State => Memory.wf s.mem = true) (fun s k hs => ?_) _ _ (wf_stopEngines _ _ ?_)
      · exact foldl_keeps (P := fun s : State => Memory.wf s.mem = true) (fun s g hs => wf_endHoardWait _ _ _ g hs) _ _ hs
      · exact h

theorem wf_countCore {s : State} (k c n : Nat) (h : Memory.wf s.mem = true) : Memory.wf (s.countCore k c n).mem = true := by
  simpa using h

theorem wf_report {s : State} (k : Nat) (f : FaultRec) (h : Memory.wf s.mem = true) : Memory.wf (report s k f).mem = true := by
  unfold report
  split
  · exact h
  · rename_i m _
    dsimp only
    have h0 : Memory.wf (if f.cls = 6 then s.countCore k 11 1 else s).mem = true := by
      split
      · exact wf_countCore _ _ _ h
      · exact h
    generalize ({ f with record := _ } : FaultRec) = g
    have h1 : Memory.wf (State.updCore (if f.cls = 6 then s.countCore k 11 1 else s) k
      (fun c => { c with pending := insertReport c.pending g })).mem = true := h0
    revert h1
    generalize State.updCore (if f.cls = 6 then s.countCore k 11 1 else s) k _ = s1
    intro h1
    split
    · exact h1
    split
    · exact h1
    split
    · exact wf_startKill _ _ h1
    split
    · exact h1
    split
    · exact wf_updRings _ _ (wf_stopEngines m 1 h1)
    · exact wf_stopEngines m 1 h1

theorem wf_threadFault {s : State} (k : Nat) (f : FaultRec) (h : Memory.wf s.mem = true) : Memory.wf (threadFault s k f).mem = true := by
  unfold threadFault
  split
  · split
    · exact h
    · refine wf_startKill _ _ ?_
      split
      · exact wf_countCore _ _ _ h
      · exact h
  · exact wf_report _ _ h

theorem wf_completeWord {s : State} (k : Nat) (f : Flow) (h : Memory.wf s.mem = true) :
    Memory.wf (completeWord s k f).mem = true := by simpa [completeWord] using h

theorem wf_countIssue {s : State} (pre : State) (k : Nat) (access : Bool) (h : Memory.wf s.mem = true) :
    Memory.wf (countIssue pre s k access).mem = true := by
  unfold countIssue; split <;> exact h

theorem wf_holdAt {s : State} (k : Nat) (i : Instr) (g : Hold) (h : Memory.wf s.mem = true) : Memory.wf (holdAt s k i g).mem = true := by
  unfold holdAt
  dsimp only
  split
  · split
    · simpa [promote] using h
    · exact h
  · rename_i o _
    have h1 : Memory.wf (countHold s k o).mem = true := by rw [countHold_mem]; exact h
    split
    · split <;> exact h
    · split <;> split
      all_goals first
        | simpa [promote] using h1
        | simpa [promote] using wf_recordHold (countHold s k o) k 0 o h1

/-- Whatever stops a word, what it leaves is canonical. -/
theorem wf_halts {access : Bool} {s u t : State} {i : Instr} {e : Stop} (hs : Memory.wf s.mem = true) (hu : Memory.wf u.mem = true)
    (h : halts access s u i e = .next t) : Memory.wf t.mem = true := by
  have hc : ∀ v : State, Memory.wf v.mem = true → Memory.wf (countIssue s v s.turn access).mem = true :=
    fun _ hv => wf_countIssue _ _ _ hv
  cases e with
  | fault f =>
    rw [(Host.Outcome.next.inj h).symm]
    refine wf_threadFault _ _ ?_
    dsimp only
    have hd : Memory.wf (dropHold s (rollBack s u) s.turn (((coreAt s s.turn).hold.map Hold.outcome).getD 0)).mem = true :=
      wf_dropHold _ _ _ hs
    split
    · exact hd
    · exact hc _ hd
  | wait g =>
    have ht : Memory.wf (if g.kind = .pieces then keepReads s u else rollBack s u).mem = true := by
      split
      · exact hu
      · exact hs
    unfold halts stopped at h
    dsimp only at h
    split at h
    · rw [(Host.Outcome.next.inj h).symm]; exact wf_holdAt _ _ _ ht
    · rw [(Host.Outcome.next.inj h).symm]; exact wf_holdAt _ _ _ (hc _ ht)
  | hard f => cases h

/-- A word that starts in a canonical memory leaves one, if its body does. -/
theorem wf_runWord {access flow : Bool} {i : Instr} {body : M Flow} {s t : State} (hb : KeepsWf body) (hs : Memory.wf s.mem = true)
    (h : runWord access flow i body s = .next t) : Memory.wf t.mem = true := by
  have hk : KeepsWf (do flowCheck flow; body) := by
    refine .bind ?_ fun _ => hb
    unfold flowCheck
    refine .bind (fun _ g => g) fun t => ?_
    split
    · exact .raise _ _ _
    · exact .pure _
  unfold runWord at h
  split at h
  · rename_i e
    have : t = _ := (Host.Outcome.next.inj h).symm
    subst this
    exact wf_completeWord _ _ (wf_countIssue _ _ _ (wf_dropHold _ _ _ (hk.ok e hs)))
  · rename_i e
    exact wf_halts hs (hk.error e hs) h

/-- A loss of power leaves a canonical memory (R375). -/
theorem wf_afterPowerLoss {s : State} (choice : SMap Nat) (h : Memory.wf s.mem = true) : Memory.wf (afterPowerLoss s choice) = true := by
  unfold afterPowerLoss
  exact List.foldlRecOn (motive := fun m => Memory.wf m = true) s.pmem _ (Memory.wf_filter _ h) fun _ hm _ _ => Memory.wf_memWrite _ _ hm

end Sys2Proof.Machine
end

