-- ==== Sys2Proof/Laws/PerInstr.lean ====
section
/-!
SUPPORT. Per instruction: the word of an instruction fits in 32 bits, so the encoder drops no bit of it.
-/
namespace Sys2Proof.Laws.Fits
open Sys2Proof

/-- The encoded number of an instruction is a 32-bit word. -/
def Statement (i : Instr) : Prop := ∀ n, encodeNat i = some n → n < 2 ^ 32

theorem add (z : BitVec 1) (d a b : BitVec 6) : Statement (Instr.add z d a b) := by
  intro n h; cases h; simp only [put]; omega
theorem sub (z : BitVec 1) (d a b : BitVec 6) : Statement (Instr.sub z d a b) := by
  intro n h; cases h; simp only [put]; omega
theorem and (z : BitVec 1) (d a b : BitVec 6) : Statement (Instr.and z d a b) := by
  intro n h; cases h; simp only [put]; omega
theorem or (z : BitVec 1) (d a b : BitVec 6) : Statement (Instr.or z d a b) := by
  intro n h; cases h; simp only [put]; omega
theorem xor (z : BitVec 1) (d a b : BitVec 6) : Statement (Instr.xor z d a b) := by
  intro n h; cases h; simp only [put]; omega
theorem andn (z : BitVec 1) (d a b : BitVec 6) : Statement (Instr.andn z d a b) := by
  intro n h; cases h; simp only [put]; omega
theorem sll (z : BitVec 1) (d a b : BitVec 6) : Statement (Instr.sll z d a b) := by
  intro n h; cases h; simp only [put]; omega
theorem srl (z : BitVec 1) (d a b : BitVec 6) : Statement (Instr.srl z d a b) := by
  intro n h; cases h; simp only [put]; omega
theorem sra (z : BitVec 1) (d a b : BitVec 6) : Statement (Instr.sra z d a b) := by
  intro n h; cases h; simp only [put]; omega
theorem rol (z : BitVec 1) (d a b : BitVec 6) : Statement (Instr.rol z d a b) := by
  intro n h; cases h; simp only [put]; omega
theorem mul (z : BitVec 1) (d a b : BitVec 6) : Statement (Instr.mul z d a b) := by
  intro n h; cases h; simp only [put]; omega
theorem mulh (z : BitVec 1) (d a b : BitVec 6) : Statement (Instr.mulh z d a b) := by
  intro n h; cases h; simp only [put]; omega
theorem mulhu (z : BitVec 1) (d a b : BitVec 6) : Statement (Instr.mulhu z d a b) := by
  intro n h; cases h; simp only [put]; omega
theorem div (z : BitVec 1) (d a b : BitVec 6) : Statement (Instr.div z d a b) := by
  intro n h; cases h; simp only [put]; omega
theorem divu (z : BitVec 1) (d a b : BitVec 6) : Statement (Instr.divu z d a b) := by
  intro n h; cases h; simp only [put]; omega
theorem rem (z : BitVec 1) (d a b : BitVec 6) : Statement (Instr.rem z d a b) := by
  intro n h; cases h; simp only [put]; omega
theorem remu (z : BitVec 1) (d a b : BitVec 6) : Statement (Instr.remu z d a b) := by
  intro n h; cases h; simp only [put]; omega
theorem min (z : BitVec 1) (d a b : BitVec 6) : Statement (Instr.min z d a b) := by
  intro n h; cases h; simp only [put]; omega
theorem max (z : BitVec 1) (d a b : BitVec 6) : Statement (Instr.max z d a b) := by
  intro n h; cases h; simp only [put]; omega
theorem minu (z : BitVec 1) (d a b : BitVec 6) : Statement (Instr.minu z d a b) := by
  intro n h; cases h; simp only [put]; omega
theorem maxu (z : BitVec 1) (d a b : BitVec 6) : Statement (Instr.maxu z d a b) := by
  intro n h; cases h; simp only [put]; omega
theorem slt (z : BitVec 1) (d a b : BitVec 6) : Statement (Instr.slt z d a b) := by
  intro n h; cases h; simp only [put]; omega
theorem sltu (z : BitVec 1) (d a b : BitVec 6) : Statement (Instr.sltu z d a b) := by
  intro n h; cases h; simp only [put]; omega
theorem clz (z : BitVec 1) (d a : BitVec 6) : Statement (Instr.clz z d a) := by
  intro n h; cases h; simp only [put]; omega
theorem ctz (z : BitVec 1) (d a : BitVec 6) : Statement (Instr.ctz z d a) := by
  intro n h; cases h; simp only [put]; omega
theorem popc (z : BitVec 1) (d a : BitVec 6) : Statement (Instr.popc z d a) := by
  intro n h; cases h; simp only [put]; omega
theorem bswap (z : BitVec 1) (d a : BitVec 6) : Statement (Instr.bswap z d a) := by
  intro n h; cases h; simp only [put]; omega
theorem sext (z : BitVec 1) (d a : BitVec 6) (s : BitVec 2) : Statement (Instr.sext z d a s) := by
  intro n h; cases h; simp only [put]; omega
theorem zext (z : BitVec 1) (d a : BitVec 6) (s : BitVec 2) : Statement (Instr.zext z d a s) := by
  intro n h; cases h; simp only [put]; omega
theorem cmp (z : BitVec 1) (c d : BitVec 3) (a b : BitVec 6) : Statement (Instr.cmp z c d a b) := by
  intro n h; cases h; simp only [put]; omega
theorem cmpi (z : BitVec 1) (c d : BitVec 3) (a : BitVec 6) (i : BitVec 12) : Statement (Instr.cmpi z c d a i) := by
  intro n h; cases h; simp only [put]; omega
theorem sel (z : BitVec 1) (d a b : BitVec 6) (n : BitVec 1) (p : BitVec 3) : Statement (Instr.sel z d a b n p) := by
  intro n h; cases h; simp only [put]; omega
theorem pand (z : BitVec 1) (d a b : BitVec 3) : Statement (Instr.pand z d a b) := by
  intro n h; cases h; simp only [put]; omega
theorem por (z : BitVec 1) (d a b : BitVec 3) : Statement (Instr.por z d a b) := by
  intro n h; cases h; simp only [put]; omega
theorem pxor (z : BitVec 1) (d a b : BitVec 3) : Statement (Instr.pxor z d a b) := by
  intro n h; cases h; simp only [put]; omega
theorem pnot (z : BitVec 1) (d a : BitVec 3) : Statement (Instr.pnot z d a) := by
  intro n h; cases h; simp only [put]; omega
theorem pmov (z : BitVec 1) (d a : BitVec 3) : Statement (Instr.pmov z d a) := by
  intro n h; cases h; simp only [put]; omega
theorem addi (z : BitVec 1) (d a : BitVec 6) (i : BitVec 12) : Statement (Instr.addi z d a i) := by
  intro n h; cases h; simp only [put]; omega
theorem andi (z : BitVec 1) (d a : BitVec 6) (i : BitVec 12) : Statement (Instr.andi z d a i) := by
  intro n h; cases h; simp only [put]; omega
theorem ori (z : BitVec 1) (d a : BitVec 6) (i : BitVec 12) : Statement (Instr.ori z d a i) := by
  intro n h; cases h; simp only [put]; omega
theorem xori (z : BitVec 1) (d a : BitVec 6) (i : BitVec 12) : Statement (Instr.xori z d a i) := by
  intro n h; cases h; simp only [put]; omega
theorem slli (z : BitVec 1) (d a i : BitVec 6) : Statement (Instr.slli z d a i) := by
  intro n h; cases h; simp only [put]; omega
theorem srli (z : BitVec 1) (d a i : BitVec 6) : Statement (Instr.srli z d a i) := by
  intro n h; cases h; simp only [put]; omega
theorem srai (z : BitVec 1) (d a i : BitVec 6) : Statement (Instr.srai z d a i) := by
  intro n h; cases h; simp only [put]; omega
theorem slti (z : BitVec 1) (d a : BitVec 6) (i : BitVec 12) : Statement (Instr.slti z d a i) := by
  intro n h; cases h; simp only [put]; omega
theorem sltiu (z : BitVec 1) (d a : BitVec 6) (i : BitVec 12) : Statement (Instr.sltiu z d a i) := by
  intro n h; cases h; simp only [put]; omega
theorem lui (z : BitVec 1) (d : BitVec 6) (i : BitVec 18) : Statement (Instr.lui z d i) := by
  intro n h; cases h; simp only [put]; omega
theorem br (d : BitVec 20) : Statement (Instr.br d) := by
  intro n h; cases h; simp only [put]; omega
theorem bp (p : BitVec 3) (d : BitVec 20) : Statement (Instr.bp p d) := by
  intro n h; cases h; simp only [put]; omega
theorem bnp (p : BitVec 3) (d : BitVec 20) : Statement (Instr.bnp p d) := by
  intro n h; cases h; simp only [put]; omega
theorem call (d : BitVec 6) (i : BitVec 18) : Statement (Instr.call d i) := by
  intro n h; cases h; simp only [put]; omega
theorem jmpr (d a : BitVec 6) : Statement (Instr.jmpr d a) := by
  intro n h; cases h; simp only [put]; omega
theorem ret (a : BitVec 6) : Statement (Instr.ret a) := by
  intro n h; cases h; simp only [put]; omega
theorem loop (l : BitVec 2) (s : BitVec 6) (e : BitVec 11) : Statement (Instr.loop l s e) := by
  intro n h; cases h; simp only [put]; omega
theorem loopi (l : BitVec 2) (c : BitVec 10) (e : BitVec 11) : Statement (Instr.loopi l c e) := by
  intro n h; cases h; simp only [put]; omega
theorem lbrk (l : BitVec 2) : Statement (Instr.lbrk l) := by
  intro n h; cases h; simp only [put]; omega
theorem cbnd (z : BitVec 1) (d a : BitVec 5) (b : BitVec 6) : Statement (Instr.cbnd z d a b) := by
  intro n h; cases h; simp only [put]; omega
theorem ccur (z : BitVec 1) (d a : BitVec 5) (b : BitVec 6) : Statement (Instr.ccur z d a b) := by
  intro n h; cases h; simp only [put]; omega
theorem cadd (z : BitVec 1) (d a : BitVec 5) (b : BitVec 6) : Statement (Instr.cadd z d a b) := by
  intro n h; cases h; simp only [put]; omega
theorem cand (z : BitVec 1) (d a : BitVec 5) (b : BitVec 6) : Statement (Instr.cand z d a b) := by
  intro n h; cases h; simp only [put]; omega
theorem cget (z : BitVec 1) (d : BitVec 6) (a : BitVec 5) (k : BitVec 6) : Statement (Instr.cget z d a k) := by
  intro n h; cases h; simp only [put]; omega
theorem ctest (z : BitVec 1) (d : BitVec 3) (a : BitVec 5) (b : BitVec 6) : Statement (Instr.ctest z d a b) := by
  intro n h; cases h; simp only [put]; omega
theorem cmov (z : BitVec 1) (d a : BitVec 5) : Statement (Instr.cmov z d a) := by
  intro n h; cases h; simp only [put]; omega
theorem ctab (z : BitVec 1) (d : BitVec 5) (a : BitVec 6) : Statement (Instr.ctab z d a) := by
  intro n h; cases h; simp only [put]; omega
theorem caddi (z : BitVec 1) (d a : BitVec 5) (i : BitVec 12) : Statement (Instr.caddi z d a i) := by
  intro n h; cases h; simp only [put]; omega
theorem qpoll (z : BitVec 1) (d p : BitVec 3) : Statement (Instr.qpoll z d p) := by
  intro n h; cases h; simp only [put]; omega
theorem qwait (z : BitVec 1) (p : BitVec 3) : Statement (Instr.qwait z p) := by
  intro n h; cases h; simp only [put]; omega
theorem omClaim (z : BitVec 1) (s : BitVec 4) : Statement (Instr.omClaim z s) := by
  intro n h; cases h; simp only [put]; omega
theorem omRelease (z : BitVec 1) (s : BitVec 4) : Statement (Instr.omRelease z s) := by
  intro n h; cases h; simp only [put]; omega
theorem omState (z : BitVec 1) (d : BitVec 6) (s : BitVec 4) : Statement (Instr.omState z d s) := by
  intro n h; cases h; simp only [put]; omega
theorem eqFence (z : BitVec 1) (m : BitVec 4) : Statement (Instr.eqFence z m) := by
  intro n h; cases h; simp only [put]; omega
theorem chain (z : BitVec 1) (e g : BitVec 2) : Statement (Instr.chain z e g) := by
  intro n h; cases h; simp only [put]; omega
theorem taskPost (z : BitVec 1) (a : BitVec 5) : Statement (Instr.taskPost z a) := by
  intro n h; cases h; simp only [put]; omega
theorem fmtSet (z : BitVec 1) (n : BitVec 4) (a : BitVec 6) : Statement (Instr.fmtSet z n a) := by
  intro n h; cases h; simp only [put]; omega
theorem fmtGet (z : BitVec 1) (d : BitVec 6) (n : BitVec 4) : Statement (Instr.fmtGet z d n) := by
  intro n h; cases h; simp only [put]; omega
theorem mfsr (d : BitVec 6) (s : BitVec 12) : Statement (Instr.mfsr d s) := by
  intro n h; cases h; simp only [put]; omega
theorem mtsr (a : BitVec 6) (s : BitVec 12) : Statement (Instr.mtsr a s) := by
  intro n h; cases h; simp only [put]; omega
theorem trapret : Statement Instr.trapret := by
  intro n h; cases h; decide
theorem exit : Statement Instr.exit := by
  intro n h; cases h; decide
theorem exitAbandon : Statement Instr.exitAbandon := by
  intro n h; cases h; decide
theorem rdtime (d : BitVec 6) : Statement (Instr.rdtime d) := by
  intro n h; cases h; simp only [put]; omega
theorem rdcnt (d a : BitVec 6) : Statement (Instr.rdcnt d a) := by
  intro n h; cases h; simp only [put]; omega
theorem brkpt : Statement Instr.brkpt := by
  intro n h; cases h; decide
theorem trap (i : BitVec 18) : Statement (Instr.trap i) := by
  intro n h; cases h; simp only [put]; omega
theorem fence (z : BitVec 1) (k : BitVec 2) (s : BitVec 3) : Statement (Instr.fence z k s) := by
  intro n h; cases h; simp only [put]; omega
theorem pbar (z : BitVec 1) : Statement (Instr.pbar z) := by
  intro n h; cases h; simp only [put]; omega
theorem lwait (z : BitVec 1) (a : BitVec 5) : Statement (Instr.lwait z a) := by
  intro n h; cases h; simp only [put]; omega
theorem barInit (z : BitVec 1) (a : BitVec 5) (b : BitVec 6) : Statement (Instr.barInit z a b) := by
  intro n h; cases h; simp only [put]; omega
theorem barArrive (z : BitVec 1) (a : BitVec 5) : Statement (Instr.barArrive z a) := by
  intro n h; cases h; simp only [put]; omega
theorem barWait (z : BitVec 1) (a : BitVec 5) : Statement (Instr.barWait z a) := by
  intro n h; cases h; simp only [put]; omega
theorem barTest (z : BitVec 1) (d : BitVec 3) (a : BitVec 5) : Statement (Instr.barTest z d a) := by
  intro n h; cases h; simp only [put]; omega
theorem genAlloc (z : BitVec 1) (d : BitVec 5) (a : BitVec 6) : Statement (Instr.genAlloc z d a) := by
  intro n h; cases h; simp only [put]; omega
theorem genPass (z : BitVec 1) : Statement (Instr.genPass z) := by
  intro n h; cases h; simp only [put]; omega
theorem ld (z : BitVec 1) (d : BitVec 6) (c : BitVec 5) (s : BitVec 3) (i : BitVec 10) : Statement (Instr.ld z d c s i) := by
  intro n h; cases h; simp only [put]; omega
theorem st (z : BitVec 1) (d : BitVec 6) (c : BitVec 5) (s : BitVec 2) (i : BitVec 10) : Statement (Instr.st z d c s i) := by
  intro n h; cases h; simp only [put]; omega
theorem ldc (z : BitVec 1) (d c : BitVec 5) (i : BitVec 10) : Statement (Instr.ldc z d c i) := by
  intro n h; cases h; simp only [put]; omega
theorem stc (z : BitVec 1) (d c : BitVec 5) (i : BitVec 10) : Statement (Instr.stc z d c i) := by
  intro n h; cases h; simp only [put]; omega
theorem ldx (z : BitVec 1) (d : BitVec 6) (a : BitVec 5) (b : BitVec 6) (x : BitVec 1) (w : BitVec 3) : Statement (Instr.ldx z d a b x w) := by
  intro n h; cases h; simp only [put]; omega
theorem stx (z : BitVec 1) (d : BitVec 6) (a : BitVec 5) (b : BitVec 6) (x : BitVec 1) (w : BitVec 3) : Statement (Instr.stx z d a b x w) := by
  intro n h; cases h; simp only [put]; omega
theorem ldFe (z : BitVec 1) (d : BitVec 6) (c : BitVec 5) (i : BitVec 10) : Statement (Instr.ldFe z d c i) := by
  intro n h; cases h; simp only [put]; omega
theorem ldFf (z : BitVec 1) (d : BitVec 6) (c : BitVec 5) (i : BitVec 10) : Statement (Instr.ldFf z d c i) := by
  intro n h; cases h; simp only [put]; omega
theorem stEf (z : BitVec 1) (d : BitVec 6) (c : BitVec 5) (i : BitVec 10) : Statement (Instr.stEf z d c i) := by
  intro n h; cases h; simp only [put]; omega
theorem feFill (z : BitVec 1) (d : BitVec 6) (c : BitVec 5) (i : BitVec 10) : Statement (Instr.feFill z d c i) := by
  intro n h; cases h; simp only [put]; omega
theorem feClr (z : BitVec 1) (c : BitVec 5) (i : BitVec 10) : Statement (Instr.feClr z c i) := by
  intro n h; cases h; simp only [put]; omega
theorem feSt (z : BitVec 1) (d : BitVec 6) (c : BitVec 5) (i : BitVec 10) : Statement (Instr.feSt z d c i) := by
  intro n h; cases h; simp only [put]; omega
theorem pref (z : BitVec 1) (c : BitVec 5) (i : BitVec 10) : Statement (Instr.pref z c i) := by
  intro n h; cases h; simp only [put]; omega
theorem amo (z : BitVec 1) (d : BitVec 6) (a : BitVec 5) (b : BitVec 6) (w : BitVec 1) (o : BitVec 4) : Statement (Instr.amo z d a b w o) := by
  intro n h; cases h; simp only [put]; omega
theorem amoCas (z : BitVec 1) (d : BitVec 6) (a : BitVec 5) (b : BitVec 6) (w : BitVec 1) : Statement (Instr.amoCas z d a b w) := by
  intro n h; cases h; simp only [put]; omega
theorem red (z : BitVec 1) (a : BitVec 5) (b : BitVec 6) (w : BitVec 1) (o : BitVec 4) : Statement (Instr.red z a b w o) := by
  intro n h; cases h; simp only [put]; omega
theorem vadd (z : BitVec 1) (d a b : BitVec 7) (f : BitVec 1) : Statement (Instr.vadd z d a b f) := by
  intro n h; cases h; simp only [put]; omega
theorem vsub (z : BitVec 1) (d a b : BitVec 7) (f : BitVec 1) : Statement (Instr.vsub z d a b f) := by
  intro n h; cases h; simp only [put]; omega
theorem vmul (z : BitVec 1) (d a b : BitVec 7) (f : BitVec 1) : Statement (Instr.vmul z d a b f) := by
  intro n h; cases h; simp only [put]; omega
theorem vfma (z : BitVec 1) (d a b : BitVec 7) (f : BitVec 1) : Statement (Instr.vfma z d a b f) := by
  intro n h; cases h; simp only [put]; omega
theorem vfms (z : BitVec 1) (d a b : BitVec 7) (f : BitVec 1) : Statement (Instr.vfms z d a b f) := by
  intro n h; cases h; simp only [put]; omega
theorem vfnma (z : BitVec 1) (d a b : BitVec 7) (f : BitVec 1) : Statement (Instr.vfnma z d a b f) := by
  intro n h; cases h; simp only [put]; omega
theorem vmin (z : BitVec 1) (d a b : BitVec 7) (f : BitVec 1) : Statement (Instr.vmin z d a b f) := by
  intro n h; cases h; simp only [put]; omega
theorem vmax (z : BitVec 1) (d a b : BitVec 7) (f : BitVec 1) : Statement (Instr.vmax z d a b f) := by
  intro n h; cases h; simp only [put]; omega
theorem vabs (z : BitVec 1) (d a : BitVec 7) (f : BitVec 1) : Statement (Instr.vabs z d a f) := by
  intro n h; cases h; simp only [put]; omega
theorem vneg (z : BitVec 1) (d a : BitVec 7) (f : BitVec 1) : Statement (Instr.vneg z d a f) := by
  intro n h; cases h; simp only [put]; omega
theorem vrcp (z : BitVec 1) (d a : BitVec 7) (f : BitVec 1) : Statement (Instr.vrcp z d a f) := by
  intro n h; cases h; simp only [put]; omega
theorem vrsqrt (z : BitVec 1) (d a : BitVec 7) (f : BitVec 1) : Statement (Instr.vrsqrt z d a f) := by
  intro n h; cases h; simp only [put]; omega
theorem vsqrt (z : BitVec 1) (d a : BitVec 7) (f : BitVec 1) : Statement (Instr.vsqrt z d a f) := by
  intro n h; cases h; simp only [put]; omega
theorem vexp2 (z : BitVec 1) (d a : BitVec 7) (f : BitVec 1) : Statement (Instr.vexp2 z d a f) := by
  intro n h; cases h; simp only [put]; omega
theorem vlog2 (z : BitVec 1) (d a : BitVec 7) (f : BitVec 1) : Statement (Instr.vlog2 z d a f) := by
  intro n h; cases h; simp only [put]; omega
theorem vtanh (z : BitVec 1) (d a : BitVec 7) (f : BitVec 1) : Statement (Instr.vtanh z d a f) := by
  intro n h; cases h; simp only [put]; omega
theorem vdiv (z : BitVec 1) (d a b : BitVec 7) (f : BitVec 1) : Statement (Instr.vdiv z d a b f) := by
  intro n h; cases h; simp only [put]; omega
theorem viadd (z : BitVec 1) (d a b : BitVec 7) (f : BitVec 1) : Statement (Instr.viadd z d a b f) := by
  intro n h; cases h; simp only [put]; omega
theorem visub (z : BitVec 1) (d a b : BitVec 7) (f : BitVec 1) : Statement (Instr.visub z d a b f) := by
  intro n h; cases h; simp only [put]; omega
theorem vimul (z : BitVec 1) (d a b : BitVec 7) (f : BitVec 1) : Statement (Instr.vimul z d a b f) := by
  intro n h; cases h; simp only [put]; omega
theorem vimulh (z : BitVec 1) (d a b : BitVec 7) (f : BitVec 1) : Statement (Instr.vimulh z d a b f) := by
  intro n h; cases h; simp only [put]; omega
theorem vand (z : BitVec 1) (d a b : BitVec 7) (f : BitVec 1) : Statement (Instr.vand z d a b f) := by
  intro n h; cases h; simp only [put]; omega
theorem vor (z : BitVec 1) (d a b : BitVec 7) (f : BitVec 1) : Statement (Instr.vor z d a b f) := by
  intro n h; cases h; simp only [put]; omega
theorem vxor (z : BitVec 1) (d a b : BitVec 7) (f : BitVec 1) : Statement (Instr.vxor z d a b f) := by
  intro n h; cases h; simp only [put]; omega
theorem vshl (z : BitVec 1) (d a b : BitVec 7) (f : BitVec 1) : Statement (Instr.vshl z d a b f) := by
  intro n h; cases h; simp only [put]; omega
theorem vshr (z : BitVec 1) (d a b : BitVec 7) (f : BitVec 1) : Statement (Instr.vshr z d a b f) := by
  intro n h; cases h; simp only [put]; omega
theorem vsra (z : BitVec 1) (d a b : BitVec 7) (f : BitVec 1) : Statement (Instr.vsra z d a b f) := by
  intro n h; cases h; simp only [put]; omega
theorem vimin (z : BitVec 1) (d a b : BitVec 7) (f : BitVec 1) : Statement (Instr.vimin z d a b f) := by
  intro n h; cases h; simp only [put]; omega
theorem vimax (z : BitVec 1) (d a b : BitVec 7) (f : BitVec 1) : Statement (Instr.vimax z d a b f) := by
  intro n h; cases h; simp only [put]; omega
theorem vcmp (z : BitVec 1) (c : BitVec 4) (d : BitVec 3) (a b : BitVec 7) (f : BitVec 1) : Statement (Instr.vcmp z c d a b f) := by
  intro n h; cases h; simp only [put]; omega
theorem vicmp (z : BitVec 1) (c : BitVec 4) (d : BitVec 3) (a b : BitVec 7) (f : BitVec 1) : Statement (Instr.vicmp z c d a b f) := by
  intro n h; cases h; simp only [put]; omega
theorem vsel (z : BitVec 1) (d a b : BitVec 7) : Statement (Instr.vsel z d a b) := by
  intro n h; cases h; simp only [put]; omega
theorem mand (z : BitVec 1) (d a b : BitVec 3) : Statement (Instr.mand z d a b) := by
  intro n h; cases h; simp only [put]; omega
theorem mor (z : BitVec 1) (d a b : BitVec 3) : Statement (Instr.mor z d a b) := by
  intro n h; cases h; simp only [put]; omega
theorem mnot (z : BitVec 1) (d a : BitVec 3) : Statement (Instr.mnot z d a) := by
  intro n h; cases h; simp only [put]; omega
theorem mpop (z : BitVec 1) (d : BitVec 7) (a : BitVec 3) : Statement (Instr.mpop z d a) := by
  intro n h; cases h; simp only [put]; omega
theorem vcvt (z : BitVec 1) (d a s : BitVec 7) (f : BitVec 1) : Statement (Instr.vcvt z d a s f) := by
  intro n h; cases h; simp only [put]; omega
theorem vpack (z : BitVec 1) (d a s : BitVec 7) (f : BitVec 1) : Statement (Instr.vpack z d a s f) := by
  intro n h; cases h; simp only [put]; omega
theorem vunpack (z : BitVec 1) (d a s : BitVec 7) (f : BitVec 1) : Statement (Instr.vunpack z d a s f) := by
  intro n h; cases h; simp only [put]; omega
theorem vperm (z : BitVec 1) (d a b : BitVec 7) (f : BitVec 1) : Statement (Instr.vperm z d a b f) := by
  intro n h; cases h; simp only [put]; omega
theorem vbcast (z : BitVec 1) (d : BitVec 7) (s : BitVec 6) (h f : BitVec 1) : Statement (Instr.vbcast z d s h f) := by
  intro n h; cases h; simp only [put]; omega
theorem vrot (z : BitVec 1) (d a i : BitVec 7) (f : BitVec 1) : Statement (Instr.vrot z d a i f) := by
  intro n h; cases h; simp only [put]; omega
theorem vlane (z : BitVec 1) (d : BitVec 7) (f : BitVec 1) : Statement (Instr.vlane z d f) := by
  intro n h; cases h; simp only [put]; omega
theorem vredsum (z : BitVec 1) (d a t : BitVec 7) (f : BitVec 1) : Statement (Instr.vredsum z d a t f) := by
  intro n h; cases h; simp only [put]; omega
theorem vredmax (z : BitVec 1) (d a t : BitVec 7) (f : BitVec 1) : Statement (Instr.vredmax z d a t f) := by
  intro n h; cases h; simp only [put]; omega
theorem vredmin (z : BitVec 1) (d a t : BitVec 7) (f : BitVec 1) : Statement (Instr.vredmin z d a t f) := by
  intro n h; cases h; simp only [put]; omega
theorem vscan (z : BitVec 1) (d a t : BitVec 7) (f : BitVec 1) : Statement (Instr.vscan z d a t f) := by
  intro n h; cases h; simp only [put]; omega
theorem vwin (z : BitVec 1) (k : BitVec 3) (s b : BitVec 6) : Statement (Instr.vwin z k s b) := by
  intro n h; cases h; simp only [put]; omega
theorem vxset (z : BitVec 1) (v : BitVec 7) (s : BitVec 6) (k : BitVec 3) (f : BitVec 1) : Statement (Instr.vxset z v s k f) := by
  intro n h; cases h; simp only [put]; omega
theorem vmovs (z : BitVec 1) (d : BitVec 7) (s : BitVec 6) (l : BitVec 7) : Statement (Instr.vmovs z d s l) := by
  intro n h; cases h; simp only [put]; omega
theorem vmovq (z : BitVec 1) (d : BitVec 7) (i : BitVec 8) : Statement (Instr.vmovq z d i) := by
  intro n h; cases h; simp only [put]; omega
theorem vld (z : BitVec 1) (d : BitVec 7) (c : BitVec 5) (s : BitVec 6) (v : BitVec 3) (f : BitVec 1) : Statement (Instr.vld z d c s v f) := by
  intro n h; cases h; simp only [put]; omega
theorem vst (z : BitVec 1) (d : BitVec 7) (c : BitVec 5) (s : BitVec 6) (v : BitVec 3) (f : BitVec 1) : Statement (Instr.vst z d c s v f) := by
  intro n h; cases h; simp only [put]; omega
theorem vldx (z : BitVec 1) (d : BitVec 7) (c : BitVec 5) (s : BitVec 6) (v : BitVec 3) (f : BitVec 1) : Statement (Instr.vldx z d c s v f) := by
  intro n h; cases h; simp only [put]; omega
theorem vstx (z : BitVec 1) (d : BitVec 7) (c : BitVec 5) (s : BitVec 6) (v : BitVec 3) (f : BitVec 1) : Statement (Instr.vstx z d c s v f) := by
  intro n h; cases h; simp only [put]; omega
theorem vldS (z : BitVec 1) (d : BitVec 7) (c : BitVec 5) (s : BitVec 6) (v : BitVec 3) (f : BitVec 1) : Statement (Instr.vldS z d c s v f) := by
  intro n h; cases h; simp only [put]; omega
theorem vstS (z : BitVec 1) (d : BitVec 7) (c : BitVec 5) (s : BitVec 6) (v : BitVec 3) (f : BitVec 1) : Statement (Instr.vstS z d c s v f) := by
  intro n h; cases h; simp only [put]; omega
theorem mma (z n : BitVec 1) (a b : BitVec 4) (f : BitVec 7) (s : BitVec 6) : Statement (Instr.mma z n a b f s) := by
  intro n h; cases h; simp only [put]; omega
theorem mmaZ (z n : BitVec 1) (a b : BitVec 4) (f : BitVec 7) (s : BitVec 6) : Statement (Instr.mmaZ z n a b f s) := by
  intro n h; cases h; simp only [put]; omega
theorem accClr (z n : BitVec 1) : Statement (Instr.accClr z n) := by
  intro n h; cases h; simp only [put]; omega
theorem accRd (z n : BitVec 1) (c : BitVec 5) (q : BitVec 1) : Statement (Instr.accRd z n c q) := by
  intro n h; cases h; simp only [put]; omega
theorem accWr (z n : BitVec 1) (c : BitVec 5) (q : BitVec 1) : Statement (Instr.accWr z n c q) := by
  intro n h; cases h; simp only [put]; omega
theorem epi (z n : BitVec 1) (o : BitVec 4) (c : BitVec 5) (s : BitVec 6) (q : BitVec 1) : Statement (Instr.epi z n o c s q) := by
  intro n h; cases h; simp only [put]; omega
theorem epiV (z n : BitVec 1) (o : BitVec 4) (s : BitVec 6) (q : BitVec 1) : Statement (Instr.epiV z n o s q) := by
  intro n h; cases h; simp only [put]; omega
theorem dtabLd (z : BitVec 1) (t : BitVec 2) (c : BitVec 5) (q : BitVec 1) : Statement (Instr.dtabLd z t c q) := by
  intro n h; cases h; simp only [put]; omega
theorem dtabInv (z : BitVec 1) (t : BitVec 2) : Statement (Instr.dtabInv z t) := by
  intro n h; cases h; simp only [put]; omega
theorem mseg (z : BitVec 1) (s : BitVec 6) : Statement (Instr.mseg z s) := by
  intro n h; cases h; simp only [put]; omega
theorem cp (z : BitVec 1) (d e : BitVec 5) (l c : BitVec 6) : Statement (Instr.cp z d e l c) := by
  intro n h; cases h; simp only [put]; omega
theorem cp2d (z : BitVec 1) (d e : BitVec 5) (n c : BitVec 6) : Statement (Instr.cp2d z d e n c) := by
  intro n h; cases h; simp only [put]; omega
theorem cpOm (z : BitVec 1) (n : BitVec 4) (e : BitVec 5) (l c : BitVec 6) : Statement (Instr.cpOm z n e l c) := by
  intro n h; cases h; simp only [put]; omega
theorem cpGat (z : BitVec 1) (d e : BitVec 5) (n c : BitVec 6) : Statement (Instr.cpGat z d e n c) := by
  intro n h; cases h; simp only [put]; omega
theorem cpSet (z : BitVec 1) (d : BitVec 5) (n c : BitVec 6) : Statement (Instr.cpSet z d n c) := by
  intro n h; cases h; simp only [put]; omega
theorem cpZ (z : BitVec 1) (d e : BitVec 5) (l c : BitVec 6) : Statement (Instr.cpZ z d e l c) := by
  intro n h; cases h; simp only [put]; omega
theorem cpX (z : BitVec 1) (d e : BitVec 5) (l c : BitVec 6) : Statement (Instr.cpX z d e l c) := by
  intro n h; cases h; simp only [put]; omega
theorem cpCk (z : BitVec 1) (d e : BitVec 5) (l c : BitVec 6) : Statement (Instr.cpCk z d e l c) := by
  intro n h; cases h; simp only [put]; omega
theorem netPost (z : BitVec 1) (c : BitVec 5) (l q : BitVec 6) : Statement (Instr.netPost z c l q) := by
  intro n h; cases h; simp only [put]; omega
theorem netSend (z : BitVec 1) (c : BitVec 5) (l q : BitVec 6) : Statement (Instr.netSend z c l q) := by
  intro n h; cases h; simp only [put]; omega
theorem netSendWrite (z : BitVec 1) (c : BitVec 5) (l q : BitVec 6) : Statement (Instr.netSendWrite z c l q) := by
  intro n h; cases h; simp only [put]; omega
theorem netSendRead (z : BitVec 1) (c : BitVec 5) (l q : BitVec 6) : Statement (Instr.netSendRead z c l q) := by
  intro n h; cases h; simp only [put]; omega
theorem netReply (z : BitVec 1) (c : BitVec 5) (l : BitVec 6) : Statement (Instr.netReply z c l) := by
  intro n h; cases h; simp only [put]; omega
theorem fstLd (z : BitVec 1) (c : BitVec 5) (l s : BitVec 6) : Statement (Instr.fstLd z c l s) := by
  intro n h; cases h; simp only [put]; omega
theorem fstStart (z : BitVec 1) (c : BitVec 5) (l s : BitVec 6) : Statement (Instr.fstStart z c l s) := by
  intro n h; cases h; simp only [put]; omega
theorem fstStop (z : BitVec 1) (s : BitVec 6) : Statement (Instr.fstStop z s) := by
  intro n h; cases h; simp only [put]; omega
theorem zcPush (s d : BitVec 5) : Statement (Instr.zcPush s d) := by
  intro n h; cases h; simp only [put]; omega
theorem zcFence (d : BitVec 5) : Statement (Instr.zcFence d) := by
  intro n h; cases h; simp only [put]; omega
theorem zcStat (s d : BitVec 5) : Statement (Instr.zcStat s d) := by
  intro n h; cases h; simp only [put]; omega
theorem frameReceive (port : Nat) (f : Frame) : Statement (Instr.frameReceive port f) := nofun
theorem sowerAcceptMessage : Statement Instr.sowerAcceptMessage := nofun
theorem gcmHeaderCheck : Statement Instr.gcmHeaderCheck := nofun
theorem mcbLookup : Statement Instr.mcbLookup := nofun
theorem freePlotSearch (part : Nat) : Statement (Instr.freePlotSearch part) := nofun
theorem bindAndRegisterPreload (mcb : Nat) : Statement (Instr.bindAndRegisterPreload mcb) := nofun
theorem restoreSaveImage (mcb : Nat) : Statement (Instr.restoreSaveImage mcb) := nofun
theorem firstFetch (mcb : Nat) : Statement (Instr.firstFetch mcb) := nofun
theorem decoderTableInitLoad (core : Nat) (dt : BitVec 2) : Statement (Instr.decoderTableInitLoad core dt) := nofun
theorem launchEnqueueRetry (st : Nat) : Statement (Instr.launchEnqueueRetry st) := nofun
theorem roceSendReceive (from_ : RoceSource) (data : List Byte) : Statement (Instr.roceSendReceive from_ data) := nofun
theorem roceInboundRdma (q : RdmaRequest) : Statement (Instr.roceInboundRdma q) := nofun
theorem hostInboundWrite (sp : BitVec 4) (addr : Nat) (data : List Byte) : Statement (Instr.hostInboundWrite sp addr data) := nofun
theorem engineCommandStart (core : Nat) (eng : BitVec 2) : Statement (Instr.engineCommandStart core eng) := nofun
theorem engineCommandComplete (core : Nat) (eng : BitVec 2) (nth : Nat) (ans : NetAnswer) : Statement (Instr.engineCommandComplete core eng nth ans) := nofun
theorem mmaSegmentRetire (core : Nat) : Statement (Instr.mmaSegmentRetire core) := nofun
theorem taskIssue (mcb : Nat) : Statement (Instr.taskIssue mcb) := nofun
theorem taskComplete (core : Nat) : Statement (Instr.taskComplete core) := nofun
theorem taskWaitRecheck (mcb : Nat) : Statement (Instr.taskWaitRecheck mcb) := nofun
theorem parkedAccessReplay (core : Nat) : Statement (Instr.parkedAccessReplay core) := nofun
theorem xtlbEntryExpiry (core : Nat) : Statement (Instr.xtlbEntryExpiry core) := nofun
theorem leaseRenewal (core : Nat) (eng : BitVec 2) (nth : Nat) : Statement (Instr.leaseRenewal core eng nth) := nofun
theorem heldFormWithdrawal (core : Nat) : Statement (Instr.heldFormWithdrawal core) := nofun
theorem feWaitSatisfied (core : Nat) : Statement (Instr.feWaitSatisfied core) := nofun
theorem barWaitCompletion (core : Nat) : Statement (Instr.barWaitCompletion core) := nofun
theorem queuePortStallEnd (core : Nat) : Statement (Instr.queuePortStallEnd core) := nofun
theorem lwaitEnd (core : Nat) : Statement (Instr.lwaitEnd core) := nofun
theorem eqFenceEnd (core : Nat) : Statement (Instr.eqFenceEnd core) := nofun
theorem fenceComplete (core : Nat) : Statement (Instr.fenceComplete core) := nofun
theorem genPassWaitEnd (core : Nat) : Statement (Instr.genPassWaitEnd core) := nofun
theorem omClaimWaitEnd (core : Nat) : Statement (Instr.omClaimWaitEnd core) := nofun
theorem exitDrainEnd (core : Nat) : Statement (Instr.exitDrainEnd core) := nofun
theorem invocationRetirement (mcb : Nat) : Statement (Instr.invocationRetirement mcb) := nofun
theorem haltRelease (mcb : Nat) : Statement (Instr.haltRelease mcb) := nofun
theorem killComplete (mcb : Nat) : Statement (Instr.killComplete mcb) := nofun
theorem preemptLandComplete (mcb : Nat) : Statement (Instr.preemptLandComplete mcb) := nofun
theorem saveComplete (mcb : Nat) : Statement (Instr.saveComplete mcb) := nofun
theorem awaitingAnswerArrival (mcb core : Nat) (value : BitVec 128) : Statement (Instr.awaitingAnswerArrival mcb core value) := nofun
theorem t1Expiry (mcb : Nat) : Statement (Instr.t1Expiry mcb) := nofun
theorem t2Expiry (mcb : Nat) : Statement (Instr.t2Expiry mcb) := nofun
theorem t3Expiry (mcb : Nat) : Statement (Instr.t3Expiry mcb) := nofun
theorem skewEvent (agent : PtAgent) (deviation : Int) : Statement (Instr.skewEvent agent deviation) := nofun
theorem cpHeartbeatTimeout (hart : Nat) : Statement (Instr.cpHeartbeatTimeout hart) := nofun
theorem beaconReceive (master : W64) : Statement (Instr.beaconReceive master) := nofun
theorem beaconTimeout : Statement Instr.beaconTimeout := nofun
theorem nepolPathTimeout (core : Nat) : Statement (Instr.nepolPathTimeout core) := nofun
theorem completionTimeout (core : Nat) : Statement (Instr.completionTimeout core) := nofun
theorem powerManagerTick (watts : Nat) (hot : BitVec 16) : Statement (Instr.powerManagerTick watts hot) := nofun
theorem thermalTrip : Statement Instr.thermalTrip := nofun
theorem wake : Statement Instr.wake := nofun
theorem sleep : Statement Instr.sleep := nofun
theorem sproutJobStart (part die : Nat) : Statement (Instr.sproutJobStart part die) := nofun
theorem sproutPageArrival (job : Nat) (data : List Byte) : Statement (Instr.sproutPageArrival job data) := nofun
theorem sproutJobEnd (job : Nat) (sourceError : Bool) : Statement (Instr.sproutJobEnd job sourceError) := nofun
theorem sampleTick (part : Nat) : Statement (Instr.sampleTick part) := nofun
theorem pktNop (st : Nat) (len : BitVec 16) : Statement (Instr.pktNop st len) := nofun
theorem pktLaunch (st : Nat) (w : Bool) (funcid arg : W64) : Statement (Instr.pktLaunch st w funcid arg) := nofun
theorem launchRetireWaitEnd (st : Nat) : Statement (Instr.launchRetireWaitEnd st) := nofun
theorem pktIb (st : Nat) (buf : BufDesc) : Statement (Instr.pktIb st buf) := nofun
theorem pktPred (st : Nat) (cond : BitVec 3) (addr ref mask : W64) (count : W32) : Statement (Instr.pktPred st cond addr ref mask count) := nofun
theorem pktLoop (st : Nat) (trips : W32) : Statement (Instr.pktLoop st trips) := nofun
theorem pktEndloop (st : Nat) : Statement (Instr.pktEndloop st) := nofun
theorem pktWrite (st : Nat) (wide : Bool) (addr value : W64) : Statement (Instr.pktWrite st wide addr value) := nofun
theorem pktWaitFlag (st : Nat) (cond : BitVec 3) (addr ref mask : W64) : Statement (Instr.pktWaitFlag st cond addr ref mask) := nofun
theorem waitReread (st : Nat) : Statement (Instr.waitReread st) := nofun
theorem pktWaitTime (st : Nat) (bound : W64) : Statement (Instr.pktWaitTime st bound) := nofun
theorem waitTimeEnd (st : Nat) : Statement (Instr.waitTimeEnd st) := nofun
theorem pktSignal (st : Nat) (notify : Bool) (addr addend : W64) : Statement (Instr.pktSignal st notify addr addend) := nofun
theorem signalAdd (st : Nat) : Statement (Instr.signalAdd st) := nofun
theorem pktFfence (st : Nat) : Statement (Instr.pktFfence st) := nofun
theorem ffenceRefetch (st : Nat) : Statement (Instr.ffenceRefetch st) := nofun
theorem pktCond (st : Nat) (cond : BitVec 3) (addr ref : W64) (thenBuf elseBuf : BufDesc) : Statement (Instr.pktCond st cond addr ref thenBuf elseBuf) := nofun
theorem pktSwitch (st : Nat) (addr : W64) (dflt : BufDesc) (cases : List BufDesc) : Statement (Instr.pktSwitch st addr dflt cases) := nofun
theorem pktEnd (st : Nat) : Statement (Instr.pktEnd st) := nofun
theorem sqtailDoorbell (ifc : Nat) (tail : W64) : Statement (Instr.sqtailDoorbell ifc tail) := nofun
theorem cqheadWrite (ifc : Nat) (head : W64) : Statement (Instr.cqheadWrite ifc head) := nofun
theorem interfaceRegisterWrite (ifc : Nat) (offset : BitVec 12) (value : W64) : Statement (Instr.interfaceRegisterWrite ifc offset value) := nofun
theorem install (iss : Issuer) (a : InstallArgs) : Statement (Instr.install iss a) := nofun
theorem mcbWrite (iss : Issuer) (mcb : Nat) (mask value : BitVec 2048) : Statement (Instr.mcbWrite iss mcb mask value) := nofun
theorem mcbRemove (iss : Issuer) (mcb : Nat) : Statement (Instr.mcbRemove iss mcb) := nofun
theorem capWrite (iss : Issuer) (mcb : Nat) (index : BitVec 8) (entry : BitVec 128) : Statement (Instr.capWrite iss mcb index entry) := nofun
theorem revoke (iss : Issuer) (mcb : Nat) (obj : BitVec 24) (npages : Option Nat) : Statement (Instr.revoke iss mcb obj npages) := nofun
theorem revokeWaitEnd (nth : Nat) : Statement (Instr.revokeWaitEnd nth) := nofun
theorem streamOpen (iss : Issuer) (mcb : Nat) (obj : BitVec 24) (perm : BitVec 12) (ring tail : W64) : Statement (Instr.streamOpen iss mcb obj perm ring tail) := nofun
theorem streamTail (iss : Issuer) (st : Nat) (tail : W64) : Statement (Instr.streamTail iss st tail) := nofun
theorem streamClose (iss : Issuer) (st : Nat) : Statement (Instr.streamClose iss st) := nofun
theorem qpCreate (iss : Issuer) (mcb : Nat) (px py : BitVec 5) (peer : QpPeer) : Statement (Instr.qpCreate iss mcb px py peer) := nofun
theorem qpDestroy (iss : Issuer) (qp : BitVec 24) : Statement (Instr.qpDestroy iss qp) := nofun
theorem faultReplyResume (iss : Issuer) (mcb : Nat) : Statement (Instr.faultReplyResume iss mcb) := nofun
theorem faultReplyResumeHandler (iss : Issuer) (mcb : Nat) : Statement (Instr.faultReplyResumeHandler iss mcb) := nofun
theorem faultReplyKill (iss : Issuer) (mcb : Nat) : Statement (Instr.faultReplyKill iss mcb) := nofun
theorem assign (iss : Issuer) (ifc : Nat) (part : BitVec 4) (pasid : BitVec 20) : Statement (Instr.assign iss ifc part pasid) := nofun
theorem partition (iss : Issuer) (a : PartitionArgs) : Statement (Instr.partition iss a) := nofun
theorem keyslot (iss : Issuer) (slot : BitVec 12) (keys : Option (BitVec 768)) (parts : BitVec 16) : Statement (Instr.keyslot iss slot keys parts) := nofun
theorem replay (iss : Issuer) (parts : BitVec 16) : Statement (Instr.replay iss parts) := nofun
theorem checkpoint (iss : Issuer) (parts : BitVec 16) (target : CkptTarget) (dirty stayFrozen : Bool) : Statement (Instr.checkpoint iss parts target dirty stayFrozen) := nofun
theorem bitmapSwap (iss : Issuer) (bases : Option (Nat × Nat)) : Statement (Instr.bitmapSwap iss bases) := nofun
theorem bitmapSwitchComplete : Statement Instr.bitmapSwitchComplete := nofun
theorem partitionReset (iss : Issuer) (part : BitVec 4) : Statement (Instr.partitionReset iss part) := nofun
theorem windowReduction (iss : Issuer) (win : BitVec 6) (base pages : Nat) (epoch : W16) : Statement (Instr.windowReduction iss win base pages epoch) := nofun
theorem windowExport (iss : Issuer) (slot : Nat) (entry : Option ExportEntry) : Statement (Instr.windowExport iss slot entry) := nofun
theorem bankClaim (iss : Issuer) (part : BitVec 4) (unit : BitVec 3) : Statement (Instr.bankClaim iss part unit) := nofun
theorem bankRelease (iss : Issuer) (part : BitVec 4) (unit : BitVec 3) : Statement (Instr.bankRelease iss part unit) := nofun
theorem bankRead (iss : Issuer) (part : BitVec 4) (unit : BitVec 3) (va : W64) : Statement (Instr.bankRead iss part unit va) := nofun
theorem bankWrite (iss : Issuer) (part : BitVec 4) (unit : BitVec 3) (sel : BitVec 64) : Statement (Instr.bankWrite iss part unit sel) := nofun
theorem snapshot (iss : Issuer) (part : BitVec 4) (va : W64) : Statement (Instr.snapshot iss part va) := nofun
theorem bpWrite (iss : Issuer) (part : BitVec 4) (n : BitVec 2) (value : W64) : Statement (Instr.bpWrite iss part n value) := nofun
theorem wpWrite (iss : Issuer) (part : BitVec 4) (n : BitVec 3) (value : BitVec 128) : Statement (Instr.wpWrite iss part n value) := nofun
theorem sample (iss : Issuer) (part : BitVec 4) (cores : List Nat) (period : Nat) (unit : BitVec 1) : Statement (Instr.sample iss part cores period unit) := nofun
theorem dbgCfg (iss : Issuer) (part : BitVec 4) (ringBase ringLen : Nat) (targets : Nat × Nat) : Statement (Instr.dbgCfg iss part ringBase ringLen targets) := nofun
theorem fwLoad (iss : Issuer) (harts : BitVec 16) (va : W64) : Statement (Instr.fwLoad iss harts va) := nofun
theorem fwSwap (iss : Issuer) (harts : BitVec 16) : Statement (Instr.fwSwap iss harts) := nofun
theorem attest (iss : Issuer) (nonce : BitVec 256) (va : W64) : Statement (Instr.attest iss nonce va) := nofun
theorem coreReset (iss : Issuer) (x y : BitVec 5) : Statement (Instr.coreReset iss x y) := nofun
theorem power (iss : Issuer) (island : BitVec 5) (point : BitVec 3) (gate : Bool) : Statement (Instr.power iss island point gate) := nofun
theorem cpwdWrite (hart : Nat) (value : W64) : Statement (Instr.cpwdWrite hart value) := nofun
theorem fwctlWrite (hart : Nat) (value : W64) : Statement (Instr.fwctlWrite hart value) := nofun
theorem modeWrite (hart : Nat) (value : W64) : Statement (Instr.modeWrite hart value) := nofun
theorem csrWrite (hart : Nat) (csr : BitVec 12) (value : W64) : Statement (Instr.csrWrite hart csr value) := nofun
theorem illegalInstruction (word : W32) : Statement (Instr.illegalInstruction word) := nofun
theorem functionReady (bit : BitVec 6) : Statement (Instr.functionReady bit) := nofun
theorem ptCopyResynchronised (agent : PtAgent) : Statement (Instr.ptCopyResynchronised agent) := nofun
theorem nepolInboundAccess (q : NepolAccess) : Statement (Instr.nepolInboundAccess q) := nofun
theorem nepolLinkFailure (link : BitVec 4) : Statement (Instr.nepolLinkFailure link) := nofun
theorem nepolSwitchFailure (win : BitVec 6) (resent : List Contribution) : Statement (Instr.nepolSwitchFailure win resent) := nofun
theorem scrubComplete (part : BitVec 4) : Statement (Instr.scrubComplete part) := nofun
theorem checkpointStreamsWritten : Statement Instr.checkpointStreamsWritten := nofun

end Sys2Proof.Laws.Fits
end

