-- ==== Sys2Proof/Tests/Slice0.lean ====
section
/-!
SUPPORT. Tests: ill-formed instructions, words laid out from the encoding tables, single steps with the values that the manual gives, and for every
statement with hypotheses a state that meets them (test_hyp_...).
-/
open Sys2Proof Sys2Proof.Machine
namespace Sys2Proof.Tests
-- One theorem at a time: a thread for each would not fit in memory.
set_option Elab.async false

/-- Core 0 with a bound block, and a word at its pc: the next step runs it. Object 1 is one page of GSRAM at 0x20000. -/
def placed (w : Nat) (f : Thread → Thread) : State := onThread (State.reset.withFetchWord 32 w) f

/-- Core 0 with its registers set, and nothing else. -/
def boot (f : Thread → Thread) : State := placed 0 f

/-- The thread after the placed word has run. -/
def ran (w : Nat) (f : Thread → Thread) : Option Thread := (nextOf (step (placed w f))).map theThread

/-- A capability of the whole of object 1. -/
def cap1 (perm : BitVec 12) (cur : Nat) : Cap := mkCap 1 0 perm 0 0 4096 cur

/-- A computation goes through. -/
def goes {α : Type} (m : M α) (s : State) : Bool :=
  match m.run s with
  | .ok _ _ => true
  | .error _ _ => false

/-- What a computation gives. -/
def got {α : Type} (m : M α) (s : State) (d : α) : α :=
  match m.run s with
  | .ok x _ => x
  | .error _ _ => d

theorem does_got {α : Type} {m : M α} {s : State} (d : α) (h : goes m s = true) : does m s (got m s d) (endOf m s) := by
  unfold goes at h; unfold does got endOf
  cases e : m.run s with
  | ok x t => rfl
  | error e' t => rw [e] at h; cases h


theorem does_this {α : Type} {m : M α} {s : State} {x : α} (d : α) (h : goes m s = true) (e : got m s d = x) : does m s x (endOf m s) :=
  e ▸ does_got d h

/-- Where the byte at an offset of an object lies for the running thread, and the state in which its translation ends. -/
def noPlace : Res := { key := 0, sp := 0, addr := 0, dir := 0, ext := 0, extKey := 0, expiry := 0 }
def placeOf (s : State) (c : Cap) (a : Nat) (write : Bool) : Res := got (resolve (whoNow s) c.obj c.sp a { write := write }) s noPlace
def leftBy (s : State) (c : Cap) (a : Nat) (write : Bool) : State := endOf (resolve (whoNow s) c.obj c.sp a { write := write }) s

/-- Nothing is in the way, as a Bool. -/
def clear (s : State) (w : Who) (kind : WatchKind) (p : Nat × Nat × Res) : Bool :=
  (linesOf p.2.2.key p.2.1).all (fun l => (mapFind s.bad l).isNone) &&
  (watchFind s (mcbAt s w.mcb).part.toNat w kind p.1 p.2.2.key p.2.1).isNone &&
  s.hostDeny.all (fun d => !overlaps d.1 d.2 p.2.2.key p.2.1)

theorem unhindered_of_clear {s : State} {w : Who} {kind : WatchKind} {p : Nat × Nat × Res} (h : clear s w kind p = true) :
    unhindered s w kind p := by
  simp only [clear, Bool.and_eq_true, List.all_eq_true, Option.isNone_iff_eq_none, Bool.not_eq_true'] at h
  exact ⟨h.1.1, h.1.2, h.2⟩

def reachesNow (s : State) (c : Cap) (a n : Nat) (write : Bool) : Bool :=
  !pendingWrite s c.obj a n && (coreAt s s.turn).struck.isNone &&
  goes (resolve (whoNow s) c.obj c.sp a { write := write }) s && clear (leftBy s c a write) (whoNow s) .sync (a, n, placeOf s c a write)

theorem reaches_now {s : State} {c : Cap} {a n : Nat} {write : Bool} (h : reachesNow s c a n write = true) :
    reaches s c a n write (placeOf s c a write) (leftBy s c a write) := by
  simp only [reachesNow, Bool.and_eq_true, Bool.not_eq_true', Option.isNone_iff_eq_none] at h
  exact ⟨h.1.1.1, h.1.1.2, does_got _ h.1.2, unhindered_of_clear h.2⟩

/-- No write is on its way to a place, as a Bool. -/
def unflown (s : State) (r : Res) (n : Nat) : Bool :=
  s.cores.all (fun e => e.2.flight.all (fun f => !overlaps f.place.key f.data.length r.key n))

theorem noFlights_of_unflown {s : State} {r : Res} {n : Nat} (h : unflown s r n = true) : noFlights s r n := by
  simp only [unflown, List.all_eq_true, Bool.not_eq_true'] at h
  exact fun _ e he f hf => h e he f hf

def readableNow (s : State) (c : Cap) (off n : Nat) : Bool :=
  let r := placeOf s c off false; let t := leftBy s c off false
  goes (resolve (whoNow s) c.obj c.sp off { write := false }) s && unflown t r n && clear t (whoNow s) .read (off, n, r) && !silent t r.key n &&
  (raceLine t (whoNow s) r.key n).isNone

theorem readable_now {s : State} {c : Cap} {off n : Nat} (h : readableNow s c off n = true) :
    readable s c off n (placeOf s c off false) (leftBy s c off false) := by
  simp only [readableNow, Bool.and_eq_true, Bool.not_eq_true', Option.isNone_iff_eq_none] at h
  exact ⟨does_got _ h.1.1.1.1, noFlights_of_unflown h.1.1.1.2, unhindered_of_clear h.1.1.2, h.1.2, h.2⟩

/-- The pieces of a store, and the state in which their translation ends. -/
def storing (s : State) (c : Cap) (a n : Nat) : M (List (Nat × Nat × Res)) :=
  resolveStore (whoNow s) c.obj c.sp { write := true } (atomPieces c.sp (atomFuel n) a n)

/-- The pieces of a store resolve, and nothing refuses one or breaks the race rule, as a Bool. -/
def storableNow (s : State) (c : Cap) (a n : Nat) : Bool :=
  let t := endOf (storing s c a n) s
  goes (storing s c a n) s && (got (storing s c a n) s []).all (fun p => clear t (whoNow s) .write p && (raceLine t (whoNow s) p.2.2.key p.2.1).isNone)

theorem storable_now {s : State} {c : Cap} {a n : Nat} (h : storableNow s c a n = true) :
    does (storing s c a n) s (got (storing s c a n) s []) (endOf (storing s c a n) s) ∧
    ∀ p ∈ got (storing s c a n) s [], unhindered (endOf (storing s c a n) s) (whoNow s) .write p ∧ raceFree (endOf (storing s c a n) s) (whoNow s) p := by
  simp only [storableNow, Bool.and_eq_true, List.all_eq_true, Option.isNone_iff_eq_none] at h
  exact ⟨does_got _ h.1, fun p hp => ⟨unhindered_of_clear (h.2 p hp).1, (h.2 p hp).2⟩⟩

def writableNow (s : State) (c : Cap) (a n : Nat) : Bool :=
  !pendingWrite s c.obj a n && !behindHost s (whoNow s) c.sp && !namesTable s (whoNow s).mcb c.obj && storableNow s c a n

theorem writable_now {s : State} {c : Cap} {a n : Nat} (h : writableNow s c a n = true) :
    writable s c a n (got (storing s c a n) s []) (endOf (storing s c a n) s) := by
  simp only [writableNow, Bool.and_eq_true, Bool.not_eq_true'] at h
  exact ⟨h.1.1.1, h.1.1.2, fun _ ht => absurd ht (by simp [h.1.2]), storable_now h.2⟩

theorem sys_of_other {s : State} {c : Cap} (h : namesTable s (whoNow s).mcb c.obj = false) : sysWhereNeeded s c :=
  fun _ ht => absurd ht (by simp [h])

theorem sys_of_right {s : State} {c : Cap} (h : c.perm &&& permSYS = permSYS) : sysWhereNeeded s c := fun _ _ => h

/-- Object 1 in another space, at its address there. -/
def spaced (sp : Nat) (f : Thread → Thread) : State :=
  let s := boot f
  { s with mem := memWrite s.mem (physKey 0 0 32) (leBytes 32 (bootDir.toNat + sp * 2 ^ 18)), rdy := BitVec.allOnes 64 }

/-- Nothing answers, so far. -/
def mutely (s : State) (key n : Nat) : State := { s with mute := [(key, n, 2 ^ 64)] }

/-- A hoard-log entry of a place in a space. -/
def parked (sp off : Nat) : Hoard :=
  { op := .store, cap := mkCap 1 sp permST 0 0 4096 0, off := off, data := [1], who := whoThread (boot id) 0, extent := 0, since := 0 }

/-- A command of an engine that has not started. -/
def waiting (e : BitVec 2) (ord : Nat) : Cmd :=
  { ord := ord, eng := e, seq := 0, pc := 0, ins := .accClr 0 0, args := [], caps := [], fmts := [], edges := EdgeSet.none, after := [] }

-- Words on registers

theorem test_hyp_operands : let s := boot (fun t => (t.setS 1 5).setS 55 7)
    reads 1 s 5 s ∧ reads 55 s 7 s ∧ reads 0 s 0 s ∧ (∃ t, writes 55 9 s t) ∧ ∃ t, writes 0 9 s t :=
  ⟨reads_register (by decide) _, reads_register (by decide) _, reads_register (by decide) _,
    ⟨_, writes_register (by decide) _ _⟩, ⟨_, writes_register (by decide) _ _⟩⟩

/-- The state after the placed word. -/
def stepped (w : Nat) (f : Thread → Thread) : State := (nextOf (step (placed w f))).getD State.reset

/-- Cores 0 and 1 as the plot of block 0. -/
def pair : State := (((boot id).updMcb 0 (fun b => { b with wlog := 1 })).setCore 1 (coreAt (boot id) 0))

/-- The thread of core 0 in a level 0 whose body is its own word. -/
def looping (cnt : Nat) : State :=
  boot (fun t => { (t.setLoop 0 ⟨w64 cnt, 3, 0, 0⟩).activate 0 with pc := 0 })

-- 10: clz, ctz, sext, zext
theorem test_hyp_unary : (0x10000#64).getLsbD (63 - 47) = true ∧ (∀ j < 64, 63 - 47 < j → (0x10000#64).getLsbD j = false) ∧
    (∀ j < 16, (0x10000#64).getLsbD j = false) ∧ (∀ j < 64, (0xFFFFFFFFFFFF8001#64).getLsbD j = (0x8001#64).getLsbD (Min.min j 15)) ∧
    (∀ j < 64, (0x8001#64).getLsbD j = (decide (j < 16) && (0xFFFFFFFFFFFF8001#64).getLsbD j)) ∧
    (∀ j < 8, ∀ b < 8, (0x0800000000000001#64).getLsbD (8 * j + b) = (0x0100000000000008#64).getLsbD (8 * (7 - j) + b)) := by decide +kernel

-- 11: faults, waits, traps, exit
/-- A part with no rings. -/
theorem ringless_boot : Ringless (boot id) := by
  intro p
  rcases p with _ | p
  · decide +kernel
  · exact ⟨show 0 < 32 by omega, rfl⟩

theorem test_hyp_fault : let s := boot id; (coreAt s s.turn).bound = some 0 ∧ (theThread s).h = false ∧
    (mcbAt s 0).inv.any (fun v => v.kill.isNone && v.preempt == .none) = true ∧ fieldNat (mcbAt s 0).faultpolicy (2 * 17) 2 = 0 ∧ Ringless s :=
  ⟨by decide +kernel, by decide +kernel, by decide +kernel, by decide +kernel, ringless_boot⟩

theorem test_hyp_handler : let s := boot (fun t => { t with handler := cap1 permEXEC 0x40 }); let r := boot (fun t => { t with h := true })
    (theThread s).h = false ∧ (theThread s).handler.tag = true ∧ (theThread s).handler.ver = 1 ∧ (theThread r).h = true ∧
    (theThread (boot id)).handler.tag = false ∧ (coreAt r 0).bound = some 0 ∧ (mcbAt r 0).inv.any (fun v => v.kill.isNone) = true := by
  decide +kernel

theorem test_hyp_traps : let s := boot id; let a := s.updPart 0 (fun p => { p with bps := [(0, 2 ^ 49)] })
    (coreAt s s.turn).bound = some 0 ∧ debugArmed s 0 = false ∧ (coreAt a a.turn).bound = some 0 ∧ debugArmed a 0 = true ∧
    (mcbAt a 0).inv.isSome = true ∧ (∃ e, decode 0 ≠ .error e) ∧ decode 0x00000017 = .error .noInstruction ∧
    decode 0x01000083 = .ok (.sext 0 0 0 2) ∧ decode 0x010000C3 = .error .reservedValue := by
  refine ⟨rfl, by decide +kernel, by decide +kernel, by decide +kernel, by decide +kernel, ⟨.noInstruction, nofun⟩, rfl, rfl, rfl⟩

theorem test_hyp_trapret : let s := boot (fun t => { t with h := true, estatus := 3 }); let r := boot (fun t => { t with h := true, estatus := 4 })
    (theThread s).h = true ∧ ((theThread s).estatus.extractLsb' 8 56 = 0 ∧ (theThread s).estatus.extractLsb' 2 2 = 0) ∧
    (coreAt s s.turn).pending = [] ∧ (theThread (boot id)).h = false ∧ (theThread r).h = true ∧ (theThread r).estatus.extractLsb' 2 2 ≠ 0 := by
  decide +kernel

/-- A core with a store in its log, and one with a match still to be reported. -/
def logged (h : Hoard) : State := (boot id).updCore 0 (fun c => { c with hoard := [h] })
def matched : State := (boot id).updCore 0 (fun c => { c with struck := some (FaultRec.mk 18 2 0x40 false none none 0 0 0 0 none, 0) })

theorem test_hyp_exit : (coreAt (boot id) 0).cmds = [] ∧ drained (boot id) ∧ (coreAt (stepped 0x80830104 id) 0).cmds ≠ [] ∧
    logDrained (logged (parked 0 64)) 0 = false ∧ (coreAt matched 0).cmds = [] ∧ logDrained matched 0 = true ∧
    (coreAt matched 0).struck ≠ none :=
  ⟨by decide +kernel, by unfold drained; decide +kernel, by decide +kernel, by decide +kernel, by decide +kernel, by decide +kernel, by decide +kernel⟩

-- 12: compares, ports, frames
theorem test_hyp_compare : ((5 : W64).toInt < (7 : W64).toInt) ∧ ((7 : W64) ≠ 5) ∧ ((-1 : W64).toNat ≥ (1 : W64).toNat) ∧
    ((-1 : W64).toInt < (1 : W64).toInt) ∧ (0#6).toNat < 56 ∧ (55#6).toNat < 56 := by decide +kernel

theorem test_hyp_ports : let w : QueueWord := ⟨9, EdgeSet.none, 0⟩
    let s := pair.updCore 0 (fun c => { c.setPort 1 [w] with qi := [w], qv := [w], qc := [⟨7, EdgeSet.none⟩] })
    (coreAt s s.turn).qi = [w] ∧ (coreAt s s.turn).qv = [w] ∧ (coreAt s s.turn).qc.length = 1 ∧ plotNeighbour s s.turn 1 = some 1 ∧
    (coreAt s s.turn).port 1 = [w] ∧ plotNeighbour s s.turn 0 = none ∧ plotNeighbour s s.turn 2 = none ∧ (coreAt pair pair.turn).qi = [] ∧
    (coreAt pair pair.turn).qv = [] ∧ (coreAt pair pair.turn).qc = [] ∧ plotNeighbour pair pair.turn 1 ≠ none ∧ (coreAt pair pair.turn).port 1 = [] := by
  decide +kernel

theorem test_hyp_push : let w : QueueWord := ⟨9, EdgeSet.none, 0⟩
    let full := pair.updCore 1 (fun c => { c.setPort 3 (List.replicate 8 w) with qi := List.replicate 16 w })
    let far := onThread pair (fun t => { t with mbdst := 1 })
    plotNeighbour pair pair.turn 1 = some 1 ∧ (1 : Nat) ≠ pair.turn ∧ drained pair ∧ logDrained (logged (parked 0 64)) 0 = false ∧ ((coreAt pair 1).port 3).length = 0 ∧
    ((coreAt full 1).port 3).length = 8 ∧ mailboxDest (theThread far) = 1 ∧ mailboxAccepts far far.turn 1 = true ∧
    (coreAt far 1).qi.length = 0 ∧ (coreAt full 1).qi.length = 16 ∧
    mailboxAccepts (onThread pair (fun t => { t with mbdst := 0x101 })) 0 33 = false := by
  unfold drained; decide +kernel

theorem test_hyp_completed : let s := boot id; (coreAt s s.turn).hold = none ∧ (theThread s).innermost = [] ∧
    (theThread (looping 2)).innermost = [0] ∧ ((theThread (looping 2)).loop 0).last = (theThread (looping 2)).pc := by decide +kernel

theorem test_hyp_register_frame : (nextOf (exec (.add 0 1 2 3) (boot id))).isSome = true ∧ (nextOf (exec (.sext 0 55 2 2) (boot id))).isSome = true ∧
    (nextOf (exec (.sel 0 0 2 3 1 7) (boot id))).isSome = true ∧ (nextOf (exec (.cmpi 0 5 7 2 3) (boot id))).isSome = true ∧
    (nextOf (exec (.pnot 0 1 7) (boot id))).isSome = true := by decide +kernel

-- 14: branches and loops
theorem test_hyp_branch : let s := boot (fun t => t.setP 1 true); (theThread s).endsLoop = false ∧ (theThread s).getP 1 = true ∧
    (theThread s).getP 2 = false ∧ (theThread s).getP 0 = true := by decide +kernel

theorem test_hyp_taken : let t := theThread (looping 2); lactLegal (zext64 t.lact) = true ∧ t.active 0 = true ∧ t.inBody 0 t.pc = true ∧
    t.inBody 0 (t.pc + 8) = false ∧ (∀ m < 4, t.active m = true → m = 0) := by decide +kernel

theorem test_hyp_loop_end : let t := theThread (looping 2); t.active 0 = true ∧ (t.loop 0).last = t.pc ∧ 1 < (t.loop 0).cnt.toNat ∧
    t.innermost = [0] ∧ (theThread (looping 1)).innermost = [0] ∧ ((theThread (looping 1)).loop 0).cnt = 1 ∧
    (theThread (looping 1)).endsLoop = false ∧ (theThread (looping 0)).innermost = [0] := by decide +kernel

theorem test_hyp_loop_words : let s := boot (fun t => t.setS 7 4); let t := theThread s; let u := theThread (looping 1)
    t.endsLoop = false ∧ t.active 0 = false ∧ t.innermost = [] ∧ t.getS 7 = 4 ∧ t.getS 0 = 0 ∧ u.endsLoop = false ∧ u.active 0 = true ∧
    (∃ m ∈ u.innermost, u.inBody m u.pc = true ∧ (u.loop m).last.toNat < (u.pc + BitVec.ofNat 64 (4 * 5)).toNat) := by
  decide +kernel

-- 16: capabilities
theorem test_hyp_bounds : let c := mkCap 1 0 permLD 0 0 4096 0x20; let d := mkCap 1 0 permLD 12 0 4096 0x10
    (c.lo ≤ c.cur ∧ c.cur + 0x100 ≤ c.hi ∧ c.cur % 2 ^ 4 = 0 ∧ 0x100 % 2 ^ 4 = 0 ∧ c.cur / 2 ^ 4 < 2 ^ 20 ∧ 0x100 / 2 ^ 4 < 2 ^ 20) ∧
    c.hi < c.cur + 65536 ∧ (d.lo ≤ d.cur ∧ d.cur + 2 ^ 25 ≤ d.hi ∧ ∀ e < 16, ¬ (d.cur % 2 ^ (e + 4) = 0 ∧ 2 ^ 25 / 2 ^ (e + 4) < 2 ^ 20)) := by
  decide +kernel

theorem test_hyp_narrow : ∀ i ∈ [Instr.cadd 0 2 1 4, .caddi 0 2 1 64, .ccur 0 2 1 4, .cand 0 2 1 4, .cbnd 0 2 1 4, .cmov 0 2 1],
    (nextOf (exec i (boot (fun t => (t.setC 1 (cap1 permLD 0)).setS 4 16)))).isSome = true := by decide +kernel

theorem test_hyp_ctab : let s := boot (fun t => { t.setS 5 255 with captab := cap1 permLD 0 }); let c := (theThread s).captab
    reads 5 s 255 s ∧ (255 : W64).toNat < 256 ∧ 256 ≤ (256 : W64).toNat ∧ notBehind s c (c.lo + 16 * 255) 16 ∧
    readable s c (c.lo + 16 * 255) 16 (placeOf s c (c.lo + 16 * 255) false) (leftBy s c (c.lo + 16 * 255) false) :=
  ⟨reads_register (by decide) _, by decide, by decide, ⟨by decide +kernel, fun h => absurd h (by decide +kernel)⟩, readable_now (by decide +kernel)⟩

-- 17: ports, slots, control words, system registers
theorem test_hyp_slots : let at_ := fun (st : SlotState) => ((coreAt ((boot id).updCore 0 (fun c => c.setSlot 3 ⟨st, false, false, [], EdgeSet.none, 0⟩)) 0).slot 3)
    (∀ st ∈ [SlotState.empty, .filling, .ready, .draining], (at_ st).state = st ∧ (at_ st).releasing = false) ∧
    (coreAt (boot id) 0).cmds = [] := by decide +kernel

theorem test_hyp_queues : let s := pair.updCore 0 (fun c => { c with qc := [⟨7, EdgeSet.none⟩] })
    plotNeighbour s s.turn 1 ≠ none ∧ plotNeighbour s s.turn 0 = none ∧ (coreAt s s.turn).qc.isEmpty = false ∧
    (coreAt s s.turn).qi.isEmpty = true := by decide +kernel

theorem test_hyp_control : let s := stepped 0x80830104 id; let c := coreAt s 0; let p := coreAt (s.updCore 0 (fun c => { c with posted := c.cmds, cmds := [] })) 0
    c.cmds.map (·.eng) = [0] ∧ (∀ x ∈ c.cmds ++ c.posted, x.eng ≠ 2) ∧ (1#4).getLsbD 0 = true ∧ (8#4).getLsbD 0 = false ∧ c.posted = [] ∧
    p.posted ≠ [] ∧ (8#4).getLsbD 3 = true ∧ (∃ x ∈ p.cmds ++ p.posted, x.eng = 0) ∧ (∃ x ∈ c.cmds, x.ord = mapGet 0 c.lastOrd 0) := by decide +kernel

theorem test_hyp_drain : let c := fun (x : List Cmd) => coreAt ((boot id).updCore 0 (fun c => { c with cmds := x })) 0
    (∀ x ∈ (c []).cmds, x.readsSlot 3 = false) ∧ (c [waiting 0 0]).cmds ≠ [] := by decide +kernel

theorem test_hyp_system : (255 : W64).extractLsb' 2 2 ≠ 0 ∧ (0xF3 : W64).toNat < 256 ∧ (0xF3 : W64).extractLsb' 2 2 = 0 ∧
    (0x1F1F : W64).toNat < 8192 ∧ (0x1F1F : W64).extractLsb' 5 3 = 0 ∧ (31#6).toNat < 32 := by decide +kernel

-- 20: loads and stores

theorem test_hyp_load : ∀ z ∈ ([(2 ^ 2, 65532), (2 ^ 3, 65528), (2 ^ 4, 65520)] : List (Nat × Nat)), let c := cap1 permLD 0; let s := boot (fun t => t.setC 1 c)
    admits c permLD z.2 z.1 ∧ notBehind s c z.2 z.1 ∧ roomIn s 55 ∧ z.2 % z.1 = 0 ∧ c.sp ≠ 6 ∧
    readable s c z.2 z.1 (placeOf s c z.2 false) (leftBy s c z.2 false) ∧ (loadGot s s.turn).2 = none := by
  intro z hz
  refine ⟨?_, ⟨?_, fun h => absurd h (by decide +kernel)⟩, fun _ => rfl, ?_, by decide +kernel, readable_now ?_, by decide +kernel⟩
  all_goals (revert z; first | decide +kernel | (unfold admits; decide +kernel))

theorem test_hyp_load_pieces : let c := cap1 permLD 0; let s := boot (fun t => t.setC 1 c); let h := spaced 2 (fun t => t.setC 1 (mkCap 1 2 permLD 0 0 4096 0))
    leftToRead s c 0x100 8 = [(0x100, 8)] ∧ leftToRead s c 0xFC 8 = [(0xFC, 4), (0x100, 4)] ∧
    leftToRead h (mkCap 1 2 permLD 0 0 4096 0) 0x105 8 = [(0x105, 3), (0x108, 5)] ∧ roomIn pair 57 :=
  ⟨by decide +kernel, by decide +kernel, by decide +kernel, fun _ => rfl⟩

/-- The store of eight bytes has a first piece, which flies or not. -/
def firstPiece (s : State) (c : Cap) (a n : Nat) (far : Bool) : Bool :=
  match got (storing s c a n) s [] with
  | (_, k, r) :: _ => flies (endOf (storing s c a n) s) (whoNow s) r k == far
  | [] => false

theorem test_hyp_store : let c := cap1 permST 65528; let s := boot (fun t => t.setC 1 c); let e := cap1 permST 0xFC
    let d := mkCap 1 3 (permST ||| permPERSIST) 0 0 4096 0; let p := mutely (spaced 3 (fun t => t.setC 1 d)) (physKey 3 0 0x20000) 65536
    (admits c permST 65528 8 ∧ c.sp ≠ 6 ∧ writable s c 65528 8 (got (storing s c 65528 8) s []) (endOf (storing s c 65528 8) s) ∧
      firstPiece s c 65528 8 false = true) ∧
    (writable s e 0xFC 8 (got (storing s e 0xFC 8) s []) (endOf (storing s e 0xFC 8) s) ∧ (got (storing s e 0xFC 8) s []).length = 2) ∧
    (admits d (permST ||| permPERSIST) 0 8 ∧ writable p d 0 8 (got (storing p d 0 8) p []) (endOf (storing p d 0 8) p) ∧
      firstPiece p d 0 8 true = true) ∧ s.dirtyAt = none :=
  ⟨⟨by unfold admits; decide +kernel, by decide +kernel, writable_now (by decide +kernel), by decide +kernel⟩,
    ⟨writable_now (by decide +kernel), by decide +kernel⟩,
    ⟨by unfold admits; decide +kernel, writable_now (by decide +kernel), by decide +kernel⟩, rfl⟩

theorem test_hyp_stc : let c := cap1 (permST ||| permSTCAP) 0; let v := cap1 permLD 0; let s := boot (fun t => (t.setC 1 c).setC 2 v)
    let m := resolve (whoNow s) 1 0 65520 { write := true }; let s2 := endOf m s; let s1 := endOf m s2
    admits c (permST ||| permSTCAP) 65520 16 ∧ c.sp ≠ 6 ∧ c.sp < 2 ∧ 65520 % 16 = 0 ∧ pendingWrite s c.obj 65520 16 = false ∧
    behindHost s (whoNow s) c.sp = false ∧ sysWhereNeeded s c ∧ namesTable s2 0 1 = false ∧
    (∃ r, does m s r s2 ∧ dirShared r.dir = false ∧ does m s2 r s1 ∧ unhindered s1 (whoNow s) .write (65520, 16, r) ∧
      raceFree s1 (whoNow s) (65520, 16, r) ∧ flies s1 (whoNow s) r 16 = false ∧ r.sp < 2) :=
  ⟨by unfold admits; decide +kernel, by decide +kernel, by decide +kernel, rfl, by decide +kernel, by decide +kernel, sys_of_other (by decide +kernel),
    by decide +kernel, got _ _ noPlace, does_got _ (by decide +kernel), by decide +kernel, does_this noPlace (by decide +kernel) (by decide +kernel),
    unhindered_of_clear (by decide +kernel), by unfold raceFree; decide +kernel, by decide +kernel, by decide +kernel⟩

theorem test_hyp_stc_far : let c := mkCap 1 3 (permST ||| permPERSIST) 0 0 4096 0
    let s := mutely (spaced 3 (fun t => (t.setC 1 c).setC 2 ⟨7, false⟩)) (physKey 3 0 0x20000) 65536
    let m := resolve (whoNow s) 1 3 65520 { write := true }; let s2 := endOf m s; let s1 := endOf m s2; let r := got m s noPlace
    admits c (permST ||| permPERSIST) 65520 16 ∧ pendingWrite s c.obj 65520 16 = false ∧ behindHost s (whoNow s) c.sp = false ∧ sysWhereNeeded s2 c ∧
    does m s r s2 ∧ does m s2 r s1 ∧ unhindered s1 (whoNow s) .write (65520, 16, r) ∧ raceFree s1 (whoNow s) (65520, 16, r) ∧
    flies s1 (whoNow s) r 16 = true :=
  ⟨by unfold admits; decide +kernel, by decide +kernel, by decide +kernel, fun h => absurd h (by decide +kernel), does_got _ (by decide +kernel),
    does_this noPlace (by decide +kernel) (by decide +kernel), unhindered_of_clear (by decide +kernel), by unfold raceFree; decide +kernel,
    by decide +kernel⟩

/-- Object 1 with a page that has not arrived. -/
def absentPage (f : Thread → Thread) : State := let s := boot f; { s with mem := memWrite s.mem (physKey 0 0 0x10000) [0] }

theorem test_hyp_parked_store : let c := cap1 permST 8; let s := absentPage (fun t => t.setC 1 c)
    let full := s.updCore 0 (fun c => { c with hoard := List.replicate 32 (parked 0 64) })
    let h := mkCap 1 2 permST 0 0 4096 8; let behind := (spaced 2 (fun t => t.setC 1 h)).updCore 0 (fun c => { c with hoard := [parked 2 64] })
    admits c permST 8 8 ∧ sysWhereNeeded s c ∧ sysWhereNeeded full c ∧ pendingWrite s 1 8 8 = false ∧ (∃ h, (storing s c 8 8).run s = .error (.wait h) (endOf (storing s c 8 8) s) ∧ h.kind = .parked) ∧
    (coreAt s 0).hoard.length < 32 ∧ behindHost s (whoNow s) c.sp = false ∧
    (∃ h, (storing full c 8 8).run full = .error (.wait h) (endOf (storing full c 8 8) full) ∧ h.kind = .parked) ∧
    pendingWrite full 1 8 8 = false ∧ (coreAt full 0).hoard.length = 32 ∧
    behindHost behind (whoNow behind) h.sp = true ∧ admits h permST 8 8 ∧ pendingWrite behind 1 8 8 = false ∧
    sysWhereNeeded behind h ∧ storableNow behind h 8 8 = true :=
  ⟨by unfold admits; decide +kernel, sys_of_other (by decide +kernel), sys_of_other (by decide +kernel), by decide +kernel, ⟨_, rfl, rfl⟩, by decide +kernel,
    by decide +kernel, ⟨_, rfl, rfl⟩, by decide +kernel, by decide +kernel, by decide +kernel, by unfold admits; decide +kernel, by decide +kernel,
    sys_of_other (by decide +kernel), by decide +kernel⟩

theorem test_hyp_access_faults : let c := cap1 permLD 65530; let d := mkCap 1 7 permLD 0 0 4096 0
    (¬ (Cap.null.tag = true ∧ Cap.null.ver = 1)) ∧ (c.tag = true ∧ c.ver = 1) ∧ ¬ (0 ≤ (0 : Int) + (-1) * 8) ∧
    (c.lo ≤ 65530 ∧ 65530 < c.hi ∧ c.hi < 65530 + 8) ∧ (c.hi ≤ 65536 ∧ (0 : Int) ≤ 65536 ∧ (65536 : Int) < 2 ^ 40) ∧
    (c.lo ≤ 65528 ∧ 65528 + 8 ≤ c.hi ∧ (cap1 permST 0).perm &&& permLD ≠ permLD) ∧
    (d.perm &&& permLD = permLD ∧ 6 < d.sp ∧ d.lo ≤ 0 ∧ 0 + 8 ≤ d.hi) := by decide +kernel

/-- Object 1's line at 0x100, last written by a core's thread of another invocation that was bound after this one. -/
def stamped (f : Thread → Thread) : State := { boot f with stamps := [(physKey 0 0 0x20100 / 64, ⟨.thread 5 3, 2, 9, 0⟩)] }

theorem test_hyp_race : let c := cap1 permLD 0x104; let s := stamped (fun t => t.setC 1 c); let w := whoNow s
    let r := placeOf s c 0x104 false; let s1 := leftBy s c 0x104 false; let st : Stamp := ⟨.thread 5 3, 2, 9, 0⟩
    admits c permLD 0x104 4 ∧ roomIn s 55 ∧ noFlights s1 r 4 ∧ leftToRead s c 0x104 4 = [(0x104, 4)] ∧ notBehind s c 0x104 4 ∧ does (resolve w c.obj c.sp 0x104 { write := false }) s r s1 ∧
    r.key / 64 = (r.key + 4 - 1) / 64 ∧ keySpace r.key = 0 ∧ s1.hostDeny = [] ∧ silent s1 r.key 4 = false ∧ mapFind s1.stamps (r.key / 64) = some st ∧
    st.agent ≠ w.agent ∧ st.agent ≠ .external ∧ w.bindings ≤ st.bindings ∧ w.edges.pairs = [] ∧ w.edges.cover = [] :=
  ⟨by unfold admits; decide +kernel, fun _ => rfl, noFlights_of_unflown (by decide +kernel), by decide +kernel,
    ⟨by decide +kernel, fun h => absurd h (by decide +kernel)⟩, does_got _ (by decide +kernel), by decide +kernel⟩

theorem test_hyp_no_race : ∀ st ∈ [(⟨.thread 0 0, 2, 9, 0⟩ : Stamp), ⟨.external, 0, 0, 0⟩], let s := { boot id with stamps := [(100, st)] }
    (mapFind s.stamps 100 = some st ∧ (st.agent = (whoNow s).agent ∨ st.agent = .external)) := by decide +kernel

-- 21: full/empty words and atomics

/-- Object 1 with the word at 0x100 full or empty, and a capability of every right at it. -/
def allRights : BitVec 12 := 0x7FF
def flagged (full : Bool) : State :=
  { boot (fun t => t.setC 1 (cap1 allRights 0x100)) with fe := if full then [(physKey 0 0 0x20100 / 8, true)] else [] }

theorem test_hyp_full_empty : let c := cap1 allRights 0x100
    admits c (permLD ||| permFE) 0x100 8 ∧ admits c (permST ||| permFE) 0x100 8 ∧ c.sp = 0 ∧ 0x100 % 8 = 0 ∧
    ∀ full : Bool, let s := flagged full; drained s ∧ sysWhereNeeded s c ∧ roomIn s 55 ∧
      ∀ write : Bool, let r := placeOf s c 0x100 write; let s1 := leftBy s c 0x100 write
        reaches s c 0x100 8 write r s1 ∧ feFull s1 (r.key / 8) = full ∧
        ∀ want : Bool, laterThanOthers s1 (reached s1 s.turn r.key) s.turn r.key want = false := by
  refine ⟨by unfold admits; decide +kernel, by unfold admits; decide +kernel, by decide +kernel, rfl, fun full => ?_⟩
  cases full <;> refine ⟨by unfold drained; decide +kernel, sys_of_other (by decide +kernel), fun _ => rfl, fun write => ?_⟩ <;> cases write <;>
    exact ⟨reaches_now (by decide +kernel), by decide +kernel, by decide +kernel⟩

theorem test_hyp_full_empty_bits : let s := flagged true; let r := placeOf s (cap1 allRights 0x100) 0x100 false
    ∀ k < 64, (1 : W64).getLsbD k = (decide (k < 8) && feFull s (r.key / 64 * 8 + k)) := by decide +kernel

theorem test_hyp_atomic : let c := cap1 permAMO 65528; let s := boot (fun t => (t.setC 1 c).setS 2 7)
    admits c permAMO 65528 8 ∧ 65528 % 8 = 0 ∧ c.sp = 0 ∧ sysWhereNeeded s c ∧ reads 2 s 7 s ∧ (8 : BitVec 4).toNat < 9 ∧ (10 : BitVec 4).toNat < 11 ∧
    reaches s c 65528 8 true (placeOf s c 65528 true) (leftBy s c 65528 true) ∧
    farAnswers (leftBy s c 65528 true) (65528, 8, placeOf s c 65528 true) ∧ (loadGot s s.turn).1 = [] ∧ notBehind s c 65528 8 ∧
    behindHost s (whoNow s) c.sp = false ∧ noFlights (leftBy s c 65528 true) (placeOf s c 65528 true) 8 ∧ roomIn s 55 ∧ (theThread s).getC 1 = c ∧ flies (leftBy s c 65528 true) (whoNow s) (placeOf s c 65528 true) 8 = false :=
  ⟨by unfold admits; decide +kernel, rfl, by decide +kernel, sys_of_other (by decide +kernel), reads_register (by decide) _, by decide, by decide,
    reaches_now (by decide +kernel), by unfold farAnswers; decide +kernel, rfl, ⟨by decide +kernel, fun h => absurd h (by decide +kernel)⟩, by decide +kernel,
    noFlights_of_unflown (by decide +kernel), fun _ => rfl, by decide +kernel, by decide +kernel⟩

theorem test_hyp_atomic_far : ∀ sp ∈ [1, 2, 4, 5], let c := mkCap 1 sp permAMO 0 0 4096 0; let s := spaced sp (fun t => (t.setC 1 c).setS 2 7)
    admits c permAMO 0 8 ∧ c.sp = sp ∧ sysWhereNeeded s c ∧ reaches s c 0 8 true (placeOf s c 0 true) (leftBy s c 0 true) ∧
    farAnswers (leftBy s c 0 true) (0, 8, placeOf s c 0 true) ∧ behindHost s (whoNow s) c.sp = false ∧
    noFlights (leftBy s c 0 true) (placeOf s c 0 true) 8 ∧ notBehind s c 0 8 := by
  intro sp hsp
  refine ⟨?_, ?_, sys_of_other ?_, reaches_now ?_, ?_, ?_, noFlights_of_unflown ?_, ?_, fun _ e he f hf => ?_⟩
  · revert sp; unfold admits; decide +kernel
  · revert sp; decide +kernel
  · revert sp; decide +kernel
  · revert sp; decide +kernel
  · revert sp; unfold farAnswers; decide +kernel
  · revert sp; decide +kernel
  · revert sp; decide +kernel
  · revert sp; decide +kernel
  · revert f; revert e; revert sp; decide +kernel

/-- A posted write of the running core to NEPOL on its way. -/
def flying (s : State) (sp : Nat) : State :=
  s.updCore 0 (fun c => { c with flight := [⟨.store, whoThread s 0, mkCap 1 sp permST 0 0 4096 0, 64, { noPlace with sp := sp }, [1], 64, 0⟩] })

theorem test_hyp_red_far : let c := mkCap 1 4 permAMO 0 0 4096 0; let s := flying (spaced 4 (fun t => (t.setC 1 c).setS 2 7)) 4
    reaches s c 0 8 true (placeOf s c 0 true) (leftBy s c 0 true) ∧ farAnswers (leftBy s c 0 true) (0, 8, placeOf s c 0 true) ∧
    flies (leftBy s c 0 true) (whoNow s) (placeOf s c 0 true) 8 = true ∧ reads 2 s 7 s :=
  ⟨reaches_now (by decide +kernel), by unfold farAnswers; decide +kernel, by decide +kernel, reads_register (by decide) _⟩

-- 22: fences, barriers, generations, records

theorem test_hyp_fences : let s := boot id; let t := logged (parked 3 0); let f := mutely (flying s 3) 0 1
    let w := { s with switch := [⟨⟨whoThread s 0, 0, 0, noPlace⟩, 0, true, 7, [0], [], none, 0⟩] }
    (drained s ∧ drained f ∧ drained w ∧ logDrained t t.turn = false) ∧ ((coreAt s 0).flight = [] ∧ ∀ e ∈ s.switch, e.ofCore s.turn = false) ∧
    (coreAt f 0).flight ≠ [] ∧ (∃ e ∈ w.switch, e.ofCore w.turn = true) ∧
    (∃ h ∈ (coreAt t t.turn).hoard, h.cap.sp = 3 ∧ h.who.agent.isThread = true) ∧ (∃ x ∈ (coreAt f 0).flight, x.place.sp = 3) ∧
    (coreAt s s.turn).hoard = [] ∧ (coreAt s s.turn).pmemDirty = false ∧ (∀ d ∈ s.mute, keySpace d.1 = 3 → d.2.2 ≤ s.pt) ∧
    ∀ pt ∈ [99, 100], let p := { s.updCore 0 (fun c => { c with pmemDirty := true }) with mute := [(physKey 3 0 0, 64, 100)], pt := pt }
      (coreAt p p.turn).pmemDirty = true ∧ ((∃ d ∈ p.mute, keySpace d.1 = 3 ∧ p.pt < d.2.2) ↔ pt = 99) := by
  unfold drained
  refine ⟨by decide +kernel, by decide +kernel, by decide +kernel, by decide +kernel, ⟨parked 3 0, by decide +kernel, by decide +kernel⟩, ?_⟩
  decide +kernel

/-- A block 1 whose object table is page 0 of object 1 of block 0, with its HORIZON. -/
def leased (horizon : Nat) : State :=
  { (boot (fun t => t.setC 1 (cap1 permSYS 0))).setMcb 1 { Mcb.zero with v := true, otPhys := 0x20000, horizon := w64 horizon } with pt := 100 }

theorem test_hyp_lwait : ∀ horizon ∈ [83, 84], let s := leased horizon; let c := (theThread s).getC 1
    let s1 := (fenceRelease (fenceAcquire s s.turn 3) s.turn 3).updCore s.turn (fun c => { c with recorded := c.edges })
    let x := resolve (whoNow s1) c.obj 0 c.lo { write := false }; let s2 := endOf x s1; let m := (1, mcbAt s2 1)
    c.tag = true ∧ c.ver = 1 ∧ c.perm &&& permSYS = permSYS ∧ c.sp = 0 ∧ logDrained s s.turn = true ∧ (coreAt s s.turn).struck = none ∧ heldLease s s.turn = none ∧
    goes x s1 = true ∧ m ∈ s2.mcbs ∧ m.2.v = true ∧ physKey 0 0 m.2.otPhys = (got x s1 noPlace).key ∧
    (∀ e ∈ s2.mcbs, e.2.v = true → physKey 0 0 e.2.otPhys = (got x s1 noPlace).key → e = m) ∧
    (if horizon = 83 then m.2.horizon.toNat + 16 < localPt s s.turn else localPt s s.turn ≤ m.2.horizon.toNat + 16) := by
  decide +kernel

theorem test_hyp_lwait_held : ∀ e ∈ [99, 100], let s := { (boot (fun t => t.setC 1 (cap1 permSYS 0))).updCore 0 (fun c =>
        { c with hold := some { kind := .lease, ins := .lwait 0 1, since := 0, until_ := e } }) with pt := 100 }
    heldLease s s.turn = some e ∧ drained s ∧ (if e = 99 then e < localPt s s.turn else localPt s s.turn ≤ e) := by
  unfold drained; decide +kernel

/-- Object 1 with a barrier line at 0x100, and what the core tracks of it. -/
def barred (epoch phase expect count : Nat) (tr : List BTrack) : State :=
  let s := boot (fun t => (t.setC 1 (cap1 allRights 0x100)).setS 2 65535)
  let line := leBytes 64 (0x5A425252 + epoch * 2 ^ 32 + phase * 2 ^ 48 + expect * 2 ^ 64 + count * 2 ^ 80)
  { s with mem := memWrite s.mem (physKey 0 0 0x20100) line }.updCore 0 (fun c => { c with btrack := tr })

theorem test_hyp_barrier : let c := cap1 allRights 0x100
    let line := fun s write => BitVec.ofNat 512 (leNat (bytesAt (leftBy s c 0x100 write) 0 c 0x100 64 (placeOf s c 0x100 write)))
    admits c (permST ||| permFE) 0x100 64 ∧ admits c permFE 0x100 64 ∧
    (let s := barred 0 0 1 0 []; (∃ r s1, reaches s c 0x100 64 true r s1) ∧ reads 2 s 65535 s ∧ drained s ∧ sysWhereNeeded s c ∧
      barValid (line s true) = true ∧ barArrived (line s true) + 1 = barExpect (line s true) ∧ btFind (coreAt (leftBy s c 0x100 true) 0) 0 1 0x100 = none) ∧
    (let s := barred 3 4 2 0 [⟨0, 1, 0x100, 3, 4, false⟩]; (∃ r s1, reaches s c 0x100 64 true r s1) ∧ barValid (line s true) = true ∧
      barArrived (line s true) + 1 ≠ barExpect (line s true) ∧ barEpoch (line s true) = 3 ∧ barPhase (line s true) = 4 ∧
      btFind (coreAt (leftBy s c 0x100 true) 0) 0 1 0x100 = some ⟨0, 1, 0x100, 3, 4, false⟩) ∧
    (∀ phase ∈ [0, 65535], let s := barred 3 phase 2 1 [⟨0, 1, 0x100, 3, 65535, true⟩]
      reachesNow s c 0x100 64 false = true ∧ barValid (line s false) = true ∧
      btFind (coreAt (leftBy s c 0x100 false) 0) 0 1 0x100 = some ⟨0, 1, 0x100, 3, 65535, true⟩ ∧ barEpoch (line s false) = 3 ∧
      (if phase = 0 then barPhase (line s false) = 65535 + 1 else barPhase (line s false) = 65535)) :=
  ⟨by unfold admits; decide +kernel, by unfold admits; decide +kernel,
    ⟨⟨_, _, reaches_now (by decide +kernel)⟩, reads_register (by decide) _, by unfold drained; decide +kernel, sys_of_other (by decide +kernel), by decide +kernel⟩,
    ⟨⟨_, _, reaches_now (by decide +kernel)⟩, by decide +kernel⟩, by decide +kernel⟩

/-- A capability table in object 1 whose entry 255 is a generation region of object 1. -/
def generation (size : Nat) : State :=
  let s := boot (fun t => { t.setS 2 (w64 size) with captab := cap1 permLD 0 })
  { s with mem := memWrite s.mem (physKey 0 0 0x20FF0) (leBytes 16 (cap1 allRights 0).bits.toNat), tags := [(physKey 0 0 0x20FF0 / 16, true)] }

theorem test_hyp_generation : ∀ size ∈ [0, 1, 16384, 16385], let s := generation size; let x := loadEntry (whoNow s) s.turn 255; let s1 := endOf x s
    let g := (got x s (Cap.null, none)).1
    goes x s = true ∧ (got x s (Cap.null, none)).2 = none ∧ g.tag = true ∧ g.ver = 1 ∧ g.sp < 2 ∧ g.perm &&& 3 = 3 ∧ (g.hi - g.lo) % 256 = 0 ∧
    (coreAt s1 s.turn).bound = some 0 ∧ (mcbAt s1 0).inv.isSome = true ∧ s1.turn = s.turn ∧
    ((size = 0 ∨ size = 16385) ↔ size = 0 ∨ slabPlace g 0 0 (roundUp size 64) = none) := by decide +kernel

theorem test_hyp_gen_pass : (∀ j ∈ (mcbAt pair 0).plot, (coreAt pair 0).gen < (coreAt pair j).gen + 3) ∧
    (∃ j ∈ (mcbAt pair 0).plot, j ≠ pair.turn ∧ (coreAt pair j).gen ≤ 0) ∧ (∀ j ∈ (mcbAt (boot id) 0).plot, j = 0) ∧
    (coreAt pair 0).bound = some 0 ∧ (mcbAt pair 0).inv.isSome = true ∧ drained pair ∧
    (coreAt pair pair.turn).flight = [] ∧ ∀ e ∈ pair.switch, e.ofCore pair.turn = false := by
  unfold drained; decide +kernel

/-- The plot holds 512 records. -/
def fullOfTasks : State :=
  (boot id).updInv 0 (fun i => { i with tasks := List.replicate 512 ⟨0, 0, 0, 0, EdgeSet.none, 0, 0, 0, false, 0, false, none, none⟩ })

theorem test_hyp_task_post : let c := fun p cur => cap1 p cur; let s := boot (fun t => t.setC 1 (cap1 (permLD ||| permENG) 65472))
    let p := permLD ||| permENG; let x := resolve (whoNow s) 1 0 65472 { write := false }
    ((c permLD 0).perm &&& p ≠ p ∧ (mkCap 1 1 p 0 0 4096 0).sp ≠ 0 ∧ (c p 32).cur % 64 ≠ 0 ∧ (c p 65536).cur % 64 = 0 ∧ (c p 65536).hi < 65536 + 64 ∧
    (mkCap 1 0 p 0 4 65472 0).cur < (mkCap 1 0 p 0 4 65472 0).lo ∧ (c p 65472).lo ≤ 65472 ∧ 65472 + 64 ≤ (c p 65472).hi ∧
    (mcbAt s 0).inv.any (fun v => decide (v.tasks.length < 512)) = true ∧ (mcbAt fullOfTasks 0).inv.any (fun v => decide (512 ≤ v.tasks.length)) = true) ∧ drained s ∧ (∃ r, does x s r (endOf x s) ∧
      unhindered (endOf x s) (whoNow s) .read (65472, 64, r)) := by
  intro c s p x
  refine ⟨?_, ⟨by unfold drained; decide +kernel, got x s noPlace, does_got _ (by decide +kernel), unhindered_of_clear (by decide +kernel)⟩⟩
  decide +kernel


/-- R375: a PMEM block that is stored to holds the old or the new value after a loss of power, and once durable the new one alone. -/
theorem test_pmem_power : let k := physKey 3 0 0; let w := whoThread State.reset 0
    let s := markBytes (putBytes State.reset none k (leBytes 8 5)) w EdgeSet.none k 8
    survivors s (k / 8) = [0, 5] ∧ survivors (makeDurable s (fun _ => true)) (k / 8) = [5] ∧
    memNat (losePower [] s).mem k 8 = 0 ∧ memNat (losePower [(k / 8, 1)] s).mem k 8 = 5 := by decide +kernel
-- 30: engine words

/-- Core 0 with n commands of an engine that have not started. -/
def queueOf (e : BitVec 2) (n : Nat) : State :=
  (boot (fun t => t.setC 1 (cap1 allRights 0))).updCore 0 (fun c => { c with cmds := (List.range n).map (waiting e) })

theorem test_hyp_room : (∀ e, room (queueOf e 31) e) ∧ ∀ e, ¬ room (queueOf e 32) e := by unfold room; decide +kernel

theorem test_hyp_operand : operand (cap1 allRights 0) permLD [0, 1] ∧ operand (cap1 allRights 0) permST [0, 1, 2, 3, 4, 5] ∧
    operand (mkCap 1 5 (permENG) 0 0 4096 0) 0 [0, 1, 2, 3, 4, 5] ∧ operand (mkCap 1 3 (permST ||| permPERSIST ||| permENG) 0 0 4096 0)
      (permST ||| permPERSIST) [0, 1, 2, 3, 4, 5] ∧ (cap1 allRights 65472).cur % 64 = 0 := by
  unfold operand; decide +kernel

theorem test_hyp_bad_operand : let a : Cap := { cap1 allRights 0 with tag := false }; let b := cap1 permLD 0; let c := mkCap 1 6 allRights 0 0 4096 0
    (a.tag = false ∨ a.ver ≠ 1) ∧ (b.tag = true ∧ b.ver = 1 ∧ b.perm &&& permENG ≠ permENG) ∧
    (c.tag = true ∧ c.ver = 1 ∧ c.perm &&& permENG = permENG ∧ 5 < c.sp) := by decide +kernel

/-- Operands with ENG that lack a right that the word asks for, or lie in a space that it does not take. -/
theorem test_hyp_refused_operand : let valid := fun (c : Cap) => c.tag = true ∧ c.ver = 1; let e := cap1 permENG 0
    let p := mkCap 1 3 (permST ||| permENG) 0 0 4096 0; let h := mkCap 1 2 allRights 0 0 4096 0; let x := mkCap 1 7 allRights 0 0 4096 0
    (valid e ∧ e.perm &&& (permLD ||| permENG) ≠ permLD ||| permENG ∧ e.perm &&& (permST ||| permENG) ≠ permST ||| permENG) ∧
    (valid p ∧ p.perm &&& (permST ||| permPERSIST ||| permENG) ≠ permST ||| permPERSIST ||| permENG) ∧
    (valid h ∧ h.perm &&& (permST ||| permENG) = permST ||| permENG ∧ h.sp ∉ [0, 1]) ∧
    (valid x ∧ x.perm &&& (permLD ||| permENG) = permLD ||| permENG ∧ x.sp ∉ [6, 0, 1, 2, 3, 4, 5]) := by decide +kernel

theorem test_hyp_vector_words : (55 : BitVec 6).toNat < 56 ∧ (54 : BitVec 6).toNat < 55 ∧
    ∀ p ∈ [(0x200022, 0, 118), (0x220020, 118, 0)], let t := theThread (boot (fun t => { t with fmt := [(0, BitVec.ofNat 64 p.1)] }))
      let e := t.getFmt (t.selectFmt 0)
      (fieldNat e 40 24 = 0 ∧ fieldNat e 24 9 = 0 ∧ entRm e ≤ 5 ∧ fmtOf (entA e) ≠ none ∧ fmtOf (entO e) ≠ none ∧ entA e ≠ 0x23 ∧ entO e ≠ 0x23) ∧
      ((wide32 (entA e) = true ∧ narrow (entO e) = true ∧ p.2.2 ≤ 120 - 32 / fmtWidth (entO e)) ∨
        (narrow (entA e) = true ∧ wide32 (entO e) = true ∧ p.2.1 ≤ 120 - 32 / fmtWidth (entA e))) := by decide +kernel

theorem test_hyp_matrix_words :
    (∀ p ∈ [(0x222020, (1 : BitVec 1)), (0x232323 + 2 * 2 ^ 35, 0)], let t := theThread (boot (fun t => { t with fmt := [(0, BitVec.ofNat 64 p.1)] }))
      let e := t.getFmt (t.selectFmt 0); entryValid e = true ∧ (entAcc e = 2 → p.2 = 0)) ∧
    (∀ x ∈ [(⟨.ready, false, false, [], EdgeSet.none, 0⟩ : OmSlot), ⟨.filling, true, false, [], EdgeSet.none, 0⟩],
      x.state = .ready ∨ x.state = .filling ∧ x.releasing = false ∧ x.fill = true) ∧
    (1 ≤ (4096 : W64).toNat ∧ (4096 : W64).toNat ≤ 4096) ∧ ((4096 : W64).toNat % 32 = 0 ∧ 32 ≤ (4096 : W64).toNat) ∧
    (epdOk 0 = true ∧ epdOk 0xFFFFFFFF3F3F804F = true) ∧ (0 : W64).getLsbD 15 = false ∧ (0xFFFFFFFF3F3F804F : W64).getLsbD 15 = true ∧
    ((256 : W64).toNat % 16 = 0 ∧ epdCols 0x3F0000 * outBytes 0x222020 ≤ (256 : W64).toNat) ∧ (480 : W64).toNat ≤ 480 := by decide +kernel

theorem test_hyp_copy_words : (1 : W64).toNat < 2 ∧ (3 : W64).toNat < 4 ∧ (0xFF03 : W64).toNat < 65536 ∧ (0xFF03 : W64).extractLsb' 2 6 = 0 ∧
    (0xFFFFFFFF : W64).toNat < 2 ^ 32 ∧ fieldNat (0x0001000000000FFF : W64) 0 32 * fieldNat (0x0001000000000FFF : W64) 32 32 < 2 ^ 32 ∧
    (let l : W64 := 0x1000FFFFFFFF; l.extractLsb' 45 19 = 0 ∧ 1 ≤ fieldNat l 32 13 ∧ fieldNat l 32 13 ≤ 4096) ∧
    (let x : OmSlot := ⟨.filling, false, false, [], EdgeSet.none, 0⟩; x.state = .filling ∧ x.releasing = false ∧ x.fill = false) ∧
    (16384 : W64).toNat ≤ 16384 ∧ 2 ^ 25 ≤ (0x2000000 : W64).toNat ∧ (1 : BitVec 5) ≠ 0 := by decide +kernel

theorem test_hyp_copy_bounds :
    let ok := fun (w l : W64) (d e : BitVec 5) => let dir := fieldNat w 2 2
      decide (w &&& ~~~0x1FF000D = 0) && dir != 3 && decide (l.toNat < 2 ^ 32) && (if dir = 1 then d == 0 else d != 0) &&
      (if dir = 2 then e == 0 else e != 0) && (if dir = 0 then fieldNat w 16 9 == 0 else decide (l.toNat % 512 = 0 ∧ fieldNat w 16 9 + l.toNat / 512 ≤ 512))
    (ok 1 0xFFFFFFFF 1 2 && ok 0x1FF0004 512 0 2 && ok 0x1FF0008 512 1 0) = true ∧
    (ok 2 0 1 2 || ok 12 0 1 2 || ok 0 0x100000000 1 2 || ok 4 512 1 2 || ok 8 512 1 2 || ok 0 64 0 2 || ok 0x10000 64 1 2 || ok 0x1FF0004 1024 0 2 ||
      ok 4 500 0 2) = false ∧
    ((4 : W64) &&& ~~~0xFF03 ≠ 0 ∧ ¬ (2 : W64).toNat < 2 ∧ ¬ (4 : W64).toNat < 4 ∧ ¬ (0x100000000 : W64).toNat < 2 ^ 32 ∧
      ¬ fieldNat (0x0001000000010000 : W64) 0 32 * fieldNat (0x0001000000010000 : W64) 32 32 < 2 ^ 32 ∧ fieldNat (0x200000000000 : W64) 45 19 ≠ 0) ∧
    16384 < (16385 : W64).toNat ∧ (let x : OmSlot := ⟨.ready, false, false, [], EdgeSet.none, 0⟩; ¬ (x.state = .filling ∧ x.releasing = false)) := by
  decide +kernel

theorem test_hyp_network_words : (1 ≤ (1 : W64).toNat ∧ (0x7FFFFFFF : W64).toNat < 2 ^ 31 ∧ (0xFFFFFF : W64).toNat < 2 ^ 24) ∧
    (8192 : W64).toNat ≤ 8192 ∧ ((0xFF1F : W64).toNat < 65536 ∧ (0xFF1F : W64).extractLsb' 5 3 = 0) ∧ (63 : W64).toNat < 64 ∧
    (31 : W64).toNat < 32 ∧ operand (mkCap 1 6 (permLD ||| permENG) 0 0 4096 0) permLD [0, 1, 2, 3, 4, 5, 6] := by unfold operand; decide +kernel

-- 40: frames and the Sower

/-- Port 0 with one mapped pair for partition 0, and the Sower ready. -/
def mapped : IngressPair := { port := 0, vlan := 5, ipv4 := [0x0A000001], ipv6 := [] }
def wired : State :=
  { State.reset with rdy := 2 ^ 36 + 1, ingress := [⟨mapped, 0⟩] }.updPart 0 (fun p => { p with exists_ := true, invport := 700 })
def arpFrame : Frame := { length := 64, dst := 0xFFFFFFFFFFFF, src := 7, serviceTag := false, tags := [5], body := .arp true 0x0A000001 9, raw := [] }
def ip4 : Ipv4Header := { ihl := 5, moreFragments := false, fragmentOffset := 0, sumOk := true, tos := 0, src := 0x0A000002, dst := 0x0A000001 }
def callFrame : Frame := { arpFrame with dst := 0, length := 9216, body := .ipv4 ip4 (.udp 1000 700 true false (List.replicate 64 0)) }

theorem test_hyp_frames : let s := wired; let e : Ingress := ⟨mapped, 0⟩
    let ok := fun (port : Nat) (f : Frame) => portStands s port = true ∧ s.rdy.getLsbD (physicalPort s port) = true ∧ f.length ≤ 9216 ∧ f.serviceTag = false ∧ f.tags.length ≤ 1
    ¬ ok 1 arpFrame ∧ ¬ ok 0 { callFrame with length := 9217 } ∧ ok 0 arpFrame ∧ ok 0 callFrame ∧ ok 0 { arpFrame with body := .pause } ∧
    (∀ e ∈ s.ingress, e.pair.port = 0 → e.pair.vlan ≠ frameVlan { arpFrame with tags := [] }) ∧
    s.ingress.find? (fun e => e.pair.port == 0 && e.pair.vlan == frameVlan arpFrame) = some e ∧ arpFrame.body ≠ .pause ∧
    macAccepted (portAt s 0) e.pair { arpFrame with dst := 3 } = false ∧ macAccepted (portAt s 0) e.pair arpFrame = true ∧
    macAccepted (portAt s 0) e.pair callFrame = true ∧ ip4.ihl = 5 ∧ ip4.sumOk = true ∧ ip4.dst ∈ e.pair.ipv4 ∧
    (partAt s 0).invport = 700 ∧ s.rdy.getLsbD 36 = true ∧ (partAt s 0).scrubbing = false ∧ (portAt s 0).queue.length < 512 ∧
    (portAt s 0).bytes + 64 ≤ 4 * 2 ^ 20 := by decide +kernel

theorem test_hyp_port_parts : let s := { wired with breakout := [(0, 4), (7, 2)] }
    (∀ p ∈ [1, 2, 3, 6, 56, 57], portStands s p = true) ∧ (∀ p ∈ [4, 5], portStands s p = true) ∧ (∀ p ∈ [7, 8 + 1, 58, 64], portStands s p = false) ∧
    physicalPort s 3 = 0 ∧ physicalPort s 57 = 7 ∧ physicalPort s 4 = 4 := by decide +kernel

theorem test_hyp_neighbour : let a : BitVec 128 := 0xFE80000000000000000000000000ABCD
    let s := { wired with ingress := [⟨{ mapped with ipv6 := [a] }, 0⟩] }; let ip : Ipv6Header := ⟨58, 0, 3, solicitedIp a⟩
    let f := { arpFrame with dst := 0, body := .ipv6 ip (.solicitation a) }; let p := { arpFrame with dst := 0x0180C2000001, body := .pfc 1 [5] }
    macAccepted (portAt s 0) { mapped with ipv6 := [a] } f = true ∧ ip.nextHeader = 58 ∧ ip.dst = solicitedIp a ∧ f.length ≤ 9216 ∧ f.tags.length ≤ 1 ∧
    p.length ≤ 9216 ∧ p.tags.length ≤ 1 ∧ (1#8).getLsbD 0 = true ∧ (1#8).getLsbD 7 = false := by decide +kernel

/-- IPv4 headers, port states, and IPv6 datagrams on both sides of each condition. -/
theorem test_hyp_datagrams : let whole := fun (ip : Ipv4Header) => ip.ihl == 5 && !ip.moreFragments && ip.fragmentOffset == 0 && ip.sumOk && ip.dst == 0x0A000001
    (whole ip4 = true ∧ ∀ ip ∈ [{ ip4 with ihl := 6 }, { ip4 with moreFragments := true }, { ip4 with fragmentOffset := 1 }, { ip4 with sumOk := false },
      { ip4 with dst := 1 }], whole ip = false) ∧
    ((partAt wired 0).slowPath = false ∧ (partAt (wired.updPart 0 (fun p => { p with slowPath := true })) 0).slowPath = true) ∧
    ({ wired with rdy := 1 }.rdy.getLsbD 36 = false ∧ (partAt (wired.updPart 0 (fun p => { p with scrubbing := true })) 0).scrubbing = true) ∧
    (let m : Message := ⟨0, 0, 7, 0, 5, true, false, 0, 0, 1000, 0, []⟩;
      512 ≤ (portAt (wired.updPort 0 (fun p => { p with queue := List.replicate 512 m })) 0).queue.length ∧
      (portAt (wired.updPort 0 (fun p => { p with queue := List.replicate 511 m })) 0).queue.length < 512) ∧
    ((700 : W16) ≠ 4791 ∧ (4790 : W16) ≠ 4791 ∧ (4790 : W16) ≠ (partAt wired 0).invport) := by decide +kernel

theorem test_hyp_long_message : 4 * 2 ^ 20 < (portAt wired 0).bytes + (List.replicate (4 * 2 ^ 20 + 1) (0 : Byte)).length ∧
    (portAt wired 0).bytes + (List.replicate (4 * 2 ^ 20) (0 : Byte)).length ≤ 4 * 2 ^ 20 := by
  rw [List.length_replicate, List.length_replicate]; decide +kernel

theorem test_hyp_six : let a : BitVec 128 := 0xFE80000000000000000000000000ABCD; let pair := { mapped with ipv6 := [a] }
    let s := { wired with ingress := [⟨pair, 0⟩] }; let ip : Ipv6Header := ⟨17, 0, 3, a⟩
    let whole := fun (ip : Ipv6Header) (zero good : Bool) => ip.nextHeader == 17 && pair.ipv6.contains ip.dst && !zero && good
    let here := fun (ip : Ipv6Header) => ip.nextHeader == 58 && pair.ipv6.any (fun a => ip.dst == a || ip.dst == solicitedIp a)
    macAccepted (portAt s 0) pair { callFrame with body := .ipv6 ip (.udp 1000 700 false true []) } = true ∧ whole ip false true = true ∧
    (whole ip true true || whole ip false false || whole { ip with nextHeader := 43 } false true || whole { ip with dst := 1 } false true) = false ∧
    here { ip with nextHeader := 58 } = true ∧ here ip = false ∧ here { ip with nextHeader := 58, dst := 1 } = false ∧ (a + 1) ∉ pair.ipv6 := by decide +kernel

/-- A message for function 9 by a key slot. -/
def message (plen slot : Nat) : Message :=
  { port := 0, part := 0, smac := 7, dmac := 0, tci := 5, tagged := true, v6 := false, sip := 0, dip := 0, sport := 1000, tos := 0,
    payload := leBytes 48 (0x5A494E56 + 2 ^ 32 + plen * 2 ^ 48 + 9 * 2 ^ 64 + slot * 2 ^ 288) ++ List.replicate (plen + 16) 0 }

/-- The Sower with a key slot 2 for partition 0, and a block 3 of function 9 with a queue of two entries. -/
def sowing (state : BitVec 3) (f : Mcb → Mcb) : State :=
  { wired.setMcb 3 (f { Mcb.zero with v := true, funcid := 9, keyslot := 2, state := state, queue := mkCap 1 0 permLD 0 0 512 0 }) with
    slots := [(2, ⟨0, 5, 1⟩)] }

theorem test_hyp_sower_accepts : ∀ p ∈ [(1, 2), (1, 3)], let m := message p.1 p.2; let s := (sowing 0 id).updPort 0 (fun q => { q with queue := [m] })
    s.sower = none ∧ s.nextAccept ≤ 10 * s.pt ∧ s.rdy.getLsbD 36 = true ∧ nextPort s = some 0 ∧ (portAt s 0).queue = [m] ∧
    m.payload.length = 48 + reqPlen m.header + 16 ∧ ((m.headerOk = true ∧ slotKey s (reqKeyslot m.header) m.part ≠ none) ↔ p.2 = 2) := by
  decide +kernel

theorem test_hyp_sower_checks : let s := { sowing 0 id with sower := some (message 1 2, some ([7], 40)), pt := 50 }
    s.sower = some (message 1 2, some ([7], 40)) ∧ { s with sower := some (message 1 2, none) }.sower = some (message 1 2, none) := ⟨rfl, rfl⟩

theorem test_hyp_sower_looks : let two := message 1 2
    let f := fun (m : Message) (s : State) => s.mcbs.find? (fun e => e.2.v && e.2.funcid == reqFuncid m.header && e.2.part == m.part)
    slotKey (sowing 0 id) (reqKeyslot two.header) two.part = some 5 ∧ 4032 < reqPlen (message 4033 2).header ∧ reqPlen (message 4032 2).header ≤ 4032 ∧
    (∀ e ∈ wired.mcbs, e.2.v = true → e.2.funcid = reqFuncid two.header → e.2.part ≠ two.part) ∧
    (∀ st ∈ [0, 1, 3, 6], f two (sowing (BitVec.ofNat 3 st) id) = some (3, mcbAt (sowing (BitVec.ofNat 3 st) id) 3)) ∧
    (mcbAt (sowing 0 id) 3).keyslot.toNat = reqKeyslot two.header ∧ (mcbAt (sowing 0 id) 3).keyslot.toNat ≠ reqKeyslot (message 1 4).header ∧
    (mcbAt (sowing 0 id) 3).queueFull = false ∧ (partAt (sowing 0 id) 0).frozen = false ∧
    (mcbAt (sowing 1 (fun b => { b with qtail := 2 })) 3).queueFull = true := by decide +kernel

-- 41: placement and binding

/-- Island 0 as partition 0, with a save pool, and a queued block 3 of a shape. -/
def seeds (log : BitVec 3) : State :=
  let s := (sowing 1 (fun b => { b with wlog := log, hlog := log, prio := 2, entries := [emptyEntry] }))
  (s.updPart 0 (fun p => { p with savePool := (0, 100) })).updIsland 0 (fun i => { i with powered := true, part := some 0 })

/-- The same, with a block 0 of priority 0 that runs on core 0. -/
def crowded : State := ((seeds 3).setMcb 0 (bootBlock 0)).setCore 0 (bootCore 0)

theorem test_candidates_seeds : candidates (seeds 0) 0 = [(2, 0, 3, false)] ∧ candidates crowded 0 = [(2, 0, 3, false)] := by
  constructor <;> decide +kernel

theorem test_victim_crowded : victim crowded 3 2 = some (0, 0, 0) := by decide +kernel

theorem test_hyp_placement : ∀ s ∈ [seeds 0, crowded], s.rdy.getLsbD 36 = true ∧ (partAt s 0).frozen = false ∧ reservedReady s 0 = none ∧
    (mcbAt s 3).inv = none ∧ (mcbAt s 3).entries.head? = some emptyEntry := by decide +kernel

theorem test_hyp_plot : freePlot (seeds 0) 3 2 = some (0, 0) ∧ freePlot crowded 3 2 = none ∧ saveRun crowded 0 ≠ none := by decide +kernel

/-- Core 0's block in the stage of a binding, its four capabilities of object 1. -/
def binding (stage : BindStage) (f : Mcb → Mcb) : State :=
  ((boot id).updMcb 0 (fun b => f { b with
    state := 2, image := cap1 permEXEC 0, captab := cap1 permLD 0, queue := cap1 permLD 0, objtab := cap1 permLD 0 })).updInv 0 (fun i => { i with stage := stage })

theorem test_hyp_bind : let s := binding .preload id; let b := mcbAt s 0
    b.inv.any (fun i => i.stage == .preload) = true ∧ b.state = 2 ∧ (∃ init s1, does (bindRead s 0) s (some init) s1) ∧
    (let t := binding .preload (fun b => { b with init := cap1 permLD 0 }); ∃ init s1, does (bindRead t 0) t (some init) s1 ∧ init.length = 129) ∧
    (let t := binding .preload (fun b => { b with queue := mkCap 9 0 permLD 0 0 4096 0 }); ∃ s1, does (bindRead t 0) t none s1) :=
  ⟨by decide +kernel, by decide +kernel, ⟨_, _, does_this none (by decide +kernel) (by decide +kernel : _ = some [])⟩,
    ⟨List.replicate 129 0, _, does_this none (by decide +kernel) (by decide +kernel), by decide +kernel⟩,
    ⟨_, does_this (some []) (by decide +kernel) (by decide +kernel)⟩⟩

theorem test_hyp_first_fetch : let s := binding .fetch id; let a := { s with sowerLog := [(0, 0, [])] }
    (mcbAt s 0).inv.any (fun i => i.stage == .fetch && i.awaiting.isEmpty) = true ∧ (mcbAt s 0).state = 2 ∧ s.sowerLog = [] ∧
    (∀ k ∈ (mcbAt s 0).plot, (mcbAt s 0).inv.all (fun i => !resumes s 0 i.serial k) = true ∧ (coreAt s k).pending = []) ∧
    (∃ e ∈ a.sowerLog, e.1 = 0 ∧ e.2.1 = (mcbAt a 0).qhead.toNat) ∧
    (mcbAt (s.updInv 0 (fun i => { i with awaiting := [(0, none)] })) 0).inv.any (fun i => i.awaiting.any (fun a => a.2.isNone)) = true := by
  decide +kernel

theorem test_hyp_restore : let s := binding .restore (fun b => { b with saved := [(0, bootCore 0)] }); let r := { s with mem := memWrite s.mem (physKey 1 0 0) (leBytes 8 (0x5A535649 + 2 ^ 32)) }
    (mcbAt s 0).inv.any (fun i => i.stage == .restore) = true ∧ (mcbAt s 0).state = 2 ∧ ((mcbAt s 0).saved.map (·.1)).Nodup ∧ imageFails r 0 = none ∧ imageFails s 0 ≠ none := by decide +kernel

theorem test_hyp_decoder_table : let s := (binding .running (fun b => { b with init := cap1 permLD 0 })).updCore 0 (fun c =>
      { c with mat := { c.mat with loading := 2 } })
    (coreAt s 0).bound = some 0 ∧ (mcbAt s 0).inv.any loadsTables = true ∧ (∃ l s1, does (readTable s 0 1) s l s1) ∧
    (coreAt s 0).mat.loading.getLsbD 1 = true ∧ (∀ j < 1, (coreAt s 0).mat.loading.getLsbD j = false) :=
  ⟨by decide +kernel, by decide +kernel, ⟨_, _, does_got [] (by decide +kernel)⟩, by decide +kernel, by decide +kernel⟩

-- 42: accesses from outside

/-- GSRAM and HBM ready, an export of GSRAM to device 4, and a queue pair 1 of core 0 with a posted buffer of 16 bytes. -/
def peer : QpPeer := ⟨0, 0, 0, 0, 0, 14⟩
def asker : RoceSource := { port := 0, vlan := 5, qp := 1 }
def postedBuffer : Cmd :=
  { ord := 0, eng := 3, seq := 0, pc := 0, ins := .netPost 0 1 2 3, args := [16, 1], caps := [cap1 allRights 0], fmts := [],
    edges := EdgeSet.none, after := [], started := true }
def opened : State :=
  { (boot id).updCore 0 (fun c => { c with posted := [{ postedBuffer with args := [16, 1], tmp := [] }] }) with
    rdy := 2 ^ 40 - 1, qps := [(1, ⟨0, 0, 0, peer⟩)], ingress := [⟨mapped, 0⟩], pt := 9, exports := [(0, ⟨4, 0, 0, 16, true, true⟩)] }

theorem test_hyp_outside : let s := opened
    (∀ p ∈ [(0, 2 ^ 31 - 8), (1, 2 ^ 39 - 8), (0, 0)], p.1 < 2 ∧ physReady s p.1 p.2 = true ∧ physExists p.1 p.2 8 = true ∧ pageOwner s p.1 p.2 = none ∧ heldBefore s p.1 p.2 = false ∧
      ∀ l ∈ linesOf (physKey p.1 0 p.2) 8, mapFind s.bad l = none ∧ unitTag s l = none) ∧ s.dirtyAt = none ∧ mapFind s.qps 1 ≠ none ∧
    mappedPair s asker = true ∧ mappedPair s { asker with port := 1 } = false ∧ mappedPair s { asker with vlan := 6 } = false ∧
    (∀ q ∈ [(⟨4, 1, true, 0, 0, .read 8, []⟩ : NepolAccess), ⟨4, 1, false, 0, 0, .write [1], []⟩], portRefuses s q = false) ∧
    portRefuses s ⟨4, 0, true, 0, 0, .read 8, []⟩ = true ∧ exported s 4 0 0 8 true true = true ∧ exported s 5 0 0 8 true true = false ∧ s.performed = [] ∧
    (let b := { s with bad := [(physKey 0 0 0 / 64, 1)] }; ∃ l ∈ linesOf (physKey 0 0 0) 8, mapFind b.bad l ≠ none) := by
  decide +kernel

/-- What holds an access from outside back: a die that is not ready, a frozen partition, an earlier one; and a pause of an answer. -/
theorem test_hyp_held_back : let s := opened; let f := { s with rdy := 2 ^ 36 + 1 }; let i := { s with inbound := [.host 0 0 [1]] }
    let q := { s with inbound := [.send asker [1]] }; let z := s.updPart 0 (fun p => { p with frozen := true })
    let p := s.updPort 0 (fun p => { p with pausedUntil := [(0, 10)] })
    placeHeld f 0 0 = true ∧ placeHeld f 1 0 = true ∧ placeHeld i 0 0 = false ∧ heldBefore i 0 0 = true ∧ mappedPair i asker = true ∧ mapFind i.qps 1 ≠ none ∧
    sendHeld q asker.qp = true ∧ sendHeld s asker.qp = false ∧ (partAt z (mcbAt z 0).part.toNat).frozen = true ∧
    p.pt < mapGet 0 (portAt p 0).pausedUntil 0 ∧ ¬ s.pt < mapGet 0 (portAt s 0).pausedUntil 0 ∧ (portAt s 0).held = [] ∧
    (∀ v ∈ [0, 1], (memNat s.mem 0 8 = v ↔ v = 0)) := by decide +kernel

theorem test_hyp_receive : let s := opened; let x := (coreAt s 0).posted.headD postedBuffer; let t : State := { s with turn := 0 }
    (mcbAt s 0).inv.isSome = true ∧ (partAt s 0).frozen = false ∧ (mcbAt s 0).state = 3 ∧ (coreAt s 0).bound = some 0 ∧ (mcbAt s 7).inv = none ∧
    (coreAt s 0).posted.find? (fun x => x.qp == 1) = some x ∧ does (bufferPages x) t [] (endOf (bufferPages x) t) ∧
    ∀ x ∈ (coreAt s 0).posted, x.qp ≠ 2 := by
  refine ⟨by decide +kernel, by decide +kernel, by decide +kernel, by decide +kernel, by decide +kernel, by decide +kernel, ?_, by decide +kernel⟩
  have h : got (bufferPages ((coreAt opened 0).posted.headD postedBuffer)) { opened with turn := 0 } [] = [] := by decide +kernel
  have := does_got (m := bufferPages ((coreAt opened 0).posted.headD postedBuffer)) (s := { opened with turn := 0 }) [] (by decide +kernel)
  rwa [h] at this

-- 43: engines and tile tasks

/-- A computation goes through with a result and a state of which something holds. -/
def gives {α : Type} (m : M α) (s : State) (p : α → State → Bool) : Bool :=
  match m.run s with
  | .ok x t => p x t
  | .error _ _ => false

theorem does_of_gives {α : Type} {m : M α} {s : State} {p : α → State → Bool} (h : gives m s p = true) :
    ∃ x t, does m s x t ∧ p x t = true := by
  unfold gives at h; unfold does
  cases e : m.run s with
  | ok x t => rw [e] at h; exact ⟨x, t, rfl, h⟩
  | error e' t => rw [e] at h; cases h

/-- A command of core 0, and core 0 with commands. -/
def command (e : BitVec 2) (i : Instr) (args : List W64) (caps : List Cap) (fmts : List W64) : Cmd :=
  { waiting e 3 with ins := i, args := args, caps := caps, fmts := fmts }
def busy (l : List Cmd) : State := (boot id).updCore 0 (fun c => { c with cmds := l })

/-- A product of so many rows on the slots 1 and 2. -/
def product (rows : Nat) : Cmd := { command 1 (.mma 0 0 1 2 0 3) [w64 rows] [] [0x222020] with started := true }

theorem test_hyp_start : let x := command 0 (.vadd 0 1 2 3 0) [] [] []; let s := busy [x]
    let y := { x with after := [1] }; let b := busy [{ waiting 3 1 with started := true }, y]; let a := busy [{ x with ord := 1, started := true }, x]
    (enginesRun s 0 = true ∧ nextCmd (coreAt s 0) 0 = some x ∧ holdsStill s x = false ∧ x.isPost = false ∧ canStart s 0 x = true ∧
      stepBreak s 0 x (x.step + 1) = none ∧ x.waits = [] ∧ x.chained = none) ∧
    (∃ z s1, does (startOf { x with
        parked := none, ask := none }) s z s1 ∧ (!Cmd.isPost z) = true) ∧
    (nextCmd (coreAt b 0) 0 = some y ∧ chainHolds b 0 y = true) ∧
    (nextCmd (coreAt a 0) 0 = some x ∧ canStart a 0 x = false ∧ slotWaits a 0 x = [] ∧ chainHolds a 0 x = false ∧
      ∀ z ∈ (coreAt a 0).cmds, z.ord = x.ord → z = x) :=
  ⟨by decide +kernel, does_of_gives (p := fun z _ => !Cmd.isPost z) (by decide +kernel), by decide +kernel, by decide +kernel⟩

/-- A product whose first slot is still being filled waits for its fill alone. -/
theorem test_hyp_fill_awaited : let x := { product 1 with started := false }
    let s := (busy [x]).updCore 0 (fun c => (c.setSlot 1 ⟨.filling, true, false, [], EdgeSet.none, 0⟩).setSlot 2 ⟨.ready, false, false, [], EdgeSet.none, 0⟩)
    enginesRun s 0 = true ∧ nextCmd (coreAt s 0) 1 = some x ∧ holdsStill s x = false ∧ canStart s 0 x = false ∧ chainHolds s 0 x = false ∧
    slotWaits s 0 x = [1] ∧ x.waits = [] ∧ x.chained = none ∧ ∀ z ∈ (coreAt s 0).cmds, z.ord = x.ord → z = x := by decide +kernel

/-- A beat of a command that stands in the log of core 0. -/
def beatOf (ord : Nat) : Hoard := { parked 0 64 with who := { whoThread (boot id) 0 with agent := .command 0 2 ord } }

theorem test_hyp_ending : let x := { command 2 (.cpSet 0 1 4 5) [1, 64, 7] [cap1 allRights 0] [] with started := true, ending := some (0, 0) }
    let s := busy [x]; let t := s.updCore 0 (fun c => { c with hoard := [beatOf 3] })
    let z := { x with caps := [mkCap 1 3 allRights 0 0 4096 0], done := 1 }; let m := { busy [z] with mute := [(physKey 3 0 0, 64, 100)] }
    (startedCmds s 0 2)[0]? = some x ∧ x.posting = none ∧ endsLater s 0 x = false ∧ (startedCmds t 0 2)[0]? = some x ∧ endsLater t 0 x = true ∧
    parkedWrites t 0 x = true ∧ x.isEpilogue = false ∧ (startedCmds m 0 2)[0]? = some z ∧ awaitsFlush m z = true ∧ endsLater m 0 z = true ∧
    (let y := { x with ord := 4 }; endsAfter (busy [x, y]) 0 y = true ∧ endsAfter (busy [x, y]) 0 x = false) := by
  decide +kernel

/-- A command whose completion entry waits for room in qc. -/
theorem test_hyp_posting : ∀ n ∈ [31, 32], let x := { command 2 (.cpSet 0 1 4 5) [1, 64, 7] [cap1 allRights 0] [] with started := true, posting := some 9 }
    let s := (busy [x]).updCore 0 (fun c => { c with qc := List.replicate n ⟨0, EdgeSet.none⟩ })
    (startedCmds s 0 2)[0]? = some x ∧ x.posting = some 9 ∧ enginesRun s 0 = true ∧ (32 ≤ (coreAt s 0).qc.length ↔ n = 32) := by decide +kernel

theorem test_hyp_vector : let x := { command 0 (.vadd 0 119 119 0 0) [] [] [] with started := true }; let s := busy [x]
    ((startedCmds s 0 0)[0]? = some x ∧ x.posting = none ∧ x.ending = none ∧ endsLater s 0 x = false ∧ x.parked = none ∧ x.hit = none ∧
      stepBreak s 0 x (x.step + 1) = none ∧ (119#7).toNat < 120) ∧ ∀ r, ((coreAt s 0).vec.phys r).length = 128 := by
  refine ⟨by decide +kernel, fun r => ?_⟩
  have h : (coreAt (busy [{ command 0 (.vadd 0 119 119 0 0) [] [] [] with started := true }]) 0).vec.v = [] := by decide +kernel
  simp only [VectorState.phys, h, mapGet, mapFind]; rfl

/-- A fill of 64 bytes that posts its completion, and a clear that does not. -/
def setting (len : Nat) : Cmd := { command 2 (.cpSet 0 1 4 5) [1, w64 len, 7] [cap1 allRights 0] [] with started := true }
def clearing : Cmd := { command 1 (.accClr 0 0) [] [] [] with started := true }

theorem test_hyp_complete : (∀ x ∈ [setting 128, setting 64, clearing], let s := busy [x]
      (startedCmds s 0 x.eng)[0]? = some x ∧ x.posting = none ∧ x.ending = none ∧ x.isMma = false ∧ holdsStill s x = false ∧ stepBreak s 0 x (x.step + 1) = none ∧ x.hit = none) ∧
    gives (stepOf .none (setting 128)) (busy [setting 128]) (fun p _ => match p with | .more _ => true | _ => false) = true ∧
    (∀ n ∈ [31, 32], gives (stepOf .none (setting 64))
      ((busy [setting 64]).updCore 0 (fun c => { c with qc := List.replicate n ⟨0, EdgeSet.none⟩ })) (fun p t => match p with
        | .done y _ _ => y.hit.isNone && y.posting.isNone && y.posts && !endsLater t 0 y && (coreAt t 0).cmds.any (fun z => z.ord == y.ord) && (coreAt t 0).qc.length == n
        | _ => false) = true) ∧
    gives (stepOf .none (setting 64)) ((busy [setting 64]).updCore 0 (fun c => { c with hoard := [beatOf 3] })) (fun p t => match p with
        | .done y _ _ => y.hit.isNone && y.posting.isNone && parkedWrites t 0 y && !y.isEpilogue && (coreAt t 0).cmds.any (fun z => z.ord == y.ord)
        | _ => false) = true ∧
    gives (stepOf .none clearing) (busy [clearing]) (fun p t => match p with
        | .done y _ _ => y.hit.isNone && y.posting.isNone && !y.posts && (coreAt t 0).cmds.any (fun z => z.ord == y.ord)
        | _ => false) = true := by decide +kernel

theorem test_hyp_mma : (∀ n ∈ [256, 257], let x := product n; let s := busy [x]
      (startedCmds s 0 1).find? (fun x => x.isMma && x.posting.isNone && x.ending.isNone) = some x ∧ stepBreak s 0 x (segmentEndOf s 0 x) = none ∧ x.hit = none) ∧
    gives (matrixStep (product 257)) (busy [product 257]) (fun p _ => match p with | .more y => y.eng == 1 | _ => false) = true ∧
    gives (matrixStep (product 256)) (busy [product 256]) (fun p t => match p with
      | .done y _ _ => y.isMma && y.eng == 1 && !endsLater t 0 y && y.hit.isNone && y.posting.isNone
      | _ => false) = true := by decide +kernel

/-- A record of stream 5 on entries 0, 1, 2 and the synchronisation object 3 of a capability table at 0x1000 of object 1, whose
operand B is a coded tensor of one raw tile at 0x200. -/
def taskBits (wen : Bool) : BitVec 512 :=
  BitVec.ofNat 512 (5 + (if wen then 2 ^ 24 else 0) + 2 ^ 264 + 2 * 2 ^ 272 + 3 * 2 ^ 280 + 16 * 2 ^ 304 + 0x800 * 2 ^ 336 + 256 * 2 ^ 416 + 2 ^ 469)
def taskOf (wen : Bool) : TaskRec :=
  { n := 4, core := 0, bits := taskBits wen, off := 0, edges := EdgeSet.none, arrivals := 0, fentry := 0x220000, eentry := 0x220000, seen := false }
def tasking (wen : Bool) (f : Core → Core) : State :=
  let s := (((boot id).updMcb 0 (fun b => { b with captab := mkCap 1 0 permLD 0 0x100 4096 0 })).updInv 0 (fun i => { i with tasks := [taskOf wen] })).updCore 0 f
  let at_ := fun (m : List Host.Cell) (o : Nat) (n v : Nat) => memWrite m (physKey 0 0 (0x20000 + o)) (leBytes n v)
  let c := fun (cur : Nat) => (cap1 allRights cur).bits.toNat
  { s with
    mem := at_ (at_ (at_ (at_ (at_ (at_ (at_ s.mem 0x1000 16 (c 0x3000)) 0x1010 16 (c 0x200)) 0x1020 16 (c 0x4000)) 0x1030 16 (c 0)) 0x200 16
      (0x5A574958 + 2 ^ 32 + 2 ^ 48)) 0x210 8 64) 0x240 32 (0x5A574331 + 2 ^ 32 + 16 * 2 ^ 64 + 1024 * 2 ^ 96 + 2 ^ 128)
    tags := [0x1000, 0x1010, 0x1020, 0x1030].map (fun o => (physKey 0 0 (0x20000 + o) / 16, true))
    fe := [(physKey 0 0 0x20800 / 8, true)] }

theorem test_hyp_issue : let s := tasking false id; let i0 := ((mcbAt s 0).inv).getD (newInv Mcb.zero emptyEntry 0 0); let i := i0.serve (readyStreams s 0 i0)
    let u := noteReady s 0; let t := taskOf false; let t' := { t with edges := t.edges.join (mapGet EdgeSet.none i.taskEdges 5) }
    (mcbAt s 0).inv = some i0 ∧ i0.halted = false ∧ i0.stage = .running ∧ i.nextServed = some 5 ∧ freeEngine u 0 = some 0 ∧
    headRecord u 0 i 5 = some t ∧ t.parked = none ∧
    gives (issueRecord (recordWho u 0 0 t') 0 t') { u with turn := 0 } (fun x _ => match x with | .run _ _ _ none none => true | _ => false) = true := by decide +kernel

/-- The same record with a group of columns that its image does not have. -/
def badTask : TaskRec := { taskOf false with bits := taskBits false &&& ~~~(0xFFFF#512 <<< 304) }

theorem test_hyp_issue_faults : let s := (tasking false id).updInv 0 (fun i => { i with tasks := [badTask] })
    let i0 := ((mcbAt s 0).inv).getD (newInv Mcb.zero emptyEntry 0 0); let i := i0.serve (readyStreams s 0 i0); let u := noteReady s 0
    i.nextServed = some 5 ∧ freeEngine u 0 = some 0 ∧ headRecord u 0 i 5 = some badTask ∧
    let t' := { badTask with edges := badTask.edges.join (mapGet EdgeSet.none i.taskEdges 5) }
    (match (issueRecord (recordWho u 0 0 t') 0 t').run { u with turn := 0 } with | .error (.fault f) _ => f.cls != 9 | _ => false) = true := by decide +kernel

theorem test_hyp_recheck : let s := tasking true id; let i0 := ((mcbAt s 0).inv).getD (newInv Mcb.zero emptyEntry 0 0); let t := taskOf true
    headRecord s 0 i0 5 = some t ∧ t.wen = true ∧ t.seen = false ∧ t.since = 0 ∧ (∀ n', n' ≠ 5 → ∀ t', headRecord s 0 i0 n' = some t' → t'.wen = false ∨ t'.seen = true) ∧
    gives (readWaitWord (recordWho s 0 t.core t) 0 t) { s with turn := t.core }
      (fun x s1 => (x.any (fun r => r.2.2.isNone)) && (mcbAt s1 0).inv == some i0) = true := by
  refine ⟨by decide +kernel, by decide +kernel, by decide +kernel, by decide +kernel, fun n' hn t' h => ?_, by decide +kernel⟩
  have e : (((mcbAt (tasking true id) 0).inv).getD (newInv Mcb.zero emptyEntry 0 0)).tasks = [taskOf true] := by decide +kernel
  have e' : (taskOf true).stream = 5 := by decide +kernel
  unfold headRecord at h
  split at h
  · cases h
  · simp only [e, List.find?_cons, e', List.find?_nil] at h
    rw [beq_eq_false_iff_ne.mpr (Ne.symm hn)] at h
    cases h

/-- Core 0 with a task of 16 rows that has done all of them, before its epilogue or before its footer. -/
def taskAt (epi : Nat) : TaskCtx :=
  { task := taskOf false, edges := EdgeSet.none, rows := 16, caps := [cap1 allRights 0x3000, cap1 allRights 0x200, cap1 allRights 0x4000, Cap.null],
    ktiles := 1, tile := 1, tileOff := 0x240, used := 0, passRows := 0, panel := 0, aBuf := [], bBuf := [], bank := [], satc := 0, epi := epi,
    eb := ⟨[], 0, 0, 0⟩, parked := none }
def running (epi : Nat) : State := tasking false (fun c => { c with mat := { c.mat with task := some (taskAt epi) } })

theorem test_hyp_task_step : (∀ n ∈ [0, 1, 3], enginesRun (running n) 0 = true ∧ (coreAt (running n) 0).bound = some 0 ∧ (coreAt (running n) 0).mat.task = some (taskAt n) ∧
      (taskAt n).parked = none ∧ (taskAt n).hit = none) ∧
    gives (taskStep (taskAt 0)) (running 0) (fun p _ => match p with | .still _ => true | _ => false) = true ∧
    gives (taskStep { taskAt 0 with rows := 0 }) (running 0) (fun p _ => match p with | .beat _ none => true | _ => false) = true ∧
    gives (taskStep (taskAt 3)) (running 3) (fun p t => match p with | .done _ => (mcbAt t 0).inv.isSome | _ => false) = true := by decide +kernel

-- 44: waits

/-- Core 0 holding at a word. -/
def holding (kind : WaitKind) (i : Instr) (until_ : Nat) (f : Core → Core) : State :=
  { (boot (fun t => t.setC 1 (cap1 allRights 0x100))).updCore 0 (fun c => f { c with hold := some { kind := kind, ins := i, since := 0, until_ := until_ } }) with pt := 100 }

/-- No earlier write of core 0 is outstanding: what `drained` asks. -/
def clean (s : State) : Prop := logDrained s 0 = true ∧ (coreAt s 0).struck = none

theorem test_hyp_waits : let held := fun (s : State) => threadRuns s 0 = true ∧ (coreAt s 0).hold.any (fun h => !stillHeld s 0 h) = true
    (let s := holding .slot (.omClaim 0 3) 0 id; held s ∧ ((coreAt s 0).slot 3).state = .empty ∧ ((coreAt s 0).slot 3).releasing = false) ∧
    (let s := holding .eqFence (.eqFence 0 9) 0 id; held s ∧ (∀ x ∈ (coreAt s 0).cmds, maskNames 9 x.eng = false) ∧ (coreAt s 0).posted = []) ∧
    (let s := holding .drain .exit 0 id; held s ∧ (coreAt s 0).cmds = [] ∧ clean s) ∧
    (let s := holding .generation (.genPass 0) 0 id; held s ∧ (coreAt s 0).bound = some 0 ∧ (mcbAt s 0).inv.isSome = true ∧ clean s ∧ (coreAt s 0).flight = [] ∧ s.switch = [] ∧
      ∀ j ∈ (mcbAt s 0).plot, (coreAt s 0).gen < (coreAt s j).gen + 3) ∧
    (let s := holding .hoarded (.fence 0 2 1) 0 id; held s ∧ clean s ∧ (coreAt s 0).flight = [] ∧ s.switch = []) ∧
    (let s := holding .fence (.pbar 0) 0 (fun c => { c with pmemDirty := true }); held s ∧ (coreAt s 0).hoard = [] ∧ (coreAt s 0).flight = [] ∧ s.mute = []) ∧
    (let s := holding .lease (.lwait 0 1) 99 (fun c => { c with th := c.th.setC 1 (cap1 permSYS 0) }); held s ∧
      (let p := (theThread s).getC 1; p.tag = true ∧ p.ver = 1 ∧ p.perm &&& permSYS = permSYS ∧ p.sp = 0) ∧ clean s ∧ 99 < localPt s 0) ∧
    (let s := (holding .port (.add 0 1 57 0) 0 id).updCore 0 (fun c => { c with hold := c.hold.map (fun h => { h with flag := 62 }), qi := [⟨1, EdgeSet.none, 0⟩] });
      held s ∧ portAnswers s 0 62 = true) := by unfold clean; decide +kernel

/-- The word at 0x100 of object 1, full or empty, and core 0 holding at ld.fe of it. -/
def heldFlag (full : Bool) : State :=
  { holding .flag (.ldFe 0 5 1 0) 0 (fun c => { c with hold := c.hold.map (fun h => { h with flag := physKey 0 0 0x20100 }) }) with
    fe := if full then [(physKey 0 0 0x20100 / 8, true)] else [] }

/-- The same with the place that the form has been sent to, and the lease that it was sent under. -/
def sentFlag (full : Bool) : State :=
  (heldFlag full).updCore 0 (fun c => { c with hold := c.hold.map (fun h =>
    { h with issued := true, place := some (0x100, 8, placeOf (heldFlag full) (cap1 allRights 0x100) 0x100 true), lease := 91 }) })

theorem test_hyp_held_forms : let c := cap1 allRights 0x100; let at_ := fun s => placeOf s c 0x100 true
    (∀ full, let s := heldFlag full; threadRuns s 0 = true ∧ clean s ∧ (coreAt s 0).hold.any (fun h => !stillHeld s 0 h) = true ∧
      reachesNow s c 0x100 8 true = true ∧ feFull (leftBy s c 0x100 true) ((at_ s).key / 8) = full ∧
      laterThanOthers (leftBy s c 0x100 true) (reached (leftBy s c 0x100 true) 0 (at_ s).key) 0 (at_ s).key true = false) ∧
    (let s := sentFlag false; threadRuns s 0 = true ∧ clean s ∧ (coreAt s 0).hold.any (fun h => h.place.any (fun o =>
        decide (h.lease + 8 < placePt s o.2.2.sp o.2.2.addr))) = true ∧
      reachesNow s c 0x100 8 true = true ∧ feFull (leftBy s c 0x100 true) ((at_ s).key / 8) = false) ∧
    admits c (permLD ||| permFE) 0x100 8 ∧
    (let s := { (holding .barrier (.barWait 0 1) 4 (fun x => { x with btrack := [⟨0, 1, 0x100, 3, 4, true⟩] })) with
        mem := (barred 3 5 2 0 []).mem };
      threadRuns s 0 = true ∧ (coreAt s 0).hold.any (fun h => !stillHeld s 0 h) = true ∧ reachesNow s c 0x100 64 false = true ∧
      let line := BitVec.ofNat 512 (leNat (bytesAt (leftBy s c 0x100 false) 0 c 0x100 64 (placeOf s c 0x100 false)))
      barValid line = true ∧ barEpoch line = 3 ∧ barPhase line = 4 + 1 ∧
      btFind (coreAt (leftBy s c 0x100 false) 0) (mcbAt s 0).otPhys 1 0x100 = some ⟨0, 1, 0x100, 3, 4, true⟩) ∧ admits c permFE 0x100 64 := by
  unfold clean
  refine ⟨by decide +kernel, by decide +kernel, by unfold admits; decide +kernel, by decide +kernel, by unfold admits; decide +kernel⟩

theorem test_hyp_replay : let g := parked 0 64; let s := (boot id).updCore 0 (fun c => { c with hoard := [g] })
    replays s 0 = true ∧ (coreAt s 0).hoard = [g] ∧ g.held = none ∧ g.extent = 0 ∧
    gives (replayEntry 0 g) { s with turn := 0 } (fun r t => r.1.isNone && r.2.isNone && (coreAt t 0).hoard == [g]) = true := by decide +kernel

theorem test_hyp_reissue : let s := (absentPage id).updCore 0 (fun c => { c with hold := some { kind := .parked, ins := .ld 0 1 1 0 0, since := 0, until_ := 1 } })
    replays s 0 = true ∧ (coreAt s 0).hoard = [] ∧ threadRuns s 0 = true ∧ (coreAt s 0).hold.any (fun h => !stillHeld s 0 h) = true := by decide +kernel

theorem test_hyp_renewal : let x := setting 64; let s := busy [x]
    ((coreAt s 0).cmds.filter (fun x => x.eng == 2 && x.started && x.posting.isNone && x.ending.isNone))[0]? = some x ∧
    enginesRun s 0 = true ∧ (workPages x).length = 1 ∧ goes ((workPages x).forM (renewPage (whoCmd s 0 x))) { s with turn := 0 } = true := by decide +kernel

/-- A fill of HOST that waits for an answer since 0. -/
def asking : Cmd := { setting 64 with ask := some ⟨physKey 2 0 0, 0x40, 0⟩ }

theorem test_hyp_command_timeouts : ∀ pt ∈ [64999999, 65000000], let s := { busy [asking] with pt := pt, mute := [(physKey 2 0 0, 64, 2 ^ 64)] }
    (coreInv s 0).any (fun i => i.kill.isNone && i.tasks.all (fun t => t.ask.isNone)) = true ∧ awaiter s 0 = none ∧ awaited s 0 = none ∧
    (coreAt s 0).flight = [] ∧ (∀ e ∈ s.switch, e.ofCore 0 = false) ∧ (coreAt s 0).mat.task = none ∧ (coreAt s 0).cmds = [asking] ∧
    silent s (physKey 2 0 0) 1 = true ∧ keySpace (physKey 2 0 0) < 4 ∧ enginesRun s 0 = true ∧
    (s.pt < 0 + 65000000 ↔ pt = 64999999) := by decide +kernel

theorem test_hyp_timeouts : ∀ pt ∈ [999999, 1000000], let s := { (holding .answer (.ld 0 5 1 0 0) 0 (fun c =>
      { c with hold := c.hold.map (fun h => { h with flag := physKey 4 0 0 }) })) with pt := pt }
    let q := 65 * pt; let r := (holding .answer (.ld 0 5 1 0 0) 0 (fun c => { c with hold := c.hold.map (fun h => { h with flag := physKey 2 0 0 }) }))
    ((awaited r 0).any (fun h => keySpace h.flag == 2 && h.since == 0) = true ∧ (0 + 65000000 ≤ q ↔ pt = 1000000)) ∧
    (awaited s 0).any (fun h => keySpace h.flag == 4 && h.since == 0) = true ∧ awaiter s 0 = none ∧ (coreInv s 0).any (fun i => i.kill.isNone) = true ∧
    ((coreAt s 0).hold.any (fun h => decide (s.pt < h.since + 1000000)) = true ↔ pt = 999999) := by decide +kernel

-- 45: streams

/-- Stream 0 of partition 0 on object 1 of block 0, with packet words of a body, and a hart 0 whose port it is or is not. -/
def stream : Stream :=
  { serial := 0, ifc := none, hart := none, part := 0, mcb := 0, dobj := cap1 allRights 0, dlen := 65536, tail := 4096, status := .running,
    levels := [⟨0, 4096, 64, []⟩], loops := [], skip := (0, 0), wait := none, since := 0, launched := [], retired := [], packets := 0, region := 0,
    edges := EdgeSet.none, xtlb := [], fifo := [], fifoPos := 0 }
def streaming (f : Stream → Stream) : State := { boot id with streams := [(0, f stream)], pt := 100 }

theorem test_hyp_stream : ∀ f ∈ [id, fun (x : Stream) => { x with levels := [⟨64, 64, 64, []⟩, ⟨0, 4096, 64, []⟩] }],
    (mapFind (streaming f).streams 0).any (fun x => (x.depth == 0 || decide (x.pos + 4 * 4 < x.limit)) && x.hart.isNone && !x.levels.isEmpty &&
      streamReady x) = true := by decide +kernel

/-- The Sower is ready or not, and a STREAM.CLOSE waits or not. -/
theorem test_hyp_closing : (∀ r ∈ [0, 2 ^ 36], { streaming id with rdy := BitVec.ofNat 64 r }.rdy.getLsbD 36 = decide (r ≠ 0)) ∧ stream.closing = none ∧
    (mapFind (streaming (fun x => { x with closing := some ⟨none, 5⟩ })).streams 0).any (fun x => x.closing == some ⟨none, 5⟩ && x.depth == 0 && x.hart.isNone && !x.levels.isEmpty) = true := by decide +kernel

theorem test_hyp_launch : let s := { streaming id with rdy := 2 ^ 36 }; let named := fun (b : Mcb) => s.setMcb 0 (b)
    s.rdy.getLsbD 36 = true ∧ lookup s 0 7 = none ∧
    (∀ st ∈ [1, 6], ∀ full : Bool, let b : Mcb := { mcbAt s 0 with
        funcid := 7, state := BitVec.ofNat 3 st, queue := mkCap 1 0 permLD 0 0 512 0, qtail := if full then 2 else 0 }
      lookup (named b) 0 7 = some 0 ∧ (b.state = 6 ↔ st = 6) ∧ b.queueFull = full) := by decide +kernel

/-- Levels and loops of a stream. -/
def deep (n : Nat) (l : List StreamLoop) (x : Stream) : Stream := { x with levels := List.replicate n ⟨64, 64, 64, []⟩ ++ x.levels, loops := l }

theorem test_hyp_buffers : let x := deep 3 [] stream; let y := deep 4 [] stream
    1048576 < (⟨0, 1048577⟩ : BufDesc).size.toNat ∧ x.depth = 3 ∧ y.depth = 4 ∧ x.dlen = 65536 ∧
    (let b : BufDesc := ⟨65532, 1⟩; b.addr.toNat % 4 = 0 ∧ b.addr.toNat + 4 * b.size.toNat ≤ x.dlen ∧ bufFault x b = none ∧ x.dlen < b.addr.toNat + 4 * 2) ∧
    (let b : BufDesc := ⟨2, 1⟩; b.addr.toNat % 4 ≠ 0) ∧ bufFault y ⟨0, 0⟩ = none ∧ (⟨0, 0⟩ : BufDesc).size = 0 ∧ 4 ≤ y.depth ∧
    (6 ≤ (6#3).toNat ∧ (5#3).toNat < 6 ∧ 65535 < (65536 : W32).toNat ∧ (65535 : W32).toNat ≤ 65535) := by decide +kernel

theorem test_hyp_loops : let l : StreamLoop := ⟨0, 64, 1⟩; let x := deep 0 [l] stream; let y := deep 0 [⟨1, 64, 2⟩] stream
    4 ≤ (deep 0 (List.replicate 4 l) stream).loops.length ∧ (deep 0 (List.replicate 3 l) stream).loops.length < 4 ∧ stream.loops = [] ∧
    (x.loops = [l] ∧ l.level = x.depth ∧ l.count = 1) ∧ (1 : Nat) ≠ y.depth ∧ ((⟨0, 64, 2⟩ : StreamLoop).level = x.depth ∧ (⟨0, 64, 2⟩ : StreamLoop).count ≠ 1) ∧
    (∃ l ∈ x.loops, l.level = x.depth) ∧ ∀ l ∈ y.loops, l.level ≠ y.depth := by
  refine ⟨by decide +kernel, by decide +kernel, by decide +kernel, by decide +kernel, by decide +kernel, by decide +kernel, ⟨⟨0, 64, 1⟩, by decide +kernel⟩, by decide +kernel⟩

theorem test_hyp_stream_accesses : let s := streaming id
    (∀ a ∈ [0, 65528], goes (streamWord 0 stream a) s = true ∧ goes (streamWrite 0 stream a 8 (fun v => v) (permLD ||| permST) .sync) s = true ∧
      goes (streamWrite 0 stream a 4 (fun _ => 7) permST .write) s = true) ∧
    condHolds 0 ((got (streamWord 0 stream 0x100) s (1, 0)).1 &&& 1) 0 ≠ condHolds 0 ((got (streamWord 0 stream 0x100) s (1, 0)).1 &&& 1) 1 ∧
    ((83 : W64).toNat + 16 < s.pt ∧ s.pt ≤ (84 : W64).toNat + 16) ∧ stream.launched = [] ∧ stream.retired = [] ∧
    ({ stream with launched := [(0, 0)] } : Stream).launched ≠ [] := by decide +kernel

theorem test_hyp_stream_blocks : let b : BufDesc := ⟨64, 16⟩
    bufFault stream b = none ∧ b.size.toNat ≤ 1048576 ∧ (1 ≤ (1 : W32).toNat ∧ (65535 : W32).toNat ≤ 65535) ∧
    ([b].length ≤ 16 ∧ (List.replicate 16 b).length ≤ 16 ∧ (List.replicate 16 b) ≠ []) ∧ stream.wait = none := by decide +kernel

theorem test_hyp_stream_waits : let at_ := fun w => mapFind (streaming (fun x => { x with wait := some w })).streams 0
    (at_ (.launchFull false 7 0)).any (fun x => x.wait == some (.launchFull false 7 0)) = true ∧
    (mapFind (streaming (fun x => { x with wait := some (.retire 0 4), retired := [(0, 4, 0, EdgeSet.none)] })).streams 0).any (fun x =>
      x.wait == some (.retire 0 4) && x.retired.find? (fun r => r.1 == 0 && r.2.1 == 4) == some (0, 4, 0, EdgeSet.none)) = true ∧
    (at_ (.flag 0 0x100 0 1)).any (fun x => x.wait == some (.flag 0 0x100 0 1)) = true ∧ (at_ (.time 83)).any (fun x => x.wait == some (.time 83)) = true ∧
    (at_ (.signal false 0x100 1)).any (fun x => x.wait == some (.signal false 0x100 1) && x.launched.isEmpty && x.retired.isEmpty) = true ∧
    (at_ .ffence).any (fun x => x.wait == some .ffence) = true := by decide +kernel

theorem test_hyp_zc : let port := fun (n : Nat) (irq : Bool) => (streaming (fun x => { x with hart := some 0, fifo := List.replicate n 0 })).updHart 0 (fun h =>
      { h with port := some 0, irq := irq })
    (∀ n ∈ [255, 256], ∀ irq : Bool, let s := port n irq; (hartAt s s.hart).zcOn = true ∧ (portStream s (hartAt s s.hart)).any (fun p => p.2.fifo.length == n) = true ∧
      portIdle s (hartAt s s.hart) = false ∧ (hartAt s s.hart).pendingIrq = irq) ∧
    (let s := State.reset; (hartAt s s.hart).zcOn = true ∧ portStream s (hartAt s s.hart) = none ∧ portIdle s (hartAt s s.hart) = true) ∧
    (({ Hart.reset with mode := 0 } : Hart).zcOn = false) := by decide +kernel

-- 46: ends of invocations

/-- Core 0's block with its invocation changed, and the thread retired or not. -/
def ending (f : Inv → Inv) (g : Core → Core) : State := ((boot id).updInv 0 f).updCore 0 g

theorem test_hyp_retirement : let s := ending id (fun c => { c with retired := true })
    (mcbAt s 0).inv.any (fun i => i.stage == .running && i.kill.isNone && i.tasks.isEmpty) = true ∧ (mcbAt s 0).plot = [0] ∧
    (coreAt s 0).retired = true ∧ (coreAt s 0).mat.task = none := by decide +kernel

theorem test_hyp_kill : let s := ending (fun i => { i with kill := some 5 }) (fun c => { c with hold := some { kind := .answer, ins := .exit, since := 0, flag := physKey 2 0 0 } })
    let far := s.updCore 0 (fun c => { c with flight := [⟨.store, whoThread s 0, mkCap 1 2 permST 0 0 4096 0, 64, { noPlace with sp := 2 }, [1], 64, 0⟩] })
    (mcbAt s 0).inv.any (fun i => i.kill.isSome) = true ∧ (∀ k ∈ (mcbAt s 0).plot, (coreAt s k).flight = [] ∧
      (coreAt s k).hold.all (fun h => h.kind == .answer && !silent s h.flag 1) = true) ∧
    (∃ k ∈ (mcbAt s 0).plot, awaitsFar (mutely s (physKey 2 0 0) 8) k = true) ∧ ∃ k ∈ (mcbAt s 0).plot, awaitsFar far k = true := by decide +kernel

theorem test_hyp_halt : let f : FaultRec := { cls := 2, sub := 0, addr := 0 }
    let s := ending (fun i => { i with faultHalt := true }) (fun c => { c with pending := [f], th := { c.th with handler := cap1 permEXEC 0x40 } })
    (mcbAt s 0).inv.any (fun i => i.faultHalt && !i.held && !i.debugStop && i.kill.isNone && i.preempt == .none) = true ∧ (mcbAt s 0).plot.Nodup ∧
    firstRoute s 0 0 = some 0 ∧ (coreAt s 0).pending.head? = some f ∧ (coreAt s 0).th.handler.tag = true ∧ (coreAt s 0).th.handler.ver = 1 ∧
    (∀ j ∈ (mcbAt s 0).plot, (coreAt s j).th.hcap.tag = false) ∧ ∀ j ∈ (mcbAt s 0).plot, j = 0 := by decide +kernel

theorem test_hyp_landing : let s := ending (fun i => { i with preempt := .stop }) id
    let busy := s.updCore 0 (fun c => { c with struck := (coreAt matched 0).struck })
    let held := fun (kind : WaitKind) => s.updCore 0 (fun c => { c with hold := some { kind := kind, ins := .ld 0 1 1 0 0, since := 0, flag := physKey 2 0 0, issued := true } })
    (∀ k ∈ (mcbAt s 0).plot, landing s 0 k = false) ∧ (∃ k ∈ (mcbAt s 0).plot, landing busy 0 k = true) ∧
    (∀ k ∈ (mcbAt s 0).plot, landing (mutely (held .answer) (physKey 2 0 0) 8) 0 k = false) ∧
    (coreAt (held .answer) 0).hold.any (fun h => h.kind == .answer && h.word.isSome) = true := by decide +kernel

theorem test_hyp_preempt : (mcbAt (ending (fun i => { i with preempt := .stop }) id) 0).inv.any (fun i => i.preempt == .stop && i.kill.isNone) = true ∧
    (mcbAt (ending (fun i => { i with preempt := .save, savePages := some (8, 19) }) id) 0).inv.any (fun i =>
      i.preempt == .save && i.kill.isNone && i.savePages == some (8, 19)) = true ∧
    (mcbAt (ending (fun i => { i with awaiting := [(0, none)] }) id) 0).inv.any (fun i => i.awaiting.contains (0, none)) = true := by decide +kernel

theorem test_hyp_watchdog : let s := fun (l : Ladder) => (ending (fun i => { i with ladder := l, wdt := 2 ^ 40 }) id).updMcb 0 (fun b => { b with t1 := 5, t2 := 5, t3 := 5 })
    let p := (s .count).updPart 0 (fun p => { p with savePool := (0, 100) })
    (∀ l ∈ [Ladder.count, .t1done, .killing], (mcbAt (s l) 0).state = 3 ∧ (s l).mode.getLsbD 2 = false ∧ (mcbAt (s l) 0).inv.any (fun i => i.ladder == l && i.kill.isNone &&
      decide (5 * watchUnit (mcbAt (s l) 0) ≤ i.wdt)) = true) ∧ saveRun (s .count) 0 = none ∧ saveRun p 0 ≠ none ∧ watched (mcbAt (s .killing) 0) = true := by decide +kernel

theorem test_hyp_skew : (-8 : Int).natAbs ≤ 8 ∧ 8 < (-9 : Int).natAbs ∧
    (let s := (boot id).updCore 0 (fun c => { c with skews := [0, 0] }); 2 ≤ ((coreAt s 0).skews.filter (fun u => decide (localPt s 0 < u + 1000000))).length) := by
  decide +kernel

-- 47: commands on blocks

/-- The hypervisor, a guest of partition 0, a guest of partition 1, and an interface that is not assigned. -/
def hyp : Issuer := ⟨none, 7⟩
def guests (s : State) : State := (s.updIfc 1 (fun x => { x with assigned := some (0, 1) })).updIfc 2 (fun x => { x with assigned := some (1, 2) })

theorem test_hyp_issuers : let s := guests (boot id); accepts s hyp = true ∧ mayName s hyp 0 = true ∧ accepts s ⟨some 1, 0⟩ = true ∧ mayName s ⟨some 1, 0⟩ 0 = true ∧
    accepts s ⟨some 2, 0⟩ = true ∧ mayName s ⟨some 2, 0⟩ 0 = false ∧ accepts s ⟨some 3, 0⟩ = false := by decide +kernel

/-- Host memory with a block at 0x10000 and an image of a code segment, a capability table and an empty initial state at 0x20000. -/
def blockBits : BitVec 2048 :=
  BitVec.ofNat 2048 (9 + 2 * 2 ^ 84 + (mkCap 0 0 permLD 0 0 4096 0).bits.toNat * 2 ^ 384 + (mkCap 5 0 permLD 0 0 256 0).bits.toNat * 2 ^ 640 +
    2 ^ 832 + 2 * 2 ^ 848 + 3 * 2 ^ 864)
def imageBytes : List Byte :=
  leBytes 8 3 ++ leBytes 64 (2 * 2 ^ 16 + 64 * 2 ^ 64) ++ leBytes 64 (5 + 3 * 2 ^ 16 + 16 * 2 ^ 64) ++ leBytes 64 (6 + 4 * 2 ^ 16) ++ List.replicate 80 0
def toInstall : InstallArgs := ⟨true, 0, 280, 0x20000, 0x10000, 0x40000, []⟩
def installing : State :=
  let s := (seeds 0).updPart 0 (fun p => { p with gsramPool := (100, 10), hbmPool := (200, 10), savePool := (200, 0) })
  { s with rdy := 2 ^ 40 - 1, mem := memWrite (memWrite s.mem (physKey 2 0 0x10000) (leBytes 256 blockBits.toNat)) (physKey 2 0 0x20000) imageBytes, mcbs := [] }

theorem place_in_empty {s : State} {part m : Nat} {f : W64} (h : (partAt s part).table.filter (fun e => e.2 != m) = []) : placeBlock s part m f ≠ none := by
  unfold placeBlock
  simp [displace, h, mapFind]

theorem test_hyp_install : let s := installing; let a := toInstall; let v := BitVec.ofNat 2048 (leNat (hostBytes s hyp a.mcbVa 256))
    let segs := (readImage s hyp a.imgVa a.imgLen).getD []; let table := ((segs.find? (fun g => g.kind == 5)).map (·.bytes)).getD []
    let b := installBlock a v segs
    (match installIndex s a with | .ok m => m == 0 | .error _ => false) = true ∧ mcbReserved v = false ∧ installSets v = false ∧ field v 72 4 = (0 : BitVec 4) ∧
    (readImage s hyp a.imgVa a.imgLen).isSome = true ∧ grantsGranary segs table = false ∧ mcbRefused s 0 b = false ∧ tableTaken s 0 b = false ∧
    (∀ g ∈ segs, slotFree s b g.obj = true) ∧ islandsWait s b.part = false ∧ (partAt s b.part.toNat).table = [] ∧
    (planSegs a.choice (partAt s b.part.toNat) s.granary segs).isSome = true := by decide +kernel

theorem test_hyp_install_place : placeBlock installing (field blockBits 72 4 : BitVec 4).toNat 0 9 ≠ none := place_in_empty (by decide +kernel)

theorem test_hyp_install_refused : (match installIndex installing { toInstall with idx := 1 } with | .ok _ => false | .error _ => true) = true ∧
    (match installIndex (boot id) { toInstall with any := false } with | .ok _ => false | .error _ => true) = true := by decide +kernel

/-- An installed block 0 in a state. -/
def installed (state : BitVec 3) (f : Mcb → Mcb) : State :=
  let s := installing
  s.setMcb 0 (f { (installBlock toInstall blockBits ((readImage s hyp 0x20000 280).getD [])) with state := state })

theorem test_hyp_write : let s := installed 3 id; let old := mcbAt s 0
    (∀ p ∈ ([(0xF <<< 68, 5 <<< 68), (2 ^ 64 - 1, 10)] : List (Nat × Nat)), let mask := BitVec.ofNat 2048 p.1; let value := BitVec.ofNat 2048 p.2
      let v := (old.bits &&& ~~~mask) ||| (value &&& mask); let b := old.withBits v mask
      mayName s hyp b.part = true ∧ old.v = true ∧ mcbReserved (value &&& mask) = false ∧ fieldNat mask 384 128 = 0 ∧
      mcbRefused s 0 b = false ∧ tableTaken s 0 b = false ∧ fieldNat mask 768 64 = 0 ∧
      (p.2 = 10 ↔ mask &&& ~~~anyState ≠ 0)) ∧ old.state ≠ 0 ∧ old.state ≠ 6 ∧ ((installed 0 id).parts.all (fun p => p.2.table.isEmpty)) = true := by decide +kernel

theorem test_hyp_write_place : placeBlock (installed 0 id) 0 0 10 ≠ none ∧ (mcbAt (installed 0 id) 0).state = 0 := ⟨place_in_empty (by decide +kernel), by decide +kernel⟩

theorem test_hyp_remove : ∀ st ∈ [0, 6, 3], ∀ tail ∈ [0, 1], let b := mcbAt (installed (BitVec.ofNat 3 st) (fun b => { b with qtail := BitVec.ofNat 32 tail })) 0
    b.v = true ∧ (((b.state = 0 ∨ b.state = 6) ∧ b.qhead = b.qtail) ↔ (st ≠ 3 ∧ tail = 0)) := by decide +kernel

/-- Block 0, ready, with object 1 for its capability table. -/
def idle (f : Mcb → Mcb) : State := (boot id).updMcb 0 (fun b => f { b with state := 0, captab := cap1 permLD 0 })

theorem test_hyp_capwrite : let s := idle id; let b := mcbAt s 0; let c := cap1 permLD 0; let d := readDir s 0 c.obj
    let m := resolve (whoSower s 0) b.captab.obj b.captab.sp (b.captab.lo + 16 * 255) { write := false }
    b.v = true ∧ b.state = 0 ∧ c.ver = 1 ∧ dirPresent d = true ∧ dirSp d = c.sp ∧ 255 ∉ b.capFilled ∧
    keySpace (got m s noPlace).key < 2 ∧ goes m s = true := by decide +kernel

theorem test_hyp_revoke : let s := idle id; let d := readDir s 0 1
    (mcbAt s 0).v = true ∧ dirPresent d = true ∧ dirWellFormed d = true ∧ 0 < dirNpages d ∧ issuerStream s hyp = none ∧
    (let t := fun pt => ({ s with pt := pt, waiting := [.revoke hyp 84 [(0, 2)] 0] } : State);
      (t 0).waiting[0]? = some (.revoke hyp 84 [(0, 2)] 0) ∧ (t 100).pt ≤ 84 + 16 ∧ 84 + 16 < (t 101).pt) := by decide +kernel

theorem test_hyp_queue_pairs : let b := mcbAt (idle (fun b => { b with wlog := 5, hlog := 0 })) 0
    (31#5).toNat < 2 ^ b.wlog.toNat ∧ (0#5).toNat < 2 ^ b.hlog.toNat ∧ (mapFind opened.qps 1).isSome = true ∧
    (mapFind (streaming id).streams 0).any (fun x => x.depth == 0 && x.hart.isNone && x.closing.isNone && x.wait.isNone) = true ∧
    (mapFind (streaming (fun x => { x with wait := some .ffence })).streams 0).any (fun x => x.closing.isNone && x.status == .running && x.wait.isSome) = true ∧
    (mapFind (streaming (fun x => { x with closing := some hyp })).streams 0).any (fun x => x.closing.isSome) = true := by decide +kernel

theorem test_hyp_fault_reply : let b := mcbAt (ending (fun i => { i with held := true }) id) 0
    b.inv.any (fun i => i.held && i.kill.isNone && i.preempt == .none) = true ∧ b.state = 3 ∧
    (let f : FaultRec := { cls := 2, sub := 0, addr := 0 }; let s := ending (fun i => { i with held := true }) (fun c => { c with pending := [f] })
      ∀ k ∈ (mcbAt s 0).plot, ∀ f ∈ (coreAt s k).pending, routeOf s 0 f.cls ≠ 2 ∧ ((coreAt s k).pending.tail = [] ∨ routeOf s 0 f.cls = 0)) := by decide +kernel

-- 48: debug commands

theorem test_hyp_banks : let owned := fun (o : Owner) => (((guests wired).updPart 0 (fun p => { p with banks := [(0, { Bank.free with owner := o, sel := 1 })] })))
    (∀ o ∈ [Owner.free, .guest 1, .hyp, .taken 1], ((partAt (owned o) 0).bank 0).owner = o ∧ ((partAt (owned o) 0).bank 0).disc = false ∧ (partAt (owned o) 0).exists_ = true ∧
      accepts (owned o) ⟨some 1, 0⟩ = true ∧ mayName (owned o) ⟨some 1, 0⟩ 0 = true) ∧
    (∀ j < 8, fieldNat (0x0B0B0B0B0B0B0B0B : BitVec 64) (8 * j) 8 < 12) ∧ 6 ≤ (6#3).toNat ∧ (5#3).toNat < 6 := by decide +kernel

theorem test_hyp_points : (let v : W64 := 2 ^ 46; v.getLsbD 48 = false ∧ fieldNat v 46 2 ≠ 0) ∧ (let v : W64 := 2 ^ 48 + 2 ^ 46; v.getLsbD 48 = true) ∧
    watchOk 0 = true ∧ watchOk (2 ^ 112 + 2 ^ 60 + 1) = true ∧ watchOk 1 = false ∧ physExists 1 (2 ^ 39 - 8) 8 = true := by decide +kernel

theorem test_hyp_sample : let s := seeds 0; let p := fun pt => ({ s with pt := pt }.updPart 0 (fun p => { p with sample := ([0, 7], 1024, 0, 50) }))
    (∀ k ∈ [0, 7], k < 1024 ∧ corePart s k = some 0) ∧ ((partAt s 0).bank 4).owner = .free ∧ (partAt s 0).exists_ = true ∧
    (partAt (p 49) 0).sample = ([0, 7], 1024, 0, 50) ∧ (p 49).pt < 50 ∧ 50 ≤ (p 50).pt := by decide +kernel

-- 49: commands of the hypervisor

theorem test_hyp_partition : let s := { seeds 0 with rdy := 2 ^ 40 - 1, mcbs := [] }
    let a : PartitionArgs := { part := 1, islands := 6, lanes := 0, gsramPool := (0, 8), hbmPool := (0, 100), savePool := (80, 20), invport := 4790, ingress := [mapped], slowPath := true, macs := [] }
    a.islands ≠ 0 ∧ a.invport ≠ 4791 ∧ poolWithin a.savePool a.hbmPool = true ∧ (∀ p ∈ a.ingress, p.ipv4.length ≤ 4 ∧ p.ipv6.length ≤ 4) ∧
    (∀ j < 16, islandBusy s j = false) ∧ (∀ j < 16, a.islands.getLsbD j = true → s.rdy.getLsbD (20 + j) = true) ∧
    takesLastIsland s 1 6 = false ∧ takesLastIsland s 1 1 = true ∧ takesLastIsland s 0 2 = false := by decide +kernel

theorem test_hyp_checkpoint : let s := fun (st : BitVec 3) pt => ({ installed st id with pt := pt, waiting := [.checkpoint hyp 1 (.pmem 0) false true 7] } : State)
    maskedBlocks (s 0 0) 1 = [0] ∧ (∀ m ∈ maskedBlocks (s 0 0) 1, (mcbAt (s 0 0) m).state ≠ 2 ∧ (mcbAt (s 0 0) m).state ≠ 3 ∧ (mcbAt (s 0 0) m).state ≠ 4) ∧
    (mcbAt (s 3 0) 0).state = 3 := by decide +kernel

theorem test_hyp_bitmap : let s := fun pt => ({ State.reset with dirtyAt := some (0, 0x100000), dirtySwitch := some 1000, waiting := [.bitmap hyp 1000], pt := pt } : State)
    (s 0).dirtySwitch ≠ none ∧ State.reset.dirtySwitch = none ∧ (State.reset.dirtyAt = none ↔ some (0, 0x100000) ≠ none) ∧
    (∃ a ∈ controllers, portPt (s 999) a < 1000) ∧ (∀ a ∈ controllers, 1000 ≤ portPt (s 1000) a) ∧ (s 1000).waiting = [.bitmap hyp 1000] := by decide +kernel

theorem test_hyp_scrub : let p := fun b => partAt ((seeds 0).updPart 0 (fun p => { p with scrubbing := b, resetBy := if b then some hyp else none })) 0
    (p false).exists_ = true ∧ (p false).scrubbing = false ∧ (p true).scrubbing = true ∧ (p true).resetBy = some hyp ∧ (seeds 0).dirtyAt = none ∧
    (∀ e ∈ (seeds 0).mcbs, e.2.inv = none) ∧ (seeds 0).streams = [] ∧ (seeds 0).waiting = [] := by decide +kernel

theorem test_hyp_link : State.reset.rdy.getLsbD 8 = false ∧ ({ State.reset with rdy := 2 ^ 8 } : State).rdy.getLsbD 8 = true ∧
    0x058 ≤ (0x058#12).toNat := by decide +kernel

-- 50: the control complex

theorem test_hyp_firmware : let s := fun v => State.reset.updHart 3 (fun h => { h with banks := [(1, ⟨[], v⟩)] })
    hartsOf 8 = [3] ∧ (∀ h ∈ hartsOf 8, (hartAt (s true) h).swapPending = false ∧ ((hartAt (s true) h).bank (1 - (hartAt (s true) h).active)).valid = true) ∧
    ((hartAt State.reset 3).bank (1 - (hartAt State.reset 3).active)).valid = false ∧ (∀ h < 16, (hartAt State.reset h).running = false) ∧ fwOk [] = false := by decide +kernel

theorem test_hyp_power : coreHeld (boot id) 0 = true ∧ coreHeld (boot id) 1023 = false ∧ (23#5).toNat < 24 ∧ (5#3).toNat < 6 ∧ (15#5).toNat < 16 ∧ 24 ≤ (24#5).toNat ∧ 6 ≤ (6#3).toNat ∧
    islandBusy (boot id) 0 = true ∧ islandBusy (boot id) 15 = false ∧ (55#6).toNat < 56 := by decide +kernel

theorem test_hyp_harts : let s := fun pt => ({ State.reset with pt := pt }.updHart 0 (fun h => { h with cpwd := 5, swapPending := false, running := true }))
    (hartAt (s 0) 0).mode = 3 ∧ (hartAt (s 0) 0).running = true ∧ (hartAt (s 0) 0).port = none ∧ hartPt (s 5000) 0 ≤ 0 + 1000 * 5 ∧ 0 + 1000 * 5 < hartPt (s 5001) 0 ∧
    (let u := State.reset.updHart 0 (fun h => { h with mode := 0 }); (hartAt u 0).mode ≠ 3) ∧
    (let u := State.reset.updHart 0 (fun h => { h with swapPending := true }); (hartAt u 0).swapPending = true ∧ (hartAt u 0).fencing = false) ∧
    ((31 : W64).toNat < 32 ∧ (7 : W64).toNat < 8 ∧ 32 ≤ (32 : W64).toNat ∧ 8 ≤ (8 : W64).toNat ∧ 2 ≤ (2 : W64).toNat) := by decide +kernel

theorem test_hyp_tick : let s := fun n => ({ seeds 0 with coolFor := n } : State).updIsland 0 (fun i => { i with point := 2 })
    (islandAt (s 9) 0).powered = true ∧ (islandAt (s 9) 1).powered = false ∧ (1800 < 1801 ∧ (1#16).getLsbD 0 = true ∧ (2#16).getLsbD 0 = false) ∧
    10 ≤ (s 10).coolFor ∧ (islandAt (s 10) 0).point.toNat < (islandAt (s 10) 0).setPoint.toNat := by decide +kernel

theorem test_hyp_thermal : Ringless (boot id) ∧ ∃ e ∈ (boot id).mcbs, mcbAt (boot id) e.1 = e.2 ∧ e.2.state = 3 ∧ e.2.inv.any (fun i => i.kill.isNone) = true := by
  refine ⟨ringless_boot, (0, mcbAt (boot id) 0), ?_⟩
  decide +kernel

-- 51: the fabric and Sprout

theorem test_hyp_beacons : ({ State.reset with master := true } : State).master = true ∧ State.reset.master = false ∧ State.reset.nepolRefuses = false ∧
    ({ State.reset with pt := 9999 } : State).pt < State.reset.lastBeacon + 10000 ∧ State.reset.lastBeacon + 10000 ≤ ({ State.reset with pt := 10000 } : State).pt := by decide +kernel

theorem test_hyp_switch : let id0 : ContributionId := ⟨1, 0, 2⟩; let c : Contribution := ⟨id0, 0x20000, 0, true, 5⟩
    let s := { boot id with windows := [(4, ⟨0x20000, 1, 0⟩)] }
    mapFind s.windows 4 = some ⟨0x20000, 1, 0⟩ ∧ c.id ∉ s.performed ∧ 0x20000 ≤ c.addr ∧ c.addr + 8 ≤ 0x20000 + 65536 * 1 ∧ physExists 1 c.addr 8 = true ∧
    s.dirtyAt = none ∧ (∀ l ∈ linesOf (physKey 1 0 c.addr) 8, mapFind s.bad l = none ∧ unitTag s l = none) ∧
    c.id ∈ ({ s with performed := [id0] } : State).performed ∧ (s.nepolRefuses || s.controllersRefuse.contains .nepolPort) = false ∧
    ({ s with nepolRefuses := true } : State).nepolRefuses = true ∧ ({ s with controllersRefuse := [.nepolPort] } : State).controllersRefuse.contains .nepolPort = true := by
  decide +kernel

/-- A job that fills pages of object 1 of block 0: its kind, pages and first page. -/
def jobDesc (kind count : Nat) : BitVec 512 := BitVec.ofNat 512 (0x30000 * 2 ^ 208 + kind * 2 ^ 296 + count * 2 ^ 312 + 2 ^ 360)

theorem test_hyp_job_start : let s := fun d => { wired with rdy := 2 ^ 56 - 1 }.updPart 0 (fun p => { p with jobRing := [d] })
    (∀ kind ∈ [1, 3], (partAt (s (jobDesc kind 2)) 0).jobRing = [jobDesc kind 2] ∧ (s (jobDesc kind 2)).rdy.getLsbD 54 = true ∧
      mapFind (s (jobDesc kind 2)).jobs 0 = none ∧ (s (jobDesc kind 2)).mode.getLsbD 4 = false ∧ (jobOk (s (jobDesc kind 2)) (jobDesc kind 2) = true ↔ kind = 1)) := by
  decide +kernel

theorem test_hyp_job_host : let s := { wired with rdy := 2 ^ 56 - 1, mode := 16 }.updPart 0 (fun p => { p with jobRing := [jobDesc 1 2] })
    s.mode.getLsbD 4 = true ∧ s.rdy.getLsbD 54 = true ∧ mapFind s.jobs 1 = none ∧ (partAt s 0).jobRing = [jobDesc 1 2] := by decide +kernel

theorem test_hyp_job : let j : SproutJob := ⟨0, 0, jobDesc 1 1, [], [0], 0⟩; let s := { boot id with jobs := [(0, j), (1, { j with flight := [] })] }
    let d := readDir s (jobMcb j.desc) (jobObj j.desc); let key := extKeyOf d 0; let x := BitVec.ofNat 64 (memNat s.mem key 8)
    mapFind s.jobs 0 = some j ∧ j.flight = [0] ∧ jobKind j.desc = 1 ∧ s.dirtyAt = none ∧ s.bad = [] ∧ s.enc = [] ∧ s.encPage = [] ∧
    dirSp d < 2 ∧ physExists (dirSp d) (65536 * extPpn x) 65536 = true ∧ key = physKey (dirEmsp d) 0 (keyAddr key) ∧
    key + 8 ≤ physKey (dirSp d) 0 (65536 * extPpn x) ∧ (mapFind s.jobs 1).any (fun j => j.flight.isEmpty && j.order.isEmpty) = true ∧
    physExists 0 (fieldNat j.desc 208 64) 8 = true ∧ (List.replicate 65536 (0 : Byte)).length = 65536 := by
  refine ⟨?_, rfl, ?_, rfl, rfl, rfl, rfl, ?_, ?_, ?_, ?_, ?_, ?_, List.length_replicate⟩ <;> decide +kernel

-- 60: the machine

theorem test_hyp_step_runs : let s := placed 0x11092345 id; let s0 : State := { tick { s with agenda := s.agenda.tail } with turn := 0 }; let t := theThread s0
    let m := resolve (whoNow s0) t.code.obj t.code.sp t.pc.toNat { write := false }; let r := got m s0 noPlace; let s1 := endOf m s0
    s.agenda = [.thread 0] ∧ threadRuns s0 0 = true ∧ (coreAt s0 0).hold = none ∧ (coreAt s0 0).owed = none ∧ breaksAt s0 0 = none ∧
    t.pc.toNat % 4 = 0 ∧ t.pc.toNat + 4 ≤ 2 ^ 40 ∧
    t.code.tag = true ∧ t.code.ver = 1 ∧ t.code.lo ≤ t.pc.toNat ∧ t.pc.toNat + 4 ≤ t.code.hi ∧ t.code.perm &&& permEXEC = permEXEC ∧ t.code.sp ≤ 5 ∧
    pendingWrite s0 t.code.obj t.pc.toNat 4 = false ∧ t.code.sp ≠ 2 ∧ unflown s1 r 4 = true ∧
    goes m s0 = true ∧ (∀ l ∈ linesOf r.key 4, mapFind s1.bad l = none) ∧ s1.hostDeny = [] ∧ silent s1 r.key 4 = false ∧
    bytesAt s1 (whoNow s0).mcb t.code t.pc.toNat 4 r = [0x45, 0x23, 0x09, 0x11] := by decide +kernel

theorem test_hyp_step_hart : ∀ f : Bool, let s := (State.reset.withFetchWord 32 0x0005A50B).updHart 0 (fun h => { h with fencing := f })
    let s0 : State := { tick { s with agenda := [] } with hart := 0 }; let x := hartAt s0 0
    s.agenda = [.hart 0] ∧ x.running = true ∧ x.interrupt = none ∧ (match x.fetch s0.free with | .word w => w == 0x0005A50B | _ => false) = true ∧
    decodeZc 0x0005A50B = some (.zcStat 11 10) := by decide +kernel

theorem test_hyp_canonical : Memory.wf State.reset.mem = true ∧ Memory.wf (boot id).mem = true ∧ (nextOf (step (placed 0x11092345 id))).isSome = true ∧
    (Instr.lui 0 2 0x12345).wf = true ∧ encode (.lui 0 2 0x12345) = some 0x11092345 ∧ decodeZc 0x0005A50B = some (.zcStat 11 10) := by decide +kernel

-- Ill-formed instructions

theorem test_ill_formed_control : [Instr.sext 0 1 2 3, .zext 0 1 2 3, .cmp 0 6 1 2 3, .cmp 0 0 0 2 3, .cmpi 0 6 1 2 3, .cmpi 0 0 0 2 3, .pand 0 0 1 2,
    .por 0 0 1 2, .pxor 0 0 1 2, .pnot 0 0 1, .pmov 0 0 1, .bp 0 1, .bnp 0 1, .loop 0 1 0, .loopi 0 1 0, .cget 0 1 2 9, .ctest 0 0 1 2, .qpoll 0 0 1,
    .eqFence 0 0, .mfsr 1 0x021, .mfsr 32 0x800, .mtsr 1 0x805, .mtsr 32 0x804, .fence 0 0 1, .fence 0 1 5, .barTest 0 0 1].all (fun i => !i.wf) = true := by
  decide +kernel

theorem test_ill_formed_memory : [Instr.ld 0 1 2 7 0, .ldx 0 1 2 3 0 7, .stx 0 1 2 3 0 7, .stx 0 1 2 3 0 1, .amo 0 1 2 3 0 9, .amoCas 0 56 2 3 0, .red 0 1 2 0 4,
    .red 0 1 2 0 9, .red 0 1 2 0 11].all (fun i => !i.wf) = true := by decide +kernel

theorem test_ill_formed_vector : [Instr.vcmp 0 8 1 2 3 0, .vcmp 0 0 0 2 3 0, .vicmp 0 6 1 2 3 0, .vicmp 0 0 0 2 3 0, .mand 0 0 1 2, .mor 0 0 1 2, .mnot 0 0 1, .vcvt 0 1 2 16 0,
    .vcvt 0 1 2 63 0, .vpack 0 1 120 0 0, .vpack 0 1 2 16 0, .vunpack 0 120 2 0 0, .vunpack 0 1 2 16 0, .vbcast 0 1 56 0 0, .vredsum 0 1 2 2 0, .vredmax 0 1 2 3 0,
    .vredmin 0 1 2 3 0, .vscan 0 1 2 4 0, .vwin 0 1 56 2, .vxset 0 120 1 2 0, .vxset 0 1 56 2 0, .vmovs 0 1 56 2, .vmovq 0 0 131, .vmovq 0 1 128, .vld 0 1 2 3 6 0,
    .vld 0 1 2 56 0 0, .vst 0 1 2 3 2 0, .vst 0 1 2 56 0 0, .vldx 0 120 2 3 0 0, .vldx 0 1 2 3 6 0, .vldx 0 1 2 56 0 0, .vstx 0 119 2 3 0 0, .vstx 0 1 2 3 2 0,
    .vstx 0 1 2 56 0 0, .vldS 0 1 2 55 0 0, .vldS 0 1 2 3 6 0, .vstS 0 1 2 55 0 0, .vstS 0 1 2 3 2 0].all (fun i => !i.wf) = true := by decide +kernel

theorem test_ill_formed_engines : [Instr.mma 0 0 3 3 0 4, .mma 0 0 3 4 16 4, .mma 0 0 3 4 0 56, .mmaZ 0 0 3 3 0 4, .mmaZ 0 0 3 4 16 4, .mmaZ 0 0 3 4 0 56, .epi 0 0 1 2 55 0,
    .epiV 0 0 1 55 0, .mseg 0 56, .cp 0 1 2 56 3, .cp 0 1 2 3 56, .cp2d 0 1 2 55 3, .cp2d 0 1 2 3 56, .cpOm 0 1 2 56 3, .cpOm 0 1 2 3 56, .cpGat 0 1 2 56 3, .cpGat 0 1 2 3 56,
    .cpSet 0 1 55 3, .cpSet 0 1 3 56, .cpZ 0 1 2 56 3, .cpZ 0 1 2 3 56, .cpX 0 1 2 56 3, .cpX 0 1 2 3 56, .cpCk 0 1 2 56 3, .cpCk 0 1 2 3 56, .netPost 0 1 56 3, .netPost 0 1 3 56,
    .netSend 0 1 56 3, .netSend 0 1 3 55, .netSendWrite 0 1 56 3, .netSendWrite 0 1 3 55, .netSendRead 0 1 56 3, .netSendRead 0 1 3 55, .netReply 0 1 56, .fstLd 0 1 56 3,
    .fstLd 0 1 3 56, .fstStart 0 1 56 3, .fstStart 0 1 3 56, .fstStop 0 56].all (fun i => !i.wf) = true := by decide +kernel

theorem test_ill_formed_packets : [Instr.pktPred 0 6 0 0 0 1, .pktWaitFlag 0 6 0 0 0, .pktCond 0 6 0 0 ⟨0, 0⟩ ⟨0, 0⟩, .pktSwitch 0 0 ⟨0, 0⟩ [],
    .pktSwitch 0 0 ⟨0, 0⟩ (List.replicate 17 ⟨0, 0⟩)].all (fun i => !i.wf) = true := by decide +kernel

/-- Words with a reserved value or a bit that is not zero: sext rb 3, cmp with p0, a shift by imm12[6], loop with end 0, cget key 9, fence kind 0, ld
size 7, amo op 10, vredsum .f33, mma of one slot, a copy with s56, and a word of no row. -/
theorem test_decode_refuses : [0x010420C3, 0x02404140, 0x0C0C3040, 0x17403800, 0x20102249, 0x34000001, 0x381427FF ||| 0x1C00, 0x3E04309A, 0x8AC20304, 0x90022044, 0xA0085E07,
    0x3F000000 ||| 0x3F].all (fun w => match decode (BitVec.ofNat 32 w) with | .ok _ => false | .error _ => true) = true := by decide +kernel

-- Single steps, with the values that the manual gives

theorem test_lui : (ran 0x11092345 id).map (fun t => (t.getS 2).toNat) = some 0x12345000 := by decide +kernel
theorem test_clz : (ran 0x01042000 (fun t => t.setS 2 0x10000)).map (fun t => (t.getS 1).toNat) = some 47 := by decide +kernel
theorem test_sext : (ran 0x01042043 (fun t => t.setS 2 0x8001)).map (fun t => t.getS 1) = some 0xFFFFFFFFFFFF8001 := by decide +kernel
theorem test_mulhu : (ran 0x0024A2CC (fun t => (t.setS 10 (-1)).setS 11 (-1))).map (fun t => t.getS 9) = some 0xFFFFFFFFFFFFFFFE := by decide +kernel
theorem test_slli : (ran 0x0C0C3004 (fun t => t.setS 3 0x1000000000000003)).map (fun t => t.getS 3) = some 0x30 := by decide +kernel
theorem test_cmp : (ran 0x02484140 (fun t => (t.setS 4 (-1)).setS 5 0)).map (fun t => t.getP 2) = some true := by decide +kernel

/-- bp p1 two words ahead; call s31 sixteen words ahead; loop lc1, s7 with end 3 and s7 = 0 skips its body. -/
theorem test_branch : (ran 0x14200002 (fun t => t.setP 1 true)).map (·.pc) = some 8 ∧ (ran 0x14200002 id).map (·.pc) = some 4 := by decide +kernel
theorem test_call : (ran 0x157C0010 id).map (fun t => (t.pc, t.getS 31)) = some (64, 4) := by decide +kernel
theorem test_loop : (ran 0x17403803 id).map (fun t => (t.pc, t.active 1)) = some (16, false) ∧
    (ran 0x17403803 (fun t => t.setS 7 2)).map (fun t => (t.pc, t.active 1)) = some (4, true) := by decide +kernel

/-- With c1.CUR = 0x2_0000 and s4 = 0x1000: GX 0, BASE 0x2000, LEN 0x100. -/
theorem test_cbnd : (ran 0x20081100 (fun t => (t.setC 1 (mkCap 1 0 permLD 0 0 0x10000 0x20000)).setS 4 0x1000)).map (fun t =>
    (fieldNat (t.getC 2).bits 80 4, fieldNat (t.getC 2).bits 84 20, fieldNat (t.getC 2).bits 104 20)) = some (0, 0x2000, 0x100) := by decide +kernel

/-- s4 = 0x003 keeps LD and ST only; c0 gives offset 0. -/
theorem test_cand : (nextOf (exec (.cand 0 3 3 4) (boot (fun t => (t.setC 3 (cap1 allRights 8)).setS 4 3)))).map (fun s => ((theThread s).getC 3).perm) = some 3 := by decide +kernel

/-- trap 5 enters the handler with CAUSE 16 and its code, and EPC after the word; trapret returns to EPC. -/
theorem test_trap : (ran 0x33000005 (fun t => { t with handler := cap1 permEXEC 0x40 })).map (fun t => (t.h, t.pc, t.epc, t.cause)) =
    some (true, 0x40, 4, 16 + 5 * 2 ^ 32) := by decide +kernel
theorem test_trapret : (nextOf (exec .trapret (boot (fun t => { t with h := true, estatus := 2, epc := 4 })))).map (fun s => ((theThread s).h, (theThread s).pc)) =
    some (false, 4) := by decide +kernel

/-- A word that decodes to nothing is a precise fault: nothing changes but the report. -/
theorem test_illegal : (coreAt (stepped 0x00000017 id) 0).pending.map (fun f => (f.cls, f.sub)) = [(2, 0)] ∧ (theThread (stepped 0x00000017 id)).pc = 0 := by decide +kernel

/-- fmt.set f2, s9 and the entry that R74 writes out; f4 with lc1 names f6 on the third pass and f1 on the fourteenth. -/
theorem test_fmt : (ran 0x28089006 (fun t => t.setS 9 0x000000A60020090C)).map (fun t => t.getFmt 2) = some 0x000000A60020090C ∧
    (entRm 0x000000A60020090C = 5 ∧ entAcc 0x000000A60020090C = 0 ∧ entBsc 0x000000A60020090C = true ∧ entAsc 0x000000A60020090C = true ∧
      entO 0x000000A60020090C = 0x20 ∧ entB 0x000000A60020090C = 0x09 ∧ entA 0x000000A60020090C = 0x0C) ∧
    (let at_ := fun n => (theThread (boot (fun t => (t.setLoop 1 ⟨20, n, 0, 0⟩).activate 1))).selectFmt 0b1010100; at_ 2 = 6 ∧ at_ 13 = 1) := by decide +kernel

/-- ld.bu s5, [c1-1] zero-extends one byte; st.w s4, [c2+8] stores four, little-endian, and leaves its neighbours. -/
theorem test_load : (ran 0x381427FF (fun t => t.setC 1 (cap1 permLD 1))).map (fun t => t.getS 5) = some 0xFF := by decide +kernel
theorem test_store : let m := (stepped 0x39105002 (fun t => (t.setC 2 (cap1 permST 0x100)).setS 4 0x1122334455667788)).mem
    memBytes m (physKey 0 0 0x20107) 6 = [0, 0x88, 0x77, 0x66, 0x55, 0] := by decide +kernel

/-- amo.add.d s1, s2, [c3]; amo.cas.w whose expected value differs stores nothing and gives the old value, sign-extended. -/
theorem test_amo : let s := stepped 0x3E043090 (fun t => (t.setC 3 (cap1 permAMO 0)).setS 2 1)
    (theThread s).getS 1 = 0x3E043090 ∧ memNat s.mem (physKey 0 0 0x20000) 8 = 0x3E043091 := by decide +kernel
theorem test_cas : let s := stepped 0x3E043089 (fun t => (t.setC 3 (cap1 permAMO 0)).setS 2 1)
    (theThread s).getS 1 = 0x3E043089 ∧ memNat s.mem (physKey 0 0 0x20000) 4 = 0x3E043089 := by decide +kernel

/-- ld.fe of an empty word holds; of a full one it empties the word. -/
theorem test_ld_fe : (let s := stepped 0x3D188001 (fun t => t.setC 4 (cap1 allRights 0)); (coreAt s 0).hold.map (·.kind) = some .flag ∧ (theThread s).pc = 0) ∧
    (let s := nextOf (exec (.ldFe 0 6 1 0) (flagged true)); s.map (fun s => feFull s (physKey 0 0 0x20100 / 8)) = some false) := by decide +kernel

/-- A region of 1 MiB in HBM, s4 = 100, generation 0: bytes Lo to Lo + 127, and BUMP 128 (R241). -/
theorem test_gen_alloc : let s0 := boot (fun t => { t.setS 4 100 with captab := cap1 permLD 0 })
    let s := { s0 with mem := memWrite s0.mem (physKey 0 0 0x20FF0) (leBytes 16 (mkCap 1 1 3 0 0 65536 0).bits.toNat), tags := [(physKey 0 0 0x20FF0 / 16, true)] }
    (nextOf (exec (.genAlloc 0 7 4) s)).map (fun t => (((theThread t).getC 7).lo, ((theThread t).getC 7).hi, (mcbAt t 0).inv.map (fun i => mapGet 0 i.bump 0))) =
      some (0, 128, some 128) := by decide +kernel

theorem test_exit : (coreAt (stepped 0x32000001 id) 0).retired = true := by decide +kernel
theorem test_island : islandOf (32 * 20 + 13) = 9 := by decide +kernel

/-- What a started vector command leaves in lanes of a register. -/
def lanes (i : Instr) (fmts : List W64) (r : Nat) (ls : List Nat) (f : VectorState → VectorState) : List W32 :=
  let s := (boot id).updCore 0 (fun c => { c with cmds := [{ command 0 i [] [] fmts with started := true }], vec := f c.vec })
  let v := ((nextOf (exec (.engineCommandComplete 0 0 0 .none) s)).map (fun t => (coreAt t 0).vec)).getD VectorState.reset
  ls.map (fun l => v.at l r)

/-- vcvt v1, v0, f1 from INT32 to FP32 under RNE: 16,777,217 gives 0x4B80_0000. -/
theorem test_vcvt : lanes (.vcvt 0 1 0 1 0) [0x220024] 1 [0] (fun v => v.setPhys 0 (List.replicate 128 16777217)) = [0x4B800000] := by decide +kernel
/-- vrot v3, v2, 1 moves each lane down by one, lane 0 to lane 127. -/
theorem test_vrot : lanes (.vrot 0 3 2 1 0) [] 3 [0, 126, 127] (fun v => v.setPhys 2 ((List.range 128).map (BitVec.ofNat 32))) = [1, 127, 0] := by decide +kernel
/-- vscan.i32 of 1 in every lane gives i + 1; .xi32 gives i. -/
theorem test_vscan : lanes (.vscan 0 5 4 1 0) [] 5 [0, 127] (fun v => v.setPhys 4 (List.replicate 128 1)) = [1, 128] := by decide +kernel
theorem test_vadd : lanes (.vadd 0 3 4 5 0) [] 3 [7] (fun v => (v.setPhys 4 (List.replicate 128 0x3F800000)).setPhys 5 (List.replicate 128 0x40000000)) = [0x40400000] := by
  decide +kernel

/-- The stochastic step of R70: the state 1 becomes 0x0004_2021; 1.0078125 goes to 0x40 in lane 0 and 0x41 in lane 1, as B8P4SE. -/
theorem test_stochastic : srStep 1 = 0x00042021 ∧ srBits 0x00042021 0 = 0x2021 ∧ srBits 0x00042021 1 = 0x0420 ∧
    (let x := fp32.decode 0x3F810000; let f := (fmtOf 0x0C).getD fp32; (roundTo f 5 0x2021 x).code = 0x40 ∧ (roundTo f 5 0x0420 x).code = 0x41) := by decide +kernel

/-- The group of two products of R76 sums to +0. -/
theorem test_products : let f := fp32; let a := f.decode 0x3F800001; let one := f.decode 0x3F800000; let b := f.decode 0xBF800002
    roundAcc f (groupSum [prod f a a, prod f b one]) = 0 := by decide +kernel

/-- A lane of state 0x0003_0A41 whose table holds 0x4002_4138 at slot 2,625: it emits 0x38, takes the word 0x7E10, and has state 0xC241_7E10. -/
theorem test_coded_symbol : decodeSymbol (fun i => if i = 2625 then 0x40024138 else 0) (fun _ => 0x7E10) 1 0x00030A41 0 = some (0x38, 0xC2417E10, 1) := by decide +kernel

/-- A 1,500-byte SEND into a 1,024-byte buffer: DETAIL 0x8000_05DC. -/
theorem test_long_send : let s := opened.updCore 0 (fun c => { c with posted := [{ postedBuffer with args := [1024, 1] }] })
    (nextOf (exec (.roceSendReceive asker (List.replicate 1500 7)) s)).map (fun t => (coreAt t 0).cmds.map (fun x => (x.buf.length, x.tmp))) = some [(1024, [2, 0, 0x800005DC])] := by
  decide +kernel

/-- Partition 0 of islands 0 and 1 as in the manual's example: A of priority 2 at (0, 0), B of 5 at (8, 0), C of 1 at (12, 4). Request Q of 8 by 8 and
priority 4 takes A's plot, and S of 4 by 4 then binds at (12, 0). -/
def contexts : State :=
  let block := fun (prio log : Nat) (x y : Nat) (s : State) (m : Nat) =>
    let b := { Mcb.zero with v := true, state := 3, prio := BitVec.ofNat 4 prio, wlog := BitVec.ofNat 3 log, hlog := BitVec.ofNat 3 log }
    (plotCores x y log log).foldl (fun s k => s.setCore k { Core.reset with bound := some m })
      (s.setMcb m { b with inv := some { newInv b emptyEntry x y with stage := .running } })
  let island := fun (s : State) (i : Nat) => s.updIsland i (fun j => { j with powered := true, part := some 0 })
  let s := block 1 2 12 4 (block 5 2 8 0 (block 2 3 0 0 (island (island wired 0) 1) 1) 2) 3
  let queued := fun (s : State) (m log : Nat) => s.setMcb m { Mcb.zero with
    v := true, state := 1, prio := 4, wlog := BitVec.ofNat 3 log, hlog := BitVec.ofNat 3 log, entries := [emptyEntry] }
  queued (queued (s.updPart 0 (fun p => { p with savePool := (0, 2048) })) 8 3) 9 2

theorem test_victim : freePlot contexts 8 4 = none ∧ victim contexts 8 4 = some (1, 0, 0) := by decide +kernel
theorem test_victim_then : let s := (nextOf (exec (.freePlotSearch 0) contexts)).getD State.reset
    (mcbAt s 8).reserved = some (0, 0, 1) ∧ (mcbAt s 1).state = 4 ∧ freePlot s 9 4 = some (12, 0) := by decide +kernel

/-- A WAIT packet by its header 0x0700_0006 on a word that holds 0 waits for 1; an ENDLOOP whose reserved flags are set is a format fault, code 2. -/
theorem test_packets : let go := fun (h : Nat) (l : List W32) => nextOf (runPacket 0 (fieldNat (BitVec.ofNat 32 h) 24 8) (fieldNat (BitVec.ofNat 32 h) 16 8)
      (fieldNat (BitVec.ofNat 32 h) 0 16) l (streaming id))
    (go 0x07000006 [0x100, 0, 1, 0, 0xFFFFFFFF, 0xFFFFFFFF]).map (fun s => (mapFind s.streams 0).map (·.wait)) =
      some (some (some (.flag 0 0x100 1 0xFFFFFFFFFFFFFFFF))) ∧ badFormat 5 1 0 = true ∧ badFormat 5 0 0 = false := by
  decide +kernel

/-- Core 0 of the control complex after one instruction of its own set at pc 0, in machine mode (the words are RISC-V's, from outside the manual). -/
def hartRan (w : W32) (f : Hart → Hart) : Option Hart := (nextOf (step ((placeHart State.reset w).updHart 0 f))).map (fun s => hartAt s 0)

/-- addi x1, x0, 5; c.addi x1, 1 has two bytes; sd x1, 0x40(x0) is little-endian; ecall goes to mtvec. -/
theorem test_hart_integer : (hartRan 0x00500093 id).map (fun h => (h.reg 1, h.pc)) = some (5, 4) ∧
    (hartRan 0x00000085 (fun h => h.setReg 1 7)).map (fun h => (h.reg 1, h.pc)) = some (8, 2) := by decide +kernel
theorem test_hart_memory : (hartRan 0x04103023 (fun h => h.setReg 1 0x1122334455667788)).map (fun h => (h.byte 0 0x40, h.byte 0 0x47)) =
    some (0x88, 0x11) ∧ (hartRan 0x00000073 (fun h => { h with mtvec := 0x100 })).map (fun h => (h.pc, h.mode)) = some (0x100, 3) := by
  decide +kernel

-- Words of every instruction: those with a comment are the manual's own examples, the others are laid out from its encoding tables

theorem test_decode_integer_1 :
    decode 0x4020B380 = .ok (.add 1 8 11 14) ∧
    decode 0x4020B381 = .ok (.sub 1 8 11 14) ∧
    decode 0x4020B382 = .ok (.and 1 8 11 14) ∧
    decode 0x4020B383 = .ok (.or 1 8 11 14) ∧
    decode 0x4020B384 = .ok (.xor 1 8 11 14) ∧
    decode 0x4020B385 = .ok (.andn 1 8 11 14) ∧
    decode 0x4020B386 = .ok (.sll 1 8 11 14) ∧
    decode 0x4020B387 = .ok (.srl 1 8 11 14) ∧
    decode 0x4020B388 = .ok (.sra 1 8 11 14) ∧
    decode 0x4020B389 = .ok (.rol 1 8 11 14) ∧
    decode 0x4020B38A = .ok (.mul 1 8 11 14) ∧
    decode 0x4020B38B = .ok (.mulh 1 8 11 14) ∧
    decode 0x0024A2CC = .ok (.mulhu 0 9 10 11) ∧ -- mulhu s9, s10, s11
    decode 0x4020B38D = .ok (.div 1 8 11 14) ∧
    decode 0x4020B38E = .ok (.divu 1 8 11 14) ∧
    decode 0x4020B38F = .ok (.rem 1 8 11 14) ∧
    decode 0x4020B390 = .ok (.remu 1 8 11 14) ∧
    decode 0x4020B391 = .ok (.min 1 8 11 14) ∧
    decode 0x4020B392 = .ok (.max 1 8 11 14) ∧
    decode 0x4020B393 = .ok (.minu 1 8 11 14) ∧
    decode 0x4020B394 = .ok (.maxu 1 8 11 14) ∧
    decode 0x4020B395 = .ok (.slt 1 8 11 14) ∧
    decode 0x4020B396 = .ok (.sltu 1 8 11 14) ∧
    decode 0x01042000 = .ok (.clz 0 1 2) ∧ -- clz s1, s2
    decode 0x4120B001 = .ok (.ctz 1 8 11) ∧
    decode 0x4120B002 = .ok (.popc 1 8 11) ∧
    decode 0x4120B005 = .ok (.bswap 1 8 11) ∧
    decode 0x01042043 = .ok (.sext 0 1 2 1) ∧ -- sext.h s1, s2
    decode 0x4120B084 = .ok (.zext 1 8 11 2) ∧
    decode 0x02484140 = .ok (.cmp 0 2 2 4 5) ∧ -- cmp.lt p2, s4, s5
    decode 0x430CE011 = .ok (.cmpi 1 0 3 14 17) ∧
    decode 0x040420C4 = .ok (.sel 0 1 2 3 0 4) ∧ -- sel s1, s2, s3, p4
    decode 0x050420C0 = .ok (.pand 0 1 2 3) ∧ -- pand p1, p2, p3
    decode 0x45143181 = .ok (.por 1 5 3 6) ∧
    decode 0x451C3182 = .ok (.pxor 1 7 3 6) ∧
    decode 0x45183003 = .ok (.pnot 1 6 3) ∧
    decode 0x45083004 = .ok (.pmov 1 2 3) ∧
    decode 0x4820B00E = .ok (.addi 1 8 11 14) ∧
    decode 0x4920B00E = .ok (.andi 1 8 11 14) ∧
    decode 0x4A20B00E = .ok (.ori 1 8 11 14) :=
  by and_intros <;> rfl

theorem test_decode_integer_2 :
    decode 0x4B20B00E = .ok (.xori 1 8 11 14) ∧
    decode 0x0C0C3004 = .ok (.slli 0 3 3 4) ∧ -- slli s3, s3, 4
    decode 0x4D20B00E = .ok (.srli 1 8 11 14) ∧
    decode 0x4E20B00E = .ok (.srai 1 8 11 14) ∧
    decode 0x4F20B00E = .ok (.slti 1 8 11 14) ∧
    decode 0x5020B00E = .ok (.sltiu 1 8 11 14) ∧
    decode 0x11092345 = .ok (.lui 0 2 74565) := -- lui s2, 0x1_2345
  by and_intros <;> rfl

theorem test_decode_flow :
    decode 0x14000005 = .ok (.br 5) ∧
    decode 0x14200002 = .ok (.bp 1 2) ∧ -- bp p1, skip
    decode 0x14B00008 = .ok (.bnp 5 8) ∧
    decode 0x157C0010 = .ok (.call 31 16) ∧ -- call s31, func
    decode 0x167C5000 = .ok (.jmpr 31 5) ∧ -- jmpr s31, s5
    decode 0x1601F001 = .ok (.ret 31) ∧ -- ret s31
    decode 0x17403803 = .ok (.loop 1 7 3) ∧ -- loop lc1, s7, last
    decode 0x1721F805 = .ok (.loopi 0 63 5) ∧ -- loopi lc0, 64, last
    decode 0x18400000 = .ok (.lbrk 1) := -- lbrk lc1
  by and_intros <;> rfl

theorem test_decode_capability :
    decode 0x20081100 = .ok (.cbnd 0 2 1 4) ∧ -- cbnd c2, c1, s4
    decode 0x6020B381 = .ok (.ccur 1 8 11 14) ∧
    decode 0x6020B382 = .ok (.cadd 1 8 11 14) ∧
    decode 0x6020B383 = .ok (.cand 1 8 11 14) ∧
    decode 0x20102084 = .ok (.cget 0 4 2 2) ∧ -- cget s4, c2, len
    decode 0x6008B385 = .ok (.ctest 1 2 11 14) ∧
    decode 0x6020B006 = .ok (.cmov 1 8 11) ∧
    decode 0x200C5007 = .ok (.ctab 0 3 5) ∧ -- ctab c3, s5
    decode 0x21082040 = .ok (.caddi 0 2 2 64) := -- caddi c2, c2, 64
  by and_intros <;> rfl

theorem test_decode_queue :
    decode 0x24079000 = .ok (.qpoll 0 1 1) ∧ -- qpoll p1, qe
    decode 0x2403D001 = .ok (.qwait 0 5) ∧ -- qwait qc
    decode 0x28003000 = .ok (.omClaim 0 3) ∧ -- om.claim om3
    decode 0x28003001 = .ok (.omRelease 0 3) ∧ -- om.release om3
    decode 0x6820B002 = .ok (.omState 1 8 11) ∧
    decode 0x28000183 = .ok (.eqFence 0 6) ∧ -- eq.fence ce+me
    decode 0x28002044 = .ok (.chain 0 2 1) ∧ -- chain ce, me
    decode 0x28004005 = .ok (.taskPost 0 4) ∧ -- task.post c4
    decode 0x28089006 = .ok (.fmtSet 0 2 9) ∧ -- fmt.set f2, s9
    decode 0x6820B007 = .ok (.fmtGet 1 8 11) :=
  by and_intros <;> rfl

theorem test_decode_system :
    decode 0x30140008 = .ok (.mfsr 5 8) ∧ -- mfsr s5, PT
    decode 0x31006009 = .ok (.mtsr 6 9) ∧ -- mtsr VSEED, s6
    decode 0x32000000 = .ok .trapret ∧ -- trapret
    decode 0x32000001 = .ok .exit ∧ -- exit
    decode 0x32000002 = .ok .exitAbandon ∧ -- exit.abandon
    decode 0x32100003 = .ok (.rdtime 4) ∧ -- rdtime s4
    decode 0x32105004 = .ok (.rdcnt 4 5) ∧ -- rdcnt s4, s5
    decode 0x32000005 = .ok .brkpt ∧ -- brkpt
    decode 0x33000005 = .ok (.trap 5) := -- trap 5
  by and_intros <;> rfl

theorem test_decode_sync :
    decode 0x34000021 = .ok (.fence 0 2 1) ∧ -- fence.rel.plot
    decode 0x34000013 = .ok (.fence 0 1 3) ∧ -- fence.acq.device
    decode 0x34000034 = .ok (.fence 0 3 4) ∧ -- fence.ar.system
    decode 0x75000000 = .ok (.pbar 1) ∧
    decode 0x35006001 = .ok (.lwait 0 6) ∧ -- lwait c6
    decode 0x350020C2 = .ok (.barInit 0 2 3) ∧ -- bar.init [c2], s3
    decode 0x35002003 = .ok (.barArrive 0 2) ∧ -- bar.arrive [c2]
    decode 0x35002004 = .ok (.barWait 0 2) ∧ -- bar.wait [c2]
    decode 0x35042005 = .ok (.barTest 0 1 2) ∧ -- bar.test p1, [c2]
    decode 0x351C4006 = .ok (.genAlloc 0 7 4) ∧ -- gen.alloc c7, s4
    decode 0x75000007 = .ok (.genPass 1) :=
  by and_intros <;> rfl

theorem test_decode_memory :
    decode 0x381427FF = .ok (.ld 0 5 1 1 1023) ∧ -- ld.bu s5, [c1-1]
    decode 0x39105002 = .ok (.st 0 4 2 2 2) ∧ -- st.w s4, [c2+8]
    decode 0x3A104002 = .ok (.ldc 0 4 2 2) ∧ -- ldc c4, [c2+32]
    decode 0x3B144000 = .ok (.stc 0 5 2 0) ∧ -- stc c5, [c2]
    decode 0x3C0431D6 = .ok (.ldx 0 1 3 7 1 6) ∧ -- ldx.d s1, [c3+s7*8]
    decode 0x3C2431CC = .ok (.stx 0 9 3 7 0 4) ∧ -- stx.w s9, [c3+s7]
    decode 0x3D188001 = .ok (.ldFe 0 6 4 1) ∧ -- ld.fe s6, [c4+8]
    decode 0x3D188401 = .ok (.ldFf 0 6 4 1) ∧ -- ld.ff s6, [c4+8]
    decode 0x3D188801 = .ok (.stEf 0 6 4 1) ∧ -- st.ef s6, [c4+8]
    decode 0x3D188C01 = .ok (.feFill 0 6 4 1) ∧ -- fe.fill s6, [c4+8]
    decode 0x3D009001 = .ok (.feClr 0 4 1) ∧ -- fe.clr [c4+8]
    decode 0x3D189401 = .ok (.feSt 0 6 4 1) ∧ -- fe.st s6, [c4+8]
    decode 0x3D005808 = .ok (.pref 0 2 8) ∧ -- pref [c2+64]
    decode 0x3E043090 = .ok (.amo 0 1 3 2 1 0) ∧ -- amo.add.d s1, s2, [c3]
    decode 0x3E043089 = .ok (.amoCas 0 1 3 2 0) ∧ -- amo.cas.w s1, s2, [c3]
    decode 0x3F00308A = .ok (.red 0 3 2 0 10) ∧ -- red.fadd.w s2, [c3]
    decode 0x3F003090 = .ok (.red 0 3 2 1 0) := -- red.add.d s2, [c3]
  by and_intros <;> rfl

theorem test_decode_vector_1 :
    decode 0x8001840B = .ok (.vadd 0 3 4 5 1) ∧ -- vadd.m v3, v4, v5
    decode 0xC0440B1D = .ok (.vsub 1 8 11 14 1) ∧
    decode 0x80830104 = .ok (.vmul 0 6 1 2 0) ∧ -- vmul v6, v1, v2
    decode 0x80C40914 = .ok (.vfma 0 8 9 10 0) ∧ -- vfma v8, v9, v10
    decode 0xC1040B1D = .ok (.vfms 1 8 11 14 1) ∧
    decode 0xC1440B1D = .ok (.vfnma 1 8 11 14 1) ∧
    decode 0xC1840B1D = .ok (.vmin 1 8 11 14 1) ∧
    decode 0x81C08104 = .ok (.vmax 0 1 1 2 0) ∧ -- vmax v1, v1, v2
    decode 0xC2040B01 = .ok (.vabs 1 8 11 1) ∧
    decode 0x82418300 = .ok (.vneg 0 3 3 0) ∧ -- vneg v3, v3
    decode 0xC2840B01 = .ok (.vrcp 1 8 11 1) ∧
    decode 0x82C10700 = .ok (.vrsqrt 0 2 7 0) ∧ -- vrsqrt v2, v7
    decode 0xC3040B01 = .ok (.vsqrt 1 8 11 1) ∧
    decode 0xC3440B01 = .ok (.vexp2 1 8 11 1) ∧
    decode 0xC3840B01 = .ok (.vlog2 1 8 11 1) ∧
    decode 0xC3C40B01 = .ok (.vtanh 1 8 11 1) ∧
    decode 0x8402050C = .ok (.vdiv 0 4 5 6 0) ∧ -- vdiv v4, v5, v6
    decode 0x84408206 = .ok (.viadd 0 1 2 3 0) ∧ -- viadd v1, v2, v3
    decode 0xC4840B1D = .ok (.visub 1 8 11 14 1) ∧
    decode 0xC4C40B1D = .ok (.vimul 1 8 11 14 1) ∧
    decode 0xC5040B1D = .ok (.vimulh 1 8 11 14 1) ∧
    decode 0xC5440B1D = .ok (.vand 1 8 11 14 1) ∧
    decode 0xC5840B1D = .ok (.vor 1 8 11 14 1) ∧
    decode 0xC5C40B1D = .ok (.vxor 1 8 11 14 1) ∧
    decode 0xC6040B1D = .ok (.vshl 1 8 11 14 1) ∧
    decode 0xC6440B1D = .ok (.vshr 1 8 11 14 1) ∧
    decode 0xC6840B1D = .ok (.vsra 1 8 11 14 1) ∧
    decode 0xC6C40B1D = .ok (.vimin 1 8 11 14 1) ∧
    decode 0xC7040B1D = .ok (.vimax 1 8 11 14 1) ∧
    decode 0x8749040A = .ok (.vcmp 0 2 2 4 5 0) ∧ -- vcmp.lt m2, v4, v5
    decode 0x87958104 = .ok (.vicmp 0 5 3 1 2 0) ∧ -- vicmp.geu m3, v1, v2
    decode 0x87C2800E = .ok (.vsel 0 5 0 7) ∧ -- vsel v5, v0, v7
    decode 0x88008206 = .ok (.mand 0 1 2 3) ∧ -- mand m1, m2, m3
    decode 0xC842830C = .ok (.mor 1 5 3 6) ∧
    decode 0xC8820300 = .ok (.mnot 1 4 3) ∧
    decode 0x88C48100 = .ok (.mpop 0 9 1) ∧ -- mpop v9, m1
    decode 0x89008002 = .ok (.vcvt 0 1 0 1 0) ∧ -- vcvt v1, v0, f1
    decode 0x894A0806 = .ok (.vpack 0 20 8 3 0) ∧ -- vpack v20, v8, f3
    decode 0xC9840B1D = .ok (.vunpack 1 8 11 14 1) ∧
    decode 0x89C10308 = .ok (.vperm 0 2 3 4 0) := -- vperm v2, v3, v4
  by and_intros <;> rfl

theorem test_decode_vector_2 :
    decode 0x8A008800 = .ok (.vbcast 0 1 4 0 0) ∧ -- vbcast v1, s4, 0
    decode 0x8A418202 = .ok (.vrot 0 3 2 1 0) ∧ -- vrot v3, v2, 1
    decode 0x8A800000 = .ok (.vlane 0 0 0) ∧ -- vlane v0
    decode 0x8AC20300 = .ok (.vredsum 0 4 3 0 0) ∧ -- vredsum.f32 v4, v3
    decode 0xCB040B05 = .ok (.vredmax 1 8 11 2 1) ∧
    decode 0x8B430504 = .ok (.vredmin 0 6 5 2 0) ∧ -- vredmin.u32 v6, v5
    decode 0x8B828402 = .ok (.vscan 0 5 4 1 0) ∧ -- vscan.i32 v5, v4
    decode 0x8BC08010 = .ok (.vwin 0 1 0 8) ∧ -- vwin m1, s0, 64
    decode 0x8C028C04 = .ok (.vxset 0 5 6 2 0) ∧ -- vxset x2, v5, s6
    decode 0x8C40860A = .ok (.vmovs 0 1 3 5) ∧ -- vmovs v1, s3, 5
    decode 0x8C848000 = .ok (.vmovq 0 9 0) ∧ -- vmovq v9, 0
    decode 0x8C800100 = .ok (.vmovq 0 0 128) ∧ -- vmovq cnt
    decode 0x8CC18850 = .ok (.vld 0 3 2 5 0 0) ∧ -- vld v3, [c2+s5]
    decode 0x8D018856 = .ok (.vst 0 3 2 5 3 0) ∧ -- vst.b v3, [c2+s5]
    decode 0x8D420800 = .ok (.vldx 0 4 2 0 0 0) ∧ -- vldx v4, [c2+s0]
    decode 0x8D830850 = .ok (.vstx 0 6 2 5 0 0) ∧ -- vstx v6, [c2+s5]
    decode 0x8DC08880 = .ok (.vldS 0 1 2 8 0 0) ∧ -- vld.s v1, [c2+s8]
    decode 0xCE042CE3 = .ok (.vstS 1 8 11 14 1 1) :=
  by and_intros <;> rfl

theorem test_decode_matrix :
    decode 0x90046044 = .ok (.mma 0 0 2 3 1 4) ∧ -- mma acc0, om2, om3, f1, s4
    decode 0x90046040 = .ok (.mma 0 0 2 3 1 0) ∧ -- mma acc0, om2, om3, f1, mseg
    decode 0x90603085 = .ok (.mmaZ 0 1 0 1 66 5) ∧ -- mma.z acc1, om0, om1, f2+lc0, s5
    decode 0x90A00000 = .ok (.accClr 0 1) ∧ -- acc.clr acc1
    decode 0x90C04001 = .ok (.accRd 0 0 4 1) ∧ -- acc.rd.q c4, acc0
    decode 0x91205000 = .ok (.accWr 0 1 5 0) ∧ -- acc.wr acc1, c5
    decode 0x914E6200 = .ok (.epi 0 0 7 6 8 0) ∧ -- epi c6, acc0, om7, s8
    decode 0x91A00280 = .ok (.epiV 0 1 0 10 0) ∧ -- epi.v acc1, om0, s10
    decode 0x91C24000 = .ok (.dtabLd 0 1 4 0) ∧ -- dtab.ld dt1, c4
    decode 0x92040000 = .ok (.dtabInv 0 2) ∧ -- dtab.inv dt2
    decode 0x924000C0 = .ok (.mseg 0 3) := -- mseg s3
  by and_intros <;> rfl

theorem test_decode_copy :
    decode 0xA0085187 = .ok (.cp 0 4 5 6 7) ∧ -- cp c4, c5, s6, s7
    decode 0xE0085187 = .ok (.cp 1 4 5 6 7) ∧ -- .a
    decode 0xE0085187 = .ok (.cp 1 4 5 6 7) ∧ -- cp.a
    decode 0xA0485207 = .ok (.cp2d 0 4 5 8 7) ∧ -- cp.2d c4, c5, s8, s7
    decode 0xA0845187 = .ok (.cpOm 0 2 5 6 7) ∧ -- cp.om om2, c5, s6, s7
    decode 0xA0C85187 = .ok (.cpGat 0 4 5 6 7) ∧ -- cp.gat c4, c5, s6, s7
    decode 0xA1080207 = .ok (.cpSet 0 4 8 7) ∧ -- cp.set c4, s8, s7
    decode 0xA1485187 = .ok (.cpZ 0 4 5 6 7) ∧ -- cp.z c4, c5, s6, s7
    decode 0xA1885187 = .ok (.cpX 0 4 5 6 7) ∧ -- cp.x c4, c5, s6, s7
    decode 0xA1C85187 = .ok (.cpCk 0 4 5 6 7) ∧ -- cp.ck c4, c5, s6, s7
    decode 0xB00830E0 = .ok (.netPost 0 4 6 7) ∧ -- net.post c4, s6, s7
    decode 0xB0483100 = .ok (.netSend 0 4 6 8) ∧ -- net.send c4, s6, s8
    decode 0xF05059C1 = .ok (.netSendWrite 1 8 11 14) ∧
    decode 0xB0483102 = .ok (.netSendRead 0 4 6 8) ∧ -- net.send.read c4, s6, s8
    decode 0xB0883000 = .ok (.netReply 0 4 6) ∧ -- net.reply c4, s6
    decode 0xB0C830E0 = .ok (.fstLd 0 4 6 7) ∧ -- fst.ld c4, s6, s7
    decode 0xB10830E0 = .ok (.fstStart 0 4 6 7) ∧ -- fst.start c4, s6, s7
    decode 0xB14000E0 = .ok (.fstStop 0 7) := -- fst.stop s7
  by and_intros <;> rfl

theorem test_decode_port :
    decodeZc 0x0005850B = some (.zcPush 11 10) ∧ -- zc.push a0, a1
    decodeZc 0x0000150B = some (.zcFence 10) ∧ -- zc.fence a0
    decodeZc 0x0005A50B = some (.zcStat 11 10) := -- zc.stat a0, a1
  by refine ⟨rfl, rfl, rfl⟩

end Sys2Proof.Tests
end

/-!
# Every step keeps memory in its canonical form (O57)

The invariant is carried through the model by composition: for each function that a step can reach there is one lemma that says that the
function keeps memory well formed, and its proof follows the function's own text, with a case for each branch that names what the branch
calls. The lemmas are named after the functions: `wf_f` where `f` gives a state (or a pair that holds one), `KeepsWf.f` for a computation,
`OutWf.f` for an outcome, `OptWf.f`, `RvWf.f` and `MovesWf.f` for a state that may be absent, a RISC-V word and a list of moves. The parts below
stand in the order of the model's files.
-/

section
namespace Sys2Proof.Machine

variable {α β : Type}

/-! ## Well-formed memory of a state, an outcome, a computation -/

/-- The memory of a state is in its canonical form. A definition rather than an abbreviation: two such facts are then compared by their
states and not by evaluating their memories. -/
def MemWf (s : State) : Prop := Memory.wf s.mem = true

/-- Where an outcome goes on, its memory is in canonical form. -/
def OutWf (o : Out) : Prop := ∀ t, o = .next t → MemWf t

/-- A state that may be absent has its memory in canonical form. -/
def OptWf (o : Option State) : Prop := ∀ t ∈ o, MemWf t

/-- What a RISC-V word comes to has its memory in canonical form. -/
def RvWf (r : RvOut) : Prop := ∀ t, r = .done t → MemWf t

/-- Every move of a list keeps memory in canonical form. -/
def MovesWf (l : List (State → Out)) : Prop := ∀ f ∈ l, ∀ {s}, MemWf s → OutWf (f s)

/-! That a condition is decidable is found by unification, as the branch states it. -/

theorem wf_ite {c : Prop} {_ : Decidable c} {s t : State} (hs : MemWf s) (ht : MemWf t) : MemWf (if c then s else t) :=
  iteInduction (fun _ => hs) fun _ => ht

theorem wf_ite_snd {c : Prop} {_ : Decidable c} {p q : β × State} (hp : MemWf p.2) (hq : MemWf q.2) :
    MemWf (if c then p else q).2 :=
  iteInduction (motive := fun r : β × State => MemWf r.2) (fun _ => hp) fun _ => hq

theorem wf_foldl {f : State → α → State} {l : List α} {s : State} (hf : ∀ s a, MemWf s → MemWf (f s a)) (h : MemWf s) :
    MemWf (l.foldl f s) :=
  foldl_keeps hf l s h

theorem wf_foldl_snd {f : β × State → α → β × State} {l : List α} {p : β × State} (hf : ∀ p a, MemWf p.2 → MemWf (f p a).2)
    (h : MemWf p.2) : MemWf (l.foldl f p).2 := by
  induction l generalizing p with
  | nil => exact h
  | cons a l ih => exact ih (hf p a h)

theorem OutWf.next {s : State} (h : MemWf s) : OutWf (.next s) := by
  rintro t ⟨⟩
  exact h

theorem OutWf.fault (f : Fault) : OutWf (.fault f) := nofun

theorem OutWf.ite {c : Prop} {_ : Decidable c} {o p : Out} (ho : OutWf o) (hp : OutWf p) : OutWf (if c then o else p) :=
  iteInduction (fun _ => ho) fun _ => hp

theorem OutWf.runWord {access flow : Bool} {i : Instr} {body : M Flow} {s : State} (hb : KeepsWf body) (h : MemWf s) :
    OutWf (runWord access flow i body s) :=
  fun _ e => wf_runWord hb h e

theorem OptWf.none : OptWf none := nofun

theorem OptWf.some {s : State} (h : MemWf s) : OptWf (some s) := by
  rintro t ⟨⟩
  exact h

theorem OptWf.ite {c : Prop} {_ : Decidable c} {o p : Option State} (ho : OptWf o) (hp : OptWf p) : OptWf (if c then o else p) :=
  iteInduction (fun _ => ho) fun _ => hp

theorem OptWf.map {o : Option α} {f : α → State} (hf : ∀ a, MemWf (f a)) : OptWf (o.map f) := by
  cases o with
  | none => exact .none
  | some a => exact .some (hf a)

theorem OptWf.bind {o : Option α} {f : α → Option State} (hf : ∀ a, OptWf (f a)) : OptWf (o.bind f) := by
  cases o with
  | none => exact .none
  | some a => exact hf a

theorem OptWf.or {o p : Option State} (ho : OptWf o) (hp : OptWf p) : OptWf (o.or p) := by
  cases o with
  | none => exact hp
  | some _ => exact ho

theorem wf_getD {o : Option State} {s : State} (ho : OptWf o) (h : MemWf s) : MemWf (o.getD s) := by
  cases o with
  | none => exact h
  | some t => exact ho t rfl

theorem RvWf.done {s : State} (h : MemWf s) : RvWf (.done s) := by
  rintro t ⟨⟩
  exact h

theorem RvWf.trap {c v} : RvWf (.trap c v) := nofun

theorem RvWf.ite {c : Prop} {_ : Decidable c} {o p : RvOut} (ho : RvWf o) (hp : RvWf p) : RvWf (if c then o else p) :=
  iteInduction (fun _ => ho) fun _ => hp

theorem MovesWf.nil : MovesWf [] := nofun

theorem MovesWf.cons {f l} (hf : ∀ {s}, MemWf s → OutWf (f s)) (hl : MovesWf l) : MovesWf (f :: l) := by
  rintro g (_ | ⟨_, hg⟩)
  · exact hf
  · exact hl g hg

theorem MovesWf.append {l m} (hl : MovesWf l) (hm : MovesWf m) : MovesWf (l ++ m) := by
  intro f hf
  rcases List.mem_append.mp hf with hf | hf
  · exact hl f hf
  · exact hm f hf

theorem MovesWf.map {l : List α} {f : α → State → Out} (hf : ∀ a {s}, MemWf s → OutWf (f a s)) : MovesWf (l.map f) := by
  intro g hg
  obtain ⟨a, -, rfl⟩ := List.mem_map.mp hg
  exact hf a

theorem MovesWf.flatMap {l : List α} {f : α → List (State → Out)} (hf : ∀ a, MovesWf (f a)) : MovesWf (l.flatMap f) := by
  intro g hg
  obtain ⟨a, -, hg⟩ := List.mem_flatMap.mp hg
  exact hf a g hg

theorem MovesWf.ite {c : Prop} {_ : Decidable c} {l m} (hl : MovesWf l) (hm : MovesWf m) : MovesWf (if c then l else m) :=
  iteInduction (fun _ => hl) fun _ => hm

/-! ## Computations -/

theorem KeepsWf.throw {e : Stop} : KeepsWf (MonadExcept.throw e : M α) := fun _ h => h

theorem KeepsWf.raise_bind {c u a : Nat} {f : α → M β} : KeepsWf (Machine.raise c u a >>= f) := fun _ h => h

theorem KeepsWf.waitOn_bind {k : WaitKind} {x u l e : Nat} {f : α → M β} : KeepsWf (Machine.waitOn k x u l e >>= f) := fun _ h => h

theorem KeepsWf.get_bind {f : State → M α} (hf : ∀ s, MemWf s → KeepsWf (f s)) : KeepsWf (MonadState.get >>= f) :=
  fun s h => hf s h s h

theorem KeepsWf.set {s : State} (h : MemWf s) : KeepsWf (MonadStateOf.set s : M PUnit) := fun _ _ => h

theorem KeepsWf.ite {c : Prop} {_ : Decidable c} {m n : M α} (hm : KeepsWf m) (hn : KeepsWf n) : KeepsWf (if c then m else n) :=
  keeps_ite hm hn

/-- A `do` block that goes on with `n` whether or not it runs `m`. -/
theorem KeepsWf.when {c : Prop} {_ : Decidable c} {m : M α} {n : M β} (hm : KeepsWf m) (hn : KeepsWf n) :
    KeepsWf (if c then m >>= fun _ => n else n) :=
  .ite (.bind hm fun _ => hn) hn

/-- A `do` block that goes on with the answer of `m` or of `n`. -/
theorem KeepsWf.ite_bind {c : Prop} {_ : Decidable c} {m n : M α} {f : α → M β} (hm : KeepsWf m) (hn : KeepsWf n)
    (hf : ∀ a, KeepsWf (f a)) : KeepsWf (if c then m >>= f else n >>= f) :=
  .ite (.bind hm hf) (.bind hn hf)

theorem KeepsWf.map {m : M α} {f : α → β} (hm : KeepsWf m) : KeepsWf (f <$> m) := by
  rw [map_eq_pure_bind]
  exact .bind hm fun _ => .pure _

theorem run_tryCatch_ok {m : M α} {f : Stop → M α} {s t : State} {x : α} (h : m.run s = .ok x t) :
    (MonadExcept.tryCatch m f : M α).run s = .ok x t := by
  show EStateM.tryCatch m f s = _
  unfold EStateM.tryCatch
  rw [show m s = .ok x t from h]

theorem run_tryCatch_error {m : M α} {f : Stop → M α} {s t : State} {e : Stop} (h : m.run s = .error e t) :
    (MonadExcept.tryCatch m f : M α).run s = (f e).run t := by
  show EStateM.tryCatch m f s = _
  unfold EStateM.tryCatch
  rw [show m s = .error e t from h]
  rfl

theorem KeepsWf.tryCatch {m : M α} {f : Stop → M α} (hm : KeepsWf m) (hf : ∀ e, KeepsWf (f e)) :
    KeepsWf (MonadExcept.tryCatch m f) := by
  intro s h
  rcases e : m.run s with ⟨x, t⟩ | ⟨x, t⟩
  · rw [endOf, run_tryCatch_ok e]
    exact hm.ok e h
  · rw [endOf, run_tryCatch_error e]
    exact hf x t (hm.error e h)

theorem KeepsWf.mapM {f : α → M β} (hf : ∀ x, KeepsWf (f x)) (l : List α) : KeepsWf (l.mapM f) := by
  induction l with
  | nil => exact .pure _
  | cons x l ih =>
    rw [List.mapM_cons]
    exact .bind (hf x) fun _ => .bind ih fun _ => .pure _

theorem KeepsWf.forIn {f : α → β → M (ForInStep β)} (hf : ∀ x b, KeepsWf (f x b)) (l : List α) (b : β) :
    KeepsWf (forIn l b f) := by
  induction l generalizing b with
  | nil => exact .pure _
  | cons x l ih =>
    rw [List.forIn_cons]
    refine .bind (hf x b) fun r => ?_
    cases r with
    | done b => exact .pure _
    | yield b => exact ih b

theorem KeepsWf.forM {f : α → M PUnit} (hf : ∀ x, KeepsWf (f x)) (l : List α) : KeepsWf (l.forM f) := by
  induction l with
  | nil => exact .pure _
  | cons x l ih => exact .bind (hf x) fun _ => ih

theorem KeepsWf.keepGot {got hit} {x : M α} (hx : KeepsWf x) : KeepsWf (keepGot got hit x) :=
  .tryCatch hx fun _ => by split <;> exact .throw

theorem KeepsWf.racePieces {w ps} : KeepsWf (racePieces w ps) := by
  induction ps with
  | nil => exact .pure _
  | cons p ps ih => exact .bind (.raceCheck _ _ _ _ _) fun _ => ih

theorem wf_of_got {m : M α} {s t : State} {v : α} (hm : KeepsWf m) (h : MemWf s) (e : streamTry m s = .got v t) : MemWf t := by
  unfold streamTry at e
  split at e <;> cases e
  rename_i r
  exact hm.ok r h

theorem wf_of_fail {m : M α} {s t : State} {c : Nat} (hm : KeepsWf m) (h : MemWf s) (e : streamTry m s = .fail c t) : MemWf t := by
  unfold streamTry at e
  split at e <;> cases e
  rename_i r
  exact hm.error r h

theorem wf_of_wait {m : M α} {s t : State} {g : Hold} (hm : KeepsWf m) (h : MemWf s) (e : streamTry m s = .wait g t) : MemWf t := by
  unfold streamTry at e
  split at e <;> cases e
  rename_i r
  exact hm.error r h

/-! ## Updates that leave memory as it is -/

theorem wf_setCore {s k c} (h : MemWf s) : MemWf (s.setCore k c) := h

theorem wf_updCore {s k f} (h : MemWf s) : MemWf (s.updCore k f) := h

theorem wf_setMcb {s m b} (h : MemWf s) : MemWf (s.setMcb m b) := h

theorem wf_updMcb {s m f} (h : MemWf s) : MemWf (s.updMcb m f) := h

theorem wf_updInv {s m f} (h : MemWf s) : MemWf (s.updInv m f) := h

theorem wf_updPart {s p f} (h : MemWf s) : MemWf (s.updPart p f) := h

theorem wf_updIsland {s i f} (h : MemWf s) : MemWf (s.updIsland i f) := h

theorem wf_updPort {s p f} (h : MemWf s) : MemWf (s.updPort p f) := h

theorem wf_updIfc {s i f} (h : MemWf s) : MemWf (s.updIfc i f) := h

theorem wf_updLane {s l f} (h : MemWf s) : MemWf (s.updLane l f) := h

theorem wf_updHart {s i f} (h : MemWf s) : MemWf (s.updHart i f) := h

theorem wf_dropAtPort {s port} (h : MemWf s) : MemWf (dropAtPort s port) := wf_updPort h

theorem wf_dropAtSower {s part} (h : MemWf s) : MemWf (dropAtSower s part) := wf_updPart h

theorem wf_releaseTx {s port} (h : MemWf s) : MemWf (releaseTx s port) := h

theorem wf_honourPause {s port enable quanta} (h : MemWf s) : MemWf (honourPause s port enable quanta) :=
  wf_releaseTx (wf_updPort h)

theorem wf_countRv {s t k b} (h : MemWf t) : MemWf (countRv s t k b) := h

theorem wf_illegalHart {s k} (h : MemWf s) : MemWf (illegalHart s k) := wf_countRv (wf_updHart h)

theorem wf_hartNext {s k f} (h : MemWf s) : MemWf (hartNext s k f) := wf_countRv (wf_updHart h)

theorem wf_keepMemory {s t} (h : MemWf t) : MemWf (keepMemory s t) := h

theorem wf_hoardWaits {s k n x g} (h : MemWf s) : MemWf (hoardWaits s k n x g) := h

theorem wf_setLadder {s m l} (h : MemWf s) : MemWf (setLadder s m l) := h

theorem wf_reissue {s k} (h : MemWf s) : MemWf (reissue s k) := h

theorem wf_pmem {s : State} {p} (h : MemWf s) : MemWf { s with pmem := p } := h

theorem wf_rdy {s : State} {p} (h : MemWf s) : MemWf { s with rdy := p } := h

theorem wf_mctp {s : State} {p} (h : MemWf s) : MemWf { s with mctp := p } := h

theorem wf_enc {s : State} {p} (h : MemWf s) : MemWf { s with enc := p } := h

theorem wf_promote {s x} (h : MemWf s) : MemWf (promote s x) := h

theorem wf_putCmd {s k x} (h : MemWf s) : MemWf (putCmd s k x) := h

theorem wf_updRecord {s m n f} (h : MemWf s) : MemWf (s.updRecord m n f) := h

theorem wf_takenOut {s m t} (h : MemWf s) : MemWf (takenOut s m t) := h

theorem wf_putTask {s k t} (h : MemWf s) : MemWf (putTask s k t) := h

theorem wf_leaveTable {s m} (h : MemWf s) : MemWf (leaveTable s m) := h

/-! ## Parts -/

theorem wf_updStream {s n f} (h : MemWf s) : MemWf (State.updStream s n f) := by
  unfold State.updStream
  split <;> exact h

theorem wf_count {s part code n} (h : MemWf s) : MemWf (State.count s part code n) :=
  wf_ite h h

/-! ## Waits -/

theorem wf_recordCmdWait {s k x out w} (h : MemWf s) : MemWf (recordCmdWait s k x out w) := by
  unfold recordCmdWait
  split
  · exact h
  · exact wf_pushWait _ _ h

theorem wf_endCmdWaits {s k x out} (h : MemWf s) : MemWf (endCmdWaits s k x out) :=
  wf_foldl (fun _ _ hs => wf_recordCmdWait hs) h

/-! ## Faults -/

theorem KeepsWf.self : KeepsWf self :=
  .bind .get fun _ => .pure _

theorem KeepsWf.core : KeepsWf core :=
  .bind .get fun _ => .bind .get fun _ => .pure _

theorem KeepsWf.thread : KeepsWf thread :=
  .bind .core fun _ => .pure _

theorem KeepsWf.updCore {f} : KeepsWf (updCore f) :=
  keepsWf_modify fun _ hs => hs

theorem KeepsWf.updThread {f} : KeepsWf (updThread f) :=
  .updCore

theorem wf_releaseLanes {s m} (h : MemWf s) : MemWf (releaseLanes s m) :=
  wf_foldl (fun _ _ hs => wf_ite hs (wf_ite hs hs)) h

theorem wf_reportTo {s serial k f} (h : MemWf s) : MemWf (reportTo s serial k f) := by
  unfold reportTo
  exact wf_ite (wf_report _ _ h) (by split <;> exact h)

/-! ## Translate -/

theorem KeepsWf.checkCap {c need ea n} : KeepsWf (checkCap c need ea n) :=
  .ite .raise_bind (.ite .raise_bind (.ite .raise_bind (.ite .raise_bind (.ite .raise_bind (.pure _)))))

theorem KeepsWf.needSys {w c a} : KeepsWf (needSys w c a) :=
  .bind .get fun _ => .ite (.raise _ _ _) (.pure _)

/-! ## Queue -/

theorem wf_enqueue {s m desc payload msg edges stream} (h : MemWf s) : MemWf (enqueue s m desc payload msg edges stream) :=
  wf_enqueueAt _ _ _ _ _ _ _ h

theorem wf_missRing {s part bs} (h : MemWf s) : MemWf (missRing s part bs) :=
  wf_updRings _ _ h

theorem wf_performCount {s n} (h : MemWf s) : MemWf (performCount s n) := by
  unfold performCount
  split
  · exact h
  · exact wf_ite h (wf_performIncrement _ h)

/-! ## Reply -/

theorem wf_transmit {s port prio f} (h : MemWf s) : MemWf (transmit s port prio f) :=
  wf_ite h h

theorem wf_transmitRdma {s u f} (h : MemWf s) : MemWf (State.transmitRdma s u f) :=
  wf_transmit h

theorem wf_sendReply {s m status payload} (h : MemWf s) : MemWf (sendReply s m status payload) := by
  unfold sendReply
  refine wf_ite h ?_
  split
  · exact h
  · exact wf_transmit h

theorem wf_entryAnswer {e s status payload} (h : MemWf s) : MemWf (QEntry.answer e s status payload) := by
  unfold QEntry.answer
  split
  · exact h
  · exact wf_sendReply h

theorem wf_decideReply {s m status payload} (h : MemWf s) : MemWf (decideReply s m status payload) := by
  unfold decideReply
  split
  · exact h
  split
  · exact h
  · exact wf_entryAnswer h

/-! ## Frames -/

theorem wf_slowPath {s m bs} (h : MemWf s) : MemWf (slowPath s m bs) :=
  wf_ite (wf_updRings _ _ h) h

theorem wf_queueMessage {s m pcp} (h : MemWf s) : MemWf (queueMessage s m pcp) :=
  wf_ite h (wf_ite h (wf_ite h h))

theorem wf_resumePort {s port} (h : MemWf s) : MemWf (resumePort s port) :=
  wf_ite h h

theorem wf_routeUdp {s m dport pcp} (h : MemWf s) : MemWf (routeUdp s m dport pcp) :=
  wf_ite (wf_queueMessage h) (wf_ite h (wf_slowPath h))

theorem wf_routeFrame {s port f pair part} (h : MemWf s) : MemWf (routeFrame s port f pair part) := by
  unfold routeFrame
  dsimp only
  split
  · exact h
  · exact h
  · exact wf_ite (wf_transmit h) (wf_slowPath h)
  · refine wf_ite h ?_
    split
    · exact wf_ite (wf_routeUdp h) h
    · exact wf_slowPath h
  split
  · exact wf_ite (wf_routeUdp h) h
  · exact wf_ite h (wf_ite (wf_transmit h) (wf_slowPath h))
  · exact wf_ite h (wf_slowPath h)
  · exact h

theorem OutWf.execFrameReceive {port f s} (h : MemWf s) : OutWf (execFrameReceive port f s) := by
  refine .next (wf_ite h (wf_ite (wf_dropAtPort h) ?_))
  split
  · exact wf_updPort h
  · exact wf_honourPause h
  split
  · exact wf_dropAtPort h
  · exact wf_ite (wf_routeFrame h) (wf_dropAtPort h)

theorem OutWf.execSowerAcceptMessage {s} (h : MemWf s) : OutWf (execSowerAcceptMessage s) := by
  refine .next ?_
  split
  · exact h
  split
  · exact h
  split
  · exact h
  extract_lets s1 s2
  have taken : MemWf s1 := wf_resumePort (wf_updPort h)
  have turned : MemWf s2 := taken
  clear_value s2
  exact wf_ite turned (wf_ite turned (wf_dropAtSower turned))

theorem OutWf.execGcmHeaderCheck {s} (h : MemWf s) : OutWf (execGcmHeaderCheck s) := by
  unfold Machine.execGcmHeaderCheck
  refine .next ?_
  split
  · dsimp only
    split <;> exact h
  · exact h

theorem OutWf.execMcbLookup {s0} (h : MemWf s0) : OutWf (execMcbLookup s0) := by
  unfold Machine.execMcbLookup
  refine .next ?_
  split
  · refine wf_ite (wf_sendReply h) ?_
    split
    · exact wf_ite (wf_missRing h) (wf_sendReply h)
    exact wf_ite (wf_sendReply h) (wf_ite (wf_sendReply h) (wf_ite (wf_sendReply h) (wf_enqueueAt _ _ _ _ _ _ _ h)))
  · exact h

/-! ## Ops -/

theorem KeepsWf.watchThread {k sub imp a} : KeepsWf (watchThread k sub imp a) := by
  unfold Machine.watchThread
  split
  · exact .pure _
  · exact keepsWf_modify fun _ hs => wf_ite (wf_report _ _ hs) (wf_threadFault _ _ hs)

theorem wf_struckBy {s k a} (h : MemWf s) : MemWf (struckBy s k a) := by
  unfold struckBy
  dsimp only
  split
  · exact wf_report _ _ (wf_report _ _ h)
  · exact h

theorem KeepsWf.strike {k a} : KeepsWf (strike k a) := by
  unfold Machine.strike
  split
  · exact .pure _
  · exact keepsWf_modify fun _ hs => wf_struckBy hs

theorem KeepsWf.strikeGate {k} : KeepsWf (strikeGate k) := by
  unfold Machine.strikeGate
  refine .bind .get fun _ => ?_
  split
  · exact .pure _
  · exact .ite .waitOn_bind (keepsWf_modify fun _ hs => hs)

theorem KeepsWf.lateFault {k addr a} : KeepsWf (lateFault k addr a) := by
  unfold Machine.lateFault
  split
  · exact .pure _
  · exact keepsWf_modify fun _ hs => wf_report _ _ hs

theorem KeepsWf.permits {r n off} : KeepsWf (permits r n off) := by
  unfold Machine.permits
  refine .bind .get fun _ => ?_
  split
  · exact .pure _
  · exact .raise _ _ _

theorem KeepsWf.answers {r n off} : KeepsWf (answers r n off) :=
  .bind .permits fun _ => .bind .get fun _ => .ite (.waitOn _ _ _ _ _) (.pure _)

theorem KeepsWf.behindPosted {sp} : KeepsWf (behindPosted sp) :=
  .bind .get fun _ => .ite (.waitOn _ _ _ _ _) (.pure _)

theorem KeepsWf.behindFlights {r n} : KeepsWf (behindFlights r n) :=
  .bind .get fun _ => .ite (.waitOn _ _ _ _ _) (.pure _)

theorem KeepsWf.loadTagged {w race obj sp off} : KeepsWf (loadTagged w race obj sp off) :=
  .bind (.resolve _ _ _ _ _) fun _ => .bind .behindPosted fun _ => .bind .behindFlights fun _ => .bind .answers fun _ => .bind
    .get fun _ => .bind (.readPieces _ _ _ _ _) fun _ => .pure _

theorem KeepsWf.writePieces {w kind obj bs ps} : KeepsWf (writePieces w kind obj bs ps) := by
  induction ps generalizing bs with
  | nil => exact .pure _
  | cons p ps ih =>
    exact .bind .get fun _ => .ite (.bind ih fun _ => .pure _)
      (.bind (.writePiece _ _ _ _ _ _ _) fun _ => .bind (.watchAccess _ _ _ _ _) fun _ => .bind ih fun _ => .pure _)

theorem KeepsWf.resolveStore {w obj sp a ps} : KeepsWf (resolveStore w obj sp a ps) := by
  induction ps with
  | nil => exact .pure _
  | cons p ps ih =>
    refine .bind (.tryCatch (.bind (.resolve _ _ _ _ _) fun _ => .pure _) fun _ => ?_) fun _ => .bind ih fun _ => ?_
    · split
      · exact .ite (.pure _) .throw
      · exact .throw
    · split
      · exact .pure _
      · exact .throw

theorem KeepsWf.waitHoard {k obj off n} : KeepsWf (waitHoard k obj off n) :=
  .bind .get fun _ => .ite (.waitOn _ _ _ _ _) (.pure _)

theorem KeepsWf.loadEntry {w k i} : KeepsWf (loadEntry w k i) :=
  .bind .get fun _ => .bind .waitHoard fun _ => .loadTagged

theorem KeepsWf.waitLog {k} : KeepsWf (waitLog k) :=
  .bind .get fun _ => .ite .waitOn_bind (.ite (.waitOn _ _ _ _ _) (.pure _))

theorem KeepsWf.waitLogOnce {k} : KeepsWf (waitLogOnce k) :=
  .bind .get fun _ => .ite .waitLog (.pure _)

theorem KeepsWf.hoardPut {w op cap off bs extent mask tags} : KeepsWf (hoardPut w op cap off bs extent mask tags) := by
  unfold Machine.hoardPut
  exact .get_bind fun _ hs => .ite .waitOn_bind (.set (wf_promote (wf_updCore (wf_countCore _ _ _ (wf_countCore _ _ _ (by
    split <;> exact hs))))))

theorem KeepsWf.reachGate {w op c a bs x} (hx : KeepsWf x) : KeepsWf (reachGate w op c a bs x) :=
  .bind .get fun _ => .ite (.bind .needSys fun _ => .bind (.resolve _ _ _ _ _) fun _ => keepsWf_modify fun _ hs => hs) (.tryCatch
    (.bind .strikeGate fun _ => hx) fun _ => .bind (keepsWf_modify fun _ hs => hs) fun _ => .throw)

theorem KeepsWf.orHoard {w op cap off bs x} (hx : KeepsWf x) : KeepsWf (orHoard w op cap off bs x) := by
  unfold Machine.orHoard
  refine .tryCatch hx fun _ => ?_
  split
  · exact .ite .hoardPut .throw
  · exact .throw

theorem KeepsWf.permitsAll {ps} : KeepsWf (permitsAll ps) := by
  induction ps with
  | nil => exact .pure _
  | cons p ps ih => exact .bind .permits fun _ => ih

theorem KeepsWf.answersAll {ps} : KeepsWf (answersAll ps) := by
  induction ps with
  | nil => exact .pure _
  | cons p ps ih => exact .bind .answers fun _ => ih

theorem wf_handlerEntry {s k cause addr epc} (h : MemWf s) : MemWf (handlerEntry s k cause addr epc) := by
  unfold handlerEntry
  refine wf_ite ?_ (wf_dropHold _ _ _ h)
  split
  · exact h
  · exact wf_startKill _ _ h

theorem KeepsWf.recordStore {k r} : KeepsWf (recordStore k r) :=
  .bind .get fun _ => .bind .needSys fun _ => .bind .waitHoard fun _ => .orHoard (.bind .resolveStore fun _ => .bind .racePieces
    fun _ => .bind .writePieces fun _ => .bind .watchThread fun _ => .lateFault)

theorem wf_handlerRecord {s k} (h : MemWf s) : MemWf (handlerRecord s k) := by
  unfold handlerRecord
  split
  · exact h
  refine wf_ite (wf_updCore h) ?_
  split
  · rename_i e
    exact wf_updCore (KeepsWf.recordStore.ok e h)
  · exact h
  · exact wf_updCore h

theorem wf_takeReport {s k} (h : MemWf s) : MemWf (takeReport s k) := by
  unfold takeReport
  split
  · exact h
  · exact wf_ite (wf_handlerEntry h) (wf_handlerEntry (wf_handlerRecord h))

/-! ## Ports -/

theorem KeepsWf.popPort {n} : KeepsWf (popPort n) := by
  unfold Machine.popPort
  refine .get_bind fun _ hs => ?_
  refine .ite (.raise _ _ _) ?_
  refine .ite ?_ ?_
  · split
    · exact .waitOn _ _ _ _ _
    · exact .bind (.set (wf_updCore (wf_updCore (wf_setCore hs)))) fun _ => .pure _
  refine .ite ?_ ?_
  · split
    · exact .waitOn _ _ _ _ _
    · exact .bind (.set (wf_updCore (wf_updCore (wf_setCore hs)))) fun _ => .pure _
  refine .ite ?_ (.ite .raise_bind ?_)
  · split
    · exact .waitOn _ _ _ _ _
    · exact .bind (.set (wf_updCore (wf_updCore (wf_setCore hs)))) fun _ => .pure _
  split
  · exact .waitOn _ _ _ _ _
  · exact .bind (.set (wf_updCore (wf_updCore (wf_setCore hs)))) fun _ => .pure _

theorem KeepsWf.pushRoom {s n} : KeepsWf (pushRoom s n) := by
  unfold Machine.pushRoom
  refine .ite (.raise _ _ _) (.ite (.ite .waitOn_bind (.ite (.raise _ _ _) (.pure _))) ?_)
  split
  · exact .raise _ _ _
  · exact .ite (.waitOn _ _ _ _ _) (.pure _)

theorem KeepsWf.roomFor {before d} : KeepsWf (roomFor before d) :=
  .ite (.pure _) .pushRoom

theorem KeepsWf.pushPort {n v} : KeepsWf (pushPort n v) := by
  unfold Machine.pushPort
  refine .bind .get fun _ => .bind .pushRoom fun _ => .bind .waitLog fun _ => ?_
  refine .ite (keepsWf_modify fun _ hs => wf_updCore (wf_updCore (wf_updCore hs))) ?_
  split
  · exact .pure _
  · exact keepsWf_modify fun _ hs => wf_updCore (wf_updCore (wf_updCore hs))

theorem KeepsWf.readS {n} : KeepsWf (readS n) :=
  .ite (.bind .thread fun _ => .pure _) .popPort

theorem KeepsWf.writeS {n v} : KeepsWf (writeS n v) :=
  .ite .updThread .pushPort

theorem KeepsWf.readC {n} : KeepsWf (readC n) :=
  .bind .thread fun _ => .pure _

theorem KeepsWf.writeC {n c} : KeepsWf (writeC n c) :=
  .updThread

/-! ## Words -/

theorem OutWf.stopped {s s1 pipe i a} (h : MemWf s) (h1 : MemWf s1) : OutWf (stopped s s1 pipe i a) := by
  unfold Machine.stopped
  split
  · refine .next (wf_threadFault _ _ ?_)
    split
    · exact wf_ite (wf_dropHold _ _ _ h) (wf_countIssue _ _ _ (wf_dropHold _ _ _ h))
    · exact wf_dropHold _ _ _ h
  · dsimp only
    split
    · exact .ite (.next (wf_holdAt _ _ _ (wf_ite h1 h))) (.next (wf_holdAt _ _ _ (wf_countIssue _ _ _ (wf_ite h1 h))))
    · exact .next (wf_holdAt _ _ _ (wf_ite h1 h))
  · exact .fault _

theorem KeepsWf.fetchWord : KeepsWf fetchWord := by
  unfold Machine.fetchWord
  refine .bind .thread fun _ => ?_
  refine .ite .raise_bind (.ite .raise_bind (.ite .raise_bind (.ite .raise_bind (.ite .raise_bind ?_))))
  exact .bind .get fun _ => .bind .self fun _ => .bind .waitHoard fun _ => .bind .behindPosted fun _ => .bind (.resolve _ _ _ _ _)
    fun _ => .bind .behindFlights fun _ => .bind .answers fun _ => .bind (.checkLines _ _ _) fun _ => .bind (.readPiece _ _ _ _ _)
    fun _ => .bind (keepsWf_modify fun _ hs => wf_countAccess _ _ _ _ _ hs) fun _ => .pure _

theorem OutWf.execIllegalInstruction {word s} (h : MemWf s) : OutWf (execIllegalInstruction word s) := by
  unfold Machine.execIllegalInstruction
  split
  · exact .next h
  · exact .runWord (.raise _ _ _) h

/-! ## Control -/

theorem OutWf.execJmpr {d a s} (h : MemWf s) : OutWf (execJmpr d a s) :=
  .runWord (.bind .readS fun _ => .bind .roomFor fun _ => .bind .thread fun _ => .bind .writeS fun _ => .pure _) h

theorem KeepsWf.startLoop {l n e} : KeepsWf (startLoop l n e) :=
  .bind .thread fun _ => .ite .raise_bind (.ite .raise_bind (.ite (.pure _) (.bind .updThread fun _ => .pure _)))

theorem OutWf.execCbnd {z d a b s} (h : MemWf s) : OutWf (execCbnd z d a b s) := by
  unfold Machine.execCbnd
  refine .runWord (.bind .readC fun _ => .bind .readS fun _ => ?_) h
  refine .ite .raise_bind ?_
  split
  · exact .raise _ _ _
  · exact .bind .writeC fun _ => .pure _

theorem OutWf.execCtab {z d a s} (h : MemWf s) : OutWf (execCtab z d a s) :=
  .runWord (.bind .readS fun _ => .ite .raise_bind (.bind .self fun _ => .bind .get fun _ => .bind .loadEntry fun _ => .bind
    .writeC fun _ => .bind .watchThread fun _ => .pure _)) h

theorem KeepsWf.needNeighbour {n} : KeepsWf (needNeighbour n) :=
  .bind .get fun _ => .ite (.raise _ _ _) (.pure _)

theorem OutWf.execOmClaim {z n s} (h : MemWf s) : OutWf (execOmClaim z n s) :=
  .runWord (.bind .core fun _ => .ite .waitOn_bind (.ite .raise_bind (.bind .updCore fun _ => .pure _))) h

theorem OutWf.execOmRelease {z n s} (h : MemWf s) : OutWf (execOmRelease z n s) :=
  .runWord (.bind .core fun _ => .ite (.bind .updCore fun _ => .pure _) (.ite (.bind .updCore fun _ => .pure _) .raise_bind)) h

theorem wf_endDrain {s k} (h : MemWf s) : MemWf (endDrain s k) :=
  wf_foldl (fun _ _ hs => hs) h

theorem OutWf.execOmState {z d n s} (h : MemWf s) : OutWf (execOmState z d n s) :=
  .runWord (.bind .core fun _ => .ite (.bind (keepsWf_modify fun _ hs => hs) fun _ => .bind .writeS fun _ => .pure _) (.bind
    .writeS fun _ => .pure _)) h

theorem OutWf.execEqFence {z m s} (h : MemWf s) : OutWf (execEqFence z m s) :=
  .runWord (.bind .core fun _ => .ite .waitOn_bind (.bind (keepsWf_modify fun _ hs => wf_foldl (fun _ _ ht => wf_ite ht ht) hs)
    fun _ => .pure _)) h

theorem wf_noteReady {s m} (h : MemWf s) : MemWf (noteReady s m) := by
  unfold noteReady
  split <;> exact h

theorem OutWf.execTaskPost {z a s} (h : MemWf s) : OutWf (execTaskPost z a s) := by
  unfold Machine.execTaskPost
  refine .runWord (.bind .readC fun _ => ?_) h
  refine .ite .raise_bind (.ite .raise_bind (.ite .raise_bind (.ite .raise_bind (.ite .raise_bind ?_))))
  refine .bind .get fun _ => ?_
  dsimp only
  split
  · exact .pure _
  split
  · exact .pure _
  refine .ite .waitOn_bind ?_
  exact .bind .waitLog fun _ => .bind (.resolve _ _ _ _ _) fun _ => .bind (.readPieces _ _ _ _ _) fun _ => .bind .thread fun _ =>
    .bind .get fun _ => .bind (keepsWf_modify fun _ hs => wf_updCore (wf_noteReady (wf_updInv hs))) fun _ => .bind .watchThread
    fun _ => .pure _

theorem OutWf.execMfsr {d n s} (h : MemWf s) : OutWf (execMfsr d n s) := by
  unfold Machine.execMfsr
  refine .runWord (.bind .get fun _ => ?_) h
  refine .ite ?_ ?_
  · refine .bind .thread fun _ => ?_
    split
    · exact .raise_bind
    · exact .bind .writeC fun _ => .pure _
  split
  · exact .raise_bind
  · exact .bind .writeS fun _ => .pure _

theorem OutWf.execMtsr {a n s} (h : MemWf s) : OutWf (execMtsr a n s) := by
  unfold Machine.execMtsr
  refine .runWord ?_ h
  refine .ite ?_ ?_
  · refine .bind .readC fun _ => .bind .thread fun _ => ?_
    split
    · exact .raise_bind
    · exact .bind .updThread fun _ => .pure _
  refine .bind .readS fun _ => .bind .thread fun _ => ?_
  split
  · exact .raise_bind
  · exact .bind .updThread fun _ => .pure _

theorem OutWf.execRdcnt {d a s} (h : MemWf s) : OutWf (execRdcnt d a s) :=
  .runWord (.bind .readS fun _ => .bind .roomFor fun _ => .bind .core fun _ => .bind .writeS fun _ => .pure _) h

theorem OutWf.execTrap {i s} (h : MemWf s) : OutWf (execTrap i s) :=
  .runWord (.bind .get fun _ => .bind .thread fun _ => .bind .updThread fun _ => .bind (keepsWf_modify fun _ hs => wf_handlerEntry
    hs) fun _ => .pure _) h

theorem wf_debugStop {s m} (h : MemWf s) : MemWf (debugStop s m) :=
  wf_stopEngines _ _ h

theorem OutWf.execBrkpt {s} (h : MemWf s) : OutWf (execBrkpt s) := by
  unfold Machine.execBrkpt
  split
  · exact .next h
  · exact .ite (.next (wf_debugStop h)) (.next (wf_handlerEntry (wf_countIssue _ _ _ h)))

theorem OutWf.execTrapret {s} (h : MemWf s) : OutWf (execTrapret s) := by
  unfold Machine.execTrapret
  refine .runWord (.bind .thread fun _ => ?_) h
  refine .ite .raise_bind (.ite .raise_bind ?_)
  refine .bind .updThread fun _ => .bind (keepsWf_modify fun _ hs => ?_) fun _ => .pure _
  split
  · exact wf_ite hs (wf_ite (wf_updRings _ _ (wf_stopEngines _ _ hs)) (wf_takeReport hs))
  · exact hs

theorem OutWf.execExit {s} (h : MemWf s) : OutWf (execExit s) :=
  .runWord (.bind .core fun _ => .bind .get fun _ => .bind .self fun _ => .ite .waitOn_bind (.ite .waitOn_bind (.bind
    (keepsWf_modify fun _ hs => hs) fun _ => .pure _))) h

theorem wf_dropWaits {s k} (h : MemWf s) : MemWf (dropWaits s k) :=
  wf_foldl (fun _ _ hs => wf_endCmdWaits hs) (wf_foldl (fun _ _ hs => wf_endHoardWait _ _ _ _ hs) h)

theorem OutWf.execExitAbandon {s} (h : MemWf s) : OutWf (execExitAbandon s) :=
  .runWord (.bind (keepsWf_modify fun _ hs => wf_updCore (wf_setCore (wf_dropWaits hs))) fun _ => .pure _) h

/-! ## Access -/

theorem KeepsWf.me : KeepsWf me :=
  .bind .get fun _ => .pure _

theorem KeepsWf.aligned {a n} : KeepsWf (aligned a n) :=
  .ite (.raise _ _ _) (.pure _)

theorem KeepsWf.checkGsram {c need ea n} : KeepsWf (checkGsram c need ea n) :=
  .bind .checkCap fun _ => .ite .raise_bind (.bind .aligned fun _ => .pure _)

theorem KeepsWf.watchReport {sub hit} : KeepsWf (watchReport sub hit) :=
  .bind .self fun _ => .watchThread

theorem KeepsWf.watchWord {w a r n} : KeepsWf (watchWord w a r n) :=
  .bind (.watchAccess _ _ _ _ _) fun _ => .pure _

theorem KeepsWf.loadPieces {w c got hit a} : KeepsWf (loadPieces w c got hit a) := by
  unfold Machine.loadPieces
  split
  · exact .pure _
  exact .bind (.keepGot (.bind (.resolve _ _ _ _ _) fun _ => .bind .behindFlights fun _ => .bind .answers fun _ => .readPieces _ _
    _ _ _)) fun _ => .ite (.pure _) (.keepGot (.waitOn _ _ _ _ _))

theorem KeepsWf.loadBytes {c ea n} : KeepsWf (loadBytes c ea n) :=
  .bind .checkCap fun _ => .bind .me fun _ => .bind .get fun _ => .bind (.keepGot (.bind .waitHoard fun _ => .behindPosted)) fun _
    => .bind .loadPieces fun _ => .bind .watchReport fun _ => .pure _

theorem KeepsWf.launch {w op c start bs ps} : KeepsWf (launch w op c start bs ps) := by
  induction ps generalizing bs with
  | nil => exact .pure _
  | cons p ps ih =>
    refine .get_bind fun _ h => .bind (.set (wf_updCore (wf_stampLines _ _ _ _ h))) fun _ => .ite ?_ ?_
    · exact .bind (.pure _) fun _ => .bind ih fun _ => .pure _
    · exact .bind (.watchAccess _ _ _ _ _) fun _ => .bind ih fun _ => .pure _

theorem KeepsWf.postStore {w0 c a bs a4} : KeepsWf (postStore w0 c a bs a4) := by
  unfold Machine.postStore
  split
  · exact .pure _
  exact .bind .get fun _ => .ite (.bind .launch fun _ => .pure _) (.bind .writePieces fun _ => .bind .launch fun _ => .pure _)

theorem KeepsWf.storeAt {w sub c a bs acc whole} : KeepsWf (storeAt w sub c a bs acc whole) := by
  unfold Machine.storeAt
  refine .bind .needSys fun _ => .bind .resolveStore fun _ => .bind (.tryCatch .racePieces fun _ => ?_) fun _ => .bind
    .permitsAll fun _ => .bind .get fun _ => ?_
  · split <;> exact .throw
  refine .ite .postStore (.ite (.bind .launch fun _ => .pure _) ?_)
  exact .bind .answersAll fun _ => .ite (.bind .writePieces fun _ => .bind (keepsWf_modify fun _ hs => wf_foldl (fun _ _ ht =>
    wf_countAccess _ _ _ _ _ ht) hs) fun _ => .pure _) .writePieces

theorem KeepsWf.setTagAt {r tag} : KeepsWf (setTagAt r tag) :=
  keepsWf_modify fun _ hs => wf_ite hs hs

theorem KeepsWf.setTags {w c ps} : KeepsWf (setTags w c ps) := by
  induction ps with
  | nil => exact .pure _
  | cons p ps ih => exact .bind (.resolve _ _ _ _ _) fun _ => .bind .setTagAt fun _ => ih

theorem KeepsWf.storeRuns {w sub c runs acc} : KeepsWf (storeRuns w sub c runs acc) := by
  unfold Machine.storeRuns
  split
  · exact .pure _
  refine .bind .needSys fun _ => .bind (.resolve _ _ _ _ _) fun _ => .bind .get fun _ => ?_
  refine .ite .raise_bind ?_
  refine .bind .get fun _ => ?_
  refine .ite ?_ ?_
  · exact .bind .permits fun _ => .bind (.mapM (fun _ => .launch) _) fun _ => .pure _
  refine .bind .answers fun _ => ?_
  refine .ite (.pure _) ?_
  exact .bind (keepsWf_modify fun _ hs => wf_countAccess _ _ _ _ _ (wf_foldl (fun _ _ ht => wf_markBytes _ _ _ _ (wf_stampLines _
    _ _ _ (wf_putBytes _ _ _ ht))) hs)) fun _ => .bind (.mapM (fun _ => .watchAccess _ _ _ _ _) _) fun _ => .pure _

theorem KeepsWf.afterWrite {sub a r} : KeepsWf (afterWrite sub a r) :=
  .bind .watchReport fun _ => .bind .self fun _ => .lateFault

theorem KeepsWf.afterPosted {a r} : KeepsWf (afterPosted a r) :=
  .bind .self fun _ => .bind .strike fun _ => .bind .self fun _ => .lateFault

theorem KeepsWf.notePmem {sp} : KeepsWf (notePmem sp) :=
  .ite .updCore (.pure _)

theorem KeepsWf.probe {x} (hx : KeepsWf x) : KeepsWf (probe x) := by
  intro s h
  unfold endOf Machine.probe EStateM.run
  dsimp only
  cases e : x s with
  | ok => exact h
  | error g t =>
    have ended := hx.error e h
    cases g with
    | wait g => by_cases parked : g.kind = .parked <;> simp only [parked, if_true, if_false] <;> assumption
    | fault => exact ended
    | hard => exact ended

theorem KeepsWf.orBehind {w op c a bs x} (hx : KeepsWf x) : KeepsWf (orBehind w op c a bs x) :=
  .bind .get fun _ => .ite (.bind (.probe hx) fun _ => .hoardPut) (.orHoard hx)

theorem KeepsWf.storeBytes {c ea bs} : KeepsWf (storeBytes c ea bs) :=
  .bind .checkCap fun _ => .ite .raise_bind (.bind .me fun _ => .bind .waitHoard fun _ => .bind (.orBehind (.bind .storeAt fun _
    => .afterWrite)) fun _ => .notePmem)

theorem KeepsWf.storeCapAt {w sub c a v acc} : KeepsWf (storeCapAt w sub c a v acc) := by
  unfold Machine.storeCapAt
  refine .bind .needSys fun _ => .bind (.tryCatch (.resolve _ _ _ _ _) fun _ => ?_) fun _ => .ite .raise_bind (.bind .storeAt fun
    _ => .ite (.bind .setTagAt fun _ => .pure _) (.pure _))
  dsimp only
  split
  · exact .bind .get fun _ => .ite .raise_bind .throw
  · exact .throw

theorem KeepsWf.passFlag {w r} : KeepsWf (passFlag w r) :=
  .ite (keepsWf_modify fun _ hs => wf_updCore (wf_updCore hs)) (.pure _)

theorem KeepsWf.changeFlag {w r full} : KeepsWf (changeFlag w r full) :=
  .bind .get fun _ => .bind .passFlag fun _ => keepsWf_modify fun _ hs => wf_markDirty _ _ hs

theorem KeepsWf.waitAt {α : Type} {kind obj off r until_} : KeepsWf (waitAt kind obj off r until_ : M α) :=
  .throw

theorem KeepsWf.waitFlag {mine k obj off r wantFull} : KeepsWf (waitFlag mine k obj off r wantFull) :=
  .bind .get fun _ => .ite .waitAt (.pure _)

theorem KeepsWf.writeFlagWord {w c a r v} : KeepsWf (writeFlagWord w c a r v) :=
  .bind .get fun _ => .ite (.pure _) (.bind (.writePiece _ _ _ _ _ _ _) fun _ => .bind .watchWord fun _ => .pure _)

theorem KeepsWf.fillHere {w c a v r} : KeepsWf (fillHere w c a v r) :=
  .bind .writeFlagWord fun _ => .bind .changeFlag fun _ => .pure _

theorem KeepsWf.fillAt {w c a v acc} : KeepsWf (fillAt w c a v acc) :=
  .bind .needSys fun _ => .bind (.resolve _ _ _ _ _) fun _ => .fillHere

theorem KeepsWf.clearHere {w c a r} : KeepsWf (clearHere w c a r) :=
  .bind (keepsWf_modify fun _ hs => wf_countAccess _ _ _ _ _ hs) fun _ => .bind .watchWord fun _ => .bind .changeFlag fun _ =>
    .pure _

theorem KeepsWf.clearAt {w c a acc} : KeepsWf (clearAt w c a acc) :=
  .bind .needSys fun _ => .bind (.resolve _ _ _ _ _) fun _ => .clearHere

theorem KeepsWf.storeEmptyAt {w mine c a v acc held} : KeepsWf (storeEmptyAt w mine c a v acc held) := by
  unfold Machine.storeEmptyAt
  refine .bind .needSys fun _ => ?_
  dsimp only
  split
  · exact .bind (.pure _) fun _ => .bind .waitFlag fun _ => .bind .writeFlagWord fun _ => .bind .changeFlag fun _ => .pure _
  exact .bind (.resolve _ _ _ _ _) fun _ => .bind .waitFlag fun _ => .bind .writeFlagWord fun _ => .bind .changeFlag fun _ =>
    .pure _

theorem KeepsWf.loadFull {c ea leave} : KeepsWf (loadFull c ea leave) := by
  unfold Machine.loadFull
  exact .bind .checkGsram fun _ => .bind .me fun _ => .bind .get fun _ => .when .waitHoard (.bind .waitLogOnce fun _ => .bind
    .strikeGate fun _ => .bind (.resolve _ _ _ _ _) fun _ => .bind .get fun _ => .bind .waitFlag fun _ => .bind (.readPieces _ _ _
    _ _) fun _ => .ite_bind .passFlag .changeFlag fun _ => .bind .watchReport fun _ => .pure _)

theorem KeepsWf.modifyAt {w c a n r f} : KeepsWf (modifyAt w c a n r f) := by
  unfold Machine.modifyAt
  refine .bind (.checkLines _ _ _) fun _ => .bind (.readPiece _ _ _ _ _) fun _ => .bind (keepsWf_modify fun _ hs => wf_learn _ _ _
    hs) fun _ => ?_
  dsimp only
  split
  · exact .bind (.writePiece _ _ _ _ _ _ _) fun _ => .bind .watchWord fun _ => .pure _
  exact .bind (keepsWf_modify fun _ hs => wf_countAccess _ _ _ _ _ hs) fun _ => .bind .watchWord fun _ => .pure _

theorem KeepsWf.atomic {c op n f} : KeepsWf (atomic c op n f) := by
  unfold Machine.atomic
  refine .bind .checkCap fun _ => ?_
  refine .ite .raise_bind ?_
  refine .bind .aligned fun _ => .bind .me fun _ => .bind .needSys fun _ => .bind .get fun _ => ?_
  refine .ite (.pure _) ?_
  refine .bind .waitHoard fun _ => .bind .get fun _ => ?_
  exact .ite .waitOn_bind (.bind .behindPosted fun _ => .bind .strikeGate fun _ => .bind (.resolve _ _ _ _ _) fun _ => .bind
    .behindFlights fun _ => .bind .answers fun _ => .bind .modifyAt fun _ => .bind .watchReport fun _ => .pure _)

theorem KeepsWf.contribute {w obj a r op wide b} : KeepsWf (contribute w obj a r op wide b) :=
  keepsWf_modify fun _ hs => hs

theorem KeepsWf.reduceHere {w c a op n b r} : KeepsWf (reduceHere w c a op n b r) :=
  .bind .get fun _ => .ite (.pure _) (.bind .modifyAt fun _ => .pure _)

theorem KeepsWf.reduceAt {w c a op n b acc} : KeepsWf (reduceAt w c a op n b acc) := by
  unfold Machine.reduceAt
  refine .bind .needSys fun _ => .bind (.resolve _ _ _ _ _) fun _ => .bind .get fun _ => ?_
  split
  · exact .pure _
  exact .ite (.bind .contribute fun _ => .bind .watchWord fun _ => .pure _) (.ite (.bind .launch fun _ => .pure _) .reduceHere)

theorem KeepsWf.readBar {w c a r} : KeepsWf (readBar w c a r) :=
  .bind (.checkLines _ _ _) fun _ => .bind (.readPiece _ _ _ _ _) fun _ => .pure _

theorem KeepsWf.writeBar {w c a r l} : KeepsWf (writeBar w c a r l) :=
  .bind .get fun _ => .writePiece _ _ _ _ _ _ _

theorem KeepsWf.arriveAt {w c a acc} : KeepsWf (arriveAt w c a acc) := by
  unfold Machine.arriveAt
  refine .bind .needSys fun _ => .bind (.resolve _ _ _ _ _) fun _ => .bind .readBar fun _ => ?_
  refine .ite .raise_bind ?_
  refine .bind .get fun _ => ?_
  dsimp only
  split
  · exact .bind .writeBar fun _ => .bind .watchWord fun _ => .bind (keepsWf_modify fun _ hs => hs) fun _ => .pure _
  exact .ite .raise_bind (.ite .raise_bind (.ite .raise_bind (.bind .writeBar fun _ => .bind .watchWord fun _ => .bind
    (keepsWf_modify fun _ hs => hs) fun _ => .pure _)))

theorem KeepsWf.testBar {c} : KeepsWf (testBar c) := by
  unfold Machine.testBar
  refine .bind .checkGsram fun _ => .bind .me fun _ => .bind .get fun _ => .when .waitHoard (.bind (.resolve _ _ _ _ _) fun _ =>
    .bind .get fun _ => ?_)
  dsimp only
  split
  · exact .raise _ _ _
  refine .ite .raise_bind ?_
  refine .bind .readBar fun _ => ?_
  refine .ite .raise_bind (.ite .raise_bind (.ite (.pure _) ?_))
  exact .ite (.bind (keepsWf_modify fun _ hs => wf_countAccess _ _ _ _ _ hs) fun _ => .bind .watchWord fun _ => .bind
    (keepsWf_modify fun _ hs => wf_updCore (wf_updCore hs)) fun _ => .bind .watchReport fun _ => .pure _) (.raise _ _ _)

/-! ## MemWords -/

theorem OutWf.execLd {z d c sz i s} (h : MemWf s) : OutWf (execLd z d c sz i s) :=
  .runWord (.bind .readC fun _ => .bind .roomFor fun _ => .bind .loadBytes fun _ => .bind .writeS fun _ => .pure _) h

theorem OutWf.execLdx {z d a b x w s} (h : MemWf s) : OutWf (execLdx z d a b x w s) :=
  .runWord (.bind .readC fun _ => .bind .readS fun _ => .bind .roomFor fun _ => .bind .loadBytes fun _ => .bind .writeS fun _ =>
    .pure _) h

theorem OutWf.execStx {z d a b x w s} (h : MemWf s) : OutWf (execStx z d a b x w s) :=
  .runWord (.bind .readC fun _ => .bind .readS fun _ => .bind .readS fun _ => .bind .storeBytes fun _ => .pure _) h

theorem OutWf.execLdc {z d c i s} (h : MemWf s) : OutWf (execLdc z d c i s) :=
  .runWord (.bind .readC fun _ => .bind .checkCap fun _ => .ite .raise_bind (.bind .aligned fun _ => .bind .me fun _ => .bind
    .waitHoard fun _ => .bind .loadTagged fun _ => .bind .watchReport fun _ => .bind .writeC fun _ => .pure _)) h

theorem OutWf.execStc {z d c i s} (h : MemWf s) : OutWf (execStc z d c i s) := by
  unfold Machine.execStc
  refine .runWord (.bind .readC fun _ => .bind .readC fun _ => .bind .checkCap fun _ => ?_) h
  exact .ite .raise_bind (.ite .raise_bind (.bind .aligned fun _ => .bind .me fun _ => .bind .waitHoard fun _ => .bind (.orBehind
    (.bind .storeCapAt fun _ => .afterWrite)) fun _ => .bind .notePmem fun _ => .pure _))

theorem OutWf.execLdFe {z d c i s} (h : MemWf s) : OutWf (execLdFe z d c i s) :=
  .runWord (.bind .readC fun _ => .bind .roomFor fun _ => .bind .loadFull fun _ => .bind .writeS fun _ => .pure _) h

theorem OutWf.execLdFf {z d c i s} (h : MemWf s) : OutWf (execLdFf z d c i s) :=
  .runWord (.bind .readC fun _ => .bind .roomFor fun _ => .bind .loadFull fun _ => .bind .writeS fun _ => .pure _) h

theorem OutWf.execStEf {z d c i s} (h : MemWf s) : OutWf (execStEf z d c i s) := by
  unfold Machine.execStEf
  refine .runWord (.bind .readC fun _ => .bind .readS fun _ => .bind .checkGsram fun _ => .bind .me fun _ => .bind .get fun _ =>
    ?_) h
  refine .ite ?_ ?_
  · exact .bind .waitHoard fun _ => .bind .waitLogOnce fun _ => .bind .strikeGate fun _ => .bind .get fun _ => .bind (.orHoard
      (.bind .storeEmptyAt fun _ => .afterWrite)) fun _ => .pure _
  exact .bind .waitLogOnce fun _ => .bind .strikeGate fun _ => .bind .get fun _ => .bind (.orHoard (.bind .storeEmptyAt fun _ =>
    .afterWrite)) fun _ => .pure _

theorem OutWf.execFeFill {z d c i s} (h : MemWf s) : OutWf (execFeFill z d c i s) :=
  .runWord (.bind .readC fun _ => .bind .readS fun _ => .bind .checkGsram fun _ => .bind .me fun _ => .bind .waitHoard fun _ =>
    .bind .waitLogOnce fun _ => .bind (.orHoard (.reachGate (.bind .fillAt fun _ => .afterPosted))) fun _ => .pure _) h

theorem OutWf.execFeClr {z c i s} (h : MemWf s) : OutWf (execFeClr z c i s) :=
  .runWord (.bind .readC fun _ => .bind .checkGsram fun _ => .bind .me fun _ => .bind .waitHoard fun _ => .bind .waitLogOnce fun _
    => .bind (.orHoard (.reachGate (.bind .clearAt fun _ => .afterPosted))) fun _ => .pure _) h

theorem OutWf.execFeSt {z d c i s} (h : MemWf s) : OutWf (execFeSt z d c i s) := by
  unfold Machine.execFeSt
  exact .runWord (.bind .readC fun _ => .bind .roomFor fun _ => .bind .checkGsram fun _ => .bind .me fun _ => .bind .waitHoard fun
    _ => .bind .strikeGate fun _ => .bind (.resolve _ _ _ _ _) fun _ => .bind (keepsWf_modify fun _ hs => wf_countAccess _ _ _ _ _
    hs) fun _ => .bind .watchWord fun _ => .bind .get fun _ => .bind .writeS fun _ => .bind .watchReport fun _ => .pure _) h

theorem OutWf.execPref {z c i s} (h : MemWf s) : OutWf (execPref z c i s) :=
  .runWord (.bind .readC fun _ => .bind .me fun _ => .bind (.tryCatch (.bind .checkCap fun _ => .bind (.resolve _ _ _ _ _) fun _
    => .pure _) fun _ => .pure _) fun _ => .pure _) h

theorem OutWf.execAmo {z d a b w o s} (h : MemWf s) : OutWf (execAmo z d a b w o s) :=
  .runWord (.bind .readC fun _ => .bind .readS fun _ => .bind .roomFor fun _ => .bind .atomic fun _ => .bind .writeS fun _ =>
    .pure _) h

theorem OutWf.execAmoCas {z d a b w s} (h : MemWf s) : OutWf (execAmoCas z d a b w s) :=
  .runWord (.bind .readS fun _ => .bind .readC fun _ => .bind .readS fun _ => .bind .atomic fun _ => .bind .writeS fun _ => .pure
    _) h

theorem OutWf.execRed {z a b w o s} (h : MemWf s) : OutWf (execRed z a b w o s) := by
  unfold Machine.execRed
  refine .runWord (.bind .readC fun _ => .bind .readS fun _ => .bind .checkCap fun _ => ?_) h
  exact .ite .raise_bind (.bind .aligned fun _ => .bind .me fun _ => .bind .waitHoard fun _ => .bind (.orHoard (.reachGate (.bind
    .reduceAt fun _ => .afterPosted))) fun _ => .pure _)

/-! ## Sync -/

theorem wf_fenceAcquire {s k scope} (h : MemWf s) : MemWf (fenceAcquire s k scope) :=
  wf_foldl (fun _ _ hs => hs) h

theorem KeepsWf.waitFar {k} : KeepsWf (waitFar k) :=
  .bind .get fun _ => .ite (.waitOn _ _ _ _ _) (.pure _)

theorem KeepsWf.runFence {kind scope} : KeepsWf (runFence kind scope) :=
  .bind .self fun _ => .when .waitLog (.when .waitFar (.when (keepsWf_modify fun _ hs => wf_fenceAcquire hs) (.when
    (keepsWf_modify fun _ hs => wf_updCore (wf_updCore hs)) (.ite (keepsWf_modify fun _ hs => wf_updCore hs) (.pure _)))))

theorem OutWf.execFence {z kind scope s} (h : MemWf s) : OutWf (execFence z kind scope s) :=
  .runWord (.bind .runFence fun _ => .pure _) h

theorem OutWf.execPbar {z s} (h : MemWf s) : OutWf (execPbar z s) :=
  .runWord (.bind .core fun _ => .ite .waitOn_bind (.bind .get fun _ => .ite .waitOn_bind (.bind .updCore fun _ => .bind .self fun
    _ => .bind (keepsWf_modify fun _ hs => hs) fun _ => .pure _))) h

theorem KeepsWf.leaseEnd {w c} : KeepsWf (leaseEnd w c) := by
  unfold Machine.leaseEnd
  refine .bind (.resolve _ _ _ _ _) fun _ => .bind .get fun _ => ?_
  split
  · exact .raise _ _ _
  · exact .pure _

theorem OutWf.execLwait {z a s} (h : MemWf s) : OutWf (execLwait z a s) := by
  unfold Machine.execLwait
  refine .runWord (.bind .readC fun _ => ?_) h
  refine .ite .raise_bind (.ite .raise_bind (.ite .raise_bind ?_))
  refine .bind .self fun _ => .bind .get fun _ => ?_
  dsimp only
  split
  · exact .bind (.pure _) fun _ => .bind .get fun _ => .ite .waitOn_bind (.pure _)
  exact .bind .runFence fun _ => .bind .me fun _ => .bind .leaseEnd fun _ => .bind .get fun _ => .ite .waitOn_bind (.pure _)

theorem OutWf.execBarInit {z a b s} (h : MemWf s) : OutWf (execBarInit z a b s) := by
  unfold Machine.execBarInit
  refine .runWord (.bind .readC fun _ => .bind .readS fun _ => .bind .checkGsram fun _ => ?_) h
  refine .ite .raise_bind ?_
  exact .bind .me fun _ => .bind .needSys fun _ => .bind .waitHoard fun _ => .bind .waitLogOnce fun _ => .bind .strikeGate fun _
    => .bind (.resolve _ _ _ _ _) fun _ => .bind (.readPiece _ _ _ _ _) fun _ => .bind .writeBar fun _ => .bind .watchWord fun _
    => .bind (keepsWf_modify fun _ hs => hs) fun _ => .bind .watchReport fun _ => .pure _

theorem OutWf.execBarArrive {z a s} (h : MemWf s) : OutWf (execBarArrive z a s) :=
  .runWord (.bind .readC fun _ => .bind .checkGsram fun _ => .bind .me fun _ => .bind .waitHoard fun _ => .bind .waitLogOnce fun _
    => .bind .strikeGate fun _ => .bind (.orHoard (.bind .arriveAt fun _ => .afterWrite)) fun _ => .pure _) h

theorem OutWf.execBarWait {z a s} (h : MemWf s) : OutWf (execBarWait z a s) := by
  unfold Machine.execBarWait
  refine .runWord (.bind .readC fun _ => .bind .testBar fun _ => ?_) h
  split
  · exact .pure _
  · exact .bind .get fun _ => .waitAt

theorem OutWf.execBarTest {z d a s} (h : MemWf s) : OutWf (execBarTest z d a s) := by
  unfold Machine.execBarTest
  refine .runWord (.bind .readC fun _ => .bind .testBar fun _ => ?_) h
  dsimp only
  split
  · exact .bind .updThread fun _ => .pure _
  exact .bind .me fun _ => .bind (keepsWf_modify fun _ hs => wf_countAccess _ _ _ _ _ hs) fun _ => .bind .watchWord fun _ => .bind
    .watchReport fun _ => .bind .updThread fun _ => .pure _

theorem KeepsWf.generationRegion : KeepsWf generationRegion :=
  .bind .me fun _ => .bind .self fun _ => .bind .loadEntry fun _ => .ite .raise_bind (.ite .raise_bind (.ite .raise_bind (.ite
    .raise_bind (.pure _))))

theorem OutWf.execGenAlloc {z d a s} (h : MemWf s) : OutWf (execGenAlloc z d a s) := by
  unfold Machine.execGenAlloc
  refine .runWord (.bind .readS fun _ => .bind .generationRegion fun _ => .bind .watchReport fun _ => .bind .get fun _ => ?_) h
  dsimp only
  split
  · refine .bind (keepsWf_modify fun _ hs => hs) fun _ => ?_
    refine .ite (.bind .writeC fun _ => .pure _) ?_
    split
    · exact .bind .writeC fun _ => .pure _
    · exact .bind (keepsWf_modify fun _ hs => hs) fun _ => .bind .writeC fun _ => .pure _
  · exact .bind .writeC fun _ => .pure _

theorem OutWf.execGenPass {z s} (h : MemWf s) : OutWf (execGenPass z s) := by
  unfold Machine.execGenPass
  refine .runWord (.bind .get fun _ => ?_) h
  refine .ite .waitOn_bind ?_
  refine .bind .waitLog fun _ => .bind .waitFar fun _ => .bind (keepsWf_modify fun _ hs => hs) fun _ => ?_
  split
  · exact .pure _
  · exact .bind (keepsWf_modify fun _ hs => hs) fun _ => .pure _

/-! ## Held -/

theorem OutWf.execFeWaitSatisfied {k s} (h : MemWf s) : OutWf (execFeWaitSatisfied k s) := by
  unfold Machine.execFeWaitSatisfied
  split
  · exact .execLdFe h
  · exact .execLdFf h
  · exact .execStEf h
  · exact .next h

theorem OutWf.execBarWaitCompletion {k s} (h : MemWf s) : OutWf (execBarWaitCompletion k s) := by
  unfold Machine.execBarWaitCompletion
  split
  · exact .execBarWait h
  · exact .next h

theorem OutWf.execQueuePortStallEnd {k s} (h : MemWf s) : OutWf (execQueuePortStallEnd k s) := by
  unfold Machine.execQueuePortStallEnd
  split
  · exact .ite (.next h) (.next h)
  · exact .next h

theorem OutWf.execLwaitEnd {k s} (h : MemWf s) : OutWf (execLwaitEnd k s) := by
  unfold Machine.execLwaitEnd
  split
  · exact .execLwait h
  · exact .next h

theorem OutWf.execEqFenceEnd {k s} (h : MemWf s) : OutWf (execEqFenceEnd k s) := by
  unfold Machine.execEqFenceEnd
  split
  · exact .execEqFence h
  · exact .next h

theorem OutWf.execFenceComplete {k s} (h : MemWf s) : OutWf (execFenceComplete k s) := by
  unfold Machine.execFenceComplete
  split
  · exact .execFence h
  · exact .execPbar h
  · exact .next h

theorem OutWf.execGenPassWaitEnd {k s} (h : MemWf s) : OutWf (execGenPassWaitEnd k s) := by
  unfold Machine.execGenPassWaitEnd
  split
  · exact .execGenPass h
  · exact .next h

theorem OutWf.execOmClaimWaitEnd {k s} (h : MemWf s) : OutWf (execOmClaimWaitEnd k s) := by
  unfold Machine.execOmClaimWaitEnd
  split
  · exact .execOmClaim h
  · exact .next h

theorem OutWf.execExitDrainEnd {k s} (h : MemWf s) : OutWf (execExitDrainEnd k s) := by
  unfold Machine.execExitDrainEnd
  split
  · exact .execExit h
  · exact .next h

theorem OutWf.execHeldFormWithdrawal {k s} (h : MemWf s) : OutWf (execHeldFormWithdrawal k s) := by
  unfold Machine.execHeldFormWithdrawal
  split
  · exact .next h
  refine .ite (.next h) ?_
  split
  · exact .execLdFe h
  · exact .execLdFf h
  · exact .execStEf h
  · exact .execBarWait h
  · exact .next h

theorem KeepsWf.placeRuns {w c runs acc} : KeepsWf (placeRuns w c runs acc) :=
  .bind (.forIn (fun _ _ => .bind .resolveStore fun _ => .pure _) _ _) fun _ => .bind (.mapM (fun _ => .storeAt) _) fun _ => .pure
    _

theorem KeepsWf.replayEntry {k g} : KeepsWf (replayEntry k g) := by
  unfold Machine.replayEntry
  refine .bind .get fun _ => ?_
  dsimp only
  split
  · exact .ite (.bind .storeAt fun _ => .bind .setTags fun _ => .pure _) .storeRuns
  · exact .storeCapAt
  · exact .reduceAt
  · exact .fillAt
  · exact .clearAt
  · exact .bind .get fun _ => .storeEmptyAt
  · exact .arriveAt
  · exact .storeAt
  · exact .placeRuns

theorem wf_replayOne {s k n g} (h : MemWf s) : ∀ t, replayOne s k n g = .ok t → MemWf t := by
  intro t ht
  have start : MemWf { s with turn := k } := h
  unfold replayOne at ht
  dsimp only at ht
  split at ht
  · rename_i hit bad s1 e
    cases ht
    have replayed : MemWf (endHoardWait { s with turn := k }
        (s1.updCore k fun c => { c with hoard := c.hoard.eraseIdx n }) k 0 g) :=
      wf_endHoardWait _ _ _ _ (wf_updCore (KeepsWf.replayEntry.ok e start))
    cases hit <;> cases bad
    · exact replayed
    · exact wf_report _ _ replayed
    · exact wf_report _ _ replayed
    · exact wf_report _ _ (wf_report _ _ replayed)
  · cases ht
    exact wf_report _ _ (wf_endHoardWait _ _ _ _ h)
  · cases ht
  · cases ht
    exact wf_hoardWaits h

theorem OutWf.execParkedAccessReplay {k s} (h : MemWf s) : OutWf (execParkedAccessReplay k s) := by
  refine .ite (.next h) ?_
  split
  · split
    · rename_i e
      exact .next (wf_replayOne h _ e)
    · exact .fault _
  split
  · exact .next (wf_reissue h)
  · exact .next h

theorem wf_flightBytes {s f} (h : MemWf s) : MemWf (flightBytes s f) :=
  wf_countAccess _ _ _ _ _ (wf_markBytes _ _ _ _ (wf_putBytes _ _ _ h))

theorem wf_walkFlight {s k n f} (h : MemWf s) : MemWf (walkFlight s k n f) := by
  unfold walkFlight
  dsimp only
  split
  · rename_i e
    exact wf_updCore ((KeepsWf.resolve _ _ _ _ _).ok e h)
  · exact wf_reportTo (wf_updCore h)
  · exact wf_ite (wf_updCore (wf_updCore h)) h
  · exact h

theorem wf_landInput {s k f} (h : MemWf s) : MemWf (landInput s k f) := by
  have start : MemWf { s with turn := k } := h
  unfold landInput
  extract_lets _ w out
  have effect : KeepsWf out := by
    unfold out
    split
    · exact .fillHere
    · exact .clearHere
    · exact .reduceHere
    · exact .pure _
  have landed : KeepsWf (do afterPosted f.off (← out)) := .bind effect fun _ => .afterPosted
  split
  · rename_i e
    have ended := landed.ok e start
    exact ended
  · rename_i e
    have ended := landed.error e start
    exact wf_reportTo ended
  · exact h

theorem wf_landFlight {s k n} (h : MemWf s) : MemWf (landFlight s k n) := by
  unfold landFlight
  dsimp only
  split
  · exact h
  exact wf_ite h (wf_ite (wf_walkFlight h) (wf_ite (wf_landInput h) (wf_ite (wf_reportTo h) (wf_flightBytes h))))

theorem wf_landFirst {s k n} (h : MemWf s) : MemWf (landFirst s k n) := by
  induction n with
  | zero => exact h
  | succ n ih => exact wf_ite (wf_landFlight h) ih

theorem wf_mergeSwitch {s i} (h : MemWf s) : MemWf (mergeSwitch s i) := by
  unfold mergeSwitch
  split
  · exact h
  split
  · exact h
  · split <;> exact h

theorem wf_deliverSwitch {s i} (h : MemWf s) : MemWf (deliverSwitch s i) := by
  unfold deliverSwitch
  split
  · exact h
  exact wf_ite h (wf_ite (wf_reportTo h) (wf_foldl (fun _ _ hs => wf_countAccess _ _ _ _ _ hs) (wf_markBytes _ _ _ _ (wf_putBytes
    _ _ _ h))))

theorem wf_landStrike {s k} (h : MemWf s) : MemWf (landStrike s k) := by
  unfold landStrike
  split
  · exact h
  · exact wf_ite (wf_report _ _ h) h

theorem OutWf.execXtlbEntryExpiry {k s} (h : MemWf s) : OutWf (execXtlbEntryExpiry k s) :=
  .next h

/-! ## Engine -/

theorem KeepsWf.needRoom {e} : KeepsWf (needRoom e) :=
  .bind .core fun _ => .ite (.waitOn _ _ _ _ _) (.pure _)

theorem KeepsWf.checkOperand {c need sps} : KeepsWf (checkOperand c need sps) :=
  .ite .raise_bind (.ite .raise_bind (.ite (.raise _ _ _) (.pure _)))

theorem KeepsWf.rangeSub8 {ok} : KeepsWf (rangeSub8 ok) :=
  .ite (.pure _) (.raise _ _ _)

theorem KeepsWf.enqueueCmd {e i args caps fmts} : KeepsWf (enqueueCmd e i args caps fmts) :=
  keepsWf_modify fun _ hs => hs

theorem OutWf.engineWord {z e i operands s} (hoperands : KeepsWf operands) (h : MemWf s) : OutWf (engineWord z e i operands s) :=
  .runWord (.bind .needRoom fun _ => .bind hoperands fun _ => .bind .enqueueCmd fun _ => .pure _) h

theorem wf_leaveLane {s k x} (h : MemWf s) : MemWf (leaveLane s k x) := by
  unfold leaveLane
  split
  · exact wf_updLane h
  · exact wf_updLane h
  · exact h

theorem wf_endCmd {s k x ok status detail} (h : MemWf s) : MemWf (endCmd s k x ok status detail) :=
  wf_updCore (wf_leaveLane (wf_putCmd (wf_ite (wf_countCore _ _ _ (wf_ite h h)) (wf_ite h h))))

theorem wf_postCmd {s k x} (h : MemWf s) : MemWf (postCmd s k x) := by
  unfold postCmd
  split
  · exact h
  · exact wf_ite (wf_endCmdWaits h) h

theorem wf_finishCmd {s k x ok status detail} (h : MemWf s) : MemWf (finishCmd s k x ok status detail) :=
  wf_ite h (wf_endCmd h)

theorem wf_awaitWrites {s k x} (h : MemWf s) : MemWf (awaitWrites s k x) := by
  unfold awaitWrites
  split
  · exact h
  · exact wf_ite h (wf_endCmd h)

theorem wf_endFaulted {s k x f} (h : MemWf s) : MemWf (endFaulted s k x f) :=
  wf_report _ _ (wf_finishCmd h)

theorem wf_holdCmd {s k x g} (h : MemWf s) : MemWf (holdCmd s k x g) := by
  unfold holdCmd
  split
  · exact wf_promote (wf_putCmd (wf_ite (wf_countCore _ _ _ h) h))
  · exact h
  · exact h
  · exact h
  · exact h

theorem OutWf.advance {step s0 k x} (hstep : ∀ a, KeepsWf (step a)) (h : MemWf s0) : OutWf (advance step s0 k x) := by
  unfold Machine.advance
  extract_lets s beat
  have start : MemWf s := h
  have beaten {t} (y) (ht : MemWf t) : MemWf (beat t y) := wf_ite (wf_countCore _ _ _ ht) ht
  clear_value beat
  split
  · exact .next (wf_endFaulted start)
  split
  · rename_i e
    exact .next (wf_endFaulted (beaten _ ((hstep _).ok e start)))
  · rename_i e
    dsimp only
    split
    · exact .next (wf_endFaulted (beaten _ ((hstep _).ok e start)))
    · exact .next (wf_putCmd (beaten _ ((hstep _).ok e start)))
  · rename_i e
    dsimp only
    split
    · exact .next (wf_endFaulted (beaten _ ((hstep _).ok e start)))
    · exact .next (wf_finishCmd (beaten _ ((hstep _).ok e start)))
  · rename_i e
    split <;> exact .next (wf_endFaulted ((hstep _).error e start))
  · split
    · exact .next (wf_endFaulted start)
    · exact .next (wf_holdCmd start)
  · exact .fault _

theorem KeepsWf.waitBorn {x} : KeepsWf (waitBorn x) :=
  .bind .get fun _ => .ite (.waitOn _ _ _ _ _) (.pure _)

theorem KeepsWf.engineRead {w c need ea n} : KeepsWf (engineRead w c need ea n) := by
  unfold Machine.engineRead
  exact .bind .checkCap fun _ => .bind .waitHoard fun _ => .bind .behindPosted fun _ => .bind (.resolveAll _ _ _ _ _) fun _ =>
    .bind (.forIn (fun _ _ => .bind .behindFlights fun _ => .pure _) _ _) fun _ => .bind .answersAll fun _ => .bind (.readPieces _
    _ _ _ _) fun _ => .bind .get fun _ => .pure _

theorem KeepsWf.engineWrite {w c need ea bs op tags} : KeepsWf (engineWrite w c need ea bs op tags) := by
  unfold Machine.engineWrite
  refine .bind .checkCap fun _ => .bind .waitHoard fun _ => .bind (.tryCatch (.bind .storeAt fun _ => .ite (.bind .setTags fun _
    => .pure _) (.pure _)) fun _ => ?_) fun _ => ?_
  · split
    · exact .ite (.bind .hoardPut fun _ => .pure _) .throw
    · exact .throw
  split
  · exact .raise _ _ _
  · exact .pure _

/-! ## Copy -/

theorem KeepsWf.checkDest {c} : KeepsWf (checkDest c) :=
  .checkOperand

theorem KeepsWf.checkSource {c} : KeepsWf (checkSource c) :=
  .checkOperand

theorem OutWf.execCp {z d e l c s} (h : MemWf s) : OutWf (execCp z d e l c s) := by
  unfold Machine.execCp
  refine .engineWord (.bind .readS fun _ => .bind .readS fun _ => .bind .rangeSub8 fun _ => .bind .rangeSub8 fun _ => .bind
    .rangeSub8 fun _ => .bind .readC fun _ => .bind .readC fun _ => ?_) h
  exact .ite (.bind .checkDest fun _ => .ite (.bind .checkSource fun _ => .pure _) (.pure _)) (.ite (.bind .checkSource fun _ =>
    .pure _) (.pure _))

theorem OutWf.execCp2d {z d e n c s} (h : MemWf s) : OutWf (execCp2d z d e n c s) :=
  .engineWord (.bind .readS fun _ => .bind .readS fun _ => .bind .readS fun _ => .bind .rangeSub8 fun _ => .bind .readC fun _ =>
    .bind .readC fun _ => .bind .checkDest fun _ => .bind .checkSource fun _ => .pure _) h

theorem OutWf.execCpOm {z n e l c s} (h : MemWf s) : OutWf (execCpOm z n e l c s) :=
  .engineWord (.bind .readS fun _ => .bind .readS fun _ => .bind .rangeSub8 fun _ => .bind .readC fun _ => .bind .checkSource fun
    _ => .bind .core fun _ => .ite .raise_bind (.ite .raise_bind (.ite .raise_bind (.bind .updCore fun _ => .pure _)))) h

theorem OutWf.execCpGat {z d e n c s} (h : MemWf s) : OutWf (execCpGat z d e n c s) :=
  .engineWord (.bind .readS fun _ => .bind .readS fun _ => .bind .rangeSub8 fun _ => .bind .readC fun _ => .bind .readC fun _ =>
    .bind .checkDest fun _ => .bind .checkSource fun _ => .pure _) h

theorem OutWf.execCpSet {z d n c s} (h : MemWf s) : OutWf (execCpSet z d n c s) :=
  .engineWord (.bind .readS fun _ => .bind .readS fun _ => .bind .readS fun _ => .bind .rangeSub8 fun _ => .bind .readC fun _ =>
    .bind .checkDest fun _ => .pure _) h

theorem OutWf.execCpZ {z d e l c s} (h : MemWf s) : OutWf (execCpZ z d e l c s) :=
  .engineWord (.bind .readS fun _ => .bind .readS fun _ => .bind .rangeSub8 fun _ => .bind .readC fun _ => .bind .readC fun _ =>
    .bind .checkDest fun _ => .bind .checkSource fun _ => .pure _) h

theorem OutWf.execCpX {z d e l c s} (h : MemWf s) : OutWf (execCpX z d e l c s) :=
  .engineWord (.bind .readS fun _ => .bind .readS fun _ => .bind .rangeSub8 fun _ => .bind .readC fun _ => .bind .readC fun _ =>
    .bind .checkDest fun _ => .bind .checkSource fun _ => .pure _) h

theorem OutWf.execCpCk {z d e l c s} (h : MemWf s) : OutWf (execCpCk z d e l c s) :=
  .engineWord (.bind .readS fun _ => .bind .readS fun _ => .bind .rangeSub8 fun _ => .bind .readC fun _ => .bind .readC fun _ =>
    .bind .checkDest fun _ => .bind .checkSource fun _ => .pure _) h

theorem KeepsWf.noView {α : Type} {x} (hx : KeepsWf (x : M α)) : KeepsWf (noView x : M α) := by
  unfold Machine.noView
  refine .tryCatch hx fun _ => ?_
  split
  · exact .ite .throw .throw
  · exact .throw

theorem KeepsWf.copyBeat {x src dst n} : KeepsWf (copyBeat x src dst n) :=
  .bind .get fun _ => .noView (.bind .engineRead fun _ => .bind .engineWrite fun _ => .pure _)

theorem KeepsWf.cpStep {x} : KeepsWf (cpStep x) :=
  .ite (.pure _) (.bind .get fun _ => .ite (.bind .copyBeat fun _ => .pure _) (.ite (.bind (.noView .engineRead) fun _ => .bind
    .updCore fun _ => .pure _) (.bind .core fun _ => .bind (.noView .engineWrite) fun _ => .pure _)))

theorem KeepsWf.cp2dStep {x} : KeepsWf (cp2dStep x) :=
  .ite (.pure _) (.bind .copyBeat fun _ => .pure _)

theorem KeepsWf.cpSetStep {x} : KeepsWf (cpSetStep x) :=
  .ite (.pure _) (.bind .get fun _ => .bind (.noView .engineWrite) fun _ => .pure _)

theorem KeepsWf.cpOmStep {x n} : KeepsWf (cpOmStep x n) :=
  .when .updCore (.ite (.pure _) (.bind .get fun _ => .bind (.noView .engineRead) fun _ => .bind .updCore fun _ => .pure _))

theorem KeepsWf.startEntry {x} : KeepsWf (startEntry x) :=
  .bind .get fun _ => .bind .loadEntry fun _ => .ite .raise_bind (.ite .raise_bind (.ite .raise_bind (.pure _)))

theorem KeepsWf.cpGatStep {x} : KeepsWf (cpGatStep x) := by
  unfold Machine.cpGatStep
  refine .ite (.pure _) ?_
  refine .bind .get fun _ => .bind ?_ fun _ => .bind .copyBeat fun _ => .ite (.pure _) (.pure _)
  split
  · exact .pure _
  · exact .bind (.noView .engineRead) fun _ => .pure _

theorem KeepsWf.viewObject {w c write} : KeepsWf (viewObject w c write) := by
  unfold Machine.viewObject
  refine .bind (.tryCatch (.resolve _ _ _ _ _) fun _ => ?_) fun _ => .ite .raise_bind (.ite .raise_bind (.pure _))
  split
  · exact .ite (.raise _ _ _) .throw
  · exact .throw

theorem KeepsWf.viewRead {w c off n} : KeepsWf (viewRead w c off n) :=
  .bind .waitHoard fun _ => .bind (.resolveAll _ _ _ _ _) fun _ => .readPieces _ _ _ _ _

theorem KeepsWf.viewWrite {w c off bs} : KeepsWf (viewWrite w c off bs) := by
  unfold Machine.viewWrite
  refine .bind .waitHoard fun _ => .bind (.tryCatch .storeAt fun _ => ?_) fun _ => ?_
  · split
    · exact .ite (.bind .hoardPut fun _ => .pure _) .throw
    · exact .throw
  split
  · exact .raise _ _ _
  · exact .pure _

theorem KeepsWf.viewHeader {w c d chunk} : KeepsWf (viewHeader w c d chunk) :=
  .ite .raise_bind (.bind .viewRead fun _ => .pure _)

theorem KeepsWf.fillBuf {x read total} (hread : ∀ a, ∀ a1, KeepsWf (read a a1)) : KeepsWf (fillBuf x read total) :=
  .bind (hread _ _) fun _ => .pure _

theorem KeepsWf.codecFault {α : Type} {cls sub chunk i} : KeepsWf (codecFault cls sub chunk i : M α) :=
  .raise _ _ _

theorem KeepsWf.cpZStep {x} : KeepsWf (cpZStep x) := by
  unfold Machine.cpZStep
  refine .ite (.pure _) ?_
  refine .bind .get fun _ => .bind .viewObject fun _ => ?_
  refine .ite .raise_bind ?_
  refine .bind .checkCap fun _ => ?_
  split
  · exact .bind (.fillBuf (fun _ _ => .bind .engineRead fun _ => .pure _)) fun _ => .ite (.pure _) (.pure _)
  · exact .ite (.bind .viewWrite fun _ => .pure _) (.bind .waitHoard fun _ => .bind .viewHeader fun _ => .ite .raise_bind (.bind
      .viewWrite fun _ => .ite (.pure _) (.pure _)))
  · exact .bind .viewHeader fun _ => .ite (.bind .codecFault fun _ => .pure _) (.pure _)

theorem KeepsWf.drainBuf {w c dst buf pos} : KeepsWf (drainBuf w c dst buf pos) :=
  .bind .engineWrite fun _ => .pure _

theorem KeepsWf.cpXViewStep {x} : KeepsWf (cpXViewStep x) := by
  unfold Machine.cpXViewStep
  refine .ite (.pure _) ?_
  refine .bind .get fun _ => .bind .viewObject fun _ => .bind .checkCap fun _ => ?_
  dsimp only
  split
  · refine .bind (.fillBuf (fun _ _ => .viewRead)) fun _ => ?_
    refine .ite (.pure _) ?_
    split
    · exact .codecFault
    · exact .pure _
  · exact .bind .drainBuf fun _ => .ite (.pure _) (.pure _)
  exact .bind .viewHeader fun _ => .ite (.pure _) (.ite (.bind .codecFault fun _ => .pure _) (.pure _))

theorem KeepsWf.cpXStreamStep {x} : KeepsWf (cpXStreamStep x) := by
  unfold Machine.cpXStreamStep
  refine .ite (.pure _) ?_
  refine .bind .get fun _ => ?_
  dsimp only
  split
  · refine .bind (.fillBuf (fun _ _ => .bind .engineRead fun _ => .pure _)) fun _ => ?_
    refine .ite (.pure _) ?_
    split
    · exact .codecFault
    · exact .pure _
  · exact .bind .drainBuf fun _ => .ite (.pure _) (.pure _)
  exact .when .codecFault (.bind .engineRead fun _ => .ite (.pure _) (.when .codecFault (.ite (.pure _) (.pure _))))

theorem KeepsWf.cpCkStep {x} : KeepsWf (cpCkStep x) := by
  unfold Machine.cpCkStep
  refine .ite (.pure _) ?_
  refine .bind .get fun _ => ?_
  refine .ite .raise_bind ?_
  dsimp only
  split
  · exact .bind (.fillBuf (fun _ _ => .bind .engineRead fun _ => .pure _)) fun _ => .ite (.pure _) (.pure _)
  · exact .bind .drainBuf fun _ => .ite (.pure _) (.pure _)
  · exact .bind .drainBuf fun _ => .pure _
  · exact .ite (.pure _) (.ite (.pure _) (.bind .engineRead fun _ => .ite (.pure _) (.pure _)))

theorem KeepsWf.copyStep {x} : KeepsWf (copyStep x) := by
  unfold Machine.copyStep
  split
  · exact .cpStep
  · exact .cp2dStep
  · exact .cpOmStep
  · exact .cpGatStep
  · exact .cpSetStep
  · exact .cpZStep
  · exact .ite .cpXStreamStep .cpXViewStep
  · exact .cpCkStep
  · exact .pure _

theorem KeepsWf.copyStart {x} : KeepsWf (copyStart x) := by
  unfold Machine.copyStart
  split
  · exact .startEntry
  · exact .ite .startEntry (.pure _)
  · exact .pure _

theorem KeepsWf.renewPage {w p} : KeepsWf (renewPage w p) := by
  unfold Machine.renewPage
  refine .bind .get fun _ => ?_
  split
  · exact .pure _
  refine .ite (.pure _) ?_
  refine .when .checkCap (.tryCatch (.bind (.resolve _ _ _ _ _) fun _ => .pure _) fun _ => ?_)
  split
  · exact .pure _
  · exact .throw

theorem OutWf.execLeaseRenewal {core eng nth s} (h : MemWf s) : OutWf (execLeaseRenewal core eng nth s) := by
  have start : MemWf { s with turn := core } := h
  refine .ite (.next h) ?_
  split
  · exact .next h
  rename_i x _
  have renewed : KeepsWf ((workPages x).forM (fun p => renewPage (whoCmd s core x) p)) := .forM (fun _ => .renewPage) _
  dsimp only
  split
  · rename_i e
    exact .next (renewed.ok e start)
  · rename_i e
    exact .next (wf_endFaulted (renewed.error e start))
  · exact .next h
  · exact .fault _

/-! ## Net -/

theorem OutWf.execNetPost {z c l q s} (h : MemWf s) : OutWf (execNetPost z c l q s) :=
  .engineWord (.bind .readS fun _ => .bind .readS fun _ => .bind .rangeSub8 fun _ => .bind .readC fun _ => .bind .checkOperand fun
    _ => .pure _) h

theorem OutWf.execNetReply {z c l s} (h : MemWf s) : OutWf (execNetReply z c l s) :=
  .engineWord (.bind .readS fun _ => .bind .rangeSub8 fun _ => .bind .readC fun _ => .bind .checkOperand fun _ => .pure _) h

theorem KeepsWf.sendOperands {need c l q} : KeepsWf (sendOperands need c l q) :=
  .bind .readS fun _ => .bind .readS fun _ => .bind .readS fun _ => .bind .rangeSub8 fun _ => .bind .readC fun _ => .bind
    .checkOperand fun _ => .pure _

theorem KeepsWf.checkQp {x} : KeepsWf (checkQp x) :=
  .bind .get fun _ => .bind .self fun _ => .ite (.raise _ _ _) (.pure _)

theorem KeepsWf.unusablePages {w c ps} : KeepsWf (unusablePages w c ps) := by
  induction ps with
  | nil => exact .pure _
  | cons p ps ih =>
    refine .bind (.tryCatch (.bind (.resolve _ _ _ _ _) fun _ => .pure _) fun _ => ?_) fun _ => .bind ih fun _ => .pure _
    split
    · exact .pure _
    · exact .throw

theorem KeepsWf.bufferPages {x} : KeepsWf (bufferPages x) :=
  .bind .get fun _ => .bind .checkCap fun _ => .unusablePages

theorem KeepsWf.stage {w c bs pages} : KeepsWf (stage w c bs pages) := by
  unfold Machine.stage
  dsimp only
  split
  · exact .pure _
  · exact .ite .hoardPut (.pure _)

theorem KeepsWf.netStart {x} : KeepsWf (netStart x) := by
  unfold Machine.netStart
  split
  · exact .bind .checkQp fun _ => .bind .checkCap fun _ => .pure _
  · exact .bind .checkQp fun _ => .pure _
  · exact .bind .checkQp fun _ => .pure _
  · exact .bind .checkQp fun _ => .bind .bufferPages fun _ => .bind .core fun _ => .ite .waitOn_bind (.pure _)
  · exact .pure _

theorem KeepsWf.sendBeat {x} : KeepsWf (sendBeat x) :=
  .bind .get fun _ => .bind .waitBorn fun _ => .bind .engineRead fun _ => .pure _

theorem wf_sendRequest {s x} (h : MemWf s) : MemWf (sendRequest s x) := by
  unfold sendRequest
  split
  · exact h
  · exact wf_transmitRdma h

theorem KeepsWf.sendFrame {x} : KeepsWf (sendFrame x) :=
  .bind (keepsWf_modify fun _ hs => wf_sendRequest hs) fun _ => .pure _

theorem KeepsWf.sendStep {x ans} : KeepsWf (sendStep x ans) :=
  .ite (.pure _) (.ite (.bind .sendBeat fun _ => .pure _) (.bind .waitBorn fun _ => .sendFrame))

theorem wf_rnr {s from_} (h : MemWf s) : MemWf (rnr s from_) :=
  wf_transmitRdma h

theorem wf_repost {s k x} (h : MemWf s) : MemWf (repost s k x) := by
  unfold repost
  dsimp only
  split
  · exact h
  · exact wf_rnr h

theorem KeepsWf.placeStep {x pos detail pages} : KeepsWf (placeStep x pos detail pages) := by
  unfold Machine.placeStep
  refine .bind .get fun _ => ?_
  refine .ite (.ite (.pure _) ?_) (.ite .waitOn_bind (.pure _))
  refine .bind (.tryCatch (.bind .engineWrite fun _ => .pure _) fun _ => ?_) fun _ => ?_
  · split
    · exact .ite (.pure _) .throw
    · exact .throw
  split
  · exact .pure _
  · exact .bind (keepsWf_modify fun _ hs => wf_repost hs) fun _ => .pure _

theorem KeepsWf.beginPlacement {x pages bs detail} : KeepsWf (beginPlacement x pages bs detail) :=
  .bind .get fun _ => .bind .stage fun _ => .pure _

theorem KeepsWf.readStep {x ans} : KeepsWf (readStep x ans) := by
  unfold Machine.readStep
  split
  · exact .sendFrame
  · exact .placeStep
  split
  · exact .bind .bufferPages fun _ => .bind .beginPlacement fun _ => .pure _
  · exact .pure _
  · exact .pure _

theorem KeepsWf.replyStep {x} : KeepsWf (replyStep x) := by
  unfold Machine.replyStep
  refine .ite (.bind .sendBeat fun _ => .pure _) ?_
  refine .bind .waitBorn fun _ => .get_bind fun _ hs => ?_
  split
  · exact .bind (.set (wf_decideReply hs)) fun _ => .pure _
  · exact .pure _

theorem OutWf.takeMessage {s0 k from_ data x} (h : MemWf s0) : OutWf (takeMessage s0 k from_ data x) := by
  unfold Machine.takeMessage
  dsimp only
  split
  · exact .next (wf_rnr h)
  · rename_i e
    exact .next (wf_updCore ((KeepsWf.bind .bufferPages fun _ => .bind .core fun _ => .ite (.pure _) (.bind .beginPlacement fun _
      => .pure _)).ok e h))
  · exact .next (wf_endFaulted (wf_updCore h))
  · exact .next (wf_rnr h)
  · exact .fault _

theorem OutWf.execRoceSendReceive {from_ data s} (h : MemWf s) : OutWf (execRoceSendReceive from_ data s) := by
  unfold Machine.execRoceSendReceive
  refine .ite (.next h) ?_
  split
  · exact .next h
  refine .ite (.next h) ?_
  split
  · exact .next (wf_rnr h)
  refine .ite (.next (wf_rnr h)) ?_
  split
  · exact .next (wf_rnr h)
  · exact .takeMessage h

theorem wf_watchExternal {s w kind sp addr runs} (h : MemWf s) : MemWf (watchExternal s w kind sp addr runs) := by
  unfold watchExternal
  split
  · exact h
  · exact wf_ite h h

theorem wf_externalWrite {s port sp addr data} (h : MemWf s) : MemWf (externalWrite s port sp addr data) :=
  wf_watchExternal (wf_foldl (fun _ _ hs => wf_markBytes _ _ _ _ (wf_stampLines _ _ _ _ (wf_putBytes _ _ _ hs))) h)

theorem OutWf.external {s i sp addr n go} (hgo : ∀ a, MemWf (go a)) (h : MemWf s) : OutWf (external s i sp addr n go) :=
  .ite (.next h) (.ite (.next h) (.ite (.fault _) (.next (hgo _))))

theorem OutWf.execRoceInboundRdma {q s} (h : MemWf s) : OutWf (execRoceInboundRdma q s) := by
  unfold Machine.execRoceInboundRdma
  split
  · exact .ite (.next h) (.ite (.next h) (.external (fun _ => wf_transmitRdma (wf_externalWrite h)) h))
  exact .ite (.next h) (.ite (.next h) (.external (fun _ => wf_ite (wf_transmitRdma h) (wf_transmitRdma (wf_watchExternal h))) h))

theorem OutWf.execHostInboundWrite {sp addr data s} (h : MemWf s) : OutWf (execHostInboundWrite sp addr data s) :=
  .external (fun _ => wf_externalWrite h) h

/-! ## Lanes -/

theorem OutWf.execFstLd {z c l xs s} (h : MemWf s) : OutWf (execFstLd z c l xs s) :=
  .engineWord (.bind .readS fun _ => .bind .readS fun _ => .bind .rangeSub8 fun _ => .bind .readC fun _ => .bind .checkOperand fun
    _ => .pure _) h

theorem OutWf.execFstStart {z c l xs s} (h : MemWf s) : OutWf (execFstStart z c l xs s) :=
  .engineWord (.bind .readS fun _ => .bind .readS fun _ => .bind .rangeSub8 fun _ => .bind .readC fun _ => .bind .checkOperand fun
    _ => .pure _) h

theorem KeepsWf.leaving {α : Type} {k x go} (hgo : KeepsWf (go : M α)) : KeepsWf (leaving k x go : M α) := by
  unfold Machine.leaving
  refine .tryCatch (hgo) fun _ => ?_
  split
  · exact .bind (keepsWf_modify fun _ hs => hs) fun _ => .throw
  · exact .throw

theorem KeepsWf.fstLdStep {x} : KeepsWf (fstLdStep x) := by
  unfold Machine.fstLdStep
  refine .bind .get fun _ => ?_
  dsimp only
  split
  · exact .pure _
  refine .ite .waitOn_bind (.ite (.bind (keepsWf_modify fun _ hs => hs) fun _ => .pure _) (.ite (.bind (keepsWf_modify fun _ hs =>
    hs) fun _ => .pure _) (.ite (.bind (.leaving .engineRead) fun _ => .pure _) ?_)))
  split
  · exact .bind (keepsWf_modify fun _ hs => hs) fun _ => .raise _ _ _
  · exact .bind (keepsWf_modify fun _ hs => hs) fun _ => .pure _

theorem KeepsWf.writeRecord {x l code pos} : KeepsWf (writeRecord x l code pos) :=
  .bind .get fun _ => .bind .loadEntry fun _ => .bind .engineWrite fun _ => .pure _

theorem KeepsWf.stopEntry {x code} : KeepsWf (stopEntry x code) :=
  .bind .get fun _ => .bind .writeRecord fun _ => .bind (keepsWf_modify fun _ hs => hs) fun _ => .pure _

theorem KeepsWf.emission {w l e b} : KeepsWf (emission w l e b) := by
  unfold Machine.emission
  split
  · exact .pure _
  · exact .pure _
  · exact .bind .engineRead fun _ => .pure _
  · exact .pure _

theorem KeepsWf.laneByte {x l} : KeepsWf (laneByte x l) := by
  unfold Machine.laneByte
  refine .bind .get fun _ => .bind .engineRead fun _ => .bind .engineRead fun _ => ?_
  refine .ite .raise_bind (.ite .stopEntry ?_)
  refine .bind .emission fun _ => ?_
  exact .ite (.bind (keepsWf_modify fun _ hs => hs) fun _ => .ite .stopEntry (.pure _)) (.bind .loadEntry fun _ => .ite
    .raise_bind (.ite .stopEntry (.bind .engineWrite fun _ => .bind (keepsWf_modify fun _ hs => hs) fun _ => .pure _)))

theorem KeepsWf.fstStartStep {x} : KeepsWf (fstStartStep x) :=
  .bind .get fun _ => .ite (.pure _) (.ite (.pure _) (.ite (.ite (.bind (keepsWf_modify fun _ hs => hs) fun _ => .pure _) (.pure
    _)) (.leaving (.ite .stopEntry .laneByte))))

theorem KeepsWf.fstStopStep {x} : KeepsWf (fstStopStep x) := by
  unfold Machine.fstStopStep
  refine .bind .get fun _ => ?_
  refine .ite (.pure _) ?_
  split
  · exact .bind (keepsWf_modify fun _ hs => hs) fun _ => .pure _
  · exact .bind .writeRecord fun _ => .bind (keepsWf_modify fun _ hs => hs) fun _ => .pure _

theorem KeepsWf.laneStart {x} : KeepsWf (laneStart x) := by
  unfold Machine.laneStart
  split
  · exact .bind .get fun _ => .ite .waitOn_bind (.ite .raise_bind (.ite .waitOn_bind (.bind (keepsWf_modify fun _ hs => wf_updLane
      hs) fun _ => .pure _)))
  · exact .bind .get fun _ => .ite .waitOn_bind (.bind (keepsWf_modify fun _ hs => wf_updLane hs) fun _ => .pure _)
  · exact .bind .core fun _ => .ite .waitOn_bind (.pure _)
  · exact .netStart

theorem KeepsWf.netStep {ans x} : KeepsWf (netStep ans x) := by
  unfold Machine.netStep
  split
  · split
    · exact .placeStep
    · exact .pure _
  · exact .sendStep
  · exact .sendStep
  · exact .readStep
  · exact .replyStep
  · exact .fstLdStep
  · exact .fstStartStep
  · exact .fstStopStep
  · exact .pure _

/-! ## Matrix -/

theorem wf_countRows {s k e kr r0 r1} (h : MemWf s) : MemWf (countRows s k e kr r0 r1) :=
  wf_countCore _ _ _ (wf_countCore _ _ _ h)

theorem KeepsWf.mmaStart {x a b sel} : KeepsWf (mmaStart x a b sel) := by
  unfold Machine.mmaStart
  refine .bind .core fun _ => ?_
  refine .ite .raise_bind ?_
  refine .ite ?_ (.ite .raise_bind (.pure _))
  split
  · exact .raise_bind
  · exact .ite .raise_bind (.ite .waitOn_bind (.pure _))

theorem KeepsWf.mmaStep {x zero n a b} : KeepsWf (mmaStep x zero n a b) := by
  unfold Machine.mmaStep
  refine .bind .core fun _ => .bind ?_ fun _ => .bind .updCore fun _ => .bind (keepsWf_modify fun _ hs => wf_countRows hs) fun _
    => .pure _
  split
  · exact .pure _
  split
  · exact .raise _ _ _
  · exact .pure _

theorem KeepsWf.epiSeed {e} : KeepsWf (epiSeed e) :=
  .bind .thread fun _ => .ite (.bind .updThread fun _ => .pure _) (.pure _)

theorem KeepsWf.epiWrite {w footer c a bs} : KeepsWf (epiWrite w footer c a bs) := by
  refine .bind .get fun _ => ?_
  extract_lets _ ready finish
  have tried : KeepsWf ready := .bind .resolveStore fun _ => .bind .answersAll fun _ => .pure _
  have finished (r) : KeepsWf (finish r) := by
    unfold finish
    split
    · exact .bind .hoardPut fun _ => .pure _
    refine .bind .storeAt fun _ => ?_
    split
    · exact .raise _ _ _
    · exact .pure _
  refine .ite (.bind (.pure _) finished) (.bind (.tryCatch tried fun _ => ?_) finished)
  split
  · exact .pure _
  · exact .pure _
  · exact .throw

theorem KeepsWf.epiBeats {w c hit fuel a bs} : KeepsWf (epiBeats w c hit fuel a bs) := by
  induction fuel generalizing hit a bs with
  | zero => exact .pure _
  | succ fuel ih => exact .ite (.pure _) (.bind .epiWrite fun _ => .ite (.pure _) ih)

theorem KeepsWf.storeRow {w e d bias c rs b m hit} : KeepsWf (storeRow w e d bias c rs b m hit) :=
  .bind .epiSeed fun _ => .bind .epiBeats fun _ => .pure _

theorem KeepsWf.checkTile {c rows rs} : KeepsWf (checkTile c rows rs) :=
  .bind .checkCap fun _ => .ite .raise_bind .aligned

theorem KeepsWf.epiStart {x n o store} : KeepsWf (epiStart x n o store) :=
  .when .checkTile (.bind .core fun _ => .bind .updCore fun _ => .pure _)

theorem KeepsWf.epiStep {x o} : KeepsWf (epiStep x o) :=
  .bind .get fun _ => .bind .core fun _ => .ite (.bind .storeRow fun _ => .bind .updCore fun _ => .pure _) (.bind .epiWrite fun _
    => .pure _)

theorem KeepsWf.epiVStep {x o} : KeepsWf (epiVStep x o) :=
  .bind .core fun _ => .bind .epiSeed fun _ => .bind .updCore fun _ => .pure _

theorem KeepsWf.accRdStep {x n} : KeepsWf (accRdStep x n) :=
  .bind .get fun _ => .bind .core fun _ => .bind .engineWrite fun _ => .pure _

theorem KeepsWf.bulkStep {x fin} : KeepsWf (bulkStep x fin) :=
  .bind .get fun _ => .bind .engineRead fun _ => .ite (.pure _) (.ite (.bind .updCore fun _ => .pure _) (.pure _))

theorem KeepsWf.matrixStart {x} : KeepsWf (matrixStart x) := by
  unfold Machine.matrixStart
  split
  · exact .mmaStart
  · exact .mmaStart
  · exact .epiStart
  · exact .epiStart
  · exact .bind .updCore fun _ => .pure _
  · exact .pure _

theorem KeepsWf.matrixStep {x} : KeepsWf (matrixStep x) := by
  unfold Machine.matrixStep
  split
  · exact .mmaStep
  · exact .mmaStep
  · exact .epiStep
  · exact .epiVStep
  · exact .accRdStep
  · exact .bulkStep
  · exact .bulkStep
  · exact .bind .updCore fun _ => .pure _
  · exact .bind .updCore fun _ => .pure _
  · exact .bind .updCore fun _ => .pure _
  · exact .pure _

theorem KeepsWf.checkSlot {n} : KeepsWf (checkSlot n) :=
  .bind .core fun _ => .ite .raise_bind (.ite (.raise _ _ _) (.pure _))

theorem KeepsWf.matrixEntry {f n} : KeepsWf (matrixEntry f n) :=
  .bind .thread fun _ => .ite .raise_bind (.pure _)

theorem KeepsWf.mmaOperands {n a b f k} : KeepsWf (mmaOperands n a b f k) :=
  .bind .readS fun _ => .bind .rangeSub8 fun _ => .bind .matrixEntry fun _ => .bind .checkSlot fun _ => .bind .checkSlot fun _ =>
    .pure _

theorem KeepsWf.epiOperands {n o xs} : KeepsWf (epiOperands n o xs) :=
  .bind .readS fun _ => .bind .readS fun _ => .bind .rangeSub8 fun _ => .bind .matrixEntry fun _ => .pure _

theorem OutWf.execEpi {z n o c xs q s} (h : MemWf s) : OutWf (execEpi z n o c xs q s) :=
  .engineWord (.bind .epiOperands fun _ => .bind .rangeSub8 fun _ => .bind .readC fun _ => .bind .checkOperand fun _ => .ite
    (.bind .checkSlot fun _ => .pure _) (.pure _)) h

theorem OutWf.execEpiV {z n o xs q s} (h : MemWf s) : OutWf (execEpiV z n o xs q s) :=
  .engineWord (.bind .epiOperands fun _ => .bind .rangeSub8 fun _ => .ite (.bind .checkSlot fun _ => .pure _) (.pure _)) h

/-! ## Vector -/

theorem KeepsWf.vectorSeed {e} : KeepsWf (vectorSeed e) :=
  .bind .thread fun _ => .ite (.bind .updThread fun _ => .pure _) (.pure _)

theorem KeepsWf.checkElement {c need e ea} : KeepsWf (checkElement c need e ea) := by
  unfold Machine.checkElement
  exact .ite .raise_bind (.bind (.tryCatch .checkCap fun _ => (by split <;> exact .throw)) fun _ => .bind .aligned fun _ =>
    .pure _)

theorem KeepsWf.checkElements {c need e ea is} : KeepsWf (checkElements c need e ea is) := by
  induction is with
  | nil => exact .pure _
  | cons i is ih => exact .bind .checkElement fun _ => ih

theorem KeepsWf.loadBeat {x e ea last beat} : KeepsWf (loadBeat x e ea last beat) := by
  unfold Machine.loadBeat
  refine .bind .get fun _ => ?_
  dsimp only
  split
  · exact .pure _
  refine .bind .checkElement fun _ => .bind .waitBorn fun _ => .bind (.resolve _ _ _ _ _) fun _ => .bind .checkElements fun _ =>
    .bind .get fun _ => ?_
  refine .ite .waitOn_bind (.ite .raise_bind ?_)
  exact .bind (.checkLines _ _ _) fun _ => .bind .behindPosted fun _ => .bind .answers fun _ => .bind (.mapM (fun _ => .bind
    (.readPiece _ _ _ _ _) fun _ => .pure _) _) fun _ => .when (keepsWf_modify fun _ hs => wf_countAccess _ _ _ _ _ hs) (.bind
    (.mapM (fun _ => .watchAccess _ _ _ _ _) _) fun _ => .pure _)

theorem KeepsWf.storeBeat {x e ea val last beat} : KeepsWf (storeBeat x e ea val last beat) := by
  unfold Machine.storeBeat
  refine .bind .get fun _ => ?_
  dsimp only
  split
  · exact .pure _
  refine .bind .checkElement fun _ => .bind .waitBorn fun _ => ?_
  refine .ite .waitOn_bind ?_
  refine .bind (.tryCatch (.bind (.resolve _ _ _ _ _) fun _ => .bind .checkElements fun _ => .storeRuns) fun _ => ?_) fun _ => ?_
  · split
    · exact .ite (.bind .checkElements fun _ => .bind .hoardPut fun _ => .pure _) .throw
    · exact .throw
  split
  · exact .raise _ _ _
  · exact .pure _

theorem KeepsWf.loadStep {x d v f contiguous ea} : KeepsWf (loadStep x d v f contiguous ea) :=
  .bind .core fun _ => .bind .loadBeat fun _ => .ite (.pure _) (.ite (.pure _) (.ite (.bind .updCore fun _ => .pure _) (.pure _)))

theorem KeepsWf.storeStep {x v f contiguous ea val} : KeepsWf (storeStep x v f contiguous ea val) :=
  .bind .core fun _ => .bind .storeBeat fun _ => .ite (.pure _) (.pure _)

theorem KeepsWf.vectorDo {x g} : KeepsWf (vectorDo x g) :=
  .bind .updCore fun _ => .pure _

theorem KeepsWf.convertDo {x g} : KeepsWf (convertDo x g) :=
  .bind .vectorSeed fun _ => .vectorDo

theorem KeepsWf.movqDo {x d i} : KeepsWf (movqDo x d i) :=
  .bind .core fun _ => .ite .waitOn_bind (.bind (keepsWf_modify fun _ hs => wf_endCmdWaits hs) fun _ => .pure _)

theorem KeepsWf.vectorStep {x} : KeepsWf (vectorStep x) := by
  unfold Machine.vectorStep
  refine .bind .core fun _ => ?_
  split
  case h_37 | h_38 | h_39 => exact .convertDo
  case h_51 => exact .movqDo
  case h_52 | h_54 | h_56 => exact .loadStep
  case h_53 | h_55 | h_57 => exact .storeStep
  case h_58 => exact .pure _
  all_goals exact .vectorDo

theorem OutWf.vectorWord {z i s} (h : MemWf s) : OutWf (vectorWord z i s) :=
  .engineWord (.pure _) h

theorem OutWf.vectorScalar {z i n s} (h : MemWf s) : OutWf (vectorScalar z i n s) :=
  .engineWord (.bind .readS fun _ => .pure _) h

theorem OutWf.convWord {z i f suits group s} (h : MemWf s) : OutWf (convWord z i f suits group s) :=
  .engineWord (.bind .thread fun _ => .ite .raise_bind (.ite .raise_bind (.pure _))) h

theorem OutWf.vectorMemory {z i c n pair s} (h : MemWf s) : OutWf (vectorMemory z i c n pair s) :=
  .engineWord (.bind .readS fun _ => .ite (.bind .readS fun _ => .bind .readC fun _ => .bind .checkOperand fun _ => .pure _)
    (.bind (.pure _) fun _ => .bind .readC fun _ => .bind .checkOperand fun _ => .pure _)) h

/-! ## Running -/

theorem KeepsWf.startOf {x} : KeepsWf (startOf x) := by
  unfold Machine.startOf
  split
  · exact .matrixStart
  · exact .copyStart
  · exact .laneStart
  · exact .pure _

theorem KeepsWf.stepOf {ans x} : KeepsWf (stepOf ans x) := by
  unfold Machine.stepOf
  split
  · exact .matrixStep
  · exact .copyStep
  · exact .netStep
  · exact .vectorStep

theorem wf_countChained {s k x} (h : MemWf s) : MemWf (countChained s k x) := by
  unfold countChained
  split <;> exact h

theorem wf_waitsToStart {s k x} (h : MemWf s) : MemWf (waitsToStart s k x) :=
  wf_ite (wf_ite h h) (wf_foldl (fun _ _ hs => wf_recordCmdWait hs) (wf_countChained h))

theorem wf_putStarted {s k y} (h : MemWf s) : MemWf (putStarted s k y) :=
  wf_ite h h

theorem wf_breakStep {s k x m step} (h : MemWf s) : MemWf (breakStep s k x m step) :=
  wf_debugStop h

theorem OutWf.execEngineCommandStart {core eng s0} (h : MemWf s0) : OutWf (execEngineCommandStart core eng s0) := by
  unfold Machine.execEngineCommandStart
  refine .ite (.next h) ?_
  split
  · exact .next h
  refine .ite (.next h) (.ite (.next (wf_waitsToStart h)) ?_)
  split
  · exact .next (wf_breakStep h)
  dsimp only
  split
  · rename_i e
    exact .next (wf_putStarted (wf_countChained (wf_endCmdWaits (KeepsWf.startOf.ok e h))))
  · rename_i e
    exact .next (wf_endFaulted (wf_countChained (wf_endCmdWaits (KeepsWf.startOf.error e h))))
  · exact .next (wf_holdCmd h)
  · exact .fault _

theorem OutWf.execEngineCommandComplete {core eng nth ans s} (h : MemWf s) :
    OutWf (execEngineCommandComplete core eng nth ans s) := by
  unfold Machine.execEngineCommandComplete
  refine .ite (.next h) ?_
  dsimp only
  split
  · exact .next h
  refine .ite (.next (wf_postCmd h)) (.ite (.next (wf_awaitWrites h)) (.ite (.next h) ?_))
  split
  · exact .next (wf_breakStep h)
  · exact .advance (fun _ => .stepOf) h

theorem OutWf.execMmaSegmentRetire {core s} (h : MemWf s) : OutWf (execMmaSegmentRetire core s) := by
  unfold Machine.execMmaSegmentRetire
  refine .ite (.next h) ?_
  split
  · exact .next h
  split
  · exact .next (wf_breakStep h)
  · exact .advance (fun _ => .matrixStep) h

/-! ## Tasks -/

theorem KeepsWf.taskEntry {w m i} : KeepsWf (taskEntry w m i) :=
  .bind .get fun _ => .bind .waitHoard fun _ => .loadTagged

theorem KeepsWf.checkSyncWord {c off} : KeepsWf (checkSyncWord c off) :=
  .bind .checkCap fun _ => .ite .raise_bind .aligned

theorem KeepsWf.taskRead {w c ea n} : KeepsWf (taskRead w c ea n) :=
  .bind .engineRead fun _ => .pure _

theorem KeepsWf.tileOffset {w b entry} : KeepsWf (tileOffset w b entry) :=
  .bind .taskRead fun _ => .ite .raise_bind (.pure _)

theorem KeepsWf.beatAfter {α : Type} {hit x} (hx : KeepsWf (x : M α)) : KeepsWf (beatAfter hit x : M α) := by
  unfold Machine.beatAfter
  split
  · exact hx
  · exact .bind (.tryCatch hx fun _ => .throw) fun _ => .throw

theorem KeepsWf.blockRows {w b e first struck n t} : KeepsWf (blockRows w b e first struck n t) := by
  induction n generalizing struck t with
  | zero => exact .pure _
  | succ n ih =>
    refine .bind (.beatAfter .tileOffset) fun _ => .bind (.beatAfter .taskRead) fun _ => ?_
    dsimp only
    split
    · exact .raise _ _ _
    · exact .bind ih fun _ => .pure _

theorem KeepsWf.checkRecord {w m t} : KeepsWf (checkRecord w m t) := by
  unfold Machine.checkRecord
  refine .ite .raise_bind (.ite .raise_bind ?_)
  refine .bind .taskEntry fun _ => .bind (.beatAfter .taskEntry) fun _ => .bind (.beatAfter .taskEntry) fun _ => .bind
    .checkOperand fun _ => .bind .checkOperand fun _ => .bind .checkOperand fun _ => .bind .checkTile fun _ => .ite_bind
    (.beatAfter .taskEntry) (.pure _) fun _ => .when .checkSyncWord (.when .checkSyncWord (.bind (.beatAfter .taskRead)
    fun _ => ?_))
  dsimp only
  split
  · exact .raise _ _ _
  · exact .ite .raise_bind (.bind .blockRows fun _ => .ite .raise_bind (.pure _))

theorem wf_taskFault {s k t step f} (h : MemWf s) : MemWf (taskFault s k t step f) :=
  wf_report _ _ h

theorem KeepsWf.readWaitWord {w m t} : KeepsWf (readWaitWord w m t) := by
  unfold Machine.readWaitWord
  refine .bind .taskEntry fun _ => .bind .checkSyncWord fun _ => .bind (.resolve _ _ _ _ _) fun _ => .bind (.checkLines _ _ _) fun
    _ => .bind .get fun _ => ?_
  exact .ite (.pure _) (.bind (keepsWf_modify fun _ hs => wf_countAccess _ _ _ _ _ hs) fun _ => .bind .watchWord fun _ => .pure _)

theorem wf_recordStruck {s k t step a skid} (h : MemWf s) : MemWf (recordStruck s k t step a skid) :=
  wf_report _ _ h

theorem wf_sawFull {s m t e key hit} (h : MemWf s) : MemWf (sawFull s m t e key hit) := by
  unfold sawFull
  dsimp only
  split
  · exact wf_ite h (wf_pushWait _ _ h)
  · exact wf_struckBy (wf_ite h (wf_pushWait _ _ h))

theorem wf_recheckRecord {s m t} (h : MemWf s) : MemWf (recheckRecord s m t) := by
  have start : MemWf { s with turn := t.core } := h
  unfold recheckRecord
  dsimp only
  split
  · rename_i e
    have read := KeepsWf.readWaitWord.ok e start
    exact wf_sawFull read
  · exact h
  · exact h
  · exact h

theorem OutWf.execTaskWaitRecheck {mcb s} (h : MemWf s) : OutWf (execTaskWaitRecheck mcb s) := by
  unfold Machine.execTaskWaitRecheck
  split
  · exact .next h
  refine .ite (.next h) ?_
  refine .next (wf_noteReady (wf_foldl (fun _ _ hs => ?_) h))
  split
  · exact wf_ite (wf_recheckRecord hs) hs
  · exact hs

theorem KeepsWf.issueRecord {w m t} : KeepsWf (issueRecord w m t) := by
  unfold Machine.issueRecord
  exact .bind .checkRecord fun _ => .ite (.pure _) (.bind .readWaitWord fun _ => (by split <;> exact .pure _))

theorem wf_issueHeld {s m k t g} (h : MemWf s) : MemWf (issueHeld s m k t g) := by
  unfold issueHeld
  split
  · exact wf_promote (wf_updRecord (wf_ite (wf_countCore _ _ _ h) h))
  · exact h
  · exact h
  · exact h

theorem OutWf.execTaskIssue {mcb s0} (h : MemWf s0) : OutWf (execTaskIssue mcb s0) := by
  unfold Machine.execTaskIssue
  split
  · exact .next h
  refine .ite (.next h) ?_
  dsimp only
  split
  · split
    · exact .next (wf_noteReady h)
    refine .ite (.next (wf_noteReady h)) ?_
    split
    · rename_i e
      exact .next (wf_noteReady (wf_updRecord (KeepsWf.issueRecord.ok e (wf_noteReady h))))
    · rename_i e
      refine .next (wf_noteReady (wf_updCore (wf_takenOut ?_)))
      split
      · exact KeepsWf.issueRecord.ok e (wf_noteReady h)
      · exact wf_sawFull (KeepsWf.issueRecord.ok e (wf_noteReady h))
    · rename_i e
      exact .next (wf_noteReady (wf_ite (wf_recordStruck (wf_takenOut (KeepsWf.issueRecord.error e (wf_noteReady h))))
        (wf_taskFault (wf_takenOut (wf_noteReady h)))))
    · exact .next (wf_issueHeld (wf_noteReady h))
    · exact .fault _
  · exact .next (wf_noteReady h)

theorem KeepsWf.fillBeat {w c at_ want buf} : KeepsWf (fillBeat w c at_ want buf) :=
  .bind .taskRead fun _ => .pure _

theorem KeepsWf.fillTile {w t tile off buf} : KeepsWf (fillTile w t tile off buf) := by
  unfold Machine.fillTile
  refine .ite ?_ ?_
  · exact .bind (.beatAfter .tileOffset) fun _ => .bind (.beatAfter .taskRead) fun _ => .pure _
  split
  · exact .raise _ _ _
  · exact .ite (.bind .fillBeat fun _ => .pure _) (.pure _)

theorem KeepsWf.fillAhead {w t g} : KeepsWf (fillAhead w t g) := by
  unfold Machine.fillAhead
  refine .ite (.ite (.pure _) (.bind .fillBeat fun _ => .pure _)) (.ite (.pure _) ?_)
  refine .bind .fillTile fun _ => ?_
  split
  · exact .pure _
  split
  · exact .pure _
  · exact .ite (.pure _) (.bind .fillBeat fun _ => .pure _)

theorem KeepsWf.taskFill {w t} : KeepsWf (taskFill w t) := by
  unfold Machine.taskFill
  refine .bind .get fun _ => ?_
  refine .ite .waitOn_bind ?_
  refine .bind .waitHoard fun _ => .orHoard (.bind .fillAt fun _ => ?_)
  split
  · exact .raise _ _ _
  · exact .strike

theorem KeepsWf.taskStep {t} : KeepsWf (taskStep t) := by
  unfold Machine.taskStep
  refine .bind .get fun _ => ?_
  refine .ite ?_ (.ite (.pure _) (.ite (.bind .storeRow fun _ => .pure _) (.ite (.bind .epiWrite fun _ => .pure _) (.ite (.ite
    (.pure _) (.bind .taskFill fun _ => .pure _)) (.ite (.waitOn _ _ _ _ _) (.pure _))))))
  refine .bind .fillTile fun _ => ?_
  split
  · exact .pure _
  split
  · exact .raise _ _ _
  refine .ite (.pure _) (.ite (.bind .fillBeat fun _ => .pure _) ?_)
  dsimp only
  split
  · exact .raise _ _ _
  exact .bind .updCore fun _ => .bind (keepsWf_modify fun _ hs => wf_countRows hs) fun _ => .ite (.pure _) (.pure _)

theorem wf_endTask {s k m t ok} (h : MemWf s) : MemWf (endTask s k m t ok) :=
  wf_noteReady (wf_ite h h)

theorem wf_taskStruck {s k m t a skid} (h : MemWf s) : MemWf (taskStruck s k m t a skid) :=
  wf_recordStruck (wf_endTask h)

theorem wf_holdTask {s k t g} (h : MemWf s) : MemWf (holdTask s k t g) := by
  unfold holdTask
  split
  · exact wf_promote (wf_putTask (wf_ite (wf_countCore _ _ _ h) h))
  · exact h
  · exact h
  · exact h

theorem OutWf.execTaskComplete {core s0} (h : MemWf s0) : OutWf (execTaskComplete core s0) := by
  have start : MemWf { s0 with turn := core } := h
  unfold Machine.execTaskComplete
  split
  · exact .next h
  dsimp only
  split
  · rename_i e _
    exact .next (wf_putTask (KeepsWf.taskStep.ok e start))
  · rename_i e _
    exact .next (wf_taskStruck (KeepsWf.taskStep.ok e start))
  · rename_i e
    exact .next (wf_putTask (KeepsWf.taskStep.ok e start))
  · rename_i e _
    exact .next (wf_taskStruck (KeepsWf.taskStep.ok e start))
  · rename_i e _
    exact .next (wf_taskStruck (KeepsWf.taskStep.ok e start))
  · rename_i e _
    exact .next (wf_endTask (KeepsWf.taskStep.ok e start))
  · exact .next (wf_taskStruck h)
  · rename_i e
    refine .ite (.next (wf_taskStruck (KeepsWf.taskStep.error e start))) ?_
    split
    · exact .next (wf_taskFault (wf_endTask (KeepsWf.taskStep.error e start)))
    · exact .next (wf_taskStruck h)
  · exact .next (wf_holdTask h)
  · exact .next (wf_taskStruck h)
  · exact .fault _

theorem OutWf.taskAhead {core s0} (h : MemWf s0) : OutWf (taskAhead core s0) := by
  unfold Machine.taskAhead
  split
  · exact .next h
  dsimp only
  split
  · exact .next h
  refine .ite (.next h) ?_
  split
  · exact .next h
  · rename_i e
    exact .next (wf_putTask (KeepsWf.fillAhead.ok e h))
  · exact .next (wf_ite (wf_promote h) h)
  · rename_i e
    exact .next (wf_ite (wf_taskStruck (KeepsWf.fillAhead.error e h)) h)
  · exact .fault _

/-! ## Halt -/

theorem wf_tellStream {s m e status g} (h : MemWf s) : MemWf (tellStream s m e status g) := by
  unfold tellStream
  split
  · exact h
  · exact wf_updStream h

theorem wf_finish {s m status failed} (h : MemWf s) : MemWf (finish s m status failed) := by
  unfold finish
  split
  · exact h
  refine wf_updMcb ?_
  split
  · exact wf_foldl (fun _ _ hs => wf_ite hs hs) (wf_tellStream (wf_decideReply (wf_releaseLanes h)))
  exact wf_updPart (wf_foldl (fun _ _ hs => wf_ite hs hs) (wf_tellStream (wf_decideReply (wf_releaseLanes h))))

theorem OutWf.execInvocationRetirement {m s} (h : MemWf s) : OutWf (execInvocationRetirement m s) := by
  unfold Machine.execInvocationRetirement
  split
  · exact .next h
  · exact .ite (.next (wf_finish h)) (.next h)

theorem wf_endWaits {s m} (h : MemWf s) : MemWf (endWaits s m) := by
  unfold endWaits
  dsimp only
  split
  · exact wf_foldl (fun _ _ hs => wf_foldl (fun _ _ ht => wf_endCmdWaits ht) (wf_foldl (fun _ _ ht => wf_endHoardWait _ _ _ _ ht)
      (wf_dropHold _ _ _ hs))) h
  refine wf_foldl (fun _ _ hs => ?_) (wf_foldl (fun _ _ hs => wf_foldl (fun _ _ ht => wf_endCmdWaits ht) (wf_foldl (fun _ _ ht =>
    wf_endHoardWait _ _ _ _ ht) (wf_dropHold _ _ _ hs))) h)
  refine wf_ite ?_ hs
  split
  · split
    · exact wf_pushWait _ _ hs
    · exact hs
  · exact hs

theorem KeepsWf.sentAtomic {i} : KeepsWf (sentAtomic i) := by
  unfold Machine.sentAtomic
  split
  · exact .bind .readC fun _ => .bind .readS fun _ => .bind .atomic fun _ => .pure _
  · exact .bind .readS fun _ => .bind .readC fun _ => .bind .readS fun _ => .bind .atomic fun _ => .pure _
  · exact .pure _

theorem wf_landSent {s k} (h : MemWf s) : MemWf (landSent s k) := by
  have start : MemWf { s with turn := k } := h
  unfold landSent
  split
  · exact h
  refine wf_ite h (wf_ite (wf_dropHold _ _ _ h) ?_)
  split
  · rename_i e
    have sent := KeepsWf.sentAtomic.ok e start
    exact wf_dropHold _ _ _ (wf_keepMemory sent)
  · exact wf_dropHold _ _ _ h

theorem OutWf.execKillComplete {m s} (h : MemWf s) : OutWf (execKillComplete m s) := by
  unfold Machine.execKillComplete
  split
  · exact .next h
  split
  · exact .next h
  exact .ite (.next h) (.next (wf_finish (wf_updRings _ _ (wf_endWaits (wf_foldl (fun _ _ hs => wf_landSent hs) h)))))

theorem OutWf.execHaltRelease {m s} (h : MemWf s) : OutWf (execHaltRelease m s) := by
  unfold Machine.execHaltRelease
  split
  · exact .next h
  · exact .ite (.next h) (.next (wf_foldl (fun _ _ hs => wf_ite (wf_takeReport hs) hs) h))

theorem wf_replayPlot {s m} (h : MemWf s) : MemWf (replayPlot s m) :=
  wf_foldl (fun _ _ hs => hs) h

theorem wf_clearHeld {s m enter k} (h : MemWf s) : MemWf (clearHeld s m enter k) :=
  wf_ite (wf_ite (wf_takeReport h) h) h

theorem wf_haltForReports {s m} (h : MemWf s) : MemWf (haltForReports s m) :=
  wf_ite h (wf_ite (wf_startKill _ _ h) (wf_ite (wf_updRings _ _ h) (wf_ite h h)))

theorem wf_resumePlot {s m enter} (h : MemWf s) : MemWf (resumePlot s m enter) :=
  wf_replayPlot (wf_haltForReports (wf_ite (wf_foldl (fun _ _ hs => wf_clearHeld hs) h) h))

/-! ## Sower -/

theorem OptWf.requestPreempt {s m} (h : MemWf s) : OptWf (requestPreempt s m) := by
  -- the constant unfolds alone: beside its arguments the kernel would evaluate the search for a run of save pages
  rw [show @Machine.requestPreempt = _ by delta Machine.requestPreempt; rfl]
  cases saveRun s m with
  | none => exact .none
  | some r => exact .ite (.some (wf_updMcb h)) (.some (wf_updPart (wf_stopEngines _ _ (wf_updInv (wf_updMcb h)))))

theorem wf_startBinding {s m ox oy} (h : MemWf s) : MemWf (startBinding s m ox oy) :=
  wf_foldl (fun _ _ hs => hs) h

theorem wf_preemptVictim {s k : State} {request : State → Nat → Option State} {found : Option (Nat × Nat × Nat)} {m : Nat}
    (hr : ∀ {s m}, MemWf s → OptWf (request s m)) (h : MemWf s) (hk : MemWf k) :
    MemWf (match found with
      | none => k
      | some (v, ox, oy) =>
        match request s v with
        | none => k
        | some t => t.updMcb m (fun b => { b with reserved := some (ox, oy, v) })) := by
  split
  · exact hk
  split
  · exact hk
  · rename_i e
    exact wf_updMcb (hr h _ e)

theorem wf_searchFrom {s blocked ws} (h : MemWf s) : MemWf (searchFrom s blocked ws) := by
  induction ws generalizing blocked with
  | nil => exact h
  | cons w ws ih =>
    obtain ⟨p, _, m, suspended⟩ := w
    rw [searchFrom]
    refine wf_ite ?_ (wf_ite ih ?_)
    · split
      · exact ih
      · exact wf_ite (wf_startBinding h) ih
    cases freePlot s m p with
    | some o => exact wf_startBinding h
    | none => exact wf_preemptVictim .requestPreempt h ih

theorem OutWf.execFreePlotSearch {part s} (h : MemWf s) : OutWf (execFreePlotSearch part s) := by
  unfold Machine.execFreePlotSearch
  refine .next ?_
  refine wf_ite h ?_
  dsimp only
  split
  · exact wf_ite (wf_startBinding h) h
  · exact wf_searchFrom h

theorem KeepsWf.pagesReadable {w c ps} : KeepsWf (pagesReadable w c ps) := by
  induction ps with
  | nil => exact .pure _
  | cons p ps ih =>
    refine .bind (.tryCatch (.bind (.resolve _ _ _ _ _) fun _ => .pure _) fun _ => ?_) fun _ => .ite ih (.pure _)
    split <;> exact .pure _

theorem KeepsWf.capsReadable {w cs} : KeepsWf (capsReadable w cs) := by
  induction cs with
  | nil => exact .pure _
  | cons c cs ih => exact .ite (.pure _) (.bind .pagesReadable fun _ => .ite ih (.pure _))

theorem KeepsWf.sowerRead {w c off n} : KeepsWf (sowerRead w c off n) :=
  .bind (.resolveAll _ _ _ _ _) fun _ => .bind (.readPieces _ _ _ _ _) fun _ => .pure _

theorem KeepsWf.bindRead {s m} : KeepsWf (bindRead s m) := by
  unfold Machine.bindRead
  refine .bind .capsReadable fun _ => ?_
  refine .ite ?_ (.pure _)
  refine .ite ?_ (.pure _)
  refine .tryCatch (.bind .sowerRead fun _ => .pure _) fun _ => ?_
  split
  · exact .pure _
  · exact .throw

theorem wf_failBinding {s m} (h : MemWf s) : MemWf (failBinding s m) :=
  wf_finish h

theorem OutWf.execBindAndRegisterPreload {m s} (h : MemWf s) : OutWf (execBindAndRegisterPreload m s) := by
  unfold Machine.execBindAndRegisterPreload
  dsimp only
  split
  · exact .next h
  refine .ite (.next h) ?_
  split
  · rename_i e
    exact .next (wf_failBinding (KeepsWf.bindRead.ok e h))
  · rename_i e
    exact .next (wf_foldl (fun _ _ ht => ht) (KeepsWf.bindRead.ok e h))
  · exact .fault _
  · rename_i e
    exact .next (KeepsWf.bindRead.error e h)

theorem wf_takeAnswer {s k v} (h : MemWf s) : MemWf (takeAnswer s k v) := by
  unfold takeAnswer
  split
  · exact h
  split
  · exact wf_completeWord _ _ h
  · exact wf_completeWord _ _ h
  · exact h

theorem KeepsWf.readTable {s m t} : KeepsWf (readTable s m t) :=
  .bind .sowerRead fun _ => .pure _

theorem OutWf.execFirstFetch {m s} (h : MemWf s) : OutWf (execFirstFetch m s) := by
  unfold Machine.execFirstFetch
  split
  · exact .next h
  refine .ite (.next h) ?_
  extract_lets s1 s2 s3 s4 s5
  have answered : MemWf s1 := by
    refine wf_foldl (fun _ a hs => ?_) h
    split
    · exact wf_takeAnswer hs
    · exact hs
  have freed : MemWf s2 := by
    unfold s2
    split
    · exact answered
    · exact wf_updPart answered
  exact .next (wf_haltForReports (wf_updInv (wf_updMcb freed)))

theorem OutWf.execDecoderTableInitLoad {core dt s} (h : MemWf s) : OutWf (execDecoderTableInitLoad core dt s) := by
  unfold Machine.execDecoderTableInitLoad
  split
  · exact .next h
  refine .ite (.next h) ?_
  dsimp only
  split
  · rename_i e
    exact .next (wf_updCore (wf_updCore (KeepsWf.readTable.ok e h)))
  · rename_i e
    exact .next (wf_report _ _ (wf_updCore (KeepsWf.readTable.error e h)))
  · rename_i e
    exact .next (KeepsWf.readTable.error e h)
  · exact .fault _

/-! ## Image -/

theorem wf_answerImage {s m k entry} (h : MemWf s) : MemWf (answerImage s m k entry) := by
  unfold answerImage
  dsimp only
  split
  · exact h
  · exact wf_ite h (wf_ite (wf_putBytes _ _ _ h) (wf_putBytes _ _ _ h))

/-! ## Interface -/

theorem wf_hostWrite {s iss va bs} (h : MemWf s) : MemWf (hostWrite s iss va bs) :=
  wf_putBytes _ _ _ h

theorem wf_complete {s iss status result} (h : MemWf s) : MemWf (complete s iss status result) := by
  unfold complete
  split
  · exact h
  · exact wf_updIfc (wf_ite (wf_hostWrite h) h)

theorem OutWf.command {s iss may run} (h : MemWf s) (h1 : MemWf run) : OutWf (command s iss may run) :=
  .ite (.next h) (.ite (.next (wf_complete h)) (.next h1))

theorem OutWf.hypOnly {s iss run} (h : MemWf s) (h1 : MemWf run) : OutWf (hypOnly s iss run) :=
  .command h h1

theorem OutWf.pageWrite {s t} (h : MemWf s) (h1 : MemWf t) : OutWf (pageWrite s t) :=
  .next (wf_ite h1 h)

/-! ## Preempt -/

theorem wf_landHold {s k} (h : MemWf s) : MemWf (landHold s k) := by
  unfold landHold
  split
  · exact h
  · exact wf_ite (wf_recordHold _ _ _ _ h) (wf_dropHold _ _ _ h)

theorem wf_landHoard {s k} (h : MemWf s) : MemWf (landHoard s k) :=
  wf_foldl (fun _ _ hs => wf_endHoardWait _ _ _ _ hs) h

theorem OutWf.execPreemptLandComplete {m s} (h : MemWf s) : OutWf (execPreemptLandComplete m s) := by
  unfold Machine.execPreemptLandComplete
  split
  · exact .next h
  · exact .ite (.next h) (.next (wf_foldl (fun _ _ hs => wf_landHoard (wf_landHold hs)) h))

theorem OutWf.execSaveComplete {m s} (h : MemWf s) : OutWf (execSaveComplete m s) := by
  unfold Machine.execSaveComplete
  dsimp only
  split
  · exact .next h
  refine .ite (.next h) ?_
  split
  · exact .next h
  exact .next (wf_foldl (fun _ _ hs => wf_updCore hs) (wf_updInv (wf_updMcb (wf_putBytes _ _ _ h))))

theorem OutWf.execRestoreSaveImage {m s} (h : MemWf s) : OutWf (execRestoreSaveImage m s) := by
  unfold Machine.execRestoreSaveImage
  dsimp only
  split
  · exact .next h
  refine .ite (.next h) ?_
  split
  · exact .next (wf_finish (wf_updRings _ _ (wf_foldl (fun _ _ hs => hs) h)))
  · exact .next (wf_foldl (fun _ _ hs => wf_sendRequest hs) (wf_foldl (fun _ _ hs => hs) h))

theorem wf_lateAccess {s m k g value} (h : MemWf s) : MemWf (lateAccess s m k g value) := by
  unfold lateAccess
  refine wf_countAccess _ _ _ _ _ ?_
  split
  · exact wf_putBytes _ _ _ h
  · exact h

theorem OutWf.execAwaitingAnswerArrival {m core value s} (h : MemWf s) : OutWf (execAwaitingAnswerArrival m core value s) := by
  unfold Machine.execAwaitingAnswerArrival
  split
  · exact .next h
  refine .ite (.next h) ?_
  refine .next (wf_updInv (wf_answerImage ?_))
  split
  · exact h
  · exact wf_lateAccess h

theorem OutWf.answerNow {k s} (h : MemWf s) : OutWf (answerNow k s) := by
  unfold Machine.answerNow
  split
  · exact .ite (.next h) (.execAwaitingAnswerArrival h)
  · exact .next h

theorem wf_failAwaiting {s m k g} (h : MemWf s) : MemWf (failAwaiting s m k g) := by
  unfold failAwaiting
  refine wf_answerImage (wf_reportTo ?_)
  split
  · exact wf_updCore (wf_updInv h)
  · exact wf_updMcb (wf_updInv h)

theorem wf_endAnswer {s k g} (h : MemWf s) : MemWf (endAnswer s k g) := by
  unfold endAnswer
  split
  · exact wf_failAwaiting h
  dsimp only
  split
  · exact h
  · exact wf_ite h (wf_threadFault _ _ h)

theorem OptWf.lateFlight {s nepol k} (h : MemWf s) : OptWf (lateFlight s nepol k) :=
  .map fun _ => wf_reportTo (wf_updCore h)

theorem OptWf.lateSwitch {s nepol k} (h : MemWf s) : OptWf (lateSwitch s nepol k) :=
  .map fun _ => wf_foldl (fun _ _ hs => wf_reportTo hs) h

theorem OptWf.lateCmd {s nepol k} (h : MemWf s) : OptWf (lateCmd s nepol k) :=
  .bind fun _ => .ite (.some (wf_putCmd h)) (.ite (.some (wf_endFaulted h)) .none)

theorem OptWf.lateTask {s nepol k} (h : MemWf s) : OptWf (lateTask s nepol k) := by
  unfold Machine.lateTask
  dsimp only
  split
  · exact .none
  split
  · exact .ite .none (.ite (.some (wf_putTask h)) (.ite (.some (wf_taskFault (wf_endTask h))) .none))
  · exact .ite .none (.map fun _ => wf_noteReady (wf_taskFault (wf_takenOut h)))
  · exact .none

theorem wf_endLate {s nepol k} (h : MemWf s) : MemWf (endLate s nepol k) := by
  unfold endLate
  split
  · exact wf_endAnswer h
  · exact wf_getD (.or (.or (.or (.lateFlight h) (.lateSwitch h)) (.lateCmd h)) (.lateTask h)) h

theorem OutWf.execCompletionTimeout {core s} (h : MemWf s) : OutWf (execCompletionTimeout core s) :=
  .next (wf_endLate h)

theorem OutWf.execNepolPathTimeout {core s} (h : MemWf s) : OutWf (execNepolPathTimeout core s) :=
  .next (wf_endLate h)

theorem wf_watchNotice {s m req} (h : MemWf s) : MemWf (watchNotice s m req) :=
  wf_ite (wf_missRing h) h

theorem OutWf.execT1Expiry {m s} (h : MemWf s) : OutWf (execT1Expiry m s) := by
  unfold Machine.execT1Expiry
  dsimp only
  split
  · exact .next h
  have noted : MemWf (setLadder s m .t1done) := wf_setLadder h
  have skipped := wf_updPart (p := (mcbAt s m).part.toNat) (f := fun p => p.bump 2) noted
  exact .ite (.next h) (.ite (.next (wf_watchNotice noted)) (.ite (.next skipped)
    (.next (wf_getD (.requestPreempt noted) skipped))))

theorem OutWf.execT2Expiry {m s} (h : MemWf s) : OutWf (execT2Expiry m s) := by
  unfold Machine.execT2Expiry
  dsimp only
  split
  · exact .next h
  · exact .ite (.next h) (.ite (.next (wf_watchNotice h)) (.next (wf_startKill _ _ h)))

theorem OutWf.execT3Expiry {m s} (h : MemWf s) : OutWf (execT3Expiry m s) := by
  unfold Machine.execT3Expiry
  dsimp only
  split
  · exact .next h
  exact .ite (.next h) (.next (wf_finish (wf_foldl (fun _ _ hs => hs) (wf_updRings _ _ (wf_endWaits h)))))

theorem wf_logSkew {s parts agent cycle deviation} (h : MemWf s) : MemWf (logSkew s parts agent cycle deviation) :=
  wf_foldl (fun _ _ hs => hs) h

theorem OutWf.execSkewEvent {agent deviation s} (h : MemWf s) : OutWf (execSkewEvent agent deviation s) := by
  unfold Machine.execSkewEvent
  refine .ite (.next h) ?_
  split
  · refine .ite ?_ ?_
    · exact .next (wf_updCore (wf_logSkew (wf_updCore (wf_updIsland (wf_updCore h)))))
    dsimp only
    split
    · exact .next (wf_updCore (wf_updCore (wf_logSkew (wf_updCore (wf_updIsland (wf_updCore h))))))
    exact .next (wf_startKill _ _ (wf_updCore (wf_updCore (wf_logSkew (wf_updCore (wf_updIsland (wf_updCore h)))))))
  · exact .next (wf_logSkew (wf_updCore (wf_updIsland (wf_updCore h))))
  · exact .next (wf_logSkew h)

theorem OutWf.execFaultReplyResume {iss m s} (h : MemWf s) : OutWf (execFaultReplyResume iss m s) := by
  unfold Machine.execFaultReplyResume
  refine .command h ?_
  split
  · exact wf_complete h
  · exact wf_ite (wf_complete (wf_resumePlot h)) (wf_complete h)

theorem OutWf.execFaultReplyResumeHandler {iss m s} (h : MemWf s) : OutWf (execFaultReplyResumeHandler iss m s) := by
  unfold Machine.execFaultReplyResumeHandler
  refine .command h ?_
  split
  · exact wf_complete h
  · exact wf_ite (wf_complete (wf_resumePlot h)) (wf_complete h)

theorem OutWf.execFaultReplyKill {iss m s} (h : MemWf s) : OutWf (execFaultReplyKill iss m s) := by
  unfold Machine.execFaultReplyKill
  refine .command h ?_
  split
  · exact wf_complete h
  · exact wf_ite (wf_complete (wf_startKill _ _ h)) (wf_complete h)

/-! ## Blocks -/

theorem wf_commandPlace {s m obj sp off} (h : MemWf s) : MemWf (commandPlace s m obj sp off).2 := by
  unfold commandPlace
  split <;> exact h

theorem wf_queuedEntries {m n j s} (h : MemWf s) : MemWf (queuedEntries m n j s).2 := by
  induction n generalizing j s with
  | zero => exact h
  | succ n ih =>
    have placed : MemWf (commandPlace s m (mcbAt s m).queue.obj 0 (4096 * (j % (mcbAt s m).entriesN))).2 := wf_commandPlace h
    unfold queuedEntries
    extract_lets b x
    split
    · exact ih placed
    · exact ih placed

theorem wf_requeue {s m} (h : MemWf s) : MemWf (requeue s m) :=
  wf_queuedEntries h

theorem wf_freshPage {s sp page enc} (h : MemWf s) : MemWf (freshPage s sp page enc) :=
  wf_markDirty _ _ (Memory.wf_filter _ h)

theorem wf_fillPages {s g enc i ps} (h : MemWf s) : MemWf (fillPages s g enc i ps) := by
  induction ps generalizing s i with
  | nil => exact h
  | cons p ps ih => exact ih (wf_putBytes _ _ _ (wf_freshPage h))

theorem wf_placeSeg {b s p} (h : MemWf s) : MemWf (placeSeg b s p) :=
  wf_externalWrite (wf_putBytes _ _ _ (wf_foldl (fun _ _ hs => wf_freshPage hs) (wf_ite h (wf_fillPages h))))

theorem wf_tagTable {s plans named} (h : MemWf s) : MemWf (tagTable s plans named) := by
  unfold tagTable
  split <;> exact h

theorem wf_installRun {iss a s} (h : MemWf s) : MemWf (installRun iss a s) := by
  unfold installRun
  split
  · exact wf_complete h
  refine wf_ite (wf_complete h) (wf_ite (wf_complete h) ?_)
  split
  · exact wf_complete h
  refine wf_ite (wf_complete h) (wf_ite (wf_complete h) (wf_ite (wf_complete h) ?_))
  split
  · exact wf_complete h
  · exact wf_complete h
  extract_lets _ _ _ _ s1 s2
  have left : MemWf s1 := h
  have placed : MemWf s2 := wf_foldl (fun _ _ hs => wf_placeSeg hs) left
  exact wf_complete (wf_requeue (wf_setMcb (wf_tagTable placed)))

theorem OutWf.execInstall {iss a s} (h : MemWf s) : OutWf (execInstall iss a s) :=
  .command h (wf_installRun h)

theorem wf_tablePlace {s m c} (h : MemWf s) : MemWf (tablePlace s m c).2 :=
  wf_commandPlace h

theorem OutWf.execMcbWrite {iss m mask value s} (h : MemWf s) : OutWf (execMcbWrite iss m mask value s) := by
  unfold Machine.execMcbWrite
  extract_lets old v b0 place b s1 moves
  have placed : MemWf s1 := wf_ite_snd h (wf_tablePlace h)
  refine .command h (wf_ite (wf_complete placed) (wf_ite (wf_complete placed) ?_))
  split
  · exact wf_complete placed
  extract_lets s2 s3 s4
  have left : MemWf (if moves then leaveTable s1 m else s1) := wf_ite (wf_leaveTable placed) placed
  have set : MemWf s2 := wf_setMcb (wf_updPart left)
  have queued : MemWf s3 := wf_ite set (wf_requeue set)
  exact wf_complete (wf_ite (wf_updMcb queued) queued)

theorem OutWf.execMcbRemove {iss m s} (h : MemWf s) : OutWf (execMcbRemove iss m s) :=
  .command h (wf_ite (wf_complete h) (wf_ite (wf_complete h) (wf_complete h)))

theorem OutWf.execCapWrite {iss m index entry s} (h : MemWf s) : OutWf (execCapWrite iss m index entry s) := by
  unfold Machine.execCapWrite
  refine .command h ?_
  refine wf_ite (wf_complete h) ?_
  dsimp only
  split
  · exact wf_complete (wf_commandPlace h)
  · exact wf_complete (wf_externalWrite (wf_commandPlace h))

theorem OutWf.execRevoke {iss m obj npages s} (h : MemWf s) : OutWf (execRevoke iss m obj npages s) := by
  unfold Machine.execRevoke
  extract_lets b d from_ new gone s1 s2
  have written : MemWf s1 := wf_externalWrite h
  have dropped : MemWf s2 := wf_updMcb written
  clear_value s2
  exact .command h (wf_ite (wf_complete h) dropped)

theorem OutWf.execRevokeWaitEnd {nth s} (h : MemWf s) : OutWf (execRevokeWaitEnd nth s) := by
  unfold Machine.execRevokeWaitEnd
  refine .next ?_
  split
  · exact wf_ite h (wf_complete h)
  · exact wf_ite h h
  · exact h

/-! ## Streams -/

theorem KeepsWf.checkDobj {x off n align need} : KeepsWf (checkDobj x off n align need) :=
  .ite .raise_bind (.ite .raise_bind (.ite .raise_bind (.ite (.raise _ _ _) (.pure _))))

theorem KeepsWf.streamRead {n x off len align} : KeepsWf (streamRead n x off len align) := by
  unfold Machine.streamRead
  exact .bind .checkDobj fun _ => .bind (.resolve _ _ _ _ _) fun _ => .bind .answers fun _ => .bind (.checkLines _ _ _) fun _ =>
    .bind (.readPiece _ _ _ _ _) fun _ => .bind (keepsWf_modify fun _ hs => wf_countAccess _ _ _ _ _ hs) fun _ => .bind
    (.watchAccess _ _ _ _ _) fun _ => .pure _

theorem KeepsWf.streamWord {n x off} : KeepsWf (streamWord n x off) :=
  .bind .streamRead fun _ => .pure _

theorem KeepsWf.streamWrite {n x off len f need kind} : KeepsWf (streamWrite n x off len f need kind) := by
  unfold Machine.streamWrite
  exact .bind .checkDobj fun _ => .bind .needSys fun _ => .bind (.resolve _ _ _ _ _) fun _ => .bind .answers fun _ => .bind
    (.checkLines _ _ _) fun _ => .bind (.readPiece _ _ _ _ _) fun _ => .bind (.writePiece _ _ _ _ _ _ _) fun _ => .bind
    (.watchAccess _ _ _ _ _) fun _ => keepsWf_modify fun _ hs => wf_updStream hs

theorem wf_streamAcquire {n x key s} (h : MemWf s) : MemWf (streamAcquire n x key s) :=
  wf_updStream h

theorem wf_streamJoin {n x key s} (h : MemWf s) : MemWf (streamJoin n x key s) :=
  wf_updStream h

theorem wf_setStrstat {s x v} (h : MemWf s) : MemWf (setStrstat s x v) := by
  unfold setStrstat
  split <;> exact h

theorem wf_setLastst {s x v} (h : MemWf s) : MemWf (setLastst s x v) := by
  unfold setLastst
  split <;> exact h

theorem wf_streamFault {s n x code off} (h : MemWf s) : MemWf (streamFault s n x code off) :=
  wf_setStrstat (wf_updStream h)

theorem wf_leaveBuffers {fuel s n} (h : MemWf s) : MemWf (leaveBuffers fuel s n) := by
  induction fuel generalizing s with
  | zero => exact h
  | succ fuel ih =>
    unfold leaveBuffers
    split
    · exact h
    · exact wf_ite h (wf_ite (wf_streamFault h) (ih (wf_updStream h)))

theorem wf_accessWaits {s n x g} (h : MemWf s) : MemWf (accessWaits s n x g) :=
  wf_ite (wf_updStream h) (wf_updStream h)

theorem wf_fetchBlock {n lo hi s} (h : MemWf s) : MemWf (fetchBlock n lo hi s).2 := by
  unfold fetchBlock
  split
  · exact h
  dsimp only
  split
  · exact h
  split
  · exact wf_updStream h
  split
  · rename_i e
    exact wf_updStream (wf_of_got .streamRead h e)
  · rename_i e
    exact wf_updStream (wf_of_fail .streamRead h e)
  · rename_i e
    have read := wf_of_wait .streamRead h e
    exact wf_ite_snd (wf_updStream read) (wf_accessWaits (wf_updStream read))
  · exact wf_updStream h

theorem wf_fetchWindow {n s} (h : MemWf s) : MemWf (fetchWindow n s).2 := by
  unfold fetchWindow
  split
  · exact h
  · exact wf_ite_snd (wf_updStream h) (wf_foldl_snd (fun _ _ hs => wf_ite_snd (wf_fetchBlock hs) hs) h)

theorem wf_waitRecord {s st x key out setter} (h : MemWf s) : MemWf (waitRecord s st x key out setter) :=
  wf_pushWait _ _ h

theorem wf_closeStream {s n} (h : MemWf s) : MemWf (closeStream s n) := by
  unfold closeStream
  split
  · exact h
  rename_i x _
  extract_lets s1 s2 s3
  have recorded : MemWf s1 := by
    unfold s1
    split
    · split
      · exact wf_waitRecord h
      · exact h
    · exact h
  have erased : MemWf s2 := recorded
  have answered : MemWf s3 := by
    unfold s3
    split
    · exact erased
    · exact wf_complete erased
  split
  · exact wf_updIfc answered
  · exact wf_updHart answered
  · exact answered

theorem wf_packetOver {s n} (h : MemWf s) : MemWf (packetOver s n) :=
  wf_ite (wf_closeStream h) h

theorem wf_packetDone {s n words go} (h : MemWf s) : MemWf (packetDone s n words go) :=
  wf_packetOver (wf_ite (wf_fetchWindow (wf_leaveBuffers (wf_updStream h))) (wf_leaveBuffers (wf_updStream h)))

theorem wf_packetFault {s n x code} (h : MemWf s) : MemWf (packetFault s n x code) :=
  wf_packetOver (wf_streamFault h)

theorem wf_streamWaits {s n w} (h : MemWf s) : MemWf (streamWaits s n w) :=
  wf_updStream h

theorem OutWf.onStream {s n f} (hf : ∀ a, OutWf (f a)) (h : MemWf s) : OutWf (onStream s n f) := by
  unfold Machine.onStream
  split
  · exact .next h
  · exact .ite (hf _) (.next h)

theorem OutWf.withAccess {α : Type} {s n x f} {a : M α} (ha : KeepsWf a) (hf : ∀ v s, MemWf s → MemWf (f v s)) (h : MemWf s) :
    OutWf (withAccess s n x a f) := by
  unfold Machine.withAccess
  split
  · rename_i e
    exact .next (hf _ _ (wf_of_got ha h e))
  · rename_i e
    exact .next (wf_packetFault (wf_of_fail ha h e))
  · rename_i e
    have tried := wf_of_wait ha h e
    refine .ite (.next (wf_packetFault tried)) ?_
    extract_lets t
    have waits : MemWf t := wf_accessWaits (wf_ite (wf_count tried) tried)
    exact .next (wf_ite waits (wf_streamWaits waits))
  · exact .fault _

theorem OutWf.execPktNop {st len s} (h : MemWf s) : OutWf (execPktNop st len s) :=
  .onStream (fun _ => .next (wf_packetDone h)) h

theorem wf_launchPacket {s st x w funcid arg} (h : MemWf s) : MemWf (launchPacket s st x w funcid arg) := by
  unfold launchPacket
  refine wf_ite (wf_packetDone h) ?_
  split
  · exact wf_packetFault h
  exact wf_ite (wf_packetDone (wf_ite (wf_setLastst h) h)) (wf_ite (wf_streamWaits h) (wf_ite (wf_streamWaits (wf_updStream
    (wf_enqueue h))) (wf_packetDone (wf_updStream (wf_enqueue h)))))

theorem OutWf.execPktLaunch {st w funcid arg s} (h : MemWf s) : OutWf (execPktLaunch st w funcid arg s) :=
  .onStream (fun _ => .next (wf_launchPacket h)) h

theorem OutWf.execLaunchEnqueueRetry {st s} (h : MemWf s) : OutWf (execLaunchEnqueueRetry st s) := by
  unfold Machine.execLaunchEnqueueRetry
  split
  · split
    · exact .next (wf_launchPacket h)
    · exact .next h
  · exact .next h

theorem OutWf.execLaunchRetireWaitEnd {st s} (h : MemWf s) : OutWf (execLaunchRetireWaitEnd st s) := by
  unfold Machine.execLaunchRetireWaitEnd
  split
  · split
    · split
      · exact .next h
      · exact .next (wf_packetDone (wf_setLastst (wf_updStream h)))
    · exact .next h
  · exact .next h

theorem wf_enterPacket {s st x words b} (h : MemWf s) : MemWf (enterPacket s st x words b) := by
  unfold enterPacket
  split
  · exact wf_packetFault h
  · exact wf_packetDone h

theorem OutWf.execPktIb {st buf s} (h : MemWf s) : OutWf (execPktIb st buf s) :=
  .onStream (fun _ => .next (wf_ite (wf_packetFault h) (wf_enterPacket h))) h

theorem OutWf.execPktPred {st cond addr ref mask count s} (h : MemWf s) : OutWf (execPktPred st cond addr ref mask count s) :=
  .onStream (fun _ => .ite (.next (wf_packetFault h)) (.ite (.next (wf_packetFault h)) (.withAccess .streamWord (fun _ _ hs =>
    wf_ite (wf_packetDone (wf_streamAcquire hs)) (wf_packetDone (wf_streamAcquire hs))) h))) h

theorem OutWf.execPktLoop {st trips s} (h : MemWf s) : OutWf (execPktLoop st trips s) :=
  .onStream (fun _ => .next (wf_ite (wf_packetDone h) (wf_ite (wf_packetFault h) (wf_packetDone h)))) h

theorem OutWf.execPktEndloop {st s} (h : MemWf s) : OutWf (execPktEndloop st s) := by
  unfold Machine.execPktEndloop
  refine .onStream (fun _ => .next ?_) h
  split
  · exact wf_packetFault h
  · exact wf_ite (wf_packetFault h) (wf_ite (wf_packetDone h) (wf_packetDone h))

theorem OutWf.execPktWrite {st wide addr value s} (h : MemWf s) : OutWf (execPktWrite st wide addr value s) :=
  .onStream (fun _ => .withAccess .streamWrite (fun _ _ hs => wf_packetDone hs) h) h

theorem wf_waitPacketRecord {s st x key} (h : MemWf s) : MemWf (waitPacketRecord s st x key) :=
  wf_waitRecord h

theorem OutWf.waitWord {s st x cond addr ref mask} (h : MemWf s) : OutWf (waitWord s st x cond addr ref mask) :=
  .withAccess .streamWord (fun _ _ hs => wf_ite (wf_packetDone (wf_ite (wf_waitPacketRecord (wf_streamJoin hs)) (wf_streamJoin
    hs))) (wf_streamWaits hs)) h

theorem OutWf.execPktWaitFlag {st cond addr ref mask s} (h : MemWf s) : OutWf (execPktWaitFlag st cond addr ref mask s) :=
  .onStream (fun _ => .ite (.next (wf_packetFault h)) (.waitWord h)) h

theorem OutWf.execWaitReread {st s} (h : MemWf s) : OutWf (execWaitReread st s) := by
  unfold Machine.execWaitReread
  split
  · split
    · exact .waitWord h
    · exact .next h
  · exact .next h

theorem OutWf.execPktWaitTime {st bound s} (h : MemWf s) : OutWf (execPktWaitTime st bound s) :=
  .onStream (fun _ => .next (wf_ite (wf_packetDone h) (wf_streamWaits h))) h

theorem OutWf.execWaitTimeEnd {st s} (h : MemWf s) : OutWf (execWaitTimeEnd st s) := by
  unfold Machine.execWaitTimeEnd
  split
  · split
    · exact .next (wf_ite (wf_packetDone h) h)
    · exact .next h
  · exact .next h

theorem OutWf.signalNow {s st x notify addr addend} (h : MemWf s) : OutWf (signalNow s st x notify addr addend) := by
  unfold Machine.signalNow
  exact .withAccess .streamWrite (fun _ _ hs => wf_packetDone (by split <;> exact wf_updStream hs)) h

theorem OutWf.execPktSignal {st notify addr addend s} (h : MemWf s) : OutWf (execPktSignal st notify addr addend s) :=
  .onStream (fun _ => .ite (.signalNow h) (.next (wf_streamWaits h))) h

theorem OutWf.execSignalAdd {st s} (h : MemWf s) : OutWf (execSignalAdd st s) := by
  unfold Machine.execSignalAdd
  split
  · split
    · exact .ite (.signalNow h) (.next h)
    · exact .next h
  · exact .next h

theorem OutWf.execPktFfence {st s} (h : MemWf s) : OutWf (execPktFfence st s) :=
  .onStream (fun _ => .next (wf_streamWaits h)) h

theorem OutWf.execFfenceRefetch {st s} (h : MemWf s) : OutWf (execFfenceRefetch st s) := by
  unfold Machine.execFfenceRefetch
  split
  · split
    · exact .next (wf_packetDone h)
    · exact .next h
  · exact .next h

theorem OutWf.execPktCond {st cond addr ref thenBuf elseBuf s} (h : MemWf s) : OutWf (execPktCond st cond addr ref thenBuf
  elseBuf
  s) :=
  .onStream (fun _ => .ite (.next (wf_packetFault h)) (.withAccess .streamWord (fun _ _ hs => wf_enterPacket (wf_streamAcquire
    hs)) h)) h

theorem OutWf.execPktSwitch {st addr dflt cases s} (h : MemWf s) : OutWf (execPktSwitch st addr dflt cases s) :=
  .onStream (fun _ => .ite (.next (wf_packetFault h)) (.withAccess .streamWord (fun _ _ hs => wf_enterPacket (wf_streamAcquire
    hs)) h)) h

theorem OutWf.execPktEnd {st s} (h : MemWf s) : OutWf (execPktEnd st s) :=
  .onStream (fun _ => .next (wf_ite (wf_packetFault h) (wf_ite (wf_packetDone h) (wf_packetDone h)))) h

theorem OutWf.runPacket {n type flags len ws s} (h : MemWf s) : OutWf (runPacket n type flags len ws s) := by
  unfold Machine.runPacket
  dsimp only
  split
  · exact .execPktNop h
  · exact .execPktLaunch h
  · exact .execPktIb h
  · exact .execPktPred h
  · exact .execPktLoop h
  · exact .execPktEndloop h
  · exact .execPktWrite h
  · exact .ite (.execPktWaitTime h) (.execPktWaitFlag h)
  · exact .execPktSignal h
  · exact .execPktFfence h
  · exact .execPktCond h
  · exact .execPktSwitch h
  · exact .execPktEnd h

theorem wf_skipPacket {s n type words} (h : MemWf s) : MemWf (skipPacket s n type words) :=
  wf_leaveBuffers (wf_updStream h)

theorem OutWf.packetStep {n s0} (h : MemWf s0) : OutWf (packetStep n s0) := by
  unfold Machine.packetStep
  split
  · exact .next h
  refine .ite (.next h) (.ite (.next (wf_packetFault h)) ?_)
  extract_lets r s x waits
  have fetched : MemWf s := wf_fetchWindow h
  have waiting : OutWf (.next waits) := .next (wf_streamWaits (wf_ite (wf_count fetched) fetched))
  clear_value s waits
  refine .ite waiting ?_
  split
  · exact waiting
  · exact .next (wf_packetFault fetched)
  refine .ite (.next (wf_ite fetched (wf_packetFault fetched))) (.ite (.next (wf_skipPacket fetched))
    (.ite (.next (wf_packetFault fetched)) (.ite (.next (wf_packetFault fetched)) ?_)))
  split
  · exact waiting
  · exact .next (wf_packetFault fetched)
  · exact .runPacket fetched

theorem OutWf.streamStep {n s} (h : MemWf s) : OutWf (streamStep n s) := by
  unfold Machine.streamStep
  split
  · exact .next h
  rename_i x _
  refine .ite (.next h) ?_
  rcases x.wait with _ | w
  · exact .packetStep h
  cases w with
  | launchFull => exact .execLaunchEnqueueRetry h
  | retire => exact .execLaunchRetireWaitEnd h
  | flag => exact .execWaitReread h
  | time => exact .execWaitTimeEnd h
  | signal => exact .execSignalAdd h
  | ffence => exact .execFfenceRefetch h
  | page => exact .packetStep h

theorem OutWf.execStreamOpen {iss m obj perm ring tail s} (h : MemWf s) : OutWf (execStreamOpen iss m obj perm ring tail s) := by
  unfold Machine.execStreamOpen
  exact .command h (wf_ite (wf_complete h) (wf_ite (wf_complete h) (wf_complete (by split <;> exact h))))

theorem OutWf.execStreamTail {iss st tail s} (h : MemWf s) : OutWf (execStreamTail iss st tail s) := by
  unfold Machine.execStreamTail
  refine .command h ?_
  split
  · exact wf_complete h
  · exact wf_complete (wf_leaveBuffers (wf_updStream h))

theorem OutWf.execStreamClose {iss st s} (h : MemWf s) : OutWf (execStreamClose iss st s) := by
  unfold Machine.execStreamClose
  refine .command h ?_
  split
  · exact wf_complete h
  · exact wf_ite (wf_complete h) (wf_ite (wf_updStream h) (wf_complete (wf_closeStream h)))

/-! ## Admin -/

theorem OutWf.execQpCreate {iss m px py peer s} (h : MemWf s) : OutWf (execQpCreate iss m px py peer s) :=
  .command h (wf_ite (wf_complete h) (wf_complete h))

theorem OutWf.execQpDestroy {iss qp s} (h : MemWf s) : OutWf (execQpDestroy iss qp s) := by
  unfold Machine.execQpDestroy
  split <;> exact .command h (wf_complete h)

theorem OutWf.execPartition {iss a s} (h : MemWf s) : OutWf (execPartition iss a s) :=
  .hypOnly h (wf_ite (wf_complete h) (wf_ite (wf_complete h) (wf_complete (wf_updPart (wf_foldl (fun _ _ hs => hs) (wf_foldl (fun
    _ _ hs => wf_ite hs (wf_ite hs hs)) (wf_foldl (fun _ _ hs => wf_ite hs (wf_ite hs hs)) h)))))))

theorem OutWf.execKeyslot {iss slot keys parts s} (h : MemWf s) : OutWf (execKeyslot iss slot keys parts s) := by
  unfold Machine.execKeyslot
  exact .hypOnly h (by split <;> exact wf_complete h)

theorem OutWf.execBitmapSwitchComplete {s} (h : MemWf s) : OutWf (execBitmapSwitchComplete s) := by
  unfold Machine.execBitmapSwitchComplete
  refine .next ?_
  split
  · exact h
  refine wf_ite h ?_
  dsimp only
  split
  · exact wf_complete h
  · exact h

theorem wf_unbind {s m} (h : MemWf s) : MemWf (unbind s m) := by
  unfold unbind
  refine wf_ite h ?_
  dsimp only
  split
  · exact wf_foldl (fun _ _ hs => wf_ite hs hs) h
  exact wf_ite (wf_updMcb (wf_foldl (fun _ _ hs => wf_ite hs hs) h)) (wf_updMcb (wf_foldl (fun _ _ hs => wf_ite hs hs) h))

theorem OptWf.preemptAll {ms s} (h : MemWf s) : OptWf (preemptAll ms s) := by
  -- for any request that keeps memory well formed: the kernel must not evaluate this one
  have hr : ∀ {s m}, MemWf s → OptWf (Machine.requestPreempt s m) := .requestPreempt
  delta Machine.preemptAll Machine.preemptAll._f
  generalize Machine.requestPreempt = request at hr ⊢
  induction ms generalizing s with
  | nil => exact .some h
  | cons m ms ih =>
    refine .ite ?_ (ih h)
    have requested : OptWf (request s m) := hr h
    cases e : request s m with
    | none => exact .none
    | some t => exact ih (requested t e)

theorem wf_setFrozen {s parts f} (h : MemWf s) : MemWf (setFrozen s parts f) :=
  wf_foldl (fun _ _ hs => wf_ite hs hs) h

theorem OutWf.execCheckpoint {iss parts target dirty stayFrozen s} (h : MemWf s) :
    OutWf (execCheckpoint iss parts target dirty stayFrozen s) := by
  have frozen : MemWf (setFrozen s parts true) := wf_setFrozen h
  refine .hypOnly h (wf_ite (wf_complete h) ?_)
  split
  · exact wf_complete h
  · rename_i e
    have preempted := OptWf.preemptAll (wf_foldl (fun _ _ hs => wf_unbind hs) frozen) _ e
    exact preempted

theorem wf_writeStreams {target r bss s} (h : MemWf s) : MemWf (writeStreams target r bss s) := by
  induction bss generalizing r s with
  | nil => exact h
  | cons bs bss ih =>
    cases target with
    | pmem base => exact ih (wf_pmem (wf_putBytes _ _ _ h))
    | qps l => exact ih (wf_transmitRdma h)

theorem OutWf.execCheckpointStreamsWritten {s} (h : MemWf s) : OutWf (execCheckpointStreamsWritten s) := by
  unfold Machine.execCheckpointStreamsWritten
  refine .next ?_
  split
  · exact h
  exact wf_ite h (wf_complete (wf_ite (wf_writeStreams h) (wf_setFrozen (wf_writeStreams h))))

theorem wf_killAll {s m} (h : MemWf s) : MemWf (killAll s m) := by
  unfold killAll
  refine wf_ite ?_ ?_
  · exact wf_startKill _ _ (wf_updMcb (wf_ite (wf_foldl (fun _ _ hs => wf_entryAnswer hs) h) (wf_foldl (fun _ _ hs =>
      wf_entryAnswer hs) h)))
  exact wf_finish (wf_updMcb (wf_ite (wf_foldl (fun _ _ hs => wf_entryAnswer hs) h) (wf_foldl (fun _ _ hs => wf_entryAnswer
    hs) h)))

theorem wf_dropMessage {s part} (h : MemWf s) : MemWf (dropMessage s part) :=
  wf_ite h h

theorem wf_closeStreams {s part} (h : MemWf s) : MemWf (closeStreams s part) :=
  wf_foldl (fun _ _ hs => wf_closeStream hs) h

theorem OutWf.execPartitionReset {iss part s} (h : MemWf s) : OutWf (execPartitionReset iss part s) :=
  .hypOnly h (wf_ite (wf_complete h) (wf_ite (wf_complete h) (wf_closeStreams (wf_dropMessage (wf_foldl (fun _ _ hs => wf_killAll
    hs) h)))))

theorem wf_scrubRun {s sp run} (h : MemWf s) : MemWf (scrubRun s sp run) :=
  wf_foldl (fun _ _ hs => wf_markDirty _ _ hs) (Memory.wf_filter _ h)

theorem wf_resetWaiting {part inPool s w} (h : MemWf s) : MemWf (resetWaiting part inPool s w) := by
  unfold resetWaiting
  dsimp only
  split
  · exact wf_ite (wf_complete h) h
  · exact h
  · exact h
  · exact h

theorem OutWf.execScrubComplete {part s} (h : MemWf s) : OutWf (execScrubComplete part s) := by
  unfold Machine.execScrubComplete
  refine .next ?_
  refine wf_ite h ?_
  dsimp only
  split
  · exact wf_complete (wf_updPart (wf_scrubRun (wf_scrubRun (wf_foldl (fun _ _ hs => wf_ite hs hs) (wf_foldl (fun _ _ hs =>
      wf_resetWaiting hs) (wf_closeStreams (wf_dropMessage h)))))))
  exact wf_updPart (wf_scrubRun (wf_scrubRun (wf_foldl (fun _ _ hs => wf_ite hs hs) (wf_foldl (fun _ _ hs => wf_resetWaiting hs)
    (wf_closeStreams (wf_dropMessage h))))))

/-! ## Debug -/

theorem OutWf.bankCommand {s iss part unit bad run} (hrun : ∀ a, MemWf (run a)) (h : MemWf s) : OutWf (bankCommand s iss part
  unit
  bad run) :=
  .command h (wf_ite (wf_complete h) (hrun _))

theorem wf_setBank {s iss part unit b result} (h : MemWf s) : MemWf (setBank s iss part unit b result) :=
  wf_complete h

theorem OutWf.execBankClaim {iss part unit s} (h : MemWf s) : OutWf (execBankClaim iss part unit s) :=
  .bankCommand (fun _ => wf_setBank h) h

theorem OutWf.execBankRelease {iss part unit s} (h : MemWf s) : OutWf (execBankRelease iss part unit s) :=
  .bankCommand (fun _ => wf_setBank h) h

theorem OutWf.execBankRead {iss part unit va s} (h : MemWf s) : OutWf (execBankRead iss part unit va s) :=
  .bankCommand (fun _ => wf_ite (wf_complete h) (wf_setBank (wf_ite (wf_hostWrite h) h))) h

theorem OutWf.execBankWrite {iss part unit sel s} (h : MemWf s) : OutWf (execBankWrite iss part unit sel s) :=
  .bankCommand (fun _ => wf_ite (wf_complete h) (wf_setBank h)) h

theorem OutWf.execSnapshot {iss part va s} (h : MemWf s) : OutWf (execSnapshot iss part va s) :=
  .command h (wf_complete (wf_hostWrite h))

theorem OutWf.execBpWrite {iss part n value s} (h : MemWf s) : OutWf (execBpWrite iss part n value s) :=
  .command h (wf_ite (wf_complete h) (wf_complete h))

theorem OutWf.execWpWrite {iss part n value s} (h : MemWf s) : OutWf (execWpWrite iss part n value s) :=
  .command h (wf_ite (wf_complete h) h)

theorem wf_bindWatch {s w} (h : MemWf s) : MemWf (bindWatch s w) := by
  unfold bindWatch
  split
  · exact wf_ite (wf_complete h) h
  · exact h

theorem wf_bindWatches {s} (h : MemWf s) : MemWf (bindWatches s) :=
  wf_foldl (fun _ _ hs => wf_bindWatch hs) h

theorem OutWf.execSample {iss part cores period unit s} (h : MemWf s) : OutWf (execSample iss part cores period unit s) :=
  .command h (wf_ite (wf_complete h) (wf_ite (wf_complete h) (wf_complete h)))

theorem wf_traceRecord {part unit s bs} (h : MemWf s) : MemWf (traceRecord part unit s bs) :=
  wf_updPart (wf_ite (wf_putBytes _ _ _ h) h)

theorem OutWf.execSampleTick {part s} (h : MemWf s) : OutWf (execSampleTick part s) :=
  .next (wf_ite h (wf_foldl (fun _ _ hs => wf_traceRecord hs) h))

/-! ## Firmware -/

theorem OutWf.zcWord {s run} (hrun : ∀ x, MemWf (run x)) (h : MemWf s) : OutWf (zcWord s run) :=
  .next (wf_ite (hrun _) (wf_illegalHart h))

theorem OutWf.execZcPush {a d s} (h : MemWf s) : OutWf (execZcPush a d s) := by
  refine .zcWord (fun _ => ?_) h
  split
  · exact wf_hartNext h
  · exact wf_ite (wf_hartNext h) (wf_hartNext (wf_updStream h))

theorem wf_finishSwap {s w} (h : MemWf s) : MemWf (finishSwap s w) := by
  unfold finishSwap
  split
  · exact wf_ite h (wf_complete h)
  · exact h

theorem wf_finishSwaps {s} (h : MemWf s) : MemWf (finishSwaps s) :=
  wf_foldl (fun _ _ hs => wf_finishSwap hs) h

theorem OptWf.writeDevice {s n a v} (h : MemWf s) : OptWf (writeDevice s n a v) := by
  unfold Machine.writeDevice
  split
  · exact .ite (.some (wf_updHart h)) .none
  · exact .ite (.some (wf_ite h (wf_updHart h))) .none
  · exact .ite (.some h) .none
  · exact .some (wf_updHart h)
  · exact .none

theorem OptWf.writeCsr {s n a v} (h : MemWf s) : OptWf (writeCsr s n a v) :=
  .ite (.ite (.writeDevice h) .none) (.ite .none (.some (wf_updHart h)))

theorem OutWf.csrWord {s n a v} (h : MemWf s) : OutWf (csrWord s n a v) := by
  refine .next ?_
  split
  · exact wf_illegalHart h
  · rename_i e
    exact wf_countRv (wf_updHart (OptWf.writeCsr h _ e))

theorem OutWf.execFwctlWrite {hart value s} (h : MemWf s) : OutWf (execFwctlWrite hart value s) :=
  .ite (.next (wf_ite h (wf_finishSwaps h))) (.csrWord h)

theorem wf_logCore {s g} (h : MemWf s) : MemWf (logCore s g) :=
  wf_foldl (fun _ _ hs => hs) h

theorem OutWf.execCpHeartbeatTimeout {hart s} (h : MemWf s) : OutWf (execCpHeartbeatTimeout hart s) := by
  unfold Machine.execCpHeartbeatTimeout
  refine .next ?_
  refine wf_ite h ?_
  refine wf_logCore (wf_finishSwaps (wf_updHart ?_))
  split
  · exact wf_closeStream h
  · exact h

/-! ## Power -/

theorem wf_gateIsland {s i clear} (h : MemWf s) : MemWf (gateIsland s i clear) := by
  have off := wf_updIsland (i := i) (f := fun x => { x with powered := false, xtlb2 := [] }) h
  refine wf_ite ?_ (wf_ite ?_ off)
  · exact wf_rdy (wf_foldl (fun _ _ hs => wf_updCore hs) off)
  · exact wf_foldl (fun _ _ hs => wf_updHart hs) off

theorem OutWf.execPower {iss island point gate s} (h : MemWf s) : OutWf (execPower iss island point gate s) :=
  .hypOnly h (wf_ite (wf_complete h) (wf_ite (wf_ite (wf_complete h) (wf_complete (wf_gateIsland h))) (wf_complete h)))

theorem wf_bootHart {s g} (h : MemWf s) : MemWf (bootHart s g) := by
  unfold bootHart
  split <;> exact h

theorem wf_losePower {choice s} (h : MemWf s) : MemWf (losePower choice s) := by
  unfold losePower
  exact wf_afterPowerLoss choice h

theorem OutWf.execSleep {s} (h : MemWf s) : OutWf (execSleep s) := by
  have gated : MemWf ((List.range 24).foldl gateIsland s) := wf_foldl (fun _ _ hs => wf_gateIsland hs) h
  exact .next (wf_ite h (wf_rdy gated))

theorem wf_killInvocation {s m} (h : MemWf s) : MemWf (killInvocation s m) :=
  wf_ite (wf_startKill _ _ h) (wf_ite (wf_finish h) h)

theorem OutWf.execThermalTrip {s} (h : MemWf s) : OutWf (execThermalTrip s) :=
  .next (wf_mctp (wf_foldl (fun _ _ hs => wf_gateIsland hs) (wf_foldl (fun _ _ hs => wf_killInvocation hs) h)))

/-! ## Fabric -/

theorem wf_externalAtomic {s sp addr n f} (h : MemWf s) : MemWf (externalAtomic s sp addr n f) := by
  unfold externalAtomic
  refine wf_ite h ?_
  dsimp only
  split
  · exact wf_watchExternal h
  · exact wf_markBytes _ _ _ _ (wf_stampLines _ _ _ _ (wf_putBytes _ _ _ (wf_watchExternal h)))

theorem wf_performNepol {s q} (h : MemWf s) : MemWf (performNepol s q) := by
  unfold performNepol
  split
  · exact wf_watchExternal h
  · exact wf_externalWrite h
  · exact wf_externalAtomic h
  · exact wf_externalAtomic h

theorem OutWf.execNepolInboundAccess {q s} (h : MemWf s) : OutWf (execNepolInboundAccess q s) :=
  .ite (.next h) (.external (fun _ => wf_performNepol h) h)

theorem wf_resend {win s c} (h : MemWf s) : MemWf (resend win s c) :=
  wf_ite h (wf_externalAtomic h)

theorem OutWf.execNepolSwitchFailure {win resent s} (h : MemWf s) : OutWf (execNepolSwitchFailure win resent s) := by
  unfold Machine.execNepolSwitchFailure
  refine .next ?_
  split
  · exact h
  · exact wf_foldl (fun _ _ hs => wf_resend hs) h

theorem OutWf.execBeaconTimeout {s} (h : MemWf s) : OutWf (execBeaconTimeout s) :=
  .next (wf_ite h (wf_logSkew h))

theorem wf_requestPages {s j pages} (h : MemWf s) : MemWf (requestPages s j pages) :=
  wf_ite h (wf_foldl (fun _ _ hs => wf_transmitRdma hs) h)

theorem OutWf.execSproutJobStart {part die s} (h : MemWf s) : OutWf (execSproutJobStart part die s) := by
  unfold Machine.execSproutJobStart
  refine .next ?_
  split
  · exact h
  · exact wf_ite h (wf_ite h (wf_ite h (wf_requestPages h)))

theorem wf_keepCipher {s0 s from_ into} (h : MemWf s) : MemWf (keepCipher s0 s from_ into) :=
  wf_ite (wf_putBytes _ _ _ h) (wf_enc h)

theorem OutWf.execSproutPageArrival {job data s} (h : MemWf s) : OutWf (execSproutPageArrival job data s) := by
  unfold Machine.execSproutPageArrival
  split
  · exact .next h
  split
  · exact .next h
  refine .ite (.fault _) (.next (wf_externalWrite ?_))
  split
  · exact wf_keepCipher (wf_externalWrite (wf_requestPages h))
  · exact wf_externalWrite (wf_requestPages h)

theorem OutWf.execSproutJobEnd {job sourceError s} (h : MemWf s) : OutWf (execSproutJobEnd job sourceError s) := by
  unfold Machine.execSproutJobEnd
  split
  · exact .next h
  refine .ite (.next h) (.ite (.fault _) ?_)
  extract_lets s1 k
  have written : MemWf s1 := wf_externalWrite h
  clear_value s1
  exact .next written

/-! ## Commands -/

theorem OutWf.runCommand {iss op i s} (h : MemWf s) : OutWf (runCommand iss op i s) := by
  unfold Machine.runCommand
  split
  · exact .execMcbWrite h
  · exact .execMcbRemove h
  · exact .execCapWrite h
  · exact .execRevoke h
  · exact .execStreamOpen h
  · exact .execStreamTail h
  · exact .execStreamClose h
  · exact .execQpCreate h
  · exact .execQpDestroy h
  · exact .execFaultReplyResume h
  · exact .execFaultReplyResumeHandler h
  · exact .execFaultReplyKill h
  · exact .execBankClaim h
  · exact .execBankRelease h
  · exact .execBankRead h
  · exact .execBankWrite h
  · exact .execSnapshot h
  · exact .execBpWrite h
  · exact .execWpWrite h
  · exact .execSample h
  · exact .next (wf_complete h)

theorem OutWf.runDescriptor {ifc d s} (h : MemWf s) : OutWf (runDescriptor ifc d s) := by
  unfold Machine.runDescriptor
  refine .ite (.next (wf_complete h)) (.ite (.next (wf_complete h)) (.ite (.next (wf_complete h)) ?_))
  refine .ite ?_ (.runCommand h)
  split
  · exact .next (wf_complete h)
  · exact .execInstall h

theorem OutWf.commandStep {ifc s} (h : MemWf s) : OutWf (commandStep ifc s) :=
  .ite (.next h) (.ite (.next h) (.runDescriptor h))

/-! ## Integer -/

theorem KeepsWf.binary {d a b f} : KeepsWf (binary d a b f) :=
  .bind .get fun _ => .bind .readS fun _ => .bind .readS fun _ => .bind .roomFor fun _ => .bind .writeS fun _ => .pure _

theorem KeepsWf.unary {d a f} : KeepsWf (unary d a f) :=
  .bind .get fun _ => .bind .readS fun _ => .bind .roomFor fun _ => .bind .writeS fun _ => .pure _

theorem OutWf.execSel {z d a b n p s} (h : MemWf s) : OutWf (execSel z d a b n p s) :=
  .runWord (.bind .readS fun _ => .bind .readS fun _ => .bind .roomFor fun _ => .bind .thread fun _ => .bind .writeS fun _ =>
    .pure _) h

theorem KeepsWf.predOp {d a b f} : KeepsWf (predOp d a b f) :=
  .bind .updThread fun _ => .pure _

/-! ## Dispatch -/

theorem OutWf.exec {i s} (h : MemWf s) : OutWf (exec i s) := by
  unfold Machine.exec
  cases i with
  | add => exact .runWord .binary h
  | sub => exact .runWord .binary h
  | and => exact .runWord .binary h
  | or => exact .runWord .binary h
  | xor => exact .runWord .binary h
  | andn => exact .runWord .binary h
  | sll => exact .runWord .binary h
  | srl => exact .runWord .binary h
  | sra => exact .runWord .binary h
  | rol => exact .runWord .binary h
  | mul => exact .runWord .binary h
  | mulh => exact .runWord .binary h
  | mulhu => exact .runWord .binary h
  | div => exact .runWord .binary h
  | divu => exact .runWord .binary h
  | rem => exact .runWord .binary h
  | remu => exact .runWord .binary h
  | min => exact .runWord .binary h
  | max => exact .runWord .binary h
  | minu => exact .runWord .binary h
  | maxu => exact .runWord .binary h
  | slt => exact .runWord .binary h
  | sltu => exact .runWord .binary h
  | clz => exact .runWord .unary h
  | ctz => exact .runWord .unary h
  | popc => exact .runWord .unary h
  | bswap => exact .runWord .unary h
  | sext => exact .runWord .unary h
  | zext => exact .runWord .unary h
  | cmp => exact .runWord (.bind .readS fun _ => .bind .readS fun _ => .bind .updThread fun _ => .pure _) h
  | cmpi => exact .runWord (.bind .readS fun _ => .bind .updThread fun _ => .pure _) h
  | sel => exact .execSel h
  | pand => exact .runWord .predOp h
  | por => exact .runWord .predOp h
  | pxor => exact .runWord .predOp h
  | pnot => exact .runWord .predOp h
  | pmov => exact .runWord .predOp h
  | addi => exact .runWord .unary h
  | andi => exact .runWord .unary h
  | ori => exact .runWord .unary h
  | xori => exact .runWord .unary h
  | slli => exact .runWord .unary h
  | srli => exact .runWord .unary h
  | srai => exact .runWord .unary h
  | slti => exact .runWord .unary h
  | sltiu => exact .runWord .unary h
  | lui => exact .runWord (.bind .writeS fun _ => .pure _) h
  | br => exact .runWord (.bind .thread fun _ => .pure _) h
  | bp => exact .runWord (.bind .thread fun _ => .pure _) h
  | bnp => exact .runWord (.bind .thread fun _ => .pure _) h
  | call => exact .runWord (.bind .thread fun _ => .bind .writeS fun _ => .pure _) h
  | jmpr => exact .execJmpr h
  | ret => exact .runWord (.bind .readS fun _ => .pure _) h
  | loop => exact .runWord (.bind .readS fun _ => .startLoop) h
  | loopi => exact .runWord .startLoop h
  | lbrk => exact .runWord (.bind .thread fun _ => .ite .raise_bind (.bind .updThread fun _ => .pure _)) h
  | cbnd => exact .execCbnd h
  | ccur => exact .runWord (.bind .readC fun _ => .bind .readS fun _ => .bind .writeC fun _ => .pure _) h
  | cadd => exact .runWord (.bind .readC fun _ => .bind .readS fun _ => .bind .writeC fun _ => .pure _) h
  | cand => exact .runWord (.bind .readC fun _ => .bind .readS fun _ => .bind .writeC fun _ => .pure _) h
  | cget => exact .runWord (.bind .readC fun _ => .bind .writeS fun _ => .pure _) h
  | ctest => exact .runWord (.bind .readC fun _ => .bind .readS fun _ => .bind .updThread fun _ => .pure _) h
  | cmov => exact .runWord (.bind .readC fun _ => .bind .writeC fun _ => .pure _) h
  | ctab => exact .execCtab h
  | caddi => exact .runWord (.bind .readC fun _ => .bind .writeC fun _ => .pure _) h
  | qpoll => exact .runWord (.bind .needNeighbour fun _ => .bind .get fun _ => .bind .updThread fun _ => .pure _) h
  | qwait => exact .runWord (.bind .needNeighbour fun _ => .bind .get fun _ => .ite .waitOn_bind (.pure _)) h
  | omClaim => exact .execOmClaim h
  | omRelease => exact .execOmRelease h
  | omState => exact .execOmState h
  | eqFence => exact .execEqFence h
  | chain => exact .runWord (.bind .core fun _ => .ite (.pure _) (.bind .updCore fun _ => .pure _)) h
  | taskPost => exact .execTaskPost h
  | fmtSet => exact .runWord (.bind .readS fun _ => .bind .updThread fun _ => .pure _) h
  | fmtGet => exact .runWord (.bind .thread fun _ => .bind .writeS fun _ => .pure _) h
  | mfsr => exact .execMfsr h
  | mtsr => exact .execMtsr h
  | trapret => exact .execTrapret h
  | exit => exact .execExit h
  | exitAbandon => exact .execExitAbandon h
  | rdtime => exact .runWord (.bind .get fun _ => .bind .writeS fun _ => .pure _) h
  | rdcnt => exact .execRdcnt h
  | brkpt => exact .execBrkpt h
  | trap => exact .execTrap h
  | fence => exact .execFence h
  | pbar => exact .execPbar h
  | lwait => exact .execLwait h
  | barInit => exact .execBarInit h
  | barArrive => exact .execBarArrive h
  | barWait => exact .execBarWait h
  | barTest => exact .execBarTest h
  | genAlloc => exact .execGenAlloc h
  | genPass => exact .execGenPass h
  | ld => exact .execLd h
  | st => exact .runWord (.bind .readC fun _ => .bind .readS fun _ => .bind .storeBytes fun _ => .pure _) h
  | ldc => exact .execLdc h
  | stc => exact .execStc h
  | ldx => exact .execLdx h
  | stx => exact .execStx h
  | ldFe => exact .execLdFe h
  | ldFf => exact .execLdFf h
  | stEf => exact .execStEf h
  | feFill => exact .execFeFill h
  | feClr => exact .execFeClr h
  | feSt => exact .execFeSt h
  | pref => exact .execPref h
  | amo => exact .execAmo h
  | amoCas => exact .execAmoCas h
  | red => exact .execRed h
  | vadd => exact .vectorWord h
  | vsub => exact .vectorWord h
  | vmul => exact .vectorWord h
  | vfma => exact .vectorWord h
  | vfms => exact .vectorWord h
  | vfnma => exact .vectorWord h
  | vmin => exact .vectorWord h
  | vmax => exact .vectorWord h
  | vabs => exact .vectorWord h
  | vneg => exact .vectorWord h
  | vrcp => exact .vectorWord h
  | vrsqrt => exact .vectorWord h
  | vsqrt => exact .vectorWord h
  | vexp2 => exact .vectorWord h
  | vlog2 => exact .vectorWord h
  | vtanh => exact .vectorWord h
  | vdiv => exact .vectorWord h
  | viadd => exact .vectorWord h
  | visub => exact .vectorWord h
  | vimul => exact .vectorWord h
  | vimulh => exact .vectorWord h
  | vand => exact .vectorWord h
  | vor => exact .vectorWord h
  | vxor => exact .vectorWord h
  | vshl => exact .vectorWord h
  | vshr => exact .vectorWord h
  | vsra => exact .vectorWord h
  | vimin => exact .vectorWord h
  | vimax => exact .vectorWord h
  | vcmp => exact .vectorWord h
  | vicmp => exact .vectorWord h
  | vsel => exact .vectorWord h
  | mand => exact .vectorWord h
  | mor => exact .vectorWord h
  | mnot => exact .vectorWord h
  | mpop => exact .vectorWord h
  | vcvt => exact .convWord h
  | vpack => exact .convWord h
  | vunpack => exact .convWord h
  | vperm => exact .vectorWord h
  | vbcast => exact .vectorScalar h
  | vrot => exact .vectorWord h
  | vlane => exact .vectorWord h
  | vredsum => exact .vectorWord h
  | vredmax => exact .vectorWord h
  | vredmin => exact .vectorWord h
  | vscan => exact .vectorWord h
  | vwin => exact .vectorScalar h
  | vxset => exact .vectorScalar h
  | vmovs => exact .vectorScalar h
  | vmovq => exact .vectorWord h
  | vld => exact .vectorMemory h
  | vst => exact .vectorMemory h
  | vldx => exact .vectorMemory h
  | vstx => exact .vectorMemory h
  | vldS => exact .vectorMemory h
  | vstS => exact .vectorMemory h
  | mma => exact .engineWord .mmaOperands h
  | mmaZ => exact .engineWord .mmaOperands h
  | accClr => exact .engineWord (.pure _) h
  | accRd => exact .engineWord (.bind .readC fun _ => .bind .checkOperand fun _ => .bind .aligned fun _ => .pure _) h
  | accWr => exact .engineWord (.bind .readC fun _ => .bind .checkOperand fun _ => .bind .aligned fun _ => .pure _) h
  | epi => exact .execEpi h
  | epiV => exact .execEpiV h
  | dtabLd => exact .engineWord (.bind .readC fun _ => .bind .checkOperand fun _ => .bind .aligned fun _ => .pure _) h
  | dtabInv => exact .engineWord (.pure _) h
  | mseg => exact .engineWord (.bind .readS fun _ => .bind .rangeSub8 fun _ => .pure _) h
  | cp => exact .execCp h
  | cp2d => exact .execCp2d h
  | cpOm => exact .execCpOm h
  | cpGat => exact .execCpGat h
  | cpSet => exact .execCpSet h
  | cpZ => exact .execCpZ h
  | cpX => exact .execCpX h
  | cpCk => exact .execCpCk h
  | netPost => exact .execNetPost h
  | netSend => exact .engineWord .sendOperands h
  | netSendWrite => exact .engineWord .sendOperands h
  | netSendRead => exact .engineWord .sendOperands h
  | netReply => exact .execNetReply h
  | fstLd => exact .execFstLd h
  | fstStart => exact .execFstStart h
  | fstStop => exact .engineWord (.bind .readS fun _ => .bind .rangeSub8 fun _ => .pure _) h
  | zcPush => exact .execZcPush h
  | zcFence => exact .zcWord (fun _ => wf_ite (wf_hartNext h) (wf_ite (wf_hartNext h) (wf_updHart h))) h
  | zcStat => exact .zcWord (fun _ => wf_hartNext h) h
  | frameReceive => exact .execFrameReceive h
  | sowerAcceptMessage => exact .execSowerAcceptMessage h
  | gcmHeaderCheck => exact .execGcmHeaderCheck h
  | mcbLookup => exact .execMcbLookup h
  | freePlotSearch => exact .execFreePlotSearch h
  | bindAndRegisterPreload => exact .execBindAndRegisterPreload h
  | restoreSaveImage => exact .execRestoreSaveImage h
  | firstFetch => exact .execFirstFetch h
  | decoderTableInitLoad => exact .execDecoderTableInitLoad h
  | launchEnqueueRetry => exact .execLaunchEnqueueRetry h
  | roceSendReceive => exact .execRoceSendReceive h
  | roceInboundRdma => exact .execRoceInboundRdma h
  | hostInboundWrite => exact .execHostInboundWrite h
  | engineCommandStart => exact .execEngineCommandStart h
  | engineCommandComplete => exact .execEngineCommandComplete h
  | mmaSegmentRetire => exact .execMmaSegmentRetire h
  | taskIssue => exact .execTaskIssue h
  | taskComplete => exact .execTaskComplete h
  | taskWaitRecheck => exact .execTaskWaitRecheck h
  | parkedAccessReplay => exact .execParkedAccessReplay h
  | xtlbEntryExpiry => exact .execXtlbEntryExpiry h
  | leaseRenewal => exact .execLeaseRenewal h
  | heldFormWithdrawal => exact .execHeldFormWithdrawal h
  | feWaitSatisfied => exact .execFeWaitSatisfied h
  | barWaitCompletion => exact .execBarWaitCompletion h
  | queuePortStallEnd => exact .execQueuePortStallEnd h
  | lwaitEnd => exact .execLwaitEnd h
  | eqFenceEnd => exact .execEqFenceEnd h
  | fenceComplete => exact .execFenceComplete h
  | genPassWaitEnd => exact .execGenPassWaitEnd h
  | omClaimWaitEnd => exact .execOmClaimWaitEnd h
  | exitDrainEnd => exact .execExitDrainEnd h
  | invocationRetirement => exact .execInvocationRetirement h
  | haltRelease => exact .execHaltRelease h
  | killComplete => exact .execKillComplete h
  | preemptLandComplete => exact .execPreemptLandComplete h
  | saveComplete => exact .execSaveComplete h
  | awaitingAnswerArrival => exact .execAwaitingAnswerArrival h
  | t1Expiry => exact .execT1Expiry h
  | t2Expiry => exact .execT2Expiry h
  | t3Expiry => exact .execT3Expiry h
  | skewEvent => exact .execSkewEvent h
  | cpHeartbeatTimeout => exact .execCpHeartbeatTimeout h
  | beaconReceive => exact .next (wf_ite h h)
  | beaconTimeout => exact .execBeaconTimeout h
  | nepolPathTimeout => exact .execNepolPathTimeout h
  | completionTimeout => exact .execCompletionTimeout h
  | powerManagerTick => exact .next (wf_foldl (fun _ _ hs => hs) h)
  | thermalTrip => exact .execThermalTrip h
  | wake => exact .next (wf_foldl (fun _ _ hs => wf_bootHart hs) (wf_foldl (fun _ _ hs => hs) h))
  | sleep => exact .execSleep h
  | sproutJobStart => exact .execSproutJobStart h
  | sproutPageArrival => exact .execSproutPageArrival h
  | sproutJobEnd => exact .execSproutJobEnd h
  | sampleTick => exact .execSampleTick h
  | pktNop => exact .execPktNop h
  | pktLaunch => exact .execPktLaunch h
  | launchRetireWaitEnd => exact .execLaunchRetireWaitEnd h
  | pktIb => exact .execPktIb h
  | pktPred => exact .execPktPred h
  | pktLoop => exact .execPktLoop h
  | pktEndloop => exact .execPktEndloop h
  | pktWrite => exact .execPktWrite h
  | pktWaitFlag => exact .execPktWaitFlag h
  | waitReread => exact .execWaitReread h
  | pktWaitTime => exact .execPktWaitTime h
  | waitTimeEnd => exact .execWaitTimeEnd h
  | pktSignal => exact .execPktSignal h
  | signalAdd => exact .execSignalAdd h
  | pktFfence => exact .execPktFfence h
  | ffenceRefetch => exact .execFfenceRefetch h
  | pktCond => exact .execPktCond h
  | pktSwitch => exact .execPktSwitch h
  | pktEnd => exact .execPktEnd h
  | sqtailDoorbell => exact .pageWrite h h
  | cqheadWrite => exact .pageWrite h h
  | interfaceRegisterWrite => exact .pageWrite h h
  | install => exact .execInstall h
  | mcbWrite => exact .execMcbWrite h
  | mcbRemove => exact .execMcbRemove h
  | capWrite => exact .execCapWrite h
  | revoke => exact .execRevoke h
  | revokeWaitEnd => exact .execRevokeWaitEnd h
  | streamOpen => exact .execStreamOpen h
  | streamTail => exact .execStreamTail h
  | streamClose => exact .execStreamClose h
  | qpCreate => exact .execQpCreate h
  | qpDestroy => exact .execQpDestroy h
  | faultReplyResume => exact .execFaultReplyResume h
  | faultReplyResumeHandler => exact .execFaultReplyResumeHandler h
  | faultReplyKill => exact .execFaultReplyKill h
  | assign => exact .hypOnly h (wf_ite (wf_complete h) (wf_complete h))
  | partition => exact .execPartition h
  | keyslot => exact .execKeyslot h
  | replay => exact .hypOnly h (wf_complete (wf_foldl (fun _ _ hs => wf_replayPlot hs) h))
  | checkpoint => exact .execCheckpoint h
  | bitmapSwap => exact .hypOnly h (wf_ite (wf_complete h) (wf_ite (wf_complete h) h))
  | bitmapSwitchComplete => exact .execBitmapSwitchComplete h
  | partitionReset => exact .execPartitionReset h
  | windowReduction => exact .hypOnly h (wf_complete h)
  | windowExport => exact .hypOnly h (wf_complete h)
  | bankClaim => exact .execBankClaim h
  | bankRelease => exact .execBankRelease h
  | bankRead => exact .execBankRead h
  | bankWrite => exact .execBankWrite h
  | snapshot => exact .execSnapshot h
  | bpWrite => exact .execBpWrite h
  | wpWrite => exact .execWpWrite h
  | sample => exact .execSample h
  | dbgCfg => exact .hypOnly h (wf_ite (wf_complete h) (wf_complete h))
  | fwLoad => exact .hypOnly h (wf_ite (wf_complete h) (wf_complete (wf_foldl (fun _ _ hs => hs) h)))
  | fwSwap => exact .hypOnly h (wf_ite (wf_complete h) (wf_ite (wf_complete h) (wf_foldl (fun _ _ hs => hs) h)))
  | attest => exact .hypOnly h (wf_complete (wf_hostWrite h))
  | coreReset => exact .hypOnly h (wf_ite (wf_complete h) (wf_complete h))
  | power => exact .execPower h
  | cpwdWrite => exact .csrWord h
  | fwctlWrite => exact .execFwctlWrite h
  | modeWrite => exact .csrWord h
  | csrWrite => exact .ite (.execFwctlWrite h) (.csrWord h)
  | illegalInstruction => exact .execIllegalInstruction h
  | functionReady => exact .next (wf_ite h h)
  | ptCopyResynchronised => exact .next h
  | nepolInboundAccess => exact .execNepolInboundAccess h
  | nepolLinkFailure => exact .next h
  | nepolSwitchFailure => exact .execNepolSwitchFailure h
  | scrubComplete => exact .execScrubComplete h
  | checkpointStreamsWritten => exact .execCheckpointStreamsWritten h

/-! ## Riscv -/

theorem RvWf.rvLoad {s k va bytes go} (hgo : ∀ a, RvWf (go a)) : RvWf (rvLoad s k va bytes go) := by
  unfold Machine.rvLoad
  split
  · exact .trap
  · exact hgo _

theorem RvWf.rvStore {s k va bytes v go} (h : MemWf s) : RvWf (rvStore s k va bytes v go) := by
  unfold Machine.rvStore
  split
  · exact .trap
  · exact .done h

theorem RvWf.rvDone {s k len f} (h : MemWf s) : RvWf (rvDone s k len f) :=
  .done h

theorem RvWf.rvIllegal : RvWf rvIllegal :=
  .trap

theorem RvWf.rvLoads {s k len w} (h : MemWf s) : RvWf (rvLoads s k len w) :=
  .ite .rvIllegal (.rvLoad fun _ => .rvDone h)

theorem RvWf.rvStores {s k len w} (h : MemWf s) : RvWf (rvStores s k len w) :=
  .ite .rvIllegal (.rvStore h)

theorem RvWf.rvBranch {s k len w} (h : MemWf s) : RvWf (rvBranch s k len w) := by
  unfold Machine.rvBranch
  dsimp only
  split
  · exact .rvIllegal
  · exact .done h
  · exact .rvDone h

theorem RvWf.rvOpImm {s k len w} (h : MemWf s) : RvWf (rvOpImm s k len w) :=
  .ite .rvIllegal (.rvDone h)

theorem RvWf.rvOpImm32 {s k len w} (h : MemWf s) : RvWf (rvOpImm32 s k len w) :=
  .ite .rvIllegal (.rvDone h)

theorem RvWf.rvOp {s k len w} (h : MemWf s) : RvWf (rvOp s k len w) := by
  unfold Machine.rvOp
  dsimp only
  split
  · exact .rvDone h
  · exact .ite (.rvDone h) .rvIllegal
  · exact .rvDone h
  · exact .rvIllegal

theorem RvWf.rvOp32 {s k len w} (h : MemWf s) : RvWf (rvOp32 s k len w) := by
  unfold Machine.rvOp32
  dsimp only
  split
  · exact .ite (.rvDone h) .rvIllegal
  · exact .ite (.rvDone h) .rvIllegal
  · exact .ite (.rvDone h) .rvIllegal
  · exact .rvIllegal

theorem RvWf.rvAtomic {s k len w} (h : MemWf s) : RvWf (rvAtomic s k len w) := by
  unfold Machine.rvAtomic
  refine .ite .rvIllegal ?_
  refine .ite (.ite .rvIllegal (.ite .trap ?_)) (.ite .rvIllegal (.ite .trap ?_))
  · split
    · exact .trap
    · exact .rvDone h
  split
  · exact .trap
  · exact .ite (.ite (.rvDone h) (.rvDone h)) (.rvDone h)

theorem RvWf.rvFloatMemory {s k len w store} (h : MemWf s) : RvWf (rvFloatMemory s k len w store) :=
  .ite .rvIllegal (.ite (.rvStore h) (.rvLoad fun _ => .rvDone h))

theorem RvWf.rvMadd {s k len w} (h : MemWf s) : RvWf (rvMadd s k len w) := by
  unfold Machine.rvMadd
  refine .ite .rvIllegal ?_
  split
  · exact .rvIllegal
  · exact .rvDone h

theorem RvWf.rvFloat {s k len w} (h : MemWf s) : RvWf (rvFloat s k len w) := by
  have rounded : ∀ (go : Nat → Hart → Hart), RvWf (match (hartAt s k).rounding w with
      | none => Machine.rvIllegal
      | some rm => Machine.rvDone s k len (go rm)) := fun _ => by
    split
    · exact .rvIllegal
    · exact .rvDone h
  refine .ite .rvIllegal ?_
  split
  · exact rounded _
  · exact rounded _
  · exact rounded _
  · exact rounded _
  · exact .ite (.rvDone h) (.ite (.rvDone h) (.ite (.rvDone h) .rvIllegal))
  · exact .ite (.rvDone h) .rvIllegal
  · exact .ite (rounded _) .rvIllegal
  · exact .ite (rounded _) .rvIllegal
  · exact .ite (.rvDone h) .rvIllegal
  · exact .ite (rounded _) .rvIllegal
  · exact .ite (rounded _) .rvIllegal
  · exact .ite .rvIllegal (.ite (.rvDone h) (.ite (.rvDone h) .rvIllegal))
  · exact .ite (.rvDone h) .rvIllegal
  · exact .rvIllegal

theorem RvWf.rvCsr {s k len w} (h : MemWf s) : RvWf (rvCsr s k len w) := by
  unfold Machine.rvCsr
  dsimp only
  split
  · exact .rvIllegal
  refine .ite (.rvDone h) (.ite (.done (wf_finishSwaps (wf_updHart h))) ?_)
  split
  · exact .rvIllegal
  · rename_i e
    exact .rvDone (OptWf.writeCsr h _ e)

theorem RvWf.rvSystem {s k len w} (h : MemWf s) : RvWf (rvSystem s k len w) :=
  .ite .trap (.ite .trap (.ite (.ite (.done h) .rvIllegal) (.ite (.ite .rvIllegal (.done h)) (.ite (.rvDone h) (.ite (.ite
    .rvIllegal (.rvDone h)) .rvIllegal)))))

theorem RvWf.rvExec {s k len w} (h : MemWf s) : RvWf (rvExec s k len w) := by
  unfold Machine.rvExec
  dsimp only
  split
  · exact .rvLoads h
  · exact .rvFloatMemory h
  · exact .ite (.rvDone h) .rvIllegal
  · exact .rvOpImm h
  · exact .rvDone h
  · exact .rvOpImm32 h
  · exact .rvStores h
  · exact .rvFloatMemory h
  · exact .rvAtomic h
  · exact .rvOp h
  · exact .rvDone h
  · exact .rvOp32 h
  · exact .rvMadd h
  · exact .rvMadd h
  · exact .rvMadd h
  · exact .rvMadd h
  · exact .rvFloat h
  · exact .rvBranch h
  · exact .ite .rvIllegal (.done h)
  · exact .done h
  · exact .ite (.rvSystem h) (.ite .rvIllegal (.rvCsr h))
  · exact .rvIllegal

theorem wf_rvCommit {s k r} (h : MemWf s) (hr : RvWf r) : MemWf (rvCommit s k r) := by
  cases r with
  | trap => exact wf_countRv (wf_updHart h)
  | done t => exact wf_countRv (hr t rfl)

/-! ## Schedule -/

theorem wf_countTime {s dt} (h : MemWf s) : MemWf (countTime s dt) :=
  wf_foldl (fun _ _ hs => wf_ite hs hs) (wf_foldl (fun _ _ hs => wf_ite hs hs) (wf_foldl (fun _ _ hs => wf_ite hs (wf_count
    (wf_count hs))) h))

theorem wf_tick {s} (h : MemWf s) : MemWf (tick s) :=
  wf_bindWatches (wf_countTime h)

theorem OutWf.fetchAndRun {k s} (h : MemWf s) : OutWf (fetchAndRun k s) := by
  unfold Machine.fetchAndRun
  split
  · exact .next (wf_debugStop h)
  split
  · rename_i e
    exact .stopped h (KeepsWf.fetchWord.error e h)
  rename_i e
  split
  · exact .exec (KeepsWf.fetchWord.ok e h)
  · exact .execIllegalInstruction (KeepsWf.fetchWord.ok e h)

theorem OutWf.moveThread {k s0} (h : MemWf s0) : OutWf (moveThread k s0) := by
  unfold Machine.moveThread
  refine .ite (.next h) (.ite (.next (wf_handlerRecord h)) ?_)
  split
  · exact .exec (wf_handlerRecord h)
  · exact .fetchAndRun (wf_handlerRecord h)

theorem OutWf.moveHart {g s} (h : MemWf s) : OutWf (moveHart g s) := by
  refine .ite (.next h) ?_
  split
  · exact .next h
  split
  · exact .next (wf_rvCommit h .trap)
  · refine .next (wf_rvCommit h ?_)
    split
    · exact .rvIllegal
    · exact .rvExec h
  split
  · exact .exec h
  · exact .next (wf_rvCommit h (.rvExec h))

theorem OutWf.landWrites {k s} (h : MemWf s) : OutWf (landWrites k s) := by
  unfold Machine.landWrites
  refine .next (wf_foldl (fun _ _ hs => ?_) (wf_landFirst h))
  split
  · exact hs
  · exact wf_answerImage hs

theorem OutWf.releaseInbound {j s} (h : MemWf s) : OutWf (releaseInbound j s) := by
  unfold Machine.releaseInbound
  extract_lets before
  have taken : MemWf before := h
  split
  · exact .next h
  rename_i i _
  have released : OutWf (match (generalizing := false) i with
      | .send x data => Machine.execRoceSendReceive x data before
      | .rdma q => Machine.execRoceInboundRdma q before
      | .host sp addr data => Machine.execHostInboundWrite sp addr data before
      | .nepol q => Machine.execNepolInboundAccess q before) := by
    cases i with
    | send => exact .execRoceSendReceive taken
    | rdma => exact .execRoceInboundRdma taken
    | host => exact .execHostInboundWrite taken
    | nepol => exact .execNepolInboundAccess taken
  split
  · rename_i e
    have served := released _ e
    exact .next (wf_ite h served)
  · exact released

theorem OutWf.plain {f s} (hf : ∀ {s}, MemWf s → MemWf (f s)) (h : MemWf s) : OutWf (plain f s) :=
  .next (hf h)

theorem MovesWf.coreMoves {s k} : MovesWf (coreMoves s k) := by
  refine .append ?_ (.flatMap fun e => .append ?_ (.flatMap fun n => ?_))
  · exact .cons .moveThread <| .cons .execMmaSegmentRetire <| .cons .execTaskComplete <| .cons .execParkedAccessReplay <|
      .cons .execXtlbEntryExpiry <| .cons .execHeldFormWithdrawal <| .cons .execFeWaitSatisfied <|
      .cons .execBarWaitCompletion <| .cons .execQueuePortStallEnd <| .cons .execLwaitEnd <| .cons .execEqFenceEnd <|
      .cons .execFenceComplete <| .cons .execGenPassWaitEnd <| .cons .execOmClaimWaitEnd <| .cons .execExitDrainEnd <|
      .cons .execNepolPathTimeout <| .cons .execCompletionTimeout <| .cons .landWrites <| .cons (.plain wf_landStrike) <|
      .cons (.plain wf_endDrain) <| .cons .taskAhead <| .cons .answerNow .nil
  · exact .cons .execEngineCommandStart <| .cons .execDecoderTableInitLoad .nil
  · exact .cons .execEngineCommandComplete <| .cons .execLeaseRenewal .nil

theorem MovesWf.blockMoves {m} : MovesWf (blockMoves m) :=
  .cons .execTaskWaitRecheck <| .cons .execTaskIssue <| .cons .execBindAndRegisterPreload <| .cons .execRestoreSaveImage <|
    .cons .execFirstFetch <| .cons .execInvocationRetirement <| .cons .execHaltRelease <| .cons .execKillComplete <|
    .cons .execPreemptLandComplete <| .cons .execSaveComplete <| .cons .execT1Expiry <| .cons .execT2Expiry <|
    .cons .execT3Expiry <| .cons (.plain (wf_sowerReplay _)) .nil

theorem MovesWf.partMoves {p} : MovesWf (partMoves p) :=
  .cons .execFreePlotSearch <| .cons .execSampleTick <| .cons .execScrubComplete <| .cons .execSproutJobStart <|
    .cons .execSproutJobStart .nil

theorem MovesWf.jobMoves {j} : MovesWf (jobMoves j) :=
  .append (.ite .nil (.cons .execSproutPageArrival .nil)) (.cons .execSproutJobEnd .nil)

theorem MovesWf.transitMoves {s} : MovesWf (transitMoves s) :=
  .append (.map fun _ => .plain wf_performCount)
    (.flatMap fun _ => .cons (.plain wf_mergeSwitch) <| .cons (.plain wf_deliverSwitch) .nil)

theorem MovesWf.ownMoves {s} : MovesWf (ownMoves s) := by
  unfold Machine.ownMoves
  refine .append (.append (.append (.append (.append (.append (.append (.append (.append (.append (.append ?_ ?_) ?_) ?_) ?_)
    ?_) ?_) ?_) ?_) ?_) .transitMoves) ?_
  · exact .cons .execSowerAcceptMessage <| .cons .execGcmHeaderCheck <| .cons .execMcbLookup <| .cons .execBitmapSwitchComplete <|
      .cons .execCheckpointStreamsWritten <| .cons .execBeaconTimeout .nil
  · exact .map fun _ => .execRevokeWaitEnd
  · exact .map fun _ => .releaseInbound
  · exact .flatMap fun _ => .coreMoves
  · exact .flatMap fun _ => .blockMoves
  · exact .flatMap fun _ => .partMoves
  · exact .map fun _ => .streamStep
  · exact .map fun _ => .commandStep
  · exact .flatMap fun _ => .jobMoves
  · exact .flatMap fun _ => .cons .moveHart <| .cons .execCpHeartbeatTimeout .nil
  · exact .map fun _ => .plain wf_releaseTx

theorem OutWf.ownMove {n s} (h : MemWf s) : OutWf (ownMove n s) := by
  unfold Machine.ownMove
  split
  · rename_i e
    exact MovesWf.ownMoves _ (List.mem_of_getElem? e) h
  · exact .next h

theorem OutWf.move {a s} (h : MemWf s) : OutWf (move a s) := by
  unfold Machine.move
  split
  · exact .moveThread h
  · exact .exec h
  · exact .ownMove h
  · exact .streamStep h
  · exact .commandStep h
  · exact .moveHart h
  · exact .next (wf_losePower h)

/-! ## Step -/

theorem OutWf.step {s} (h : MemWf s) : OutWf (step s) := by
  unfold Machine.step
  split <;> exact .move (wf_tick h)

/-! ## The obligation -/

/-- Settles O57: each agent's move keeps memory well formed (`OutWf.step`), and well-formed memories that read alike are equal (`Memory.ext`). -/
theorem stepKeepsMemoryCanonical : Obligations.StepKeepsMemoryCanonical :=
  ⟨fun _ t h e => OutWf.step h t e, fun _ _ => Memory.ext⟩

end Sys2Proof.Machine
end

/-!
# Decoding and encoding agree (O56)

An encoded word is a chain of fields put into a constant. Reading a range of bits passes the fields above and below it (`bits_put_above`,
`bits_put_below`) and finds the field that lies there (`bits_put_same`), which runs the decoders on the encoding of each instruction. For the
other direction every field that a decoder has read is a difference of two low parts of the word (`put_opnd`, `bits_eq_iff`), so that the
encoder's sum telescopes to the word.
-/

section
namespace Sys2Proof

/-- A field above leaves the bits below it. -/
@[simp] theorem bits_put_below {w lo j a k : Nat} {f : BitVec j} (h : a + k ≤ lo) : bits (put w f lo) a k = bits w a k := by
  obtain ⟨e, rfl⟩ := Nat.exists_eq_add_of_le h
  unfold bits put
  rw [show f.toNat * 2 ^ (a + k + e) = 2 ^ a * (2 ^ k * (f.toNat * 2 ^ e)) by ring,
    Nat.add_mul_div_left _ _ (Nat.two_pow_pos a), Nat.add_mul_mod_self_left]

/-- A field put where nothing stands carries nothing upwards. -/
theorem put_div {w lo j a : Nat} {f : BitVec j} (h : lo + j ≤ a) (hw : bits w lo j = 0) : put w f lo / 2 ^ a = w / 2 ^ a := by
  obtain ⟨e, rfl⟩ := Nat.exists_eq_add_of_le h
  have key : (w + f.toNat * 2 ^ lo) / 2 ^ lo / 2 ^ j = w / 2 ^ lo / 2 ^ j := by
    have hd := Nat.div_add_mod (w / 2 ^ lo) (2 ^ j)
    rw [show w / 2 ^ lo % 2 ^ j = 0 from hw, Nat.add_zero] at hd
    rw [Nat.add_mul_div_right _ _ (Nat.two_pow_pos lo), ← hd, Nat.mul_add_div (Nat.two_pow_pos j), Nat.div_eq_of_lt f.isLt,
      Nat.mul_div_cancel_left _ (Nat.two_pow_pos j), Nat.add_zero]
  unfold put
  rw [pow_add, pow_add, ← Nat.div_div_eq_div_mul, ← Nat.div_div_eq_div_mul, key, Nat.div_div_eq_div_mul, Nat.div_div_eq_div_mul, mul_assoc]

@[simp] theorem bits_put_above {w lo j a k : Nat} {f : BitVec j} (h : lo + j ≤ a) (hw : bits w lo j = 0) :
    bits (put w f lo) a k = bits w a k := by
  unfold bits; rw [put_div h hw]

@[simp] theorem bits_put_same {w lo j : Nat} {f : BitVec j} (hw : bits w lo j = 0) : bits (put w f lo) lo j = f.toNat := by
  unfold bits at hw
  unfold bits put
  rw [Nat.add_mul_div_right _ _ (Nat.two_pow_pos lo), Nat.add_mod, hw, Nat.zero_add, Nat.mod_mod, Nat.mod_eq_of_lt f.isLt]

@[simp] theorem put_lt_word {w lo j : Nat} {f : BitVec j} (h : lo + j ≤ 32) (hw : bits w lo j = 0) : put w f lo < 4294967296 ↔ w < 4294967296 := by
  rw [show 4294967296 = 2 ^ 32 from rfl, ← Nat.div_eq_zero_iff_lt (Nat.two_pow_pos 32), ← Nat.div_eq_zero_iff_lt (Nat.two_pow_pos 32), put_div h hw]

/-- The bits of a number that is written out are computed. -/
@[simp] theorem bits_literal (c a k : Nat) : bits (no_index (OfNat.ofNat c)) a k = OfNat.ofNat c / 2 ^ a % 2 ^ k := by rw [bits]

theorem opnd_eq_bits (n lo k : Nat) : opnd n lo k = BitVec.ofNat k (bits n lo k) := by
  unfold opnd bits; apply BitVec.eq_of_toNat_eq; simp

theorem bits_add (n lo j k : Nat) : bits n lo (j + k) = bits n lo j + 2 ^ j * bits n (lo + j) k := by
  unfold bits; rw [pow_add, pow_add, Nat.mod_mul, Nat.div_div_eq_div_mul]

/-- A test of a range of bits is one of its lower part and one of its upper part. -/
theorem bits_beq_split {w j k : Nat} (h : w = j + k) (n lo c : Nat) :
    (bits n lo w == c) = (bits n lo j == c % 2 ^ j && bits n (lo + j) k == c / 2 ^ j) := by
  have hj : bits n lo j < 2 ^ j := Nat.mod_lt _ (Nat.two_pow_pos j)
  rw [h, bits_add, Bool.eq_iff_iff]
  simp only [beq_iff_eq, Bool.and_eq_true]
  constructor
  · rintro rfl
    rw [Nat.add_mul_mod_self_left, Nat.mod_eq_of_lt hj, Nat.add_mul_div_left _ _ (Nat.two_pow_pos j), Nat.div_eq_of_lt hj, Nat.zero_add]
    exact ⟨rfl, rfl⟩
  · rintro ⟨h1, h2⟩
    rw [h1, h2, Nat.mod_add_div]

-- Decoding an encoded word

/-- The word of a well-formed instruction has 32 bits, and a core thread reads the instruction back from its fields. -/
def DecodesBack (i : Instr) : Prop := ∀ n, i.wf = true → encodeNat i = some n → n < 2 ^ 32 ∧ decodeFields n = some i

theorem decodesBack_integer :
    (∀ z d a b, DecodesBack (.add z d a b)) ∧ (∀ z d a b, DecodesBack (.sub z d a b)) ∧ (∀ z d a b, DecodesBack (.and z d a b)) ∧
    (∀ z d a b, DecodesBack (.or z d a b)) ∧ (∀ z d a b, DecodesBack (.xor z d a b)) ∧ (∀ z d a b, DecodesBack (.andn z d a b)) ∧
    (∀ z d a b, DecodesBack (.sll z d a b)) ∧ (∀ z d a b, DecodesBack (.srl z d a b)) ∧ (∀ z d a b, DecodesBack (.sra z d a b)) ∧
    (∀ z d a b, DecodesBack (.rol z d a b)) ∧ (∀ z d a b, DecodesBack (.mul z d a b)) ∧ (∀ z d a b, DecodesBack (.mulh z d a b)) ∧
    (∀ z d a b, DecodesBack (.mulhu z d a b)) ∧ (∀ z d a b, DecodesBack (.div z d a b)) ∧ (∀ z d a b, DecodesBack (.divu z d a b)) ∧
    (∀ z d a b, DecodesBack (.rem z d a b)) ∧ (∀ z d a b, DecodesBack (.remu z d a b)) ∧ (∀ z d a b, DecodesBack (.min z d a b)) ∧
    (∀ z d a b, DecodesBack (.max z d a b)) ∧ (∀ z d a b, DecodesBack (.minu z d a b)) ∧ (∀ z d a b, DecodesBack (.maxu z d a b)) ∧
    (∀ z d a b, DecodesBack (.slt z d a b)) ∧ (∀ z d a b, DecodesBack (.sltu z d a b)) := by
  and_intros
  all_goals
    intros
    intro n _ h
    cases h
    simp [decodeFields, decodeControl, decodeInteger, opnd_eq_bits]

theorem decodesBack_arithmetic :
    (∀ z d a, DecodesBack (.clz z d a)) ∧ (∀ z d a, DecodesBack (.ctz z d a)) ∧ (∀ z d a, DecodesBack (.popc z d a)) ∧
    (∀ z d a, DecodesBack (.bswap z d a)) ∧ (∀ z d a s, DecodesBack (.sext z d a s)) ∧ (∀ z d a s, DecodesBack (.zext z d a s)) ∧
    (∀ z c d a b, DecodesBack (.cmp z c d a b)) ∧ (∀ z c d a i, DecodesBack (.cmpi z c d a i)) ∧
    (∀ z d a b n p, DecodesBack (.sel z d a b n p)) ∧ (∀ z d a b, DecodesBack (.pand z d a b)) ∧ (∀ z d a b, DecodesBack (.por z d a b)) ∧
    (∀ z d a b, DecodesBack (.pxor z d a b)) ∧ (∀ z d a, DecodesBack (.pnot z d a)) ∧ (∀ z d a, DecodesBack (.pmov z d a)) ∧
    (∀ z d a i, DecodesBack (.addi z d a i)) ∧ (∀ z d a i, DecodesBack (.andi z d a i)) ∧ (∀ z d a i, DecodesBack (.ori z d a i)) ∧
    (∀ z d a i, DecodesBack (.xori z d a i)) ∧ (∀ z d a i, DecodesBack (.slli z d a i)) ∧ (∀ z d a i, DecodesBack (.srli z d a i)) ∧
    (∀ z d a i, DecodesBack (.srai z d a i)) ∧ (∀ z d a i, DecodesBack (.slti z d a i)) := by
  and_intros
  all_goals
    intros
    intro n _ h
    cases h
    simp [decodeFields, decodeControl, opnd_eq_bits, bits_beq_split (show 12 = 6 + 6 from rfl)]

theorem decodesBack_flow :
    (∀ z d a i, DecodesBack (.sltiu z d a i)) ∧ (∀ z d i, DecodesBack (.lui z d i)) ∧ (∀ d, DecodesBack (.br d)) ∧
    (∀ p d, DecodesBack (.bnp p d)) ∧ (∀ d i, DecodesBack (.call d i)) ∧ (∀ d a, DecodesBack (.jmpr d a)) ∧ (∀ a, DecodesBack (.ret a)) ∧
    (∀ l s e, DecodesBack (.loop l s e)) ∧ (∀ l c e, DecodesBack (.loopi l c e)) ∧ (∀ l, DecodesBack (.lbrk l)) := by
  and_intros
  all_goals
    intros
    intro n _ h
    cases h
    simp [decodeFields, decodeControl, opnd_eq_bits, bits_beq_split (show 4 = 1 + 3 from rfl), bits_beq_split (show 5 = 4 + 1 from rfl)]

theorem decodesBack_capability_queue :
    (∀ z d a b, DecodesBack (.cbnd z d a b)) ∧ (∀ z d a b, DecodesBack (.ccur z d a b)) ∧ (∀ z d a b, DecodesBack (.cadd z d a b)) ∧
    (∀ z d a b, DecodesBack (.cand z d a b)) ∧ (∀ z d a k, DecodesBack (.cget z d a k)) ∧ (∀ z d a b, DecodesBack (.ctest z d a b)) ∧
    (∀ z d a, DecodesBack (.cmov z d a)) ∧ (∀ z d a, DecodesBack (.ctab z d a)) ∧ (∀ z d a i, DecodesBack (.caddi z d a i)) ∧
    (∀ z d p, DecodesBack (.qpoll z d p)) ∧ (∀ z p, DecodesBack (.qwait z p)) ∧ (∀ z s, DecodesBack (.omClaim z s)) ∧
    (∀ z s, DecodesBack (.omRelease z s)) ∧ (∀ z d s, DecodesBack (.omState z d s)) ∧ (∀ z m, DecodesBack (.eqFence z m)) ∧
    (∀ z e g, DecodesBack (.chain z e g)) ∧ (∀ z a, DecodesBack (.taskPost z a)) ∧ (∀ z n a, DecodesBack (.fmtSet z n a)) ∧
    (∀ z d n, DecodesBack (.fmtGet z d n)) := by
  and_intros
  all_goals
    intros
    intro n _ h
    cases h
    simp [decodeFields, decodeControl, opnd_eq_bits, bits_beq_split (show 12 = 6 + 6 from rfl)]

theorem decodesBack_system :
    (∀ d s, DecodesBack (.mfsr d s)) ∧ (∀ a s, DecodesBack (.mtsr a s)) ∧ DecodesBack .trapret ∧ DecodesBack .exit ∧
    DecodesBack .exitAbandon ∧ (∀ d, DecodesBack (.rdtime d)) ∧ (∀ d a, DecodesBack (.rdcnt d a)) ∧ DecodesBack .brkpt ∧
    (∀ i, DecodesBack (.trap i)) ∧ (∀ z k s, DecodesBack (.fence z k s)) ∧ (∀ z, DecodesBack (.pbar z)) ∧
    (∀ z a, DecodesBack (.lwait z a)) ∧ (∀ z a b, DecodesBack (.barInit z a b)) ∧ (∀ z a, DecodesBack (.barArrive z a)) ∧
    (∀ z a, DecodesBack (.barWait z a)) ∧ (∀ z d a, DecodesBack (.barTest z d a)) ∧ (∀ z d a, DecodesBack (.genAlloc z d a)) ∧
    (∀ z, DecodesBack (.genPass z)) := by
  and_intros
  all_goals
    intros
    intro n _ h
    cases h
    simp [decodeFields, decodeControl, opnd_eq_bits, bits_beq_split (show 24 = 12 + 12 from rfl), bits_beq_split (show 18 = 12 + 6 from rfl), bits_beq_split (show 12 = 6 + 6 from rfl)]

theorem decodesBack_memory :
    (∀ z d c s i, DecodesBack (.ld z d c s i)) ∧ (∀ z d c s i, DecodesBack (.st z d c s i)) ∧ (∀ z d c i, DecodesBack (.ldc z d c i)) ∧
    (∀ z d c i, DecodesBack (.stc z d c i)) ∧ (∀ z d a b x w, DecodesBack (.ldx z d a b x w)) ∧
    (∀ z d a b x w, DecodesBack (.stx z d a b x w)) ∧ (∀ z d c i, DecodesBack (.ldFe z d c i)) ∧
    (∀ z d c i, DecodesBack (.ldFf z d c i)) ∧ (∀ z d c i, DecodesBack (.stEf z d c i)) ∧ (∀ z d c i, DecodesBack (.feFill z d c i)) ∧
    (∀ z c i, DecodesBack (.feClr z c i)) ∧ (∀ z d c i, DecodesBack (.feSt z d c i)) ∧ (∀ z c i, DecodesBack (.pref z c i)) ∧
    (∀ z d a b w, DecodesBack (.amoCas z d a b w)) ∧ (∀ z a b w o, DecodesBack (.red z a b w o)) := by
  and_intros
  all_goals
    intros
    intro n _ h
    cases h
    simp [decodeFields, decodeControl, opnd_eq_bits]

theorem decodesBack_float :
    (∀ z d a b f, DecodesBack (.vadd z d a b f)) ∧ (∀ z d a b f, DecodesBack (.vsub z d a b f)) ∧
    (∀ z d a b f, DecodesBack (.vmul z d a b f)) ∧ (∀ z d a b f, DecodesBack (.vfma z d a b f)) ∧
    (∀ z d a b f, DecodesBack (.vfms z d a b f)) ∧ (∀ z d a b f, DecodesBack (.vfnma z d a b f)) ∧
    (∀ z d a b f, DecodesBack (.vmin z d a b f)) ∧ (∀ z d a b f, DecodesBack (.vmax z d a b f)) ∧
    (∀ z d a f, DecodesBack (.vabs z d a f)) ∧ (∀ z d a f, DecodesBack (.vneg z d a f)) ∧ (∀ z d a f, DecodesBack (.vrcp z d a f)) ∧
    (∀ z d a f, DecodesBack (.vrsqrt z d a f)) ∧ (∀ z d a f, DecodesBack (.vsqrt z d a f)) ∧ (∀ z d a f, DecodesBack (.vexp2 z d a f)) ∧
    (∀ z d a f, DecodesBack (.vlog2 z d a f)) ∧ (∀ z d a f, DecodesBack (.vtanh z d a f)) := by
  and_intros
  all_goals
    intros
    intro n _ h
    cases h
    simp [decodeFields, decodeVector, opnd_eq_bits]

theorem decodesBack_lane_integer :
    (∀ z d a b f, DecodesBack (.vdiv z d a b f)) ∧ (∀ z d a b f, DecodesBack (.viadd z d a b f)) ∧
    (∀ z d a b f, DecodesBack (.visub z d a b f)) ∧ (∀ z d a b f, DecodesBack (.vimul z d a b f)) ∧
    (∀ z d a b f, DecodesBack (.vimulh z d a b f)) ∧ (∀ z d a b f, DecodesBack (.vand z d a b f)) ∧
    (∀ z d a b f, DecodesBack (.vor z d a b f)) ∧ (∀ z d a b f, DecodesBack (.vxor z d a b f)) ∧
    (∀ z d a b f, DecodesBack (.vshl z d a b f)) ∧ (∀ z d a b f, DecodesBack (.vshr z d a b f)) ∧
    (∀ z d a b f, DecodesBack (.vsra z d a b f)) ∧ (∀ z d a b f, DecodesBack (.vimin z d a b f)) ∧
    (∀ z d a b f, DecodesBack (.vimax z d a b f)) := by
  and_intros
  all_goals
    intros
    intro n _ h
    cases h
    simp [decodeFields, decodeVector, opnd_eq_bits]

theorem decodesBack_mask :
    (∀ z c d a b f, DecodesBack (.vcmp z c d a b f)) ∧ (∀ z c d a b f, DecodesBack (.vicmp z c d a b f)) ∧
    (∀ z d a b, DecodesBack (.vsel z d a b)) ∧ (∀ z d a b, DecodesBack (.mand z d a b)) ∧ (∀ z d a b, DecodesBack (.mor z d a b)) ∧
    (∀ z d a, DecodesBack (.mnot z d a)) ∧ (∀ z d a, DecodesBack (.mpop z d a)) ∧ (∀ z d a s f, DecodesBack (.vcvt z d a s f)) ∧
    (∀ z d a s f, DecodesBack (.vpack z d a s f)) ∧ (∀ z d a s f, DecodesBack (.vunpack z d a s f)) ∧
    (∀ z d a b f, DecodesBack (.vperm z d a b f)) := by
  and_intros
  all_goals
    intros
    intro n _ h
    cases h
    simp [decodeFields, decodeVector, opnd_eq_bits]

theorem decodesBack_permute :
    (∀ z d s h f, DecodesBack (.vbcast z d s h f)) ∧ (∀ z d a i f, DecodesBack (.vrot z d a i f)) ∧
    (∀ z d f, DecodesBack (.vlane z d f)) ∧ (∀ z d a t f, DecodesBack (.vredsum z d a t f)) ∧
    (∀ z d a t f, DecodesBack (.vredmax z d a t f)) ∧ (∀ z d a t f, DecodesBack (.vredmin z d a t f)) ∧
    (∀ z d a t f, DecodesBack (.vscan z d a t f)) ∧ (∀ z k s b, DecodesBack (.vwin z k s b)) ∧
    (∀ z v s k f, DecodesBack (.vxset z v s k f)) ∧ (∀ z d s l, DecodesBack (.vmovs z d s l)) ∧
    (∀ z d i, DecodesBack (.vmovq z d i)) := by
  and_intros
  all_goals
    intros
    intro n _ h
    cases h
    simp [decodeFields, decodeVector, opnd_eq_bits]

theorem decodesBack_vector_memory :
    (∀ z d c s v f, DecodesBack (.vld z d c s v f)) ∧ (∀ z d c s v f, DecodesBack (.vst z d c s v f)) ∧
    (∀ z d c s v f, DecodesBack (.vldx z d c s v f)) ∧ (∀ z d c s v f, DecodesBack (.vstx z d c s v f)) ∧
    (∀ z d c s v f, DecodesBack (.vldS z d c s v f)) ∧ (∀ z d c s v f, DecodesBack (.vstS z d c s v f)) := by
  and_intros
  all_goals
    intros
    intro n _ h
    cases h
    simp [decodeFields, decodeVector, opnd_eq_bits]

theorem decodesBack_matrix :
    (∀ z n a b f s, DecodesBack (.mma z n a b f s)) ∧ (∀ z n a b f s, DecodesBack (.mmaZ z n a b f s)) ∧
    (∀ z n, DecodesBack (.accClr z n)) ∧ (∀ z n c q, DecodesBack (.accRd z n c q)) ∧ (∀ z n c q, DecodesBack (.accWr z n c q)) ∧
    (∀ z n o c s q, DecodesBack (.epi z n o c s q)) ∧ (∀ z n o s q, DecodesBack (.epiV z n o s q)) ∧
    (∀ z t c q, DecodesBack (.dtabLd z t c q)) ∧ (∀ z t, DecodesBack (.dtabInv z t)) ∧ (∀ z s, DecodesBack (.mseg z s)) := by
  and_intros
  all_goals
    intros
    intro n _ h
    cases h
    simp [decodeFields, decodeMatrix, opnd_eq_bits]

theorem decodesBack_copy :
    (∀ z d e l c, DecodesBack (.cp z d e l c)) ∧ (∀ z d e n c, DecodesBack (.cp2d z d e n c)) ∧
    (∀ z n e l c, DecodesBack (.cpOm z n e l c)) ∧ (∀ z d e n c, DecodesBack (.cpGat z d e n c)) ∧
    (∀ z d n c, DecodesBack (.cpSet z d n c)) ∧ (∀ z d e l c, DecodesBack (.cpZ z d e l c)) ∧
    (∀ z d e l c, DecodesBack (.cpX z d e l c)) ∧ (∀ z d e l c, DecodesBack (.cpCk z d e l c)) := by
  and_intros
  all_goals
    intros
    intro n _ h
    cases h
    simp [decodeFields, decodeCopy, opnd_eq_bits]

theorem decodesBack_network :
    (∀ z c l q, DecodesBack (.netPost z c l q)) ∧ (∀ z c l q, DecodesBack (.netSend z c l q)) ∧
    (∀ z c l q, DecodesBack (.netSendWrite z c l q)) ∧ (∀ z c l q, DecodesBack (.netSendRead z c l q)) ∧
    (∀ z c l, DecodesBack (.netReply z c l)) ∧ (∀ z c l s, DecodesBack (.fstLd z c l s)) ∧ (∀ z c l s, DecodesBack (.fstStart z c l s)) ∧
    (∀ z s, DecodesBack (.fstStop z s)) := by
  and_intros
  all_goals
    intros
    intro n _ h
    cases h
    simp [decodeFields, decodeNetwork, opnd_eq_bits]

/-- A branch on p0 would be the word of br. -/
theorem decodesBack_bp (p : BitVec 3) (d : BitVec 20) : DecodesBack (.bp p d) := by
  intro n hw h
  have hp : p.toNat ≠ 0 := fun e => bne_iff_ne.1 (show (p != 0) = true from hw) (BitVec.eq_of_toNat_eq e)
  cases h
  simp [decodeFields, decodeControl, opnd_eq_bits, bits_beq_split (show 4 = 1 + 3 from rfl), hp]

/-- An op of 9 would be the word of amo.cas. -/
theorem decodesBack_amo (z : BitVec 1) (d : BitVec 6) (a : BitVec 5) (b : BitVec 6) (w : BitVec 1) (o : BitVec 4) :
    DecodesBack (.amo z d a b w o) := by
  intro n hw h
  have ho : o.toNat ≠ 9 := (of_decide_eq_true (show decide (o.toNat < 9) = true from hw)).ne
  cases h
  simp [decodeFields, decodeControl, opnd_eq_bits, ho]

/-- A step of the part has no word. -/
theorem decodesBack_of_no_word {i : Instr} (h : encodeNat i = none) : DecodesBack i := fun n _ e => by rw [h] at e; cases e

/-- Every instruction of a core thread is read back. -/
theorem decodesBack (i : Instr) (hp : ∀ s d, i ≠ .zcPush s d) (hf : ∀ d, i ≠ .zcFence d) (hs : ∀ s d, i ≠ .zcStat s d) :
    DecodesBack i := by
  cases i
  case zcPush s d => exact absurd rfl (hp s d)
  case zcFence d => exact absurd rfl (hf d)
  case zcStat s d => exact absurd rfl (hs s d)
  all_goals try exact decodesBack_of_no_word rfl
  all_goals simp only [decodesBack_integer, decodesBack_arithmetic, decodesBack_flow, decodesBack_capability_queue, decodesBack_system, decodesBack_memory, decodesBack_float, decodesBack_lane_integer, decodesBack_mask, decodesBack_permute, decodesBack_vector_memory, decodesBack_matrix, decodesBack_copy, decodesBack_network, decodesBack_bp, decodesBack_amo]

/-- The fields of a zc word, which a command-processor core reads back. -/
theorem decodeZc_encodeNat :
    (∀ s d, decodeZc (BitVec.ofNat 32 (put (put 0x0000000B s 15) d 7)) = some (.zcPush s d)) ∧
    (∀ d, decodeZc (BitVec.ofNat 32 (put 0x0000100B d 7)) = some (.zcFence d)) ∧
    (∀ s d, decodeZc (BitVec.ofNat 32 (put (put 0x0000200B s 15) d 7)) = some (.zcStat s d)) := by
  and_intros
  all_goals
    intros
    rw [decodeZc, BitVec.toNat_ofNat, Nat.mod_eq_of_lt (by simp)]
    simp [opnd_eq_bits, bits_beq_split (show 20 = 3 + 17 from rfl)]

-- Encoding a decoded word

/-- The low k bits of a word, as an integer: every field is the difference of two of them. -/
def lowBits (n k : Nat) : Int := n % 2 ^ k

theorem lowBits_add (n lo j : Nat) : lowBits n (lo + j) = lowBits n lo + bits n lo j * 2 ^ lo := by
  unfold lowBits bits
  rw [pow_add]
  exact_mod_cast (Nat.mod_mul).trans (by rw [mul_comm (2 ^ lo)])

@[simp] theorem lowBits_zero (n : Nat) : lowBits n 0 = 0 := by simp [lowBits]

theorem lowBits_word {n : Nat} (h : n < 2 ^ 32) : lowBits n 32 = n := by
  unfold lowBits; exact_mod_cast Nat.mod_eq_of_lt h

theorem bits_eq_iff (n lo j c : Nat) : bits n lo j = c ↔ lowBits n (lo + j) = lowBits n lo + c * 2 ^ lo := by
  have hp := pow_pos (show (0 : Int) < 2 by decide) lo
  rw [lowBits_add]
  refine ⟨fun h => by rw [h], fun h => ?_⟩
  exact_mod_cast mul_right_cancel₀ hp.ne' (add_left_cancel h)

theorem put_opnd (w n lo j : Nat) : (put w (opnd n lo j) lo : Int) = w + (lowBits n (lo + j) - lowBits n lo) := by
  rw [lowBits_add]
  simp [put, opnd, bits]

/-- The instruction's word is the number n. -/
theorem encodesTo {a n : Nat} (h : (a : Int) = n) : some a = some n := by rw [Int.ofNat_inj.1 h]

section
variable {n : Nat} {i : Instr} (h32 : lowBits n 32 = n)
include h32

theorem encodeNat_decodeInteger (hn : bits n 31 1 = 0) (hm : bits n 24 6 = 0) (h : decodeInteger n = some i) : encodeNat i = some n := by
  unfold decodeInteger at h
  split at h <;> cases h
  all_goals
    refine encodesTo ?_
    simp only [put_opnd, bits_eq_iff] at *
    norm_num at *
    omega

theorem encodeNat_decodeControl_arithmetic (hn : bits n 31 1 = 0) (hl : 1 ≤ bits n 24 6) (hr : bits n 24 6 < 16)
    (h : decodeControl n = some i) : encodeNat i = some n := by
  unfold decodeControl at h
  split at h
  all_goals try omega
  all_goals
    repeat' split at h
    all_goals cases h
  all_goals
    refine encodesTo ?_
    simp only [put_opnd, bits_eq_iff, Bool.and_eq_true, beq_iff_eq] at *
    norm_num at *
    omega

theorem encodeNat_decodeControl_flow (hn : bits n 31 1 = 0) (hl : 16 ≤ bits n 24 6) (hr : bits n 24 6 < 40)
    (h : decodeControl n = some i) : encodeNat i = some n := by
  unfold decodeControl at h
  split at h
  all_goals try omega
  all_goals
    repeat' split at h
    all_goals cases h
  all_goals
    refine encodesTo ?_
    simp only [put_opnd, bits_eq_iff, Bool.and_eq_true, beq_iff_eq] at *
    norm_num at *
    omega

theorem encodeNat_decodeControl_system (hn : bits n 31 1 = 0) (hl : 40 ≤ bits n 24 6) (hr : bits n 24 6 < 53)
    (h : decodeControl n = some i) : encodeNat i = some n := by
  unfold decodeControl at h
  split at h
  all_goals try omega
  all_goals
    repeat' split at h
    all_goals cases h
  all_goals
    refine encodesTo ?_
    simp only [put_opnd, bits_eq_iff, Bool.and_eq_true, beq_iff_eq] at *
    norm_num at *
    omega

theorem encodeNat_decodeControl_memory (hn : bits n 31 1 = 0) (hl : 53 ≤ bits n 24 6) (hr : bits n 24 6 < 64)
    (h : decodeControl n = some i) : encodeNat i = some n := by
  unfold decodeControl at h
  split at h
  all_goals try omega
  all_goals
    repeat' split at h
    all_goals cases h
  all_goals
    refine encodesTo ?_
    simp only [put_opnd, bits_eq_iff, Bool.and_eq_true, beq_iff_eq] at *
    norm_num at *
    omega

theorem encodeNat_decodeVector (hn : bits n 31 1 = 1) (he : bits n 28 2 = 0) (h : decodeVector n = some i) : encodeNat i = some n := by
  unfold decodeVector at h
  split at h
  all_goals
    repeat' split at h
    all_goals cases h
  all_goals
    refine encodesTo ?_
    simp only [put_opnd, bits_eq_iff, Bool.and_eq_true, beq_iff_eq] at *
    norm_num at *
    omega

theorem encodeNat_decodeMatrix (hn : bits n 31 1 = 1) (he : bits n 28 2 = 1) (h : decodeMatrix n = some i) : encodeNat i = some n := by
  unfold decodeMatrix at h
  split at h
  all_goals
    repeat' split at h
    all_goals cases h
  all_goals
    refine encodesTo ?_
    simp only [put_opnd, bits_eq_iff, Bool.and_eq_true, beq_iff_eq] at *
    norm_num at *
    omega

theorem encodeNat_decodeCopy (hn : bits n 31 1 = 1) (he : bits n 28 2 = 2) (h : decodeCopy n = some i) : encodeNat i = some n := by
  unfold decodeCopy at h
  split at h
  all_goals
    repeat' split at h
    all_goals cases h
  all_goals
    refine encodesTo ?_
    simp only [put_opnd, bits_eq_iff, beq_iff_eq] at *
    norm_num at *
    omega

theorem encodeNat_decodeNetwork (hn : bits n 31 1 = 1) (he : bits n 28 2 = 3) (h : decodeNetwork n = some i) : encodeNat i = some n := by
  unfold decodeNetwork at h
  split at h
  all_goals
    repeat' split at h
    all_goals cases h
  all_goals
    refine encodesTo ?_
    simp only [put_opnd, bits_eq_iff, Bool.and_eq_true, beq_iff_eq] at *
    norm_num at *
    omega

theorem encodeNat_decodeControl (hn : bits n 31 1 = 0) (h : decodeControl n = some i) : encodeNat i = some n := by
  have hm : bits n 24 6 < 64 := Nat.mod_lt _ (by decide)
  rcases Nat.eq_zero_or_pos (bits n 24 6) with h0 | h0
  · unfold decodeControl at h
    rw [h0] at h
    exact encodeNat_decodeInteger h32 hn h0 h
  · rcases Nat.lt_or_ge (bits n 24 6) 16 with h1 | h1
    · exact encodeNat_decodeControl_arithmetic h32 hn h0 h1 h
    · rcases Nat.lt_or_ge (bits n 24 6) 40 with h2 | h2
      · exact encodeNat_decodeControl_flow h32 hn h1 h2 h
      · rcases Nat.lt_or_ge (bits n 24 6) 53 with h3 | h3
        · exact encodeNat_decodeControl_system h32 hn h2 h3 h
        · exact encodeNat_decodeControl_memory h32 hn h3 hm h

/-- What a core thread reads in a word has that word. -/
theorem encodeNat_decodeFields (h : decodeFields n = some i) : encodeNat i = some n := by
  unfold decodeFields at h
  split at h
  case isTrue hn => exact encodeNat_decodeControl h32 (by simpa using hn) h
  case isFalse hn =>
    have hn : bits n 31 1 = 1 := by
      have : bits n 31 1 < 2 := Nat.mod_lt _ (by decide)
      simp only [beq_iff_eq] at hn
      omega
    have he : bits n 28 2 < 4 := Nat.mod_lt _ (by decide)
    split at h
    · exact encodeNat_decodeVector h32 hn (by assumption) h
    · exact encodeNat_decodeMatrix h32 hn (by assumption) h
    · exact encodeNat_decodeCopy h32 hn (by assumption) h
    case _ h0 h1 h2 => exact encodeNat_decodeNetwork h32 hn (by simp only [imp_false] at h0 h1 h2; omega) h

/-- What a command-processor core reads in a word has that word. -/
theorem encodeNat_decodeZc {w : W32} (hw : w.toNat = n) (h : decodeZc w = some i) : encodeNat i = some n := by
  simp only [decodeZc, hw] at h
  repeat' split at h
  all_goals cases h
  all_goals
    refine encodesTo ?_
    simp only [put_opnd, bits_eq_iff, Bool.and_eq_true, beq_iff_eq] at *
    norm_num at *
    omega

end

/-- Settles O56: the encoder's fields are read back one by one, and what a decoder has read adds up to the word. -/
theorem decodeAndEncodeAgree : Obligations.DecodeAndEncodeAgree := by
  unfold Obligations.DecodeAndEncodeAgree
  have whole : ∀ (i : Instr) (w : W32), encodeNat i = some w.toNat → encode i = some w := fun i w h => by
    rw [encode, h, Option.map_some, BitVec.ofNat_toNat, BitVec.setWidth_eq]
  refine ⟨fun i w hw he => ?_, fun i w h => ?_, fun i w h => whole i w (encodeNat_decodeZc (lowBits_word w.isLt) rfl h)⟩
  · obtain ⟨n, hn, rfl⟩ := Option.map_eq_some_iff.1 he
    obtain ⟨hPush, hFence, hStat⟩ := decodeZc_encodeNat
    split
    · cases hn; exact hPush _ _
    · cases hn; exact hFence _
    · cases hn; exact hStat _ _
    case _ hp hf hs =>
      obtain ⟨hlt, hd⟩ := decodesBack i (fun s d e => hp s d e) (fun d e => hf d e) (fun s d e => hs s d e) n hw hn
      rw [decode, BitVec.toNat_ofNat, Nat.mod_eq_of_lt hlt, hd]
      exact if_pos hw
  · unfold decode at h
    split at h
    · cases h
    · split at h
      case isTrue hwf => cases h; exact ⟨hwf, whole _ w (encodeNat_decodeFields (lowBits_word w.isLt) (by assumption))⟩
      case isFalse => cases h

end Sys2Proof
end

/-!
# p0 and c0 (O12)
-/

section
namespace Sys2Proof
open Machine

/-- Setting one bit of a word changes that bit alone. -/
theorem getLsbD_setField_bit {k : Nat} (w : BitVec k) (n m : Nat) (b : Bool) (hm : m < k) :
    (setField w n 1 (if b then 1 else 0)).getLsbD m = if n = m then b else w.getLsbD m := by
  unfold setField
  by_cases h : n = m
  · subst h; cases b <;> simp [hm]
  · rcases Nat.lt_or_ge m n with hlt | hge
    · cases b <;> simp [h, hm, hlt]
    · have hd : m - n ≠ 0 := by omega
      cases b <;> simp [h, hm, hd, Nat.not_lt.2 hge]

/-- The predicate registers after a write of one: the value, but p0 keeps reading true. -/
theorem getP_setP (t : Thread) (n m : Nat) (b : Bool) (hm : m < 8) : (t.setP n b).getP m = if n = m ∧ n ≠ 0 then b else t.getP m := by
  unfold Thread.setP Thread.getP
  by_cases h : n = 0
  · simp [h]
  · by_cases g : n = m
    · subst g; simp [h, getLsbD_setField_bit _ _ _ _ hm]
    · simp [h, g, getLsbD_setField_bit _ _ _ _ hm]

/-- No word with destination p0 is well formed. -/
theorem wf_destination_zero (z : BitVec 1) (c : BitVec 3) (a b : BitVec 6) (q r : BitVec 3) (k : BitVec 5) (i : BitVec 12) (d : BitVec 20) :
    ∀ x ∈ [Instr.cmp z c 0 a b, .cmpi z c 0 a i, .pand z 0 q r, .por z 0 q r, .pxor z 0 q r, .pnot z 0 q, .pmov z 0 q,
      .ctest z 0 k b, .qpoll z 0 q, .barTest z 0 k, .bnp 0 d], x.wf = false := by
  simp only [List.forall_mem_cons, List.not_mem_nil, false_imp_iff, implies_true, and_true]
  exact ⟨Bool.and_false _, Bool.and_false _, rfl, rfl, rfl, rfl, rfl, rfl, rfl, rfl, rfl⟩

/-- The fields of a branch with p = 0 and neg = 1. -/
theorem decodeFields_bnp_zero (d : BitVec 20) : decodeFields (put 0x14100000 d 0) = some (.bnp 0 d) := by
  simp [decodeFields, decodeControl, opnd_eq_bits]

/-- Settles O12: reads after writes of the registers; a word with destination 0 would be well formed, as all decoded words are. -/
theorem predicateZeroReadsTrue : Obligations.PredicateZeroReadsTrue := by
  unfold Obligations.PredicateZeroReadsTrue
  refine ⟨fun t => ⟨rfl, rfl, fun b => rfl, fun c => rfl, fun n hlt hn b => ?_, fun n _ hn c => ?_⟩, ?_, fun d => ⟨.reservedValue, ?_⟩⟩
  · exact ⟨by simp [getP_setP, hn.ne', hlt], fun m hm h => by simp [getP_setP, h.symm, hm]⟩
  · exact ⟨by simp [Thread.getC_setC, hn.ne'], fun m _ h => by simp [Thread.getC_setC, h.symm]⟩
  · intro z c a b q r k i d x hx w hw
    have hf := wf_destination_zero z c a b q r k i d x hx
    rw [(decodeAndEncodeAgree.2.1 x w hw).1] at hf
    cases hf
  · have hn : (BitVec.ofNat 32 (0x14 * 2 ^ 24 + 2 ^ 20 + d.toNat)).toNat = put 0x14100000 d 0 := by
      rw [BitVec.toNat_ofNat, put]; omega
    rw [decode, hn, decodeFields_bnp_zero]
    rfl

end Sys2Proof
end

/-!
# Power-on, and words of the manual (O58, O59)
-/

section
namespace Sys2Proof
open Machine

/-- In a sparse array that lists nothing every key holds the default. -/
@[simp] theorem mapGet_nil {α : Type} (d : α) (k : Nat) : mapGet d [] k = d := rfl

/-- Settles O58: after power-on nothing is listed, so that every accessor finds the reset value of its record. -/
theorem resetState : Obligations.ResetState := by
  unfold Obligations.ResetState
  refine ⟨rfl, mapGet_nil _, rfl, rfl, fun i => ?_, fun h => ?_, fun m => ?_, fun k => ?_, Thread.getS_zero _, Thread.getC_zero _,
    Thread.getP_zero _, fun r lane hl => ?_, rfl, rfl, rfl, rfl, rfl⟩
  · rw [show islandAt State.reset i = Island.off from mapGet_nil _ i]; rfl
  · rw [show hartAt State.reset h = Hart.reset from mapGet_nil _ h]; exact ⟨rfl, rfl, rfl, rfl⟩
  · rw [show mcbAt State.reset m = Mcb.zero from mapGet_nil _ m]; exact ⟨rfl, rfl⟩
  · rw [show coreAt State.reset k = Core.reset from mapGet_nil _ k]; rfl
  · rw [show VectorState.reset.v = [] from rfl, mapGet_nil, List.getD_eq_getElem?_getD, List.getElem?_replicate_of_lt hl]; rfl

/-- Settles O59: each word is run through its decoder. -/
theorem sampleWordsDecode : Obligations.SampleWordsDecode := by
  unfold Obligations.SampleWordsDecode
  and_intros <;> rfl

end Sys2Proof
end

/-!
# The steps of an access that nothing stops, and the fetch (O60)
-/

section
namespace Sys2Proof
open Machine

-- The steps of an access

/-- No earlier write of the core touches the bytes of an access. -/
theorem waitHoard_ok {s : State} {k obj off n : Nat} (h : hoardOverlaps s k ((coreAt s k).bound.getD 0) obj off n = false) :
    (waitHoard k obj off n).run s = .ok () s := by
  unfold waitHoard
  rw [run_bind_ok (run_get s), h]
  rfl

/-- No posted write of the part stands before a read of HOST. -/
theorem behindPosted_ok {s : State} {sp : Nat} (h : sp = 2 → ∀ e ∈ s.cores, ∀ f ∈ e.2.flight, f.place.sp ≠ 2) :
    (behindPosted sp).run s = .ok () s := by
  unfold behindPosted
  rw [run_bind_ok (run_get s), if_neg]
  · rfl
  · simp only [Bool.and_eq_true, decide_eq_true_eq, List.any_eq_true, beq_iff_eq, not_and, not_exists]
    exact fun hs e he f hf => h hs e he f hf

theorem behindFlights_ok {s : State} {r : Res} {n : Nat} (h : noFlights s r n) : (behindFlights r n).run s = .ok () s := by
  unfold behindFlights
  rw [run_bind_ok (run_get s), if_neg]
  · rfl
  · simp only [Bool.and_eq_true, decide_eq_true_eq, List.any_eq_true, not_and, not_exists, Bool.not_eq_true]
    exact h

/-- Nothing that the environment denies is denied. -/
theorem denies_none {s : State} {r : Res} {n : Nat} (h : ∀ d ∈ s.hostDeny, overlaps d.1 d.2 r.key n = false) : denies s r n = none := by
  unfold denies
  rw [if_neg]
  simpa using h

theorem permits_ok {s : State} {r : Res} {n off : Nat} (h : ∀ d ∈ s.hostDeny, overlaps d.1 d.2 r.key n = false) :
    (permits r n off).run s = .ok () s := by
  unfold permits
  rw [run_bind_ok (run_get s), denies_none h]
  rfl

theorem answers_ok {s : State} {r : Res} {n off : Nat} (hd : ∀ d ∈ s.hostDeny, overlaps d.1 d.2 r.key n = false)
    (ha : silent s r.key n = false) : (answers r n off).run s = .ok () s := by
  unfold answers
  rw [run_bind_ok (permits_ok hd), run_bind_ok (run_get s), ha]
  rfl

theorem checkLines_ok {s : State} {off : Nat} {r : Res} {n : Nat} (h : ∀ l ∈ linesOf r.key n, mapFind s.bad l = none) :
    (checkLines off r n).run s = .ok () s := by
  unfold checkLines
  rw [run_bind_ok (run_get s), List.find?_eq_none.2 fun l hl => by rw [h l hl]; decide]
  rfl

theorem readPiece_ok (w : Who) (obj off : Nat) (r : Res) (n : Nat) (s : State) :
    (readPiece w obj off r n).run s = .ok (viewBytes s (tweakOf s w.mcb r.dir obj off) r.key n) s := rfl

-- The fetch

/-- A fetch through a code capability that admits it, at a place that is reached, checks and answers, gives the word there, and counts as an access. -/
theorem fetchWord_ok {s s1 : State} {r : Res} (ha : (theThread s).pc.toNat % 4 = 0)
    (hc : admits (theThread s).code permEXEC (theThread s).pc.toNat 4) (hp : (theThread s).pc.toNat + 4 ≤ 2 ^ 40)
    (hs : (theThread s).code.sp ≤ 5) (hb : notBehind s (theThread s).code (theThread s).pc.toNat 4)
    (hr : does (resolve (whoNow s) (theThread s).code.obj (theThread s).code.sp (theThread s).pc.toNat { write := false }) s r s1)
    (hf : noFlights s1 r 4) (hl : ∀ l ∈ linesOf r.key 4, mapFind s1.bad l = none)
    (hd : ∀ d ∈ s1.hostDeny, overlaps d.1 d.2 r.key 4 = false) (hn : silent s1 r.key 4 = false) :
    fetchWord.run s = .ok (BitVec.ofNat 32 (leNat (bytesAt s1 (whoNow s).mcb (theThread s).code (theThread s).pc.toNat 4 r)))
      (countAccess s1 (whoNow s) (theThread s).code.obj (theThread s).pc.toNat 4 r) := by
  obtain ⟨htag, hver, -, -, hlo, hhi, hperm, -⟩ := hc
  unfold fetchWord
  rw [run_bind_ok (run_thread s)]
  dsimp only
  rw [if_neg (by omega), if_neg (by simp [Cap.valid, htag, hver]), if_neg (by simp; omega), if_neg (by simp [Cap.has, hperm]),
    if_neg (by omega), run_bind_ok (run_get s), run_bind_ok (run_self s), run_bind_ok (waitHoard_ok (k := (whoThread s s.turn).core) hb.1), run_bind_ok (behindPosted_ok hb.2),
    run_bind_ok (m := resolve (whoThread s s.turn) _ _ _ _) hr, run_bind_ok (behindFlights_ok hf), run_bind_ok (answers_ok hd hn), run_bind_ok (checkLines_ok hl),
    run_bind_ok (readPiece_ok _ _ _ _ _ s1)]
  rfl

theorem length_viewBytes (s : State) (want : Option Tweak) (k n : Nat) : (viewBytes s want k n).length = n := by
  simp [viewBytes]

/-- A word that decodes to no instruction raises the illegal-instruction fault (R35). -/
theorem execIllegalInstruction_error {w : W32} {e : Reject} (h : decode w = .error e) (s : State) :
    execIllegalInstruction w s = halts false s s .exit (.fault { cls := 2, sub := 0, addr := 0 }) := by
  unfold execIllegalInstruction
  rw [h]
  exact runWord_error (run_raise 2 0 0 s)

/-- A thread that may run, holds at nothing and owes no stop record fetches. -/
theorem moveThread_fetches {k : Nat} {s0 : State} (hr : threadRuns { s0 with turn := k } k = true)
    (hh : (coreAt { s0 with turn := k } k).hold = none) (ho : (coreAt { s0 with turn := k } k).owed = none) :
    moveThread k s0 = fetchAndRun k { s0 with turn := k } := by
  have hrec : handlerRecord { s0 with turn := k } k = { s0 with turn := k } := by unfold handlerRecord; rw [ho]
  unfold moveThread
  dsimp only
  rw [hr, surelyHeld, hh, hrec, ho, heldWord, hh]
  rfl

/-- Settles O60: the thread's move goes through to the fetch (`moveThread_fetches`, `fetchWord_ok`), the other agents' moves by definition. -/
theorem stepRunsTheWordAtThePc : Obligations.StepRunsTheWordAtThePc := by
  unfold Obligations.StepRunsTheWordAtThePc
  refine ⟨?_, fun s rest i ha => ?_, ?_⟩
  · intro s rest k r s1 hag s0 t pc hrun hhold howed hbrk hpc hmax htag hver hlo hhi hperm hsp hbehind hres hfl hlines hdeny hsil bs s2
    have hstep : step s = fetchAndRun k s0 := by
      unfold step
      rw [hag]
      exact moveThread_fetches hrun hhold howed
    have hadm : admits t.code permEXEC pc 4 := ⟨htag, hver, by omega, by omega, by omega, by omega, hperm, by omega⟩
    have hfetch : fetchWord.run s0 = .ok (BitVec.ofNat 32 (leNat bs)) s2 :=
      fetchWord_ok hpc hadm hmax hsp hbehind hres hfl hlines hdeny hsil
    have hbytes : decodeBytes bs = decode (BitVec.ofNat 32 (leNat bs)) := by
      rw [decodeBytes, List.take_of_length_le (show bs.length = 4 from length_viewBytes _ _ _ _).le]
    rw [hbytes, hstep]
    unfold fetchAndRun
    rw [hbrk]
    dsimp only
    rw [hfetch]
    refine ⟨fun i hi => ?_, fun e he => ?_⟩
    · dsimp only; rw [hi]
    · dsimp only; rw [he]; exact execIllegalInstruction_error he s2
  · unfold step
    rw [ha]
    rfl
  · intro s rest h i w ha s0 x hrun hint hfetch hdec
    have hnone : (if x.fencing then none else x.interrupt) = none := by
      rcases hint with hf | hi
      · rw [if_pos hf]
      · rw [hi, ite_self]
    unfold step
    rw [ha]
    show moveHart h _ = _
    unfold moveHart
    dsimp only
    rw [show (hartAt { tick { s with agenda := rest } with hart := h } h).running = true from hrun]
    simp only [Bool.not_true, Bool.false_eq_true, if_false]
    rw [hnone]
    dsimp only
    rw [hfetch]
    dsimp only
    rw [hdec]

end Sys2Proof
end

/-!
# Scalar operands and queue ports (O10, O11)
-/

section
namespace Sys2Proof
open Machine

/-- A port's word, popped: the state loses it, and the thread takes its edges (R128). -/
def popped (s : State) (n : Nat) (c : Core) (e : EdgeSet) : State := (acquire (s.setCore s.turn c) s.turn e).touchPort s.turn s.turn n

/-- A pop leaves the core as it was without the word, but for its edges and the name of who popped. -/
theorem coreAt_popped (s : State) (n : Nat) (c : Core) (e : EdgeSet) : coreAt (popped s n c e) s.turn =
    { c with edges := c.edges.join e, portSetter := mapPut c.portSetter n (agentId 0 s.turn 0 0) } := by
  simp [popped, acquire, State.touchPort]

@[simp] theorem popped_turn (s : State) (n : Nat) (c : Core) (e : EdgeSet) : (popped s n c e).turn = s.turn := by
  simp [popped, acquire, State.touchPort]

theorem run_readS_port {n : BitVec 6} (h : 56 ≤ n.toNat) (s : State) : (readS n).run s = (popPort n.toNat).run s := by
  rw [readS, if_neg (by omega)]

theorem run_writeS_port {n : BitVec 6} (h : 56 ≤ n.toNat) (v : W64) (s : State) : (writeS n v).run s = (pushPort n.toNat v).run s := by
  rw [writeS, if_neg (by omega)]

@[simp] theorem Core.port_setPort (c : Core) (n : Nat) (q : List QueueWord) : (c.setPort n q).port n = q := by
  simp [Core.port, Core.setPort]

@[simp] theorem Core.th_setPort (c : Core) (n : Nat) (q : List QueueWord) : (c.setPort n q).th = c.th := rfl

-- Pops

/-- A pop of qi, qc or qv takes the first word. -/
theorem popPort_queues (s : State) :
    (∀ w rest, (coreAt s s.turn).qi = w :: rest →
      (popPort 62).run s = .ok w.val (popped s 62 { coreAt s s.turn with qi := rest } w.edges)) ∧
    (∀ w rest, (coreAt s s.turn).qc = w :: rest →
      (popPort 61).run s = .ok w.word (popped s 61 { coreAt s s.turn with qc := rest } w.edges)) ∧
    (∀ w rest, (coreAt s s.turn).qv = w :: rest →
      (popPort 60).run s = .ok w.val (popped s 60 { coreAt s s.turn with qv := rest } w.edges)) := by
  refine ⟨fun w rest h => ?_, fun w rest h => ?_, fun w rest h => ?_⟩ <;>
    (unfold popPort; rw [run_bind_ok (run_get s)]; dsimp only; simp only [h]; rfl)

/-- A read of a neighbour port with a neighbour in the plot pops the queue from that side, or waits for a word. -/
theorem popPort_neighbour {n : Nat} {s : State} (hl : 56 ≤ n) (hr : n < 60) (hn : plotNeighbour s s.turn (n - 56) ≠ none) :
    (∀ w rest, (coreAt s s.turn).port (n - 56) = w :: rest →
      (popPort n).run s = .ok w.val (popped s n ((coreAt s s.turn).setPort (n - 56) rest) w.edges)) ∧
    ((coreAt s s.turn).port (n - 56) = [] → (popPort n).run s = (waitOn .port n : M W64).run s) := by
  unfold popPort
  rw [run_bind_ok (run_get s)]
  dsimp only
  rw [if_neg (by omega), if_neg (by omega), if_neg (by omega), if_neg (by omega), if_neg (by simpa using hn)]
  refine ⟨fun w rest h => ?_, fun h => ?_⟩
  · simp only [h]; rfl
  · simp only [h]

/-- A read of an empty qi, qc or qv waits for a word. -/
theorem popPort_empty (s : State) :
    ((coreAt s s.turn).qi = [] → (popPort 62).run s = (waitOn .port 62 : M W64).run s) ∧
    ((coreAt s s.turn).qc = [] → (popPort 61).run s = (waitOn .port 61 : M W64).run s) ∧
    ((coreAt s s.turn).qv = [] → (popPort 60).run s = (waitOn .port 60 : M W64).run s) := by
  refine ⟨fun h => ?_, fun h => ?_, fun h => ?_⟩ <;>
    (unfold popPort; rw [run_bind_ok (run_get s)]; dsimp only; simp only [h]; rfl)

-- Misuse

/-- A neighbour port that leads out of the plot is misuse with SUB 1, for a read and for a write. -/
theorem port_no_neighbour {n : Nat} {s : State} (hl : 56 ≤ n) (hr : n < 60) (hn : plotNeighbour s s.turn (n - 56) = none) :
    (popPort n).run s = (raise 10 1 0 : M W64).run s ∧ ∀ u v, (pushRoom s n).run u = (raise 10 1 0 : M Unit).run u ∧
      (pushPort n v).run s = (raise 10 1 0 : M Unit).run s := by
  have hroom : ∀ u, (pushRoom s n).run u = (raise 10 1 0 : M Unit).run u := fun u => by
    unfold pushRoom
    dsimp only
    rw [if_neg (by simp; omega), if_neg (by omega), hn]
  refine ⟨?_, fun u v => ⟨hroom u, ?_⟩⟩
  · unfold popPort
    rw [run_bind_ok (run_get s)]
    dsimp only
    rw [if_neg (by omega), if_neg (by omega), if_neg (by omega), if_neg (by omega), if_pos (by simpa using hn)]
    rfl
  · unfold pushPort
    rw [run_bind_ok (run_get s)]
    exact run_bind_error (hroom s)

/-- qv, qc and qi take no word from a thread. -/
theorem pushPort_queues {n : Nat} (hl : 60 ≤ n) (hr : n < 63) (v : W64) (s : State) :
    (pushPort n v).run s = (raise 10 0 0 : M Unit).run s := by
  have hroom : (pushRoom s n).run s = (raise 10 0 0 : M Unit).run s := by
    unfold pushRoom
    dsimp only
    rw [if_pos (by simp; omega)]
  unfold pushPort
  rw [run_bind_ok (run_get s)]
  exact run_bind_error hroom

-- The obligation

theorem Thread.getS_of_ne_zero (t : Thread) {n : Nat} (h : n ≠ 0) : t.getS n = mapGet 0 t.s n := if_neg h

theorem theThread_popped {s : State} {n : Nat} {c : Core} {e : EdgeSet} (h : c.th = theThread s) : theThread (popped s n c e) = theThread s := by
  rw [theThread, popped_turn, coreAt_popped, ← h]

/-- Settles O10: registers by the register laws, ports by what a pop and a push do in each state of the queue. -/
theorem operandsReadAndWritten : Obligations.OperandsReadAndWritten := by
  unfold Obligations.OperandsReadAndWritten
  have toNat_ne {n : BitVec 6} (h : n ≠ 0) : n.toNat ≠ 0 := fun e => h (BitVec.eq_of_toNat_eq e)
  refine ⟨fun n s hn => ?_, fun n v s hn => ?_, fun s w rest h => ?_, fun s w rest h => ?_, fun s w rest h => ?_,
    fun n s w rest hl hr hp h => ?_, ?_, fun s => ⟨s, _, rfl, rfl, rfl⟩, fun n v s hl hr => ?_, fun n v s hl hr hp => ⟨?_, ?_⟩⟩
  · by_cases h0 : n = 0
    · subst h0; exact reads_register hn s
    · rw [if_neg h0, ← Thread.getS_of_ne_zero _ (toNat_ne h0)]; exact reads_register hn s
  · refine ⟨_, writes_register hn v s, fun h0 => ?_, fun h0 => ?_, fun m hm hm0 => ?_, rfl, rfl, fun k hk => coreAt_onThread_ne s _ hk.symm⟩
    · subst h0; exact theThread_onThread s _
    · rw [theThread_onThread, Thread.setS, if_neg (toNat_ne h0)]
    · have h := reads_register hm (onThread s (fun t => t.setS n.toNat v))
      rw [theThread_onThread, Thread.getS_setS] at h
      by_cases hmn : m = n
      · subst hmn; simpa [toNat_ne hm0] using h
      · rw [if_neg (fun e => hmn (BitVec.eq_of_toNat_eq e.1.symm)), Thread.getS_of_ne_zero _ (toNat_ne hm0)] at h
        rwa [if_neg hmn]
  · exact ⟨_, (popPort_queues s).1 w rest h, by rw [coreAt_popped], theThread_popped rfl⟩
  · exact ⟨_, (popPort_queues s).2.1 w rest h, by rw [coreAt_popped], theThread_popped rfl⟩
  · exact ⟨_, (popPort_queues s).2.2 w rest h, by rw [coreAt_popped], theThread_popped rfl⟩
  · refine ⟨_, (run_readS_port hl s).trans ((popPort_neighbour hl hr hp).1 w rest h), ?_, theThread_popped rfl⟩
    rw [coreAt_popped]; exact Core.port_setPort _ _ _
  · rintro n s (⟨rfl, h⟩ | ⟨rfl, h⟩ | ⟨rfl, h⟩ | ⟨hl, hr, hp, h⟩)
    · exact ⟨_, (popPort_empty s).1 h, rfl⟩
    · exact ⟨_, (popPort_empty s).2.1 h, rfl⟩
    · exact ⟨_, (popPort_empty s).2.2 h, rfl⟩
    · exact ⟨_, (run_readS_port hl s).trans ((popPort_neighbour hl hr hp).2 h), rfl⟩
  · exact ⟨s, _, (run_writeS_port (by omega) v s).trans (pushPort_queues hl hr v s), rfl, rfl⟩
  · exact ⟨s, _, (run_readS_port hl s).trans (port_no_neighbour hl hr hp).1, rfl, rfl⟩
  · exact ⟨s, _, (run_writeS_port hl v s).trans ((port_no_neighbour hl hr hp).2 s v).2, rfl, rfl⟩

-- Pushes

/-- A push to a neighbour in the plot has room while its queue holds fewer than 8 words. -/
theorem pushRoom_neighbour {n d : Nat} {s : State} (hl : 56 ≤ n) (hr : n < 60) (hp : plotNeighbour s s.turn (n - 56) = some d) (u : State) :
    (((coreAt s d).port (farPort (n - 56))).length < 8 → (pushRoom s n).run u = .ok () u) ∧
    (8 ≤ ((coreAt s d).port (farPort (n - 56))).length → (pushRoom s n).run u = (waitOn .port n 1 : M Unit).run u) := by
  unfold pushRoom
  dsimp only
  rw [if_neg (by simp; omega), if_neg (by omega), hp]
  dsimp only
  exact ⟨fun h => by rw [if_neg (by omega)]; rfl, fun h => by rw [if_pos h]⟩

/-- A push to a mailbox has room while it holds fewer than 16 words; then its core must accept the sender. -/
theorem pushRoom_mailbox (s u : State) :
    ((coreAt s (mailboxDest (theThread s))).qi.length < 16 → mailboxAccepts s s.turn (mailboxDest (theThread s)) = true →
      (pushRoom s 63).run u = .ok () u) ∧
    ((coreAt s (mailboxDest (theThread s))).qi.length < 16 → mailboxAccepts s s.turn (mailboxDest (theThread s)) = false →
      (pushRoom s 63).run u = (raise 10 2 0 : M Unit).run u) ∧
    (16 ≤ (coreAt s (mailboxDest (theThread s))).qi.length → (pushRoom s 63).run u = (waitOn .port 63 1 : M Unit).run u) := by
  unfold pushRoom theThread
  dsimp only
  rw [if_neg (by decide), if_pos rfl]
  refine ⟨fun h ha => ?_, fun h ha => ?_, fun h => ?_⟩
  · rw [if_neg (by omega), ha]; rfl
  · rw [if_neg (by omega), ha]; rfl
  · rw [if_pos h]; rfl

/-- A release of a core with no earlier write of its own to perform passes; one with such a write waits. -/
theorem waitLog_drained {s : State} (h : drained s) : (waitLog s.turn).run s = .ok () s := by
  unfold waitLog
  rw [run_bind_ok (run_get s), h.1, h.2]
  rfl

theorem waitLog_undrained {s : State} (h : logDrained s s.turn = false) : (waitLog s.turn).run s = (waitOn .hoarded : M Unit).run s := by
  unfold waitLog
  rw [run_bind_ok (run_get s), h]
  rfl

/-- A push whose port has room is a release of its core (R128). -/
theorem pushPort_waits {n : Nat} {s : State} (h : (pushRoom s n).run s = .ok () s) (hd : logDrained s s.turn = false) (v : W64) :
    (pushPort n v).run s = (waitOn .hoarded : M Unit).run s := by
  unfold pushPort
  rw [run_bind_ok (run_get s), run_bind_ok h]
  exact run_bind_error (waitLog_undrained hd)

/-- A push that finds no room, or no destination, goes no further. -/
theorem pushPort_error {n : Nat} {s u : State} {e : Stop} (h : (pushRoom s n).run s = .error e u) (v : W64) :
    (pushPort n v).run s = .error e u := by
  unfold pushPort
  rw [run_bind_ok (run_get s)]
  exact run_bind_error h

/-- Core d after core k has pushed a word to it: `f` is the queue's change, and k begins a new region (R128). -/
def pushed (s : State) (d n : Nat) (f : Core → Core) : State := closeRegion ((s.updCore d f).touchPort s.turn d n) s.turn

theorem theThread_pushed {s : State} {d n : Nat} {f : Core → Core} (h : ∀ c, (f c).th = c.th) : theThread (pushed s d n f) = theThread s := by
  unfold theThread pushed
  by_cases g : d = s.turn <;> simp [closeRegion, State.touchPort, g, h]

/-- The destination holds what the push has put there. -/
theorem coreAt_pushed (s : State) (d n : Nat) (f : Core → Core) :
    (coreAt (pushed s d n f) d).qi = (f (coreAt s d)).qi ∧ (coreAt (pushed s d n f) d).qin = (f (coreAt s d)).qin := by
  unfold pushed
  by_cases g : s.turn = d <;> simp [closeRegion, State.touchPort, g]

theorem pushPort_neighbour {n d : Nat} {s : State} (hr : n < 60) (hp : plotNeighbour s s.turn (n - 56) = some d)
    (h : (pushRoom s n).run s = .ok () s) (hd : drained s) (v : W64) :
    (pushPort n v).run s = .ok () (pushed s d (56 + farPort (n - 56))
      (fun c => c.setPort (farPort (n - 56)) (c.port (farPort (n - 56)) ++ [⟨v, threadEdges s s.turn, s.turn⟩]))) := by
  unfold pushPort
  rw [run_bind_ok (run_get s), run_bind_ok h, run_bind_ok (waitLog_drained hd)]
  dsimp only
  rw [if_neg (by omega), hp]
  rfl

theorem pushPort_mailbox {s : State} (h : (pushRoom s 63).run s = .ok () s) (hd : drained s) (v : W64) :
    (pushPort 63 v).run s = .ok () (pushed s (mailboxDest (theThread s)) 62
      (fun c => { c with qi := c.qi ++ [⟨v, threadEdges s s.turn, s.turn⟩] })) := by
  unfold pushPort
  rw [run_bind_ok (run_get s), run_bind_ok h, run_bind_ok (waitLog_drained hd)]
  rfl

/-- Settles O11: a push looks for room, then is a release, and then appends its word. -/
theorem portPush : Obligations.PortPush := by
  unfold Obligations.PortPush
  refine ⟨fun n v s d hl hr hp hne => ⟨fun hroom hd => ?_, fun hroom hd => ?_, fun hfull => ?_⟩,
    fun v s => ⟨fun hroom ha hd => ?_, fun hroom ha hd => ?_, fun hroom ha => ?_, fun hfull => ?_⟩⟩
  · have hok := (pushRoom_neighbour hl hr hp s).1 hroom
    refine ⟨_, threadEdges s s.turn, (run_writeS_port hl v s).trans (pushPort_neighbour hr hp hok hd v), ?_, theThread_pushed fun c => rfl⟩
    rw [Core.port, (coreAt_pushed _ _ _ _).2]
    exact Core.port_setPort _ _ _
  · have hok := (pushRoom_neighbour hl hr hp s).1 hroom
    exact ⟨_, (run_writeS_port hl v s).trans (pushPort_waits hok hd v), rfl⟩
  · exact ⟨_, (run_writeS_port hl v s).trans (pushPort_error ((pushRoom_neighbour hl hr hp s).2 hfull) v), rfl⟩
  · have hok := (pushRoom_mailbox s s).1 hroom ha
    exact ⟨_, _, pushPort_mailbox hok hd v, (coreAt_pushed _ _ _ _).1, theThread_pushed fun c => rfl⟩
  · have hok := (pushRoom_mailbox s s).1 hroom ha
    exact ⟨_, pushPort_waits hok hd v, rfl⟩
  · exact ⟨s, _, pushPort_error ((pushRoom_mailbox s s).2.1 hroom ha) v, rfl, rfl⟩
  · exact ⟨_, pushPort_error ((pushRoom_mailbox s s).2.2 hfull) v, rfl⟩

end Sys2Proof
end

/-!
# Words that wait and words that fault (O3, O4)

A record of a wait may be written to memory, and then changes nothing but bytes (`OnlyBytes`). What else a stop does to the cores is said by
`Kept`: engines rewind, counters count and holds end, while registers, ports, slots and logs stand.
-/

section
namespace Sys2Proof
open Machine

-- What a write of bytes leaves

/-- Nothing but bytes of memory and what goes with them differs: tags, line checks, durable values and ciphers. -/
def OnlyBytes (s t : State) : Prop := { t with mem := s.mem, tags := s.tags, bad := s.bad, pmem := s.pmem, enc := s.enc } = s

theorem OnlyBytes.refl (s : State) : OnlyBytes s s := rfl

theorem OnlyBytes.trans {a b c : State} (h : OnlyBytes a b) (g : OnlyBytes b c) : OnlyBytes a c := by
  have := congrArg (fun x : State => { x with mem := a.mem, tags := a.tags, bad := a.bad, pmem := a.pmem, enc := a.enc }) g
  exact this.trans h

theorem OnlyBytes.foldl {α : Type} {f : State → α → State} (h : ∀ s a, OnlyBytes s (f s a)) (l : List α) (s : State) :
    OnlyBytes s (l.foldl f s) :=
  foldl_keeps (P := OnlyBytes s) (fun _ a hb => hb.trans (h _ a)) l s (.refl s)

theorem OnlyBytes.cores {s t : State} (h : OnlyBytes s t) : t.cores = s.cores := by have := congrArg State.cores h; exact this
theorem OnlyBytes.mcbs {s t : State} (h : OnlyBytes s t) : t.mcbs = s.mcbs := by have := congrArg State.mcbs h; exact this
theorem OnlyBytes.turn {s t : State} (h : OnlyBytes s t) : t.turn = s.turn := by have := congrArg State.turn h; exact this
theorem OnlyBytes.fe {s t : State} (h : OnlyBytes s t) : t.fe = s.fe := by have := congrArg State.fe h; exact this

theorem OnlyBytes.coreAt {s t : State} (h : OnlyBytes s t) (k : Nat) : coreAt t k = coreAt s k := by
  simp only [Machine.coreAt, h.cores]

theorem onlyBytes_markDirty (s : State) (sp addr : Nat) : OnlyBytes s (markDirty s sp addr) := by
  unfold markDirty
  split
  · exact .refl s
  · split
    · exact .refl s
    · rfl

theorem onlyBytes_retag (s : State) (want : Option Tweak) (line : Nat) : OnlyBytes s (retag s want line) := by
  unfold retag
  split
  · exact .refl s
  · rfl

theorem onlyBytes_markPages (s : State) (k n : Nat) : OnlyBytes s (markPages s k n) :=
  OnlyBytes.foldl (fun s _ => onlyBytes_markDirty s _ _) _ s

theorem onlyBytes_putBytes (s : State) (want : Option Tweak) (k : Nat) (bs : List Byte) : OnlyBytes s (putBytes s want k bs) := by
  unfold putBytes
  dsimp only
  split
  · exact .refl s
  · have h := OnlyBytes.foldl (fun s l => onlyBytes_retag s (want.map (fun t => (t.1, t.2.1, t.2.2 + (l - k / 64)))) l) (linesOf k bs.length) s
    revert h
    generalize (linesOf k bs.length).foldl _ s = s1
    intro h
    refine h.trans (OnlyBytes.trans ?_ (onlyBytes_markPages _ _ _))
    rfl

-- What the end of a wait and the halt line leave of the cores

/-- A core's registers, ports, slots, engines and logs stand: its commands may have been rewound, and its hold may be over. -/
structure CoreKept (c d : Core) : Prop where
  th : d.th = c.th
  bound : d.bound = c.bound
  qin : d.qin = c.qin
  qv : d.qv = c.qv
  qc : d.qc = c.qc
  qi : d.qi = c.qi
  om : d.om = c.om
  hoard : d.hoard = c.hoard
  vec : d.vec = c.vec
  mat : d.mat = c.mat
  pending : d.pending = c.pending
  ords : d.cmds.map (·.ord) = c.cmds.map (·.ord)
  hold : c.hold = none → d.hold = none

theorem CoreKept.refl (c : Core) : CoreKept c c := ⟨rfl, rfl, rfl, rfl, rfl, rfl, rfl, rfl, rfl, rfl, rfl, rfl, id⟩

theorem CoreKept.trans {a b c : Core} (h : CoreKept a b) (g : CoreKept b c) : CoreKept a c where
  th := g.th.trans h.th
  bound := g.bound.trans h.bound
  qin := g.qin.trans h.qin
  qv := g.qv.trans h.qv
  qc := g.qc.trans h.qc
  qi := g.qi.trans h.qi
  om := g.om.trans h.om
  hoard := g.hoard.trans h.hoard
  vec := g.vec.trans h.vec
  mat := g.mat.trans h.mat
  pending := g.pending.trans h.pending
  ords := g.ords.trans h.ords
  hold := g.hold ∘ h.hold

/-- Every core is kept, and so is every block, and the same core moves. -/
structure Kept (s t : State) : Prop where
  core : ∀ k, CoreKept (coreAt s k) (coreAt t k)
  mcbs : t.mcbs = s.mcbs
  turn : t.turn = s.turn

theorem Kept.mcbAt {s t : State} (h : Kept s t) (m : Nat) : mcbAt t m = mcbAt s m := by simp only [Machine.mcbAt, h.mcbs]

theorem Kept.refl (s : State) : Kept s s := ⟨fun _ => .refl _, rfl, rfl⟩

theorem Kept.trans {a b c : State} (h : Kept a b) (g : Kept b c) : Kept a c :=
  ⟨fun k => (h.core k).trans (g.core k), g.mcbs.trans h.mcbs, g.turn.trans h.turn⟩

theorem Kept.foldl {α : Type} {f : State → α → State} (h : ∀ s a, Kept s (f s a)) (l : List α) (s : State) : Kept s (l.foldl f s) :=
  foldl_keeps (P := Kept s) (fun _ a hb => hb.trans (h _ a)) l s (.refl s)

theorem OnlyBytes.kept {s t : State} (h : OnlyBytes s t) : Kept s t := ⟨fun k => by rw [h.coreAt]; exact .refl _, h.mcbs, h.turn⟩

theorem kept_updPart (s : State) (p : Nat) (f : Partition → Partition) : Kept s (s.updPart p f) := ⟨fun _ => .refl _, rfl, rfl⟩

theorem kept_updCore {s : State} {k : Nat} {f : Core → Core} (h : CoreKept (coreAt s k) (f (coreAt s k))) : Kept s (s.updCore k f) := by
  refine ⟨fun j => ?_, rfl, rfl⟩
  rw [coreAt_updCore]
  split
  case isTrue e => subst e; exact h
  case isFalse => exact .refl _

theorem kept_countCore (s : State) (k c n : Nat) : Kept s (s.countCore k c n) :=
  ⟨fun j => by rw [coreAt_countCore]; exact .refl _, State.countCore_mcbs _ _ _ _, State.countCore_turn _ _ _ _⟩

theorem kept_pushWait (s : State) (p : Nat) (bs : List Byte) : Kept s (pushWait s p bs) := by
  unfold pushWait
  dsimp only
  split
  · exact (onlyBytes_putBytes _ _ _ _).kept.trans (kept_updPart _ _ _)
  · exact kept_updPart _ _ _

theorem coreAt_pushWait (s : State) (p : Nat) (bs : List Byte) (k : Nat) : coreAt (pushWait s p bs) k = coreAt s k := by
  unfold pushWait
  dsimp only
  split
  · rw [coreAt_updPart, (onlyBytes_putBytes _ _ _ _).coreAt]
  · rw [coreAt_updPart]

theorem kept_recordHold (pre s : State) (k out : Nat) (h : Hold) : Kept s (recordHold pre s k out h) := by
  unfold recordHold
  split
  · exact .refl s
  · exact kept_pushWait _ _ _

theorem kept_countHold (s : State) (k : Nat) (h : Hold) : Kept s (countHold s k h) := by
  unfold countHold
  split
  · exact .refl s
  · exact kept_updCore ⟨rfl, rfl, rfl, rfl, rfl, rfl, rfl, rfl, rfl, rfl, rfl, rfl, id⟩

theorem kept_dropHold (pre s : State) (k out : Nat) : Kept s (dropHold pre s k out) := by
  unfold dropHold
  split
  · exact .refl s
  · exact ((kept_recordHold _ _ _ _ _).trans (kept_countHold _ _ _)).trans
      (kept_updCore ⟨rfl, rfl, rfl, rfl, rfl, rfl, rfl, rfl, rfl, rfl, rfl, rfl, fun _ => rfl⟩)

/-- A hold that has been dropped is over. -/
theorem hold_dropHold (pre s : State) (k out : Nat) : (coreAt (dropHold pre s k out) k).hold = none := by
  unfold dropHold
  split
  · assumption
  · simp

theorem kept_cutHold (s : State) (k out : Nat) : Kept s (cutHold s k out) := by
  unfold cutHold
  split
  · exact .refl s
  · split
    · exact kept_dropHold _ _ _ _
    · exact .refl s

theorem kept_countIssue (pre s : State) (k : Nat) (access : Bool) : Kept s (countIssue pre s k access) := by
  unfold countIssue
  split
  · exact .refl s
  · exact kept_updCore ⟨rfl, rfl, rfl, rfl, rfl, rfl, rfl, rfl, rfl, rfl, rfl, rfl, id⟩

/-- A command that starts again is the same command. -/
@[simp] theorem Cmd.ord_rewind (x : Cmd) : x.rewind.ord = x.ord := by
  unfold Cmd.rewind
  dsimp only
  repeat' split
  all_goals rfl

theorem kept_stopEngines (s : State) (m out : Nat) : Kept s (stopEngines s m out) :=
  Kept.foldl (fun s k => by
    split
    · exact (kept_cutHold s k out).trans (kept_updCore ⟨rfl, rfl, rfl, rfl, rfl, rfl, rfl, rfl, rfl, rfl, rfl, by simp, id⟩)
    · exact .refl s) _ _

-- The roll-back of a word

/-- The core of a word that is rolled back keeps what its walks put in its translation cache. -/
theorem coreAt_rollBack (s u : State) : coreAt (rollBack s u) s.turn = { coreAt s s.turn with xtlb := (coreAt u s.turn).xtlb } := by
  show mapGet Core.reset (mapSet Core.reset s.cores s.turn _) s.turn = _
  rw [mapGet_set, if_pos rfl]

/-- A block keeps the HORIZON that the walks of the word have raised. -/
theorem mcbAt_rollBack (s u : State) (m : Nat) : ∃ x, mcbAt (rollBack s u) m = { mcbAt s m with horizon := x } := by
  have h := mapFind_map s.mcbs (fun k b => { b with horizon := (mcbAt u k).horizon }) m
  unfold mcbAt rollBack
  simp only [mapGet] at h ⊢
  rw [h]
  cases mapFind s.mcbs m with
  | none => exact ⟨_, rfl⟩
  | some b => exact ⟨_, rfl⟩

theorem coreKept_rollBack (s u : State) : CoreKept (coreAt s s.turn) (coreAt (rollBack s u) s.turn) := by
  rw [coreAt_rollBack]
  exact ⟨rfl, rfl, rfl, rfl, rfl, rfl, rfl, rfl, rfl, rfl, rfl, rfl, id⟩

-- O3

/-- A core takes a report among those that wait. -/
theorem mem_insertReport (l : List FaultRec) (f : FaultRec) : f ∈ insertReport l f := by
  induction l with
  | nil => simp [insertReport]
  | cons g l ih =>
    unfold insertReport
    split <;> simp [ih]

/-- A core with a report more. -/
def withReport (s : State) (k : Nat) (g : FaultRec) : State := s.updCore k (fun c => { c with pending := insertReport c.pending g })

/-- A report of a class with route 0, outside the handler: it waits, and the halt line of the plot rises (R385, R386). -/
theorem report_route_zero {s : State} {k m : Nat} {v : Inv} {f : FaultRec} (hb : (coreAt s k).bound = some m) (hi : (mcbAt s m).inv = some v)
    (hk : v.kill = none) (hp : v.preempt = .none) (hh : (coreAt s k).th.h = false) (hr : routeOf s m f.cls = 0) :
    ∃ s0 g, Kept s s0 ∧ g.cls = f.cls ∧ g.sub = f.sub ∧ g.addr = f.addr ∧ g.imp = f.imp ∧
      report s k f = stopEngines ((withReport s0 k g).updInv m (fun i => { i with faultHalt := true })) m := by
  have hs0 : Kept s (if f.cls = 6 then s.countCore k 11 1 else s) := by
    split
    · exact kept_countCore _ _ _ _
    · exact .refl s
  unfold report
  rw [hb]
  dsimp only
  revert hs0
  generalize (if f.cls = 6 then s.countCore k 11 1 else s) = s0
  intro hs0
  generalize hg : ({ f with record := some (reportRecord s0 k f) } : FaultRec) = g
  have hth : (coreAt s0 k).th.h = false := by rw [(hs0.core k).th, hh]
  have hinv : (mcbAt (withReport s0 k g) m).inv = some v := by rw [withReport, mcbAt_updCore, hs0.mcbAt, hi]
  refine ⟨s0, g, hs0, by rw [← hg], by rw [← hg], by rw [← hg], by rw [← hg], ?_⟩
  unfold withReport at hinv ⊢
  rw [hinv]
  simp [hk, hp, hr, hth]

/-- A fault of a word of a core that waits for nothing more: the word's own effects are undone, and its hold, if any, is over. -/
theorem stopped_fault (access : Bool) (s u : State) (i : Instr) (f : FaultRec) :
    ∃ s2, halts access s u i (.fault f) = .next (threadFault s2 s.turn f) ∧ Kept (rollBack s u) s2 ∧ (coreAt s2 s.turn).hold = none := by
  have hd := kept_dropHold s (rollBack s u) s.turn (((coreAt s s.turn).hold.map Hold.outcome).getD 0)
  have hn := hold_dropHold s (rollBack s u) s.turn (((coreAt s s.turn).hold.map Hold.outcome).getD 0)
  refine ⟨_, rfl, ?_, ?_⟩
  · dsimp only
    split
    · exact hd
    · exact hd.trans (kept_countIssue _ _ _ _)
  · dsimp only
    split
    · exact hn
    · exact ((kept_countIssue _ _ _ _).core _).hold hn

/-- Settles O3: the roll-back, the dropped hold and the halt line keep the core; the report is added to those that wait. -/
theorem preciseFaultLeavesState : Obligations.PreciseFaultLeavesState := by
  unfold Obligations.PreciseFaultLeavesState
  intro access s u i f m v hb hi hk hp hh hroute
  obtain ⟨s2, hnext, hkept, hhold⟩ := stopped_fault access s u i f
  obtain ⟨x, hmcb⟩ := mcbAt_rollBack s u m
  have hmcb2 : mcbAt s2 m = { mcbAt s m with horizon := x } := by rw [← hmcb, hkept.mcbAt]
  have hcore := (coreKept_rollBack s u).trans (hkept.core s.turn)
  have hth : (coreAt s2 s.turn).th.h = false := by rw [hcore.th]; exact hh
  obtain ⟨s0, g, hs0, hcls, hsub, haddr, himp, hrep⟩ := report_route_zero (f := f) (hcore.bound.trans hb) (by rw [hmcb2]; exact hi) hk hp hth
    (by rw [routeOf, hmcb2]; exact hroute)
  have hfault : threadFault s2 s.turn f = report s2 s.turn f := by unfold threadFault; rw [hth]; rfl
  rw [hfault, hrep] at hnext
  have hstop := kept_stopEngines ((withReport s0 s.turn g).updInv m (fun i => { i with faultHalt := true })) m 1
  have hat : coreAt ((withReport s0 s.turn g).updInv m (fun i => { i with faultHalt := true })) s.turn =
      { coreAt s0 s.turn with pending := insertReport (coreAt s0 s.turn).pending g } := by
    simp [withReport]
  have hc := hcore.trans (hs0.core s.turn)
  have hd := hstop.core s.turn
  rw [hat] at hd
  refine ⟨_, hnext, ?_, fun r => ?_, ⟨g, ?_, hcls, hsub, haddr, himp⟩, ?_, ?_, ?_⟩
  · have ht : s0.turn = s.turn := hs0.turn.trans hkept.turn
    rw [theThread, hstop.turn, show ((withReport s0 s.turn g).updInv m _).turn = s0.turn from rfl, ht]
    exact hd.th.trans hc.th
  · have hu := halts_fault_frame r hnext
    exact ⟨hu.mem, hu.tags, hu.fe⟩
  · rw [hd.pending]; exact mem_insertReport _ _
  · exact hd.hold ((hs0.core s.turn).hold hhold)
  · refine ⟨{ v with faultHalt := true }, ?_, rfl⟩
    rw [hstop.mcbAt]
    simp [State.updInv, withReport, hs0.mcbAt, hmcb2, hi]
  · exact ⟨hd.qin.trans hc.qin, hd.qv.trans hc.qv, hd.qc.trans hc.qc, hd.qi.trans hc.qi, hd.om.trans hc.om, hd.hoard.trans hc.hoard,
      hd.vec.trans hc.vec, hd.mat.trans hc.mat, hd.ords.trans hc.ords⟩

-- O4

/-- What a hold changes of its core is the hold itself and the cycles counted. -/
def Holds (c d : Core) (i : Instr) (h : Hold) : Prop := ∃ g x, d = { c with hold := some g, counters := x } ∧ g.kind = h.kind ∧ g.ins = i

theorem Hold.after_kind_ins (g h : Hold) (i : Instr) (now : Nat) : (g.after h i now).kind = h.kind ∧ (g.after h i now).ins = i := by
  unfold Hold.after
  dsimp only
  split <;> exact ⟨rfl, rfl⟩

theorem coreAt_promote (s : State) (x k : Nat) : coreAt (promote s x) k = coreAt s k := rfl

theorem coreAt_countHold (s : State) (k : Nat) (h : Hold) : ∃ x, coreAt (countHold s k h) k = { coreAt s k with counters := x } := by
  unfold countHold
  split
  · exact ⟨_, rfl⟩
  · rw [coreAt_updCore, if_pos rfl]; exact ⟨_, rfl⟩

theorem coreAt_recordHold (pre s : State) (k out : Nat) (h : Hold) (j : Nat) : coreAt (recordHold pre s k out h) j = coreAt s j := by
  unfold recordHold
  split
  · rfl
  · exact coreAt_pushWait _ _ _ _

theorem coreAt_holdAt (s : State) (k : Nat) (i : Instr) (h : Hold) : Holds (coreAt s k) (coreAt (holdAt s k i h) k) i h := by
  unfold holdAt
  dsimp only
  split
  case h_1 =>
    refine ⟨{ h with ins := i, since := s.pt }, (coreAt s k).counters, ?_, rfl, rfl⟩
    split <;> simp [coreAt_promote]
  case h_2 g _ =>
    obtain ⟨hk, hi⟩ := Hold.after_kind_ins g h i s.pt
    split
    · refine ⟨g.after h i s.pt, (coreAt s k).counters, ?_, hk, hi⟩
      split <;> simp [coreAt_promote]
    · obtain ⟨x, hx⟩ := coreAt_countHold s k g
      refine ⟨g.after h i s.pt, x, ?_, hk, hi⟩
      split <;> split <;> simp [coreAt_promote, coreAt_recordHold, hx]

theorem turn_holdAt (s : State) (k : Nat) (i : Instr) (h : Hold) : (holdAt s k i h).turn = s.turn := by
  have hput : ∀ u : State, u.turn = s.turn → (if h.kind = .parked then promote (u.countCore k 8 1) h.extent else u).turn = s.turn :=
    fun u e => by split <;> simp [promote, e]
  unfold holdAt
  dsimp only
  split
  case h_1 => exact hput _ rfl
  case h_2 g _ =>
    have hc := (kept_countHold s k g).turn
    split
    · split <;> rfl
    · refine hput _ ?_
      split
      · exact (kept_recordHold _ _ _ _ _).turn.trans hc
      · exact hc

/-- Where the core held nothing, no record of a wait is written. -/
theorem memory_holdAt {s : State} {k : Nat} (i : Instr) (h : Hold) (hn : (coreAt s k).hold = none) :
    (holdAt s k i h).mem = s.mem ∧ (holdAt s k i h).fe = s.fe := by
  unfold holdAt
  rw [hn]
  dsimp only
  split
  · exact ⟨by simp [promote], by simp [promote]⟩
  · exact ⟨rfl, rfl⟩

theorem coreAt_countIssue (pre s : State) (k : Nat) (access : Bool) :
    ∃ x, coreAt (countIssue pre s k access) k = { coreAt s k with counters := x } := by
  unfold countIssue
  split
  · exact ⟨_, rfl⟩
  · rw [coreAt_updCore, if_pos rfl]; exact ⟨_, rfl⟩

theorem memory_countIssue (pre s : State) (k : Nat) (access : Bool) :
    (countIssue pre s k access).mem = s.mem ∧ (countIssue pre s k access).fe = s.fe := by
  unfold countIssue
  split <;> exact ⟨rfl, rfl⟩

/-- The state from which a waiting word holds: the word undone, but for what a split load has read. -/
def heldFrom (s u : State) (h : Hold) : State := if h.kind = .pieces then keepReads s u else rollBack s u

/-- A word that waits holds its core, with its issue counted or not. -/
theorem halts_wait (access : Bool) (s u : State) (i : Instr) (h : Hold) : ∃ s1 h1, halts access s u i (.wait h) = .next (holdAt s1 s.turn i h1) ∧
    h1.kind = h.kind ∧ s1.turn = (heldFrom s u h).turn ∧ (∃ x, coreAt s1 s.turn = { coreAt (heldFrom s u h) s.turn with counters := x }) ∧
    s1.mem = (heldFrom s u h).mem ∧ s1.fe = (heldFrom s u h).fe := by
  by_cases hs : h.kind.stalls = true
  · exact ⟨heldFrom s u h, h, if_pos hs, rfl, rfl, ⟨_, rfl⟩, rfl, rfl⟩
  · have hm := memory_countIssue s (heldFrom s u h) s.turn access
    exact ⟨_, { h with issued := true }, if_neg hs, rfl, (kept_countIssue _ _ _ _).turn, coreAt_countIssue _ _ _ _, hm.1, hm.2⟩

/-- What stands of the core in the state from which its word holds. -/
theorem heldFrom_keeps {s u : State} (h : Hold) (hu : u.turn = s.turn) : let c := coreAt s s.turn; let d := coreAt (heldFrom s u h) s.turn
    (heldFrom s u h).turn = s.turn ∧ d.th = c.th ∧ d.hold = c.hold ∧ d.qin = c.qin ∧ d.qi = c.qi ∧ d.qc = c.qc ∧ d.qv = c.qv ∧
    (h.kind ≠ .pieces → d.om = c.om ∧ d.cmds = c.cmds) ∧
    (heldFrom s u h).mem = (if h.kind = .pieces then u.mem else s.mem) ∧ (heldFrom s u h).fe = (if h.kind = .pieces then u.fe else s.fe) := by
  unfold heldFrom
  dsimp only
  split
  case isTrue hp =>
    have hc : coreAt (keepReads s u) s.turn = { coreAt u s.turn with
        th := (coreAt s s.turn).th, hold := (coreAt s s.turn).hold, qin := (coreAt s s.turn).qin, qv := (coreAt s s.turn).qv,
        qc := (coreAt s s.turn).qc, qi := (coreAt s s.turn).qi, portSetter := (coreAt s s.turn).portSetter,
        edges := (coreAt s s.turn).edges } := by simp [keepReads]
    rw [hc]
    exact ⟨hu, rfl, rfl, rfl, rfl, rfl, rfl, fun hn => absurd hp hn, rfl, rfl⟩
  case isFalse hp =>
    rw [coreAt_rollBack]
    exact ⟨rfl, rfl, rfl, rfl, rfl, rfl, rfl, fun _ => ⟨rfl, rfl⟩, rfl, rfl⟩

/-- Settles O4: the word is undone (`heldFrom_keeps`), and then only the hold and the counters change (`coreAt_holdAt`). -/
theorem waitingWordHolds : Obligations.WaitingWordHolds := by
  unfold Obligations.WaitingWordHolds
  intro access s u i h hu
  obtain ⟨s1, h1, hnext, hkind, hturn1, ⟨x, hx⟩, hmem1, hfe1⟩ := halts_wait access s u i h
  obtain ⟨hturn, hth, hhold, hqin, hqi, hqc, hqv, hkept, hmem, hfe⟩ := heldFrom_keeps h hu
  obtain ⟨g, y, hcore, hgk, hgi⟩ := coreAt_holdAt s1 s.turn i h1
  refine ⟨_, g, hnext, ?_, by rw [hcore], hgk.trans hkind, hgi, ?_, ?_, ?_, ?_, fun hn => ?_, fun hn => ?_⟩
  · rw [theThread, turn_holdAt, hturn1, hturn, hcore, hx]; exact hth
  · rw [hcore, hx]; exact hqin
  · rw [hcore, hx]; exact hqi
  · rw [hcore, hx]; exact hqc
  · rw [hcore, hx]; exact hqv
  · rw [hcore, hx]; exact hkept hn
  · obtain ⟨hm, hf⟩ := memory_holdAt i h1 (show (coreAt s1 s.turn).hold = none by rw [hx]; exact hhold.trans hn)
    exact ⟨hm.trans (hmem1.trans hmem), hf.trans (hfe1.trans hfe)⟩

end Sys2Proof
end

/-! # A stop record on a watched byte (O50, O51) -/
section
namespace Sys2Proof
open Machine

/-- A directory entry of one page at address 0 of the Granary, present, that nothing else restricts. -/
def recordDir : BitVec 256 := BitVec.ofNat 256 (2 ^ 7 + 2 ^ 128)

/-- The translation that the core of the counterexample has of the page its stop record goes to. -/
def recordPage : XEntry := { table := 0, obj := 1, page := 0, dir := recordDir, ext := 1, expiry := 1 }

/-- The report that waits on the core: a watchpoint was hit (class 9). -/
def watchReport : FaultRec := { cls := 9, sub := 0, addr := 0 }

/-- Core 0 with that report, a valid handler, and a HCAP that leads to the page of `recordPage`. -/
def watchedCore : Core :=
  { bootCore 0 with
    pending := [watchReport], xtlb := [recordPage]
    th := { (bootCore 0).th with
      handler := mkCap 1 0 permEXEC 0 0 4096 0, hcap := mkCap 1 0 (permST ||| permSYS) 0 0 4096 0 } }

/-- A watchpoint on every store to the bytes that the stop record takes. -/
def recordWatch : BitVec 128 := BitVec.ofNat 128 (1 + 2 ^ 2 + 2 ^ 7 + 2 ^ 112)

/-- An invocation that runs on core 0. -/
def watchedInv : Inv := { newInv (bootBlock 0) emptyEntry 0 0 with stage := .running }

/-- Block 0 as after reset but for its fault policy and its invocation, its core 0 with a watchpoint's report, and a
watchpoint on the place of the stop record. -/
def watchedState (policy : BitVec 24) (i : Inv) : State :=
  { (((State.reset.setMcb 0 { bootBlock 0 with faultpolicy := policy, inv := some i }).setCore 0 watchedCore).updPart 0
      (fun p => { p with wps := [(0, recordWatch)] })) with rdy := BitVec.allOnes 64 }

/-- The state with the halt line of a fault under route code 0. -/
def haltedState : State := watchedState 0 { watchedInv with faultHalt := true }

/-- The state with the plot held, as route code 1 of class 9 does. -/
def heldState : State := watchedState (BitVec.ofNat 24 (2 ^ 18)) { watchedInv with held := true }

/-- The release writes the stop record, the watchpoint matches that write, and its report brings the halt line up again. -/
theorem haltRelease_raises_faultHalt :
    (nextOf (exec (.haltRelease 0) haltedState)).bind (fun t => (mcbAt t 0).inv.map (·.faultHalt)) = some true := by
  decide +kernel

/-- The handler's entry writes the stop record, the watchpoint matches that write, and its report holds the plot again. -/
theorem faultReplyResumeHandler_holds_again :
    (nextOf (exec (.faultReplyResumeHandler ⟨none, 0⟩ 0) heldState)).bind (fun t => (mcbAt t 0).inv.map (·.held)) =
      some true := by
  decide +kernel

/-- A flag of the invocation of block `m` that an evaluated step leaves raised is not down in every invocation there. -/
theorem not_flag_down {o : Out} {m : Nat} {flag : Inv → Bool}
    (hup : (nextOf o).bind (fun t => (mcbAt t m).inv.map flag) = some true) {t : State} (ht : o = .next t) :
    ¬ ∀ j, (mcbAt t m).inv = some j → flag j = false := by
  intro hdown
  subst ht
  obtain ⟨j, hj, hflag⟩ := Option.map_eq_some_iff.1 hup
  exact absurd (hdown j hj) (by simp [hflag])

/-- Refutes O50: HALT_RELEASE enters the stop record through HCAP, and where a watchpoint lies on those bytes the write
brings the halt line up again, so that the invocation after the step is halted. -/
theorem not_invocationsEnd : ¬ Obligations.InvocationsEnd := by
  unfold Obligations.InvocationsEnd
  intro h
  obtain ⟨-, -, -, release, -⟩ := h haltedState 0 { watchedInv with faultHalt := true } rfl
  obtain ⟨t, ht, hdown, -⟩ := release rfl rfl rfl rfl rfl
  exact not_flag_down haltRelease_raises_faultHalt ht hdown

/-- The only report of the held plot is the watchpoint's, which has come due under route code 1. -/
theorem heldState_reports :
    ∀ k ∈ (mcbAt heldState 0).plot, ∀ f ∈ (coreAt heldState k).pending, routeOf heldState 0 f.cls ≠ 2 ∧
      (f ∈ (coreAt heldState k).pending.tail → routeOf heldState 0 f.cls = 0) := by
  decide +kernel

/-- Refutes O51: FAULT.REPLY with RESUME and H = 1 enters the handler and with it the stop record; where a watchpoint under
route code 1 lies on those bytes, its report holds the plot again. -/
theorem not_blockCommands : ¬ Obligations.BlockCommands := by
  unfold Obligations.BlockCommands
  intro h
  obtain ⟨-, -, -, -, -, -, -, -, -, -, -, -, reply⟩ := h heldState ⟨none, 0⟩
  obtain ⟨-, ⟨t, ht, -, hdown⟩, -⟩ :=
    reply 0 { watchedInv with held := true } ⟨rfl, rfl⟩ rfl rfl rfl rfl rfl heldState_reports
  exact not_flag_down faultReplyResumeHandler_holds_again ht hdown
end Sys2Proof
end

/-! # A stream number listed twice (O53) -/
section
namespace Sys2Proof
open Machine

/-- A stream of partition `part`, opened from nowhere and running without a wait, with the STREAM.CLOSE that it is under. -/
def idleStream (part : BitVec 4) (closing : Option Issuer) : Stream :=
  { serial := 0, ifc := none, hart := none, part := part, mcb := 0, dobj := Cap.null, dlen := 0, tail := 0, status := .running,
    levels := [], loops := [], skip := (0, 0), wait := none, closing := closing, since := 0, launched := [], retired := [],
    packets := 0, region := 0, edges := EdgeSet.none, xtlb := [], fifo := [], fifoPos := 0 }

/-- A state that lists stream number 5 twice: first a closing stream of partition 1, then one of partition 0. -/
def twiceListed : State :=
  { State.reset.updPart 0 (fun p => { p with exists_ := true }) with
    streams := [(5, idleStream 1 (some ⟨none, 0⟩)), (5, idleStream 0 none)] }

/-- RESET of partition 0 finds the stream of partition 1 under the number and completes its STREAM.CLOSE. -/
theorem partitionReset_twiceListed_completes :
    (nextOf (exec (.partitionReset ⟨none, 0⟩ 0) twiceListed)).map (fun t => (completionsOf t ⟨none, 0⟩).length) =
      some ((completionsOf twiceListed ⟨none, 0⟩).length + 1) := by
  decide +kernel

/-- No stream that `twiceListed` lists for partition 0 is under a STREAM.CLOSE. -/
theorem twiceListed_closing : ∀ e ∈ twiceListed.streams, e.2.part = 0 → e.2.closing = none := by
  decide +kernel

/-- Refutes O53: the statement speaks of every state, those that list one stream number twice among them. The RESET of a
partition closes its streams by number, and where the list has a stream of another partition under the same number
before it, that one's STREAM.CLOSE completes, though no stream of the partition was under one. -/
theorem not_hypervisorCommands : ¬ Obligations.HypervisorCommands := by
  unfold Obligations.HypervisorCommands
  intro h
  obtain ⟨-, -, commands, -⟩ := h
  obtain ⟨-, -, -, -, -, -, -, -, -, reset⟩ := commands twiceListed ⟨none, 0⟩ rfl
  obtain ⟨t, ht, -, -, hsame⟩ := reset 0 rfl rfl twiceListed_closing
  have hmore := partitionReset_twiceListed_completes
  rw [ht] at hmore
  exact absurd ((congrArg List.length hsame).symm.trans (Option.some.inj hmore)) (by simp)
end Sys2Proof
end

/-! # What a read of the Sower leaves (O44) -/
section
namespace Sys2Proof
open Machine

/-- What a translation or a read of the Sower leaves: memory, every core, and every block but its HORIZON. -/
structure SowerReads (s t : State) : Prop where
  mem : t.mem = s.mem
  cores : t.cores = s.cores
  mcb : ∀ m, { mcbAt t m with horizon := 0 } = { mcbAt s m with horizon := 0 }

theorem SowerReads.refl (s : State) : SowerReads s s := ⟨rfl, rfl, fun _ => rfl⟩

theorem SowerReads.trans (a b c : State) (h : SowerReads a b) (g : SowerReads b c) : SowerReads a c :=
  ⟨g.mem.trans h.mem, g.cores.trans h.cores, fun m => (g.mcb m).trans (h.mcb m)⟩

theorem SowerReads.of_walked {s t : State} (h : Walked s t) (hc : t.cores = s.cores) : SowerReads s t := ⟨h.mem, hc, h.mcb⟩

/-- The reader is the Sower itself, not a stream. -/
structure IsSower (w : Who) : Prop where
  agent : w.agent = .sower
  strm : w.strm = none

theorem isSower_whoSower (s : State) (m : Nat) : IsSower (whoSower s m) := ⟨rfl, rfl⟩

theorem count_cores (s : State) (p c n : Nat) : (s.count p c n).cores = s.cores := by
  unfold State.count; split <;> rfl

theorem cacheDrop_sower {w : Who} (hw : IsSower w) (s : State) (obj page : Nat) (d : BitVec 256) (x : W64) :
    cacheDrop s w obj page d x = s := by
  simp [cacheDrop, hw.agent, hw.strm]

theorem cacheInstall_sower {w : Who} (hw : IsSower w) (s : State) (now : Nat) (e : XEntry) : cacheInstall s w now e = s := by
  simp [cacheInstall, hw.agent, hw.strm]

/-- A computation of the Sower that only reads. -/
abbrev Reads {α : Type} (m : M α) : Prop := Keeps SowerReads m

theorem Reads.bind {α β : Type} {m : M α} {f : α → M β} (hm : Reads m) (hf : ∀ x, Reads (f x)) : Reads (m >>= f) :=
  Keeps.bind SowerReads.trans hm hf
theorem Reads.get : Reads (MonadState.get : M State) := Keeps.get SowerReads.refl
theorem Reads.pure {α : Type} (x : α) : Reads (Pure.pure x : M α) := Keeps.pure SowerReads.refl x
theorem Reads.raise {α : Type} (c u a : Nat) : Reads (Machine.raise c u a : M α) := Keeps.raise SowerReads.refl c u a
theorem Reads.throw {α : Type} (e : Stop) : Reads (MonadExcept.throw e : M α) := Keeps.throw SowerReads.refl e
theorem Reads.waitOn {α : Type} (k : WaitKind) (f u l e : Nat) : Reads (Machine.waitOn k f u l e : M α) :=
  Keeps.waitOn SowerReads.refl k f u l e

theorem Reads.raiseHorizon (m e : Nat) : Reads (modify fun s => raiseHorizon s m e : M Unit) :=
  Keeps.modify fun s => .of_walked (walked_raiseHorizon s m e) rfl

theorem Reads.cacheDrop {w : Who} (hw : IsSower w) (obj page : Nat) (d : BitVec 256) (x : W64) :
    Reads (modify fun s => Machine.cacheDrop s w obj page d x : M Unit) :=
  Keeps.modify fun s => by rw [cacheDrop_sower hw]; exact .refl s

theorem Reads.cacheInstall {w : Who} (hw : IsSower w) (now : Nat) (e : State → XEntry) :
    Reads (modify fun s => Machine.cacheInstall s w now (e s) : M Unit) :=
  Keeps.modify fun s => by rw [cacheInstall_sower hw]; exact .refl s

theorem Reads.ite {α : Type} {p : Prop} [Decidable p] {m n : M α} (hm : Reads m) (hn : Reads n) : Reads (if p then m else n) :=
  keeps_ite hm hn

/-- A check that raises a fault, or lets the read go on. -/
theorem Reads.check {α : Type} {p : Prop} [Decidable p] {c u a : Nat} {f : PUnit → M α} {m : M α} (h : Reads m) :
    Reads (if p then Machine.raise c u a >>= f else m) :=
  keeps_ite (Keeps.raise_bind SowerReads.refl _ _ _ _) h

/-- A check that waits, or lets the read go on. -/
theorem Reads.checkWait {α : Type} {p : Prop} [Decidable p] {k : WaitKind} {x u l e : Nat} {f : PUnit → M α} {m : M α} (h : Reads m) :
    Reads (if p then Machine.waitOn k x u l e >>= f else m) :=
  keeps_ite (Keeps.waitOn_bind SowerReads.refl _ _ _ _ _ _) h

theorem Reads.walk {w : Who} (hw : IsSower w) (obj sp off : Nat) (a : Access) : Reads (walk w obj sp off a) := by
  unfold Machine.walk
  refine .bind .get fun s => ?_
  refine .bind (Keeps.modify fun s => .of_walked (walked_hostWalks s _ _ _ _) (count_cores _ _ _ _)) fun _ => ?_
  refine .bind (.raiseHorizon _ _) fun _ => .check ?_
  dsimp only
  split
  · exact Keeps.raise_bind SowerReads.refl _ _ _ _
  · refine .check ?_
    split
    · exact .raise _ _ _
    · exact .waitOn _ _ _ _ _
    · exact .bind (.cacheDrop hw _ _ _ _) fun _ => .pure _
    · exact .ite (.bind (.cacheDrop hw _ _ _ _) fun _ => .pure _)
        (.bind (.raiseHorizon _ _) fun _ => .bind (.cacheInstall hw _ _) fun _ => .pure _)

theorem Reads.lookCaches (w : Who) (obj page : Nat) : Reads (lookCaches w obj page) :=
  .bind .get fun _ => .bind (Keeps.modify fun s => .of_walked (walked_count s _ _ _) (count_cores _ _ _ _)) fun _ => .pure _

theorem Reads.translate {w : Who} (hw : IsSower w) (obj sp off : Nat) (a : Access) (e : Option XEntry) :
    Reads (translate w obj sp off a e) := by
  unfold Machine.translate
  split
  · split
    · exact .raise _ _ _
    · exact .bind .get fun _ => .pure _
  · exact .walk hw _ _ _ _

theorem Reads.resolve {w : Who} (hw : IsSower w) (obj sp off : Nat) (a : Access) : Reads (resolve w obj sp off a) := by
  unfold Machine.resolve
  refine .bind .get fun s => ?_
  split
  · exact .pure _
  · have rest : ∀ cached, Reads (do
        let r ← Machine.translate w obj sp off a cached
        let s ← MonadState.get
        if !physExists r.sp r.addr 1 then MonadExcept.throw (Stop.hard .noSuchAddress)
        if !physReady s r.sp r.addr then Machine.waitOn .parked 0 0 0 r.extKey
        if controllerRefuses s r then Machine.waitOn .refused
        return r) := fun cached =>
      .bind (.translate hw _ _ _ _ _) fun r => .bind .get fun s =>
        .ite (Keeps.throw_bind SowerReads.refl _ _) (.checkWait (.checkWait (.pure _)))
    exact .ite (.bind (.pure _) rest) (.bind (.lookCaches _ _ _) rest)

theorem Reads.resolveAll {w : Who} (hw : IsSower w) (obj sp : Nat) (a : Access) (ps : List (Nat × Nat)) :
    Reads (resolveAll w obj sp a ps) := by
  induction ps with
  | nil => exact .pure _
  | cons p ps ih => exact .bind (.resolve hw _ _ _ _) fun _ => .bind ih fun _ => .pure _

theorem learn_sower {w : Who} (hw : IsSower w) (s : State) (k n : Nat) : learn s w k n = s := by
  simp [learn, hw.agent]

theorem sowerReads_countAccess (s : State) (w : Who) (obj off n : Nat) (r : Res) : SowerReads s (countAccess s w obj off n r) := by
  unfold countAccess
  split
  · exact ⟨rfl, rfl, fun _ => rfl⟩
  · exact .refl s

theorem Reads.watchAccess (w : Who) (kind : WatchKind) (off : Nat) (r : Res) (n : Nat) : Reads (watchAccess w kind off r n) := by
  unfold Machine.watchAccess
  refine .bind .get fun s => ?_
  split
  · exact .pure _
  · exact .ite (.pure _) (.bind (Keeps.modify fun s => ⟨rfl, rfl, fun _ => rfl⟩) fun _ => .pure _)

theorem Reads.checkLines (off : Nat) (r : Res) (n : Nat) : Reads (checkLines off r n) := by
  unfold Machine.checkLines
  refine .bind .get fun s => ?_
  split
  · exact .pure _
  · exact .raise _ _ _

theorem Reads.readPieces {w : Who} (hw : IsSower w) (kind : WatchKind) (obj : Nat) (ps : List (Nat × Nat × Res)) :
    Reads (readPieces w false kind obj ps) := by
  induction ps with
  | nil => exact .pure _
  | cons p ps ih =>
    refine .bind (.checkLines _ _ _) fun _ => .bind (.bind .get fun _ => .pure _) fun _ => .bind ih fun _ => .bind ?_ fun _ =>
      .bind (.watchAccess _ _ _ _ _) fun _ => .pure _
    exact Keeps.modify fun s => by rw [learn_sower hw]; exact sowerReads_countAccess _ _ _ _ _ _

/-- A read of the Sower (R107, R384) leaves what `SowerReads` names. -/
theorem Reads.sowerRead {w : Who} (hw : IsSower w) (c : Cap) (off n : Nat) : Reads (sowerRead w c off n) :=
  .bind (.resolveAll hw _ _ _ _) fun _ => .bind (.readPieces hw _ _ _) fun _ => .pure _

theorem Reads.tryCatch {α : Type} {m : M α} {f : Stop → M α} (hm : Reads m) (hf : ∀ e, Reads (f e)) :
    Reads (MonadExcept.tryCatch m f) := by
  intro s
  rcases e : m.run s with ⟨x, t⟩ | ⟨x, t⟩
  · rw [endOf, run_tryCatch_ok e]
    exact hm.ok e
  · rw [endOf, run_tryCatch_error e]
    exact SowerReads.trans _ _ _ (hm.error e) (hf x t)

theorem Reads.pagesReadable {w : Who} (hw : IsSower w) (c : Cap) (ps : List (Nat × Nat)) : Reads (pagesReadable w c ps) := by
  induction ps with
  | nil => exact .pure _
  | cons p ps ih =>
    refine .bind (.tryCatch (.bind (.resolve hw _ _ _ _) fun _ => .pure _) fun e => ?_) fun ok => .ite ih (.pure _)
    split <;> exact .pure _

theorem Reads.capsReadable {w : Who} (hw : IsSower w) (cs : List Cap) : Reads (capsReadable w cs) := by
  induction cs with
  | nil => exact .pure _
  | cons c cs ih =>
    exact .ite (.pure _) (.bind (.pagesReadable hw _ _) fun ok => .ite ih (.pure _))

theorem Reads.bindRead (s : State) (m : Nat) : Reads (bindRead s m) := by
  have hw := isSower_whoSower s m
  refine .bind (.capsReadable hw _) fun ok => .ite (.ite (.tryCatch (.bind (.sowerRead hw _ _ _) fun _ => .pure _) fun e => ?_)
    (.pure _)) (.pure _)
  split
  · exact .pure _
  · exact .throw _

theorem Reads.readTable (s : State) (m t : Nat) : Reads (readTable s m t) :=
  .bind (.sowerRead (isSower_whoSower s m) _ _ _) fun _ => .pure _

end Sys2Proof
end

/-! # Cores that a step makes, one after another (O44) -/
section
namespace Sys2Proof
open Machine

/-- Nothing but cores differs. -/
def OnlyCores (s t : State) : Prop := ∃ cs, t = { s with cores := cs }

theorem OnlyCores.refl (s : State) : OnlyCores s s := ⟨s.cores, rfl⟩

theorem OnlyCores.trans {s t u : State} (h : OnlyCores s t) (g : OnlyCores t u) : OnlyCores s u := by
  obtain ⟨cs, rfl⟩ := h
  obtain ⟨ds, rfl⟩ := g
  exact ⟨ds, rfl⟩

theorem OnlyCores.mcbAt {s t : State} (h : OnlyCores s t) (m : Nat) : mcbAt t m = mcbAt s m := by
  obtain ⟨cs, rfl⟩ := h; rfl

theorem OnlyCores.mem {s t : State} (h : OnlyCores s t) : t.mem = s.mem := by
  obtain ⟨cs, rfl⟩ := h; rfl

theorem onlyCores_updCore (s : State) (k : Nat) (f : Core → Core) : OnlyCores s (s.updCore k f) := ⟨_, rfl⟩

theorem onlyCores_foldl {α : Type} {g : State → α → State} (h : ∀ s a, OnlyCores s (g s a)) (l : List α) (s : State) :
    OnlyCores s (l.foldl g s) :=
  foldl_keeps (P := OnlyCores s) (fun t a ht => ht.trans (h t a)) l s (.refl s)

/-- A core that the list names is as `f` makes it, whatever it was before. -/
theorem coreAt_foldl_updCore (f : Nat → Core → Core) (l : List Nat) (s : State) {k : Nat} (hk : k ∈ l) :
    ∃ c, coreAt (l.foldl (fun s j => s.updCore j (f j)) s) k = f k c := by
  have made : ∀ j s, (j = k ∨ ∃ c, coreAt s k = f k c) → ∃ c, coreAt (s.updCore j (f j)) k = f k c := by
    intro j s h
    rw [coreAt_updCore]
    split
    · rename_i e; subst e; exact ⟨_, rfl⟩
    · rename_i e; exact h.resolve_left e
  induction l generalizing s with
  | nil => exact absurd hk List.not_mem_nil
  | cons j l ih =>
    rw [List.foldl_cons]
    by_cases hl : k ∈ l
    · exact ih _ hl
    · have hj : j = k := ((List.mem_cons.1 hk).resolve_right hl).symm
      exact foldl_keeps (P := fun s => ∃ c, coreAt s k = f k c) (fun s j h => made j s (.inr h)) l _ (made j s (.inl hj))

/-- The preload of a plot makes each of its cores from the block as it stood. -/
theorem foldl_preload (m : Nat) (e : QEntry) (init : List Byte) (l : List Nat) {s : State} {b : Mcb} (hb : mcbAt s m = b) :
    l.foldl (fun s k => preload s m e init k) s = l.foldl (fun s k => s.updCore k (boundCore b m e k init)) s := by
  induction l generalizing s with
  | nil => simp only [List.foldl_nil]
  | cons k l ih => rw [List.foldl_cons, List.foldl_cons, preload, hb, ih ((mcbAt_updCore _ _ _ _).trans hb)]

/-- The fold over the format table holds at each index what was put there. -/
theorem mapGet_foldl_mapSet {α : Type} [DecidableEq α] (d : α) (g : Nat → α) (l : List Nat) (f : SMap α) {n : Nat} (hn : n ∈ l) :
    mapGet d (l.foldl (fun f i => mapSet d f i (g i)) f) n = g n := by
  have made : ∀ f i, (i = n ∨ mapGet d f n = g n) → mapGet d (mapSet d f i (g i)) n = g n := by
    intro f i h
    rw [mapGet_set]
    split
    · rename_i e; rw [e]
    · rename_i e; exact h.resolve_left e
  induction l generalizing f with
  | nil => exact absurd hn List.not_mem_nil
  | cons i l ih =>
    rw [List.foldl_cons]
    by_cases hl : n ∈ l
    · exact ih _ hl
    · have hi : i = n := ((List.mem_cons.1 hn).resolve_right hl).symm
      exact foldl_keeps (P := fun f => mapGet d f n = g n) (fun f i h => made f i (.inr h)) l _ (made f i (.inl hi))

/-- s1 to s3 of a bound thread are ARG, the length and the kind of its entry, and every other scalar is zero. -/
theorem getS_boundThread (b : Mcb) (e : QEntry) (k : Nat) (init : List Byte) (n : Nat) :
    (boundThread b e k init).getS n =
      if n = 3 then w64 (descKind e.desc) else if n = 2 then w64 (descPlen e.desc) else if n = 1 then descArg e.desc else 0 := by
  have base : ∀ t : Thread, t.s = [] → t.getS n = 0 := fun t ht => by simp [Thread.getS, ht, mapGet, mapFind]
  have drop : ∀ t : Thread, ({ t with wrote := 0 } : Thread).getS n = t.getS n := fun _ => rfl
  rw [boundThread, drop, Thread.getS_setC, Thread.getS_setS, Thread.getS_setS, Thread.getS_setS, base _ rfl]
  simp [eq_comm]

/-- c1 of a bound thread is its entry, and every other capability register is null. -/
theorem getC_boundThread (b : Mcb) (e : QEntry) (k : Nat) (init : List Byte) (n : Nat) :
    (boundThread b e k init).getC n = if n = 1 then entryCap b else Cap.null := by
  have base : ∀ t : Thread, t.c = [] → t.getC n = Cap.null := fun t ht => by simp [Thread.getC, ht, mapGet, mapFind]
  have drop : ∀ t : Thread, ({ t with wrote := 0 } : Thread).getC n = t.getC n := fun _ => rfl
  rw [boundThread, drop, Thread.getC_setC, Thread.getC_setS, Thread.getC_setS, Thread.getC_setS, base _ rfl]
  simp [eq_comm]

/-- The format table of a bound thread is the one of INIT. -/
theorem fmt_boundThread (b : Mcb) (e : QEntry) (k : Nat) (init : List Byte) {n : Nat} (hn : n < 16) :
    mapGet 0 (boundThread b e k init).fmt n = BitVec.ofNat 64 (leNat ((init.drop (8 * n)).take 8)) :=
  mapGet_foldl_mapSet 0 (fun i => w64 (leNat ((init.drop (8 * i)).take 8))) _ [] (List.mem_range.2 hn)

/-- HORIZON has no part in what a core is bound with. -/
theorem boundCore_congr {b b' : Mcb} (h : { b with horizon := 0 } = { b' with horizon := 0 }) (m : Nat) (e : QEntry) (k : Nat)
    (init : List Byte) (c : Core) : boundCore b m e k init c = boundCore b' m e k init c :=
  show boundCore { b with horizon := 0 } m e k init c = boundCore { b' with horizon := 0 } m e k init c from by rw [h]

end Sys2Proof
end

/-! # BIND_AND_REGISTER_PRELOAD (O44) -/
section
namespace Sys2Proof
open Machine

theorem Mcb.plot_of_inv {b : Mcb} {i : Inv} (hi : b.inv = some i) : b.plot = plotCores i.ox i.oy b.wlog.toNat b.hlog.toNat := by
  rw [Mcb.plot, hi]

theorem SowerReads.inv {s t : State} (h : SowerReads s t) (m : Nat) : (mcbAt t m).inv = (mcbAt s m).inv := by
  have := congrArg Mcb.inv (h.mcb m); exact this

theorem transmit_mem (s : State) (port prio : Nat) (f : TxFrame) : (transmit s port prio f).mem = s.mem := by
  unfold transmit; dsimp only; split <;> rfl

theorem sendReply_mem (s : State) (x : Message) (status : Byte) (payload : List Byte) : (sendReply s x status payload).mem = s.mem := by
  unfold sendReply
  dsimp only
  split
  · rfl
  · split
    · rfl
    · exact transmit_mem _ _ _ _

theorem decideReply_mem (s : State) (m : Nat) (status : Byte) (payload : List Byte) : (decideReply s m status payload).mem = s.mem := by
  unfold decideReply
  split
  · rfl
  · split
    · rfl
    · unfold QEntry.answer
      split
      · rfl
      · exact sendReply_mem _ _ _ _

theorem tellStream_mem (s : State) (m : Nat) (e : QEntry) (status : Byte) (g : EdgeSet) : (tellStream s m e status g).mem = s.mem := by
  unfold tellStream
  split
  · rfl
  · exact State.updStream_mem _ _ _

theorem releaseLanes_mem (s : State) (m : Nat) : (releaseLanes s m).mem = s.mem :=
  foldl_keeps (P := fun t => t.mem = s.mem) (fun t l ht => by
    split
    · exact ht
    · split <;> exact ht) _ s rfl

/-- The end of an invocation writes no byte. -/
theorem finish_mem (s : State) (m : Nat) (status : Byte) (failed : Bool) : (finish s m status failed).mem = s.mem := by
  unfold finish
  split
  · rfl
  · rename_i i _
    dsimp only
    have hfree : ∀ (t : State) (l : List Nat), (l.foldl (fun s k => if (coreAt s k).bound = some m then s.updCore k Core.freed else s) t).mem =
        t.mem := fun t l => (onlyCores_foldl (fun s k => by
      split
      · exact onlyCores_updCore _ _ _
      · exact .refl s) l t).mem
    have hcut := (tellStream_mem (decideReply (releaseLanes s m) m status []) m i.head status (retireEdges (releaseLanes s m) m)).trans
      ((decideReply_mem _ _ _ _).trans (releaseLanes_mem s m))
    split <;> exact (hfree _ _).trans hcut

/-- An invocation that ends leaves its block without one. -/
theorem finish_inv {s : State} {m : Nat} {i : Inv} (hi : (mcbAt s m).inv = some i) (status : Byte) (failed : Bool) :
    (mcbAt (finish s m status failed) m).inv = none := by
  simp [finish, hi]

/-- The block of a binding that fails is FAILED. -/
theorem finish_state_failed {s : State} {m : Nat} {i : Inv} (hi : (mcbAt s m).inv = some i) (status : Byte) :
    (mcbAt (finish s m status true) m).state = 6 := by
  simp [finish, hi]

/-- The block of an invocation that ends in another way is IDLE or QUEUED. -/
theorem finish_state_over {s : State} {m : Nat} {i : Inv} (hi : (mcbAt s m).inv = some i) (status : Byte) :
    (mcbAt (finish s m status false) m).state = 0 ∨ (mcbAt (finish s m status false) m).state = 1 := by
  simp only [finish, hi, mcbAt_updMcb, if_true, Bool.false_eq_true, if_false]
  exact ite_eq_or_eq _ _ _

/-- What BIND_AND_REGISTER_PRELOAD leaves where the capabilities are readable: every core of the plot made from the block,
and the invocation at its first fetch. -/
theorem exec_bind_some {s s1 : State} {m : Nat} {i : Inv} {init : List Byte} (hi : (mcbAt s m).inv = some i) (hs : i.stage = .preload)
    (hb : (mcbAt s m).state = 2) (h : does (bindRead s m) s (some init) s1) :
    exec (.bindAndRegisterPreload m) s =
      .next (((mcbAt s m).plot.foldl (fun s k => s.updCore k (boundCore (mcbAt s1 m) m i.head k init)) s1).updInv m
        (fun i => { i with stage := .fetch })) := by
  show execBindAndRegisterPreload m s = _
  simp only [execBindAndRegisterPreload, hi, hs, hb]
  rw [show (bindRead s m).run s = .ok (some init) s1 from h]
  simp [foldl_preload m i.head init _ rfl]

theorem exec_bind_none {s s1 : State} {m : Nat} {i : Inv} (hi : (mcbAt s m).inv = some i) (hs : i.stage = .preload)
    (hb : (mcbAt s m).state = 2) (h : does (bindRead s m) s none s1) :
    exec (.bindAndRegisterPreload m) s = .next (failBinding s1 m) := by
  show execBindAndRegisterPreload m s = _
  simp only [execBindAndRegisterPreload, hi, hs, hb]
  rw [show (bindRead s m).run s = .ok none s1 from h]
  rfl

/-- What the preload gives a core of the plot (R107, R356): the thread of the block and its entry, and an empty rest. -/
theorem boundCore_spec (b : Mcb) (m : Nat) (e : QEntry) (k : Nat) (init : List Byte) (c : Core) :
    let u := boundCore b m e k init c
    let h := u.th
    u.bound = some m ∧ h.pc = BitVec.ofNat 64 (4 * b.entry.toNat) ∧ h.getS 1 = descArg e.desc ∧
      h.getS 2 = BitVec.ofNat 64 (descPlen e.desc) ∧ h.getS 3 = BitVec.ofNat 64 (descKind e.desc) ∧
      (∀ n, n = 0 ∨ 4 ≤ n → h.getS n = 0) ∧ h.getC 1 = entryCap b ∧ (∀ n, n ≠ 1 → h.getC n = Cap.null) ∧ h.p = 0 ∧ h.h = false ∧
      h.ae = true ∧ h.prio = b.prio ∧ h.codecap = b.image ∧ h.captab = b.captab ∧ h.objtab = b.objtab ∧ h.handler = b.handler ∧
      (∀ n < 16, mapGet 0 h.fmt n = BitVec.ofNat 64 (leNat ((init.drop (8 * n)).take 8))) ∧
      u.mat.dtv = 0 ∧ u.mat.loading = BitVec.ofNat 4 ((init.getD 128 0).toNat % 16) ∧
      h.lact = 0 ∧ u.cmds = [] ∧ u.hoard = [] ∧ u.retired = false := by
  have hs := getS_boundThread b e k init
  have hc := getC_boundThread b e k init
  refine ⟨rfl, rfl, hs 1, hs 2, hs 3, fun n hn => ?_, hc 1, fun n hn => (hc n).trans (if_neg hn), rfl, rfl, rfl, rfl, rfl, rfl, rfl,
    rfl, fun n hn => fmt_boundThread b e k init hn, rfl, rfl, rfl, rfl, rfl, rfl⟩
  exact (hs n).trans (by rw [if_neg (by omega), if_neg (by omega), if_neg (by omega)])

/-- BIND_AND_REGISTER_PRELOAD of readable capabilities: the invocation is at its first fetch, no byte is written, and every
core of the plot is the one that the block makes. -/
theorem bind_readable {s s1 : State} {m : Nat} {i : Inv} {init : List Byte} (hi : (mcbAt s m).inv = some i) (hs : i.stage = .preload)
    (hb : (mcbAt s m).state = 2) (h : does (bindRead s m) s (some init) s1) :
    ∃ t, exec (.bindAndRegisterPreload m) s = .next t ∧ (mcbAt t m).inv = some { i with stage := .fetch } ∧ t.mem = s.mem ∧
      ∀ k ∈ (mcbAt s m).plot, ∃ c, coreAt t k = boundCore (mcbAt s m) m i.head k init c := by
  have read : SowerReads s s1 := (Reads.bindRead s m).ok h
  have cores := onlyCores_foldl (fun s k => onlyCores_updCore s k (boundCore (mcbAt s1 m) m i.head k init)) (mcbAt s m).plot s1
  refine ⟨_, exec_bind_some hi hs hb h, ?_, cores.mem.trans read.mem, fun k hk => ?_⟩
  · rw [mcbAt_updInv, if_pos rfl, cores.mcbAt]
    exact congrArg (Option.map _) ((read.inv m).trans hi)
  · obtain ⟨c, hc⟩ := coreAt_foldl_updCore (fun k => boundCore (mcbAt s1 m) m i.head k init) _ s1 hk
    exact ⟨c, (coreAt_updInv _ _ _ _).trans (hc.trans (boundCore_congr (read.mcb m) _ _ _ _ _))⟩

/-- Where they are not readable the block is FAILED, and no byte is written. -/
theorem bind_unreadable {s s1 : State} {m : Nat} {i : Inv} (hi : (mcbAt s m).inv = some i) (hs : i.stage = .preload)
    (hb : (mcbAt s m).state = 2) (h : does (bindRead s m) s none s1) :
    ∃ t, exec (.bindAndRegisterPreload m) s = .next t ∧ (mcbAt t m).inv = none ∧ (mcbAt t m).state = 6 ∧ t.mem = s.mem := by
  have read : SowerReads s s1 := (Reads.bindRead s m).ok h
  have hi1 : (mcbAt s1 m).inv = some i := (read.inv m).trans hi
  exact ⟨_, exec_bind_none hi hs hb h, finish_inv hi1 _ _, finish_state_failed hi1 _, (finish_mem _ _ _ _).trans read.mem⟩

end Sys2Proof
end

/-! # DECODER_TABLE_INIT_LOAD (O44) -/
section
namespace Sys2Proof
open Machine

/-- The first table that is still loading is the next one. -/
theorem nextTable_eq_some {s : State} {k d : Nat} (hd : d < 4) (hl : (coreAt s k).mat.loading.getLsbD d = true)
    (hfirst : ∀ j < d, (coreAt s k).mat.loading.getLsbD j = false) : nextTable s k = some d := by
  unfold nextTable
  rw [List.find?_range_eq_some]
  exact ⟨hl, List.mem_range.2 hd, fun j hj => by simp [hfirst j hj]⟩

/-- A core whose next table is no longer loading. -/
def Core.tableOff (d : BitVec 2) (c : Core) : Core :=
  { c with mat := { c.mat with loading := c.mat.loading &&& ~~~((1 : BitVec 4) <<< d.toNat) } }

/-- DECODER_TABLE_INIT_LOAD of a table that is read: the core's table no longer loads and holds the words of INIT (R404). -/
theorem exec_tableLoad {s s1 : State} {k m : Nat} {i : Inv} {d : BitVec 2} {l : List W32} (hb : (coreAt s k).bound = some m)
    (hi : (mcbAt s m).inv = some i) (hloads : loadsTables i = true) (hnext : nextTable s k = some d.toNat)
    (h : does (readTable s m d.toNat) s l s1) :
    exec (.decoderTableInitLoad k d) s = .next ((s1.updCore k (Core.tableOff d)).updCore k (dtabDone d l)) := by
  show execDecoderTableInitLoad k d s = _
  simp only [execDecoderTableInitLoad, hb, hi, hnext]
  rw [show (readTable s m d.toNat).run s = .ok l s1 from h]
  simp [hloads]
  rfl

theorem getLsbD_one_shiftLeft (n : Nat) {j : Nat} (hj : j < 4) : ((1 : BitVec 4) <<< n).getLsbD j = decide (j = n) := by
  rw [Bool.eq_iff_iff]
  simp [hj]
  omega

/-- The tables of a core whose table `d` is loaded with `l`. -/
theorem dtabDone_spec (d : BitVec 2) (l : List W32) (c : Core) :
    let u := dtabDone d l (Core.tableOff d c)
    u.mat.dtv.getLsbD d.toNat = true ∧ u.mat.loading.getLsbD d.toNat = false ∧ mapFind u.mat.dt d.toNat = some l ∧ u.th = c.th ∧
      ∀ j, j < 4 → j ≠ d.toNat → u.mat.dtv.getLsbD j = c.mat.dtv.getLsbD j := by
  have hd : d.toNat < 4 := d.isLt
  have hdtv : ∀ j < 4, (dtabDone d l (Core.tableOff d c)).mat.dtv.getLsbD j = (c.mat.dtv.getLsbD j || decide (j = d.toNat)) :=
    fun j hj => (BitVec.getLsbD_or).trans (congrArg _ (getLsbD_one_shiftLeft _ hj))
  refine ⟨by simp [hdtv _ hd], ?_, ?_, rfl, fun j hj hne => by simp [hdtv j hj, hne]⟩
  · show (c.mat.loading &&& ~~~((1 : BitVec 4) <<< d.toNat)).getLsbD d.toNat = false
    simp
  · show mapFind (mapPut c.mat.dt d.toNat l) d.toNat = some l
    simp

/-- DECODER_TABLE_INIT_LOAD makes the next table valid with the words that were read, and leaves memory and all other cores. -/
theorem tableLoad_valid {s s1 : State} {k m : Nat} {i : Inv} {d : BitVec 2} {l : List W32} (hb : (coreAt s k).bound = some m)
    (hi : (mcbAt s m).inv = some i) (hloads : loadsTables i = true) (hl : (coreAt s k).mat.loading.getLsbD d.toNat = true)
    (hfirst : ∀ j < d.toNat, (coreAt s k).mat.loading.getLsbD j = false) (h : does (readTable s m d.toNat) s l s1) :
    ∃ t, exec (.decoderTableInitLoad k d) s = .next t ∧ t.mem = s.mem ∧ coreAt t k = dtabDone d l (Core.tableOff d (coreAt s k)) ∧
      ∀ n, n ≠ k → coreAt t n = coreAt s n := by
  have read : SowerReads s s1 := (Reads.readTable s m d.toNat).ok h
  have hc : ∀ n, coreAt s1 n = coreAt s n := fun n => by rw [coreAt, read.cores]; rfl
  refine ⟨_, exec_tableLoad hb hi hloads (nextTable_eq_some d.isLt hl hfirst) h, read.mem, ?_, fun n hn => ?_⟩
  · simp [hc]
  · simp [hc, hn.symm]

end Sys2Proof
end

/-! # FIRST_FETCH (O44) -/
section
namespace Sys2Proof
open Machine

/-- The first fetch waits while an answer is awaited or the entry is not yet written. -/
theorem firstFetch_waits {s : State} {m : Nat} {i : Inv} (hi : (mcbAt s m).inv = some i)
    (hw : (∃ a ∈ i.awaiting, a.2 = none) ∨ (∃ e ∈ s.sowerLog, e.1 = m ∧ e.2.1 = (mcbAt s m).qhead.toNat)) :
    exec (.firstFetch m) s = .next s := by
  show execFirstFetch m s = _
  simp only [execFirstFetch, hi]
  rw [if_pos]
  rcases hw with ⟨a, ha, hn⟩ | ⟨e, he, hm, hq⟩
  · have : i.awaiting.any (fun a => a.2.isNone) = true := List.any_eq_true.2 ⟨a, ha, by simp [hn]⟩
    simp [this]
  · have : s.sowerLog.any (fun e => e.1 == m && e.2.1 == (mcbAt s m).qhead.toNat) = true :=
      List.any_eq_true.2 ⟨e, he, by simp [hm, hq]⟩
    simp [this]

/-- A plot without a report halts for none. -/
theorem haltForReports_none {s : State} {m : Nat} (h : ∀ k ∈ (mcbAt s m).plot, (coreAt s k).pending = []) : haltForReports s m = s := by
  have hroute : ∀ c, (mcbAt s m).plot.any (fun k => firstRoute s m k == some c) = false := fun c =>
    List.any_eq_false.2 fun k hk => by simp [firstRoute, h k hk]
  have hdies : (mcbAt s m).plot.any (fun k => (coreAt s k).bound = some m && (coreAt s k).pending.any (fun f => routeOf s m f.cls == 2)) =
      false := List.any_eq_false.2 fun k hk => by simp [h k hk]
  simp only [haltForReports, hroute, hdies]
  simp

/-- A save run that is given back changes pools alone. -/
def freeSave (m : Nat) (i : Inv) (s : State) : State :=
  match i.savePages with
  | none => s
  | some r => s.updPart (mcbAt s m).part.toNat (fun p => p.free ((List.range' r.1 r.2).map (fun g => (1, g))))

/-- The invocation after its first fetch, which is the one of binding `n` at time `pt`. -/
def fetched (n pt : Nat) (i : Inv) : Inv :=
  { i with stage := .running, bindings := if i.bindings = 0 then n else i.bindings, fetchedAt := pt, awaiting := [], savePages := none }

/-- The block BOUND with `i` at its first fetch. -/
def boundState (s : State) (m : Nat) (i : Inv) : State :=
  let t := { freeSave m i s with bindings := s.bindings + 1 }
  (t.updMcb m (fun b => { b with state := 3, saved := [] })).updInv m (fetched (s.bindings + 1) s.pt)

theorem freeSave_parts (m : Nat) (i : Inv) (s : State) : ∃ ps, freeSave m i s = { s with parts := ps } := by
  unfold freeSave
  split
  · exact ⟨s.parts, rfl⟩
  · exact ⟨_, rfl⟩

theorem exec_firstFetch {s : State} {m : Nat} {i : Inv} (hi : (mcbAt s m).inv = some i) (hs : i.stage = .fetch)
    (hb : (mcbAt s m).state = 2) (ha : i.awaiting = []) (hlog : ∀ e ∈ s.sowerLog, e.1 = m → e.2.1 ≠ (mcbAt s m).qhead.toNat)
    (hres : ∀ k ∈ (mcbAt s m).plot, resumes s m i.serial k = false) :
    exec (.firstFetch m) s = .next (haltForReports (boundState s m i) m) := by
  have hlog' : s.sowerLog.any (fun e => e.1 == m && e.2.1 == (mcbAt s m).qhead.toNat) = false :=
    List.any_eq_false.2 fun e he => by simpa using hlog e he
  have hres' : (mcbAt s m).plot.any (resumes s m i.serial) = false := List.any_eq_false.2 fun k hk => by simp [hres k hk]
  show execFirstFetch m s = _
  simp only [execFirstFetch, hi, hs, hb, ha, hlog', hres']
  unfold boundState freeSave fetched
  cases i.savePages <;> rfl

/-- FIRST_FETCH with nothing to wait for, nothing to send again and no report due makes the block BOUND and stamps the time;
its first one stamps the count of bindings too (R108, R356). -/
theorem firstFetch_binds {s : State} {m : Nat} {i : Inv} (hi : (mcbAt s m).inv = some i) (hs : i.stage = .fetch)
    (hb : (mcbAt s m).state = 2) (ha : i.awaiting = []) (hlog : ∀ e ∈ s.sowerLog, e.1 = m → e.2.1 ≠ (mcbAt s m).qhead.toNat)
    (hk : ∀ k ∈ (mcbAt s m).plot, resumes s m i.serial k = false ∧ (coreAt s k).pending = []) :
    ∃ t, exec (.firstFetch m) s = .next t ∧ (mcbAt t m).state = 3 ∧ (mcbAt t m).inv = some (fetched (s.bindings + 1) s.pt i) ∧
      t.bindings = s.bindings + 1 ∧ t.mem = s.mem ∧ t.cores = s.cores := by
  obtain ⟨ps, hps⟩ := freeSave_parts m i s
  have hmcb : mcbAt (boundState s m i) m = { mcbAt s m with state := 3, saved := [], inv := some (fetched (s.bindings + 1) s.pt i) } := by
    have hold : mcbAt { freeSave m i s with bindings := s.bindings + 1 } m = mcbAt s m := by rw [hps]; rfl
    simp [boundState, hold, hi]
  have hrest : (boundState s m i).bindings = s.bindings + 1 ∧ (boundState s m i).mem = s.mem ∧ (boundState s m i).cores = s.cores := by
    rw [boundState, hps]; exact ⟨rfl, rfl, rfl⟩
  obtain ⟨hbind, hmem, hcores⟩ := hrest
  have hplot : (mcbAt (boundState s m i) m).plot = (mcbAt s m).plot := by rw [hmcb]; simp [Mcb.plot, hi, fetched]
  have hnone : haltForReports (boundState s m i) m = boundState s m i :=
    haltForReports_none fun k hkt => by
      rw [coreAt, hcores]
      exact (hk k (hplot ▸ hkt)).2
  refine ⟨boundState s m i, ?_, by rw [hmcb], by rw [hmcb], hbind, hmem, hcores⟩
  rw [exec_firstFetch hi hs hb ha hlog fun k h => (hk k h).1, hnone]

end Sys2Proof
end

/-! # RESTORE_SAVE_IMAGE (O44) -/
section
namespace Sys2Proof
open Machine

theorem OnlyCores.ringless {s t : State} (h : OnlyCores s t) (r : Ringless s) : Ringless t := by
  obtain ⟨cs, rfl⟩ := h; exact r

theorem onlyBytes_writeRing (x : BitVec 20 × W64) (n : Nat) (old new : Ring) (s : State) : OnlyBytes s (writeRing x n old new s) := by
  unfold writeRing
  dsimp only
  split
  · exact .refl s
  · exact (OnlyBytes.foldl (fun s i => onlyBytes_putBytes s none _ _) _ s).trans (onlyBytes_putBytes _ _ _ _)

theorem onlyBytes_writeRings (old new : Partition) (s : State) (x : BitVec 20 × W64) : OnlyBytes s (writeRings old new s x) :=
  (((onlyBytes_writeRing _ _ _ _ _).trans (onlyBytes_writeRing _ _ _ _ _)).trans (onlyBytes_writeRing _ _ _ _ _)).trans
    (onlyBytes_writeRing _ _ _ _ _)

/-- Entries of a partition's rings leave every block. -/
theorem mcbAt_updRings (s : State) (p : Nat) (f : Partition → Partition) (m : Nat) : mcbAt (s.updRings p f) m = mcbAt s m := by
  have h : (s.updRings p f).mcbs = s.mcbs := (OnlyBytes.foldl (onlyBytes_writeRings _ _) _ _).mcbs
  rw [mcbAt, h]; rfl

/-- Memory, blocks and cores stand as they were. -/
structure SentOnly (s t : State) : Prop where
  mem : t.mem = s.mem
  mcbs : t.mcbs = s.mcbs
  cores : t.cores = s.cores

/-- A request that is sent again is at its port or on its way, and nothing else changes. -/
theorem sentOnly_sendRequest (s : State) (x : Cmd) : SentOnly s (sendRequest s x) := by
  unfold sendRequest State.transmitRdma transmit
  split
  · exact ⟨rfl, rfl, rfl⟩
  · dsimp only
    split <;> exact ⟨rfl, rfl, rfl⟩

theorem sentOnly_foldl (l : List Cmd) (s : State) : SentOnly s (l.foldl sendRequest s) :=
  foldl_keeps (P := SentOnly s) (fun t x h =>
    let g := sentOnly_sendRequest t x
    ⟨g.mem.trans h.mem, g.mcbs.trans h.mcbs, g.cores.trans h.cores⟩) l s ⟨rfl, rfl, rfl⟩

/-- A core that no pair names is as it was. -/
theorem coreAt_foldl_setCore_ne (g : Nat × Core → Core) (l : List (Nat × Core)) (s : State) {k : Nat} (hk : k ∉ l.map (·.1)) :
    coreAt (l.foldl (fun t p => t.setCore p.1 (g p)) s) k = coreAt s k := by
  induction l generalizing s with
  | nil => rfl
  | cons p l ih =>
    rw [List.map_cons, List.mem_cons, not_or] at hk
    rw [List.foldl_cons, ih _ hk.2, coreAt_setCore, if_neg (Ne.symm hk.1)]

/-- Pairs of different cores give each its own. -/
theorem coreAt_foldl_setCore (g : Nat × Core → Core) (l : List (Nat × Core)) (s : State) (hl : (l.map (·.1)).Nodup) {p : Nat × Core}
    (hp : p ∈ l) : coreAt (l.foldl (fun t p => t.setCore p.1 (g p)) s) p.1 = g p := by
  induction l generalizing s with
  | nil => exact absurd hp List.not_mem_nil
  | cons q l ih =>
    rw [List.map_cons, List.nodup_cons] at hl
    rw [List.foldl_cons]
    rcases List.mem_cons.1 hp with rfl | hp
    · rw [coreAt_foldl_setCore_ne g l _ hl.1, coreAt_setCore, if_pos rfl]
    · exact ih _ hl.2 hp

/-- The state with the saved cores of a block loaded from its image. -/
def restored (s : State) (m : Nat) : State :=
  (mcbAt s m).saved.foldl (fun t p => t.setCore p.1 (restoreCore m (mcbAt s m).prio s.pt (coreAt s p.1) p.2)) s

theorem onlyCores_restored (s : State) (m : Nat) : OnlyCores s (restored s m) := onlyCores_foldl (fun _ _ => ⟨_, rfl⟩) _ s

theorem exec_restore_intact {s : State} {m : Nat} {i : Inv} (hi : (mcbAt s m).inv = some i) (hs : i.stage = .restore)
    (hb : (mcbAt s m).state = 2) (hf : imageFails s m = none) :
    exec (.restoreSaveImage m) s = .next (((mcbAt s m).saved.flatMap (fun p => unanswered p.2)).foldl sendRequest
      ((restored s m).updInv m (fun i => { i with stage := .fetch }))) := by
  show execRestoreSaveImage m s = _
  simp only [execRestoreSaveImage, hi, hs, hb, hf]
  rfl

theorem exec_restore_failing {s : State} {m : Nat} {i : Inv} {a : Nat} (hi : (mcbAt s m).inv = some i) (hs : i.stage = .restore)
    (hb : (mcbAt s m).state = 2) (hf : imageFails s m = some a) :
    exec (.restoreSaveImage m) s = .next (finish ((restored s m).updRings (mcbAt s m).part.toNat
      (fun p => p.pushKill ((plotRecords (restored s m) m 4).map (fun r => { r with faddr := w64 a })))) m 0x05 false) := by
  show execRestoreSaveImage m s = _
  simp only [execRestoreSaveImage, hi, hs, hb, hf]
  rfl

/-- RESTORE_SAVE_IMAGE of an intact image loads every saved core, and the invocation goes on to its first fetch (R408). -/
theorem restore_intact {s : State} {m : Nat} {i : Inv} (hi : (mcbAt s m).inv = some i) (hs : i.stage = .restore)
    (hb : (mcbAt s m).state = 2) (hn : ((mcbAt s m).saved.map (·.1)).Nodup) (hf : imageFails s m = none) :
    ∃ t, exec (.restoreSaveImage m) s = .next t ∧ (mcbAt t m).inv = some { i with stage := .fetch } ∧ t.mem = s.mem ∧
      ∀ k c, (k, c) ∈ (mcbAt s m).saved → coreAt t k = restoreCore m (mcbAt s m).prio s.pt (coreAt s k) c := by
  have cores := onlyCores_restored s m
  have sent := sentOnly_foldl ((mcbAt s m).saved.flatMap (fun p => unanswered p.2))
    ((restored s m).updInv m (fun i => { i with stage := .fetch }))
  refine ⟨_, exec_restore_intact hi hs hb hf, ?_, sent.mem.trans cores.mem, fun k c hk => ?_⟩
  · rw [mcbAt, sent.mcbs]
    show (mcbAt ((restored s m).updInv m _) m).inv = _
    rw [mcbAt_updInv, if_pos rfl, cores.mcbAt, hi]; rfl
  · rw [coreAt, sent.cores]
    exact coreAt_foldl_setCore (fun p => restoreCore m (mcbAt s m).prio s.pt (coreAt s p.1) p.2) _ s hn hk

/-- An image that fails ends the invocation; but for the kill's records in rings, no byte is written. -/
theorem restore_failing {s : State} {m : Nat} {i : Inv} (hi : (mcbAt s m).inv = some i) (hs : i.stage = .restore)
    (hb : (mcbAt s m).state = 2) (hf : imageFails s m ≠ none) :
    ∃ t, exec (.restoreSaveImage m) s = .next t ∧ (mcbAt t m).inv = none ∧ (Ringless s → t.mem = s.mem) ∧
      ((mcbAt t m).state = 0 ∨ (mcbAt t m).state = 1) := by
  obtain ⟨a, ha⟩ := Option.ne_none_iff_exists'.1 hf
  have cores := onlyCores_restored s m
  have hstep := exec_restore_failing hi hs hb ha
  generalize hf : (fun p : Partition => p.pushKill ((plotRecords (restored s m) m 4).map (fun r => { r with faddr := w64 a }))) = f at hstep
  have hring : ∀ p, (f p).waitRing = p.waitRing := fun p => by rw [← hf]; rfl
  have hinv : (mcbAt ((restored s m).updRings (mcbAt s m).part.toNat f) m).inv = some i := by
    rw [mcbAt_updRings, cores.mcbAt, hi]
  refine ⟨_, hstep, finish_inv hinv _ _, fun r => (finish_mem _ _ _ _).trans ?_, finish_state_over hinv _⟩
  exact (untouched_updRings _ _ _ hring (cores.ringless r)).mem.trans cores.mem

end Sys2Proof
end

/-! # FREE_PLOT_SEARCH (O44) -/
section
namespace Sys2Proof
open Machine

theorem exec_freePlotSearch {s : State} {part : BitVec 4} (hr : s.rdy.getLsbD 36 = true) (hf : (partAt s part.toNat).frozen = false)
    (hn : reservedReady s part = none) : exec (.freePlotSearch part.toNat) s = .next (searchFrom s false (candidates s part)) := by
  show execFreePlotSearch part.toNat s = _
  simp [execFreePlotSearch, hr, hf, hn]

/-- A queued head with a free plot binds there. -/
theorem searchFrom_free {s : State} {p a m : Nat} {rest : List (Nat × Nat × Nat × Bool)} {o : Nat × Nat}
    (ho : freePlot s m p = some o) : searchFrom s false ((p, a, m, false) :: rest) = startBinding s m o.1 o.2 := by
  simp only [searchFrom, ho, Bool.false_eq_true, if_false]

/-- A victim that is found and takes the request leaves its plot reserved. For any request: beside its arguments the kernel
would evaluate this one's search for a run of save pages. -/
theorem preempt_found {s k t : State} {request : State → Nat → Option State} {found : Option (Nat × Nat × Nat)} {m v : Nat}
    {o : Nat × Nat} :
    found = some (v, o) → request s v = some t →
      (match found with
        | none => k
        | some (v, ox, oy) =>
          match request s v with
          | none => k
          | some t => t.updMcb m (fun b => { b with reserved := some (ox, oy, v) })) =
        t.updMcb m (fun b => { b with reserved := some (o.1, o.2, v) }) := by
  rintro rfl hr
  simp only [hr]

/-- A queued head without a free plot reserves that of a victim that can be saved. -/
theorem searchFrom_victim {s t : State} {p a m v : Nat} {rest : List (Nat × Nat × Nat × Bool)} {o : Nat × Nat}
    (hp : freePlot s m p = none) (hv : victim s m p = some (v, o)) (ht : requestPreempt s v = some t) :
    searchFrom s false ((p, a, m, false) :: rest) = t.updMcb m (fun b => { b with reserved := some (o.1, o.2, v) }) := by
  rw [searchFrom, if_neg Bool.false_ne_true, if_neg Bool.false_ne_true, hp]
  exact preempt_found (request := requestPreempt) hv ht

/-- Every core of a free plot is unbound and not fenced. -/
theorem freePlot_cores {s : State} {m p : Nat} {o : Nat × Nat} (ho : freePlot s m p = some o) :
    ∀ k ∈ plotCores o.1 o.2 (mcbAt s m).wlog.toNat (mcbAt s m).hlog.toNat,
      (coreAt s k).bound = none ∧ (coreAt s k).fenced = false := by
  have hfound := List.find?_some ho
  rw [Bool.and_eq_true] at hfound
  obtain ⟨hplace, hfree⟩ := hfound
  intro k hk
  have hplaced := List.all_eq_true.1 hplace k hk
  have hunbound := List.all_eq_true.1 hfree k hk
  simp only [coreFree, Bool.and_eq_true, Option.isNone_iff_eq_none] at hunbound
  simp only [Bool.and_eq_true, Bool.not_eq_true'] at hplaced
  exact ⟨hunbound.1.1.1, hplaced.2⟩

/-- Binding of a block's queued head: the block is BINDING with a new invocation, its plot's cores are held for it, and nothing
else is written. -/
theorem startBinding_queued {s : State} {m ox oy : Nat} {e : QEntry} (hi : (mcbAt s m).inv = none)
    (he : (mcbAt s m).entries.head? = some e) :
    let b := mcbAt s m
    let t := startBinding s m ox oy
    mcbAt t m = { b with state := 2, reserved := none, inv := some (newInv b e ox oy) } ∧ t.mem = s.mem ∧
      (∀ k ∈ plotCores ox oy b.wlog.toNat b.hlog.toNat, (coreAt t k).bound = some m) ∧ ∀ n, n ≠ m → mcbAt t n = mcbAt s n := by
  dsimp only
  generalize hu : s.updMcb m (fun b => { b with state := 2, reserved := none, inv := some (newInv (mcbAt s m) e ox oy) }) = u
  have hm : mcbAt u m = { mcbAt s m with state := 2, reserved := none, inv := some (newInv (mcbAt s m) e ox oy) } := by
    rw [← hu, mcbAt_updMcb, if_pos rfl]
  have hplot : (mcbAt u m).plot = plotCores ox oy (mcbAt s m).wlog.toNat (mcbAt s m).hlog.toNat := by rw [hm]; rfl
  have ht : startBinding s m ox oy = (mcbAt u m).plot.foldl (fun s k => s.updCore k (fun c => { c with bound := some m })) u := by
    rw [← hu]; simp only [startBinding, hi, he]; rfl
  have cores : OnlyCores u (startBinding s m ox oy) := ht ▸ onlyCores_foldl (fun s k => onlyCores_updCore s k _) _ u
  refine ⟨(cores.mcbAt m).trans hm, ?_, fun k hk => ?_, fun n hn => ?_⟩
  · rw [cores.mem, ← hu]; rfl
  · obtain ⟨c, hc⟩ := coreAt_foldl_updCore (fun _ c => { c with bound := some m }) (mcbAt u m).plot u (hplot ▸ hk)
    rw [ht, hc]
  · rw [cores.mcbAt, ← hu, mcbAt_updMcb, if_neg hn.symm]

/-- The state with block `v` PRE-EMPTING. -/
def preempting (s : State) (v : Nat) : State := s.updMcb v (fun b => { b with state := 4 })

/-- The invocation that stops for a save into the run `r`. -/
def stopping (pt : Nat) (r : Nat × Nat) (i : Inv) : Inv := { i with preempt := .stop, stopAt := pt, savePages := some r }

theorem mcbAt_preempting (s : State) (v n : Nat) :
    mcbAt (preempting s v) n = if v = n then { mcbAt s v with state := 4 } else mcbAt s n := mcbAt_updMcb _ _ _ _

/-- A block with a save run is PRE-EMPTING; it stops, and takes its run, unless it only drains. -/
theorem requestPreempt_eq {s : State} {v : Nat} {r : Nat × Nat} (hr : saveRun s v = some r) :
    let w := stopEngines ((preempting s v).updInv v (stopping s.pt r)) v
    requestPreempt s v = some (if drainsOnly (preempting s v) v then preempting s v
      else w.updPart (mcbAt w v).part.toNat (fun p => p.take 1 (List.range' r.1 r.2))) := by
  dsimp only
  -- the constant unfolds alone: beside its arguments the kernel would evaluate the search for a run of save pages
  rw [show @Machine.requestPreempt = _ by delta Machine.requestPreempt; rfl]
  generalize saveRun s v = run at hr ⊢
  subst hr
  exact (apply_ite some _ _ _).symm

/-- A request of pre-emption to a block that can be saved makes it PRE-EMPTING, leaves every other block, and writes no byte
where no ring takes a record. -/
theorem requestPreempt_spec {s : State} {v : Nat} (hr : saveRun s v ≠ none) :
    ∃ t, requestPreempt s v = some t ∧ (mcbAt t v).state = 4 ∧ (∀ n, n ≠ v → mcbAt t n = mcbAt s n) ∧ (Ringless s → t.mem = s.mem) := by
  obtain ⟨r, hr⟩ := Option.ne_none_iff_exists'.1 hr
  refine ⟨_, requestPreempt_eq hr, ?_⟩
  generalize hw : (preempting s v).updInv v (stopping s.pt r) = w
  have hstop : ∀ n, mcbAt (stopEngines w v) n = mcbAt w n := (kept_stopEngines w v 1).mcbAt
  split
  · refine ⟨by rw [mcbAt_preempting, if_pos rfl], fun n hn => by rw [mcbAt_preempting, if_neg hn.symm], fun _ => rfl⟩
  · refine ⟨?_, fun n hn => ?_, fun h => ?_⟩
    · rw [mcbAt_updPart, hstop, ← hw, mcbAt_updInv, if_pos rfl, mcbAt_preempting, if_pos rfl]
    · rw [mcbAt_updPart, hstop, ← hw, mcbAt_updInv, if_neg hn.symm, mcbAt_preempting, if_neg hn.symm]
    · have hw' : Ringless w := by rw [← hw]; exact h
      exact (untouched_stopEngines w v 1 hw').mem.trans (by rw [← hw]; rfl)

/-- FREE_PLOT_SEARCH of a queued head with a free plot binds it there (R105, R106). -/
theorem freePlotSearch_binds {s : State} {part : BitVec 4} {p a m : Nat} {rest : List (Nat × Nat × Nat × Bool)} {o : Nat × Nat}
    (hr : s.rdy.getLsbD 36 = true) (hf : (partAt s part.toNat).frozen = false) (hn : reservedReady s part = none)
    (hc : candidates s part = (p, a, m, false) :: rest) (ho : freePlot s m p = some o) :
    exec (.freePlotSearch part.toNat) s = .next (startBinding s m o.1 o.2) := by
  rw [exec_freePlotSearch hr hf hn, hc, searchFrom_free ho]

/-- FREE_PLOT_SEARCH of a queued head without a free plot pre-empts a victim that can be saved, and reserves its plot. -/
theorem freePlotSearch_preempts {s : State} {part : BitVec 4} {p a m v : Nat} {rest : List (Nat × Nat × Nat × Bool)} {o : Nat × Nat}
    (hr : s.rdy.getLsbD 36 = true) (hf : (partAt s part.toNat).frozen = false) (hn : reservedReady s part = none)
    (hc : candidates s part = (p, a, m, false) :: rest) (hp : freePlot s m p = none) (hv : victim s m p = some (v, o)) (hvm : v ≠ m)
    (hrun : saveRun s v ≠ none) :
    ∃ t, exec (.freePlotSearch part.toNat) s = .next t ∧ (mcbAt t v).state = 4 ∧ (mcbAt t m).reserved = some (o.1, o.2, v) ∧
      (mcbAt t m).state = (mcbAt s m).state ∧ (Ringless s → t.mem = s.mem) := by
  obtain ⟨t, ht, hstate, hother, hmem⟩ := requestPreempt_spec hrun
  refine ⟨t.updMcb m (fun b => { b with reserved := some (o.1, o.2, v) }), ?_, ?_, ?_, ?_, hmem⟩
  · rw [exec_freePlotSearch hr hf hn, hc, searchFrom_victim hp hv ht]
  · rw [mcbAt_updMcb, if_neg hvm.symm, hstate]
  · rw [mcbAt_updMcb, if_pos rfl]
  · rw [mcbAt_updMcb, if_pos rfl, hother m hvm.symm]

end Sys2Proof
end

/-! # Placement and binding (O44) -/
section
namespace Sys2Proof
open Machine

/-- Settles O44: each of the five steps by the lemma that says what it leaves. -/
theorem placementAndBinding : Obligations.PlacementAndBinding := by
  unfold Obligations.PlacementAndBinding
  refine ⟨?search, ?bind, ?fetch, ?restore, ?table⟩
  case search =>
    intro s part p a m rest e hr hf hn hc hi he
    refine ⟨fun o ho => ?_, fun v o hp hv hvm hrun => freePlotSearch_preempts hr hf hn hc hp hv hvm hrun⟩
    obtain ⟨hm, hmem, hbound, hother⟩ := startBinding_queued (ox := o.1) (oy := o.2) hi he
    exact ⟨_, newInv (mcbAt s m) e o.1 o.2, freePlotSearch_binds hr hf hn hc ho, by rw [hm], by rw [hm], rfl, rfl, rfl, rfl, rfl, hmem,
      fun k hk => ⟨(freePlot_cores ho k hk).1, (freePlot_cores ho k hk).2, hbound k hk⟩, hother⟩
  case bind =>
    intro s m i b hi hs hb
    refine ⟨fun init s1 h => ?_, fun s1 h => bind_unreadable hi hs hb h⟩
    obtain ⟨t, ht, hinv, hmem, hcores⟩ := bind_readable hi hs hb h
    refine ⟨t, ht, hinv, hmem, fun k hk => ?_⟩
    obtain ⟨c, hc⟩ := hcores k (Mcb.plot_of_inv hi ▸ hk)
    rw [hc]
    exact boundCore_spec _ _ _ _ _ _
  case fetch =>
    intro s m i hi hs hb
    refine ⟨firstFetch_waits hi, fun ha hlog hk => ?_⟩
    obtain ⟨t, ht, hstate, hinv, hbind, hmem, hcores⟩ := firstFetch_binds hi hs hb ha hlog hk
    exact ⟨t, _, ht, hstate, hinv, rfl, rfl, rfl, rfl, rfl, hbind, hmem, hcores⟩
  case restore =>
    intro s m i b hi hs hb hn
    refine ⟨fun hf => ?_, restore_failing hi hs hb⟩
    obtain ⟨t, ht, hinv, hmem, hcores⟩ := restore_intact hi hs hb hn hf
    refine ⟨t, ht, hinv, hmem, fun k c hk => ?_⟩
    rw [hcores k c hk]
    exact ⟨rfl, rfl, rfl, rfl, rfl, rfl, rfl, rfl, rfl, rfl, rfl, rfl⟩
  case table =>
    intro s k m i d l hb hi hloads hl hfirst s1 h
    obtain ⟨t, ht, hmem, hk, hother⟩ := tableLoad_valid hb hi hloads hl hfirst h
    obtain ⟨hdtv, hloading, hdt, hth, hrest⟩ := dtabDone_spec d l (coreAt s k)
    rw [← hk] at hdtv hloading hdt hth hrest
    exact ⟨t, ht, hmem, hdtv, hloading, hdt, hth, hrest, hother⟩

end Sys2Proof
end

/-! # What a port does with a frame (O42) -/
section
namespace Sys2Proof
open Machine

/-- A frame that a port takes: the port stands and is ready, and the frame has a length and tags that are taken (R77, R78). -/
def FrameTaken (s : State) (port : Nat) (f : Frame) : Prop :=
  portStands s port = true ∧ s.rdy.getLsbD (physicalPort s port) = true ∧ f.length ≤ 9216 ∧ f.serviceTag = false ∧ f.tags.length ≤ 1

/-- A frame of another kind than the two of flow control. -/
def CarriesData (f : Frame) : Prop := f.body ≠ .pause ∧ ∀ enable quanta, f.body ≠ .pfc enable quanta

theorem frameReceive_noPort {s : State} {port : Nat} (f : Frame) (h : portStands s port = false) :
    exec (.frameReceive port f) s = .next s := by
  show execFrameReceive port f s = _
  simp [execFrameReceive, h]

theorem frameReceive_refused {s : State} {port : Nat} {f : Frame} (hp : portStands s port = true) (h : ¬ FrameTaken s port f) :
    exec (.frameReceive port f) s = .next (dropAtPort s port) := by
  show execFrameReceive port f s = _
  unfold execFrameReceive
  rw [if_neg (by simp [hp]), if_pos]
  by_contra hc
  simp only [not_or, Bool.not_eq_true, Bool.not_eq_false', gt_iff_lt, not_lt] at hc
  exact h ⟨hp, hc.1, hc.2.1, hc.2.2.1, hc.2.2.2⟩

theorem frameReceive_pause {s : State} {port : Nat} {f : Frame} (h : FrameTaken s port f) (hb : f.body = .pause) :
    exec (.frameReceive port f) s = .next (s.updPort port (fun p => { p with pauses := p.pauses + 1 })) := by
  obtain ⟨hp, hr, hl, hs, ht⟩ := h
  show execFrameReceive port f s = _
  simp [execFrameReceive, portReadyBit, hp, hr, Nat.not_lt.2 hl, hs, Nat.not_lt.2 ht, hb]

theorem frameReceive_pfc {s : State} {port : Nat} {f : Frame} {enable : Byte} {quanta : List W16} (h : FrameTaken s port f)
    (hb : f.body = .pfc enable quanta) : exec (.frameReceive port f) s = .next (honourPause s port enable quanta) := by
  obtain ⟨hp, hr, hl, hs, ht⟩ := h
  show execFrameReceive port f s = _
  simp [execFrameReceive, portReadyBit, hp, hr, Nat.not_lt.2 hl, hs, Nat.not_lt.2 ht, hb]

/-- A frame of data is dropped where no pair is mapped, and else goes through the pair's MAC filter (R80, R81). -/
theorem frameReceive_data {s : State} {port : Nat} {f : Frame} (h : FrameTaken s port f) (hd : CarriesData f) :
    let found := s.ingress.find? (fun e => e.pair.port == port && e.pair.vlan == frameVlan f)
    (found = none → exec (.frameReceive port f) s = .next (dropAtPort s port)) ∧
    ∀ e, found = some e → exec (.frameReceive port f) s =
      .next (if macAccepted (portAt s port) e.pair f then routeFrame s port f e.pair e.part else dropAtPort s port) := by
  obtain ⟨hp, hr, hl, hs, ht⟩ := h
  obtain ⟨hpause, hpfc⟩ := hd
  show (_ → execFrameReceive port f s = _) ∧ ∀ e, _ → execFrameReceive port f s = _
  unfold execFrameReceive
  rw [if_neg (by simp [hp]), if_neg (by simp [portReadyBit, hr, hl, hs, ht])]
  cases hb : f.body with
  | pause => exact absurd hb hpause
  | pfc enable quanta => exact absurd hb (hpfc enable quanta)
  | _ => exact ⟨fun h => by simp only [h], fun e h => by simp only [h]⟩

theorem frameReceive_macRefused {s : State} {port : Nat} {f : Frame} {e : Ingress} (h : FrameTaken s port f) (hd : CarriesData f)
    (he : s.ingress.find? (fun e => e.pair.port == port && e.pair.vlan == frameVlan f) = some e)
    (hm : macAccepted (portAt s port) e.pair f = false) : exec (.frameReceive port f) s = .next (dropAtPort s port) := by
  rw [(frameReceive_data h hd).2 e he, hm, if_neg Bool.false_ne_true]

theorem frameReceive_macAccepted {s : State} {port : Nat} {f : Frame} {e : Ingress} (h : FrameTaken s port f) (hd : CarriesData f)
    (he : s.ingress.find? (fun e => e.pair.port == port && e.pair.vlan == frameVlan f) = some e)
    (hm : macAccepted (portAt s port) e.pair f = true) :
    exec (.frameReceive port f) s = .next (routeFrame s port f e.pair e.part) := by
  rw [(frameReceive_data h hd).2 e he, hm, if_pos rfl]

/-- After a fold that sets some keys, each of those reads the value set, and every other key as before. -/
theorem mapGet_foldl_set (c : Nat → Bool) (v : Nat → Nat) (ks : List Nat) (m : SMap Nat) (i : Nat) :
    mapGet 0 (ks.foldl (fun m i => if c i then mapSet 0 m i (v i) else m) m) i =
      if i ∈ ks ∧ c i = true then v i else mapGet 0 m i := by
  induction ks generalizing m with
  | nil => simp
  | cons k ks ih =>
    rw [List.foldl_cons, ih]
    by_cases hc : i ∈ ks ∧ c i = true
    · rw [if_pos hc, if_pos ⟨List.mem_cons_of_mem _ hc.1, hc.2⟩]
    · rw [if_neg hc]
      by_cases hk : i = k
      · subst hk
        by_cases hi : c i = true <;> simp [hi]
      · have hne : k ≠ i := Ne.symm hk
        have hc' : ¬ (i ∈ k :: ks ∧ c i = true) := by simpa [hk] using hc
        rw [if_neg hc']
        split
        · rw [mapGet_set, if_neg hne]
        · rfl

/-- Frames that are sent once their pauses are over leave the pauses themselves. -/
theorem releaseTx_pausedUntil (s : State) (port p : Nat) : (portAt (releaseTx s port) p).pausedUntil = (portAt s p).pausedUntil := by
  let rest := fun (q : Port) => { q with held := q.held.filter (fun e => !decide (mapGet 0 (portAt s port).pausedUntil e.1 ≤ s.pt)) }
  refine (congrArg Port.pausedUntil (portAt_updPort s port rest p)).trans ?_
  split
  · next h => subst h; rfl
  · rfl

/-- Each priority that a pause frame names stops for its quanta (R78). -/
theorem honourPause_pausedUntil (s : State) (port : Nat) (enable : Byte) (quanta : List W16) {i : Nat} (hi : i < 8) :
    mapGet 0 (portAt (honourPause s port enable quanta) port).pausedUntil i =
      if enable.getLsbD i then s.pt + quantaTime s port (quanta.getD i 0).toNat else mapGet 0 (portAt s port).pausedUntil i := by
  unfold honourPause
  rw [releaseTx_pausedUntil, portAt_updPort, if_pos rfl]
  refine (mapGet_foldl_set enable.getLsbD (fun i => s.pt + quantaTime s port (quanta.getD i 0).toNat) _ _ i).trans ?_
  simp [hi]

theorem honourPause_mem (s : State) (port : Nat) (enable : Byte) (quanta : List W16) : (honourPause s port enable quanta).mem = s.mem := by
  unfold honourPause releaseTx; rfl

theorem honourPause_cores (s : State) (port : Nat) (enable : Byte) (quanta : List W16) :
    (honourPause s port enable quanta).cores = s.cores := by
  unfold honourPause releaseTx; rfl

theorem slowPath_unconfigured {s : State} {m : Message} (bs : List Byte) (h : (partAt s m.part.toNat).slowPath = false) :
    slowPath s m bs = dropAtPort s m.port := by
  simp [slowPath, h]

/-- A message that an ingress queue has room for is its last (R87). -/
theorem queueMessage_joins {s : State} {m : Message} (pcp : BitVec 3) (hr : s.rdy.getLsbD 36 = true)
    (hp : (partAt s m.part.toNat).scrubbing = false) (hl : (portAt s m.port).queue.length < 512)
    (hb : (portAt s m.port).bytes + m.payload.length ≤ 4 * 2 ^ 20) :
    let t := queueMessage s m pcp
    (portAt t m.port).queue = (portAt s m.port).queue ++ [m] ∧ (∀ p, p ≠ m.port → portAt t p = portAt s p) ∧
      t.mem = s.mem ∧ t.cores = s.cores ∧ t.mcbs = s.mcbs := by
  have put : ∀ q : Port, q.queue = (portAt s m.port).queue ++ [m] →
      (portAt (s.updPort m.port (fun _ => q)) m.port).queue = (portAt s m.port).queue ++ [m] ∧
      ∀ p, p ≠ m.port → portAt (s.updPort m.port (fun _ => q)) p = portAt s p := fun q hq =>
    ⟨by rw [portAt_updPort, if_pos rfl, hq], fun p hp => by rw [portAt_updPort, if_neg hp.symm]⟩
  dsimp only
  unfold queueMessage
  rw [if_neg (by simp [hr, hp]), if_neg (by omega)]
  dsimp only
  split
  · exact ⟨(put _ rfl).1, (put _ rfl).2, rfl, rfl, rfl⟩
  · exact ⟨(put _ rfl).1, (put _ rfl).2, rfl, rfl, rfl⟩

theorem queueMessage_atSower {s : State} {m : Message} (pcp : BitVec 3)
    (h : s.rdy.getLsbD 36 = false ∨ (partAt s m.part.toNat).scrubbing = true) : queueMessage s m pcp = dropAtSower s m.part.toNat := by
  unfold queueMessage
  exact if_pos (by simpa using h)

theorem queueMessage_full {s : State} {m : Message} (pcp : BitVec 3) (hr : s.rdy.getLsbD 36 = true)
    (hp : (partAt s m.part.toNat).scrubbing = false)
    (h : 512 ≤ (portAt s m.port).queue.length ∨ 4 * 2 ^ 20 < (portAt s m.port).bytes + m.payload.length) :
    queueMessage s m pcp = dropAtPort s m.port := by
  unfold queueMessage
  rw [if_neg (by simp [hr, hp])]
  exact if_pos h

section
variable {s : State} {port : Nat} {f : Frame} {pair : IngressPair} {part : BitVec 4}

/-- The message of a frame before its addresses and payload are read. -/
def frameMessage (port : Nat) (f : Frame) (part : BitVec 4) : Message :=
  { port := port, part := part, smac := f.src, dmac := f.dst, tci := frameTci f, tagged := !f.tags.isEmpty, v6 := false, sip := 0, dip := 0,
    sport := 0, tos := 0, payload := [] }

theorem routeFrame_arp {request : Bool} {target sender : BitVec 32} (hb : f.body = .arp request target sender) :
    routeFrame s port f pair part =
      if request = true ∧ target ∈ pair.ipv4 then
        transmit s port (framePcp f).toNat (.arp port (frameTci f) target (portAt s port).mac f.src)
      else slowPath s { frameMessage port f part with sip := mapped4 sender } f.raw := by
  unfold routeFrame
  simp only [hb, Bool.and_eq_true, List.contains_iff_mem]
  rfl

/-- An IPv4 header that a port accepts for a pair: no options, no fragment, a good checksum, and an address of the pair (R79, R81). -/
def Ipv4Whole (ip : Ipv4Header) (pair : IngressPair) : Prop :=
  ip.ihl = 5 ∧ ip.moreFragments = false ∧ ip.fragmentOffset = 0 ∧ ip.sumOk = true ∧ ip.dst ∈ pair.ipv4

/-- The message of an IPv4 frame. -/
def ipv4Message (port : Nat) (f : Frame) (part : BitVec 4) (ip : Ipv4Header) : Message :=
  { frameMessage port f part with sip := mapped4 ip.src, dip := mapped4 ip.dst, tos := ip.tos }

theorem routeFrame_ipv4_refused {ip : Ipv4Header} {l4 : Layer4} (hb : f.body = .ipv4 ip l4) (h : ¬ Ipv4Whole ip pair) :
    routeFrame s port f pair part = dropAtPort s port := by
  unfold routeFrame
  simp only [hb]
  refine if_pos ?_
  by_contra hc
  simp only [not_or, ne_eq, Decidable.not_not, Bool.not_eq_true, Bool.not_eq_false', List.contains_iff_mem] at hc
  exact h hc

theorem routeFrame_ipv4_whole {ip : Ipv4Header} {l4 : Layer4} (hb : f.body = .ipv4 ip l4) (h : Ipv4Whole ip pair) :
    (∀ sport dport zero good payload, l4 = .udp sport dport zero good payload →
      routeFrame s port f pair part = if zero = true ∨ good = true then
        routeUdp s { ipv4Message port f part ip with sport := sport, payload := payload } dport (framePcp f) else dropAtPort s port) ∧
    ((∀ sport dport zero good payload, l4 ≠ .udp sport dport zero good payload) →
      routeFrame s port f pair part = slowPath s (ipv4Message port f part ip) f.raw) := by
  obtain ⟨hihl, hmore, hoff, hsum, hdst⟩ := h
  unfold routeFrame
  simp only [hb]
  rw [if_neg (by simp [hihl, hmore, hoff, hsum, hdst])]
  cases l4 with
  | udp sport dport zero good payload =>
    refine ⟨fun _ _ _ _ _ h => ?_, fun h => absurd rfl (h _ _ _ _ _)⟩
    cases h
    simp only [Bool.or_eq_true]
    rfl
  | _ => exact ⟨fun _ _ _ _ _ h => (nomatch h), fun _ => rfl⟩

/-- The message of an IPv6 frame. -/
def ipv6Message (port : Nat) (f : Frame) (part : BitVec 4) (ip : Ipv6Header) : Message :=
  { frameMessage port f part with v6 := true, sip := ip.src, dip := ip.dst, tos := ip.tos }

/-- An ICMPv6 message to an address of the pair, or to the solicited-node address of one. -/
def Icmpv6Here (ip : Ipv6Header) (pair : IngressPair) : Prop :=
  ip.nextHeader = 58 ∧ ∃ a ∈ pair.ipv6, ip.dst = a ∨ ip.dst = solicitedIp a

theorem not_icmpv6Here_iff (ip : Ipv6Header) (pair : IngressPair) :
    (ip.nextHeader ≠ 58 ∨ !(pair.ipv6.any (fun a => ip.dst == a || ip.dst == solicitedIp a))) ↔ ¬ Icmpv6Here ip pair := by
  rw [Icmpv6Here, Classical.not_and_iff_not_or_not]
  simp

theorem routeFrame_ipv6_other {ip : Ipv6Header} (hb : f.body = .ipv6 ip .other) :
    routeFrame s port f pair part = dropAtPort s port := by
  unfold routeFrame
  simp only [hb]

theorem routeFrame_ipv6_udp {ip : Ipv6Header} {sport dport : W16} {zero good : Bool} {payload : List Byte}
    (hb : f.body = .ipv6 ip (.udp sport dport zero good payload)) :
    routeFrame s port f pair part = if ip.nextHeader = 17 ∧ ip.dst ∈ pair.ipv6 ∧ zero = false ∧ good = true then
      routeUdp s { ipv6Message port f part ip with sport := sport, payload := payload } dport (framePcp f) else dropAtPort s port := by
  unfold routeFrame
  simp only [hb, Bool.and_eq_true, Bool.not_eq_true', beq_iff_eq, List.contains_iff_mem, and_assoc]
  rfl

theorem routeFrame_icmpv6 {ip : Ipv6Header} (hb : f.body = .ipv6 ip .icmpv6) :
    (¬ Icmpv6Here ip pair → routeFrame s port f pair part = dropAtPort s port) ∧
    (Icmpv6Here ip pair → routeFrame s port f pair part = slowPath s (ipv6Message port f part ip) f.raw) := by
  rw [← not_not (a := Icmpv6Here ip pair), ← not_icmpv6Here_iff, not_not]
  unfold routeFrame
  simp only [hb]
  exact ⟨fun h => if_pos h, fun h => if_neg h⟩

theorem routeFrame_solicitation {ip : Ipv6Header} {target : BitVec 128} (hb : f.body = .ipv6 ip (.solicitation target)) :
    (¬ Icmpv6Here ip pair → routeFrame s port f pair part = dropAtPort s port) ∧
    (Icmpv6Here ip pair → routeFrame s port f pair part =
      if target ∈ pair.ipv6 then transmit s port (framePcp f).toNat
        (.advertisement port (frameTci f) target (portAt s port).mac true false f.src ip.src)
      else slowPath s (ipv6Message port f part ip) f.raw) := by
  rw [← not_not (a := Icmpv6Here ip pair), ← not_icmpv6Here_iff, not_not]
  unfold routeFrame
  simp only [hb]
  refine ⟨fun h => if_pos h, fun h => (if_neg h).trans ?_⟩
  simp only [List.contains_iff_mem]
  rfl
end

/-- Settles O42: the frames that are refused, those of flow control, and of the others each kind by what `routeFrame` does with it. -/
theorem framesReachTheQueues : Obligations.FramesReachTheQueues := by
  unfold Obligations.FramesReachTheQueues
  intro port f s drop becomes ok pairIs tci pcp
  refine ⟨⟨_, rfl⟩, frameReceive_noPort f, frameReceive_refused, frameReceive_pause,
    fun enable quanta h hb => ⟨_, frameReceive_pfc h hb, honourPause_mem .., honourPause_cores .., fun i hi =>
      honourPause_pausedUntil s port enable quanta hi⟩, ?_⟩
  intro frame
  refine ⟨fun h hd hnone => (frameReceive_data h hd).1 (List.find?_eq_none.2 fun e he => ?_), fun e h hfound => ⟨fun hd hmac => ?_, fun hmac => ?_⟩⟩
  · simpa using hnone e he
  · exact frameReceive_macRefused h hd hfound hmac
  · intro part m slow routed
    have route : ∀ {t}, CarriesData f → routeFrame s port f e.pair e.part = t → becomes t := fun hd ht =>
      (frameReceive_macAccepted h hd hfound hmac).trans (congrArg _ ht)
    have hslow : ∀ (m : Message) (bs : List Byte), m.port = port → m.part = e.part → becomes (slowPath s m bs) → slow m bs := by
      intro m bs hport hpart hb
      refine ⟨hb, fun hs => ?_⟩
      rw [slowPath_unconfigured bs (hpart ▸ hs), hport] at hb
      exact hb
    have hrouted : ∀ (m : Message) (dport : W16), m.port = port → m.part = e.part →
        becomes (routeUdp s m dport (framePcp f)) → routed m dport := by
      intro m dport hport hpart hb
      subst hport
      rw [routeUdp, hpart] at hb
      refine ⟨fun hd => ?_, fun hd h4 => ?_, fun hd h4 => ?_⟩
      · rw [if_pos hd] at hb
        refine ⟨fun hs => ?_, fun hr hp => ⟨fun hfull => ?_, fun hl hbytes => ?_⟩⟩
        · rw [queueMessage_atSower _ (hpart ▸ hs), hpart] at hb; exact hb
        · rw [queueMessage_full _ hr (hpart ▸ hp) hfull] at hb; exact hb
        · exact ⟨_, hb, queueMessage_joins _ hr (hpart ▸ hp) hl hbytes⟩
      · rwa [if_neg hd, if_pos h4] at hb
      · rw [if_neg hd, if_neg h4] at hb
        exact hslow _ _ rfl hpart hb
    refine ⟨fun request target sender hb => ?arp, fun ip l4 hb => ?ipv4, fun ip l4 hb => ?ipv6⟩
    case arp =>
      have hd : CarriesData f := by simp [CarriesData, hb]
      have hgoes := routeFrame_arp (s := s) (port := port) (pair := e.pair) (part := e.part) hb
      exact ⟨fun hc => route hd (hgoes.trans (if_pos hc)), fun hc => hslow _ _ rfl rfl (route hd (hgoes.trans (if_neg hc)))⟩
    case ipv4 =>
      have hd : CarriesData f := by simp [CarriesData, hb]
      intro whole m4
      refine ⟨fun hw => route hd (routeFrame_ipv4_refused hb hw), fun hw hl => ?_, fun sport dport zero good payload hw hl => ?_⟩
      · exact hslow _ _ rfl rfl (route hd ((routeFrame_ipv4_whole hb hw).2 hl))
      · have hgoes := (routeFrame_ipv4_whole (s := s) (port := port) (part := e.part) hb hw).1 _ _ _ _ _ hl
        refine ⟨fun hz hg => route hd (hgoes.trans (if_neg ?_)), fun hsum => ?_⟩
        · simp [hz, hg]
        · exact hrouted _ _ rfl rfl (route hd (hgoes.trans (if_pos hsum)))
    case ipv6 =>
      have hd : CarriesData f := by simp [CarriesData, hb]
      intro m6 here
      refine ⟨fun hl => ?_, fun sport dport zero good payload hl => ?_, fun hl => ?_, fun target hl => ?_⟩ <;> subst hl
      · exact route hd (routeFrame_ipv6_other hb)
      · have hgoes := routeFrame_ipv6_udp (s := s) (port := port) (pair := e.pair) (part := e.part) hb
        exact ⟨fun hw => route hd (hgoes.trans (if_neg hw)), fun hw => hrouted _ _ rfl rfl (route hd (hgoes.trans (if_pos hw)))⟩
      · have hgoes := routeFrame_icmpv6 (s := s) (port := port) (pair := e.pair) (part := e.part) hb
        exact ⟨fun hh => route hd (hgoes.1 hh), fun hh => hslow _ _ rfl rfl (route hd (hgoes.2 hh))⟩
      · have hgoes := routeFrame_solicitation (s := s) (port := port) (pair := e.pair) (part := e.part) hb
        exact ⟨fun hh => route hd (hgoes.1 hh), fun hh ht => hslow _ _ rfl rfl (route hd ((hgoes.2 hh).trans (if_neg ht))),
          fun hh ht => route hd ((hgoes.2 hh).trans (if_pos ht))⟩

end Sys2Proof
end

/-! # What the Sower's write of an entry leaves (O43, O49) -/
section
namespace Sys2Proof
open Machine

/-- The state without what a write of the Sower may change beside blocks: bytes and their marks, counts, counter banks, the log of
writes that wait, and the values of open bytes. -/
def besideSower (s : State) : State := { s with
  mem := [], tags := [], bad := [], pmem := [], enc := [], stamps := [], marks := [], writes := 0, counts := [], mcbs := [], parts := [],
  hostWalks := 0, sowerLog := [], free := 0 }

/-- What a write of the Sower to the queue of block `m` leaves: every other block, and of `m` all but its HORIZON. -/
structure SowerWrites (m : Nat) (s t : State) : Prop where
  rest : besideSower t = besideSower s
  block : { mcbAt t m with horizon := 0 } = { mcbAt s m with horizon := 0 }
  others : ∀ k, k ≠ m → mcbAt t k = mcbAt s k

section
variable {m : Nat}

theorem SowerWrites.refl (s : State) : SowerWrites m s s := ⟨rfl, rfl, fun _ _ => rfl⟩

theorem SowerWrites.trans (a b c : State) (h : SowerWrites m a b) (g : SowerWrites m b c) : SowerWrites m a c :=
  ⟨g.rest.trans h.rest, g.block.trans h.block, fun k hk => (g.others k hk).trans (h.others k hk)⟩

/-- A change that touches no block. -/
theorem SowerWrites.of_mcbs {s t : State} (hr : besideSower t = besideSower s) (hm : t.mcbs = s.mcbs) : SowerWrites m s t := by
  have h : ∀ k, mcbAt t k = mcbAt s k := fun k => by simp only [mcbAt, hm]
  exact ⟨hr, by rw [h], fun k _ => h k⟩

variable {s t : State} (h : SowerWrites m s t)
include h
theorem SowerWrites.cores : t.cores = s.cores := by have := congrArg State.cores h.rest; exact this
theorem SowerWrites.sower : t.sower = s.sower := by have := congrArg State.sower h.rest; exact this
theorem SowerWrites.streams : t.streams = s.streams := by have := congrArg State.streams h.rest; exact this
theorem SowerWrites.nextSerial : t.nextSerial = s.nextSerial := by have := congrArg State.nextSerial h.rest; exact this
theorem SowerWrites.entries : (mcbAt t m).entries = (mcbAt s m).entries := by have := congrArg Mcb.entries h.block; exact this
theorem SowerWrites.qtail : (mcbAt t m).qtail = (mcbAt s m).qtail := by have := congrArg Mcb.qtail h.block; exact this
theorem SowerWrites.queue : (mcbAt t m).queue = (mcbAt s m).queue := by have := congrArg Mcb.queue h.block; exact this
theorem SowerWrites.state : (mcbAt t m).state = (mcbAt s m).state := by have := congrArg Mcb.state h.block; exact this
end

/-- A computation of the Sower for block `m`. -/
abbrev SowerOnly {α : Type} (m : Nat) (c : M α) : Prop := Keeps (SowerWrites m) c

theorem sowerWrites_count (m : Nat) (s : State) (p c n x : Nat) : SowerWrites m s { s.count p c n with hostWalks := x } := by
  unfold State.count
  split
  · exact .of_mcbs rfl rfl
  · exact .of_mcbs rfl rfl

theorem sowerWrites_raiseHorizon (m : Nat) (s : State) (e : Nat) : SowerWrites m s (raiseHorizon s m e) := by
  refine ⟨rfl, ?_, fun k hk => ?_⟩
  · rw [raiseHorizon, mcbAt_updMcb, if_pos rfl]
  · rw [raiseHorizon, mcbAt_updMcb, if_neg hk.symm]

theorem sowerWrites_putBytes (m : Nat) (s : State) (want : Option Tweak) (k : Nat) (bs : List Byte) :
    SowerWrites m s (putBytes s want k bs) := by
  have h := onlyBytes_putBytes s want k bs
  refine .of_mcbs ?_ h.mcbs
  have := congrArg besideSower h
  exact this

theorem sowerWrites_stampLines (m : Nat) (s : State) (w : Who) (region k n : Nat) : SowerWrites m s (stampLines s w region k n) := by
  unfold stampLines
  split
  · exact .refl s
  · exact .of_mcbs rfl rfl

theorem sowerWrites_markBytes (m : Nat) (s : State) (w : Who) (rel : EdgeSet) (k n : Nat) : SowerWrites m s (markBytes s w rel k n) :=
  .of_mcbs rfl rfl

theorem sowerWrites_countAccess (m : Nat) (s : State) (w : Who) (obj off n : Nat) (r : Res) :
    SowerWrites m s (countAccess s w obj off n r) := by
  unfold countAccess
  split
  · exact .of_mcbs rfl rfl
  · exact .refl s

section
variable {w : Who} (hw : IsSower w)
include hw

theorem SowerOnly.walk (obj sp off : Nat) (a : Access) : SowerOnly w.mcb (walk w obj sp off a) := by
  have tr := SowerWrites.trans (m := w.mcb)
  have rf := SowerWrites.refl (m := w.mcb)
  unfold Machine.walk
  refine Keeps.bind tr (Keeps.get rf) fun s => ?_
  refine Keeps.bind tr (Keeps.modify fun s => sowerWrites_count _ s _ _ _ _) fun _ => ?_
  refine Keeps.bind tr (Keeps.modify fun s => sowerWrites_raiseHorizon _ s _) fun _ => ?_
  have drop : ∀ (d : BitVec 256) (x : W64) (r : Res),
      SowerOnly w.mcb (do modify (fun s => cacheDrop s w obj (off / 65536) d x); return r) := fun d x r =>
    Keeps.bind tr (Keeps.modify fun s => by rw [cacheDrop_sower hw]; exact rf s) fun _ => Keeps.pure rf _
  refine keeps_ite (Keeps.raise_bind rf _ _ _ _) ?_
  dsimp only
  split
  · exact Keeps.raise_bind rf _ _ _ _
  · refine keeps_ite (Keeps.raise_bind rf _ _ _ _) ?_
    split
    · exact Keeps.raise rf _ _ _
    · exact Keeps.waitOn rf _ _ _ _ _
    · exact drop _ _ _
    · refine keeps_ite (drop _ _ _) (Keeps.bind tr (Keeps.modify fun s => sowerWrites_raiseHorizon _ s _) fun _ => ?_)
      exact Keeps.bind tr (Keeps.modify fun s => by rw [cacheInstall_sower hw]; exact rf s) fun _ => Keeps.pure rf _

theorem SowerOnly.resolve (obj sp off : Nat) (a : Access) : SowerOnly w.mcb (resolve w obj sp off a) := by
  have tr := SowerWrites.trans (m := w.mcb)
  have rf := SowerWrites.refl (m := w.mcb)
  have translated : ∀ e, SowerOnly w.mcb (Machine.translate w obj sp off a e) := fun e => by
    unfold Machine.translate
    split
    · split
      · exact Keeps.raise rf _ _ _
      · exact Keeps.bind tr (Keeps.get rf) fun _ => Keeps.pure rf _
    · exact SowerOnly.walk hw _ _ _ _
  unfold Machine.resolve
  refine Keeps.bind tr (Keeps.get rf) fun s => ?_
  split
  · exact Keeps.pure rf _
  · have rest : ∀ cached, SowerOnly w.mcb (do
        let r ← Machine.translate w obj sp off a cached
        let s ← MonadState.get
        if !physExists r.sp r.addr 1 then MonadExcept.throw (Stop.hard .noSuchAddress)
        if !physReady s r.sp r.addr then waitOn .parked 0 0 0 r.extKey
        if controllerRefuses s r then waitOn .refused
        return r) := fun cached =>
      Keeps.bind tr (translated cached) fun r => Keeps.bind tr (Keeps.get rf) fun s =>
        keeps_ite (Keeps.throw_bind rf _ _) (keeps_ite (Keeps.waitOn_bind rf _ _ _ _ _ _)
          (keeps_ite (Keeps.waitOn_bind rf _ _ _ _ _ _) (Keeps.pure rf _)))
    refine keeps_ite (Keeps.bind tr (Keeps.pure rf _) rest) (Keeps.bind tr ?_ rest)
    exact Keeps.bind tr (Keeps.get rf) fun _ => Keeps.bind tr (Keeps.modify fun s => sowerWrites_count _ s _ _ _ _) fun _ => Keeps.pure rf _
end

theorem SowerOnly.sowerPut (m idx : Nat) (bs : List Byte) : SowerOnly m (sowerPut m idx bs) := by
  have tr := SowerWrites.trans (m := m)
  have rf := SowerWrites.refl (m := m)
  unfold Machine.sowerPut
  refine Keeps.bind tr (Keeps.get rf) fun s => Keeps.bind tr (SowerOnly.resolve (isSower_whoSower s m) _ _ _ _) fun r => ?_
  refine Keeps.bind tr (Keeps.modify fun s => ?_) fun _ => Keeps.bind tr ?_ fun _ => Keeps.pure rf _
  · refine tr _ _ _ ?_ (sowerWrites_countAccess m _ _ _ _ _ _)
    refine tr _ _ _ ?_ (sowerWrites_markBytes m _ _ _ _ _)
    exact tr _ _ _ (sowerWrites_putBytes m s _ _ _) (sowerWrites_stampLines m _ _ _ _ _)
  · unfold watchAccess
    refine Keeps.bind tr (Keeps.get rf) fun s => ?_
    split
    · exact Keeps.pure rf _
    · exact keeps_ite (Keeps.pure rf _) (Keeps.bind tr (Keeps.modify fun s => .of_mcbs rfl rfl) fun _ => Keeps.pure rf _)

/-- A write of the Sower that performs, waits or faults (R185, R362). -/
theorem sowerWrites_sowerWrite (s : State) (m idx : Nat) (bs : List Byte) : SowerWrites m s (sowerWrite s m idx bs) := by
  have later : ∀ t, SowerWrites m t { t with sowerLog := t.sowerLog ++ [(m, idx, bs)] } := fun t => .of_mcbs rfl rfl
  have put := SowerOnly.sowerPut m idx bs
  unfold sowerWrite
  dsimp only
  split
  · exact later s
  · split
    · next e => exact put.ok e
    · next e => exact SowerWrites.trans _ _ _ (put.error e) (later _)
    · next e => exact put.error e

/-- A block with one more entry (R45, R90). -/
def withEntry (e : QEntry) (b : Mcb) : Mcb :=
  { b with qtail := b.advance b.qtail, entries := b.entries ++ [e], state := if b.state = 0 then 1 else b.state }

/-- The entry that joins a queue in a state. -/
def newEntry (s : State) (desc : BitVec 512) (msg : Option Message) (edges : EdgeSet) (stream : Option Nat) (arrived : Nat) : QEntry :=
  { desc := desc, msg := msg, arrived := arrived, edges := edges.join (EdgeSet.one .sower s.sowerRegion), stream := stream,
    serial := s.nextSerial }

/-- An entry that joins the queue of block `m` goes to its end, beside the Sower's write of its bytes. -/
theorem enqueueAt_spec (s : State) (m : Nat) (desc : BitVec 512) (payload : List Byte) (msg : Option Message) (edges : EdgeSet)
    (stream : Option Nat) (arrived : Nat) :
    ∃ u, SowerWrites m s u ∧ (enqueueAt s m desc payload msg edges stream arrived) =
      { u.updMcb m (withEntry (newEntry s desc msg edges stream arrived)) with
        nextSerial := u.nextSerial + 1, sowerRegion := u.sowerRegion + 1 } := by
  have h := sowerWrites_sowerWrite { s with free := s.free + 1 } m (mcbAt s m).qtail.toNat
    (padEntry s.free (leBytes 64 desc.toNat ++ payload))
  have hfree : SowerWrites m s { s with free := s.free + 1 } := .of_mcbs rfl rfl
  refine ⟨_, SowerWrites.trans _ _ _ hfree h, ?_⟩
  have hserial := h.nextSerial
  unfold enqueueAt
  revert hserial
  generalize sowerWrite { s with free := s.free + 1 } m _ _ = u
  intro hserial
  simp only [hserial]
  rfl

section
variable (s : State) (m : Nat) (desc : BitVec 512) (payload : List Byte) (msg : Option Message) (edges : EdgeSet)
  (stream : Option Nat) (arrived : Nat)

theorem enqueueAt_rest : let t := enqueueAt s m desc payload msg edges stream arrived
    t.cores = s.cores ∧ t.sower = s.sower ∧ t.streams = s.streams ∧ ∀ k, k ≠ m → mcbAt t k = mcbAt s k := by
  obtain ⟨u, hu, ht⟩ := enqueueAt_spec s m desc payload msg edges stream arrived
  dsimp only
  rw [ht]
  exact ⟨hu.cores, hu.sower, hu.streams, fun k hk => ((mcbAt_updMcb u m _ k).trans (if_neg hk.symm)).trans (hu.others k hk)⟩

theorem enqueueAt_block : let t := enqueueAt s m desc payload msg edges stream arrived; let b := mcbAt s m
    (mcbAt t m).entries = b.entries ++ [newEntry s desc msg edges stream arrived] ∧ (mcbAt t m).qtail = b.advance b.qtail ∧
      (mcbAt t m).state = if b.state = 0 then 1 else b.state := by
  obtain ⟨u, hu, ht⟩ := enqueueAt_spec s m desc payload msg edges stream arrived
  dsimp only
  have hm : mcbAt (enqueueAt s m desc payload msg edges stream arrived) m =
      withEntry (newEntry s desc msg edges stream arrived) (mcbAt u m) := by
    rw [ht]; exact (mcbAt_updMcb u m _ m).trans (if_pos rfl)
  rw [hm]
  refine ⟨congrArg (· ++ _) hu.entries, ?_, ?_⟩
  · simp only [withEntry, Mcb.advance, Mcb.entriesN, hu.queue, hu.qtail]
  · simp only [withEntry, hu.state]
end

end Sys2Proof
end

/-! # The stages of the Sower (O43) -/
section
namespace Sys2Proof
open Machine

/-- What a resumed port leaves. -/
theorem resumePort_keeps (s : State) (port : Nat) : let t := resumePort s port
    (portAt t port).queue = (portAt s port).queue ∧ t.mem = s.mem ∧ t.parts = s.parts ∧ t.slots = s.slots ∧ t.sower = s.sower ∧ t.pt = s.pt := by
  dsimp only
  unfold resumePort
  dsimp only
  split
  · refine ⟨?_, rfl, rfl, rfl, rfl, rfl⟩
    show (portAt (s.updPort port (fun p => { p with paused := 0 })) port).queue = _
    rw [portAt_updPort, if_pos rfl]
  · exact ⟨rfl, rfl, rfl, rfl, rfl, rfl⟩

theorem slotKey_congr {s t : State} (h : t.slots = s.slots) (slot : Nat) (part : BitVec 4) : slotKey t slot part = slotKey s slot part := by
  simp only [slotKey, h]

/-- A message of the head of the queue whose turn it is, which has the length that its header gives (R82, R87). -/
structure Accepts (s : State) (p : Nat) (m : Message) (rest : List Message) : Prop where
  free : s.sower = none
  time : s.nextAccept ≤ 10 * s.pt
  ready : s.rdy.getLsbD 36 = true
  turn : nextPort s = some p
  head : (portAt s p).queue = m :: rest
  length : m.payload.length = 48 + reqPlen m.header + 16

/-- The state in which the Sower has taken the head of a port's queue, and has yet to check it. -/
def taken (s : State) (p : Nat) (rest : List Message) : State :=
  let t := resumePort (s.updPort p (fun x => { x with queue := rest })) p
  { t with rotation := p, nextAccept := Max.max t.nextAccept (10 * t.pt) + acceptPeriod }

theorem taken_queue (s : State) (p : Nat) (rest : List Message) : (portAt (taken s p rest) p).queue = rest := by
  have h := (resumePort_keeps (s.updPort p (fun x => { x with queue := rest })) p).1
  rw [portAt_updPort, if_pos rfl] at h
  exact h

theorem taken_keeps (s : State) (p : Nat) (rest : List Message) : let t := taken s p rest
    t.mem = s.mem ∧ t.parts = s.parts ∧ t.slots = s.slots ∧ t.sower = s.sower ∧ t.pt = s.pt := by
  obtain ⟨-, hkeeps⟩ := resumePort_keeps (s.updPort p (fun x => { x with queue := rest })) p
  unfold taken
  dsimp only
  exact hkeeps

theorem taken_nextAccept (s : State) (p : Nat) (rest : List Message) : 10 * s.pt + 384 ≤ (taken s p rest).nextAccept := by
  have hpt : (taken s p rest).pt = s.pt := (taken_keeps s p rest).2.2.2.2
  rw [← hpt]
  exact Nat.add_le_add_right (Nat.le_max_right _ _) 384

theorem sowerAccept_eq {s : State} {p : Nat} {m : Message} {rest : List Message} (h : Accepts s p m rest) :
    exec .sowerAcceptMessage s = .next (
      if m.headerOk = true ∧ slotKey s (reqKeyslot m.header) m.part ≠ none then { taken s p rest with sower := some (m, none) }
      else dropAtSower (taken s p rest) m.part.toNat) := by
  have hslot : slotKey (taken s p rest) (reqKeyslot m.header) m.part = slotKey s (reqKeyslot m.header) m.part :=
    slotKey_congr (taken_keeps s p rest).2.2.1 _ _
  show execSowerAcceptMessage s = _
  unfold execSowerAcceptMessage
  rw [if_neg (by simp [h.free, h.time, h.ready])]
  simp only [h.turn, h.head]
  rw [if_neg (by simp [h.length])]
  show Host.Outcome.next (if (m.headerOk && (slotKey (taken s p rest) (reqKeyslot m.header) m.part).isSome) = true then
    { taken s p rest with sower := some (m, none) } else dropAtSower (taken s p rest) m.part.toNat) = _
  rw [hslot]
  simp [Option.isSome_iff_ne_none]

theorem dropAtSower_drops (s : State) (part : Nat) : (partAt (dropAtSower s part) part).drops = (partAt s part).drops + 1 := by
  rw [dropAtSower, partAt_updPart, if_pos rfl]

/-- SOWER_ACCEPT_MESSAGE takes the head, and holds it or counts it (R82, R84, R87). -/
theorem sowerAccept_takes {s : State} {p : Nat} {m : Message} {rest : List Message} (h : Accepts s p m rest) :
    ∃ t, exec .sowerAcceptMessage s = .next t ∧ (portAt t p).queue = rest ∧ 10 * s.pt + 384 ≤ t.nextAccept ∧ t.mem = s.mem ∧
      if m.headerOk = true ∧ slotKey s (reqKeyslot m.header) m.part ≠ none
      then t.sower = some (m, none) ∧ t.parts = s.parts
      else t.sower = none ∧ (partAt t m.part.toNat).drops = (partAt s m.part.toNat).drops + 1 := by
  obtain ⟨hmem, hparts, -, hsower, -⟩ := taken_keeps s p rest
  have hqueue := taken_queue s p rest
  have hnext := taken_nextAccept s p rest
  have hparts' : ∀ n, partAt (taken s p rest) n = partAt s n := fun n => by simp only [partAt, hparts]
  rw [sowerAccept_eq h]
  refine ⟨_, rfl, ?_⟩
  generalize taken s p rest = u at *
  by_cases hc : m.headerOk = true ∧ slotKey s (reqKeyslot m.header) m.part ≠ none
  · rw [if_pos hc, if_pos hc]
    exact ⟨hqueue, hnext, hmem, rfl, hparts⟩
  · rw [if_neg hc, if_neg hc]
    exact ⟨hqueue, hnext, hmem, hsower.trans h.free, (dropAtSower_drops _ _).trans (by rw [hparts'])⟩

/-- What GCM_HEADER_CHECK opens, with the key of the message's slot (R82, R84). -/
def opened (m : Message) (key : BitVec 256) : Option (List Byte) :=
  let n := reqPlen m.header
  Config.gcmOpen key (reqNonce m.header) (m.payload.take 48) ((m.payload.drop 48).take n)
    (BitVec.ofNat 128 (leNat ((m.payload.drop (48 + n)).take 16)))

section
variable {s : State} {m : Message} {key : BitVec 256} (hs : s.sower = some (m, none))
  (hk : slotKey s (reqKeyslot m.header) m.part = some key)
include hs hk

theorem gcmHeaderCheck_opens {plain : List Byte} (hp : opened m key = some plain) :
    exec .gcmHeaderCheck s = .next { s with sower := some (m, some (plain, s.pt)) } := by
  show execGcmHeaderCheck s = _
  unfold opened at hp
  simp only [execGcmHeaderCheck, hs, hk, Option.bind_some, hp]

theorem gcmHeaderCheck_drops (hp : opened m key = none) :
    exec .gcmHeaderCheck s = .next (dropAtSower { s with sower := none } m.part.toNat) := by
  show execGcmHeaderCheck s = _
  unfold opened at hp
  simp only [execGcmHeaderCheck, hs, hk, Option.bind_some, hp]
end

section
variable {s : State} {m : Message} {plain : List Byte} {arrived : Nat} (hs : s.sower = some (m, some (plain, arrived)))
include hs

theorem mcbLookup_long (hl : 4032 < reqPlen m.header) : exec .mcbLookup s = .next (sendReply { s with sower := none } m 4 []) := by
  show execMcbLookup s = _
  simp only [execMcbLookup, hs]
  rw [if_pos hl]

/-- Without a block of the FUNCID the message is answered, or goes to the lookup-miss ring under MODE bit 0 (R89). -/
theorem mcbLookup_misses (hl : reqPlen m.header ≤ 4032) (hm : lookup s m.part (reqFuncid m.header) = none) :
    exec .mcbLookup s = .next (if s.mode.getLsbD 0 = true then missRing { s with sower := none } m.part.toNat (missEntry m plain)
      else sendReply { s with sower := none } m 3 []) := by
  have hm' : lookup { s with sower := none } m.part (reqFuncid m.header) = none := hm
  show execMcbLookup s = _
  simp only [execMcbLookup, hs]
  rw [if_neg (Nat.not_lt.2 hl), hm']

/-- The outcomes of a message whose block is found, in the order of R85. -/
theorem mcbLookup_finds {b : Nat} (hl : reqPlen m.header ≤ 4032) (hb : lookup s m.part (reqFuncid m.header) = some b) :
    let s0 := { s with sower := none }; let x := mcbAt s b
    exec .mcbLookup s = .next (
      if x.keyslot.toNat ≠ reqKeyslot m.header then sendReply s0 m 8 []
      else if x.state = 6 then sendReply s0 m 2 []
      else if x.queueFull = true ∨ (partAt s m.part.toNat).frozen = true then sendReply s0 m 1 []
      else enqueueAt s0 b m.desc plain (some m) EdgeSet.none none arrived) := by
  have hb' : lookup { s with sower := none } m.part (reqFuncid m.header) = some b := hb
  show execMcbLookup s = _
  simp only [execMcbLookup, hs]
  rw [if_neg (Nat.not_lt.2 hl), hb']
  simp only [Bool.or_eq_true]
  rfl
end

/-- Settles O43: the three stages, each by what it does with the message that it holds. -/
theorem sowerStages : Obligations.SowerStages := by
  unfold Obligations.SowerStages
  refine ⟨fun s p m rest hfree htime hready hturn hhead hlength => sowerAccept_takes ⟨hfree, htime, hready, hturn, hhead, hlength⟩,
    fun s m key hs hk => ?check, fun s m plain arrived hs => ?find⟩
  case check =>
    exact ⟨fun p hp => gcmHeaderCheck_opens hs hk hp, fun hp => ⟨_, gcmHeaderCheck_drops hs hk hp, rfl, dropAtSower_drops _ _, rfl, rfl⟩⟩
  case find =>
    intro s0 h answers found
    refine ⟨mcbLookup_long hs, fun hl hno => ?_, fun b hl hb => ?_⟩
    · have hnone : lookup s m.part (reqFuncid h) = none := by
        rw [lookup, List.find?_eq_none.2 fun e he => ?_]
        · rfl
        · simpa [and_assoc] using hno e he
      have hmiss := mcbLookup_misses hs hl hnone
      exact ⟨fun hmode => by rwa [if_neg (ne_true_of_eq_false hmode)] at hmiss, fun hmode => by rwa [if_pos hmode] at hmiss⟩
    · have hfound : lookup s m.part (reqFuncid h) = some b := by rw [lookup, hb]; rfl
      have hgo := mcbLookup_finds hs hl hfound
      dsimp only at hgo
      intro x
      refine ⟨fun hk => hgo.trans ?_, fun hk h6 => hgo.trans ?_, fun hk h6 hfull => hgo.trans ?_, fun hk h6 hroom hthaw => ?_⟩
      · rw [if_pos hk]
      · rw [if_neg (not_not.2 hk), if_pos h6]
      · rw [if_neg (not_not.2 hk), if_neg h6, if_pos hfull]
      · rw [if_neg (not_not.2 hk), if_neg h6, if_neg (by simp [x, hroom, hthaw])] at hgo
        obtain ⟨hcores, hsower, -, hother⟩ := enqueueAt_rest s0 b m.desc plain (some m) EdgeSet.none none arrived
        obtain ⟨hentries, hqtail, hstate⟩ := enqueueAt_block s0 b m.desc plain (some m) EdgeSet.none none arrived
        exact ⟨_, _, hgo, hsower, hentries, rfl, rfl, rfl, hqtail, hstate, hcores, hother⟩

end Sys2Proof
end

/-! # Writes from outside (O45) -/
section
namespace Sys2Proof
open Machine

theorem mem_linesOf (k n l : Nat) : l ∈ linesOf k n ↔ n ≠ 0 ∧ k / 64 ≤ l ∧ l ≤ (k + n - 1) / 64 := by
  unfold linesOf
  split
  · simp [*]
  · rw [List.mem_range'_1]; omega

theorem mem_granulesOf (k n g : Nat) : g ∈ granulesOf k n ↔ n ≠ 0 ∧ k / 16 ≤ g ∧ g ≤ (k + n - 1) / 16 := by
  unfold granulesOf
  split
  · simp [*]
  · rw [List.mem_range'_1]; omega

/-- A place whose lines check and are not encrypted. -/
def PlainLines (s : State) (k n : Nat) : Prop := ∀ l ∈ linesOf k n, mapFind s.bad l = none ∧ unitTag s l = none

theorem PlainLines.badPartial {s : State} {k n : Nat} (h : PlainLines s k n) : badPartial s k n = false := by
  simp only [Machine.badPartial, List.any_eq_false, Bool.and_eq_true, not_and]
  intro l hl hb
  rw [(h l hl).1] at hb
  exact absurd hb (by simp)

theorem PlainLines.of_subset {s : State} {k n j m : Nat} (h : PlainLines s k n) (hs : ∀ l ∈ linesOf j m, l ∈ linesOf k n) :
    PlainLines s j m := fun l hl => h l (hs l hl)

/-- A place that is not encrypted is read as it stands (R51). -/
theorem viewBytes_plain {s : State} {k n : Nat} (h : ∀ l ∈ linesOf k n, unitTag s l = none) : viewBytes s none k n = memBytes s.mem k n := by
  refine List.map_congr_left fun i hi => ?_
  have hi := List.mem_range.1 hi
  have hl := h ((k + i) / 64) ((mem_linesOf _ _ _).2 (by omega))
  simp [viewByte, hl]

/-- The state without what a plain write from outside may change. -/
def besideWrite (s : State) : State :=
  { s with mem := [], tags := [], bad := [], pmem := [], stamps := [], marks := [], writes := 0, parts := [] }

section
variable {s t : State} (h : besideWrite t = besideWrite s)
include h
theorem cores_of_besideWrite : t.cores = s.cores := by have := congrArg State.cores h; exact this
theorem mcbs_of_besideWrite : t.mcbs = s.mcbs := by have := congrArg State.mcbs h; exact this
theorem ports_of_besideWrite : t.ports = s.ports := by have := congrArg State.ports h; exact this
theorem tx_of_besideWrite : t.tx = s.tx := by have := congrArg State.tx h; exact this
theorem pt_of_besideWrite : t.pt = s.pt := by have := congrArg State.pt h; exact this
theorem performed_of_besideWrite : t.performed = s.performed := by have := congrArg State.performed h; exact this
theorem dirtyAt_of_besideWrite : t.dirtyAt = s.dirtyAt := by have := congrArg State.dirtyAt h; exact this
theorem unitTag_of_besideWrite (l : Nat) : unitTag t l = unitTag s l := by
  have he : t.enc = s.enc := by have := congrArg State.enc h; exact this
  have hp : t.encPage = s.encPage := by have := congrArg State.encPage h; exact this
  simp only [unitTag, he, hp]
end

/-- Bytes that perform from outside: they are written, their lines are stamped, and the writer is known (R246, R369). -/
def putFromOutside (w : Who) (k : Nat) (bs : List Byte) (s : State) : State :=
  markBytes (stampLines (putBytes s none k bs) w 0 k bs.length) w EdgeSet.none k bs.length

theorem stampLines_beside (s : State) (w : Who) (region k n : Nat) : let t := stampLines s w region k n
    t.mem = s.mem ∧ t.tags = s.tags ∧ besideWrite t = besideWrite s := by
  dsimp only
  unfold stampLines
  split
  · exact ⟨rfl, rfl, rfl⟩
  · exact ⟨rfl, rfl, rfl⟩

section
variable {s : State} {k : Nat} {bs : List Byte} (w : Who) (hd : s.dirtyAt = none) (hu : ∀ l ∈ linesOf k bs.length, unitTag s l = none)
include hd hu

theorem putFromOutside_mem (j : Nat) : memByte (putFromOutside w k bs s).mem j =
    if k ≤ j ∧ j < k + bs.length then bs.getD (j - k) 0 else memByte s.mem j := by
  have h := (stampLines_beside (putBytes s none k bs) w 0 k bs.length).1
  rw [show (putFromOutside w k bs s).mem = (putBytes s none k bs).mem from h]
  exact memByte_putBytes (want := none) hd (fun l hl => .inr (hu l hl)) j

theorem putFromOutside_tags (g : Nat) : mapGet false (putFromOutside w k bs s).tags g =
    if g ∈ granulesOf k bs.length then false else mapGet false s.tags g := by
  have h := (stampLines_beside (putBytes s none k bs) w 0 k bs.length).2.1
  rw [show (putFromOutside w k bs s).tags = (putBytes s none k bs).tags from h]
  by_cases hn : bs = []
  · simp [hn, putBytes, granulesOf]
  · rw [putBytes_eq (want := none) hn hd (fun l hl => .inr (hu l hl))]
    exact mapGet_foldl_erase _ _ _ _

theorem putFromOutside_beside : besideWrite (putFromOutside w k bs s) = besideWrite s := by
  have h := (stampLines_beside (putBytes s none k bs) w 0 k bs.length).2.2
  have hput : besideWrite (putBytes s none k bs) = besideWrite s := by
    by_cases hn : bs = []
    · simp [hn, putBytes]
    · rw [putBytes_eq (want := none) hn hd (fun l hl => .inr (hu l hl))]; rfl
  exact h.trans hput
end

/-- What a write of `data` at `k` leaves where it has performed in the lines `ls` alone. -/
structure WrittenIn (s t : State) (k : Nat) (data : List Byte) (ls : List Nat) : Prop where
  mem : ∀ j, memByte t.mem j = if j / 64 ∈ ls ∧ k ≤ j ∧ j < k + data.length then data.getD (j - k) 0 else memByte s.mem j
  tags : ∀ g, mapGet false t.tags g = if g / 4 ∈ ls ∧ g ∈ granulesOf k data.length then false else mapGet false s.tags g
  rest : besideWrite t = besideWrite s

/-- The bytes of a write that lie in one line, with their key. -/
def lineRun (k : Nat) (data : List Byte) (l : Nat) : Nat × List Byte :=
  (Max.max (l * 64) k, (data.drop (Max.max (l * 64) k - k)).take (l * 64 + 64 - Max.max (l * 64) k))

theorem lineRuns_eq (k : Nat) (data : List Byte) : lineRuns k data = (linesOf k data.length).map (lineRun k data) := rfl

theorem lineRun_getD {k l : Nat} {data : List Byte} {j : Nat} (hj : j / 64 = l ∧ k ≤ j ∧ j < k + data.length) :
    (lineRun k data l).2.getD (j - (lineRun k data l).1) 0 = data.getD (j - k) 0 := by
  simp only [lineRun, List.getD_eq_getElem?_getD]
  rw [List.getElem?_take_of_lt (by omega), List.getElem?_drop]
  congr 2
  omega

section
variable {k l : Nat} {data : List Byte} (hl : l ∈ linesOf k data.length)
include hl

theorem mem_linesOf_lineRun (m : Nat) (hm : m ∈ linesOf (lineRun k data l).1 (lineRun k data l).2.length) : m = l := by
  rw [mem_linesOf] at hl hm
  simp only [lineRun, List.length_take, List.length_drop] at hm
  omega

/-- A byte lies in the run of a line just if it lies in that line and in the write. -/
theorem in_lineRun_iff (j : Nat) : (lineRun k data l).1 ≤ j ∧ j < (lineRun k data l).1 + (lineRun k data l).2.length ↔
    j / 64 = l ∧ k ≤ j ∧ j < k + data.length := by
  rw [mem_linesOf] at hl
  simp only [lineRun, List.length_take, List.length_drop]
  omega

theorem mem_granulesOf_lineRun_iff (g : Nat) :
    g ∈ granulesOf (lineRun k data l).1 (lineRun k data l).2.length ↔ g / 4 = l ∧ g ∈ granulesOf k data.length := by
  rw [mem_linesOf] at hl
  simp only [mem_granulesOf, lineRun, List.length_take, List.length_drop]
  omega
end

/-- A write of `data` performs line by line (R374). -/
theorem putLines_writtenIn (w : Who) (k : Nat) (data : List Byte) (ls : List Nat) (s : State) (hd : s.dirtyAt = none)
    (hls : ∀ l ∈ ls, l ∈ linesOf k data.length ∧ unitTag s l = none) :
    WrittenIn s ((ls.map (lineRun k data)).foldl (fun s p => putFromOutside w p.1 p.2 s) s) k data ls := by
  induction ls generalizing s with
  | nil => exact ⟨fun j => by simp, fun g => by simp, rfl⟩
  | cons l ls ih =>
    have hl := (hls l (by simp)).1
    have hu : ∀ m ∈ linesOf (lineRun k data l).1 (lineRun k data l).2.length, unitTag s m = none := fun m hm =>
      mem_linesOf_lineRun hl m hm ▸ (hls l (by simp)).2
    have hrest := putFromOutside_beside w hd hu
    have hmore := ih (putFromOutside w (lineRun k data l).1 (lineRun k data l).2 s) ((dirtyAt_of_besideWrite hrest).trans hd) fun m hm =>
      ⟨(hls m (by simp [hm])).1, (unitTag_of_besideWrite hrest m).trans (hls m (by simp [hm])).2⟩
    rw [List.map_cons, List.foldl_cons]
    refine ⟨fun j => ?_, fun g => ?_, hmore.rest.trans hrest⟩
    · rw [hmore.mem j, putFromOutside_mem w hd hu]
      simp only [in_lineRun_iff hl, List.mem_cons, or_and_right]
      by_cases hj : j / 64 = l ∧ k ≤ j ∧ j < k + data.length
      · rw [lineRun_getD hj]
        simp [hj]
      · simp [hj]
    · rw [hmore.tags g, putFromOutside_tags w hd hu]
      simp only [mem_granulesOf_lineRun_iff hl, List.mem_cons, or_and_right]
      by_cases hg : g / 4 = l ∧ g ∈ granulesOf k data.length
      · simp [hg]
      · simp [hg]

theorem watchExternal_beside (s : State) (w : Who) (kind : WatchKind) (sp addr : Nat) (runs : List (Nat × Nat)) :
    let t := watchExternal s w kind sp addr runs
    t.mem = s.mem ∧ t.tags = s.tags ∧ besideWrite t = besideWrite s := by
  dsimp only
  unfold watchExternal
  split
  · exact ⟨rfl, rfl, rfl⟩
  · split
    · exact ⟨rfl, rfl, rfl⟩
    · exact ⟨rfl, rfl, rfl⟩

theorem WrittenIn.of_beside {s t u : State} {k : Nat} {data : List Byte} {ls : List Nat} (h : WrittenIn s t k data ls)
    (hu : u.mem = t.mem ∧ u.tags = t.tags ∧ besideWrite u = besideWrite t) : WrittenIn s u k data ls :=
  ⟨fun j => by rw [hu.1, h.mem], fun g => by rw [hu.2.1, h.tags], hu.2.2.trans h.rest⟩

/-- A write from outside to a plain place. -/
theorem externalWrite_writtenIn {s : State} {sp addr : Nat} {data : List Byte} (port : Nat) (hd : s.dirtyAt = none)
    (hp : PlainLines s (physKey sp 0 addr) data.length) :
    WrittenIn s (externalWrite s port sp addr data) (physKey sp 0 addr) data (linesOf (physKey sp 0 addr) data.length) := by
  have hall : (lineRuns (physKey sp 0 addr) data).filter (fun p => !badPartial s p.1 p.2.length) = lineRuns (physKey sp 0 addr) data := by
    rw [List.filter_eq_self]
    intro p hmem
    obtain ⟨l, hl, rfl⟩ := List.mem_map.1 (lineRuns_eq _ _ ▸ hmem)
    rw [(hp.of_subset fun m hm => mem_linesOf_lineRun hl m hm ▸ hl).badPartial]
    rfl
  unfold externalWrite
  dsimp only
  rw [hall, lineRuns_eq]
  exact (putLines_writtenIn (whoExternal port) _ data _ s hd fun l hl => ⟨hl, (hp l hl).2⟩).of_beside (watchExternal_beside _ _ _ _ _ _)

/-- The bytes stand at a place, every other byte as it was, and the granules that they touch are without tags. -/
def PlacedAt (s t : State) (k : Nat) (data : List Byte) : Prop :=
  (∀ i, i < data.length → memByte t.mem (k + i) = data.getD i 0) ∧
  (∀ j, j < k ∨ k + data.length ≤ j → memByte t.mem j = memByte s.mem j) ∧
  (∀ g ∈ granulesOf k data.length, mapGet false t.tags g = false) ∧ t.cores = s.cores ∧ t.mcbs = s.mcbs

theorem WrittenIn.placedAt {s t : State} {k : Nat} {data : List Byte} (h : WrittenIn s t k data (linesOf k data.length)) :
    PlacedAt s t k data := by
  refine ⟨fun i hi => ?_, fun j hj => ?_, fun g hg => ?_, cores_of_besideWrite h.rest, mcbs_of_besideWrite h.rest⟩
  · rw [h.mem, if_pos ⟨(mem_linesOf _ _ _).2 (by omega), by omega, by omega⟩, Nat.add_sub_cancel_left]
  · rw [h.mem, if_neg (by omega)]
  · have hline : g / 4 ∈ linesOf k data.length := by
      rw [mem_granulesOf] at hg
      rw [mem_linesOf]
      omega
    rw [h.tags, if_pos ⟨hline, hg⟩]

theorem length_leBytes (n v : Nat) : (leBytes n v).length = n := by
  induction n generalizing v with
  | zero => rfl
  | succ n ih => rw [leBytes, List.length_cons, ih]

/-- One write from outside within plain lines. -/
theorem putFromOutside_writtenIn {s : State} {k : Nat} {bs : List Byte} (w : Who) (hd : s.dirtyAt = none)
    (hu : ∀ l ∈ linesOf k bs.length, unitTag s l = none) : WrittenIn s (putFromOutside w k bs s) k bs (linesOf k bs.length) := by
  refine ⟨fun j => ?_, fun g => ?_, putFromOutside_beside w hd hu⟩
  · have hiff : (k ≤ j ∧ j < k + bs.length) ↔ (j / 64 ∈ linesOf k bs.length ∧ k ≤ j ∧ j < k + bs.length) := by
      rw [mem_linesOf]; omega
    rw [putFromOutside_mem w hd hu, if_congr hiff rfl rfl]
  · have hiff : g ∈ granulesOf k bs.length ↔ (g / 4 ∈ linesOf k bs.length ∧ g ∈ granulesOf k bs.length) := by
      rw [mem_linesOf, mem_granulesOf]; omega
    rw [putFromOutside_tags w hd hu, if_congr hiff rfl rfl]

theorem WrittenIn.after_beside {s t u : State} {k : Nat} {data : List Byte} {ls : List Nat} (h : WrittenIn t u k data ls)
    (hu : t.mem = s.mem ∧ t.tags = s.tags ∧ besideWrite t = besideWrite s) : WrittenIn s u k data ls :=
  ⟨fun j => by rw [h.mem, hu.1], fun g => by rw [h.tags, hu.2.1], h.rest.trans hu.2.2⟩

/-- An atomic access from outside at a plain place writes what its operation gives, if it gives anything (R232, R376). -/
theorem externalAtomic_spec {s : State} {sp addr n : Nat} {f : Nat → Option Nat} (hd : s.dirtyAt = none)
    (hp : PlainLines s (physKey sp 0 addr) n) :
    let k := physKey sp 0 addr; let t := externalAtomic s sp addr n f
    (∀ v, f (memNat s.mem k n) = some v → PlacedAt s t k (leBytes n v)) ∧ (f (memNat s.mem k n) = none → t.mem = s.mem) := by
  dsimp only
  unfold externalAtomic
  dsimp only
  rw [hp.badPartial, if_neg Bool.false_ne_true]
  have hwatch := watchExternal_beside s (whoExternal 2) .sync sp addr [(addr, n)]
  revert hwatch
  generalize watchExternal s (whoExternal 2) .sync sp addr [(addr, n)] = u
  rintro ⟨hmem, htags, hrest⟩
  have htag : ∀ l ∈ linesOf (physKey sp 0 addr) n, unitTag u l = none := fun l hl => (unitTag_of_besideWrite hrest l).trans (hp l hl).2
  rw [viewBytes_plain htag, hmem, ← memNat]
  refine ⟨fun v hv => ?_, fun hnone => ?_⟩
  · have hput : markBytes (stampLines (putBytes u none (physKey sp 0 addr) (leBytes n v)) (whoExternal 2) 0 (physKey sp 0 addr) n)
        (whoExternal 2) EdgeSet.none (physKey sp 0 addr) n = putFromOutside (whoExternal 2) (physKey sp 0 addr) (leBytes n v) u := by
      unfold putFromOutside; rw [length_leBytes]
    simp only [hv, hput]
    have hwritten := putFromOutside_writtenIn (bs := leBytes n v) (whoExternal 2) ((dirtyAt_of_besideWrite hrest).trans hd)
      (by rwa [length_leBytes])
    exact (hwritten.after_beside ⟨hmem, htags, hrest⟩).placedAt
  · simp only [hnone, hmem]

end Sys2Proof
end

/-! # Answers to a peer (O45) -/
section
namespace Sys2Proof
open Machine

/-- A frame goes to a peer under the priority of its request, or waits at its port while that is paused or an earlier frame of it waits (R78). -/
def AnsweredTo (s t : State) (peer : RoceSource) (f : TxFrame) : Prop :=
  let p := portAt s peer.port; let prio := peer.pcp.toNat
  if s.pt < mapGet 0 p.pausedUntil prio ∨ (∃ e ∈ p.held, e.1 = prio) then t.tx = s.tx ∧ (portAt t peer.port).held = p.held ++ [(prio, f)]
  else t.tx = s.tx ++ [f] ∧ (portAt t peer.port).held = p.held

/-- The priority of the datagram that answers a peer is that of its request (R79). -/
theorem roceAnswer_priority (peer : RoceSource) (op len : Nat) (data : List Byte) :
    fieldNat (roceAnswer peer op len data).tci 13 3 = peer.pcp.toNat := by
  have hpcp := peer.pcp.isLt
  have hvlan := peer.vlan.isLt
  simp only [roceAnswer, fieldNat, BitVec.extractLsb'_toNat, BitVec.toNat_ofNat, Nat.shiftRight_eq_div_pow]
  omega

theorem transmit_beside (s : State) (port prio : Nat) (f : TxFrame) : let t := transmit s port prio f
    t.mem = s.mem ∧ t.tags = s.tags ∧ t.cores = s.cores ∧ t.mcbs = s.mcbs ∧ t.performed = s.performed := by
  dsimp only
  unfold transmit
  dsimp only
  split
  · exact ⟨rfl, rfl, rfl, rfl, rfl⟩
  · exact ⟨rfl, rfl, rfl, rfl, rfl⟩

theorem transmit_goes (s : State) (port prio : Nat) (f : TxFrame) : let p := portAt s port; let t := transmit s port prio f
    if s.pt < mapGet 0 p.pausedUntil prio ∨ (∃ e ∈ p.held, e.1 = prio) then t.tx = s.tx ∧ (portAt t port).held = p.held ++ [(prio, f)]
    else t.tx = s.tx ++ [f] ∧ (portAt t port).held = p.held := by
  have hiff : ((decide (s.pt < mapGet 0 (portAt s port).pausedUntil prio)) || (portAt s port).held.any (fun e => e.1 == prio)) = true ↔
      (s.pt < mapGet 0 (portAt s port).pausedUntil prio ∨ ∃ e ∈ (portAt s port).held, e.1 = prio) := by simp
  dsimp only
  unfold transmit
  dsimp only
  simp only [hiff]
  split
  · refine ⟨rfl, ?_⟩
    rw [portAt_updPort, if_pos rfl]
  · exact ⟨rfl, rfl⟩

/-- An answer of RDMA, sent from a state whose port and times are those of `s`. -/
theorem transmitRdma_answeredTo {s u : State} (peer : RoceSource) (op len : Nat) (data : List Byte) (g : UdpFrame → TxFrame)
    (hports : u.ports = s.ports) (htx : u.tx = s.tx) (hpt : u.pt = s.pt) :
    AnsweredTo s (u.transmitRdma (roceAnswer peer op len data) g) peer (g (roceAnswer peer op len data)) := by
  have h := transmit_goes u peer.port peer.pcp.toNat (g (roceAnswer peer op len data))
  have hp : portAt u peer.port = portAt s peer.port := by simp only [portAt, hports]
  dsimp only at h
  rw [hp, htx, hpt] at h
  unfold AnsweredTo State.transmitRdma
  rw [roceAnswer_priority]
  exact h

theorem rnr_answeredTo {s : State} {peer : RoceSource} {p : QueuePair} (h : mapFind s.qps peer.qp.toNat = some p) :
    let t := rnr s peer
    t.mem = s.mem ∧ t.cores = s.cores ∧ AnsweredTo s t peer (.rnrNak peer.qp p.peer.rnrTimer (roceAnswer peer 3 0 [])) := by
  have hanswer := transmitRdma_answeredTo (s := s) peer 3 0 [] (fun u => .rnrNak peer.qp p.peer.rnrTimer u) rfl rfl rfl
  obtain ⟨hmem, -, hcores, -⟩ := transmit_beside s peer.port (fieldNat (roceAnswer peer 3 0 []).tci 13 3)
    (.rnrNak peer.qp p.peer.rnrTimer (roceAnswer peer 3 0 []))
  dsimp only
  have heq : rnr s peer = s.transmitRdma (roceAnswer peer 3 0 []) (fun u => .rnrNak peer.qp p.peer.rnrTimer u) := by
    simp only [rnr, h, Option.map_some, Option.getD_some]
  rw [heq]
  exact ⟨hmem, hcores, hanswer⟩

end Sys2Proof
end

/-! # Accesses from outside (O45) -/
section
namespace Sys2Proof
open Machine

/-- A place in GSRAM or HBM at which an access from outside performs (R438, R457). -/
def OpenPlace (s : State) (sp : BitVec 4) (addr n : Nat) : Prop :=
  sp.toNat < 2 ∧ physReady s sp.toNat addr = true ∧ physExists sp.toNat addr n = true ∧
    (∀ p, pageOwner s sp.toNat addr = some p → (partAt s p).frozen = false) ∧ heldBefore s sp.toNat addr = false ∧ s.dirtyAt = none

theorem external_performs {s : State} {sp : BitVec 4} {addr n : Nat} (h : OpenPlace s sp addr n) (i : Inbound) (go : Unit → State) :
    external s i sp.toNat addr n go = .next (go ()) := by
  obtain ⟨hsp, hready, hexists, hthaw, hbefore, -⟩ := h
  have hheld : placeHeld s sp.toNat addr = false := by
    unfold placeHeld
    cases ho : pageOwner s sp.toNat addr with
    | none => simp [hready]
    | some p => simp [hready, inboundHeld, hthaw p ho]
  unfold external
  rw [if_neg (by omega), if_neg (by simp [hheld, hbefore]), if_neg (by simp [hexists])]

theorem external_held {s : State} {sp : BitVec 4} {addr : Nat} (n : Nat) (hsp : sp.toNat < 2)
    (h : placeHeld s sp.toNat addr = true ∨ heldBefore s sp.toNat addr = true) (i : Inbound) (go : Unit → State) :
    external s i sp.toNat addr n go = .next { s with inbound := s.inbound ++ [i] } := by
  unfold external
  rw [if_neg (by omega), if_pos (by simpa using h)]
  rfl

theorem exec_roceInboundRdma (q : RdmaRequest) (s : State) : exec (.roceInboundRdma q) s = execRoceInboundRdma q s := rfl
theorem exec_roceSendReceive (peer : RoceSource) (data : List Byte) (s : State) :
    exec (.roceSendReceive peer data) s = execRoceSendReceive peer data s := rfl

theorem hostInboundWrite_eq (s : State) (sp : BitVec 4) (addr : Nat) (data : List Byte) : exec (.hostInboundWrite sp addr data) s =
    external s (.host sp addr data) sp.toNat addr data.length (fun _ => externalWrite s 1 sp.toNat addr data) := rfl

section
variable {s : State} {peer : RoceSource} (hp : mappedPair s peer = true) (hq : mapFind s.qps peer.qp.toNat ≠ none)
include hp hq

theorem inboundRdma_write (sp : BitVec 4) (addr : Nat) (data : List Byte) : exec (.roceInboundRdma (.write peer sp addr data)) s =
    external s (.rdma (.write peer sp addr data)) sp.toNat addr data.length (fun _ =>
      (externalWrite s 0 sp.toNat addr data).transmitRdma (roceAnswer peer 4 0 []) (fun u => .rdmaAck peer [] u)) := by
  simp [exec_roceInboundRdma, execRoceInboundRdma, hp, hq]

/-- An RDMA READ is answered with a NAK where a line fails its check, and else with the bytes (R247). -/
theorem inboundRdma_read (sp : BitVec 4) (addr n : Nat) : exec (.roceInboundRdma (.read peer sp addr n)) s =
    external s (.rdma (.read peer sp addr n)) sp.toNat addr n (fun _ =>
      if badPartial s (physKey sp.toNat 0 addr) n || (linesOf (physKey sp.toNat 0 addr) n).any (fun l => (mapFind s.bad l).isSome) then
        s.transmitRdma (roceAnswer peer 5 0 []) (fun u => .rdmaNak peer u)
      else
        let u := watchExternal s (whoExternal 0) .read sp.toNat addr [(addr, n)]
        let bs := viewBytes u none (physKey sp.toNat 0 addr) n
        u.transmitRdma (roceAnswer peer 4 n bs) (fun f => .rdmaAck peer bs f)) := by
  simp [exec_roceInboundRdma, execRoceInboundRdma, hp, hq]
end

theorem roce_unmapped {s : State} {peer : RoceSource} (h : mappedPair s peer = false) (sp : BitVec 4) (addr n : Nat) (data : List Byte) :
    exec (.roceInboundRdma (.write peer sp addr data)) s = .next (dropAtPort s peer.port) ∧
    exec (.roceInboundRdma (.read peer sp addr n)) s = .next (dropAtPort s peer.port) ∧
    exec (.roceSendReceive peer data) s = .next (dropAtPort s peer.port) := by
  simp [exec_roceInboundRdma, exec_roceSendReceive, execRoceInboundRdma, execRoceSendReceive, h]

/-- What an access from a peer reads and writes (R446). -/
def nepolReads (op : NepolOp) : Bool := match op with | .write _ => false | _ => true
def nepolWrites (op : NepolOp) : Bool := match op with | .read _ => false | _ => true

theorem exec_nepolInboundAccess (q : NepolAccess) (s : State) : exec (.nepolInboundAccess q) s =
    if portRefuses s q || !exported s q.device q.sp.toNat q.addr (nepolBytes q.op) (nepolReads q.op) (nepolWrites q.op) ||
      q.contributions.any (fun c => s.performed.contains c) then .next s
    else external s (.nepol q) q.sp.toNat q.addr (nepolBytes q.op) (fun _ =>
      { performNepol s q with performed := (performNepol s q).performed ++ q.contributions }) := rfl

/-- An access from a peer that the port takes, whose place is open to that peer, and none of whose contributions has performed. -/
structure NepolTaken (s : State) (q : NepolAccess) : Prop where
  port : portRefuses s q = false
  table : exported s q.device q.sp.toNat q.addr (nepolBytes q.op) (nepolReads q.op) (nepolWrites q.op) = true
  fresh : ∀ c ∈ q.contributions, c ∉ s.performed

theorem nepolInbound_taken {s : State} {q : NepolAccess} (h : NepolTaken s q) : exec (.nepolInboundAccess q) s =
    external s (.nepol q) q.sp.toNat q.addr (nepolBytes q.op) (fun _ =>
      { performNepol s q with performed := (performNepol s q).performed ++ q.contributions }) := by
  have hfresh : q.contributions.any (fun c => s.performed.contains c) = false := by
    simpa using h.fresh
  rw [exec_nepolInboundAccess, h.port, h.table, hfresh]
  exact if_neg (by decide)

theorem nepolInbound_refused {s : State} {q : NepolAccess} (h : ¬ NepolTaken s q) : exec (.nepolInboundAccess q) s = .next s := by
  rw [exec_nepolInboundAccess]
  refine if_pos ?_
  by_contra hc
  simp only [Bool.or_eq_true, not_or, Bool.not_eq_true, Bool.not_eq_false'] at hc
  obtain ⟨⟨hport, htable⟩, hfresh⟩ := hc
  exact h ⟨hport, htable, by simpa using hfresh⟩

section
variable {s : State} {sp : BitVec 4} {addr : Nat}

/-- A write from outside that is admitted leaves its bytes at an open plain place (R246, R374). -/
theorem externalWrite_placedAt {data : List Byte} (port : Nat) (ho : OpenPlace s sp addr data.length)
    (hp : PlainLines s (physKey sp.toNat 0 addr) data.length) :
    PlacedAt s (externalWrite s port sp.toNat addr data) (physKey sp.toNat 0 addr) data :=
  (externalWrite_writtenIn port ho.2.2.2.2.2 hp).placedAt

/-- What stands after a change of neither memory nor tags, cores nor blocks. -/
theorem PlacedAt.of_same {s t u : State} {k : Nat} {data : List Byte} (h : PlacedAt s t k data)
    (hu : u.mem = t.mem ∧ u.tags = t.tags ∧ u.cores = t.cores ∧ u.mcbs = t.mcbs) : PlacedAt s u k data := by
  obtain ⟨hmem, htags, hcores, hmcbs⟩ := hu
  unfold PlacedAt
  rw [hmem, htags, hcores, hmcbs]
  exact h

theorem inboundRdma_write_places {peer : RoceSource} {data : List Byte} (hm : mappedPair s peer = true)
    (hq : mapFind s.qps peer.qp.toNat ≠ none) (ho : OpenPlace s sp addr data.length)
    (hp : PlainLines s (physKey sp.toNat 0 addr) data.length) :
    ∃ t, exec (.roceInboundRdma (.write peer sp addr data)) s = .next t ∧ PlacedAt s t (physKey sp.toNat 0 addr) data ∧
      AnsweredTo s t peer (.rdmaAck peer [] (roceAnswer peer 4 0 [])) := by
  have hrest := (externalWrite_writtenIn 0 ho.2.2.2.2.2 hp).rest
  have hplaced := externalWrite_placedAt 0 ho hp
  rw [inboundRdma_write hm hq, external_performs ho]
  refine ⟨_, rfl, hplaced.of_same ?_, transmitRdma_answeredTo peer 4 0 [] (fun u => .rdmaAck peer [] u)
    (ports_of_besideWrite hrest) (tx_of_besideWrite hrest) (pt_of_besideWrite hrest)⟩
  obtain ⟨hmem, htags, hcores, hmcbs, -⟩ := transmit_beside (externalWrite s 0 sp.toNat addr data) _ _ _
  exact ⟨hmem, htags, hcores, hmcbs⟩

theorem inboundRdma_read_answers {peer : RoceSource} {n : Nat} (hm : mappedPair s peer = true)
    (hq : mapFind s.qps peer.qp.toNat ≠ none) (ho : OpenPlace s sp addr n) (hp : PlainLines s (physKey sp.toNat 0 addr) n) :
    let bs := memBytes s.mem (physKey sp.toNat 0 addr) n
    ∃ t, exec (.roceInboundRdma (.read peer sp addr n)) s = .next t ∧ t.mem = s.mem ∧ t.cores = s.cores ∧
      AnsweredTo s t peer (.rdmaAck peer bs (roceAnswer peer 4 n bs)) := by
  have hgood : (linesOf (physKey sp.toNat 0 addr) n).any (fun l => (mapFind s.bad l).isSome) = false := by
    simp only [List.any_eq_false]
    intro l hl
    simp [(hp l hl).1]
  rw [inboundRdma_read hm hq, external_performs ho, hp.badPartial, hgood, Bool.or_self, if_neg Bool.false_ne_true]
  obtain ⟨hmem, -, hrest⟩ := watchExternal_beside s (whoExternal 0) .read sp.toNat addr [(addr, n)]
  revert hmem hrest
  dsimp only
  generalize watchExternal s (whoExternal 0) .read sp.toNat addr [(addr, n)] = u
  intro hmem hrest
  rw [viewBytes_plain fun l hl => (unitTag_of_besideWrite hrest l).trans (hp l hl).2, hmem]
  obtain ⟨hmem', -, hcores', -⟩ := transmit_beside u peer.port (fieldNat (roceAnswer peer 4 n (memBytes s.mem (physKey sp.toNat 0 addr) n)).tci 13 3)
    (.rdmaAck peer _ (roceAnswer peer 4 n (memBytes s.mem (physKey sp.toNat 0 addr) n)))
  exact ⟨_, rfl, hmem'.trans hmem, hcores'.trans (cores_of_besideWrite hrest),
    transmitRdma_answeredTo peer 4 n _ (fun f => .rdmaAck peer _ f) (ports_of_besideWrite hrest) (tx_of_besideWrite hrest) (pt_of_besideWrite hrest)⟩

theorem inboundRdma_read_fails {peer : RoceSource} {n : Nat} (hm : mappedPair s peer = true)
    (hq : mapFind s.qps peer.qp.toNat ≠ none) (ho : OpenPlace s sp addr n)
    (hb : ∃ l ∈ linesOf (physKey sp.toNat 0 addr) n, mapFind s.bad l ≠ none) :
    ∃ t, exec (.roceInboundRdma (.read peer sp addr n)) s = .next t ∧ t.mem = s.mem ∧
      AnsweredTo s t peer (.rdmaNak peer (roceAnswer peer 5 0 [])) := by
  have hbad : (linesOf (physKey sp.toNat 0 addr) n).any (fun l => (mapFind s.bad l).isSome) = true := by
    simpa [List.any_eq_true, Option.isSome_iff_ne_none] using hb
  rw [inboundRdma_read hm hq, external_performs ho, hbad, Bool.or_true, if_pos rfl]
  exact ⟨_, rfl, (transmit_beside _ _ _ _).1, transmitRdma_answeredTo peer 5 0 [] (fun u => .rdmaNak peer u) rfl rfl rfl⟩

theorem nepolInbound_performs {q : NepolAccess} (h : NepolTaken s q) (ho : OpenPlace s q.sp q.addr (nepolBytes q.op)) :
    exec (.nepolInboundAccess q) s = .next { performNepol s q with performed := (performNepol s q).performed ++ q.contributions } := by
  rw [nepolInbound_taken h, external_performs ho]

/-- A write from a peer leaves its bytes, and its contributions have performed (R446, R447). -/
theorem nepolInbound_write {dev : W16} {expiry : Nat} {leased : Bool} {data : List Byte} {ids : List ContributionId}
    (h : NepolTaken s ⟨dev, expiry, leased, sp, addr, .write data, ids⟩) (ho : OpenPlace s sp addr data.length)
    (hp : PlainLines s (physKey sp.toNat 0 addr) data.length) :
    ∃ t, exec (.nepolInboundAccess ⟨dev, expiry, leased, sp, addr, .write data, ids⟩) s = .next t ∧
      PlacedAt s t (physKey sp.toNat 0 addr) data ∧ t.performed = s.performed ++ ids := by
  refine ⟨_, nepolInbound_performs h ho, (externalWrite_placedAt 2 ho hp).of_same ⟨rfl, rfl, rfl, rfl⟩, ?_⟩
  exact congrArg (· ++ ids) (performed_of_besideWrite (externalWrite_writtenIn 2 ho.2.2.2.2.2 hp).rest)

/-- An atomic access from a peer leaves what its operation gives (R232, R376). -/
theorem nepolInbound_atomic {dev : W16} {expiry : Nat} {leased : Bool} {op : BitVec 4} {wide : Bool} {v : W64}
    (h : NepolTaken s ⟨dev, expiry, leased, sp, addr, .atomic op wide v, []⟩) (ho : OpenPlace s sp addr (sizeBytes wide))
    (hp : PlainLines s (physKey sp.toNat 0 addr) (sizeBytes wide)) :
    let k := physKey sp.toNat 0 addr; let n := sizeBytes wide
    ∃ t, exec (.nepolInboundAccess ⟨dev, expiry, leased, sp, addr, .atomic op wide v, []⟩) s = .next t ∧
      PlacedAt s t k (leBytes n (atomicOp op.toNat n (memNat s.mem k n) (v.toNat % 2 ^ (8 * n)))) :=
  ⟨_, nepolInbound_performs h ho, ((externalAtomic_spec (f := externalOp op wide v) ho.2.2.2.2.2 hp).1 _ rfl).of_same ⟨rfl, rfl, rfl, rfl⟩⟩

/-- A compare and swap from a peer leaves its operand where the place holds what it expects (R230). -/
theorem nepolInbound_cas {dev : W16} {expiry : Nat} {leased wide : Bool} {expect v : W64}
    (h : NepolTaken s ⟨dev, expiry, leased, sp, addr, .cas wide expect v, []⟩) (ho : OpenPlace s sp addr (sizeBytes wide))
    (hp : PlainLines s (physKey sp.toNat 0 addr) (sizeBytes wide)) :
    let k := physKey sp.toNat 0 addr; let n := sizeBytes wide
    ∃ t, exec (.nepolInboundAccess ⟨dev, expiry, leased, sp, addr, .cas wide expect v, []⟩) s = .next t ∧
      (memNat s.mem k n = expect.toNat % 2 ^ (8 * n) → PlacedAt s t k (leBytes n (v.toNat % 2 ^ (8 * n)))) ∧
      (memNat s.mem k n ≠ expect.toNat % 2 ^ (8 * n) → t.mem = s.mem) := by
  obtain ⟨hsome, hnone⟩ := externalAtomic_spec (f := externalCas wide expect v) ho.2.2.2.2.2 hp
  refine ⟨_, nepolInbound_performs h ho, fun he => ?_, fun he => ?_⟩
  · exact (hsome _ (if_pos he)).of_same ⟨rfl, rfl, rfl, rfl⟩
  · exact hnone (if_neg he)
end

end Sys2Proof
end

/-! # Messages from a peer (O45) -/
section
namespace Sys2Proof
open Machine

/-- The posted buffer `x` as it takes a message all of whose pages are usable (R277). -/
def receiving (x : Cmd) (peer : RoceSource) (data : List Byte) : Cmd :=
  let n := (x.arg 0).toNat
  { x with
    started := true, from_ := some peer, buf := data.take n
    tmp := [2, 0, data.length % 2 ^ 31 + if n < data.length then 2 ^ 31 else 0] }

/-- A message goes from the posted buffers to the commands, where its placement starts. -/
theorem takeMessage_starts {s s1 : State} {k : Nat} {peer : RoceSource} {data : List Byte} {x : Cmd}
    (h : does (bufferPages x) { s with turn := k } [] s1) :
    takeMessage s k peer data x = .next (s1.updCore k (fun c => { c with
      posted := c.posted.filter (fun z => z.ord != x.ord), cmds := insertCmd c.cmds (receiving x peer data) })) := by
  unfold takeMessage
  dsimp only
  rw [run_bind_ok h]
  rfl

theorem mem_insertCmd (l : List Cmd) (x : Cmd) : x ∈ insertCmd l x := by
  simp [insertCmd]

/-- A message waits behind a frozen partition and behind an earlier message of its queue pair (R374, R438). -/
def SendWaits (s : State) (peer : RoceSource) (p : QueuePair) : Prop :=
  (partAt s (mcbAt s p.mcb).part.toNat).frozen = true ∨ sendHeld s peer.qp = true

theorem sendWaits_iff (s : State) (peer : RoceSource) (p : QueuePair) :
    (inboundHeld s (mcbAt s p.mcb).part.toNat || sendHeld s peer.qp) = true ↔ SendWaits s peer p := by
  simp [SendWaits, inboundHeld]

section
variable {s : State} {peer : RoceSource} {p : QueuePair} (data : List Byte) (hm : mappedPair s peer = true)
  (hq : mapFind s.qps peer.qp.toNat = some p)
include hm hq

theorem sendReceive_held (h : SendWaits s peer p) :
    exec (.roceSendReceive peer data) s = .next { s with inbound := s.inbound ++ [.send peer data] } := by
  rw [exec_roceSendReceive]
  unfold execRoceSendReceive
  simp only [hm, hq]
  exact (if_neg (by decide)).trans (if_pos ((sendWaits_iff s peer p).2 h))

theorem sendReceive_unbound (h : ¬ SendWaits s peer p) (hi : (mcbAt s p.mcb).inv = none) :
    exec (.roceSendReceive peer data) s = .next (rnr s peer) := by
  rw [exec_roceSendReceive]
  unfold execRoceSendReceive
  simp only [hm, hq, hi]
  exact (if_neg (by decide)).trans (if_neg (mt (sendWaits_iff s peer p).1 h))

/-- A message for a bound block, to the core at its queue pair's position (R275, R277). -/
theorem sendReceive_bound {i : Inv} (h : ¬ SendWaits s peer p) (hi : (mcbAt s p.mcb).inv = some i) :
    let k := 32 * (i.oy + p.py) + i.ox + p.px; let found := (coreAt s k).posted.find? (fun x => x.qp == peer.qp.toNat)
    (((mcbAt s p.mcb).state ≠ 3 ∨ (coreAt s k).bound ≠ some p.mcb ∨ found = none) →
      exec (.roceSendReceive peer data) s = .next (rnr s peer)) ∧
    ∀ x, (mcbAt s p.mcb).state = 3 → (coreAt s k).bound = some p.mcb → found = some x →
      exec (.roceSendReceive peer data) s = takeMessage s k peer data x := by
  dsimp only
  rw [exec_roceSendReceive]
  unfold execRoceSendReceive
  simp only [hm, hq, hi]
  rw [if_neg (by decide), if_neg (mt (sendWaits_iff s peer p).1 h)]
  refine ⟨fun hno => ?_, fun x hstate hbound hfound => ?_⟩
  · split
    · rfl
    · next hc =>
      rw [Bool.or_eq_true, not_or, decide_eq_true_eq, not_not, bne_iff_ne, not_not] at hc
      obtain hno | hno | hno := hno
      · exact absurd hc.1 hno
      · exact absurd hc.2 hno
      · simp only [hno]
  · rw [if_neg (by simp [hstate, hbound])]
    simp only [hfound]
end

/-- Settles O45: writes and reads by `externalWrite_writtenIn` and `viewBytes_plain`, atomic accesses by `externalAtomic_spec`, answers by
`transmitRdma_answeredTo`, messages by `sendReceive_bound` and `takeMessage_starts`. -/
theorem accessesFromOutside : Obligations.AccessesFromOutside := by
  unfold Obligations.AccessesFromOutside
  intro s sp addr k open_ good placed answered
  refine ⟨fun data ho hg => ⟨?host, ?write, ?nepol⟩, fun n peer ho hm hq => ⟨inboundRdma_read_answers hm hq ho, inboundRdma_read_fails hm hq ho⟩,
    fun peer data n hm => roce_unmapped hm sp addr n data, fun dev expiry leased op wide v ho hg hr he => ?atomic,
    fun dev expiry leased wide expect v ho hg hr he => ?cas, fun data n peer q hsp hh => ⟨?heldHost, ?heldRdma, ?heldNepol⟩,
    fun dev expiry leased op ids h => ?refused, fun peer data p hm hq => ?send⟩
  case host => exact ⟨_, (hostInboundWrite_eq s sp addr data).trans (external_performs ho _ _), externalWrite_placedAt 1 ho hg⟩
  case write => exact fun peer hm hq => inboundRdma_write_places hm hq ho hg
  case nepol => exact fun dev expiry leased ids hr he hf => nepolInbound_write ⟨hr, he, hf⟩ ho hg
  case atomic => exact nepolInbound_atomic ⟨hr, he, by simp⟩ ho hg
  case cas => exact nepolInbound_cas ⟨hr, he, by simp⟩ ho hg
  case heldHost => exact (hostInboundWrite_eq s sp addr data).trans (external_held _ hsp hh _ _)
  case heldRdma =>
    exact fun hm hq => ⟨(inboundRdma_write hm hq sp addr data).trans (external_held _ hsp hh _ _),
      (inboundRdma_read hm hq sp addr n).trans (external_held _ hsp hh _ _)⟩
  case heldNepol =>
    intro hop hsp' haddr hr he hf
    subst hsp' haddr
    exact (nepolInbound_taken ⟨hr, by rw [hop]; exact he, hf⟩).trans (external_held _ hsp hh _ _)
  case refused =>
    refine nepolInbound_refused fun ⟨hport, htable, hfresh⟩ => ?_
    obtain h | h | ⟨c, hc, hdone⟩ := h
    · exact absurd (hport.symm.trans h) (by decide)
    · exact absurd (htable.symm.trans h) (by decide)
    · exact hfresh c hc hdone
  case send =>
    intro b qp nak waits
    have hnak : exec (.roceSendReceive peer data) s = .next (rnr s peer) → nak := fun h => ⟨_, h, rnr_answeredTo hq⟩
    refine ⟨sendReceive_held data hm hq, fun hw hi => hnak (sendReceive_unbound data hm hq hw hi), fun i hw hi => ?_⟩
    obtain ⟨hrnr, htake⟩ := sendReceive_bound data hm hq hw hi
    refine ⟨fun h => hnak (hrnr (.inr (h.imp_right fun hno => ?_))), fun x s1 hstate hbound hfound hpages => ?_⟩
    · exact List.find?_eq_none.2 fun x hx => by simpa using hno x hx
    · refine ⟨_, receiving x peer data, (htake x hstate hbound hfound).trans (takeMessage_starts hpages), ?_, rfl, rfl, rfl, rfl, ?_, rfl⟩
      · rw [coreAt_updCore, if_pos rfl]
        exact mem_insertCmd _ _
      · rw [coreAt_updCore, if_pos rfl]
        intro z hz
        simpa using (List.mem_filter.1 hz).2

end Sys2Proof
end

/-! # Streams, their buffers, and the end of a packet (O49) -/
section
namespace Sys2Proof
open Machine

/-- Stream `n` as a change of stream `k` leaves it. -/
@[simp] theorem mapFind_updStream (s : State) (n k : Nat) (f : Stream → Stream) :
    mapFind (s.updStream n f).streams k = if n = k then (mapFind s.streams n).map f else mapFind s.streams k := by
  unfold State.updStream
  split
  · next h => split <;> simp_all
  · next x h => rw [mapFind_put]; split <;> simp_all

@[simp] theorem ifcAt_updStream (s : State) (n i : Nat) (f : Stream → Stream) : ifcAt (s.updStream n f) i = ifcAt s i := by simp [ifcAt]
@[simp] theorem hartAt_updStream (s : State) (n h : Nat) (f : Stream → Stream) : hartAt (s.updStream n f) h = hartAt s h := by simp [hartAt]

/-- The state without its streams, and without the registers that a stream fault writes. -/
def besideStreams (s : State) : State := { s with streams := [], ifcs := [], harts := [] }

@[simp] theorem besideStreams_updStream (s : State) (n : Nat) (f : Stream → Stream) : besideStreams (s.updStream n f) = besideStreams s := by
  unfold State.updStream; split <;> rfl

theorem setStrstat_keeps (s : State) (x : Stream) (v : W64) : besideStreams (setStrstat s x v) = besideStreams s ∧
    (setStrstat s x v).streams = s.streams ∧ ∀ i, { ifcAt (setStrstat s x v) i with strstat := 0 } = { ifcAt s i with strstat := 0 } := by
  unfold setStrstat
  split
  · refine ⟨rfl, rfl, fun i => ?_⟩
    rw [ifcAt_updIfc]
    split
    · next h => rw [← h]
    · rfl
  · exact ⟨rfl, rfl, fun _ => rfl⟩
  · exact ⟨rfl, rfl, fun _ => rfl⟩

theorem setLastst_keeps (s : State) (x : Stream) (v : Byte) : (setLastst s x v).streams = s.streams ∧
    ∀ i, x.ifc = some i → (ifcAt (setLastst s x v) i).lastst = w64 v.toNat := by
  unfold setLastst
  split
  · next _ j hj =>
    refine ⟨rfl, fun i hi => ?_⟩
    obtain rfl : j = i := Option.some.inj (hj.symm.trans hi)
    rw [ifcAt_updIfc, if_pos rfl]
  · next hj _ => exact ⟨rfl, fun i hi => absurd (hj.symm.trans hi) (by simp)⟩
  · next hj _ => exact ⟨rfl, fun i hi => absurd (hj.symm.trans hi) (by simp)⟩

/-- What leaving buffers leaves of a stream (R98): what it has launched, a close that waits, and its place. -/
structure SameStream (x y : Stream) : Prop where
  depth : y.depth ≤ x.depth
  closing : y.closing = x.closing
  launched : y.launched = x.launched
  wait : x.wait = none → y.wait = none
  ifc : y.ifc = x.ifc
  hart : y.hart = x.hart

/-- What leaving buffers leaves (R98, R102): all but the stream, and STRSTAT where the stream faults. -/
structure LeftBuffers (n : Nat) (s t : State) : Prop where
  rest : besideStreams t = besideStreams s
  ifc : ∀ i, { ifcAt t i with strstat := 0 } = { ifcAt s i with strstat := 0 }
  stream : ∀ x, mapFind s.streams n = some x → ∃ y, mapFind t.streams n = some y ∧ SameStream x y

theorem SameStream.refl (x : Stream) : SameStream x x := ⟨le_rfl, rfl, rfl, id, rfl, rfl⟩
theorem SameStream.trans {x y z : Stream} (h : SameStream x y) (g : SameStream y z) : SameStream x z :=
  ⟨g.depth.trans h.depth, g.closing.trans h.closing, g.launched.trans h.launched, fun w => g.wait (h.wait w), g.ifc.trans h.ifc,
    g.hart.trans h.hart⟩

theorem LeftBuffers.refl (n : Nat) (s : State) : LeftBuffers n s s := ⟨rfl, fun _ => rfl, fun x hx => ⟨x, hx, .refl x⟩⟩

theorem LeftBuffers.trans {n : Nat} {s t u : State} (h : LeftBuffers n s t) (g : LeftBuffers n t u) : LeftBuffers n s u :=
  ⟨g.rest.trans h.rest, fun i => (g.ifc i).trans (h.ifc i), fun x hx => by
    obtain ⟨y, hy, hxy⟩ := h.stream x hx
    obtain ⟨z, hz, hyz⟩ := g.stream y hy
    exact ⟨z, hz, hxy.trans hyz⟩⟩

theorem LeftBuffers.updStream {n : Nat} {s : State} {f : Stream → Stream} (h : ∀ x, SameStream x (f x)) :
    LeftBuffers n s (s.updStream n f) :=
  ⟨by simp, fun i => by simp, fun x hx => ⟨f x, by simp [hx], h x⟩⟩

section
variable {n : Nat} {s t : State} (h : LeftBuffers n s t)
include h
theorem LeftBuffers.mem : t.mem = s.mem := by have := congrArg State.mem h.rest; exact this
theorem LeftBuffers.mcbs : t.mcbs = s.mcbs := by have := congrArg State.mcbs h.rest; exact this
theorem LeftBuffers.pfCompletions : t.pfCompletions = s.pfCompletions := by have := congrArg State.pfCompletions h.rest; exact this
theorem LeftBuffers.msix (i : Nat) : (ifcAt t i).msix = (ifcAt s i).msix := by have := congrArg Ifc.msix (h.ifc i); exact this
theorem LeftBuffers.lastst (i : Nat) : (ifcAt t i).lastst = (ifcAt s i).lastst := by have := congrArg Ifc.lastst (h.ifc i); exact this
theorem LeftBuffers.completions (i : Nat) : (ifcAt t i).completions = (ifcAt s i).completions := by
  have := congrArg Ifc.completions (h.ifc i); exact this
theorem LeftBuffers.completionsOf (iss : Issuer) : completionsOf t iss = completionsOf s iss := by
  unfold Machine.completionsOf
  split
  · exact h.pfCompletions
  · exact h.completions _
end

theorem leftBuffers_streamFault (s : State) (n : Nat) (x : Stream) (code off : Nat) : LeftBuffers n s (streamFault s n x code off) := by
  obtain ⟨hrest, hstreams, hifc⟩ :=
    setStrstat_keeps (s.updStream n (fun y => { y.discard with status := .faulted, wait := none })) x (w64 (code + off * 256))
  have hstop : LeftBuffers n s (s.updStream n (fun y => { y.discard with status := .faulted, wait := none })) :=
    .updStream fun y => ⟨by simp [Stream.discard, Stream.depth], rfl, rfl, fun _ => rfl, rfl, rfl⟩
  exact hstop.trans ⟨hrest, hifc, fun y hy => ⟨y, hstreams ▸ hy, .refl y⟩⟩

theorem sameStream_leaveBuffer (x : Stream) : SameStream x { x with levels := x.levels.tail, skip := (0, 0) } := by
  refine ⟨?_, rfl, rfl, id, rfl, rfl⟩
  simp only [Stream.depth, List.length_tail]
  omega

theorem leftBuffers (fuel : Nat) (s : State) (n : Nat) : LeftBuffers n s (leaveBuffers fuel s n) := by
  induction fuel generalizing s with
  | zero => exact .refl n s
  | succ fuel ih =>
    unfold leaveBuffers
    split
    · exact .refl n s
    · split
      · exact .refl n s
      · split
        · exact leftBuffers_streamFault s n _ _ _
        · exact .trans (.updStream sameStream_leaveBuffer) (ih _)

/-- Where a stream runs within its buffer it leaves none (R98). -/
theorem leaveBuffers_within {s : State} {n : Nat} {x : Stream} (hx : mapFind s.streams n = some x)
    (h : x.depth = 0 ∨ x.pos < x.limit) (fuel : Nat) : leaveBuffers fuel s n = s := by
  cases fuel with
  | zero => rfl
  | succ fuel =>
    unfold leaveBuffers
    simp only [hx]
    exact if_pos (by simpa using h)

/-- A stream whose packet of `w` words has executed, but for its buffers (R95). -/
def executed (w : Nat) (x : Stream) : Stream :=
  ({ x.setTop { x.top with pos := x.top.pos + 4 * w } with wait := none, ask := none, packets := x.packets + 1 } : Stream).trim

theorem trim_eq (x : Stream) : ∃ f p, x.trim = { x with fifo := f, fifoPos := p } := by
  unfold Stream.trim
  split
  · exact ⟨_, _, rfl⟩
  · exact ⟨_, _, rfl⟩

/-- All that `executed` changes: the place, the wait, the count, and the FIFO. -/
theorem executed_eq (w : Nat) (x : Stream) : ∃ f p, executed w x = { x with
    levels := { x.top with pos := x.top.pos + 4 * w } :: x.levels.tail, wait := none, ask := none,
    packets := x.packets + 1, fifo := f, fifoPos := p } :=
  trim_eq _

theorem depth_executed (w : Nat) (x : Stream) : (executed w x).depth = x.depth := by
  obtain ⟨f, p, h⟩ := executed_eq w x
  rw [h]
  simp [Stream.depth]

theorem pos_executed (w : Nat) (x : Stream) : (executed w x).pos = x.pos + 4 * w := by
  obtain ⟨f, p, h⟩ := executed_eq w x
  rw [h]
  rfl

theorem limit_executed (w : Nat) (x : Stream) : (executed w x).limit = x.limit := by
  have hd := depth_executed w x
  obtain ⟨f, p, h⟩ := executed_eq w x
  rw [Stream.limit, hd, h]
  rfl

theorem sameStream_executed (w : Nat) (x : Stream) : SameStream x (executed w x) := by
  have hd := (depth_executed w x).le
  obtain ⟨f, p, h⟩ := executed_eq w x
  rw [h] at hd ⊢
  exact ⟨hd, rfl, rfl, fun _ => rfl, rfl, rfl⟩

theorem wait_executed (w : Nat) (x : Stream) : (executed w x).wait = none := by
  obtain ⟨f, p, h⟩ := executed_eq w x
  rw [h]

/-- The state in which a packet has executed and its stream has left the buffers that it has finished. -/
def afterPacket (s : State) (n w : Nat) : State := leaveBuffers 6 (s.updStream n (executed w)) n

theorem leftBuffers_afterPacket (s : State) (n w : Nat) : LeftBuffers n s (afterPacket s n w) :=
  .trans (.updStream (sameStream_executed w)) (leftBuffers 6 _ n)

theorem afterPacket_stream {s : State} {n : Nat} {x : Stream} (w : Nat) (hx : mapFind s.streams n = some x) :
    ∃ y, mapFind (afterPacket s n w).streams n = some y ∧ SameStream x y ∧ y.wait = none := by
  obtain ⟨y, hy, hxy⟩ := (leftBuffers 6 (s.updStream n (executed w)) n).stream (executed w x) (by simp [hx])
  exact ⟨y, hy, (sameStream_executed w x).trans hxy, hxy.wait (wait_executed w x)⟩

/-- A packet that enters no buffer reads no window. -/
theorem packetDone_eq {s : State} {n : Nat} {x : Stream} (w : Nat) (hx : mapFind s.streams n = some x) :
    packetDone s n w = packetOver (afterPacket s n w) n := by
  obtain ⟨y, hy, hxy, -⟩ := afterPacket_stream w hx
  show packetOver (if ((mapFind s.streams n).map (·.depth)).getD 0 < ((mapFind (afterPacket s n w).streams n).map (·.depth)).getD 0
    then (fetchWindow n (afterPacket s n w)).2 else afterPacket s n w) n = _
  rw [if_neg]
  rw [hx, hy]
  exact Nat.not_lt.2 hxy.depth

theorem packetOver_open {s : State} {n : Nat} {x : Stream} (hx : mapFind s.streams n = some x) (hc : x.closing = none) :
    packetOver s n = s := by
  unfold packetOver
  rw [hx]
  simp [hc]

theorem OnlyBytes.streams {s t : State} (h : OnlyBytes s t) : t.streams = s.streams := by have := congrArg State.streams h; exact this
theorem OnlyBytes.ifcAt {s t : State} (h : OnlyBytes s t) (i : Nat) : ifcAt t i = ifcAt s i := by
  have : t.ifcs = s.ifcs := by have := congrArg State.ifcs h; exact this
  simp only [Machine.ifcAt, this]

theorem completionsOf_updIfc {s : State} {i : Nat} {f : Ifc → Ifc} (h : (f (ifcAt s i)).completions = (ifcAt s i).completions)
    (iss : Issuer) : completionsOf (s.updIfc i f) iss = completionsOf s iss := by
  unfold completionsOf
  split
  · rfl
  · rw [ifcAt_updIfc]
    split
    · next hk => rw [h, hk]
    · rfl

theorem complete_keeps (s : State) (iss : Issuer) (status : Byte) (result : W64) : let t := complete s iss status result
    t.mcbs = s.mcbs ∧ t.streams = s.streams ∧ (∀ i, (ifcAt t i).lastst = (ifcAt s i).lastst) ∧ completes s t iss status result := by
  unfold completes completionsOf complete
  dsimp only
  cases iss.ifc with
  | none => exact ⟨rfl, rfl, fun _ => rfl, rfl⟩
  | some i =>
    dsimp only
    generalize hu : (if ringOn (ifcAt s i).cqlog = true then _ else s) = u
    have hwritten : OnlyBytes s u := by
      rw [← hu]
      split
      · exact onlyBytes_putBytes _ _ _ _
      · exact .refl s
    have hifcs : ∀ k, ifcAt u k = ifcAt s k := hwritten.ifcAt
    refine ⟨hwritten.mcbs, hwritten.streams, fun k => ?_, ?_⟩
    · rw [ifcAt_updIfc]
      split
      · next h => rw [← h, hifcs]
      · rw [hifcs]
    · rw [ifcAt_updIfc, if_pos rfl, hifcs]

/-- A stream closes with no WAIT packet standing (R431): it is gone, and the STREAM.CLOSE that awaited it has completed. -/
theorem closeStream_closes {s : State} {n : Nat} {x : Stream} {iss : Issuer} (hx : mapFind s.streams n = some x) (hw : x.wait = none)
    (hc : x.closing = some iss) : let t := closeStream s n
    mapFind t.streams n = none ∧ completes s t iss 0 0 ∧ t.mcbs = s.mcbs ∧ ∀ i, (ifcAt t i).lastst = (ifcAt s i).lastst := by
  unfold closeStream
  simp only [hx, hw, hc]
  obtain ⟨hm, hs, hl, hcomp⟩ := complete_keeps { s with streams := mapErase s.streams n } iss stOk 0
  generalize complete { s with streams := mapErase s.streams n } iss stOk 0 = u at *
  have hgone : mapFind u.streams n = none := by rw [hs]; simp
  split
  · next i _ =>
    refine ⟨hgone, ?_, hm, fun k => ?_⟩
    · exact (completionsOf_updIfc (by rfl) iss).trans hcomp
    · rw [ifcAt_updIfc, ← show (ifcAt u k).lastst = (ifcAt s k).lastst from hl k]
      split
      · next h => rw [← h]
      · rfl
  · exact ⟨hgone, hcomp, hm, hl⟩
  · exact ⟨hgone, hcomp, hm, hl⟩

theorem mcbAt_congr {s t : State} (h : t.mcbs = s.mcbs) (m : Nat) : mcbAt t m = mcbAt s m := by simp only [mcbAt, h]

/-- A packet is over and moves no deeper: what its stream's close, where one waits, leaves too (R431). -/
theorem packetDone_keeps {s : State} {n : Nat} {x : Stream} (w : Nat) (hx : mapFind s.streams n = some x) :
    (packetDone s n w).mcbs = s.mcbs ∧ ∀ i, (ifcAt (packetDone s n w) i).lastst = (ifcAt s i).lastst := by
  have hleft := leftBuffers_afterPacket s n w
  obtain ⟨y, hy, hxy, hwait⟩ := afterPacket_stream w hx
  rw [packetDone_eq w hx]
  generalize afterPacket s n w = t at *
  unfold packetOver
  rw [hy]
  cases hc : y.closing with
  | none => simpa [hc] using ⟨hleft.mcbs, hleft.lastst⟩
  | some iss =>
    obtain ⟨-, -, hm, hl⟩ := closeStream_closes hy hwait hc
    simpa [hc] using ⟨hm.trans hleft.mcbs, fun i => (hl i).trans (hleft.lastst i)⟩

/-- The packet of a stream that nothing closes is over: the stream stays, and memory and interfaces are as they were. -/
theorem packetDone_open {s : State} {n : Nat} {x : Stream} (w : Nat) (hx : mapFind s.streams n = some x) (hc : x.closing = none) :
    LeftBuffers n s (packetDone s n w) := by
  obtain ⟨y, hy, hxy, -⟩ := afterPacket_stream w hx
  rw [packetDone_eq w hx, packetOver_open hy (hxy.closing.trans hc)]
  exact leftBuffers_afterPacket s n w

/-- A packet of a stream that a STREAM.CLOSE awaits is over (R431). -/
theorem packetDone_closes {s : State} {n : Nat} {x : Stream} {iss : Issuer} (w : Nat) (hx : mapFind s.streams n = some x)
    (hc : x.closing = some iss) : mapFind (packetDone s n w).streams n = none ∧ completes s (packetDone s n w) iss 0 0 := by
  have hleft := leftBuffers_afterPacket s n w
  obtain ⟨y, hy, hxy, hwait⟩ := afterPacket_stream w hx
  have hclosing := hxy.closing.trans hc
  rw [packetDone_eq w hx]
  generalize afterPacket s n w = t at *
  unfold packetOver
  rw [hy]
  obtain ⟨hgone, hdone, -⟩ := closeStream_closes hy hwait hclosing
  rw [if_pos (by simp [hclosing])]
  refine ⟨hgone, ?_⟩
  unfold completes at hdone ⊢
  rw [hdone, hleft.completionsOf]

/-- The packet of a stream that goes on within its buffer (R95). -/
theorem packetDone_within {s : State} {n : Nat} {x : Stream} {w : Nat} (hx : mapFind s.streams n = some x)
    (hin : x.depth = 0 ∨ x.pos + 4 * w < x.limit) (hc : x.closing = none) :
    packetDone s n w = s.updStream n (executed w) := by
  have hx' : mapFind (s.updStream n (executed w)).streams n = some (executed w x) := by simp [hx]
  have hstay : afterPacket s n w = s.updStream n (executed w) := by
    refine leaveBuffers_within hx' ?_ 6
    rwa [depth_executed, pos_executed, limit_executed]
  rw [packetDone_eq w hx, hstay]
  exact packetOver_open hx' ((sameStream_executed w x).closing.trans hc)

/-- The first clause: the packet after a packet is next, or its stream closes. -/
theorem packetDone_next {s : State} {n : Nat} {x : Stream} {w : Nat} (hx : mapFind s.streams n = some x)
    (hin : x.depth = 0 ∨ x.pos + 4 * w < x.limit) (hc : x.closing = none) :
    ∃ y, mapFind (packetDone s n w).streams n = some y ∧ y.pos = x.pos + 4 * w ∧ y.packets = x.packets + 1 ∧ y.wait = none ∧
      y.status = x.status ∧ y.loops = x.loops ∧ y.depth = x.depth ∧ (packetDone s n w).mem = s.mem := by
  have hpos := pos_executed w x
  have hdepth := depth_executed w x
  rw [packetDone_within hx hin hc]
  refine ⟨executed w x, by simp [hx], hpos, ?_, wait_executed w x, ?_, ?_, hdepth, by simp⟩ <;>
  · obtain ⟨f, p, h⟩ := executed_eq w x
    rw [h]

end Sys2Proof
end

/-! # What a write of a front-end leaves of the closes that wait (O49) -/
section
namespace Sys2Proof
open Machine

/-- The same streams, and the same STREAM.CLOSE waiting for each. -/
def SameCloses (s t : State) : Prop := ∀ k, (mapFind t.streams k).map Stream.closing = (mapFind s.streams k).map Stream.closing

theorem SameCloses.refl (s : State) : SameCloses s s := fun _ => rfl
theorem SameCloses.trans (a b c : State) (h : SameCloses a b) (g : SameCloses b c) : SameCloses a c := fun k => (g k).trans (h k)
theorem SameCloses.of_streams {s t : State} (h : t.streams = s.streams) : SameCloses s t := fun k => by rw [h]
theorem SameCloses.updStream (s : State) (n : Nat) {f : Stream → Stream} (h : ∀ x, (f x).closing = x.closing) :
    SameCloses s (s.updStream n f) := fun k => by
  rw [mapFind_updStream]
  split
  · next hk => subst hk; cases mapFind s.streams n <;> simp [h]
  · rfl

/-- A computation that closes no stream, opens none, and begins no close. -/
abbrev ClosesNone {α : Type} (m : M α) : Prop := Keeps SameCloses m

theorem ClosesNone.bind {α β : Type} {m : M α} {f : α → M β} (hm : ClosesNone m) (hf : ∀ x, ClosesNone (f x)) : ClosesNone (m >>= f) :=
  Keeps.bind SameCloses.trans hm hf
theorem ClosesNone.get : ClosesNone (MonadState.get : M State) := Keeps.get SameCloses.refl
theorem ClosesNone.pure {α : Type} (x : α) : ClosesNone (Pure.pure x : M α) := Keeps.pure SameCloses.refl x
theorem ClosesNone.modify {f : State → State} (h : ∀ s, (f s).streams = s.streams) : ClosesNone (modify f : M Unit) :=
  Keeps.modify fun s => .of_streams (h s)
theorem ClosesNone.raise {α : Type} (c u a : Nat) : ClosesNone (Machine.raise c u a : M α) := Keeps.raise SameCloses.refl c u a
theorem ClosesNone.raise_bind {α β : Type} (c u a : Nat) (f : α → M β) : ClosesNone (Machine.raise c u a >>= f) :=
  Keeps.raise_bind SameCloses.refl c u a f
theorem ClosesNone.waitOn {α : Type} (k : WaitKind) (f u l e : Nat) : ClosesNone (Machine.waitOn k f u l e : M α) :=
  Keeps.waitOn SameCloses.refl k f u l e
theorem ClosesNone.waitOn_bind {α β : Type} (k : WaitKind) (x u l e : Nat) (f : α → M β) :
    ClosesNone (Machine.waitOn k x u l e >>= f) := Keeps.waitOn_bind SameCloses.refl k x u l e f

theorem sameCloses_cacheDrop (s : State) (w : Who) (obj page : Nat) (d : BitVec 256) (x : W64) :
    SameCloses s (cacheDrop s w obj page d x) := by
  unfold cacheDrop
  dsimp only
  split
  · exact .updStream s _ fun _ => rfl
  · split
    · exact .refl s
    · exact .of_streams rfl

theorem sameCloses_cacheInstall (s : State) (w : Who) (now : Nat) (e : XEntry) : SameCloses s (cacheInstall s w now e) := by
  unfold cacheInstall
  split
  · exact .refl s
  · split
    · exact .updStream s _ fun _ => rfl
    · split
      · exact .refl s
      · exact .of_streams rfl

theorem streams_count (s : State) (p c n : Nat) : (s.count p c n).streams = s.streams := by
  unfold State.count
  split <;> rfl

theorem streams_countAccess (s : State) (w : Who) (obj off n : Nat) (r : Res) : (countAccess s w obj off n r).streams = s.streams := by
  unfold countAccess
  split <;> rfl

theorem streams_stampLines (s : State) (w : Who) (region k n : Nat) : (stampLines s w region k n).streams = s.streams := by
  unfold stampLines
  split <;> rfl

theorem streams_markBytes (s : State) (w : Who) (rel : EdgeSet) (k n : Nat) : (markBytes s w rel k n).streams = s.streams := rfl

theorem closesNone_walk (w : Who) (obj sp off : Nat) (a : Access) : ClosesNone (walk w obj sp off a) := by
  unfold walk
  refine ClosesNone.bind ClosesNone.get fun s => ?_
  refine ClosesNone.bind (ClosesNone.modify fun s => streams_count s _ _ _) fun _ => ?_
  refine ClosesNone.bind (ClosesNone.modify fun _ => rfl) fun _ => ?_
  have drop : ∀ (d : BitVec 256) (x : W64) (r : Res),
      ClosesNone (do modify (fun s => cacheDrop s w obj (off / 65536) d x); return r) := fun d x r =>
    ClosesNone.bind (Keeps.modify fun s => sameCloses_cacheDrop s _ _ _ _ _) fun _ => ClosesNone.pure _
  refine keeps_ite (ClosesNone.raise_bind _ _ _ _) ?_
  dsimp only
  split
  · exact ClosesNone.raise_bind _ _ _ _
  · refine keeps_ite (ClosesNone.raise_bind _ _ _ _) ?_
    split
    · exact ClosesNone.raise _ _ _
    · exact ClosesNone.waitOn _ _ _ _ _
    · exact drop _ _ _
    · refine keeps_ite (drop _ _ _) (ClosesNone.bind (ClosesNone.modify fun _ => rfl) fun _ => ?_)
      exact ClosesNone.bind (Keeps.modify fun s => sameCloses_cacheInstall s _ _ _) fun _ => ClosesNone.pure _

theorem closesNone_translate (w : Who) (obj sp off : Nat) (a : Access) (e : Option XEntry) : ClosesNone (Machine.translate w obj sp off a e) := by
  unfold Machine.translate
  split
  · split
    · exact ClosesNone.raise _ _ _
    · exact ClosesNone.bind ClosesNone.get fun _ => ClosesNone.pure _
  · exact closesNone_walk _ _ _ _ _

theorem closesNone_lookCaches (w : Who) (obj page : Nat) : ClosesNone (lookCaches w obj page) :=
  ClosesNone.bind ClosesNone.get fun _ => ClosesNone.bind (ClosesNone.modify fun s => streams_count s _ _ _) fun _ => ClosesNone.pure _

theorem closesNone_resolve (w : Who) (obj sp off : Nat) (a : Access) : ClosesNone (resolve w obj sp off a) := by
  unfold resolve
  refine ClosesNone.bind ClosesNone.get fun s => ?_
  split
  · exact ClosesNone.pure _
  · have rest : ∀ cached, ClosesNone (do
        let r ← Machine.translate w obj sp off a cached
        let s ← MonadState.get
        if !physExists r.sp r.addr 1 then MonadExcept.throw (Stop.hard .noSuchAddress)
        if !physReady s r.sp r.addr then waitOn .parked 0 0 0 r.extKey
        if controllerRefuses s r then waitOn .refused
        return r) := fun cached =>
      ClosesNone.bind (closesNone_translate _ _ _ _ _ cached) fun r => ClosesNone.bind ClosesNone.get fun s =>
        keeps_ite (Keeps.throw_bind SameCloses.refl _ _)
          (keeps_ite (ClosesNone.waitOn_bind _ _ _ _ _ _) (keeps_ite (ClosesNone.waitOn_bind _ _ _ _ _ _) (ClosesNone.pure _)))
    exact keeps_ite (ClosesNone.bind (ClosesNone.pure _) rest) (ClosesNone.bind (closesNone_lookCaches _ _ _) rest)

theorem closesNone_checkDobj (x : Stream) (off n align : Nat) (need : BitVec 12) : ClosesNone (checkDobj x off n align need) :=
  have refused : ∀ (u : Nat) (rest : Unit → M Unit), ClosesNone (Machine.raise 0 u off >>= rest) := fun u rest => ClosesNone.raise_bind 0 u off rest
  keeps_ite (refused 0 _) (keeps_ite (refused 1 _) (keeps_ite (refused 2 _) (keeps_ite (ClosesNone.raise 0 3 off) (ClosesNone.pure _))))

theorem closesNone_needSys (w : Who) (c : Cap) (a : Nat) : ClosesNone (needSys w c a) :=
  ClosesNone.bind ClosesNone.get fun _ => keeps_ite (ClosesNone.raise _ _ _) (ClosesNone.pure _)

theorem closesNone_answers (r : Res) (n off : Nat) : ClosesNone (answers r n off) := by
  refine ClosesNone.bind (ClosesNone.bind ClosesNone.get fun s => ?permitted) fun _ => ClosesNone.bind ClosesNone.get fun s => ?answered
  case permitted =>
    split
    · exact ClosesNone.pure _
    · exact ClosesNone.raise _ _ _
  case answered => exact keeps_ite (ClosesNone.waitOn _ _ _ _ _) (ClosesNone.pure _)

theorem closesNone_checkLines (off : Nat) (r : Res) (n : Nat) : ClosesNone (checkLines off r n) := by
  refine ClosesNone.bind ClosesNone.get fun s => ?_
  split
  · exact ClosesNone.pure _
  · exact ClosesNone.raise _ _ _

theorem closesNone_watchAccess (w : Who) (kind : WatchKind) (off : Nat) (r : Res) (n : Nat) : ClosesNone (watchAccess w kind off r n) := by
  refine ClosesNone.bind ClosesNone.get fun s => ?_
  split
  · exact ClosesNone.pure _
  · exact keeps_ite (ClosesNone.pure _) (ClosesNone.bind (ClosesNone.modify fun _ => rfl) fun _ => ClosesNone.pure _)

theorem closesNone_writePiece (w : Who) (rel : EdgeSet) (region obj off : Nat) (r : Res) (bs : List Byte) :
    ClosesNone (writePiece w rel region obj off r bs) := by
  refine ClosesNone.modify fun s => ?_
  dsimp only
  rw [streams_countAccess, streams_markBytes, streams_stampLines]
  exact (onlyBytes_putBytes _ _ _ _).streams

/-- A write of a front-end (R101) closes no stream. -/
theorem closesNone_streamWrite (n : Nat) (x : Stream) (off len : Nat) (f : Nat → Nat) (need : BitVec 12) (kind : WatchKind) :
    ClosesNone (streamWrite n x off len f need kind) := by
  unfold streamWrite
  refine ClosesNone.bind (closesNone_checkDobj _ _ _ _ _) fun _ => ClosesNone.bind (closesNone_needSys _ _ _) fun _ => ?_
  refine ClosesNone.bind (closesNone_resolve _ _ _ _ _) fun r => ClosesNone.bind (closesNone_answers _ _ _) fun _ => ?_
  refine ClosesNone.bind (closesNone_checkLines _ _ _) fun _ => ?_
  refine ClosesNone.bind (ClosesNone.bind ClosesNone.get fun _ => ClosesNone.pure _) fun old => ?_
  refine ClosesNone.bind (closesNone_writePiece _ _ _ _ _ _ _) fun _ => ClosesNone.bind (closesNone_watchAccess _ _ _ _ _) fun _ => ?_
  exact Keeps.modify fun s => .updStream s n fun _ => rfl

end Sys2Proof
end

/-! # The packets of a stream (O49) -/
section
namespace Sys2Proof
open Machine

/-- The descriptor of a LAUNCH's entry (R90, R98) as a number. -/
theorem launchDesc_toNat (w : Bool) (id arg : W64) : (mkDesc 2 false w 0 0xFF 0 id arg 0 0 0 0 0).toNat =
    2 + (if w = true then 2 ^ 9 else 0) + 255 * 2 ^ 32 + id.toNat * 2 ^ 64 + arg.toNat * 2 ^ 128 := by
  have hid := id.isLt
  have harg := arg.isLt
  unfold mkDesc
  rw [BitVec.toNat_ofNat, Nat.mod_eq_of_lt]
  · simp [-Nat.reducePow]
  · cases w <;> simp <;> omega

section
variable (w : Bool) (id arg : W64)
theorem descKind_launch : descKind (mkDesc 2 false w 0 0xFF 0 id arg 0 0 0 0 0) = 2 := by
  unfold descKind fieldNat
  rw [BitVec.extractLsb'_toNat, launchDesc_toNat, Nat.shiftRight_eq_div_pow]
  cases w <;> simp <;> omega

theorem descArg_launch : descArg (mkDesc 2 false w 0 0xFF 0 id arg 0 0 0 0 0) = arg := by
  have hid := id.isLt
  have harg := arg.isLt
  unfold descArg field
  apply BitVec.eq_of_toNat_eq
  rw [BitVec.extractLsb'_toNat, launchDesc_toNat, Nat.shiftRight_eq_div_pow]
  cases w <;> simp <;> omega

theorem descW_launch : descW (mkDesc 2 false w 0 0xFF 0 id arg 0 0 0 0 0) = w := by
  unfold descW
  rw [← BitVec.testBit_toNat, launchDesc_toNat, Nat.testBit_eq_decide_div_mod_eq]
  cases w <;> simp <;> omega
end

theorem withAccess_ok {α : Type} {s t : State} {a : M α} {v : α} (n : Nat) (x : Stream) (f : α → State → State) (h : does a s v t) :
    withAccess s n x a f = .next (f v t) := by
  unfold withAccess streamTry
  rw [show a.run s = _ from h]

/-- The fault of a buffer that is too deep, or lies out of DOBJ (R98, R102). -/
theorem enterPacket_fault {s : State} {n : Nat} {x : Stream} {words code : Nat} {b : BufDesc} (h : bufFault x b = some code) :
    enterPacket s n x words b = packetFault s n x code := by
  rw [enterPacket, h]
theorem enterPacket_enter {s : State} {n : Nat} {x : Stream} {words : Nat} {b : BufDesc} (h : bufFault x b = none) :
    enterPacket s n x words b = packetDone s n words (enterBuf b) := by
  rw [enterPacket, h]

theorem bufTooBig_iff (b : BufDesc) : bufTooBig b = true ↔ 1048576 < b.size.toNat := by simp [bufTooBig]
theorem condReserved_iff (c : BitVec 3) : condReserved c = true ↔ 6 ≤ c.toNat := by simp [condReserved]

section
variable {s : State} {n : Nat} {x : Stream} (hx : mapFind s.streams n = some x) (hr : streamReady x = true)
include hx hr

theorem onStream_ready (f : Stream → Host.Outcome State Fault Refusal) : onStream s n f = f x := by
  unfold onStream
  rw [hx]
  exact if_pos hr

theorem pktNop_eq (len : BitVec 16) : exec (.pktNop n len) s = .next (packetDone s n (1 + len.toNat)) :=
  onStream_ready hx hr _

theorem pktLaunch_eq (w : Bool) (f a : W64) : exec (.pktLaunch n w f a) s = .next (launchPacket s n x w f a) :=
  onStream_ready hx hr _

theorem pktIb_eq (b : BufDesc) :
    exec (.pktIb n b) s = .next (if bufTooBig b = true then packetFault s n x 2 else enterPacket s n x 4 b) :=
  onStream_ready hx hr _

theorem pktLoop_eq (k : W32) : exec (.pktLoop n k) s = .next (
    if k = 0 then packetDone s n 2 (fun y => { y with skip := (1, 1) })
    else if x.loops.length ≥ 4 then packetFault s n x 5
    else packetDone s n 2 (fun y => { y with loops := ⟨x.depth, x.pos + 8, k.toNat⟩ :: y.loops })) :=
  onStream_ready hx hr _

theorem pktFfence_eq : exec (.pktFfence n) s = .next (streamWaits s n .ffence) := onStream_ready hx hr _

theorem pktWaitTime_eq (b : W64) :
    exec (.pktWaitTime n b) s = .next (if b.toNat + 16 < s.pt then packetDone s n 3 else streamWaits s n (.time b)) :=
  onStream_ready hx hr _

theorem pktEnd_eq : exec (.pktEnd n) s = .next (
    if x.loops.any (fun l => l.level == x.depth) = true then packetFault s n x 5
    else if x.depth = 0 then packetDone s n 1 (fun y => { y.discard with status := .ended })
    else packetDone s n 1 (fun y => { y with levels := y.levels.tail, skip := (0, 0) })) :=
  onStream_ready hx hr _

theorem pktEndloop_none (h : x.loops = []) : exec (.pktEndloop n) s = .next (packetFault s n x 5) := by
  refine (onStream_ready hx hr _).trans ?_
  rw [h]

theorem pktEndloop_eq {l : StreamLoop} {rest : List StreamLoop} (h : x.loops = l :: rest) : exec (.pktEndloop n) s = .next (
    if l.level ≠ x.depth then packetFault s n x 5
    else if l.count = 1 then packetDone s n 1 (fun y => { y with loops := rest })
    else packetDone s n 1 (fun y =>
      { y.setTop { y.top with pos := l.body, words := [] } with loops := { l with count := l.count - 1 } :: rest })) := by
  refine (onStream_ready hx hr _).trans ?_
  rw [h]

theorem pktWrite_ok {wide : Bool} {addr v : W64} {t : State}
    (h : does (streamWrite n x addr.toNat (if wide then 8 else 4) (fun _ => v.toNat) permST .write) s () t) :
    exec (.pktWrite n wide addr v) s = .next (packetDone t n (if wide then 5 else 4)) :=
  (onStream_ready hx hr _).trans (withAccess_ok n x _ h)

section
variable {c : BitVec 3} {addr ref mask : W64} {cnt : W32} {b b' : BufDesc} {l : List BufDesc} {v : W64} {key : Nat} {t : State}

theorem pktPred_reserved (h : 6 ≤ c.toNat ∨ 65535 < cnt.toNat) :
    exec (.pktPred n c addr ref mask cnt) s = .next (packetFault s n x 2) :=
  (onStream_ready hx hr _).trans (if_pos (by simpa [condReserved] using h))

theorem pktPred_zero (hc : c.toNat < 6) (h : cnt = 0) : exec (.pktPred n c addr ref mask cnt) s = .next (packetFault s n x 5) := by
  refine (onStream_ready hx hr _).trans ((if_neg ?_).trans (if_pos h))
  simp [condReserved, h, hc]

/-- PRED whose word is read (R99). -/
theorem pktPred_ok (hc : c.toNat < 6) (h1 : 1 ≤ cnt.toNat) (hmax : cnt.toNat ≤ 65535) (h : does (streamWord n x addr.toNat) s (v, key) t) :
    exec (.pktPred n c addr ref mask cnt) s = .next (packetDone (streamAcquire n x key t) n 8
      (if condHolds c (v &&& mask) ref then id else fun y => { y with skip := (cnt.toNat, 0) })) := by
  have hne : cnt ≠ 0 := fun h0 => by simp [h0] at h1
  refine (onStream_ready hx hr _).trans ((if_neg (by simp [condReserved, hc, hmax])).trans ((if_neg hne).trans ?_))
  rw [withAccess_ok n x _ h]
  dsimp only
  split <;> rfl

theorem pktWaitFlag_reserved (h : 6 ≤ c.toNat) : exec (.pktWaitFlag n c addr ref mask) s = .next (packetFault s n x 2) :=
  (onStream_ready hx hr _).trans (if_pos ((condReserved_iff c).2 h))

theorem pktWaitFlag_eq (hc : c.toNat < 6) : exec (.pktWaitFlag n c addr ref mask) s = waitWord s n x c addr ref mask :=
  (onStream_ready hx hr _).trans (if_neg (by simp [condReserved, hc]))

theorem pktCond_reserved (h : 6 ≤ c.toNat ∨ 1048576 < b.size.toNat ∨ 1048576 < b'.size.toNat) :
    exec (.pktCond n c addr ref b b') s = .next (packetFault s n x 2) :=
  (onStream_ready hx hr _).trans (if_pos (by simpa [condReserved, bufTooBig, or_assoc] using h))

/-- COND whose word is read enters the buffer that its condition chooses (R98). -/
theorem pktCond_ok (hc : c.toNat < 6) (hb : b.size.toNat ≤ 1048576) (hb' : b'.size.toNat ≤ 1048576)
    (h : does (streamWord n x addr.toNat) s (v, key) t) (hf : bufFault x (if condHolds c v ref then b else b') = none) :
    exec (.pktCond n c addr ref b b') s = .next (packetDone (streamAcquire n x key t) n 11 (enterBuf (if condHolds c v ref then b else b'))) := by
  refine (onStream_ready hx hr _).trans ((if_neg (by simp [condReserved, bufTooBig, hc, hb, hb'])).trans ?_)
  rw [withAccess_ok n x _ h]
  exact congrArg _ (enterPacket_enter hf)

/-- SWITCH whose word is read enters the buffer that the word names (R98). -/
theorem pktSwitch_ok (hl : l ≠ []) (hmax : l.length ≤ 16) (hb : ∀ g ∈ b :: l, g.size.toNat ≤ 1048576)
    (h : does (streamWord n x addr.toNat) s (v, key) t) (hf : bufFault x (l.getD v.toNat b) = none) :
    exec (.pktSwitch n addr b l) s = .next (packetDone (streamAcquire n x key t) n (6 + 3 * l.length) (enterBuf (l.getD v.toNat b))) := by
  have hsmall : ∀ g ∈ b :: l, bufTooBig g = false := fun g hg => by simpa [bufTooBig] using hb g hg
  refine (onStream_ready hx hr _).trans ((if_neg ?_).trans ?_)
  · have hany : l.any bufTooBig = false := by simpa using fun g hg => hsmall g (List.mem_cons_of_mem _ hg)
    simp [hl, hmax, hany, hsmall b]
  · rw [withAccess_ok n x _ h]
    exact congrArg _ (enterPacket_enter hf)
end

theorem pktSignal_waits {nt : Bool} {addr a : W64} (h : x.launched ≠ []) :
    exec (.pktSignal n nt addr a) s = .next (streamWaits s n (.signal nt addr a)) :=
  (onStream_ready hx hr _).trans (if_neg (by simpa using h))

theorem pktSignal_now {nt : Bool} {addr a : W64} (h : x.launched = []) : exec (.pktSignal n nt addr a) s = signalNow s n x nt addr a :=
  (onStream_ready hx hr _).trans (if_pos (by simp [h]))
end

section
variable {s : State} {n : Nat} {x : Stream} {c : BitVec 3} {addr ref mask v : W64} {key : Nat} {t : State}
  (h : does (streamWord n x addr.toNat) s (v, key) t)
include h

/-- The word of a WAIT that its condition holds of (R101); a WAIT that has waited leaves the record of its wait (R410). -/
theorem waitWord_holds (hc : condHolds c (v &&& mask) ref = true) : waitWord s n x c addr ref mask =
    .next (packetDone (if x.wait == some (.flag c addr ref mask) then waitPacketRecord (streamJoin n x key t) n x key
      else streamJoin n x key t) n 7) :=
  (withAccess_ok n x _ h).trans (congrArg _ (if_pos hc))

theorem waitWord_waits (hc : condHolds c (v &&& mask) ref = false) :
    waitWord s n x c addr ref mask = .next (streamWaits t n (.flag c addr ref mask)) :=
  (withAccess_ok n x _ h).trans (congrArg _ (if_neg (ne_true_of_eq_false hc)))
end

/-- A stream has joined all retirements, with the edges that they gave. -/
def joinAll (g : EdgeSet) (z : Stream) : Stream := { z with edges := g, retired := [] }

/-- SIGNAL with no retirement to join adds its addend, and signals the interface's vector where its notify bit says so (R101). -/
theorem signalNow_ok {s t : State} {n : Nat} {x : Stream} {nt : Bool} {addr a : W64} (hx : mapFind s.streams n = some x)
    (hret : x.retired = []) (hc : x.closing = none)
    (h : does (streamWrite n x addr.toNat 8 (fun v => (v + a.toNat) % 2 ^ 64) (permLD ||| permST) .sync) s () t) :
    ∃ u, signalNow s n x nt addr a = .next u ∧ u.mem = t.mem ∧
      ∀ i, x.ifc = some i → (ifcAt u i).msix = (ifcAt t i).msix + if nt then 1 else 0 := by
  have hedges : x.retired.foldl (fun g r => g.join r.2.2.2) x.edges = x.edges := by rw [hret]; rfl
  obtain ⟨y, hy, hyc⟩ : ∃ y, mapFind t.streams n = some y ∧ y.closing = none := by
    have := (closesNone_streamWrite _ _ _ _ _ _ _).ok h n
    simpa [hx, hc] using this
  unfold signalNow
  dsimp only
  rw [hedges, withAccess_ok n x _ h]
  refine ⟨_, rfl, ?_⟩
  rw [show (fun z : Stream => { z with edges := x.edges, retired := [] }) = joinAll x.edges from rfl]
  have hz : mapFind (t.updStream n (joinAll x.edges)).streams n = some (joinAll x.edges y) := by simp [hy]
  have hmem : (t.updStream n (joinAll x.edges)).mem = t.mem := by simp
  have hifc : ∀ i, ifcAt (t.updStream n (joinAll x.edges)) i = ifcAt t i := fun i => by simp
  generalize t.updStream n (joinAll x.edges) = u at *
  split
  · next j hj =>
    have hleft := packetDone_open 5 (s := u.updIfc j (fun f => { f with msix := f.msix + 1 })) hz hyc
    refine ⟨hleft.mem.trans hmem, fun i hi => ?_⟩
    obtain rfl : j = i := Option.some.inj (hj.symm.trans hi)
    rw [hleft.msix, ifcAt_updIfc, if_pos rfl, ← hifc]
    rfl
  · next notify _ _ hno =>
    have hleft := packetDone_open 5 hz hyc
    refine ⟨hleft.mem.trans hmem, fun i hi => ?_⟩
    have hnt : notify = false := Bool.eq_false_iff.2 fun ht => hno i ht hi
    rw [hleft.msix, hifc, hnt]
    rfl

/-- A LAUNCH while the Sower is not ready (R457). -/
theorem launchPacket_dropped {s : State} {n : Nat} {x : Stream} {w : Bool} {f a : W64} (hrdy : s.rdy.getLsbD 36 = false) :
    launchPacket s n x w f a = packetDone (dropAtSower s x.part.toNat) n 5 :=
  if_pos (by simp only [hrdy]; decide)

theorem launchPacket_unknown {s : State} {n : Nat} {x : Stream} {w : Bool} {f a : W64} (hrdy : s.rdy.getLsbD 36 = true)
    (hm : lookup s x.part f = none) : launchPacket s n x w f a = packetFault s n x 6 := by
  refine (if_neg (by simp only [hrdy]; decide)).trans ?_
  rw [hm]

/-- A LAUNCH of a block that is FAILED, or whose queue is full (R91, R98). -/
theorem launchPacket_refused {s : State} {n : Nat} {x : Stream} {w : Bool} {f a : W64} {m : Nat} (hrdy : s.rdy.getLsbD 36 = true)
    (hm : lookup s x.part f = some m) (hno : (mcbAt s m).state = 6 ∨ (mcbAt s m).queueFull = true) : launchPacket s n x w f a =
      if (mcbAt s m).state = 6 then packetDone (if w then setLastst s x 2 else s) n 5 else streamWaits s n (.launchFull w f a) := by
  refine (if_neg (by simp only [hrdy]; decide)).trans ?_
  rw [hm]
  dsimp only
  split
  · rfl
  · next h6 => rw [if_pos (hno.resolve_left h6)]

/-- A stream has launched the entry of a serial number in the queue of block `m`. -/
def launchedOne (m serial : Nat) (y : Stream) : Stream :=
  { y with region := y.region + 1, launched := y.launched ++ [(m, serial)] }

/-- A LAUNCH that the queue takes (R98): a KIND 2 entry at its end; with W = 1 the packet waits for its retirement. -/
theorem launchPacket_enters {s : State} {n : Nat} {x : Stream} {w : Bool} {f a : W64} {m : Nat} (hx : mapFind s.streams n = some x)
    (hrdy : s.rdy.getLsbD 36 = true) (hm : lookup s x.part f = some m) (h6 : (mcbAt s m).state ≠ 6)
    (hroom : (mcbAt s m).queueFull = false) : ∃ e, let t := launchPacket s n x w f a
      (mcbAt t m).entries = (mcbAt s m).entries ++ [e] ∧ descKind e.desc = 2 ∧ descArg e.desc = a ∧ descW e.desc = w ∧ e.stream = some n ∧
      (x.closing = none → ∃ y, mapFind t.streams n = some y ∧ y.launched = x.launched ++ [(m, s.nextSerial)] ∧
        (w = true → y.wait = some (.retire m s.nextSerial))) := by
  refine ⟨newEntry s (mkDesc 2 false w 0 0xFF 0 (w64 x.pos) a 0 0 0 0 0) none (streamEdge x) (some n) s.pt, ?_⟩
  unfold launchPacket
  rw [if_neg (by simp only [hrdy]; decide), hm]
  dsimp only
  rw [if_neg h6, if_neg (by rw [hroom]; decide)]
  unfold enqueue
  rw [show (fun y : Stream => { y with region := y.region + 1, launched := y.launched ++ [(m, s.nextSerial)] }) =
    launchedOne m s.nextSerial from rfl]
  obtain ⟨-, -, hstreams, -⟩ := enqueueAt_rest s m (mkDesc 2 false w 0 0xFF 0 (w64 x.pos) a 0 0 0 0 0) [] none (streamEdge x) (some n) s.pt
  obtain ⟨hentries, -, -⟩ := enqueueAt_block s m (mkDesc 2 false w 0 0xFF 0 (w64 x.pos) a 0 0 0 0 0) [] none (streamEdge x) (some n) s.pt
  generalize enqueueAt s m _ [] none (streamEdge x) (some n) s.pt = u at *
  have hy : mapFind (u.updStream n (launchedOne m s.nextSerial)).streams n = some (launchedOne m s.nextSerial x) := by simp [hstreams, hx]
  have hblock : mcbAt (u.updStream n (launchedOne m s.nextSerial)) m = mcbAt u m := by simp
  generalize u.updStream n (launchedOne m s.nextSerial) = v at *
  refine ⟨?_, descKind_launch w _ a, descArg_launch w _ a, descW_launch w _ a, rfl, fun hc => ?_⟩
  · rw [← hentries, ← hblock]
    split
    · simp [streamWaits]
    · exact congrArg Mcb.entries (mcbAt_congr (packetDone_keeps 5 hy).1 m)
  · split
    · exact ⟨_, by simp [streamWaits, hy]; rfl, rfl, fun _ => rfl⟩
    · next hw =>
      obtain ⟨y, hy', hxy⟩ := (packetDone_open 5 hy hc).stream _ hy
      exact ⟨y, hy', hxy.launched, fun h => absurd h hw⟩

end Sys2Proof
end

/-! # The zc words of a command port (O49) -/
section
namespace Sys2Proof
open Machine

theorem reg_setReg (h : Hart) (d : BitVec 5) (v : W64) : (h.setReg d v).reg d = if d = 0 then 0 else v := by
  unfold Hart.reg Hart.setReg
  split
  · rfl
  · simp

theorem reg_congr {h g : Hart} (e : h.x = g.x) (d : BitVec 5) : h.reg d = g.reg d := by simp only [Hart.reg, e]

/-- A core whose counter `a` counts the instruction that led from `s` to `t`, unless that wrote it. -/
def recounted (s t : State) (k : Nat) (completed : Bool) (a : Nat) (h : Hart) : Hart :=
  if (hartAt t k).csr a = (hartAt s k).csr a then h.setCsr a (((hartAt s k).counted s.free completed).csr a) else h

theorem recounted_keeps (s t : State) (k : Nat) (completed : Bool) (a : Nat) (h : Hart) :
    (recounted s t k completed a h).x = h.x ∧ (recounted s t k completed a h).pc = h.pc := by
  unfold recounted
  split <;> exact ⟨rfl, rfl⟩

theorem hartAt_countRv (s t : State) (k : Nat) (completed : Bool) :
    hartAt (countRv s t k completed) k = recounted s t k completed 0xB00 (recounted s t k completed 0xB02 (hartAt t k)) := by
  have h := hartAt_updHart (s := t) k (fun h => recounted s t k completed 0xB00 (recounted s t k completed 0xB02 h)) k
  rwa [if_pos rfl] at h

/-- The counters of a core change CSRs alone. -/
theorem countRv_keeps (s t : State) (k : Nat) (completed : Bool) : let u := countRv s t k completed
    (hartAt u k).x = (hartAt t k).x ∧ (hartAt u k).pc = (hartAt t k).pc ∧ u.mem = t.mem ∧ u.streams = t.streams := by
  obtain ⟨hx, hpc⟩ := recounted_keeps s t k completed 0xB00 (recounted s t k completed 0xB02 (hartAt t k))
  obtain ⟨hx', hpc'⟩ := recounted_keeps s t k completed 0xB02 (hartAt t k)
  dsimp only
  rw [hartAt_countRv]
  exact ⟨hx.trans hx', hpc.trans hpc', rfl, rfl⟩

/-- An instruction that completes with a value in register `d`: what it returns, its next pc, and memory as it was. -/
theorem hartNext_returns {s : State} {k : Nat} {f : Hart → Hart} {d : BitVec 5} {v : W64}
    (hf : (f (hartAt s k)).x = ((hartAt s k).setReg d v).x) : let t := hartNext s k f
    (hartAt t k).reg d = (if d = 0 then 0 else v) ∧ (hartAt t k).pc = (hartAt s k).pc + 4 ∧ t.mem = s.mem ∧ t.streams = s.streams := by
  obtain ⟨hx, hpc, hmem, hstreams⟩ := countRv_keeps s (s.updHart k (fun x => { f x with pc := x.pc + 4 })) k true
  rw [hartAt_updHart, if_pos rfl] at hx hpc
  exact ⟨(reg_congr (hx.trans hf) d).trans (reg_setReg _ d v), hpc, hmem, hstreams⟩

/-- A word that completes with a value in register `d` returns it. -/
theorem returns_of_hartNext {s : State} {i : Instr} {f : Hart → Hart} {d : BitVec 5} {v : W64} (hi : exec i s = .next (hartNext s s.hart f))
    (hf : (f (hartAt s s.hart)).x = ((hartAt s s.hart).setReg d v).x) : ∃ t, exec i s = .next t ∧
    (hartAt t s.hart).reg d = (if d = 0 then 0 else v) ∧ (hartAt t s.hart).pc = (hartAt s s.hart).pc + 4 ∧ t.mem = s.mem := by
  obtain ⟨hreg, hpc, hmem, -⟩ := hartNext_returns hf
  exact ⟨_, hi, hreg, hpc, hmem⟩

/-- A stream with a word more in its FIFO (R443). -/
def pushWord (w : W32) (x : Stream) : Stream := { x with fifo := x.fifo ++ [w], tail := x.tail + 4 }

/-- What zc.stat reads (R445). -/
def statWord (h : Hart) (port : Option (Nat × Stream)) (v : Nat) : W64 :=
  match v with
  | 0 => h.strstat
  | 1 => h.lastst
  | 2 => w64 ((port.map (·.2.packets)).getD 0)
  | 3 => w64 (256 - ((port.map (·.2.fifo.length)).getD 0))
  | _ => BitVec.allOnes 64

theorem portStream_find {s : State} {h : Hart} {p : Nat × Stream} (hp : portStream s h = some p) : mapFind s.streams p.1 = some p.2 := by
  unfold portStream at hp
  split at hp
  · simp at hp
  · obtain ⟨x, hx, rfl⟩ := Option.map_eq_some_iff.1 hp
    exact hx

section
variable {s : State} {a d : BitVec 5}

/-- In a mode that ZCEN does not name a zc word is an illegal instruction (R442). -/
theorem zcWord_off (hoff : (hartAt s s.hart).zcOn = false) (run : Hart → State) : zcWord s run = .next (illegalHart s s.hart) := by
  unfold zcWord
  rw [if_neg (ne_true_of_eq_false hoff)]

section
variable (hoff : (hartAt s s.hart).zcOn = false)
include hoff
theorem zcPush_off : exec (.zcPush a d) s = .next (illegalHart s s.hart) := by
  show execZcPush a d s = _
  exact zcWord_off hoff _
theorem zcFence_off : exec (.zcFence d) s = .next (illegalHart s s.hart) := by
  show execZcFence d s = _
  exact zcWord_off hoff _
theorem zcStat_off : exec (.zcStat a d) s = .next (illegalHart s s.hart) := by
  show execZcStat a d s = _
  exact zcWord_off hoff _
end

variable (hon : (hartAt s s.hart).zcOn = true)
include hon

theorem zcWord_on (run : Hart → State) : zcWord s run = .next (run (hartAt s s.hart)) := by
  unfold zcWord
  rw [if_pos hon]

/-- zc.push without a stream that has room (R443). -/
theorem zcPush_full (hfull : ∀ p, portStream s (hartAt s s.hart) = some p → 256 ≤ p.2.fifo.length) :
    exec (.zcPush a d) s = .next (hartNext s s.hart (fun x => x.setReg d (BitVec.allOnes 64))) := by
  show execZcPush a d s = _
  unfold execZcPush
  rw [zcWord_on hon]
  refine congrArg _ ?_
  split
  · rfl
  · next n x hp => exact if_pos (hfull (n, x) hp)

/-- zc.push into a port with room (R443). -/
theorem zcPush_room {p : Nat × Stream} (hp : portStream s (hartAt s s.hart) = some p) (hroom : p.2.fifo.length < 256) :
    exec (.zcPush a d) s = .next (hartNext (s.updStream p.1 (pushWord (BitVec.ofNat 32 ((hartAt s s.hart).reg a).toNat))) s.hart
      (fun y => y.setReg d (w64 (255 - p.2.fifo.length)))) := by
  show execZcPush a d s = _
  unfold execZcPush
  rw [zcWord_on hon]
  simp only [hp]
  rw [if_neg (Nat.not_le.2 hroom)]
  rfl

theorem zcFence_eq : exec (.zcFence d) s = .next (
    if portIdle s (hartAt s s.hart) = true then hartNext s s.hart (fun x => { x.setReg d x.strstat with fencing := false })
    else if (hartAt s s.hart).pendingIrq = true then hartNext s s.hart (fun x => { x.setReg d (w64 (2 ^ 63)) with fencing := false })
    else s.updHart s.hart (fun x => { x with fencing := true })) := by
  show execZcFence d s = _
  unfold execZcFence
  rw [zcWord_on hon]

theorem zcStat_eq : exec (.zcStat a d) s = .next (hartNext s s.hart (fun x =>
    x.setReg d (statWord (hartAt s s.hart) (portStream s (hartAt s s.hart)) ((hartAt s s.hart).reg a).toNat))) := by
  show execZcStat a d s = _
  unfold execZcStat
  rw [zcWord_on hon]
  rfl

/-- zc.push appends the word, and returns the words left (R443). -/
theorem zcPush_appends {p : Nat × Stream} (hp : portStream s (hartAt s s.hart) = some p) (hroom : p.2.fifo.length < 256) :
    ∃ t y, exec (.zcPush a d) s = .next t ∧ ((hartAt t s.hart).reg d = (if d = 0 then 0 else BitVec.ofNat 64 (255 - p.2.fifo.length)) ∧
      (hartAt t s.hart).pc = (hartAt s s.hart).pc + 4 ∧ t.mem = s.mem) ∧ mapFind t.streams p.1 = some y ∧
      y.fifo = p.2.fifo ++ [BitVec.ofNat 32 ((hartAt s s.hart).reg a).toNat] ∧ y.tail = p.2.tail + 4 := by
  have hfound := portStream_find hp
  obtain ⟨hreg, hpc, hmem, hstreams⟩ := hartNext_returns (k := s.hart) (f := fun y => y.setReg d (w64 (255 - p.2.fifo.length)))
    (s := s.updStream p.1 (pushWord (BitVec.ofNat 32 ((hartAt s s.hart).reg a).toNat))) rfl
  refine ⟨_, pushWord (BitVec.ofNat 32 ((hartAt s s.hart).reg a).toNat) p.2, zcPush_room hon hp hroom, ⟨hreg, ?_, ?_⟩, ?_, rfl, rfl⟩
  · rw [hpc, hartAt_updStream]
  · rw [hmem]; simp
  · rw [hstreams]; simp [hfound]
end

end Sys2Proof
end

/-! # Packets, their waits, and the command port (O49) -/
section
namespace Sys2Proof
open Machine

/-- A stream has observed the retirement of an invocation, whose edges it takes. -/
def observeRetired (m sn : Nat) (g : EdgeSet) (y : Stream) : Stream :=
  { y with edges := y.edges.join g, retired := y.retired.filter (fun q => !(q.1 == m && q.2.1 == sn)) }

section
variable {s : State} {n : Nat} {x : Stream} (hx : mapFind s.streams n = some x)
include hx

/-- LAUNCH_ENQUEUE_RETRY is the LAUNCH that waits (R91). -/
theorem launchEnqueueRetry_eq {w : Bool} {f a : W64} (hw : x.wait = some (.launchFull w f a)) :
    exec (.launchEnqueueRetry n) s = .next (launchPacket s n x w f a) := by
  show execLaunchEnqueueRetry n s = _
  simp only [execLaunchEnqueueRetry, hx, hw]

/-- LASTST takes the status of the retirement that a LAUNCH awaited (R98). -/
theorem launchRetireWaitEnd_lastst {m sn : Nat} {st : Byte} {g : EdgeSet} (hw : x.wait = some (.retire m sn))
    (hr : x.retired.find? (fun r => r.1 == m && r.2.1 == sn) = some (m, sn, st, g)) :
    ∃ t, exec (.launchRetireWaitEnd n) s = .next t ∧ ∀ i, x.ifc = some i → (ifcAt t i).lastst = BitVec.ofNat 64 st.toNat := by
  have hy : mapFind (s.updStream n (observeRetired m sn g)).streams n = some (observeRetired m sn g x) := by simp [hx]
  obtain ⟨hstreams, hlastst⟩ := setLastst_keeps (s.updStream n (observeRetired m sn g)) x st
  refine ⟨packetDone (setLastst (s.updStream n (observeRetired m sn g)) x st) n 5, ?_, fun i hi => ?_⟩
  · show execLaunchRetireWaitEnd n s = _
    simp only [execLaunchRetireWaitEnd, hx, hw, hr]
    rfl
  · rw [(packetDone_keeps 5 (hstreams ▸ hy)).2 i]
    exact hlastst i hi

theorem waitReread_eq {c : BitVec 3} {addr ref mask : W64} (hw : x.wait = some (.flag c addr ref mask)) :
    exec (.waitReread n) s = waitWord s n x c addr ref mask := by
  show execWaitReread n s = _
  simp only [execWaitReread, hx, hw]

theorem waitTimeEnd_ok {b : W64} (hw : x.wait = some (.time b)) (hb : b.toNat + 16 < s.pt) :
    exec (.waitTimeEnd n) s = .next (packetDone s n 3) := by
  show execWaitTimeEnd n s = _
  simp only [execWaitTimeEnd, hx, hw]
  rw [if_pos hb]

theorem signalAdd_eq {nt : Bool} {addr a : W64} (hw : x.wait = some (.signal nt addr a)) (hl : x.launched = []) :
    exec (.signalAdd n) s = signalNow s n x nt addr a := by
  show execSignalAdd n s = _
  simp only [execSignalAdd, hx, hw]
  exact if_pos (by simp [hl])

theorem ffenceRefetch_eq (hw : x.wait = some .ffence) : exec (.ffenceRefetch n) s = .next (packetDone s n 1 Stream.discard) := by
  show execFfenceRefetch n s = _
  simp only [execFfenceRefetch, hx, hw]
end

theorem bufFault_deep {x : Stream} {b : BufDesc} (hb : b.size ≠ 0) (hd : 4 ≤ x.depth) : bufFault x b = some 4 :=
  (if_neg hb).trans (if_pos hd)
theorem bufFault_outside {x : Stream} {b : BufDesc} (hb : b.size ≠ 0) (hd : x.depth < 4)
    (ho : b.addr.toNat % 4 ≠ 0 ∨ x.dlen < b.addr.toNat + 4 * b.size.toNat) : bufFault x b = some 3 :=
  (if_neg hb).trans ((if_neg (Nat.not_le.2 hd)).trans (if_pos ho))
theorem bufFault_none {x : Stream} {b : BufDesc}
    (h : b.size = 0 ∨ x.depth < 4 ∧ b.addr.toNat % 4 = 0 ∧ b.addr.toNat + 4 * b.size.toNat ≤ x.dlen) : bufFault x b = none := by
  unfold bufFault
  split
  · rfl
  · next hne =>
    obtain ⟨hd, ha, hin⟩ := h.resolve_left hne
    rw [if_neg (Nat.not_le.2 hd), if_neg (by omega)]

/-- Settles O49, clause by clause: the packet after a packet, the packets, the ends of their waits, and the zc words. -/
theorem streamPackets : Obligations.StreamPackets := by
  unfold Obligations.StreamPackets
  refine ⟨fun s n x w hx hin _ _ => ⟨fun iss hc => packetDone_closes w hx hc, fun hc => packetDone_next hx hin hc⟩,
    fun s n x hx hr => ?packets, fun s n x hx => ?waits, fun s a d => ?words⟩
  case packets =>
    dsimp only
    refine ⟨fun len => pktNop_eq hx hr len, fun w f a hrdy => ?dropped,
      fun w f a hrdy => ⟨fun hno => ?unknown, fun m hm => ?launch⟩, fun b => ?ib,
      fun c addr ref mask cnt => ⟨fun h => pktPred_reserved hx hr h, fun hc h => pktPred_zero hx hr hc h,
        fun v key t hc h1 hmax h => pktPred_ok hx hr hc h1 hmax h⟩,
      fun k => ?loop, ⟨fun h => pktEndloop_none hx hr h, fun l rest h => ?endloop⟩, fun wide addr v t h => pktWrite_ok hx hr h,
      fun c addr ref mask => ⟨fun h => pktWaitFlag_reserved hx hr h, fun v key t hc h => ?waitFlag⟩, fun b => ?waitTime,
      fun nt addr a => ⟨fun h => pktSignal_waits hx hr h, fun t hl hret hc h => ?signal⟩, pktFfence_eq hx hr,
      fun c addr ref b b' => ⟨fun h => pktCond_reserved hx hr h, fun v key t hc hb hb' h hf => pktCond_ok hx hr hc hb hb' h hf⟩,
      fun addr b l v key t hl hmax hb h hf => pktSwitch_ok hx hr hl hmax hb h hf, ?stop⟩
    case dropped => rw [pktLaunch_eq hx hr, launchPacket_dropped hrdy]
    case unknown => rw [pktLaunch_eq hx hr, launchPacket_unknown hrdy hno]
    case launch =>
      rw [pktLaunch_eq hx hr]
      refine ⟨fun h6 => ?_, fun h6 hfull => ?_, fun h6 hroom hc => ?_⟩
      · rw [launchPacket_refused hrdy hm (.inl h6), if_pos h6]
      · rw [launchPacket_refused hrdy hm (.inr hfull), if_neg h6]
      · obtain ⟨e, hentries, hkind, harg, hdw, hstream, hlaunched⟩ := launchPacket_enters (w := w) (a := a) hx hrdy hm h6 hroom
        obtain ⟨y, hy⟩ := hlaunched hc
        exact ⟨_, e, y, rfl, hentries, hkind, harg, hdw, hstream, hy⟩
    case ib =>
      rw [pktIb_eq hx hr]
      refine ⟨fun h => ?_, fun hs h0 hd => ?_, fun hs h0 hd ho => ?_, fun hs h => ?_⟩
      · rw [if_pos ((bufTooBig_iff b).2 h)]
      all_goals rw [if_neg (mt (bufTooBig_iff b).1 (Nat.not_lt.2 hs))]
      · rw [enterPacket_fault (bufFault_deep h0 hd)]
      · rw [enterPacket_fault (bufFault_outside h0 hd ho)]
      · rw [enterPacket_enter (bufFault_none h)]
    case loop =>
      rw [pktLoop_eq hx hr]
      exact ⟨fun h => by rw [if_pos h], fun h hl => by rw [if_neg h, if_pos hl], fun h hl => by rw [if_neg h, if_neg (Nat.not_le.2 hl)]⟩
    case endloop =>
      rw [pktEndloop_eq hx hr h]
      exact ⟨fun hl => by rw [if_pos hl], fun hl hc => by rw [if_neg (not_not.2 hl), if_pos hc],
        fun hl hc => by rw [if_neg (not_not.2 hl), if_neg hc]⟩
    case waitFlag =>
      rw [pktWaitFlag_eq hx hr hc]
      refine ⟨fun hcond hw => ?_, waitWord_waits h⟩
      rw [waitWord_holds h hcond, if_neg (by simp [hw])]
    case waitTime =>
      rw [pktWaitTime_eq hx hr]
      exact ⟨fun h => by rw [if_pos h], fun h => by rw [if_neg (Nat.not_lt.2 h)]⟩
    case signal =>
      rw [pktSignal_now hx hr hl]
      exact signalNow_ok hx hret hc h
    case stop =>
      rw [pktEnd_eq hx hr]
      refine ⟨fun ⟨l, hl, he⟩ => ?_, fun h => ?_⟩
      · rw [if_pos (List.any_eq_true.2 ⟨l, hl, by simp [he]⟩)]
      · rw [if_neg (by simpa using h)]
        by_cases hd : x.depth = 0
        · simp only [if_pos hd]
        · simp only [if_neg hd]
  case waits =>
    refine ⟨fun w f a m hrdy hw hm h6 hroom => ?retry, fun m sn st g hw hr => launchRetireWaitEnd_lastst hx hw hr,
      fun c addr ref mask v key t hw h => ?reread, fun b hw hb => waitTimeEnd_ok hx hw hb, fun nt addr a t hw hl hret hc h => ?add,
      fun hw => ffenceRefetch_eq hx hw⟩
    case retry =>
      obtain ⟨e, hentries, hkind, harg, -⟩ := launchPacket_enters (w := w) (a := a) hx hrdy hm h6 hroom
      exact ⟨_, e, launchEnqueueRetry_eq hx hw, hentries, hkind, harg⟩
    case reread =>
      rw [waitReread_eq hx hw]
      refine ⟨fun hcond => ?_, waitWord_waits h⟩
      rw [waitWord_holds h hcond, if_pos (by simp [hw])]
    case add =>
      rw [signalAdd_eq hx hw hl]
      obtain ⟨u, hu, hmem, -⟩ := signalNow_ok (nt := nt) hx hret hc h
      exact ⟨u, hu, hmem⟩
  case words =>
    refine ⟨fun hoff i hi => ?off, fun hon => ⟨fun hfull => returns_of_hartNext (zcPush_full hon hfull) rfl, fun p hp hroom => ?push,
      fun hidle => ?idle, fun hbusy hirq => ?interrupted, fun hbusy hirq => ?goesOn, returns_of_hartNext (zcStat_eq hon) rfl⟩⟩
    case off =>
      simp only [List.mem_cons, List.not_mem_nil, or_false] at hi
      obtain rfl | rfl | rfl := hi
      · exact zcPush_off hoff
      · exact zcFence_off hoff
      · exact zcStat_off hoff
    case push =>
      obtain ⟨t, y, ht, hreturns, hy⟩ := zcPush_appends (a := a) (d := d) hon hp hroom
      exact ⟨⟨t, ht, hreturns⟩, t, y, ht, hy⟩
    case idle =>
      exact returns_of_hartNext ((zcFence_eq hon).trans (by rw [if_pos hidle])) rfl
    case interrupted =>
      exact returns_of_hartNext ((zcFence_eq hon).trans (by rw [if_neg (ne_true_of_eq_false hbusy), if_pos hirq])) rfl
    case goesOn =>
      exact (zcFence_eq hon).trans (by rw [if_neg (ne_true_of_eq_false hbusy), if_neg (ne_true_of_eq_false hirq)])

end Sys2Proof
end
